-- ==== Sys2Proof/Word.lean ====
section
/-! DEFINITION. Words, addresses and the fixed-size groups (four tubes, five zones, eight lines) of the DG-440. -/

namespace Sys2Proof

/-- A 16-bit data word (00, "Words and addresses"). -/
abbrev Word := BitVec 16

/-- A 20-bit word address; addresses wrap modulo 100000H. -/
abbrev Addr := BitVec 20

/-- A 32-bit count (bank clock, purge accumulator). -/
abbrev Long := BitVec 32

/-- A channel number, or a word number within a channel, 0 to 63 (R5). -/
abbrev Six := BitVec 6

/-- One of four: a tube T0 to T3, a bank input 0 to 3, a set or a way of the Descriptor Cache. -/
inductive Ix4
  | i0 | i1 | i2 | i3
  deriving DecidableEq, Repr

/-- One of five: a heater zone, 0 at the load end. -/
inductive Ix5
  | i0 | i1 | i2 | i3 | i4
  deriving DecidableEq, Repr

/-- One of eight: a gas line. -/
inductive Ix8
  | i0 | i1 | i2 | i3 | i4 | i5 | i6 | i7
  deriving DecidableEq, Repr

/-- A tube, T0 (`i0`) to T3 (`i3`). -/
abbrev Tube := Ix4

/-- A heater zone, 0 (`i0`) to 4 (`i4`). -/
abbrev Zone := Ix5

/-- A gas line, 0 (`i0`) to 7 (`i7`). -/
abbrev Line := Ix8

def Ix4.toNat : Ix4 → Nat
  | .i0 => 0 | .i1 => 1 | .i2 => 2 | .i3 => 3

/-- The index whose number is `n` modulo 4. -/
def Ix4.ofMod (n : Nat) : Ix4 :=
  if n % 4 = 0 then .i0 else if n % 4 = 1 then .i1 else if n % 4 = 2 then .i2 else .i3

def Ix4.all : List Ix4 := [.i0, .i1, .i2, .i3]

/-- The indexes that come after one. -/
def Ix4.later : Ix4 → List Ix4
  | .i0 => [.i1, .i2, .i3] | .i1 => [.i2, .i3] | .i2 => [.i3] | .i3 => []

def Ix5.toNat : Ix5 → Nat
  | .i0 => 0 | .i1 => 1 | .i2 => 2 | .i3 => 3 | .i4 => 4

/-- The zone numbered `n`, if there is one. -/
def Ix5.ofNat? : Nat → Option Ix5
  | 0 => some .i0 | 1 => some .i1 | 2 => some .i2 | 3 => some .i3 | 4 => some .i4 | _ => none

def Ix5.all : List Ix5 := [.i0, .i1, .i2, .i3, .i4]

def Ix8.toNat : Ix8 → Nat
  | .i0 => 0 | .i1 => 1 | .i2 => 2 | .i3 => 3 | .i4 => 4 | .i5 => 5 | .i6 => 6 | .i7 => 7

/-- The line numbered `n`, if there is one. -/
def Ix8.ofNat? : Nat → Option Ix8
  | 0 => some .i0 | 1 => some .i1 | 2 => some .i2 | 3 => some .i3
  | 4 => some .i4 | 5 => some .i5 | 6 => some .i6 | 7 => some .i7 | _ => none

def Ix8.all : List Ix8 := [.i0, .i1, .i2, .i3, .i4, .i5, .i6, .i7]

/-- Four like things. -/
structure Four (α : Type) where
  a0 : α
  a1 : α
  a2 : α
  a3 : α
  deriving DecidableEq, Repr

/-- Five like things. -/
structure Five (α : Type) where
  a0 : α
  a1 : α
  a2 : α
  a3 : α
  a4 : α
  deriving DecidableEq, Repr

/-- Eight like things. -/
structure Eight (α : Type) where
  a0 : α
  a1 : α
  a2 : α
  a3 : α
  a4 : α
  a5 : α
  a6 : α
  a7 : α
  deriving DecidableEq, Repr

def Four.get {α : Type} (v : Four α) : Ix4 → α
  | .i0 => v.a0 | .i1 => v.a1 | .i2 => v.a2 | .i3 => v.a3

def Four.set {α : Type} (v : Four α) : Ix4 → α → Four α
  | .i0, x => { v with a0 := x }
  | .i1, x => { v with a1 := x }
  | .i2, x => { v with a2 := x }
  | .i3, x => { v with a3 := x }

def Four.fill {α : Type} (x : α) : Four α := ⟨x, x, x, x⟩

def Four.map {α β : Type} (f : α → β) (v : Four α) : Four β := ⟨f v.a0, f v.a1, f v.a2, f v.a3⟩

def Four.ofFn {α : Type} (f : Ix4 → α) : Four α := ⟨f .i0, f .i1, f .i2, f .i3⟩

def Four.toList {α : Type} (v : Four α) : List α := [v.a0, v.a1, v.a2, v.a3]

def Five.get {α : Type} (v : Five α) : Ix5 → α
  | .i0 => v.a0 | .i1 => v.a1 | .i2 => v.a2 | .i3 => v.a3 | .i4 => v.a4

def Five.set {α : Type} (v : Five α) : Ix5 → α → Five α
  | .i0, x => { v with a0 := x }
  | .i1, x => { v with a1 := x }
  | .i2, x => { v with a2 := x }
  | .i3, x => { v with a3 := x }
  | .i4, x => { v with a4 := x }

def Five.fill {α : Type} (x : α) : Five α := ⟨x, x, x, x, x⟩

def Five.map {α β : Type} (f : α → β) (v : Five α) : Five β := ⟨f v.a0, f v.a1, f v.a2, f v.a3, f v.a4⟩

def Five.ofFn {α : Type} (f : Ix5 → α) : Five α := ⟨f .i0, f .i1, f .i2, f .i3, f .i4⟩

def Five.toList {α : Type} (v : Five α) : List α := [v.a0, v.a1, v.a2, v.a3, v.a4]

def Eight.get {α : Type} (v : Eight α) : Ix8 → α
  | .i0 => v.a0 | .i1 => v.a1 | .i2 => v.a2 | .i3 => v.a3
  | .i4 => v.a4 | .i5 => v.a5 | .i6 => v.a6 | .i7 => v.a7

def Eight.set {α : Type} (v : Eight α) : Ix8 → α → Eight α
  | .i0, x => { v with a0 := x }
  | .i1, x => { v with a1 := x }
  | .i2, x => { v with a2 := x }
  | .i3, x => { v with a3 := x }
  | .i4, x => { v with a4 := x }
  | .i5, x => { v with a5 := x }
  | .i6, x => { v with a6 := x }
  | .i7, x => { v with a7 := x }

def Eight.fill {α : Type} (x : α) : Eight α := ⟨x, x, x, x, x, x, x, x⟩

def Eight.map {α β : Type} (f : α → β) (v : Eight α) : Eight β :=
  ⟨f v.a0, f v.a1, f v.a2, f v.a3, f v.a4, f v.a5, f v.a6, f v.a7⟩

def Eight.ofFn {α : Type} (f : Ix8 → α) : Eight α :=
  ⟨f .i0, f .i1, f .i2, f .i3, f .i4, f .i5, f .i6, f .i7⟩

def Eight.toList {α : Type} (v : Eight α) : List α := [v.a0, v.a1, v.a2, v.a3, v.a4, v.a5, v.a6, v.a7]

end Sys2Proof
end

