-- ==== Sys2Proof/Syntax.lean ====
section
/-! DEFINITION. The commands of the DG-440: one constructor for each row of spec/opcode_table.json. -/

namespace Sys2Proof

/-- The class every controller access carries (00, "Access class"). -/
inductive AccessClass
  | operator | service
  deriving DecidableEq, Repr

/-- The direction of a controller access. -/
inductive Direction
  | read | write
  deriving DecidableEq, Repr

/-- A place in the furnace window: tube, channel and word number (R5). -/
structure Place where
  tube : Tube
  channel : Six
  word : Six
  deriving DecidableEq, Repr

/-- A command of the block. A controller access has its class `c`, its address (or its `Place` in the furnace window)
and, for a write, its value. `straps` is the level of the four ROOT_SEL pins. `words` is how many words of the
transaction arrive in this command (log 8). Each row's name stands before its constructor. -/
inductive Instr
  /- RESET -/
  | reset (straps : BitVec 4)
  /- ROOT_READ -/
  | rootRead (words : Nat)
  /- TUBE_LOAD -/
  | tubeLoad (words : Nat)
  /- SCAN_LIST_LOAD -/
  | scanListLoad (words : Nat)
  /- ADOPTION_START -/
  | adoptionStart
  /- TUBE_ADOPT -/
  | tubeAdopt (words : Nat)
  /- FLUSH_DESC -/
  | flushDesc (c : AccessClass)
  /- RELOAD -/
  | reload (c : AccessClass) (straps : BitVec 4)
  /- TRIP_CLEAR -/
  | tripClear (c : AccessClass)
  /- ROOT_COMMAND_UNKNOWN -/
  | rootCommandUnknown (c : AccessClass) (value : Word)
  /- ARGUMENT_WORD_WRITE -/
  | argumentWordWrite (c : AccessClass) (value : Word)
  /- CONSUMER_INDEX_WRITE -/
  | consumerIndexWrite (c : AccessClass) (value : Word)
  /- CONSUMER_ADVANCE -/
  | consumerAdvance
  /- ROOT_WRITE -/
  | rootWrite (c : AccessClass) (word : Six) (value : Word)
  /- OPEN_PASS_READ -/
  | openPassRead (c : AccessClass) (addr : Addr)
  /- OPEN_PASS_WRITE -/
  | openPassWrite (c : AccessClass) (addr : Addr) (value : Word)
  /- GUARDED_PASS_READ -/
  | guardedPassRead (c : AccessClass) (addr : Addr)
  /- GUARDED_PASS_WRITE -/
  | guardedPassWrite (c : AccessClass) (addr : Addr) (value : Word)
  /- PASS_WRITE_DEFERRED -/
  | passWriteDeferred
  /- PASS_ACCESS_COMPLETE -/
  | passAccessComplete
  /- DESC_WALK -/
  | descWalk (words : Nat)
  /- STATUS_WRITE_BACK -/
  | statusWriteBack
  /- PLAIN_READ -/
  | plainRead (c : AccessClass) (place : Place)
  /- PLAIN_WRITE -/
  | plainWrite (c : AccessClass) (place : Place) (value : Word)
  /- CHANNEL_READ -/
  | channelRead (c : AccessClass) (place : Place)
  /- SHAPED_WRITE -/
  | shapedWrite (c : AccessClass) (place : Place) (value : Word)
  /- MANUAL_WRITE -/
  | manualWrite (c : AccessClass) (place : Place) (value : Word)
  /- TUBE_PURGE -/
  | tubePurge (c : AccessClass) (tube : Tube) (channel : Six)
  /- TUBE_HOLD -/
  | tubeHold (c : AccessClass) (tube : Tube) (channel : Six)
  /- TUBE_RESUME -/
  | tubeResume (c : AccessClass) (tube : Tube) (channel : Six)
  /- TUBE_ABORT -/
  | tubeAbort (c : AccessClass) (tube : Tube) (channel : Six)
  /- TUBE_VENT -/
  | tubeVent (c : AccessClass) (tube : Tube) (channel : Six)
  /- TUBE_FLUSH -/
  | tubeFlush (c : AccessClass) (tube : Tube) (channel : Six)
  /- TUBE_COMMAND_UNKNOWN -/
  | tubeCommandUnknown (c : AccessClass) (tube : Tube) (channel : Six) (value : Word)
  /- SUMMARY_READ -/
  | summaryRead (c : AccessClass) (tube : Tube) (channel : Six)
  /- PURGE_LATCH_LOW_READ -/
  | purgeLatchLowRead (c : AccessClass) (tube : Tube) (channel : Six)
  /- PURGE_LATCH_HIGH_READ -/
  | purgeLatchHighRead (c : AccessClass) (tube : Tube) (channel : Six)
  /- ENTRY_EXPIRY -/
  | entryExpiry (tube : Tube) (ticket : Word)
  /- RELEASE_GAP_EXPIRY -/
  | releaseGapExpiry (tube : Tube)
  /- STEP_EXPIRY -/
  | stepExpiry (tube : Tube)
  /- SETTLE_EXPIRY -/
  | settleExpiry (tube : Tube)
  /- MOTION_EXPIRY -/
  | motionExpiry (tube : Tube)
  /- SAMPLE_EXPIRY -/
  | sampleExpiry (tube : Tube)
  /- PURGE_LIMIT_EXPIRY -/
  | purgeLimitExpiry (tube : Tube)
  /- LINE_SAMPLE_ARRIVAL -/
  | lineSampleArrival
  /- SCRUBBER_EXPIRY -/
  | scrubberExpiry
  /- ABORT_REQUEST -/
  | abortRequest
  /- ABORT_CLAIM_EXPIRY -/
  | abortClaimExpiry (tube : Tube)
  /- BANK_TRIP -/
  | bankTrip
  /- SCAN_EXPIRY -/
  | scanExpiry
  /- SCAN_ARRIVAL: `board` is the word the field boards have written at the source since, if they have (log 22) -/
  | scanArrival (board : Option Word)
  /- STALE_EXPIRY -/
  | staleExpiry
  /- SERVICE_EXPIRY -/
  | serviceExpiry
  /- DELIVER_WRITE_COMPLETE -/
  | deliverWriteComplete
  /- NOTICE_RECORD_TAKE -/
  | noticeRecordTake (words : Nat)
  /- PRODUCER_ADVANCE -/
  | producerAdvance
  /- ROOT_WORD_WRITE -/
  | rootWordWrite
  /- CHANNEL_ACCESS_REFUSED: a read (`value` unused, 0) or a write refused before dispatch by kind -/
  | channelAccessRefused (c : AccessClass) (direction : Direction) (place : Place) (value : Word)
  deriving DecidableEq, Repr

end Sys2Proof
end

