-- ==== Sys2Proof/Decode.lean ====
section
/-! DEFINITION. Reading a command from a word. The table gives its rows no bits (every row's "fields" list is empty
and no row has "fixed" bits), so no word spells a command (log 23). -/

namespace Sys2Proof

/-- No row of spec/opcode_table.json gives bits, so no word spells a command. -/
def decodeTableWord (_nbits _w : Nat) : Option Instr := none

end Sys2Proof
end

