-- ==== Sys2Proof/Config.lean ====
section
/-! DEFINITION. The free values: what the manual leaves open and no proof may know. -/

namespace Sys2Proof

/-- The order in which the heads of several tubes are examined in one event; R40 fixes none. The argument is the
model's own counter, so each use is fresh. The number picks one of the orders (log 11). -/
opaque Config.examinationOrder : Nat → Nat

/-- The word a notice carries for a volume in litres above 65535, which no 16-bit word holds; the manual states no
result there (R102, R145, R147). The argument is the volume in litres (log 16). -/
opaque Config.litresAbove65535 : Nat → Word

/-- The channel a DESC_FAULT notice of fault code BINDING names when the conflict lies in the tube's table as a whole
and in no channel of the tube; R179 states no channel for it. The argument is the model's own counter (log 17). -/
opaque Config.unattributedChannel : Nat → Six

end Sys2Proof
end

