-- ==== Sys2Proof/Machine/State.lean ====
section
/-! DEFINITION. The state of the DG-440: every register, queue, counter, timer, mode and pin the manual gives it, as
plain data, and its value after reset. -/

namespace Sys2Proof.Machine

/-! ## The image memory -/

/-- The Process Image Memory: words at addresses, sparse. The canonical form (`Memory.wf`) lists the addresses in
rising order and lists no word equal to 0000H, what an unlisted word reads as (log 2). -/
abbrev Memory := List (Nat × Word)

/-- A timer: `none` when stopped, else the milliseconds it has still to run; `some 0` has run out and its expiry has
not been taken yet (log 5, log 28). -/
abbrev Timer := Option Nat

/-! ## Controller bus port (R172) and Channel Map (R4, R13, R15) -/

/-- One controller access: its address, direction, class and, for a write, its value (0 for a read). -/
structure Access where
  addr : Addr
  direction : Direction
  class_ : AccessClass
  value : Word
  deriving DecidableEq, Repr

/-- What the port answers an access with (R172); `none` before the first answer after reset (log 4). -/
inductive Answer
  | none | acknowledge | errorAcknowledge | data (w : Word)
  deriving DecidableEq, Repr

/-- Where a held access stands. `walk`: the words of the descriptor read so far, latest first, and the victim number
its lookup took (R16, R17). `fillWriteBack`, `useWriteBack`: a status write-back of R19 is waited for, the entry is in
way `way`. `pass`: a PASS access at `addr` is waited for; `consumer` marks a taken consumer-index write (R184).
`deferred`: a write waits until the pending delivery for its address has been written (R173). -/
inductive PortPhase
  | idle
  | walk (acc : Access) (words : List Word) (victim : Ix4)
  | fillWriteBack (acc : Access) (way : Ix4) (wBit : Bool)
  | useWriteBack (acc : Access) (way : Ix4)
  | pass (acc : Access) (addr : Addr) (consumer : Bool)
  | deferred (acc : Access) (addr : Addr) (consumer : Bool)
  deriving DecidableEq, Repr

structure Port where
  phase : PortPhase
  answer : Answer
  deriving DecidableEq, Repr

/-- A guard window's copy in the root copy (R4, R6); base and size in 16-word units. -/
structure Guard where
  base : Word
  size : Word
  serviceWrite : Bool
  noWrite : Bool
  deriving DecidableEq, Repr

/-- What the root copy holds for one tube (R4). -/
structure RootTube where
  pointer : Word
  present : Bool
  service : Bool
  protect : Bool
  deriving DecidableEq, Repr

/-- The root copy (R4). -/
structure RootCopy where
  address : Addr
  windowBase : Six
  tubes : Four RootTube
  guard0 : Guard
  guard1 : Guard
  argument : Word
  deriving DecidableEq, Repr

/-- The words w0 to w5 of a descriptor. -/
structure DescWords where
  w0 : Word
  w1 : Word
  w2 : Word
  w3 : Word
  w4 : Word
  w5 : Word
  deriving DecidableEq, Repr

/-- An entry of the Descriptor Cache (R15). The tag is the tube and channel bits 5-2. -/
structure CacheEntry where
  valid : Bool
  tagTube : Tube
  tagHigh : BitVec 4
  words : DescWords
  wKnown : Bool
  deriving DecidableEq, Repr

/-- What a channel is bound to (R13). -/
inductive Mark
  | none | zone (z : Zone) | line (l : Line) | boat
  deriving DecidableEq, Repr

/-- A zone's binding. `step` is the step size of the lowest-numbered channel bound to it, kept for adoption (R89). -/
structure ZoneBinding where
  bound : Bool
  addr : Addr
  step : Nat
  deriving DecidableEq, Repr

structure LineBinding where
  bound : Bool
  addr : Addr
  reactive : Bool
  purge : Bool
  deriving DecidableEq, Repr

structure BoatBinding where
  bound : Bool
  addr : Addr
  deriving DecidableEq, Repr

/-- The Binding Table's part for one tube (R13). `marks` lists the marks of channels 0, 1, … in order; a channel past
its end has mark `none`. -/
structure TubeBinding where
  zones : Five ZoneBinding
  lines : Eight LineBinding
  boat : BoatBinding
  marks : List Mark
  deriving DecidableEq, Repr

/-! ## Held Write Queues (R35) -/

inductive Pool
  | exhaust | heat
  deriving DecidableEq, Repr

inductive EntryState
  | waiting | claiming
  deriving DecidableEq, Repr

/-- The kind of a held entry with the parameters copied from the descriptor at acceptance (R35). -/
inductive EntryKind
  | zone (z : Zone) (step : Nat)
  | line (l : Line) (reactive purge : Bool) (weight : Nat)
  | boat
  deriving DecidableEq, Repr

/-- A held entry (R35). `held` is clear only within the acceptance of the write, before its HELD notice. -/
structure HeldEntry where
  ticket : Word
  channel : Six
  kind : EntryKind
  value : Word
  acceptedAt : Long
  deadline : Option Long
  state : EntryState
  claim : Option (Pool × Nat)
  timer : Timer
  held : Bool
  deriving DecidableEq, Repr

/-! ## Tube Control (R50, R65) -/

inductive Mode
  | run | hold | aborting | aborted
  deriving DecidableEq, Repr

/-- The event summary's seven flags (R65). -/
structure Summary where
  rampDone : Bool
  boatArrived : Bool
  purgeDone : Bool
  clearDone : Bool
  abortEnd : Bool
  expiredAny : Bool
  refusedAny : Bool
  deriving DecidableEq, Repr

/-- The parameters of a tube header (R189), as loaded. -/
structure Header where
  holdLimit : Nat
  releaseGap : Nat
  stepPeriod : Nat
  lagLimit : Nat
  settlePeriod : Nat
  settleWindow : Nat
  settleRetryLimit : Nat
  purgeLine : Line
  purgeFlow : Word
  standbyFlow : Word
  abortPurgeFlow : Word
  purgeVolume : Nat
  clearingVolume : Nat
  samplePeriod : Nat
  purgeLimit : Nat
  motionPeriod : Nat
  inThreshold : Nat
  pushLimit : Nat
  bandBound : Four Nat
  bandStep : Four Nat
  approachDistance : Nat
  approachStep : Nat
  stallLimit : Nat
  stallCount : Nat
  deriving DecidableEq, Repr

/-! ## Ramp Engine (R72) -/

inductive Thermal
  | ramping | held | settling | stable
  deriving DecidableEq, Repr

/-- The cause of HELD; `none` in every other thermal state. -/
inductive HeldCause
  | none | lag | hold | abort
  deriving DecidableEq, Repr

inductive ThermalDir
  | none | up | down
  deriving DecidableEq, Repr

structure ZoneRec where
  bound : Bool
  target : Word
  delivered : Word
  step : Nat
  deriving DecidableEq, Repr

structure Ramp where
  zones : Five ZoneRec
  thermal : Thermal
  cause : HeldCause
  direction : ThermalDir
  stepTimer : Timer
  settleTimer : Timer
  retry : Nat
  slotHeld : Bool
  lastTicket : Word
  deriving DecidableEq, Repr

/-! ## Gas Engine (R90, R96) -/

inductive Atmosphere
  | air | purging | inert | process | clearing
  deriving DecidableEq, Repr

structure LineRec where
  bound : Bool
  reactive : Bool
  purge : Bool
  flow : Word
  weight : Nat
  devLimit : Nat
  devCount : Nat
  devCounter : Nat
  deriving DecidableEq, Repr

inductive Purpose
  | purge | clearing
  deriving DecidableEq, Repr

inductive Priority
  | process | purge | abort
  deriving DecidableEq, Repr

inductive RunPhase
  | claiming | flowing
  deriving DecidableEq, Repr

/-- The run record of a purge run (R96). -/
structure Run where
  purpose : Purpose
  flow : Word
  priority : Priority
  target : Nat
  phase : RunPhase
  remainder : Nat
  samples : Nat
  deriving DecidableEq, Repr

structure Gas where
  lines : Eight LineRec
  atmosphere : Atmosphere
  run : Option Run
  sampleTimer : Timer
  limitTimer : Timer
  accumulator : Long
  deriving DecidableEq, Repr

/-! ## Boat Engine (R110) -/

inductive BoatState
  | outPos | partialPos | inPos | moving | paused | stalled
  deriving DecidableEq, Repr

inductive BoatDir
  | none | inward | outward
  deriving DecidableEq, Repr

structure Boat where
  bound : Bool
  target : Word
  delivered : Word
  state : BoatState
  direction : BoatDir
  motionTimer : Timer
  stall : Nat
  expiries : Nat
  lastTicket : Word
  lastChannel : Six
  deriving DecidableEq, Repr

/-! ## One tube -/

/-- The abort causes (R140). -/
inductive AbortCause
  | none | command | scanLimit | flowDeviation | boatStall | purgeTimeout | serviceLost | bankTrip | startup
  deriving DecidableEq, Repr

/-- Everything the part holds for one tube: its queue and tickets, mode, summary and read latch, its three engines,
its abort record and the loaded header. -/
structure TubeState where
  mode : Mode
  queue : List HeldEntry
  nextTicket : Word
  lastIssued : Word
  lastReleased : Word
  gapTimer : Timer
  summary : Summary
  latchHeld : Bool
  latchValue : Long
  ramp : Ramp
  gas : Gas
  boat : Boat
  abortCause : AbortCause
  abortBegin : Long
  abortTimer : Timer
  header : Header
  deriving DecidableEq, Repr

/-! ## Bank Budget (R125 to R128, R137) -/

inductive Origin
  | entry (ticket : Word) (channel : Six)
  | purge
  | clearing
  | abortPurge
  deriving DecidableEq, Repr

/-- A claim record (R127). `fresh` marks a claim whose join has not yet been followed by the end of its scan, where
its CLAIM_WAIT notice is due (R131, R135). -/
structure Claim where
  tube : Tube
  pool : Pool
  amount : Nat
  priority : Priority
  arrival : Word
  origin : Origin
  fresh : Bool
  deriving DecidableEq, Repr

/-- The Bank Budget's own state. `claims` is in order of joining, which the budget keeps (R128); the order of the
Claim List is `Budget.ordered` of it. The current draw and the slot holders are computed from the engines' records. -/
structure Budget where
  capacity : Nat
  slots : Nat
  claims : List Claim
  joinCounter : Word
  load : Nat
  throttle : Bool
  timer : Timer
  upper : Nat
  lower : Nat
  drain : Nat
  enable : Bool
  deriving DecidableEq, Repr

/-! ## Abort Controller (R140, R150) -/

/-- A waiting abort request (R140). `channel` is the TUBE channel written, for cause COMMAND. -/
structure AbortRequest where
  tube : Tube
  cause : AbortCause
  channel : Option Six
  detail1 : Word
  detail2 : Word
  deriving DecidableEq, Repr

inductive TripCause
  | none | scanLimit | claimStarved | purgeTimeout
  deriving DecidableEq, Repr

/-- A waiting trip (R151): `tube` is `none` for the bank marker, `index` the scan entry index for SCAN_LIMIT, `detail`
the measured value, claim amount or litres. -/
structure TripRequest where
  cause : TripCause
  tube : Option Tube
  index : Word
  detail : Word
  deriving DecidableEq, Repr

structure AbortControl where
  requests : List AbortRequest
  trips : List TripRequest
  latch : Bool
  tripCause : TripCause
  tripTime : Long
  claimLimit : Nat
  deriving DecidableEq, Repr

/-! ## Feedback Scanner (R155 to R163) -/

inductive ScanTarget
  | zone (t : Tube) (z : Zone)
  | line (t : Tube) (l : Line)
  | boat (t : Tube)
  | bankInput (n : Ix4)
  deriving DecidableEq, Repr

/-- A record of the Scan List (R155). `target` is `none` where the code names no target (the record is inactive). -/
structure ScanRecord where
  source : Addr
  target : Option ScanTarget
  high : Word
  low : Word
  enable : Bool
  bankTrip : Bool
  tripCount : Nat
  active : Bool
  counter : Nat
  deriving DecidableEq, Repr

structure Sample where
  value : Word
  sampled : Bool
  deriving DecidableEq, Repr

structure TubeSamples where
  zones : Five Sample
  lines : Eight Sample
  boat : Sample
  deriving DecidableEq, Repr

/-- The Measured Table (R156). -/
structure Measured where
  tubes : Four TubeSamples
  inputs : Four Sample
  deriving DecidableEq, Repr

/-- A pass in progress: the record waited on, the reads completed, the bank clock at its start (R157). -/
structure Pass where
  index : Nat
  done : Nat
  start : Long
  deriving DecidableEq, Repr

structure Scanner where
  list : List ScanRecord
  period : Nat
  staleLimit : Nat
  timer : Timer
  staleTimer : Timer
  passCounter : Word
  pass : Option Pass
  overrun : Bool
  stale : Bool
  deriving DecidableEq, Repr

/-- A sample arrival handed to a Gas Engine and not yet taken (R159). -/
structure LineArrival where
  tube : Tube
  line : Line
  value : Word
  deriving DecidableEq, Repr

/-! ## Delivery Queue (R168) and Image Bus Arbiter (R167) -/

structure Delivery where
  addr : Addr
  value : Word
  urgent : Bool
  deriving DecidableEq, Repr

/-- The five requesters of the Image Bus, in the order of R167. -/
inductive Requester
  | deliver | walk | pass | notice | scan
  deriving DecidableEq, Repr

/-- The access the bus was granted to: a write of `write`, or a read. `discard`: a RELOAD has abandoned it, and its
completion goes to nobody (R165, R177). -/
structure BusAccess where
  requester : Requester
  addr : Addr
  write : Option Word
  discard : Bool
  deriving DecidableEq, Repr

structure Bus where
  inFlight : Option BusAccess
  ages : Five Nat
  deriving DecidableEq, Repr

/-! ## Notice Writer (R182, R183) and Service Monitor (R185) -/

inductive NoticeKind
  | refused | held | released | superseded | expired | flushed | done | lag | settleSlow | claimWait
  | abortBegin | abortEnd | abortAgain | trip | tripCleared | descFault | scanOverrun | scanStale
  | serviceLost | serviceBack | loaded
  deriving DecidableEq, Repr

/-- A notice record by its fields (R191). `subkind` is the DONE subkind, 0 for other kinds. `tube` is `none` for the
bank marker, `channel` is `none` for the no-channel marker. `clock` is stamped at placement. -/
structure Notice where
  kind : NoticeKind
  subkind : BitVec 8
  tube : Option Tube
  channel : Option Six
  code : Six
  ticket : Word
  value : Word
  extra : Word
  clock : Long
  deriving DecidableEq, Repr

/-- The root words the part writes (R176), in the order it writes them. -/
inductive RootItem
  | status | lost | consumer | producer
  deriving DecidableEq, Repr

/-- What the Notice Writer is writing: nothing, the words of a record still to be written to the ring, the producer
index that follows a record, or a due root word. -/
inductive NoticePhase
  | idle
  | record (address : Addr) (rest : List Word)
  | producerIndex
  | rootWord (item : RootItem)
  deriving DecidableEq, Repr

structure NoticeWriter where
  buffer : List Notice
  lost : Word
  dueStatus : Bool
  dueLost : Bool
  dueConsumer : Bool
  dueProducer : Bool
  producer : Nat
  consumer : Nat
  ringUsed : Bool
  suspended : Bool
  ringBase : Word
  sizeCode : Nat
  reserve : Nat
  ringEnable : Bool
  staleEnable : Bool
  phase : NoticePhase
  deriving DecidableEq, Repr

structure Monitor where
  lapsed : Bool
  count : Nat
  recorded : Nat
  period : Nat
  limit : Nat
  timer : Timer
  deriving DecidableEq, Repr

/-! ## Start-up Loader (R178 to R181) -/

inductive LoadPhase
  | notReady | loading | ready
  deriving DecidableEq, Repr

inductive NotReadyReason
  | none | signature | overlap | ringSize | scanCount | heatSlots | capacity | marks
  deriving DecidableEq, Repr

/-- What the loader is doing, with the words read so far, latest first. `scanList` also holds the scan table's
address and length in words, taken from the root block. -/
inductive LoadJob
  | idle
  | root (words : List Word)
  | tube (t : Tube) (words : List Word)
  | scanList (words : List Word)
  | adoptWait
  | adopt (t : Tube) (words : List Word)
  deriving DecidableEq, Repr

/-- `scanPointer` and `scanCount` are the root fields the scan list load uses (R179); `closing` is set once an inert
line did not fit at adoption (R109). -/
structure Loader where
  phase : LoadPhase
  reason : NotReadyReason
  job : LoadJob
  scanPointer : Word
  scanCount : Nat
  closing : Bool
  deriving DecidableEq, Repr

/-! ## The whole part -/

structure State where
  pending : List Instr
  mem : Memory
  straps : BitVec 4
  clock : Long
  port : Port
  root : RootCopy
  cache : Four (Four CacheEntry)
  replacement : BitVec 2
  binding : Four TubeBinding
  tubes : Four TubeState
  budget : Budget
  abort : AbortControl
  scanner : Scanner
  measured : Measured
  arrivals : List LineArrival
  delivery : List Delivery
  bus : Bus
  notices : NoticeWriter
  monitor : Monitor
  loader : Loader
  freeCount : Nat
  deriving DecidableEq, Repr

/-- The reasons a step could end in a fault. The manual gives the part no machine stop, and no command raises one. -/
inductive Fault
  deriving DecidableEq, Repr

/-- The reasons a step could be refused. -/
inductive Refusal
  /-- A command that has no meaning in the model yet; raised only by an arm of `exec`. Safe: the run stops. -/
  | notModelled (mnemonic : String)
  deriving DecidableEq, Repr

/-! ## Reset values -/

/-- R25: every entry invalid with W_KNOWN clear; the tag and the words are a choice (log 31). -/
def CacheEntry.empty : CacheEntry :=
  { valid := false, tagTube := .i0, tagHigh := 0, words := ⟨0, 0, 0, 0, 0, 0⟩, wKnown := false }

/-- R13: an empty Binding Table. -/
def TubeBinding.empty : TubeBinding :=
  { zones := Five.fill ⟨false, 0, 1⟩, lines := Eight.fill ⟨false, 0, false, false⟩, boat := ⟨false, 0⟩, marks := [] }

/-- R65, R67: all seven flags clear. -/
def Summary.clear : Summary := ⟨false, false, false, false, false, false, false⟩

/-- The header parameters before the first load (log 3). -/
def Header.unloaded : Header :=
  { holdLimit := 0, releaseGap := 0, stepPeriod := 0, lagLimit := 0, settlePeriod := 0, settleWindow := 0,
    settleRetryLimit := 0, purgeLine := .i0, purgeFlow := 0, standbyFlow := 0, abortPurgeFlow := 0, purgeVolume := 0,
    clearingVolume := 0, samplePeriod := 0, purgeLimit := 0, motionPeriod := 0, inThreshold := 0, pushLimit := 0,
    bandBound := Four.fill 0, bandStep := Four.fill 0, approachDistance := 0, approachStep := 0, stallLimit := 0,
    stallCount := 0 }

/-- R88. -/
def Ramp.reset : Ramp :=
  { zones := Five.fill ⟨false, 0, 0, 1⟩, thermal := .held, cause := .abort, direction := .none, stepTimer := none,
    settleTimer := none, retry := 0, slotHeld := false, lastTicket := 0xFFFF }

/-- R108: the line record after reset. -/
def LineRec.reset : LineRec :=
  { bound := false, reactive := false, purge := false, flow := 0, weight := 1, devLimit := 0, devCount := 1,
    devCounter := 0 }

/-- R108. -/
def Gas.reset : Gas :=
  { lines := Eight.fill LineRec.reset, atmosphere := .air, run := none, sampleTimer := none, limitTimer := none,
    accumulator := 0 }

/-- R124. -/
def Boat.reset : Boat :=
  { bound := false, target := 0, delivered := 0, state := .outPos, direction := .none, motionTimer := none, stall := 0,
    expiries := 0, lastTicket := 0xFFFF, lastChannel := 0 }

/-- R48, R67, R88, R108, R124, R154. -/
def TubeState.reset : TubeState :=
  { mode := .aborted, queue := [], nextTicket := 0, lastIssued := 0xFFFF, lastReleased := 0xFFFF, gapTimer := none,
    summary := Summary.clear, latchHeld := false, latchValue := 0, ramp := Ramp.reset, gas := Gas.reset,
    boat := Boat.reset, abortCause := .none, abortBegin := 0, abortTimer := none, header := Header.unloaded }

/-- R139. -/
def Budget.reset : Budget :=
  { capacity := 0, slots := 0, claims := [], joinCounter := 0, load := 0, throttle := false, timer := none, upper := 0,
    lower := 0, drain := 0, enable := false }

/-- R154; the two lists of waiting requests are empty (log 14). -/
def AbortControl.reset : AbortControl :=
  { requests := [], trips := [], latch := false, tripCause := .none, tripTime := 0, claimLimit := 0 }

/-- R164, R165: every Measured Table entry at value 0 with its sampled flag clear. -/
def Measured.empty : Measured :=
  { tubes := Four.fill ⟨Five.fill ⟨0, false⟩, Eight.fill ⟨0, false⟩, ⟨0, false⟩⟩, inputs := Four.fill ⟨0, false⟩ }

/-- R164. -/
def Scanner.reset : Scanner :=
  { list := [], period := 0, staleLimit := 0, timer := none, staleTimer := none, passCounter := 0, pass := none,
    overrun := false, stale := false }

/-- R186. -/
def NoticeWriter.reset : NoticeWriter :=
  { buffer := [], lost := 0, dueStatus := false, dueLost := false, dueConsumer := false, dueProducer := false,
    producer := 0, consumer := 0, ringUsed := false, suspended := false, ringBase := 0, sizeCode := 0, reserve := 0,
    ringEnable := false, staleEnable := false, phase := .idle }

/-- R186. -/
def Monitor.reset : Monitor :=
  { lapsed := false, count := 0, recorded := 0, period := 0, limit := 0, timer := none }

/-- R178, R186: the start-up begins in NOT_READY with reason NONE, the root block not read yet. -/
def Loader.reset : Loader :=
  { phase := .notReady, reason := .none, job := .root [], scanPointer := 0, scanCount := 0, closing := false }

/-- R4: ROOT_SEL × 10000H. -/
def rootAddress (straps : BitVec 4) : Addr := BitVec.ofNat 20 (straps.toNat * 0x10000)

/-- R4: the root copy after reset with the straps at `straps`. -/
def RootCopy.reset (straps : BitVec 4) : RootCopy :=
  { address := rootAddress straps, windowBase := 0, tubes := Four.fill ⟨0, false, false, false⟩,
    guard0 := ⟨0, 0, false, false⟩, guard1 := ⟨0, 0, false, false⟩, argument := 0 }

/-- The part after a reset that finds the straps at `straps`, with the image memory and the waiting commands, which
are not the part's, as given (log 26). -/
def State.afterReset (straps : BitVec 4) (mem : Memory) (pending : List Instr) : State :=
  { pending := pending, mem := mem, straps := straps, clock := 0, port := ⟨.idle, .none⟩,
    root := RootCopy.reset straps, cache := Four.fill (Four.fill CacheEntry.empty), replacement := 0,
    binding := Four.fill TubeBinding.empty, tubes := Four.fill TubeState.reset, budget := Budget.reset,
    abort := AbortControl.reset, scanner := Scanner.reset, measured := Measured.empty, arrivals := [], delivery := [],
    bus := ⟨none, Five.fill 0⟩, notices := NoticeWriter.reset, monitor := Monitor.reset, loader := Loader.reset,
    freeCount := 0 }

/-- The machine right after reset: straps at 0 (log 1), an image memory with nothing listed (log 2), no command
waiting. -/
def State.reset : State := State.afterReset 0 [] []

end Sys2Proof.Machine
end

