-- ==== Sys2Proof/Machine/Flags.lean ====
section
/-! DEFINITION. Codes and packed words: the codes of R188, R191 and R192, the status word, the event summary word, the
TUBE words and the eight words of a notice record. -/

namespace Sys2Proof.Machine

/-! ## Codes -/

/-- The reasons of a refused access (R191). -/
inductive RefuseReason
  | notReady | loading | noTube | noChannel | descCheck | descMismatch | privilege | isProtected | bound | range
  | queueFull | aborted | owned | inhibited | badCommand | state | tripped | budget | manualDenied | ringIndex
  deriving DecidableEq, Repr

def RefuseReason.code : RefuseReason → Nat
  | .notReady => 1 | .loading => 2 | .noTube => 3 | .noChannel => 4 | .descCheck => 5 | .descMismatch => 6
  | .privilege => 7 | .isProtected => 8 | .bound => 9 | .range => 10 | .queueFull => 11 | .aborted => 12
  | .owned => 13 | .inhibited => 14 | .badCommand => 15 | .state => 16 | .tripped => 17 | .budget => 18
  | .manualDenied => 19 | .ringIndex => 20

/-- The reasons a write is held (R33, R36). -/
inductive HoldReason
  | mode | gap | throttle | gate | inhibit | claim | behind
  deriving DecidableEq, Repr

def HoldReason.code : HoldReason → Nat
  | .mode => 1 | .gap => 2 | .throttle => 3 | .gate => 4 | .inhibit => 5 | .claim => 6 | .behind => 7

/-- The way of a release (R47). -/
inductive Way
  | bypass | immediate | queued
  deriving DecidableEq, Repr

def Way.code : Way → Nat
  | .bypass => 1 | .immediate => 2 | .queued => 3

/-- The origin of a flush (R46). -/
inductive FlushOrigin
  | command | abort
  deriving DecidableEq, Repr

def FlushOrigin.code : FlushOrigin → Nat
  | .command => 1 | .abort => 2

def EntryState.code : EntryState → Nat
  | .waiting => 1 | .claiming => 2

def AbortCause.code : AbortCause → Nat
  | .none => 0 | .command => 1 | .scanLimit => 2 | .flowDeviation => 3 | .boatStall => 4 | .purgeTimeout => 5
  | .serviceLost => 6 | .bankTrip => 7 | .startup => 8

def TripCause.code : TripCause → Nat
  | .none => 0 | .scanLimit => 1 | .claimStarved => 2 | .purgeTimeout => 3

/-- The fault codes of DESC_FAULT (R191). -/
inductive FaultCode
  | check | form | binding | header | purge | scan
  deriving DecidableEq, Repr

def FaultCode.code : FaultCode → Nat
  | .check => 1 | .form => 2 | .binding => 3 | .header => 4 | .purge => 5 | .scan => 6

def Mode.code : Mode → Nat
  | .run => 0 | .hold => 1 | .aborting => 2 | .aborted => 3

def Atmosphere.code : Atmosphere → Nat
  | .air => 0 | .purging => 1 | .inert => 2 | .process => 3 | .clearing => 4

def BoatState.code : BoatState → Nat
  | .outPos => 0 | .partialPos => 1 | .inPos => 2 | .moving => 3 | .paused => 4 | .stalled => 5

def BoatDir.code : BoatDir → Nat
  | .none => 0 | .inward => 1 | .outward => 2

def Thermal.code : Thermal → Nat
  | .ramping => 0 | .held => 1 | .settling => 2 | .stable => 3

def HeldCause.code : HeldCause → Nat
  | .none => 0 | .lag => 1 | .hold => 2 | .abort => 3

def ThermalDir.code : ThermalDir → Nat
  | .none => 0 | .up => 1 | .down => 2

def Purpose.code : Purpose → Nat
  | .purge => 1 | .clearing => 2

def AccessClass.code : AccessClass → Nat
  | .operator => 0 | .service => 1

def Direction.code : Direction → Nat
  | .read => 0 | .write => 1

def LoadPhase.code : LoadPhase → Nat
  | .notReady => 0 | .loading => 1 | .ready => 2

def NotReadyReason.code : NotReadyReason → Nat
  | .none => 0 | .signature => 1 | .overlap => 2 | .ringSize => 3 | .scanCount => 4 | .heatSlots => 5
  | .capacity => 6 | .marks => 7

def Pool.code : Pool → Nat
  | .exhaust => 0 | .heat => 1

def Priority.code : Priority → Nat
  | .process => 1 | .purge => 2 | .abort => 3

def Origin.code : Origin → Nat
  | .entry _ _ => 0 | .purge => 1 | .clearing => 2 | .abortPurge => 3

def NoticeKind.code : NoticeKind → Nat
  | .refused => 1 | .held => 2 | .released => 3 | .superseded => 4 | .expired => 5 | .flushed => 6 | .done => 7
  | .lag => 8 | .settleSlow => 9 | .claimWait => 10 | .abortBegin => 11 | .abortEnd => 12 | .abortAgain => 13
  | .trip => 14 | .tripCleared => 15 | .descFault => 16 | .scanOverrun => 17 | .scanStale => 18
  | .serviceLost => 19 | .serviceBack => 20 | .loaded => 21

/-! ## Packed words -/

/-- A number as a word; used where the number is known to fit. -/
def wordOf (n : Nat) : Word := BitVec.ofNat 16 n

/-- A number as a word, stopping at 0FFFFH. -/
def wordStop (n : Nat) : Word := BitVec.ofNat 16 (min n 0xFFFF)

def sixOf (n : Nat) : Six := BitVec.ofNat 6 n

def flagBit (b : Bool) (n : Nat) : Nat := if b then 2 ^ n else 0

/-- R188: the status word. -/
def statusWord (phase : LoadPhase) (reason : NotReadyReason) (latch : Bool) (cause : TripCause) : Word :=
  wordOf (phase.code + reason.code * 4 + flagBit latch 7 + cause.code * 256)

/-- R192: the event summary in w3. -/
def Summary.word (f : Summary) : Word :=
  wordOf (flagBit f.rampDone 0 + flagBit f.boatArrived 1 + flagBit f.purgeDone 2 + flagBit f.clearDone 3
    + flagBit f.abortEnd 4 + flagBit f.expiredAny 5 + flagBit f.refusedAny 6)

def Long.low (x : Long) : Word := x.setWidth 16

def Long.high (x : Long) : Word := (x >>> 16).setWidth 16

/-- R192: w0, the mode and the atmosphere. -/
def TubeState.word0 (x : TubeState) : Word := wordOf (x.mode.code + x.gas.atmosphere.code * 16)

/-- R192: w1, the boat and thermal states. -/
def TubeState.word1 (x : TubeState) : Word :=
  wordOf (x.boat.state.code + x.boat.direction.code * 16 + x.ramp.thermal.code * 256 + x.ramp.cause.code * 1024
    + x.ramp.direction.code * 4096)

/-- R192: w2, the held count and the head state. -/
def TubeState.word2 (x : TubeState) : Word :=
  wordOf (x.queue.length + (match x.queue with | [] => 0 | e :: _ => e.state.code) * 256)

/-- R191: the eight words of a notice record. -/
def Notice.words (n : Notice) : List Word :=
  [ wordOf n.kind.code ||| (n.subkind.setWidth 16 <<< 8),
    wordOf ((match n.tube with | some t => t.toNat | none => 7)
      + (match n.channel with | some c => c.toNat | none => 0x7F) * 8 + n.code.toNat * 1024),
    n.ticket, n.value, n.extra, 0, Long.low n.clock, Long.high n.clock ]

/-- A notice of a kind without subkind, not stamped yet. -/
def notice (kind : NoticeKind) (tube : Option Tube) (channel : Option Six) (code : Nat) (ticket value extra : Word) :
    Notice :=
  { kind := kind, subkind := 0, tube := tube, channel := channel, code := sixOf code, ticket := ticket, value := value,
    extra := extra, clock := 0 }

/-- A DONE notice, not stamped yet: RAMP 1, BOAT 2, PURGE 3, CLEAR 4. -/
def doneNotice (subkind : BitVec 8) (tube : Tube) (channel : Option Six) (ticket value extra : Word) : Notice :=
  { kind := .done, subkind := subkind, tube := some tube, channel := channel, code := 0, ticket := ticket,
    value := value, extra := extra, clock := 0 }

end Sys2Proof.Machine
end

