-- ==== Sys2Proof/Machine/Operands.lean ====
section
/-! DEFINITION. The fields of what the part reads: controller addresses, descriptors, check words, the root block, tube
headers and scan entries (R5, R9, R12, R14, R187 to R190). -/

namespace Sys2Proof.Machine

/-- The bits `hi` down to `lo` of a word as a number. -/
def bitsOf (w : Word) (hi lo : Nat) : Nat := (w.toNat >>> lo) % 2 ^ (hi - lo + 1)

/-! ## Addresses (R1, R5, R6) -/

/-- The word number of an address inside the 64 words of the root block. -/
def rootWordAt (root addr : Addr) : Option Six :=
  if (addr - root).toNat < 64 then some (BitVec.ofNat 6 (addr - root).toNat) else none

/-- R5: the tube, channel and word of an address inside the furnace window. -/
def windowPlace (windowBase : Six) (addr : Addr) : Option Place :=
  if addr.toNat / 0x4000 = windowBase.toNat then
    some { tube := Ix4.ofMod (addr.toNat / 0x1000), channel := BitVec.ofNat 6 (addr.toNat / 0x40),
           word := BitVec.ofNat 6 addr.toNat }
  else none

/-- R5: the controller address of a place in the furnace window. -/
def placeAddress (windowBase : Six) (p : Place) : Addr :=
  BitVec.ofNat 20 (windowBase.toNat * 0x4000 + p.tube.toNat * 0x1000 + p.channel.toNat * 0x40 + p.word.toNat)

/-- R6: a guard window with a nonzero size covers base × 16 up to base × 16 + size × 16 − 1, at most 0FFFFFH. -/
def Guard.covers (g : Guard) (addr : Addr) : Bool :=
  g.size != 0 && decide (g.base.toNat * 16 ≤ addr.toNat) && decide (addr.toNat < (g.base.toNat + g.size.toNat) * 16)

/-- An address lies among the `len` words from `base`, addresses taken modulo 100000H. -/
def inRange (base : Addr) (len : Nat) (addr : Addr) : Bool := decide ((addr - base).toNat < len)

/-- A pointer in 16-word units as an address (R179, R190), modulo 100000H. -/
def unitAddress (pointer : Word) : Addr := BitVec.ofNat 20 (pointer.toNat * 16)

/-- R5: where the descriptor of a channel lies in the table at `pointer`. -/
def descriptorAddress (pointer : Word) (channel : Six) : Addr :=
  BitVec.ofNat 20 (pointer.toNat * 16 + 32 + channel.toNat * 8)

/-! ## The check word (R17, R187) -/

def crcShift (r : Word) : Word := if r.msb then (r <<< 1) ^^^ 0x1021 else r <<< 1

/-- One byte, given in the low eight bits of `b`: combined into the high byte, then eight shifts. -/
def crcByte (r b : Word) : Word :=
  crcShift (crcShift (crcShift (crcShift (crcShift (crcShift (crcShift (crcShift (r ^^^ (b <<< 8)))))))))

/-- One word, high byte first. -/
def crcWord (r w : Word) : Word := crcByte (crcByte r (w >>> 8)) (w &&& 0xFF)

def checkWord (ws : List Word) : Word := ws.foldl crcWord 0xFFFF

/-! ## Descriptors (R9, R11, R12, R189) -/

inductive Kind
  | invalid | plain | zone | line | boat | tube
  deriving DecidableEq, Repr

/-- The kind a descriptor's w0 names; codes 6 and 7 name none. -/
def DescWords.kind (d : DescWords) : Option Kind :=
  match bitsOf d.w0 2 0 with
  | 0 => some .invalid | 1 => some .plain | 2 => some .zone | 3 => some .line | 4 => some .boat | 5 => some .tube
  | _ => none

def DescWords.service (d : DescWords) : Bool := d.w0.getLsbD 3
def DescWords.protect (d : DescWords) : Bool := d.w0.getLsbD 4
def DescWords.manual (d : DescWords) : Bool := d.w0.getLsbD 5
def DescWords.reactive (d : DescWords) : Bool := d.w0.getLsbD 6
def DescWords.purge (d : DescWords) : Bool := d.w0.getLsbD 7
def DescWords.index (d : DescWords) : Nat := bitsOf d.w0 11 8

/-- The 20-bit physical address of w1 and w2. -/
def DescWords.addr (d : DescWords) : Addr := BitVec.ofNat 20 (bitsOf d.w2 3 0 * 0x10000 + d.w1.toNat)

/-- A LINE descriptor's exhaust weight, w4 low byte. -/
def DescWords.weight (d : DescWords) : Nat := bitsOf d.w4 7 0

/-- A LINE descriptor's deviation count, w4 high byte. -/
def DescWords.devCount (d : DescWords) : Nat := bitsOf d.w4 15 8

def DescWords.toList (d : DescWords) : List Word := [d.w0, d.w1, d.w2, d.w3, d.w4, d.w5]

/-- The words w0 to w5 of a descriptor read as a list of words. -/
def DescWords.ofList (ws : List Word) : DescWords :=
  ⟨ws.getD 0 0, ws.getD 1 0, ws.getD 2 0, ws.getD 3 0, ws.getD 4 0, ws.getD 5 0⟩

/-- R12: a descriptor that none of the listed faults makes malformed. -/
def DescWords.wellFormed (d : DescWords) : Bool :=
  match d.kind with
  | none => false
  | some k =>
    (k != .plain || (decide (1 ≤ d.w3.toNat) && decide (d.w3.toNat ≤ 64)))
    && (k != .zone || decide (d.index ≤ 4))
    && (k != .line || decide (d.index ≤ 7))
    && (k != .zone || (decide (1 ≤ d.w5.toNat) && decide (d.w5.toNat ≤ 500) && decide (d.w4.toNat ≤ d.w3.toNat)))
    && (k != .line || (decide (1 ≤ d.weight) && decide (d.weight ≤ 8) && decide (1 ≤ d.devCount)
          && decide (d.devCount ≤ 15)))
    && (k == .line || (!d.reactive && !d.purge))
    && (!(k == .plain || k == .tube || k == .invalid) || !d.manual)
    && !(d.manual && d.reactive)
    && !(d.purge && d.reactive)

/-- R9: how many words a read may name. -/
def DescWords.readable (d : DescWords) : Nat :=
  match d.kind with
  | some .plain => d.w3.toNat
  | some .zone => 1
  | some .line => 1
  | some .boat => 1
  | some .tube => 8
  | _ => 0

/-- R9: how many words a write may name. -/
def DescWords.writable (d : DescWords) : Nat :=
  match d.kind with
  | some .plain => d.w3.toNat
  | some .zone => 1
  | some .line => 1
  | some .boat => 1
  | some .tube => 1
  | _ => 0

/-- The zone, line or boat a ZONE, LINE or BOAT descriptor names; the index of a BOAT is unused (R9). -/
def DescWords.mark (d : DescWords) : Mark :=
  match d.kind with
  | some .zone => match Ix5.ofNat? d.index with | some z => .zone z | none => .none
  | some .line => match Ix8.ofNat? d.index with | some l => .line l | none => .none
  | some .boat => .boat
  | _ => .none

/-- A descriptor whose kind code is ZONE, LINE or BOAT (R179). -/
def DescWords.isBoundKind (d : DescWords) : Bool :=
  match d.kind with
  | some .zone => true
  | some .line => true
  | some .boat => true
  | _ => false

/-- R13: the mark of a channel. -/
def TubeBinding.markOf (b : TubeBinding) (channel : Six) : Mark := b.marks.getD channel.toNat .none

/-- R14: the binding comparison finds a mismatch. -/
def TubeBinding.mismatch (b : TubeBinding) (channel : Six) (d : DescWords) : Bool :=
  match b.markOf channel with
  | .none => d.isBoundKind
  | .zone z => !(decide (d.mark = .zone z) && d.addr == (b.zones.get z).addr)
  | .line l =>
    !(decide (d.mark = .line l) && d.addr == (b.lines.get l).addr && d.reactive == (b.lines.get l).reactive
      && d.purge == (b.lines.get l).purge)
  | .boat => !(decide (d.mark = .boat) && d.addr == b.boat.addr)

/-- R15: the set of a channel is its bits 1-0. -/
def cacheSet (channel : Six) : Ix4 := Ix4.ofMod channel.toNat

/-- R15: channel bits 5-2, the channel's part of the tag. -/
def cacheTag (channel : Six) : BitVec 4 := BitVec.ofNat 4 (channel.toNat / 4)

/-! ## The root block (R188) -/

/-- The fields of the 64 root words, in the order of the root block. -/
structure RootFields where
  signature : Word
  windowBase : Six
  tubes : Four RootTube
  guard0 : Guard
  guard1 : Guard
  scanPointer : Word
  scanCount : Nat
  scanPeriod : Nat
  staleLimit : Nat
  ringBase : Word
  sizeCode : Nat
  reserve : Nat
  ringEnable : Bool
  staleEnable : Bool
  scrubberEnable : Bool
  capacity : Nat
  slots : Nat
  upper : Nat
  lower : Nat
  drain : Nat
  servicePeriod : Nat
  serviceLimit : Nat
  claimLimit : Nat
  deriving DecidableEq, Repr

/-- The tube fields of the root block; the present flag is the loader's and starts clear (R4). -/
def rootTubeOf (pointer flags : Word) (t : Tube) : RootTube :=
  { pointer := pointer, present := false, service := flags.getLsbD (2 * t.toNat),
    protect := flags.getLsbD (2 * t.toNat + 1) }

def guardOf (base size flags : Word) : Guard :=
  { base := base, size := size, serviceWrite := flags.getLsbD 0, noWrite := flags.getLsbD 1 }

/-- R188: the fields of the root words `ws`, word 0 first; bits marked zero are ignored (R187). -/
def RootFields.ofWords (ws : List Word) : RootFields :=
  let w := fun (n : Nat) => ws.getD n 0
  { signature := w 0
    windowBase := BitVec.ofNat 6 (bitsOf (w 7) 5 0)
    tubes := ⟨rootTubeOf (w 8) (w 12) .i0, rootTubeOf (w 9) (w 12) .i1, rootTubeOf (w 10) (w 12) .i2,
              rootTubeOf (w 11) (w 12) .i3⟩
    guard0 := guardOf (w 13) (w 14) (w 15)
    guard1 := guardOf (w 16) (w 17) (w 18)
    scanPointer := w 19
    scanCount := bitsOf (w 20) 5 0
    scanPeriod := (w 21).toNat
    staleLimit := (w 22).toNat
    ringBase := w 23
    sizeCode := bitsOf (w 24) 2 0
    reserve := (w 25).toNat
    ringEnable := (w 26).getLsbD 0
    staleEnable := (w 26).getLsbD 1
    scrubberEnable := (w 26).getLsbD 2
    capacity := bitsOf (w 27) 11 0
    slots := bitsOf (w 28) 2 0
    upper := (w 29).toNat
    lower := (w 30).toNat
    drain := (w 31).toNat
    servicePeriod := (w 32).toNat
    serviceLimit := bitsOf (w 33) 7 0
    claimLimit := (w 34).toNat }

/-- R175: root validation; the first test that fails gives the reason. `root` is the root address, whose ROOT_SEL × 4
the window base may not equal. -/
def RootFields.validate (f : RootFields) (root : Addr) : NotReadyReason :=
  if f.signature ≠ 0xD440 then .signature
  else if f.windowBase.toNat = root.toNat / 0x10000 * 4 then .overlap
  else if 6 < f.sizeCode then .ringSize
  else if f.scanCount = 0 ∨ 32 < f.scanCount then .scanCount
  else if f.slots = 0 ∨ 4 < f.slots then .heatSlots
  else if f.capacity = 0 ∨ 4095 < f.capacity then .capacity
  else if f.upper ≤ f.lower then .marks
  else .none

/-! ## Tube headers (R73, R97, R111, R189) -/

/-- R189: the parameters of the header words `ws`, word 0 first. -/
def Header.ofWords (ws : List Word) : Header :=
  let w := fun (n : Nat) => ws.getD n 0
  let n := fun (i : Nat) => (ws.getD i 0).toNat
  { holdLimit := n 0
    releaseGap := n 1
    stepPeriod := n 2
    lagLimit := n 3
    settlePeriod := n 4
    settleWindow := n 5
    settleRetryLimit := bitsOf (w 6) 7 0
    purgeLine := match Ix8.ofNat? (bitsOf (w 7) 2 0) with | some l => l | none => .i0
    purgeFlow := w 8
    standbyFlow := w 9
    abortPurgeFlow := w 10
    purgeVolume := n 11
    clearingVolume := n 12
    samplePeriod := n 13
    purgeLimit := n 14
    motionPeriod := n 15
    inThreshold := n 16
    pushLimit := n 17
    bandBound := ⟨n 18, n 19, n 20, n 21⟩
    bandStep := ⟨n 22, n 23, n 24, n 25⟩
    approachDistance := n 26
    approachStep := n 27
    stallLimit := n 28
    stallCount := bitsOf (w 29) 3 0 }

/-- R73, R97, R111: the header words that have a range, with whether the value lies in it, in word order. -/
def Header.ranges (h : Header) : List (Nat × Bool) :=
  [ (2, decide (250 ≤ h.stepPeriod) && decide (h.stepPeriod ≤ 10000)),
    (3, decide (h.lagLimit ≤ 1000)),
    (4, decide (250 ≤ h.settlePeriod) && decide (h.settlePeriod ≤ 60000)),
    (5, decide (h.settleWindow ≤ 1000)),
    (8, h.purgeFlow != 0),
    (9, decide (h.standbyFlow.toNat ≤ h.purgeFlow.toNat)),
    (10, h.abortPurgeFlow != 0),
    (11, decide (1 ≤ h.purgeVolume)),
    (12, decide (1 ≤ h.clearingVolume)),
    (13, decide (250 ≤ h.samplePeriod) && decide (h.samplePeriod ≤ 10000)),
    (14, decide (1 ≤ h.purgeLimit)),
    (15, decide (100 ≤ h.motionPeriod) && decide (h.motionPeriod ≤ 5000)),
    (16, decide (1 ≤ h.inThreshold)),
    (22, decide (h.bandStep.a0 ≤ 1000)),
    (23, decide (h.bandStep.a1 ≤ 1000)),
    (24, decide (h.bandStep.a2 ≤ 1000)),
    (25, decide (h.bandStep.a3 ≤ 1000)),
    (27, decide (1 ≤ h.approachStep) && decide (h.approachStep ≤ 1000)),
    (29, decide (1 ≤ h.stallCount) && decide (h.stallCount ≤ 15)) ]

/-- R179: the index of the first header word found out of its range. -/
def Header.firstWrong (h : Header) : Option Nat := (h.ranges.find? (fun p => !p.2)).map (·.1)

/-! ## Scan entries (R155, R190) -/

/-- R190: the target a target code names. -/
def scanTargetOf (code : Nat) : Option ScanTarget :=
  let n := Ix4.ofMod (code / 16)
  let unit := code % 16
  if unit = 5 then some (.boat n)
  else if unit = 6 then some (.bankInput n)
  else if unit = 7 then none
  else if unit < 5 then (Ix5.ofNat? unit).map (.zone n)
  else (Ix8.ofNat? (unit - 8)).map (.line n)

/-- R155: the Scan List record of a scan table entry. Both action codes name an action, so the trip count and the
limits decide whether an entry with trip enable set is malformed. -/
def ScanRecord.ofWords (e0 e1 e2 e3 : Word) : ScanRecord :=
  let target := scanTargetOf (bitsOf e1 9 4)
  let enable := e1.getLsbD 10
  let count := bitsOf e1 15 12
  { source := BitVec.ofNat 20 (bitsOf e1 3 0 * 0x10000 + e0.toNat)
    target := target
    high := e2
    low := e3
    enable := enable
    bankTrip := e1.getLsbD 11
    tripCount := count
    active := target.isSome && (!enable || (decide (1 ≤ count) && decide (e3.toNat ≤ e2.toNat)))
    counter := 0 }

end Sys2Proof.Machine
end

