-- ==== Sys2Proof/Machine/Ops.lean ====
section
/-! DEFINITION. The named operations over the state that the commands share: image memory, tubes, notices, the Delivery
Queue, exhaust draw and heat slots, throttles, the Measured Table and time. -/

namespace Sys2Proof.Machine

/-! ## Image memory (log 2) -/

/-- The word at an address; an unlisted word reads 0000H. -/
def Memory.read : Memory → Nat → Word
  | [], _ => 0
  | (k, v) :: rest, a => if k = a then v else Memory.read rest a

/-- Writing keeps the canonical form: writing 0000H removes the entry. -/
def Memory.write : Memory → Nat → Word → Memory
  | [], a, v => if v = 0 then [] else [(a, v)]
  | (k, w) :: rest, a, v =>
    if a < k then (if v = 0 then (k, w) :: rest else (a, v) :: (k, w) :: rest)
    else if a = k then (if v = 0 then rest else (a, v) :: rest)
    else (k, w) :: Memory.write rest a v

/-- Every listed address is above `low`, they rise strictly, and no listed word is 0000H. -/
def Memory.risesFrom : Option Nat → Memory → Bool
  | _, [] => true
  | low, (k, v) :: rest =>
    (match low with | none => true | some b => decide (b < k)) && v != 0 && Memory.risesFrom (some k) rest

/-- The canonical form of a memory. -/
def Memory.wf (m : Memory) : Bool := Memory.risesFrom none m

def State.readWord (s : State) (a : Addr) : Word := s.mem.read a.toNat

def State.writeWord (s : State) (a : Addr) (v : Word) : State := { s with mem := s.mem.write a.toNat v }

/-! ## Tubes -/

def State.tube (s : State) (t : Tube) : TubeState := s.tubes.get t

def State.setTube (s : State) (t : Tube) (x : TubeState) : State := { s with tubes := s.tubes.set t x }

def State.modTube (s : State) (t : Tube) (f : TubeState → TubeState) : State := s.setTube t (f (s.tube t))

def State.modRamp (s : State) (t : Tube) (f : Ramp → Ramp) : State :=
  s.modTube t (fun x => { x with ramp := f x.ramp })

def State.modGas (s : State) (t : Tube) (f : Gas → Gas) : State :=
  s.modTube t (fun x => { x with gas := f x.gas })

def State.modBoat (s : State) (t : Tube) (f : Boat → Boat) : State :=
  s.modTube t (fun x => { x with boat := f x.boat })

def State.modSummary (s : State) (t : Tube) (f : Summary → Summary) : State :=
  s.modTube t (fun x => { x with summary := f x.summary })

def State.modNotices (s : State) (f : NoticeWriter → NoticeWriter) : State := { s with notices := f s.notices }

def State.modBudget (s : State) (f : Budget → Budget) : State := { s with budget := f s.budget }

def State.modAbort (s : State) (f : AbortControl → AbortControl) : State := { s with abort := f s.abort }

def State.modScanner (s : State) (f : Scanner → Scanner) : State := { s with scanner := f s.scanner }

def State.modMonitor (s : State) (f : Monitor → Monitor) : State := { s with monitor := f s.monitor }

def State.modRoot (s : State) (f : RootCopy → RootCopy) : State := { s with root := f s.root }

/-- A tube is present when the root copy's present flag for it is set (R4). -/
def State.present (s : State) (t : Tube) : Bool := (s.root.tubes.get t).present

/-- The present tubes in tube order. -/
def State.presentTubes (s : State) : List Tube := Ix4.all.filter s.present

def State.binding_ (s : State) (t : Tube) : TubeBinding := s.binding.get t

/-! ## Notices (R182) -/

/-- A notice that cannot be recorded: the lost count rises by one, stopping at 0FFFFH, and becomes due. -/
def NoticeWriter.lose (n : NoticeWriter) : NoticeWriter :=
  { n with lost := if n.lost = 0xFFFF then n.lost else n.lost + 1, dueLost := true }

/-- R182: a notice joins the buffer stamped with the bank clock, or is lost where the buffer holds eight. -/
def State.place (s : State) (n : Notice) : State :=
  s.modNotices fun w =>
    if w.buffer.length < 8 then { w with buffer := w.buffer ++ [{ n with clock := s.clock }] } else w.lose

/-- R188: the status word as it stands. -/
def State.statusWord (s : State) : Word :=
  Machine.statusWord s.loader.phase s.loader.reason s.abort.latch s.abort.tripCause

/-- R176: the status word becomes due where an event has changed it. -/
def State.markStatus (before after : State) : State :=
  if before.statusWord = after.statusWord then after
  else after.modNotices fun w => { w with dueStatus := true }

/-! ## The Delivery Queue (R168, R170) -/

/-- Directly behind the last urgent entry, or at the front where there is none. -/
def insertUrgent (e : Delivery) : List Delivery → List Delivery
  | [] => [e]
  | d :: ds => if d.urgent then d :: insertUrgent e ds else e :: d :: ds

/-- The entry pending for an address. -/
def pendingFor (q : List Delivery) (a : Addr) : Option Delivery := q.find? (fun d => d.addr == a)

/-- Replace the value of the entry for an address, keeping its place and its urgency. -/
def replaceValue (a : Addr) (v : Word) (q : List Delivery) : List Delivery :=
  q.map (fun d => if d.addr == a then { d with value := v } else d)

/-- The queue without the entry for an address. -/
def dropAddress (a : Addr) (q : List Delivery) : List Delivery := q.filter (fun d => d.addr != a)

/-- R168: placing a write. -/
def placeDelivery (a : Addr) (v : Word) (urgent : Bool) (q : List Delivery) : List Delivery :=
  match pendingFor q a with
  | none => if urgent then insertUrgent ⟨a, v, true⟩ q else q ++ [⟨a, v, false⟩]
  | some d =>
    if d.urgent || !urgent then replaceValue a v q else insertUrgent ⟨a, v, true⟩ (dropAddress a q)

def State.deliver (s : State) (a : Addr) (v : Word) (urgent : Bool) : State :=
  { s with delivery := placeDelivery a v urgent s.delivery }

/-- R170: the value a read of an address is forwarded. -/
def State.forwarded (s : State) (a : Addr) : Option Word := (pendingFor s.delivery a).map (·.value)

/-! ## Exhaust draw and heat slots (R91, R125, R126) -/

/-- ceil(flow / 100). -/
def hundreds (flow : Nat) : Nat := (flow + 99) / 100

/-- R91: the draw of a flow with a weight. -/
def drawOf (flow weight : Nat) : Nat := hundreds flow * weight

def LineRec.draw (l : LineRec) : Nat := drawOf l.flow.toNat l.weight

def Gas.draw (g : Gas) : Nat := (g.lines.toList.map LineRec.draw).sum

/-- R125: the current draw, the sum over every line of every present tube. -/
def State.bankDraw (s : State) : Nat := (s.presentTubes.map (fun t => (s.tube t).gas.draw)).sum

def State.freeUnits (s : State) : Nat := s.budget.capacity - s.bankDraw

/-- R126: the tubes that hold a slot. -/
def State.slotHolders (s : State) : Nat := (Ix4.all.filter (fun t => (s.tube t).ramp.slotHeld)).length

def State.freeSlots (s : State) : Nat := s.budget.slots - s.slotHolders

/-- The free units or the free slots of a pool. -/
def State.freeOf (s : State) : Pool → Nat
  | .exhaust => s.freeUnits
  | .heat => s.freeSlots

/-- R137: the open reactive draw of the bank. -/
def State.reactiveDraw (s : State) : Nat :=
  (s.presentTubes.map (fun t =>
    (((s.tube t).gas.lines.toList.filter (fun l => l.reactive && l.flow != 0)).map LineRec.draw).sum)).sum

/-! ## The notice ring (R183, R184) -/

/-- R174: the number of ring records, 16 × 2 to the size code. -/
def NoticeWriter.ringSize (n : NoticeWriter) : Nat := 16 * 2 ^ n.sizeCode

/-- (a − b) mod n for ring indexes. -/
def ringDistance (n a b : Nat) : Nat := (a + n - b % n) % n

def NoticeWriter.unconsumed (n : NoticeWriter) : Nat := ringDistance n.ringSize n.producer n.consumer

def NoticeWriter.freeRecords (n : NoticeWriter) : Nat := n.ringSize - 1 - n.unconsumed

/-- R183: records are written while a ring is in use and writing is not suspended by a RELOAD. -/
def NoticeWriter.ringInUse (n : NoticeWriter) : Bool := n.ringUsed && !n.suspended

/-- R184: the ring throttle condition (log 20). -/
def NoticeWriter.ringLow (n : NoticeWriter) : Bool := decide (n.freeRecords < n.reserve)

/-- R183: the NOTICE output. -/
def State.noticeOutput (s : State) : Bool := s.notices.producer != s.notices.consumer

/-- R150: the TRIP output. -/
def State.tripOutput (s : State) : Bool := s.abort.latch

/-! ## Throttles (R44) -/

def State.ringActs (s : State) : Bool := s.notices.ringEnable && s.notices.ringLow

def State.staleActs (s : State) : Bool := s.notices.staleEnable && s.scanner.stale

def State.scrubberActs (s : State) : Bool := s.budget.enable && s.budget.throttle

/-! ## Measured values (R156) -/

/-- Two unsigned numbers' distance. -/
def distance (a b : Nat) : Nat := if a ≤ b then b - a else a - b

def State.zoneSample (s : State) (t : Tube) (z : Zone) : Sample := (s.measured.tubes.get t).zones.get z

def State.lineSample (s : State) (t : Tube) (l : Line) : Sample := (s.measured.tubes.get t).lines.get l

def State.boatSample (s : State) (t : Tube) : Sample := (s.measured.tubes.get t).boat

/-- One tube's part of the Measured Table replaced. -/
def Measured.setTube (m : Measured) (t : Tube) (x : TubeSamples) : Measured := { m with tubes := m.tubes.set t x }

/-- An arrival: the entry of a target takes the word read, with its sampled flag set (R156, R159). -/
def Measured.sample (m : Measured) (target : ScanTarget) (v : Word) : Measured :=
  match target with
  | .zone t z => m.setTube t { m.tubes.get t with zones := (m.tubes.get t).zones.set z ⟨v, true⟩ }
  | .line t l => m.setTube t { m.tubes.get t with lines := (m.tubes.get t).lines.set l ⟨v, true⟩ }
  | .boat t => m.setTube t { m.tubes.get t with boat := ⟨v, true⟩ }
  | .bankInput n => { m with inputs := m.inputs.set n ⟨v, true⟩ }

/-! ## Time (R186, log 5) -/

/-- A timer after `n` milliseconds; one that runs out waits at 0 for its expiry to be taken. -/
def Timer.pass (n : Nat) : Timer → Timer
  | none => none
  | some r => some (r - n)

/-- A timer started with a full period; a period of 0 is given where the manual says such a timer does not start. -/
def startUnlessZero (period : Nat) : Timer := if period = 0 then none else some period

def TubeState.pass (n : Nat) (x : TubeState) : TubeState :=
  { x with
    queue := x.queue.map (fun e => { e with timer := Timer.pass n e.timer })
    gapTimer := Timer.pass n x.gapTimer
    abortTimer := Timer.pass n x.abortTimer
    ramp := { x.ramp with stepTimer := Timer.pass n x.ramp.stepTimer, settleTimer := Timer.pass n x.ramp.settleTimer }
    gas := { x.gas with sampleTimer := Timer.pass n x.gas.sampleTimer, limitTimer := Timer.pass n x.gas.limitTimer }
    boat := { x.boat with motionTimer := Timer.pass n x.boat.motionTimer } }

/-- `n` milliseconds pass: the bank clock advances, wrapping from 0FFFFFFFFH to 0, and every running timer with it. -/
def State.elapse (n : Nat) (s : State) : State :=
  { s with
    clock := s.clock + BitVec.ofNat 32 n
    tubes := s.tubes.map (TubeState.pass n)
    budget := { s.budget with timer := Timer.pass n s.budget.timer }
    scanner := { s.scanner with timer := Timer.pass n s.scanner.timer,
                                staleTimer := Timer.pass n s.scanner.staleTimer }
    monitor := { s.monitor with timer := Timer.pass n s.monitor.timer } }

/-- Milliseconds of the bank clock since `start`, modulo its wrap. -/
def State.since (s : State) (start : Long) : Nat := (s.clock - start).toNat

/-- Whole seconds since `start`, stopping at 0FFFFH (R145, R153). -/
def State.secondsSince (s : State) (start : Long) : Word := wordStop (s.since start / 1000)

/-! ## Volumes -/

/-- A volume in whole litres as a notice word; above 65535 no 16-bit word holds it and the manual states no result
(log 16). -/
def litresWord (scc : Nat) : Word :=
  if scc / 1000 ≤ 65535 then wordOf (scc / 1000) else Config.litresAbove65535 (scc / 1000)

/-! ## Orders the manual leaves open (log 11) -/

/-- Take the elements of a list in the order the digits of `k` pick; `fuel` is at least the length of the list. -/
def pickOrder : Nat → Nat → List Tube → List Tube
  | 0, _, l => l
  | _ + 1, _, [] => []
  | fuel + 1, k, a :: l =>
    let i := k % (l.length + 1)
    let x := (a :: l).getD i a
    x :: pickOrder fuel (k / (l.length + 1)) ((a :: l).eraseIdx i)

end Sys2Proof.Machine
end

