-- ==== Sys2Proof/Machine/Gates.lean ====
section
/-! DEFINITION. What a head entry is judged by: the ramp direction, the claim an entry needs, the release gates and the
release test (R36, R37, R54, R74). -/

namespace Sys2Proof.Machine

/-- R74: UP if any bound zone has target above delivered, else DOWN if any has target below, else NONE. -/
def directionOf (zones : Five ZoneRec) : ThermalDir :=
  if zones.toList.any (fun z => z.bound && decide (z.delivered.toNat < z.target.toNat)) then .up
  else if zones.toList.any (fun z => z.bound && decide (z.target.toNat < z.delivered.toNat)) then .down
  else .none

/-- The zone records with one zone's target replaced (R37). -/
def withTarget (zones : Five ZoneRec) (z : Zone) (v : Word) : Five ZoneRec :=
  zones.set z { zones.get z with target := v }

/-- R37: the added draw of a line change worked out with a given weight. -/
def addedDraw (value flow weight : Nat) : Nat := drawOf value weight - drawOf flow weight

/-- R37: the claim an entry needs, or none. -/
def neededClaim (x : TubeState) (e : HeldEntry) : Option (Pool × Nat) :=
  match e.kind with
  | .zone z _ =>
    if !x.ramp.slotHeld && directionOf (withTarget x.ramp.zones z e.value) == .up then some (.heat, 1) else none
  | .line l _ _ w =>
    let a := addedDraw e.value.toNat (x.gas.lines.get l).flow.toNat w
    if 0 < a then some (.exhaust, a) else none
  | .boat => none

/-- R52: the stationary boat states. -/
def BoatState.stationary : BoatState → Bool
  | .outPos => true
  | .partialPos => true
  | .inPos => true
  | .moving => false
  | .paused => false
  | .stalled => false

/-- R54: the gate of a BOAT entry, chosen by comparing its value with the delivered position. -/
def boatGate (x : TubeState) (value : Word) : Bool :=
  if x.boat.delivered.toNat < value.toNat then
    (x.gas.atmosphere == .inert || x.gas.atmosphere == .purging) && x.ramp.thermal == .stable
      && decide ((x.ramp.zones.get .i0).delivered.toNat ≤ x.header.pushLimit)
  else if value.toNat < x.boat.delivered.toNat then
    (x.gas.atmosphere == .air || x.gas.atmosphere == .inert || x.gas.atmosphere == .purging)
      && x.ramp.thermal == .stable
  else true

/-- R54: the release gate of an entry (test 4 of R36). -/
def gateHolds (x : TubeState) (e : HeldEntry) : Bool :=
  match e.kind with
  | .zone _ _ => x.boat.state.stationary
  | .line _ true _ _ =>
    (x.gas.atmosphere == .inert || x.gas.atmosphere == .process) && x.boat.state == .inPos
      && x.ramp.thermal == .stable
  | .line _ false purge _ => !purge || (x.gas.atmosphere != .purging && x.gas.atmosphere != .clearing)
  | .boat => boatGate x e.value

/-- An entry that opens or increases a REACTIVE line (test 5 of R36). -/
def raisesReactive (x : TubeState) (e : HeldEntry) : Bool :=
  match e.kind with
  | .line l reactive _ _ => reactive && decide ((x.gas.lines.get l).flow.toNat < e.value.toNat)
  | _ => false

/-- R36: the first of tests 1 to 5 that fails for an entry of a tube, if one does. -/
def State.firstFailure (s : State) (t : Tube) (e : HeldEntry) : Option HoldReason :=
  let x := s.tube t
  if x.mode ≠ .run then some .mode
  else if x.gapTimer.isSome then some .gap
  else if s.ringActs || s.staleActs then some .throttle
  else if !gateHolds x e then some .gate
  else if raisesReactive x e && (s.scrubberActs || s.monitor.lapsed) then some .inhibit
  else none

end Sys2Proof.Machine
end

