-- ==== Sys2Proof/Machine/Engines.lean ====
section
/-! DEFINITION. What the engines do with a value: the Bank Budget's claims, a line's flow, purge runs, and the release of
a ZONE, LINE or BOAT entry (R75 to R78, R91 to R99, R113 to R115, R127 to R129).

`rescan` is what a freed amount, a withdrawal or a join does to the Claim List: a scan with its CLAIM_WAIT notices, or
nothing at all within a running scan, which takes the change at its next step (R131, R132). -/

namespace Sys2Proof.Machine

/-! ## Claims (R127 to R130, R133) -/

def Origin.isEntry : Origin → Bool
  | .entry _ _ => true
  | .purge => false
  | .clearing => false
  | .abortPurge => false

/-- The Claim List in its order: by priority, and within one priority in order of joining (R128). -/
def Budget.ordered (b : Budget) : List Claim :=
  b.claims.filter (fun c => c.priority == .abort) ++ b.claims.filter (fun c => c.priority == .purge)
    ++ b.claims.filter (fun c => c.priority == .process)

/-- R130: the front claim of a pool. -/
def Budget.front (b : Budget) (p : Pool) : Option Claim := b.ordered.find? (fun c => c.pool == p)

/-- R127, R129: a claim joins with the join counter's value. -/
def State.joinClaim (s : State) (t : Tube) (p : Pool) (amount : Nat) (priority : Priority) (origin : Origin) : State :=
  s.modBudget fun b =>
    { b with
      claims := b.claims ++ [⟨t, p, amount, priority, b.joinCounter, origin, true⟩]
      joinCounter := b.joinCounter + 1 }

/-- A claim of a tube's queue head. -/
def Claim.ofHead (t : Tube) (c : Claim) : Bool := decide (c.tube = t) && c.origin.isEntry

/-- A claim of a tube's purge run. -/
def Claim.ofRun (t : Tube) (c : Claim) : Bool := decide (c.tube = t) && !c.origin.isEntry

/-- The waiting claim of a tube's purge run. -/
def State.runClaim (s : State) (t : Tube) : Option Claim := s.budget.claims.find? (Claim.ofRun t)

/-- R133: a withdrawn claim leaves the list, and the list is scanned; a claim that is not in the list withdraws
nothing. -/
def State.withdraw (s : State) (rescan : State → State) (which : Claim → Bool) : State :=
  if s.budget.claims.any which then
    rescan (s.modBudget fun b => { b with claims := b.claims.filter (fun c => !which c) })
  else s

/-! ## Line flows (R91, R94) -/

/-- The delivered address of a line. -/
def State.lineAddr (s : State) (t : Tube) (l : Line) : Addr := ((s.binding.get t).lines.get l).addr

def State.lineRec (s : State) (t : Tube) (l : Line) : LineRec := (s.tube t).gas.lines.get l

/-- A line's delivered flow is set, its deviation counter with it (R107), and the write is placed. -/
def State.setFlow (s : State) (t : Tube) (l : Line) (v : Word) (urgent : Bool) : State :=
  (s.modGas t fun g => { g with lines := g.lines.set l { g.lines.get l with flow := v, devCounter := 0 } }).deliver
    (s.lineAddr t l) v urgent

/-- R94: a flow that falls or stays is an urgent write, and the drop in draw is freed. -/
def State.lowerLine (s : State) (rescan : State → State) (t : Tube) (l : Line) (v : Word) : State :=
  let s' := s.setFlow t l v true
  if (s'.lineRec t l).draw < (s.lineRec t l).draw then rescan s' else s'

/-! ## Purge runs (R98, R99) -/

def Purpose.atmosphere : Purpose → Atmosphere
  | .purge => .purging
  | .clearing => .clearing

/-- The run record and timers of a purge run that carries its run flow. -/
def Gas.flowing (g : Gas) (samplePeriod : Nat) : Gas :=
  { g with run := g.run.map (fun r => { r with phase := .flowing }), sampleTimer := some samplePeriod }

/-- What starts a purge run: its purpose, run flow, priority, volume in litres and the origin its claim carries. -/
structure RunStart where
  purpose : Purpose
  flow : Word
  priority : Priority
  litres : Nat
  origin : Origin
  deriving DecidableEq, Repr

/-- R98, first half: the atmosphere and the run record are set, the accumulator, remainder and sample count are 0, the
sample timer is stopped and the purge-limit timer starts. -/
def Gas.beginRun (g : Gas) (r : RunStart) (purgeLimit : Nat) : Gas :=
  { g with
    atmosphere := r.purpose.atmosphere
    run := some { purpose := r.purpose, flow := r.flow, priority := r.priority, target := r.litres * 1000,
                  phase := .claiming, remainder := 0, samples := 0 }
    sampleTimer := none
    limitTimer := some (purgeLimit * 1000)
    accumulator := 0 }

/-- R98: a purge run starts; where the run flow needs no more draw the purge line is set at once, else a claim for the
difference joins. -/
def State.startRun (s : State) (rescan : State → State) (t : Tube) (r : RunStart) : State :=
  let h := (s.tube t).header
  let line := s.lineRec t h.purgeLine
  let s1 := s.modGas t fun g => g.beginRun r h.purgeLimit
  if drawOf r.flow.toNat line.weight ≤ line.draw then
    let s2 := s1.setFlow t h.purgeLine r.flow (decide (r.flow.toNat ≤ line.flow.toNat))
    let s3 := if drawOf r.flow.toNat line.weight < line.draw then rescan s2 else s2
    s3.modGas t fun g => g.flowing h.samplePeriod
  else
    rescan (s1.joinClaim t .exhaust (drawOf r.flow.toNat line.weight - line.draw) r.priority r.origin)

/-- R99, R146: the grant of a run's claim; the purge line takes the run flow, and the abort claim timer stops at the
report of the grant. -/
def State.runGrant (s : State) (t : Tube) : State :=
  match (s.tube t).gas.run with
  | none => s
  | some r =>
    let h := (s.tube t).header
    ((s.setFlow t h.purgeLine r.flow false).modGas t fun g => g.flowing h.samplePeriod).modTube t
      fun x => { x with abortTimer := none }

/-- R103: the run of a clearing begun by a close. -/
def closeClearing (h : Header) : RunStart := ⟨.clearing, h.purgeFlow, .purge, h.clearingVolume, .clearing⟩

/-- R105, R109: the run of a clearing begun or restarted by an abort or by adoption. -/
def abortClearing (h : Header) : RunStart := ⟨.clearing, h.abortPurgeFlow, .abort, h.clearingVolume, .abortPurge⟩

/-- R57, R98: the run of a commanded purge. -/
def commandedPurge (h : Header) : RunStart := ⟨.purge, h.purgeFlow, .purge, h.purgeVolume, .purge⟩

/-- No reactive line has a nonzero delivered flow. -/
def Gas.reactiveClosed (g : Gas) : Bool := g.lines.toList.all (fun l => !l.reactive || l.flow == 0)

/-- R94, R103: a decrease that set a REACTIVE line to 0 in PROCESS begins a clearing when no reactive line is open. -/
def State.clearingTest (s : State) (rescan : State → State) (t : Tube) (l : Line) (v : Word) : State :=
  if (s.lineRec t l).reactive && v == 0 && (s.tube t).gas.atmosphere == .process && (s.tube t).gas.reactiveClosed then
    s.startRun rescan t (closeClearing (s.tube t).header)
  else s

/-! ## Release of a LINE entry (R92, R93) -/

/-- R92: the flow that is set for `value`, given the units granted, the old flow and the line record's weight. -/
def settledFlow (value old : Word) (units weight : Nat) : Word :=
  if addedDraw value.toNat old.toNat weight ≤ units then value
  else wordOf (100 * ((units + hundreds old.toNat * weight) / weight))

/-- R93: a line's delivered flow rises, its deviation counter is 0, and a reactive line turns INERT to PROCESS. -/
def Gas.raise (g : Gas) (l : Line) (v : Word) : Gas :=
  { g with
    lines := g.lines.set l { g.lines.get l with flow := v, devCounter := 0 }
    atmosphere := if (g.lines.get l).reactive && g.atmosphere == .inert then .process else g.atmosphere }

/-- R93, R94: a released LINE entry is applied by the Gas Engine with the units granted for it. The surplus is freed once
the atmosphere is set; nothing reads the records in between (log 13). -/
def State.applyLine (s : State) (rescan : State → State) (t : Tube) (l : Line) (v : Word) (units : Nat) : State :=
  let old := s.lineRec t l
  if old.flow.toNat < v.toNat then
    let flow := settledFlow v old.flow units old.weight
    let s1 := (s.modGas t fun g => g.raise l flow).deliver (s.lineAddr t l) flow false
    if addedDraw flow.toNat old.flow.toNat old.weight < units then rescan s1 else s1
  else
    (s.lowerLine rescan t l v).clearingTest rescan t l v

/-! ## Release of a ZONE entry (R75 to R78) -/

/-- R78: the heat slot is freed and the list scanned. -/
def State.freeSlot (s : State) (rescan : State → State) (t : Tube) : State :=
  if (s.tube t).ramp.slotHeld then rescan (s.modRamp t fun r => { r with slotHeld := false }) else s

/-- R75: a ZONE release found in SETTLING or STABLE, after the target was set and with the direction worked out. -/
def Ramp.startRamp (r : Ramp) (d : ThermalDir) (stepPeriod : Nat) : Ramp :=
  match d with
  | .none => r
  | _ =>
    { r with thermal := .ramping, cause := .none, direction := d, settleTimer := none, retry := 0,
             stepTimer := some stepPeriod, slotHeld := r.slotHeld || d == .up }

/-- Entry into SETTLING (R76 last row, R82): the slot is freed apart. -/
def Ramp.settle (r : Ramp) (settlePeriod : Nat) : Ramp :=
  { r with thermal := .settling, cause := .none, direction := .none, stepTimer := none, retry := 0,
           settleTimer := some settlePeriod }

/-- R75, R76: a released ZONE entry is applied by the Ramp Engine. -/
def State.applyZone (s : State) (rescan : State → State) (t : Tube) (z : Zone) (step : Nat) (v ticket : Word) : State :=
  let h := (s.tube t).header
  let s1 := s.modRamp t fun r =>
    { r with zones := r.zones.set z { r.zones.get z with target := v, step := step }, lastTicket := ticket }
  let r1 := (s1.tube t).ramp
  let d := directionOf r1.zones
  if r1.thermal == .settling || r1.thermal == .stable then s1.modRamp t fun r => r.startRamp d h.stepPeriod
  else
    match d with
    | .up => s1.modRamp t fun r => { r with direction := .up, slotHeld := true }
    | .down => (s1.modRamp t fun r => { r with direction := .down }).freeSlot rescan t
    | .none => (s1.modRamp t fun r => r.settle h.settlePeriod).freeSlot rescan t

/-! ## Release of a BOAT entry (R112 to R115) -/

/-- R52, R112: the stationary state of a position. -/
def positionState (inThreshold : Nat) (p : Word) : BoatState :=
  if p = 0 then .outPos else if p.toNat < inThreshold then .partialPos else .inPos

/-- R112: the boat comes to rest at its delivered position. -/
def Boat.rest (b : Boat) (inThreshold : Nat) : Boat :=
  { b with target := b.delivered, state := positionState inThreshold b.delivered, direction := .none,
           motionTimer := none }

/-- INWARD if the target lies above the delivered position, OUTWARD if below (R113, R116). -/
def Boat.heading (b : Boat) : BoatDir :=
  if b.delivered.toNat < b.target.toNat then .inward
  else if b.target.toNat < b.delivered.toNat then .outward
  else b.direction

/-- R118: the DONE(BOAT) notice and BOAT_ARRIVED; `count` is its extra word. -/
def State.boatDone (s : State) (t : Tube) (count : Nat) : State :=
  let b := (s.tube t).boat
  (s.modSummary t fun f => { f with boatArrived := true }).place
    (doneNotice 2 t (some b.lastChannel) b.lastTicket b.delivered (wordOf count))

/-- R113, R115: a released BOAT entry's value differs from the delivered position. A motion under way is steered, and a
stationary boat begins one. A STALLED boat takes the target and stays STALLED (R52); the manual describes no release that
finds it so (log 35). -/
def Boat.retarget (b : Boat) (v : Word) (motionPeriod : Nat) : Boat :=
  match b.state with
  | .moving => { b with target := v }
  | .stalled => { b with target := v }
  | _ =>
    { b with target := v, state := .moving, direction := Boat.heading { b with target := v }, stall := 0,
             expiries := 0, motionTimer := some motionPeriod }

/-- R113 to R115: a released BOAT entry is applied by the Boat Engine. An equal one leaves a STALLED boat STALLED, and is
an arrival with expiry count 0 as for a stationary boat (log 35). -/
def State.applyBoat (s : State) (t : Tube) (v ticket : Word) (channel : Six) : State :=
  let h := (s.tube t).header
  let s1 := s.modBoat t fun b => { b with lastTicket := ticket, lastChannel := channel }
  let b1 := (s1.tube t).boat
  if v = b1.delivered then
    if b1.state = .moving then
      (s1.modBoat t fun b => b.rest h.inThreshold).boatDone t b1.expiries
    else (s1.modBoat t fun b => { b with expiries := 0 }).boatDone t 0
  else s1.modBoat t fun b => b.retarget v h.motionPeriod

/-- R42, step 4: the owning engine applies a released entry. -/
def State.applyEntry (s : State) (rescan : State → State) (t : Tube) (e : HeldEntry) (units : Nat) : State :=
  match e.kind with
  | .zone z step => s.applyZone rescan t z step e.value e.ticket
  | .line l _ _ _ => s.applyLine rescan t l e.value units
  | .boat => s.applyBoat t e.value e.ticket e.channel

end Sys2Proof.Machine
end

