-- ==== Sys2Proof/Machine/Queue.lean ====
section
/-! DEFINITION. The Held Write Queue and the Claim List at work: release, examination of a head, grants, the scan of the
Claim List, removals and flush (R32, R38 to R46, R129 to R135). -/

namespace Sys2Proof.Machine

/-! ## Release (R42) -/

/-- The entry opens its line: the delivered flow was 0 before the release (R43). -/
def opensLine (x : TubeState) (e : HeldEntry) : Bool :=
  match e.kind with
  | .line l _ _ _ => (x.gas.lines.get l).flow == 0 && e.value != 0
  | _ => false

def releasedNotice (t : Tube) (channel : Six) (way : Way) (ticket value : Word) (acceptedAt : Long) : Notice :=
  notice .released (some t) (some channel) way.code ticket value (Long.low acceptedAt)

/-- R42, steps 1 to 5: the head `e` leaves the queue and its engine applies it with the units granted for it. -/
def State.releaseHead (s : State) (rescan : State → State) (t : Tube) (e : HeldEntry) (units : Nat) : State :=
  let opens := opensLine (s.tube t) e
  let way := if e.held then Way.queued else Way.immediate
  let s1 := s.modTube t fun x => { x with queue := x.queue.tail }
  let s2 := s1.place (releasedNotice t e.channel way e.ticket e.value e.acceptedAt)
  let s3 := s2.modTube t fun x => { x with lastReleased := e.ticket }
  let s4 := s3.applyEntry rescan t e units
  if opens then s4.modTube t fun x => { x with gapTimer := startUnlessZero x.header.releaseGap } else s4

/-! ## Examination of a head (R38, R39) -/

/-- The head entry replaced. -/
def State.setHead (s : State) (t : Tube) (e : HeldEntry) : State :=
  s.modTube t fun x => { x with queue := e :: x.queue.tail }

/-- The head goes back to WAITING with no claim. -/
def HeldEntry.toWaiting (e : HeldEntry) : HeldEntry := { e with state := .waiting, claim := none }

/-- R38, R39, and step 6 of R42: the head is judged; a released head is followed by the next one. `fuel` bounds the
heads and second looks, at most two for each entry. -/
def State.examineLoop (rescan : State → State) (t : Tube) : Nat → State → State
  | 0, s => s
  | fuel + 1, s =>
    match (s.tube t).queue with
    | [] => s
    | e :: _ =>
      match s.firstFailure t e with
      | some _ => s
      | none =>
        match e.state, neededClaim (s.tube t) e with
        | .waiting, none => State.examineLoop rescan t fuel (s.releaseHead rescan t e 0)
        | .waiting, some (p, a) =>
          rescan ((s.setHead t { e with state := .claiming, claim := some (p, a) }).joinClaim t p a .process
            (.entry e.ticket e.channel))
        | .claiming, need =>
          if need = e.claim then s
          else State.examineLoop rescan t fuel ((s.setHead t e.toWaiting).withdraw rescan (Claim.ofHead t))

def examineFuel (s : State) (t : Tube) : Nat := 2 * (s.tube t).queue.length + 2

def State.examineWith (s : State) (rescan : State → State) (t : Tube) : State :=
  State.examineLoop rescan t (examineFuel s t) s

/-! ## Grants and the scan (R41, R99, R131, R132) -/

/-- Within a running scan no second scan is made (R131, R132). -/
def absorbed (s : State) : State := s

/-- R41: a grant for a CLAIMING head; the head is tested again, and it is released or hands the grant back. -/
def State.headGrant (s : State) (t : Tube) (p : Pool) (amount : Nat) : State :=
  match (s.tube t).queue with
  | [] => s
  | e :: _ =>
    if e.state = .waiting then s
    else
      match s.firstFailure t e with
      | some _ => s.setHead t e.toWaiting
      | none =>
        if neededClaim (s.tube t) e = some (p, amount) then
          (s.releaseHead absorbed t e (if p = .exhaust then amount else 0)).examineWith absorbed t
        else (s.setHead t e.toWaiting).examineWith absorbed t

/-- R132: a granted claim leaves the list and is delivered to its claimant at once. -/
def State.grant (s : State) (c : Claim) : State :=
  let s1 := s.modBudget fun b => { b with claims := b.claims.erase c }
  if c.origin.isEntry then s1.headGrant c.tube c.pool c.amount else s1.runGrant c.tube

def Pool.other : Pool → Pool
  | .exhaust => .heat
  | .heat => .exhaust

/-- R131: the pools are taken in turn; `tried` says that the other pool could grant nothing since the last grant. -/
def State.scanLoop : Nat → Pool → Bool → State → State
  | 0, _, _, s => s
  | fuel + 1, p, tried, s =>
    match s.budget.front p with
    | some c =>
      if c.amount ≤ s.freeOf p then State.scanLoop fuel p false (s.grant c)
      else if tried then s else State.scanLoop fuel p.other true s
    | none => if tried then s else State.scanLoop fuel p.other true s

/-- More steps than any scan takes: each entry is granted at most twice, each grant is followed by at most two pool
changes. -/
def scanFuel (s : State) : Nat :=
  4 * (s.budget.claims.length + 2 * (Ix4.all.map (fun t => (s.tube t).queue.length)).sum) + 4

/-- R131: a scan of the Claim List, the exhaust pool first. -/
def State.scan (s : State) : State := State.scanLoop (scanFuel s) .exhaust false s

/-- R135: the CLAIM_WAIT notice of a claim. -/
def claimWaitNotice (s : State) (c : Claim) : Notice :=
  match c.origin with
  | .entry ticket channel =>
    notice .claimWait (some c.tube) (some channel) (c.pool.code + c.priority.code * 2 + c.origin.code * 8) ticket
      (wordOf c.amount) (wordOf (s.freeOf c.pool))
  | _ =>
    notice .claimWait (some c.tube) none (c.pool.code + c.priority.code * 2 + c.origin.code * 8)
      (s.tube c.tube).lastReleased (wordOf c.amount) (wordOf (s.freeOf c.pool))

/-- R131, R135: at the end of a scan every claim that joined for it or during it and still waits is given its
CLAIM_WAIT notice, in order of joining (log 12). -/
def State.announce (s : State) : State :=
  let fresh := s.budget.claims.filter (·.fresh)
  let s1 := s.modBudget fun b => { b with claims := b.claims.map (fun c => { c with fresh := false }) }
  fresh.foldl (fun acc c => acc.place (claimWaitNotice acc c)) s1

/-- A scan with its CLAIM_WAIT notices. -/
def State.rescan (s : State) : State := s.scan.announce

/-- R40: an examination of a tube's head, outside any scan. -/
def State.examine (s : State) (t : Tube) : State := s.examineWith State.rescan t

/-! ## Removals (R31, R32, R45, R46) -/

/-- How many entries stand ahead of the entry with a ticket. -/
def entriesAhead (queue : List HeldEntry) (ticket : Word) : Nat := (queue.takeWhile (fun e => e.ticket != ticket)).length

def supersededNotice (t : Tube) (e : HeldEntry) (way : Way) (byTicket : Word) : Notice :=
  notice .superseded (some t) (some e.channel) way.code e.ticket e.value byTicket

/-- R31 step 1, R32: the entries that `which` names are removed as SUPERSEDED by the write with ticket `byTicket`, with
one notice each, and the claim of a removed CLAIMING entry is withdrawn. R31 gives the notices no order among themselves;
they are placed head to tail, as R46 orders those of a flush (log 13). -/
def State.supersede (s : State) (t : Tube) (which : HeldEntry → Bool) (way : Way) (byTicket : Word) : State :=
  let removed := (s.tube t).queue.filter which
  let s1 := s.modTube t fun x => { x with queue := x.queue.filter (fun e => !which e) }
  let s2 := removed.foldl (fun acc e => acc.place (supersededNotice t e way byTicket)) s1
  if removed.any (fun e => e.state == EntryState.claiming) then s2.withdraw State.rescan (Claim.ofHead t) else s2

/-- The FLUSHED notices of a queue from position `k` on (R46, R47). -/
def placeFlushed (t : Tube) (origin : FlushOrigin) : Nat → List HeldEntry → State → State
  | _, [], s => s
  | k, e :: rest, s =>
    placeFlushed t origin (k + 1) rest
      (s.place (notice .flushed (some t) (some e.channel) origin.code e.ticket e.value (wordOf k)))

/-- R46: a CLAIMING head's claim is withdrawn, then every entry is removed from head to tail. -/
def State.flush (s : State) (t : Tube) (origin : FlushOrigin) : State :=
  let s1 := match (s.tube t).queue with
    | [] => s
    | e :: _ => if e.state = EntryState.claiming then s.withdraw State.rescan (Claim.ofHead t) else s
  let queue := (s1.tube t).queue
  placeFlushed t origin 0 queue (s1.modTube t fun x => { x with queue := [] })

/-! ## Examinations an event causes (R40) -/

/-- What R40 lists for a tube's head: a change of any of these causes an examination. -/
structure HeadView where
  mode : Mode
  atmosphere : Atmosphere
  boatState : BoatState
  boatDir : BoatDir
  position : Option Word
  thermal : Thermal
  cause : HeldCause
  direction : ThermalDir
  temperatures : Five Word
  slotHeld : Bool
  flow : Option Word
  throttle : Bool
  inhibit : Bool
  lapsed : Bool
  deriving DecidableEq, Repr

def State.headView (s : State) (t : Tube) : HeadView :=
  let x := s.tube t
  let kind : Option EntryKind := x.queue.head?.map HeldEntry.kind
  { mode := x.mode
    atmosphere := x.gas.atmosphere
    boatState := x.boat.state
    boatDir := x.boat.direction
    position := match kind with | some .boat => some x.boat.delivered | _ => none
    thermal := x.ramp.thermal
    cause := x.ramp.cause
    direction := x.ramp.direction
    temperatures := x.ramp.zones.map (·.delivered)
    slotHeld := x.ramp.slotHeld
    flow := match kind with | some (.line l _ _ _) => some (x.gas.lines.get l).flow | _ => none
    throttle := s.ringActs || s.staleActs
    inhibit := s.scrubberActs
    lapsed := s.monitor.lapsed }

/-- The tubes whose head is to be examined after an event: their records changed, and they have a head. -/
def dueHeads (before after : State) : List Tube :=
  Ix4.all.filter fun t => !(after.tube t).queue.isEmpty && decide (before.headView t ≠ after.headView t)

/-- The tubes in the order their heads are examined: R40 fixes none among several, so it is a free value (log 11). -/
def examineOrder (s : State) (due : List Tube) : List Tube × State :=
  match due with
  | [] => ([], s)
  | [t] => ([t], s)
  | _ => (pickOrder due.length (Config.examinationOrder s.freeCount) due, { s with freeCount := s.freeCount + 1 })

/-- R40: the heads an event has touched are examined, and again where the examinations themselves change a record.
`rounds` bounds the repetitions; a second round finds what the first left unchanged (R40). -/
def State.examineChanged : Nat → State → State → State
  | 0, _, after => after
  | rounds + 1, before, after =>
    match dueHeads before after with
    | [] => after
    | due =>
      let o := examineOrder after due
      State.examineChanged rounds after (o.1.foldl State.examine o.2)

end Sys2Proof.Machine
end

