-- ==== Sys2Proof/Machine/Bus.lean ====
section
/-! DEFINITION. The Image Bus: who requests it, what each requester's next access is, the arbiter's decision, the grant and
the completion (R166, R167, R169, R176, R183), and `finish`, what follows every event. -/

namespace Sys2Proof.Machine

/-! ## What each requester asks for -/

/-- R180: the delivered addresses of a tube's bound zones, lines and boat, in the order adoption reads them (the model's
choice, log 40). -/
def TubeBinding.plan (b : TubeBinding) : List Addr :=
  ((b.zones.toList.filter (·.bound)).map (·.addr)) ++ ((b.lines.toList.filter (·.bound)).map (·.addr))
    ++ (if b.boat.bound then [b.boat.addr] else [])

/-- The address of the loader's next word that has to be read over the bus; an adoption read with a pending delivery
is forwarded and needs none (R170). -/
def State.loaderAddress (s : State) : Option Addr :=
  match s.loader.job with
  | .idle => none
  | .root words => if words.length < 64 then some (s.root.address + BitVec.ofNat 20 words.length) else none
  | .tube t words =>
    if words.length < 544 then some (unitAddress (s.root.tubes.get t).pointer + BitVec.ofNat 20 words.length) else none
  | .scanList words =>
    if words.length < s.loader.scanCount * 4 then
      some (unitAddress s.loader.scanPointer + BitVec.ofNat 20 words.length)
    else none
  | .adoptWait => none
  | .adopt t words =>
    match (s.binding.get t).plan[words.length]? with
    | some a => if (s.forwarded a).isSome then none else some a
    | none => none

/-- The furnace-window place of a held access. -/
def State.placeOf (s : State) (acc : Access) : Place :=
  match windowPlace s.root.windowBase acc.addr with
  | some p => p
  | none => ⟨.i0, 0, 0⟩

/-- The address of word `n` of the descriptor of a held access's channel (R5). -/
def State.descriptorWord (s : State) (acc : Access) (n : Nat) : Addr :=
  let p := s.placeOf acc
  descriptorAddress (s.root.tubes.get p.tube).pointer p.channel + BitVec.ofNat 20 n

/-- R19: the written status word, with U set and W as given. -/
def statusBits (w : Bool) : Word := if w then 3 else 1

/-- The next WALK access of the Channel Map, or of the loader where no walk or write-back is waiting. -/
def State.walkAccess (s : State) : Option BusAccess :=
  match s.port.phase with
  | .walk acc words _ => some ⟨.walk, s.descriptorWord acc words.length, none, false⟩
  | .fillWriteBack acc _ w => some ⟨.walk, s.descriptorWord acc 6, some (statusBits w), false⟩
  | .useWriteBack acc _ => some ⟨.walk, s.descriptorWord acc 6, some (statusBits true), false⟩
  | _ => s.loaderAddress.map fun a => ⟨.walk, a, none, false⟩

def State.passAccess (s : State) : Option BusAccess :=
  match s.port.phase with
  | .pass acc a _ => some ⟨.pass, a, if acc.direction = .write then some acc.value else none, false⟩
  | _ => none

/-- R188: the root word numbers of the words the part writes. -/
def RootItem.number : RootItem → Nat
  | .status => 3 | .lost => 6 | .consumer => 5 | .producer => 4

/-- R176: the value a due root word is written with. -/
def State.rootItemValue (s : State) : RootItem → Word
  | .status => s.statusWord
  | .lost => s.notices.lost
  | .consumer => wordOf s.notices.consumer
  | .producer => wordOf s.notices.producer

/-- (producer + 1) mod N (R183). -/
def NoticeWriter.nextProducer (n : NoticeWriter) : Nat := (n.producer + 1) % n.ringSize

def State.noticeAccess (s : State) : Option BusAccess :=
  match s.notices.phase with
  | .idle => none
  | .record _ [] => none
  | .record a (w :: _) => some ⟨.notice, a, some w, false⟩
  | .producerIndex => some ⟨.notice, s.root.address + 4, some (wordOf s.notices.nextProducer), false⟩
  | .rootWord item => some ⟨.notice, s.root.address + BitVec.ofNat 20 item.number, some (s.rootItemValue item), false⟩

def State.scanAccess (s : State) : Option BusAccess :=
  match s.scanner.pass with
  | none => none
  | some p => (s.scanner.list[p.index]?).map fun r => ⟨.scan, r.source, none, false⟩

/-- R166: the request a requester has, where it has one. -/
def State.request (s : State) : Requester → Option BusAccess
  | .deliver => s.delivery.head?.map fun d => ⟨.deliver, d.addr, some d.value, false⟩
  | .walk => s.walkAccess
  | .pass => s.passAccess
  | .notice => s.noticeAccess
  | .scan => s.scanAccess

/-! ## Decision and grant (R167) -/

/-- The order of R167. -/
def Requester.all : List Requester := [.deliver, .walk, .pass, .notice, .scan]

def Requester.ix : Requester → Ix5
  | .deliver => .i0 | .walk => .i1 | .pass => .i2 | .notice => .i3 | .scan => .i4

def Bus.age (b : Bus) (r : Requester) : Nat := b.ages.get r.ix

/-- The requesters waiting at a decision. -/
def State.waiting (s : State) : List Requester := Requester.all.filter (fun r => (s.request r).isSome)

/-- R173: the front of the Delivery Queue is an entry for the address of a controller write whose PASS request already
waits. The entry is written after that write, so DELIVER waits and is not granted (log 36). -/
def State.deliverHeld (s : State) : Bool :=
  match s.port.phase, s.delivery with
  | .pass acc a _, d :: _ => decide (acc.direction = .write) && d.addr == a
  | _, _ => false

/-- The waiting requesters a decision may grant. -/
def State.eligible (s : State) : List Requester :=
  s.waiting.filter (fun r => !(decide (r = .deliver) && s.deliverHeld))

/-- R167: the first due requester, and where none is due the first waiting one, a held DELIVER passed over (R173). -/
def State.chosen (s : State) : Option Requester :=
  match s.eligible.find? (fun r => decide (4 ≤ s.bus.age r)) with
  | some r => some r
  | none => s.eligible.head?

/-- R167, item 3: the granted requester's age is 0, every other waiting one's rises by one, stopping at 4. -/
def agesAfter (ages : Five Nat) (waiting : List Requester) (granted : Requester) : Five Nat :=
  Requester.all.foldl
    (fun v r =>
      if r = granted then v.set r.ix 0
      else if waiting.contains r then v.set r.ix (min 4 (v.get r.ix + 1)) else v)
    ages

/-- What a grant takes from its owner: the front entry leaves the Delivery Queue (R169); a due root word is no longer
due, its value being the one written (log 10). -/
def State.onGrant (s : State) : Requester → State
  | .deliver => { s with delivery := s.delivery.tail }
  | .notice =>
    match s.notices.phase with
    | .rootWord .status => s.modNotices fun n => { n with dueStatus := false }
    | .rootWord .lost => s.modNotices fun n => { n with dueLost := false }
    | .rootWord .consumer => s.modNotices fun n => { n with dueConsumer := false }
    | .rootWord .producer => s.modNotices fun n => { n with dueProducer := false }
    | _ => s
  | _ => s

def State.grantBus (s : State) (r : Requester) (a : BusAccess) : State :=
  { s.onGrant r with bus := { inFlight := some a, ages := agesAfter s.bus.ages s.waiting r } }

/-- R176: the next due root word, in its order. -/
def NoticeWriter.nextDue (n : NoticeWriter) : Option RootItem :=
  if n.dueStatus then some .status
  else if n.dueLost then some .lost
  else if n.dueConsumer then some .consumer
  else if n.dueProducer then some .producer
  else none

/-- Between records the Notice Writer turns to the next due root word (R176). The word is fixed here, when its request is
raised: one of earlier order that becomes due while the request waits is written after it (log 10). -/
def State.takeDue (s : State) : State :=
  match s.notices.phase, s.notices.nextDue with
  | .idle, some item => s.modNotices fun n => { n with phase := .rootWord item }
  | _, _ => s

/-- R167: an IDLE bus with a waiting request makes its decision; the requests an event raises join together (log 9). -/
def State.arbitrate (s : State) : State :=
  match s.bus.inFlight with
  | some _ => s
  | none =>
    match s.chosen with
    | none => s
    | some r =>
      match s.request r with
      | none => s
      | some a => s.grantBus r a

def State.advance (s : State) : State := s.takeDue.arbitrate

/-! ## After an event -/

/-- What follows every event: the heads it touched are examined (R40), a changed status word becomes due (R176), and
the Image Bus goes on (R167). `before` is the state the event met. -/
def State.finish (before after : State) : State :=
  (before.markStatus (State.examineChanged 4 before after)).advance

/-! ## Completion (R166) -/

/-- The access in flight completes: a write places its word, and the bus is IDLE until the next decision. -/
def State.completeBus (s : State) : State :=
  match s.bus.inFlight with
  | none => s
  | some a =>
    let s1 := { s with bus := { s.bus with inFlight := none } }
    match a.write with
    | none => s1
    | some v => s1.writeWord a.addr v

/-- The access in flight, if it is a requester's and its owner still waits for it. -/
def State.inFlightOf (s : State) (r : Requester) : Option BusAccess :=
  match s.bus.inFlight with
  | none => none
  | some a => if a.requester = r ∧ !a.discard then some a else none

/-- An access that a RELOAD has abandoned completes and goes to nobody (R165, R177, log 29). -/
def State.dropDiscarded (s : State) (r : Requester) : State :=
  match s.bus.inFlight with
  | none => s
  | some a => if a.requester = r ∧ a.discard then s.finish s.completeBus else s

/-- The bus is brought to a command: an IDLE bus with waiting requests is granted, and an abandoned access of the
requester completes. -/
def State.openBus (s : State) (r : Requester) : State := s.advance.dropDiscarded r

/-- At most `n` words of a transaction arrive, as long as the requester is granted each in turn and `ready` holds; each
arrival is one event, handed to `onWord` with the word read (log 8). -/
def takeWords (r : Requester) (ready : State → Bool) (onWord : State → Word → State) : Nat → State → State
  | 0, s => s
  | n + 1, s =>
    match s.inFlightOf r with
    | none => s
    | some a =>
      if ready s then takeWords r ready onWord n (s.finish (onWord s.completeBus (s.readWord a.addr))) else s

end Sys2Proof.Machine
end

