-- ==== Sys2Proof/Machine/Abort.lean ====
section
/-! DEFINITION. The Abort Controller: the abort sequence, its end, second causes, the bank trip and TRIP_CLEAR (R140 to
R153), with the engines' parts in them (R87, R105, R121, R134). -/

namespace Sys2Proof.Machine

/-- R140: a request is handed over and waits. -/
def State.requestAbort (s : State) (r : AbortRequest) : State :=
  s.modAbort fun a => { a with requests := a.requests ++ [r] }

/-- R151: a trip is handed over and waits. -/
def State.requestTrip (s : State) (r : TripRequest) : State :=
  s.modAbort fun a => { a with trips := a.trips ++ [r] }

/-- R143, R148: a notice of an abort; `value` and `extra` as the kind gives them. -/
def abortNotice (kind : NoticeKind) (t : Tube) (channel : Option Six) (cause : AbortCause) (ticket value extra : Word) :
    Notice :=
  notice kind (some t) channel cause.code ticket value extra

/-- R87: the Ramp Engine's part of the freeze. -/
def State.freezeRamp (s : State) (t : Tube) : State :=
  (s.modRamp t fun r =>
    { r with thermal := .held, cause := .abort, direction := if r.thermal = .ramping ∨ r.thermal = .held then r.direction else .none,
             stepTimer := none, settleTimer := none }).freeSlot State.rescan t

/-- R121: the Boat Engine's part of the freeze. -/
def Boat.freeze (b : Boat) (inThreshold : Nat) : Boat :=
  match b.state with
  | .moving => b.rest inThreshold
  | .paused => b.rest inThreshold
  | _ => { b with target := b.delivered, motionTimer := none }

/-- R105, PROCESS: the open reactive lines among `lines` are closed one after another, in line order 0 to 7, which R105
does not give (log 37). -/
def State.closeReactive (s : State) (t : Tube) : List Line → State
  | [] => s
  | l :: rest =>
    let r := s.lineRec t l
    (if r.reactive && r.flow != 0 then s.lowerLine State.rescan t l 0 else s).closeReactive t rest

/-- R134: the waiting claim of a tube's run is raised to priority ABORT, and the list is scanned. R105 and R134 raise the
claim; the priority of the run record is set with it, and is left alone where no claim waits (log 39). -/
def State.raiseRunClaim (s : State) (t : Tube) : State :=
  match s.runClaim t with
  | none => s
  | some c =>
    if c.priority = .abort then s
    else
      ((s.modBudget fun b =>
          { b with claims := b.claims.map (fun d => if d.ofRun t then { d with priority := .abort } else d) }).modGas t
        fun g => { g with run := g.run.map (fun r => { r with priority := .abort }) }).rescan

/-- R105, PURGING: a purge-limit timer stopped by its own expiry restarts with the full purge limit. -/
def restartLimit (timer : Timer) (purgeLimit : Nat) : Timer :=
  match timer with
  | none => some (purgeLimit * 1000)
  | some r => some r

/-- R105: the Gas Engine's part of an abort, by the atmosphere it finds. -/
def State.gasAbort (s : State) (t : Tube) : State :=
  let h := (s.tube t).header
  match (s.tube t).gas.atmosphere with
  | .process => (s.closeReactive t Ix8.all).startRun State.rescan t (abortClearing h)
  | .clearing => (s.withdraw State.rescan (Claim.ofRun t)).startRun State.rescan t (abortClearing h)
  | .purging =>
    (s.modGas t fun g => { g with limitTimer := restartLimit g.limitTimer h.purgeLimit }).raiseRunClaim t
  | .air => s
  | .inert => s

/-- R141, R146: the abort claim timer starts with the full limit unless that is 0. -/
def State.startClaimTimer (s : State) (t : Tube) : State :=
  s.modTube t fun x => { x with abortTimer := startUnlessZero (s.abort.claimLimit * 100) }

/-- R145: the end of an abort; `litres` is the abort run's accumulator in litres, or 0. -/
def State.endAbort (s : State) (t : Tube) (litres : Word) : State :=
  let x := s.tube t
  let s1 := s.modTube t fun y =>
    { y with abortTimer := none, mode := .aborted, summary := { y.summary with abortEnd := true } }
  s1.place (abortNotice .abortEnd t none x.abortCause x.lastReleased litres (s.secondsSince x.abortBegin))

/-- R142, step 1: the cause, the begin time, mode ABORTING and the ABORT_BEGIN notice. -/
def State.beginAbort (s : State) (r : AbortRequest) : State :=
  (s.modTube r.tube fun x =>
      { x with abortCause := r.cause, abortBegin := s.clock, mode := .aborting }).place
    (abortNotice .abortBegin r.tube r.channel r.cause (s.tube r.tube).lastReleased r.detail1 r.detail2)

/-- R142, step 6: no run ends the abort at once; a run whose claim still waits starts the abort claim timer. -/
def State.afterGasAbort (s : State) (t : Tube) : State :=
  match (s.tube t).gas.run with
  | none => s.endAbort t 0
  | some r => if r.phase = .claiming ∧ (s.runClaim t).isSome then s.startClaimTimer t else s

/-- R142: the abort sequence of a tube in RUN or HOLD. -/
def State.abortTube (s : State) (r : AbortRequest) : State :=
  let t := r.tube
  let s1 := s.beginAbort r
  let s2 := (s1.flush t .abort).modTube t fun x => { x with gapTimer := none }
  let s3 := s2.freezeRamp t
  let s4 := s3.modBoat t fun b => b.freeze (s3.tube t).header.inThreshold
  (s4.gasAbort t).afterGasAbort t

/-- R148: a second cause changes no record. -/
def State.abortAgain (s : State) (r : AbortRequest) : State :=
  let x := s.tube r.tube
  s.place (abortNotice .abortAgain r.tube r.channel r.cause x.lastReleased (wordOf x.abortCause.code) r.detail1)

/-- R140: a request is decided by the tube's mode as it stands; one for a tube that is not present is discarded. -/
def State.takeAbort (s : State) (r : AbortRequest) : State :=
  if !s.present r.tube then s
  else
    match (s.tube r.tube).mode with
    | .run => s.abortTube r
    | .hold => s.abortTube r
    | .aborting => s.abortAgain r
    | .aborted => s.abortAgain r

/-- ABORT_REQUEST (R140, R142, R148): the first waiting request is taken. -/
def execAbortRequest (s : State) : Host.Outcome State Fault Refusal :=
  match s.abort.requests with
  | [] => .next s
  | r :: rest => .next (s.finish ((s.modAbort fun a => { a with requests := rest }).takeAbort r))

/-! ## The bank trip (R150 to R152) -/

def workingTubes (s : State) : List Tube :=
  s.presentTubes.filter fun t => (s.tube t).mode == .run || (s.tube t).mode == .hold

/-- R151, R152: the TRIP notice; its extra word is the number of tubes aborted, or 0FFFFH for a repeat. -/
def tripNotice (s : State) (r : TripRequest) (extra : Word) : Notice :=
  let ticket := match r.cause, r.tube with
    | .scanLimit, _ => r.index
    | _, some t => (s.tube t).lastReleased
    | _, none => 0
  notice .trip r.tube none r.cause.code ticket r.detail extra

/-- R151: the request a first trip makes for each working tube (log 15). -/
def tripAbort (r : TripRequest) (t : Tube) : AbortRequest :=
  ⟨t, .bankTrip, none, wordOf r.cause.code, r.detail⟩

/-- R151: a first trip. -/
def State.firstTrip (s : State) (r : TripRequest) : State :=
  let s1 := s.modAbort fun a => { a with latch := true, tripCause := r.cause, tripTime := s.clock }
  let tubes := workingTubes s1
  let s2 := s1.place (tripNotice s r (wordOf tubes.length))
  tubes.foldl (fun acc t => acc.abortTube (tripAbort r t)) s2

/-- R151, R152: a trip is taken. -/
def State.takeTrip (s : State) (r : TripRequest) : State :=
  if s.abort.latch then s.place (tripNotice s r 0xFFFF) else s.firstTrip r

/-- BANK_TRIP (R151, R152): the first waiting trip is taken. -/
def execBankTrip (s : State) : Host.Outcome State Fault Refusal :=
  match s.abort.trips with
  | [] => .next s
  | r :: rest => .next (s.finish ((s.modAbort fun a => { a with trips := rest }).takeTrip r))

/-- ABORT_CLAIM_EXPIRY (R146): where the run's claim still waits, the bank is tripped with cause CLAIM_STARVED. -/
def State.abortClaimExpired (s : State) (t : Tube) : State :=
  let s1 := s.modTube t fun x => { x with abortTimer := none }
  match s.runClaim t with
  | none => s1
  | some c => s1.requestTrip ⟨.claimStarved, some t, 0, wordOf c.amount⟩

def execAbortClaimExpiry (t : Tube) (s : State) : Host.Outcome State Fault Refusal :=
  match (s.tube t).abortTimer with
  | none => .next s
  | some r => .next (s.finish ((s.elapse r).abortClaimExpired t))

/-! ## TRIP_CLEAR (R153) -/

/-- No present tube is in mode ABORTING. -/
def State.tripClearable (s : State) : Bool := s.presentTubes.all fun t => (s.tube t).mode != .aborting

/-- R153: a taken TRIP_CLEAR. -/
def State.clearTrip (s : State) : State :=
  if s.abort.latch then
    (s.modAbort fun a => { a with latch := false, tripCause := .none }).place
      (notice .tripCleared none none s.abort.tripCause.code 0 0 (s.secondsSince s.abort.tripTime))
  else s

end Sys2Proof.Machine
end

