-- ==== Sys2Proof/Machine/Boat.lean ====
section
/-! DEFINITION. The Boat Engine's motion expiry: direction, band step, move, stall check and arrival (R116 to R119). -/

namespace Sys2Proof.Machine

/-- R117: the load-end temperature the bands are read against. -/
def State.loadEndTemperature (s : State) (t : Tube) : Nat :=
  let m := s.zoneSample t .i0
  if m.sampled then m.value.toNat else ((s.tube t).ramp.zones.get .i0).delivered.toNat

/-- R117: the step of the first band, 0 to 3, whose bound is at or above the temperature, or 0. -/
def bandStepOf (bounds steps : Four Nat) (temperature : Nat) : Nat :=
  if temperature ≤ bounds.a0 then steps.a0
  else if temperature ≤ bounds.a1 then steps.a1
  else if temperature ≤ bounds.a2 then steps.a2
  else if temperature ≤ bounds.a3 then steps.a3
  else 0

/-- R117: the band step, cut to the approach step within the approach distance. -/
def motionStep (h : Header) (temperature remaining : Nat) : Nat :=
  let step := bandStepOf h.bandBound h.bandStep temperature
  if h.approachDistance ≠ 0 ∧ remaining ≤ h.approachDistance then min step h.approachStep else step

/-- R118: the position after a move of at most `step` towards the target. -/
def movedPosition (b : Boat) (step : Nat) : Word :=
  if b.delivered.toNat < b.target.toNat then
    wordOf (b.delivered.toNat + min step (b.target.toNat - b.delivered.toNat))
  else wordOf (b.delivered.toNat - min step (b.delivered.toNat - b.target.toNat))

/-- R119: the stall counter after the check against the measured position. -/
def stallCounter (h : Header) (m : Sample) (delivered : Word) (counter : Nat) : Nat :=
  if !m.sampled then counter
  else if h.stallLimit < distance m.value.toNat delivered.toNat then min 15 (counter + 1)
  else 0

/-- R119: the check has just brought the counter to the stall count. -/
def stalls (h : Header) (m : Sample) (delivered : Word) (counter : Nat) : Bool :=
  m.sampled && decide (h.stallLimit < distance m.value.toNat delivered.toNat) && decide (h.stallCount ≤ counter + 1)

/-- R118, R119: what ends a motion expiry: a stall, an arrival, or a new period. -/
def State.afterMove (s : State) (t : Tube) : State :=
  let h := (s.tube t).header
  let b := (s.tube t).boat
  let m := s.boatSample t
  let s1 := s.modBoat t fun b => { b with stall := stallCounter h m b.delivered b.stall }
  if stalls h m b.delivered b.stall then
    (s1.modBoat t fun b => { b with state := .stalled, direction := .none, motionTimer := none }).requestAbort
      ⟨t, .boatStall, none, m.value, b.delivered⟩
  else if b.delivered = b.target then (s1.modBoat t fun b => b.rest h.inThreshold).boatDone t b.expiries
  else s1.modBoat t fun b => { b with motionTimer := some h.motionPeriod }

/-- R116: one motion expiry. -/
def State.motionExpired (s : State) (t : Tube) : State :=
  let h := (s.tube t).header
  let s1 := s.modBoat t fun b => { b with expiries := min 65535 (b.expiries + 1), direction := b.heading }
  let b := (s1.tube t).boat
  let step := motionStep h (s1.loadEndTemperature t) (distance b.target.toNat b.delivered.toNat)
  let p := movedPosition b step
  let s2 :=
    if p = b.delivered then s1
    else (s1.modBoat t fun b => { b with delivered := p }).deliver (s1.binding.get t).boat.addr p false
  s2.afterMove t

/-- MOTION_EXPIRY (R116). -/
def execMotionExpiry (t : Tube) (s : State) : Host.Outcome State Fault Refusal :=
  match (s.tube t).boat.motionTimer with
  | none => .next s
  | some r => .next (s.finish ((s.elapse r).motionExpired t))

end Sys2Proof.Machine
end

