-- ==== Sys2Proof/Machine/Ramp.lean ====
section
/-! DEFINITION. The Ramp Engine's expiries: the step expiry with its lag check, moves and end of ramp, and the settle
expiry (R79 to R84). -/

namespace Sys2Proof.Machine

/-- R80: a zone lags: bound, away from its target, sampled, and further from its measured value than the lag limit. -/
def State.zoneLags (s : State) (t : Tube) (z : Zone) : Bool :=
  let r := (s.tube t).ramp.zones.get z
  let m := s.zoneSample t z
  r.bound && r.delivered != r.target && m.sampled
    && decide ((s.tube t).header.lagLimit < distance m.value.toNat r.delivered.toNat)

/-- R80: the lowest-numbered lagging zone; a lag limit of 0 turns the check off. -/
def State.laggingZone (s : State) (t : Tube) : Option Zone :=
  if (s.tube t).header.lagLimit = 0 then none else Ix5.all.find? (s.zoneLags t)

/-- R81: the value a zone moves to: the smaller of its step size and the distance, towards its target. -/
def ZoneRec.moved (r : ZoneRec) : Word :=
  if r.delivered.toNat < r.target.toNat then
    wordOf (r.delivered.toNat + min r.step (r.target.toNat - r.delivered.toNat))
  else wordOf (r.delivered.toNat - min r.step (r.delivered.toNat - r.target.toNat))

def State.zoneAddr (s : State) (t : Tube) (z : Zone) : Addr := ((s.binding.get t).zones.get z).addr

/-- A zone's delivered value is set and placed as a non-urgent write. -/
def State.setZone (s : State) (t : Tube) (z : Zone) (v : Word) : State :=
  (s.modRamp t fun r => { r with zones := r.zones.set z { r.zones.get z with delivered := v } }).deliver
    (s.zoneAddr t z) v false

/-- R81: a bound zone away from its target moves; a zone at its target is not written. -/
def State.moveZone (s : State) (t : Tube) (z : Zone) : State :=
  let r := (s.tube t).ramp.zones.get z
  if r.bound && r.delivered != r.target then s.setZone t z r.moved else s

/-- R81, R82: after the moves the direction is worked out afresh; an ended ramp enters SETTLING. -/
def State.afterMoves (s : State) (t : Tube) : State :=
  let h := (s.tube t).header
  match directionOf (s.tube t).ramp.zones with
  | .none => (s.modRamp t fun r => r.settle h.settlePeriod).freeSlot State.rescan t
  | .up => s.modRamp t fun r => { r with direction := .up }
  | .down => (s.modRamp t fun r => { r with direction := .down }).freeSlot State.rescan t

/-- R80: the hold of a lagging tube, with its LAG notice on entry. -/
def State.lagHold (s : State) (t : Tube) (z : Zone) : State :=
  let r := (s.tube t).ramp
  if r.thermal = .ramping then
    (s.modRamp t fun r => { r with thermal := .held, cause := .lag }).place
      (notice .lag (some t) none z.toNat r.lastTicket (r.zones.get z).delivered (s.zoneSample t z).value)
  else s

/-- R79 to R82: one step expiry. -/
def State.stepExpired (s : State) (t : Tube) : State :=
  let s1 := s.modRamp t fun r => { r with stepTimer := some (s.tube t).header.stepPeriod }
  match s1.laggingZone t with
  | some z => s1.lagHold t z
  | none =>
    let s2 := Ix5.all.foldl (fun acc z => acc.moveZone t z) s1
    (s2.modRamp t fun r => { r with thermal := .ramping, cause := .none }).afterMoves t

/-- STEP_EXPIRY (R79). -/
def execStepExpiry (t : Tube) (s : State) : Host.Outcome State Fault Refusal :=
  match (s.tube t).ramp.stepTimer with
  | none => .next s
  | some r => .next (s.finish ((s.elapse r).stepExpired t))

/-- R83: a zone is outside the settle window: bound, sampled, further from its target than the window. -/
def State.zoneUnsettled (s : State) (t : Tube) (z : Zone) : Bool :=
  let r := (s.tube t).ramp.zones.get z
  let m := s.zoneSample t z
  r.bound && m.sampled && decide ((s.tube t).header.settleWindow < distance m.value.toNat r.target.toNat)

/-- R84: a failed settle check with the lowest-numbered zone outside the window. R84 names no channel for SETTLE_SLOW;
the notice carries the no-channel marker, as LAG does by R80 (log 38). -/
def State.settleFailed (s : State) (t : Tube) (z : Zone) : State :=
  let x := s.tube t
  let count := min 255 (x.ramp.retry + 1)
  let s1 := s.modRamp t fun r => { r with retry := count, settleTimer := some x.header.settlePeriod }
  if x.header.settleRetryLimit ≠ 0 ∧ count = x.header.settleRetryLimit ∧ count ≠ x.ramp.retry then
    s1.place (notice .settleSlow (some t) none z.toNat x.ramp.lastTicket (x.ramp.zones.get z).target
      (s.zoneSample t z).value)
  else s1

/-- R83: a passed settle check. -/
def State.settlePassed (s : State) (t : Tube) : State :=
  let r := (s.tube t).ramp
  ((s.modRamp t fun r => { r with thermal := .stable, cause := .none, direction := .none, settleTimer := none }).place
      (doneNotice 1 t none r.lastTicket (wordOf r.retry) 0)).modSummary t
    fun f => { f with rampDone := true }

/-- R83, R84: one settle expiry. -/
def State.settleExpired (s : State) (t : Tube) : State :=
  match Ix5.all.find? (s.zoneUnsettled t) with
  | some z => s.settleFailed t z
  | none => s.settlePassed t

/-- SETTLE_EXPIRY (R83, R84). -/
def execSettleExpiry (t : Tube) (s : State) : Host.Outcome State Fault Refusal :=
  match (s.tube t).ramp.settleTimer with
  | none => .next s
  | some r => .next (s.finish ((s.elapse r).settleExpired t))

end Sys2Proof.Machine
end

