-- ==== Sys2Proof/Machine/Tube.lean ====
section
/-! DEFINITION. The outcome of a controller access, and Tube Control: the tube commands and the reads of the TUBE words
(R24, R56 to R66, R172). -/

namespace Sys2Proof.Machine

/-! ## Outcomes of a controller access (R172) -/

/-- The port answers the access it holds and is IDLE again. -/
def State.answer (s : State) (a : Answer) : State := { s with port := ⟨.idle, a⟩ }

def State.ack (s : State) : State := s.answer .acknowledge

/-- R24: a REFUSED notice; the address in its ticket and extra words, the written value (0 for a read) in its value
word. -/
def refusedNotice (tube : Option Tube) (channel : Option Six) (acc : Access) (r : RefuseReason) : Notice :=
  notice .refused tube channel (r.code + Direction.code acc.direction * 32) (wordOf (acc.addr.toNat / 0x10000)) acc.value
    (wordOf acc.addr.toNat)

/-- R24: a refusal of an access to a tube's channel. -/
def State.refuseAt (s : State) (acc : Access) (p : Place) (r : RefuseReason) : State :=
  (s.place (refusedNotice (some p.tube) (some p.channel) acc r)).answer .errorAcknowledge

/-- R24: a refusal of an access outside the furnace window. -/
def State.refuseBank (s : State) (acc : Access) (r : RefuseReason) : State :=
  (s.place (refusedNotice none none acc r)).answer .errorAcknowledge

/-- R65: REFUSED_ANY is set in a tube's event summary. -/
def State.markRefused (s : State) (t : Tube) : State := s.modSummary t fun f => { f with refusedAny := true }

/-- R26, R56, R68: a refusal by acceptance, Tube Control or the MANUAL path also sets REFUSED_ANY. -/
def State.refuseTube (s : State) (acc : Access) (p : Place) (r : RefuseReason) : State :=
  (s.markRefused p.tube).refuseAt acc p r

/-! ## Tube commands (R56 to R63) -/

/-- The mode is RUN or HOLD. -/
def Mode.working : Mode → Bool
  | .run => true
  | .hold => true
  | .aborting => false
  | .aborted => false

/-- R57: PURGE is taken in RUN or HOLD with atmosphere AIR or INERT. -/
def purgeAllowed (x : TubeState) : Bool :=
  x.mode.working && (x.gas.atmosphere == .air || x.gas.atmosphere == .inert)

/-- R57, R98: a taken PURGE. -/
def State.takePurge (s : State) (t : Tube) : State := s.startRun State.rescan t (commandedPurge (s.tube t).header)

/-- R58: RAMPING, or HELD(LAG), becomes HELD(HOLD); the step timer stops. -/
def Ramp.pause (r : Ramp) : Ramp :=
  if r.thermal = .ramping ∨ (r.thermal = .held ∧ r.cause = .lag) then
    { r with thermal := .held, cause := .hold, stepTimer := none }
  else r

/-- R58: MOVING becomes PAUSED; the motion timer stops. -/
def Boat.pause (b : Boat) : Boat :=
  if b.state = .moving then { b with state := .paused, motionTimer := none } else b

/-- R58: a taken HOLD of a tube in RUN. -/
def TubeState.pause (x : TubeState) : TubeState :=
  { x with mode := .hold, ramp := x.ramp.pause, boat := x.boat.pause }

/-- R59: HELD(HOLD) becomes RAMPING in the held direction, with a full step period. -/
def Ramp.unpause (r : Ramp) (stepPeriod : Nat) : Ramp :=
  if r.thermal = .held ∧ r.cause = .hold then
    { r with thermal := .ramping, cause := .none, stepTimer := some stepPeriod }
  else r

/-- R59: PAUSED becomes MOVING in the paused direction, with a full motion period. -/
def Boat.unpause (b : Boat) (motionPeriod : Nat) : Boat :=
  if b.state = .paused then { b with state := .moving, motionTimer := some motionPeriod } else b

/-- R59: a taken RESUME of a tube in HOLD. -/
def TubeState.unpause (x : TubeState) : TubeState :=
  { x with mode := .run, ramp := x.ramp.unpause x.header.stepPeriod, boat := x.boat.unpause x.header.motionPeriod }

/-- R60: HELD(ABORT) becomes SETTLING with every target equal to its delivered value (log 33 for the retry count). -/
def Ramp.recover (r : Ramp) (settlePeriod : Nat) : Ramp :=
  if r.thermal = .held ∧ r.cause = .abort then
    Ramp.settle { r with zones := r.zones.map (fun z => { z with target := z.delivered }) } settlePeriod
  else r

/-- R60, R120: a STALLED boat takes its state by position, and its stall counter is 0. -/
def Boat.recover (b : Boat) (inThreshold : Nat) : Boat :=
  if b.state = .stalled then { (b.rest inThreshold) with stall := 0 } else b

/-- R60, R141: a taken RESUME of a tube in ABORTED. -/
def TubeState.recover (x : TubeState) : TubeState :=
  { x with mode := .run, ramp := x.ramp.recover x.header.settlePeriod, boat := x.boat.recover x.header.inThreshold,
           abortCause := .none }

/-- R62: VENT is taken in RUN or HOLD with atmosphere INERT and the boat OUT. -/
def ventAllowed (x : TubeState) : Bool :=
  x.mode.working && x.gas.atmosphere == .inert && x.boat.state == .outPos

/-- R95: each bound line among `lines` with a nonzero flow is closed, one after another, its drop freed and the Claim List
scanned (R125) before the next. The order 0 to 7 is the model's, and so is what follows when such a scan releases an inert
open of the same tube: each flow is read again as its line is reached, so an opened line of a higher number is closed with
the rest, and one of a lower number keeps its flow (log 37). -/
def State.closeAll (s : State) (t : Tube) : List Line → State
  | [] => s
  | l :: rest =>
    let r := s.lineRec t l
    (if r.bound && r.flow != 0 then s.lowerLine State.rescan t l 0 else s).closeAll t rest

/-- R95: every deviation counter 0 and the atmosphere AIR. -/
def Gas.vented (g : Gas) : Gas :=
  { g with lines := g.lines.map (fun l => { l with devCounter := 0 }), atmosphere := .air }

/-- R62, R95: a taken VENT. -/
def State.takeVent (s : State) (t : Tube) : State := (s.closeAll t Ix8.all).modGas t Gas.vented

def State.commandPurge (s : State) (acc : Access) (p : Place) : State :=
  if purgeAllowed (s.tube p.tube) then (s.takePurge p.tube).ack else s.refuseTube acc p .state

def State.commandHold (s : State) (acc : Access) (p : Place) : State :=
  match (s.tube p.tube).mode with
  | .run => (s.modTube p.tube TubeState.pause).ack
  | .hold => s.ack
  | .aborting => s.refuseTube acc p .state
  | .aborted => s.refuseTube acc p .state

def State.commandResume (s : State) (acc : Access) (p : Place) : State :=
  match (s.tube p.tube).mode with
  | .run => s.ack
  | .hold => (s.modTube p.tube TubeState.unpause).ack
  | .aborting => s.refuseTube acc p .state
  | .aborted => if s.abort.latch then s.refuseTube acc p .tripped else (s.modTube p.tube TubeState.recover).ack

/-- R61: an abort with cause COMMAND is handed to the Abort Controller, in every mode; details by R140. -/
def State.commandAbort (s : State) (acc : Access) (p : Place) : State :=
  (s.requestAbort ⟨p.tube, .command, some p.channel, p.channel.setWidth 16, wordOf (AccessClass.code acc.class_)⟩).ack

def State.commandVent (s : State) (acc : Access) (p : Place) : State :=
  if ventAllowed (s.tube p.tube) then (s.takeVent p.tube).ack else s.refuseTube acc p .state

def State.commandFlush (s : State) (acc : Access) (p : Place) : State :=
  if (s.tube p.tube).mode.working then (s.flush p.tube .command).ack else s.refuseTube acc p .state

/-- R56: the value written to word 0 of a TUBE channel is decoded. -/
def State.tubeCommand (s : State) (acc : Access) (p : Place) : State :=
  match acc.value.toNat with
  | 1 => s.commandPurge acc p
  | 2 => s.commandHold acc p
  | 3 => s.commandResume acc p
  | 4 => s.commandAbort acc p
  | 5 => s.commandVent acc p
  | 6 => s.commandFlush acc p
  | _ => s.refuseTube acc p .badCommand

/-! ## The TUBE words (R64 to R66) -/

/-- R66: a read of w4. -/
def TubeState.readLow (x : TubeState) : Word × TubeState :=
  if x.latchHeld then (Long.low x.latchValue, x)
  else (Long.low x.gas.accumulator, { x with latchHeld := true, latchValue := x.gas.accumulator })

/-- R66: a read of w5. -/
def TubeState.readHigh (x : TubeState) : Word × TubeState :=
  if x.latchHeld then (Long.high x.latchValue, { x with latchHeld := false })
  else (Long.high x.gas.accumulator, x)

/-- R64: the value a read of a TUBE word returns, and the tube after it. -/
def TubeState.readWord (x : TubeState) (n : Nat) : Word × TubeState :=
  match n with
  | 0 => (x.word0, x)
  | 1 => (x.word1, x)
  | 2 => (x.word2, x)
  | 3 => (x.summary.word, { x with summary := Summary.clear })
  | 4 => x.readLow
  | 5 => x.readHigh
  | 6 => (x.lastIssued, x)
  | _ => (x.lastReleased, x)

/-- R64: Tube Control answers a read of a TUBE channel. -/
def State.tubeRead (s : State) (p : Place) : State :=
  let r := (s.tube p.tube).readWord p.word.toNat
  (s.setTube p.tube r.2).answer (.data r.1)

end Sys2Proof.Machine
end

