-- ==== Sys2Proof/Machine/Accept.lean ====
section
/-! DEFINITION. Shaped-write acceptance with its bypass, supersede, hold and full-queue paths, the MANUAL path, and the
expiries of the queue's own timers (R26 to R34, R43, R45, R68 to R71). -/

namespace Sys2Proof.Machine

/-! ## Judging a shaped write (R26 to R29) -/

/-- R28: the value lies within the limits of the cached copy. -/
def inLimits (d : DescWords) (v : Word) : Bool :=
  match d.mark with
  | .zone _ => decide (d.w4.toNat ≤ v.toNat) && decide (v.toNat ≤ d.w3.toNat)
  | _ => decide (v.toNat ≤ d.w3.toNat)

/-- The line a LINE descriptor names. -/
def DescWords.line? (d : DescWords) : Option Line :=
  match d.mark with
  | .line l => some l
  | _ => none

/-- R35: the kind of an entry, with its parameters copied from the cached descriptor. -/
def DescWords.entryKind (d : DescWords) : EntryKind :=
  match d.mark with
  | .zone z => .zone z d.w5.toNat
  | .line l => .line l d.reactive d.purge d.weight
  | _ => .boat

/-- R27: the Gas Engine owns the line of a descriptor. -/
def State.owned (s : State) (t : Tube) (d : DescWords) : Bool :=
  match d.line? with
  | none => false
  | some l =>
    decide (l = (s.tube t).header.purgeLine) && ((s.binding.get t).lines.get l).purge
      && ((s.tube t).gas.atmosphere == .purging || (s.tube t).gas.atmosphere == .clearing)

/-- R26, step 3: the line of a bypass write, a LINE write not above the line's delivered flow. -/
def bypassLine (x : TubeState) (d : DescWords) (v : Word) : Option Line :=
  match d.line? with
  | none => none
  | some l => if v.toNat ≤ (x.gas.lines.get l).flow.toNat then some l else none

/-- R30: the next ticket is taken, from 0FFFFH to 0, and is the last issued one. -/
def State.takeTicket (s : State) (t : Tube) : State :=
  s.modTube t fun x => { x with lastIssued := x.nextTicket, nextTicket := x.nextTicket + 1 }

/-! ## The bypass path (R31) -/

/-- A held entry is bound to a line. -/
def HeldEntry.forLine (l : Line) (e : HeldEntry) : Bool :=
  match e.kind with
  | .line k _ _ _ => decide (k = l)
  | _ => false

/-- R31: a bypass write with ticket `k` of line `l`. -/
def State.bypass (s : State) (p : Place) (l : Line) (k v : Word) : State :=
  let t := p.tube
  let s1 := (s.supersede t (HeldEntry.forLine l) .bypass k).lowerLine State.rescan t l v
  let s2 := (s1.place (releasedNotice t p.channel .bypass k v s.clock)).modTube t fun x => { x with lastReleased := k }
  (s2.clearingTest State.rescan t l v).examine t

/-! ## Supersede, release or hold (R32 to R34) -/

/-- R45: the deadline and the hold timer of an entry accepted at `now`; none where the hold limit is 0. -/
def HeldEntry.hold (e : HeldEntry) (holdLimit : Nat) : HeldEntry :=
  { e with
    held := true
    deadline := if holdLimit = 0 then none else some (e.acceptedAt + BitVec.ofNat 32 (holdLimit * 100))
    timer := startUnlessZero (holdLimit * 100) }

/-- R47: the HELD notice; `ahead` is the number of entries ahead. -/
def heldNotice (t : Tube) (e : HeldEntry) (r : HoldReason) (ahead : Nat) : Notice :=
  notice .held (some t) (some e.channel) r.code e.ticket e.value (wordOf ahead)

/-- R33: the entry a queued write becomes. -/
def newEntry (p : Place) (d : DescWords) (k v : Word) (now : Long) : HeldEntry :=
  { ticket := k, channel := p.channel, kind := d.entryKind, value := v, acceptedAt := now, deadline := none,
    state := .waiting, claim := none, timer := none, held := false }

/-- R33: the hold reason of a head its examination left in the queue: the first failing test, or CLAIM (log 30). -/
def State.holdReason (s : State) (t : Tube) (e : HeldEntry) : HoldReason :=
  match s.firstFailure t e with
  | some r => r
  | none => .claim

/-- R33: after the examination of a write that found the queue empty; where it is still there it is held. -/
def State.holdHead (s : State) (t : Tube) (k : Word) : State :=
  match (s.tube t).queue with
  | [] => s
  | e :: _ =>
    if e.ticket = k ∧ !e.held then
      (s.setHead t (e.hold (s.tube t).header.holdLimit)).place (heldNotice t e (s.holdReason t e) 0)
    else s

/-- R33, empty queue: the write becomes head and is examined at once; the CLAIM_WAIT notices of the examination follow
the HELD notice. -/
def State.holdFirst (s : State) (t : Tube) (e : HeldEntry) : State :=
  (((s.modTube t fun x => { x with queue := [e] }).examineWith State.scan t).holdHead t e.ticket).announce

/-- R33, one to seven entries: the write is appended at the tail. -/
def State.holdBehind (s : State) (t : Tube) (e : HeldEntry) : State :=
  let ahead := (s.tube t).queue.length
  (s.modTube t fun x => { x with queue := x.queue ++ [e.hold x.header.holdLimit] }).place
    (heldNotice t e .behind ahead)

/-- R32: the entry held for the channel is superseded; a new head is examined. -/
def State.supersedeChannel (s : State) (p : Place) (k : Word) : State :=
  let wasHead := decide (((s.tube p.tube).queue.head?.map (·.channel)) = some p.channel)
  let s1 := s.supersede p.tube (fun e => e.channel == p.channel) .queued k
  if wasHead then s1.examine p.tube else s1

/-- R34, R47: QUEUE_FULL carries the consumed ticket. -/
def State.refuseFull (s : State) (p : Place) (k v : Word) : State :=
  ((s.markRefused p.tube).place
      (notice .refused (some p.tube) (some p.channel) (RefuseReason.queueFull.code + 32) k v 0)).answer .errorAcknowledge

/-- R32 to R34: a queued write with ticket `k`. -/
def State.enqueue (s : State) (p : Place) (d : DescWords) (k v : Word) : State :=
  let s1 := s.supersedeChannel p k
  let e := newEntry p d k v s.clock
  let n := (s1.tube p.tube).queue.length
  if n = 0 then (s1.holdFirst p.tube e).ack
  else if n < 8 then (s1.holdBehind p.tube e).ack
  else s1.refuseFull p k v

/-- R29: the mode and the Service Monitor forbid a queued write. Where both do, the reason is ABORTED (the model's choice,
log 41). -/
def State.queuedRefusal (s : State) (t : Tube) (d : DescWords) : Option RefuseReason :=
  if !(s.tube t).mode.working then some .aborted
  else if d.line?.isSome && d.reactive && s.monitor.lapsed then some .inhibited
  else none

/-- R26: acceptance. -/
def State.accept (s : State) (acc : Access) (p : Place) (d : DescWords) : State :=
  let x := s.tube p.tube
  if s.owned p.tube d then s.refuseTube acc p .owned
  else if !inLimits d acc.value then s.refuseTube acc p .range
  else
    match bypassLine x d acc.value with
    | some l => ((s.takeTicket p.tube).bypass p l x.nextTicket acc.value).ack
    | none =>
      match s.queuedRefusal p.tube d with
      | some r => s.refuseTube acc p r
      | none => (s.takeTicket p.tube).enqueue p d x.nextTicket acc.value

/-! ## The MANUAL path (R68 to R71) -/

/-- R69: the thermal state after a MANUAL zone write (log 33 for the retry count of an entry from STABLE). -/
def Ramp.afterManual (r : Ramp) (settlePeriod : Nat) : Ramp :=
  match r.thermal with
  | .settling => { r with settleTimer := some settlePeriod, retry := 0 }
  | .stable => { r with thermal := .settling, settleTimer := some settlePeriod, retry := 0 }
  | .held => r
  | .ramping => r

/-- R69: a taken MANUAL zone write. -/
def State.manualZone (s : State) (t : Tube) (z : Zone) (v : Word) : State :=
  let h := (s.tube t).header
  ((s.modRamp t fun r => { r with zones := r.zones.set z { r.zones.get z with target := v } }).setZone t z v).modRamp t
    fun r => r.afterManual h.settlePeriod

/-- R71: a taken MANUAL boat write. -/
def State.manualBoat (s : State) (t : Tube) (v : Word) : State :=
  let h := (s.tube t).header
  (s.modBoat t fun b => { Boat.rest { b with delivered := v } h.inThreshold with stall := 0 }).deliver
    (s.binding.get t).boat.addr v false

/-- R70: no claim waits for exhaust. -/
def State.noExhaustClaim (s : State) : Bool := s.budget.claims.all fun c => c.pool != .exhaust

/-- R70: an increase that adds draw is taken only where no exhaust claim waits and the added draw fits. -/
def State.manualFits (s : State) (added : Nat) : Bool :=
  added == 0 || (s.noExhaustClaim && decide (added ≤ s.freeUnits))

/-- R70, R92: a taken MANUAL line write that adds the draw `added`, settled with the line record's weight. -/
def State.raiseLine (s : State) (t : Tube) (l : Line) (v : Word) (added : Nat) : State :=
  let old := s.lineRec t l
  let flow := settledFlow v old.flow added old.weight
  let s1 := s.setFlow t l flow (added == 0)
  if addedDraw flow.toNat old.flow.toNat old.weight < added then s1.rescan else s1

/-- R70: a MANUAL line write that has passed the range check. -/
def State.manualLine (s : State) (acc : Access) (p : Place) (d : DescWords) (l : Line) : State :=
  let old := s.lineRec p.tube l
  let added := addedDraw acc.value.toNat old.flow.toNat d.weight
  if acc.value.toNat ≤ old.flow.toNat then (s.lowerLine State.rescan p.tube l acc.value).ack
  else if s.manualFits added then (s.raiseLine p.tube l acc.value added).ack
  else s.refuseTube acc p .budget

/-- R68: the MANUAL path. -/
def State.manual (s : State) (acc : Access) (p : Place) (d : DescWords) : State :=
  if acc.class_ = .operator ∨ (s.tube p.tube).mode ≠ .aborted then s.refuseTube acc p .manualDenied
  else if !inLimits d acc.value then s.refuseTube acc p .range
  else
    match d.mark with
    | .zone z => (s.manualZone p.tube z acc.value).ack
    | .line l => s.manualLine acc p d l
    | .boat => (s.manualBoat p.tube acc.value).ack
    | .none => s.ack

/-! ## The queue's timers (R43, R45) -/

/-- R47: the EXPIRED notice. -/
def expiredNotice (t : Tube) (e : HeldEntry) (ahead : Nat) : Notice :=
  notice .expired (some t) (some e.channel) e.state.code e.ticket e.value (wordOf ahead)

/-- R45: the expiry of a held entry. -/
def State.entryExpired (s : State) (t : Tube) (e : HeldEntry) : State :=
  let ahead := entriesAhead (s.tube t).queue e.ticket
  let s1 := s.modTube t fun x => { x with queue := x.queue.filter (fun f => f.ticket != e.ticket) }
  let s2 := if e.state = EntryState.claiming then s1.withdraw State.rescan (Claim.ofHead t) else s1
  let s3 := (s2.place (expiredNotice t e ahead)).modSummary t fun f => { f with expiredAny := true }
  if ahead = 0 then s3.examine t else s3

/-- The held entry with a ticket. -/
def TubeState.entryOf (x : TubeState) (ticket : Word) : Option HeldEntry := x.queue.find? (fun e => e.ticket == ticket)

/-- ENTRY_EXPIRY (R45): the hold timer of the entry with a ticket runs out. -/
def execEntryExpiry (t : Tube) (ticket : Word) (s : State) : Host.Outcome State Fault Refusal :=
  match (s.tube t).entryOf ticket with
  | none => .next s
  | some e =>
    match e.timer with
    | none => .next s
    | some r => .next (s.finish ((s.elapse r).entryExpired t e))

/-- R43: the release-gap timer stops, and the head is examined. -/
def State.gapExpired (s : State) (t : Tube) : State :=
  (s.modTube t fun x => { x with gapTimer := none }).examine t

/-- RELEASE_GAP_EXPIRY (R43). -/
def execReleaseGapExpiry (t : Tube) (s : State) : Host.Outcome State Fault Refusal :=
  match (s.tube t).gapTimer with
  | none => .next s
  | some r => .next (s.finish ((s.elapse r).gapExpired t))

end Sys2Proof.Machine
end

