-- ==== Sys2Proof/Machine/Notice.lean ====
section
/-! DEFINITION. The Notice Writer and the Service Monitor: ring records, the producer index, due root words, and the
service expiry (R176, R183 to R185), with the completion of a DELIVER write (R169). -/

namespace Sys2Proof.Machine

/-- R183: where record `k` of the ring lies, addresses modulo 100000H. -/
def NoticeWriter.recordAddress (n : NoticeWriter) (k : Nat) : Addr :=
  unitAddress n.ringBase + BitVec.ofNat 20 (k * 8)

/-- R183: the front record leaves the buffer; with no free ring record it is discarded and counted lost. -/
def NoticeWriter.takeRecord (n : NoticeWriter) : NoticeWriter :=
  match n.buffer with
  | [] => n
  | r :: rest =>
    if n.freeRecords = 0 then { n with buffer := rest }.lose
    else { n with buffer := rest, phase := .record (n.recordAddress n.producer) r.words }

/-- The Notice Writer is idle, a ring is in use and the buffer holds a record. -/
def NoticeWriter.canTake (n : NoticeWriter) : Bool :=
  decide (n.phase = .idle) && n.ringInUse && !n.buffer.isEmpty

/-- One word of the record has been written; after the eighth the producer index word follows (R183). -/
def NoticeWriter.wordWritten (n : NoticeWriter) : NoticeWriter :=
  match n.phase with
  | .record a (_ :: w :: rest) => { n with phase := .record (a + 1) (w :: rest) }
  | .record _ _ => { n with phase := .producerIndex }
  | _ => n

def NoticeWriter.inRecord (n : NoticeWriter) : Bool :=
  match n.phase with
  | .record _ _ => true
  | _ => false

/-- NOTICE_RECORD_TAKE (R183): the front record is taken, and its words are written as the bus is granted; `n` is how
many of them are. -/
def execNoticeRecordTake (n : Nat) (s : State) : Host.Outcome State Fault Refusal :=
  let s1 := s.openBus .notice
  let s2 := if s1.notices.canTake then s1.finish (s1.modNotices NoticeWriter.takeRecord) else s1
  .next (takeWords .notice (fun x => x.notices.inRecord) (fun x _ => x.modNotices NoticeWriter.wordWritten) n s2)

/-- PRODUCER_ADVANCE (R183): the producer index write of a record completes and the producer copy follows. -/
def execProducerAdvance (s : State) : Host.Outcome State Fault Refusal :=
  let s1 := s.openBus .notice
  match s1.inFlightOf .notice, s1.notices.phase with
  | some _, .producerIndex =>
    .next (s1.finish (s1.completeBus.modNotices fun n => { n with producer := n.nextProducer, phase := .idle }))
  | _, _ => .next s1

/-- ROOT_WORD_WRITE (R176): the write of a due root word completes. -/
def execRootWordWrite (s : State) : Host.Outcome State Fault Refusal :=
  let s1 := s.openBus .notice
  match s1.inFlightOf .notice, s1.notices.phase with
  | some _, .rootWord _ => .next (s1.finish (s1.completeBus.modNotices fun n => { n with phase := .idle }))
  | _, _ => .next s1

/-- R184: a consumer-index value is taken when it lies from the consumer to the producer in ring order. -/
def NoticeWriter.takesConsumer (n : NoticeWriter) (v : Nat) : Bool :=
  decide (v < n.ringSize) && decide (ringDistance n.ringSize v n.consumer ≤ n.unconsumed)

/-- R185: the SERVICE_BACK notice, with the copies as they stand. -/
def serviceNotice (kind : NoticeKind) (n : NoticeWriter) : Notice :=
  notice kind none none 0 (wordOf n.consumer) (wordOf n.unconsumed) 0

/-- R184, R185: a taken consumer write has completed. -/
def State.consumerWritten (s : State) (v : Nat) : State :=
  let changed := v != s.notices.consumer
  let s1 := s.modNotices fun n => { n with consumer := v }
  if changed then
    let s2 := s1.modMonitor fun m => { m with count := 0, lapsed := false }
    if s.monitor.lapsed then s2.place (serviceNotice .serviceBack s2.notices) else s2
  else s1

/-- R185: the tubes whose atmosphere is PROCESS are each sent a request. -/
def State.serviceAborts (s : State) : State :=
  (Ix4.all.filter (fun t => (s.tube t).gas.atmosphere == .process)).foldl
    (fun acc t => acc.requestAbort
      ⟨t, .serviceLost, none, wordOf s.notices.consumer, wordOf s.notices.unconsumed⟩) s

/-- R185: the lapse count after an expiry in NORMAL. -/
def State.lapseCount (s : State) : Nat :=
  if s.notices.producer ≠ s.notices.consumer ∧ s.notices.consumer = s.monitor.recorded then s.monitor.count + 1 else 0

/-- R185: one service expiry. -/
def State.serviceExpired (s : State) : State :=
  let s1 := s.modMonitor fun m => { m with timer := some m.period, recorded := s.notices.consumer }
  if s.monitor.lapsed then s1
  else
    let s2 := s1.modMonitor fun m => { m with count := s.lapseCount }
    if s.lapseCount = s.monitor.limit then
      ((s2.modMonitor fun m => { m with lapsed := true }).place (serviceNotice .serviceLost s.notices)).serviceAborts
    else s2

/-- SERVICE_EXPIRY (R185). -/
def execServiceExpiry (s : State) : Host.Outcome State Fault Refusal :=
  match s.monitor.timer with
  | none => .next s
  | some r => .next (s.finish (s.elapse r).serviceExpired)

/-- DELIVER_WRITE_COMPLETE (R169): the image word takes the value in flight, and DELIVER goes on. -/
def execDeliverWriteComplete (s : State) : Host.Outcome State Fault Refusal :=
  let s1 := s.openBus .deliver
  match s1.inFlightOf .deliver with
  | some _ => .next (s1.finish s1.completeBus)
  | none => .next s1

end Sys2Proof.Machine
end

