-- ==== Sys2Proof/Machine/Startup.lean ====
section
/-! DEFINITION. The Start-up Loader: RESET, the root read, the tube loads, the scan list load, adoption, READY, and the
work of a taken RELOAD (R109, R175 to R181). -/

namespace Sys2Proof.Machine

/-- RESET (R178, R186): every block returns to its reset state. The image memory, the waiting commands and the model's
own counter are not the part's (log 26, log 27). -/
def execReset (straps : BitVec 4) (s : State) : Host.Outcome State Fault Refusal :=
  .next { State.afterReset straps s.mem s.pending with freeCount := s.freeCount }

def State.setJob (s : State) (j : LoadJob) : State := { s with loader := { s.loader with job := j } }

/-- No walk or write-back of the Channel Map has the WALK requester. -/
def State.portOffWalk (s : State) : Bool :=
  match s.port.phase with
  | .walk _ _ _ => false
  | .fillWriteBack _ _ _ => false
  | .useWriteBack _ _ => false
  | _ => true

/-! ## READY (R181) -/

def State.becomeReady (s : State) : State :=
  { s with
    loader := { s.loader with phase := .ready, job := .idle }
    scanner := { s.scanner with timer := startUnlessZero s.scanner.period,
                                staleTimer := startUnlessZero s.scanner.staleLimit }
    monitor := { s.monitor with
      timer := if s.monitor.period ≠ 0 ∧ s.monitor.limit ≠ 0 then some s.monitor.period else none } }

/-! ## Root read (R175, R178) -/

/-- The loader turns to the next of `rest` with a nonzero pointer, or to the scan list (R179). -/
def State.nextLoad (s : State) (rest : List Tube) : State :=
  match rest.find? (fun t => (s.root.tubes.get t).pointer != 0) with
  | some t => s.setJob (.tube t [])
  | none => s.setJob (.scanList [])

/-- R178, R183: the ring geometry is taken; at its first use since reset the index and lost words become due with value
0 (log 21). -/
def NoticeWriter.takeRoot (n : NoticeWriter) (f : RootFields) : NoticeWriter :=
  { n with
    ringBase := f.ringBase, sizeCode := f.sizeCode, reserve := f.reserve, ringEnable := f.ringEnable,
    staleEnable := f.staleEnable, suspended := false, ringUsed := true
    lost := if n.ringUsed then n.lost else 0
    dueProducer := n.dueProducer || !n.ringUsed
    dueConsumer := n.dueConsumer || !n.ringUsed
    dueLost := n.dueLost || !n.ringUsed }

/-- R139: the pools and the scrubber marks are taken; the scrubber timer starts at the first valid root. -/
def Budget.takeRoot (b : Budget) (f : RootFields) : Budget :=
  { b with
    capacity := f.capacity, slots := f.slots, upper := f.upper, lower := f.lower, drain := f.drain,
    enable := f.scrubberEnable
    timer := match b.timer with | none => some 1000 | some r => some r }

/-- R175: the fields of a root that passed every test are taken into the blocks that use them. -/
def State.takeRoot (s : State) (f : RootFields) : State :=
  { s with
    root := { s.root with windowBase := f.windowBase, tubes := f.tubes, guard0 := f.guard0, guard1 := f.guard1 }
    budget := s.budget.takeRoot f
    scanner := { s.scanner with period := f.scanPeriod, staleLimit := f.staleLimit }
    notices := s.notices.takeRoot f
    monitor := { s.monitor with period := f.servicePeriod, limit := f.serviceLimit }
    abort := { s.abort with claimLimit := f.claimLimit }
    loader := { s.loader with phase := .loading, reason := .none, scanPointer := f.scanPointer,
                              scanCount := f.scanCount } }

/-- R178: a root that failed a test leaves everything as it was but the reason; the status word becomes due, and the old
ring geometry resumes. -/
def State.rejectRoot (s : State) (r : NotReadyReason) : State :=
  { s with
    loader := { s.loader with reason := r, job := .idle }
    notices := { s.notices with suspended := false, dueStatus := true } }

/-- R175, R178: the 64 root words, word 0 first, are decided. -/
def State.decideRoot (s : State) (ws : List Word) : State :=
  let f := RootFields.ofWords ws
  match f.validate s.root.address with
  | .none => (s.takeRoot f).nextLoad Ix4.all
  | r => s.rejectRoot r

def State.onRootJob (s : State) : Bool :=
  s.portOffWalk && (match s.loader.job with | .root _ => true | _ => false)

def State.rootWord (s : State) (w : Word) : State :=
  match s.loader.job with
  | .root ws => if ws.length + 1 < 64 then s.setJob (.root (w :: ws)) else s.decideRoot (w :: ws).reverse
  | _ => s

/-- ROOT_READ (R178): `n` root words arrive; with the last of the 64 the root is decided. -/
def execRootRead (n : Nat) (s : State) : Host.Outcome State Fault Refusal :=
  .next (takeWords .walk State.onRootJob State.rootWord n (s.openBus .walk))

/-! ## Tube load (R13, R90, R179) -/

/-- The descriptor of channel `c` in a tube table given as its words. -/
def tableDescriptor (ws : List Word) (c : Nat) : DescWords := DescWords.ofList (ws.drop (32 + c * 8))

/-- Its check word agrees. -/
def tableCheckOk (ws : List Word) (c : Nat) : Bool :=
  checkWord (tableDescriptor ws c).toList == ws.getD (32 + c * 8 + 7) 0

/-- The descriptors of channels 0 to 63. -/
def tableDescriptors (ws : List Word) : List DescWords := (List.range 64).map (tableDescriptor ws)

/-- The channels whose kind code is ZONE, LINE or BOAT, in order. -/
def boundChannels (ws : List Word) : List Nat := (List.range 64).filter fun c => (tableDescriptor ws c).isBoundKind

/-- R13: the Binding Table entries of the descriptors of a tube's channels, in channel order; each zone, line or boat
takes its lowest-numbered channel. -/
def TubeBinding.ofDescriptors (ds : List DescWords) : TubeBinding :=
  { zones := Five.ofFn fun z =>
      match ds.find? (fun d => decide (d.mark = .zone z)) with
      | some d => ⟨true, d.addr, d.w5.toNat⟩
      | none => ⟨false, 0, 1⟩
    lines := Eight.ofFn fun l =>
      match ds.find? (fun d => decide (d.mark = .line l)) with
      | some d => ⟨true, d.addr, d.reactive, d.purge⟩
      | none => ⟨false, 0, false, false⟩
    boat :=
      match ds.find? (fun d => decide (d.mark = .boat)) with
      | some d => ⟨true, d.addr⟩
      | none => ⟨false, 0⟩
    marks := ds.map DescWords.mark }

/-- R90: a line's record at load, from the lowest-numbered channel bound to it. -/
def loadedLine (ds : List DescWords) (l : Line) : LineRec :=
  match ds.find? (fun d => decide (d.mark = .line l)) with
  | some d =>
    { bound := true, reactive := d.reactive, purge := d.purge, flow := 0, weight := d.weight,
      devLimit := d.w5.toNat, devCount := d.devCount, devCounter := 0 }
  | none => LineRec.reset

/-- Two channels bound to one actuator that do not agree, or two actuators at one address (R13). -/
def DescWords.clashes (d e : DescWords) : Bool :=
  if d.mark = e.mark then d.addr != e.addr || d.reactive != e.reactive || d.purge != e.purge else d.addr == e.addr

/-- An address lies inside the notice ring (R13, R183). -/
def State.inRing (s : State) (a : Addr) : Bool :=
  inRange (unitAddress s.notices.ringBase) (s.notices.ringSize * 8) a

/-- R13: what the address of a bound channel of the table at `pointer` may not be: in the root block, in the tube's own
table or that of a tube present before it, a bound address of such a tube, or in the notice ring. -/
def State.forbiddenAddress (s : State) (pointer : Word) (a : Addr) : Bool :=
  (rootWordAt s.root.address a).isSome || inRange (unitAddress pointer) 544 a
    || s.presentTubes.any (fun u => inRange (unitAddress (s.root.tubes.get u).pointer) 544 a
          || (s.binding.get u).plan.contains a)
    || s.inRing a

/-- The lowest-numbered channel whose binding conflicts (log 17). -/
def State.bindingConflict (s : State) (pointer : Word) (ws : List Word) : Option Nat :=
  (boundChannels ws).find? fun c =>
    s.forbiddenAddress pointer (tableDescriptor ws c).addr
      || (boundChannels ws).any (fun b => decide (b < c) && (tableDescriptor ws b).clashes (tableDescriptor ws c))

/-- R13: the tube's own table covers a bound address of a tube present before it. -/
def State.tableCovers (s : State) (pointer : Word) : Bool :=
  s.presentTubes.any fun u => (s.binding.get u).plan.any (inRange (unitAddress pointer) 544)

/-- R97, R179: the purge line of a header and its flows suit the bindings. -/
def purgeLineOk (h : Header) (b : TubeBinding) (ds : List DescWords) : Bool :=
  let l := b.lines.get h.purgeLine
  let most := match ds.find? (fun d => decide (d.mark = .line h.purgeLine)) with | some d => d.w3.toNat | none => 0
  l.bound && !l.reactive && l.purge
    && Ix8.all.all (fun k => decide (k = h.purgeLine) || !(b.lines.get k).purge)
    && decide (h.purgeFlow.toNat ≤ most) && decide (h.abortPurgeFlow.toNat ≤ most)
    && decide (h.standbyFlow.toNat ≤ most)

/-- What a load test found wrong: a fault code with the channel and the value word of its notice. `channel` is `none`
for the no-channel marker. -/
structure LoadFault where
  code : FaultCode
  channel : Option Six
  value : Word
  deriving DecidableEq, Repr

/-- The fault of a channel's descriptor, with the channel's w0. -/
def channelFault (code : FaultCode) (ws : List Word) (c : Nat) : LoadFault :=
  ⟨code, some (sixOf c), (tableDescriptor ws c).w0⟩

/-- R179: the first failure of the two header tests. -/
def headerFault (ws : List Word) : Option LoadFault :=
  if checkWord (ws.take 31) ≠ ws.getD 31 0 then some ⟨.header, none, 31⟩
  else (Header.ofWords ws).firstWrong.map fun i => ⟨.header, none, wordOf i⟩

/-- R179: the first failure of the CHECK and FORM tests. Of several channels that fail the one test the lowest-numbered is
named (the model's choice, log 17). -/
def descriptorFault (ws : List Word) : Option LoadFault :=
  match (boundChannels ws).find? (fun c => !tableCheckOk ws c) with
  | some c => some (channelFault .check ws c)
  | none => ((boundChannels ws).find? (fun c => !(tableDescriptor ws c).wellFormed)).map (channelFault .form ws)

/-- R179: the first failure of the BINDING test (log 17). -/
def State.bindingFault (s : State) (pointer : Word) (ws : List Word) : Option LoadFault :=
  match s.bindingConflict pointer ws with
  | some c => some (channelFault .binding ws c)
  | none =>
    if s.tableCovers pointer then
      some (channelFault .binding ws (Config.unattributedChannel s.freeCount).toNat)
    else none

/-- R179: the first failure of the PURGE test. -/
def purgeFault (ws : List Word) : Option LoadFault :=
  let h := Header.ofWords ws
  let ds := tableDescriptors ws
  if purgeLineOk h (TubeBinding.ofDescriptors ds) ds then none else some ⟨.purge, none, wordOf h.purgeLine.toNat⟩

/-- R179: the first failure of a tube's load, in the order of the tests. -/
def State.loadFault (s : State) (pointer : Word) (ws : List Word) : Option LoadFault :=
  match headerFault ws with
  | some f => some f
  | none =>
    match descriptorFault ws with
    | some f => some f
    | none =>
      match s.bindingFault pointer ws with
      | some f => some f
      | none => purgeFault ws

/-- R179: the tube passed every test: bindings, header and line records are taken, and the present flag is set. -/
def State.acceptTube (s : State) (t : Tube) (ws : List Word) : State :=
  let ds := tableDescriptors ws
  let s1 := s.modTube t fun x =>
    { x with header := Header.ofWords ws, gas := { x.gas with lines := Eight.ofFn (loadedLine ds) } }
  { s1 with
    binding := s1.binding.set t (TubeBinding.ofDescriptors ds)
    root := { s1.root with tubes := s1.root.tubes.set t { s1.root.tubes.get t with present := true } } }

/-- R179: the tube failed a test and stays absent, with its DESC_FAULT notice. -/
def State.rejectTube (s : State) (t : Tube) (f : LoadFault) : State :=
  { s.place (notice .descFault (some t) f.channel f.code.code 0 f.value 0) with freeCount := s.freeCount + 1 }

/-- R179: the 544 words of a tube table, word 0 first, are decided. -/
def State.decideTube (s : State) (t : Tube) (ws : List Word) : State :=
  match s.loadFault (s.root.tubes.get t).pointer ws with
  | some f => s.rejectTube t f
  | none => s.acceptTube t ws

/-- The loader is at the table of tube `t`. -/
def State.onTubeJob (t : Option Tube) (s : State) : Bool :=
  s.portOffWalk && (match s.loader.job with | .tube u _ => decide (t = some u) | _ => false)

def State.loadingTube (s : State) : Option Tube :=
  match s.loader.job with
  | .tube u _ => some u
  | _ => none

def State.tubeWord (s : State) (w : Word) : State :=
  match s.loader.job with
  | .tube t ws =>
    if ws.length + 1 < 544 then s.setJob (.tube t (w :: ws))
    else (s.decideTube t (w :: ws).reverse).nextLoad t.later
  | _ => s

/-- TUBE_LOAD (R179): `n` words of the table being read arrive; with the last of the 544 the load is decided. -/
def execTubeLoad (n : Nat) (s : State) : Host.Outcome State Fault Refusal :=
  let s1 := s.openBus .walk
  .next (takeWords .walk (State.onTubeJob s1.loadingTube) State.tubeWord n s1)

/-! ## Scan list load (R155, R179) -/

/-- The records of the scan table's words, four words an entry. -/
def scanRecords : List Word → List ScanRecord
  | a :: b :: c :: d :: rest => ScanRecord.ofWords a b c d :: scanRecords rest
  | _ => []

/-- R155: the DESC_FAULT notices of the malformed entries, from index `i` on. -/
def placeScanFaults : Nat → List ScanRecord → State → State
  | _, [], s => s
  | i, r :: rest, s =>
    placeScanFaults (i + 1) rest
      (if r.active then s else s.place (notice .descFault none none FaultCode.scan.code 0 (wordOf i) 0))

def State.loadScanList (s : State) (ws : List Word) : State :=
  let list := scanRecords ws
  (placeScanFaults 0 list (s.modScanner fun c => { c with list := list })).setJob .adoptWait

def State.onScanJob (s : State) : Bool :=
  s.portOffWalk && (match s.loader.job with | .scanList _ => true | _ => false)

def State.scanWord (s : State) (w : Word) : State :=
  match s.loader.job with
  | .scanList ws =>
    if ws.length + 1 < s.loader.scanCount * 4 then s.setJob (.scanList (w :: ws))
    else s.loadScanList (w :: ws).reverse
  | _ => s

/-- SCAN_LIST_LOAD (R155): `n` words of the scan table arrive; with the last the Scan List is filled. -/
def execScanListLoad (n : Nat) (s : State) : Host.Outcome State Fault Refusal :=
  .next (takeWords .walk State.onScanJob State.scanWord n (s.openBus .walk))

/-! ## Adoption (R89, R109, R124, R149, R180) -/

/-- An address is the delivered address of a zone, line or boat of a present tube (R8). -/
def State.isBound (s : State) (a : Addr) : Bool := s.presentTubes.any fun t => (s.binding.get t).plan.contains a

/-- R180, R181: the loader turns to the next present tube of `rest`, or the part becomes READY. -/
def State.nextAdopt (s : State) (rest : List Tube) : State :=
  match rest.find? s.present with
  | some t => s.setJob (.adopt t [])
  | none => s.becomeReady

/-- R180, R181: what ends the wait before adoption. With a tube present the Delivery Queue holds no entry at an address
outside the Binding Table; with none present there is no adoption read to wait for, and READY comes at once. -/
def State.adoptionMayStart (s : State) : Bool :=
  decide (s.loader.job = .adoptWait) && (!Ix4.all.any s.present || s.delivery.all (fun d => s.isBound d.addr))

/-- ADOPTION_START (R180). -/
def execAdoptionStart (s : State) : Host.Outcome State Fault Refusal :=
  let s1 := s.openBus .walk
  if s1.adoptionMayStart then
    .next (s1.finish ({ s1 with loader := { s1.loader with closing := false } }.nextAdopt Ix4.all))
  else .next s1

/-- The word read for an address among the adoption reads of a tube. -/
def adopted (plan : List Addr) (ws : List Word) (a : Addr) : Word :=
  match (plan.zip ws).find? (fun p => p.1 == a) with
  | some p => p.2
  | none => 0

/-- R89: the Ramp Engine at adoption. -/
def Ramp.adopt (r : Ramp) (b : TubeBinding) (value : Addr → Word) (settlePeriod : Nat) : Ramp :=
  { r with
    zones := Five.ofFn fun z =>
      let k := b.zones.get z
      if k.bound then ⟨true, value k.addr, value k.addr, k.step⟩ else r.zones.get z
    thermal := .settling, cause := .none, direction := .none, stepTimer := none, settleTimer := some settlePeriod
    retry := 0, slotHeld := false }

/-- R124: the Boat Engine at adoption. -/
def Boat.adopt (b : Boat) (k : BoatBinding) (value : Addr → Word) (inThreshold : Nat) : Boat :=
  if k.bound then
    { Boat.rest { b with delivered := value k.addr } inThreshold with bound := true, stall := 0, expiries := 0 }
  else b

/-- R109, step 1: the open reactive lines among `lines` are set to 0 as urgent writes; how many there were. They are
closed in line order 0 to 7, which R109 gives for the inert lines only (log 37). -/
def State.adoptReactive (s : State) (t : Tube) (value : Addr → Word) : List Line → State × Nat
  | [] => (s, 0)
  | l :: rest =>
    let k := (s.binding.get t).lines.get l
    if k.bound && k.reactive && value k.addr != 0 then
      let r := (s.setFlow t l 0 true).adoptReactive t value rest
      (r.1, r.2 + 1)
    else s.adoptReactive t value rest

/-- R109, step 2, for one bound inert line with the flow `v` read: kept while its draw fits, else set to 0 as an urgent
write, with every inert line after it. -/
def State.adoptInertLine (s : State) (t : Tube) (l : Line) (v : Word) : State × Nat :=
  if !s.loader.closing && decide (drawOf v.toNat (s.lineRec t l).weight ≤ s.freeUnits) then
    (s.modGas t fun g => { g with lines := g.lines.set l { g.lines.get l with flow := v, devCounter := 0 } }, 0)
  else ({ s.setFlow t l 0 true with loader := { s.loader with closing := true } }, 1)

/-- R109, step 2: the inert lines among `lines`; how many were set to 0 (log 18). -/
def State.adoptInert (s : State) (t : Tube) (value : Addr → Word) : List Line → State × Nat
  | [] => (s, 0)
  | l :: rest =>
    let k := (s.binding.get t).lines.get l
    if k.bound && !k.reactive then
      let a := s.adoptInertLine t l (value k.addr)
      let r := a.1.adoptInert t value rest
      (r.1, a.2 + r.2)
    else s.adoptInert t value rest

/-- R109, step 3, and R149: a tube with a reactive line closed starts its clearing and is placed in ABORTING. -/
def State.adoptAborting (s : State) (t : Tube) (closed : Nat) : State :=
  let s1 := s.startRun State.rescan t (abortClearing (s.tube t).header)
  let s2 := s1.modTube t fun x => { x with mode := .aborting, abortCause := .startup, abortBegin := s1.clock }
  let s3 := s2.place (abortNotice .abortBegin t none .startup (s2.tube t).lastReleased (wordOf closed) 0)
  if (s3.runClaim t).isSome then s3.startClaimTimer t else s3

/-- R109, R149: a tube with no reactive line closed is placed in ABORTED with cause NONE and atmosphere AIR. -/
def State.adoptAborted (s : State) (t : Tube) : State :=
  s.modTube t fun x => { x with mode := .aborted, abortCause := .none, gas := { x.gas with atmosphere := .air } }

/-- R90, R108, R109: before a tube's flows are taken, every line stands at flow 0 with deviation counter 0 and no run
stands, as the RELOAD and the load left them. -/
def Gas.zeroed (g : Gas) : Gas :=
  { g with
    lines := g.lines.map (fun l => { l with flow := 0, devCounter := 0 })
    run := none, sampleTimer := none, limitTimer := none }

/-- R180: the words of a tube's adoption reads have arrived, in the order of its plan. -/
def State.adoptTube (s : State) (t : Tube) (ws : List Word) : State :=
  let b := s.binding.get t
  let value := adopted b.plan ws
  let s1 := s.modTube t fun x =>
    { x with
      ramp := x.ramp.adopt b value x.header.settlePeriod
      boat := x.boat.adopt b.boat value x.header.inThreshold
      gas := x.gas.zeroed }
  let r := s1.adoptReactive t value Ix8.all
  let i := r.1.adoptInert t value Ix8.all
  let s2 := if r.2 = 0 then i.1.adoptAborted t else i.1.adoptAborting t r.2
  (s2.place (notice .loaded (some t) none (s2.tube t).mode.code (s2.tube t).lastReleased (wordOf r.2)
      (wordOf i.2))).nextAdopt t.later

/-- One adoption read that is forwarded (R170): the next word of the plan has a pending delivery and no read is in
flight. -/
def State.forwardWord (s : State) : State :=
  match s.loader.job, s.inFlightOf .walk with
  | .adopt t ws, none =>
    match (s.binding.get t).plan[ws.length]? with
    | none => s
    | some a =>
      match s.forwarded a with
      | some v => s.setJob (.adopt t (v :: ws))
      | none => s
  | _, _ => s

/-- Every forwarded read that is next, at most the 14 of a plan. -/
def State.forwardWords : Nat → State → State
  | 0, s => s
  | n + 1, s => State.forwardWords n s.forwardWord

/-- The forwarded reads that are next are taken; with the last word of the plan the tube is adopted. -/
def State.adoptAdvance (s : State) : State :=
  let s1 := State.forwardWords 14 s
  match s1.loader.job with
  | .adopt t ws => if (s1.binding.get t).plan.length ≤ ws.length then s1.adoptTube t ws.reverse else s1
  | _ => s1

def State.adoptingTube (s : State) : Option Tube :=
  match s.loader.job with
  | .adopt t _ => some t
  | _ => none

def State.onAdoptJob (t : Option Tube) (s : State) : Bool :=
  s.portOffWalk && (match s.loader.job with | .adopt u _ => decide (t = some u) | _ => false)

def State.adoptWord (s : State) (w : Word) : State :=
  match s.loader.job with
  | .adopt t ws => (s.setJob (.adopt t (w :: ws))).adoptAdvance
  | _ => s

/-- TUBE_ADOPT (R180): forwarded reads are taken at once and `n` words arrive from memory; with the last word of the
tube's plan it is adopted. -/
def execTubeAdopt (n : Nat) (s : State) : Host.Outcome State Fault Refusal :=
  let s1 := s.openBus .walk
  .next (takeWords .walk (State.onAdoptJob s1.adoptingTube) State.adoptWord n (s1.finish s1.adoptAdvance))

/-! ## RELOAD (R177) -/

/-- R177: every tube ABORTED, every line of every tube at 0, and the Claim List empty. -/
def State.reloadable (s : State) : Bool :=
  Ix4.all.all (fun t => decide ((s.tube t).mode = .aborted)
      && (s.tube t).gas.lines.toList.all (fun l => l.flow == 0))
    && s.budget.claims.isEmpty

/-- R167: a request withdrawn before its grant leaves the arbiter, and its requester's age count is 0. -/
def State.withdrawRequest (s : State) (r : Requester) : State :=
  if (s.request r).isSome && (s.inFlightOf r).isNone then
    { s with bus := { s.bus with ages := s.bus.ages.set r.ix 0 } }
  else s

/-- R165, R177: an access of `r` already granted completes, and its word is discarded. -/
def State.abandonAccess (s : State) (r : Requester) : State :=
  { s with bus := { s.bus with
      inFlight := s.bus.inFlight.map fun a => if a.requester = r then { a with discard := true } else a } }

def NoticeWriter.writesRecord (n : NoticeWriter) : Bool :=
  match n.phase with
  | .record _ _ => true
  | .producerIndex => true
  | _ => false

/-- R177, step 2: a record being written is abandoned. -/
def State.abandonRecord (s : State) : State :=
  if s.notices.writesRecord then
    ((s.withdrawRequest .notice).abandonAccess .notice).modNotices fun n => { n with phase := .idle }
  else s

/-- R165, R177: what a RELOAD abandons on the Image Bus: the loader's read, the scan read and the ring record. -/
def State.abandonReads (s : State) : State :=
  (((s.withdrawRequest .walk).abandonAccess .walk).withdrawRequest .scan).abandonAccess .scan |>.abandonRecord

/-- R177, step 2. -/
def NoticeWriter.reload (n : NoticeWriter) : NoticeWriter :=
  { n with
    producer := 0, consumer := 0, lost := 0, dueProducer := true, dueConsumer := true, dueLost := true,
    suspended := true }

/-- R185: a taken RELOAD sets the Service Monitor, with SERVICE_BACK where it was LAPSED. -/
def State.reloadMonitor (s : State) : State :=
  let s1 := s.modMonitor fun m => { m with timer := none, lapsed := false, count := 0, recorded := 0 }
  if s.monitor.lapsed then s1.place (serviceNotice .serviceBack s1.notices) else s1

/-- R67, R88, R108, R124, R154: one tube at the start of the start-up a taken RELOAD runs. -/
def TubeState.reload (x : TubeState) : TubeState :=
  { x with
    latchHeld := false
    latchValue := 0
    ramp := { Ramp.reset with slotHeld := x.ramp.slotHeld, lastTicket := x.ramp.lastTicket }
    gas := { Gas.reset with accumulator := x.gas.accumulator }
    boat := { Boat.reset with lastTicket := x.boat.lastTicket, lastChannel := x.boat.lastChannel }
    abortCause := .none
    abortBegin := 0 }

/-- R165. -/
def Scanner.reload (c : Scanner) : Scanner :=
  { c with list := [], timer := none, staleTimer := none, pass := none, overrun := false, stale := false }

/-- R4, R25: the Channel Map at a taken RELOAD, with the straps sampled. -/
def RootCopy.reload (r : RootCopy) (straps : BitVec 4) : RootCopy :=
  { r with address := rootAddress straps, tubes := r.tubes.map fun k => { k with present := false } }

/-- R25: an invalidated cache entry. -/
def CacheEntry.invalidate (e : CacheEntry) : CacheEntry := { e with valid := false, wKnown := false }

/-- R177: the work of a taken RELOAD. -/
def State.reload (s : State) (straps : BitVec 4) : State :=
  let s1 := (s.abandonReads.modNotices NoticeWriter.reload).reloadMonitor
  { s1 with
    straps := straps
    root := s1.root.reload straps
    cache := s1.cache.map (Four.map CacheEntry.invalidate)
    replacement := 0
    binding := Four.fill TubeBinding.empty
    tubes := s1.tubes.map TubeState.reload
    scanner := s1.scanner.reload
    measured := Measured.empty
    loader := { s1.loader with phase := .notReady, job := .root [], closing := false } }

end Sys2Proof.Machine
end

