-- ==== Sys2Proof/Machine/Channel.lean ====
section
/-! DEFINITION. The Channel Map and the Controller Bus Port: classification, the root block, passes, the Descriptor Cache,
walks and status write-backs, dispatch, and the meaning of every controller access (R1 to R24, R172, R173). -/

namespace Sys2Proof.Machine

/-! ## Passes (R6 to R8, R170, R173) -/

/-- R170: a read of an address with a pending delivery is answered at once, any other asks for the bus. -/
def State.passRead (s : State) (acc : Access) (a : Addr) : State :=
  match s.forwarded a with
  | some v => s.answer (.data v)
  | none => { s with port := { s.port with phase := .pass acc a false } }

/-- R172, R173: a write passed to memory asks for the bus, in NOT_READY and LOADING only once no delivery for its address
is pending. `consumer` marks a taken consumer-index write. -/
def State.passWrite (s : State) (acc : Access) (a : Addr) (consumer : Bool) : State :=
  if s.loader.phase ≠ .ready ∧ (s.forwarded a).isSome then
    { s with port := { s.port with phase := .deferred acc a consumer } }
  else { s with port := { s.port with phase := .pass acc a consumer } }

/-- R6: what the guard windows that cover an address refuse a write with. -/
def State.guardRefusal (s : State) (c : AccessClass) (a : Addr) : Option RefuseReason :=
  if (s.root.guard0.covers a && s.root.guard0.noWrite) || (s.root.guard1.covers a && s.root.guard1.noWrite) then
    some .isProtected
  else if decide (c = .operator) && ((s.root.guard0.covers a && s.root.guard0.serviceWrite)
      || (s.root.guard1.covers a && s.root.guard1.serviceWrite)) then some .privilege
  else none

/-- R8: the BOUND check, in READY. -/
def State.boundRefusal (s : State) (a : Addr) : Option RefuseReason :=
  if s.loader.phase = .ready ∧ s.isBound a then some .bound else none

/-- R6, R7: what refuses a write to a physical address outside the root block. -/
def State.writeRefusal (s : State) (c : AccessClass) (a : Addr) : Option RefuseReason :=
  match s.guardRefusal c a with
  | some r => some r
  | none => s.boundRefusal a

/-- R6, R7: an access outside the root block and the furnace window. -/
def State.passThrough (s : State) (acc : Access) : State :=
  match acc.direction with
  | .read => s.passRead acc acc.addr
  | .write =>
    match s.writeRefusal acc.class_ acc.addr with
    | some r => s.refuseBank acc r
    | none => s.passWrite acc acc.addr false

/-! ## The root block (R2, R3, R18) -/

/-- R18: the cache entry holds the channel of a tube. -/
def CacheEntry.holds (e : CacheEntry) (t : Tube) (c : Six) : Bool :=
  e.valid && decide (e.tagTube = t) && e.tagHigh == cacheTag c

/-- R18: the entry of one channel, if the cache holds one, is invalidated. -/
def invalidateChannel (cache : Four (Four CacheEntry)) (t : Tube) (c : Six) : Four (Four CacheEntry) :=
  cache.set (cacheSet c) ((cache.get (cacheSet c)).map fun e => if e.holds t c then e.invalidate else e)

/-- R18: FLUSH_DESC by the argument copy. -/
def State.flushCommand (s : State) (acc : Access) : State :=
  let n := s.root.argument.toNat
  if n < 256 then
    ({ s with cache := invalidateChannel s.cache (Ix4.ofMod (n / 64)) (sixOf n) }).ack
  else if n = 0xFFFF then ({ s with cache := s.cache.map (Four.map CacheEntry.invalidate) }).ack
  else s.refuseBank acc .badCommand

/-- R177: RELOAD is taken or refused STATE. -/
def State.reloadCommand (s : State) (acc : Access) (straps : BitVec 4) : State :=
  if s.reloadable then (s.reload straps).ack else s.refuseBank acc .state

/-- R153: TRIP_CLEAR is taken or refused STATE. -/
def State.tripCommand (s : State) (acc : Access) : State :=
  if s.tripClearable then s.clearTrip.ack else s.refuseBank acc .state

/-- R3: a SERVICE write to the control word. -/
def State.rootCommand (s : State) (acc : Access) (straps : BitVec 4) : State :=
  match acc.value.toNat with
  | 1 => s.flushCommand acc
  | 2 => s.reloadCommand acc straps
  | 3 => s.tripCommand acc
  | _ => s.refuseBank acc .badCommand

/-- R2: a write to a root word that is not the consumer index, by SERVICE class. -/
def State.serviceRootWrite (s : State) (acc : Access) (word : Six) (straps : BitVec 4) : State :=
  match word.toNat with
  | 1 => s.rootCommand acc straps
  | 2 => (s.modRoot fun r => { r with argument := acc.value }).passWrite acc acc.addr false
  | 3 => s.refuseBank acc .isProtected
  | 4 => s.refuseBank acc .isProtected
  | 6 => s.refuseBank acc .isProtected
  | _ => s.passWrite acc acc.addr false

/-- R184: a consumer-index write is decided against the copies. -/
def State.consumerWrite (s : State) (acc : Access) : State :=
  if s.notices.takesConsumer acc.value.toNat then s.passWrite acc acc.addr true else s.refuseBank acc .ringIndex

/-- R2: an access to the root block. -/
def State.rootAccess (s : State) (acc : Access) (word : Six) (straps : BitVec 4) : State :=
  match acc.direction with
  | .read => { s with port := { s.port with phase := .pass acc acc.addr false } }
  | .write =>
    if word = 5 then s.consumerWrite acc
    else if acc.class_ = .operator then s.refuseBank acc .privilege
    else s.serviceRootWrite acc word straps

/-! ## The Descriptor Cache (R15, R16) -/

/-- The entry of a channel's set in a way. -/
def State.cacheEntry (s : State) (p : Place) (way : Ix4) : CacheEntry := (s.cache.get (cacheSet p.channel)).get way

/-- R16: the way that holds the channel. -/
def State.cacheHit (s : State) (p : Place) : Option Ix4 :=
  Ix4.all.find? fun w => (s.cacheEntry p w).holds p.tube p.channel

/-- R16: the way a fill uses: the lowest-numbered clear one, else the victim. -/
def State.fillWay (s : State) (p : Place) (victim : Ix4) : Ix4 :=
  match Ix4.all.find? (fun w => !(s.cacheEntry p w).valid) with
  | some w => w
  | none => victim

def State.setCacheEntry (s : State) (p : Place) (way : Ix4) (e : CacheEntry) : State :=
  { s with cache := s.cache.set (cacheSet p.channel) ((s.cache.get (cacheSet p.channel)).set way e) }

/-! ## Steps 4 to 8 of R22 -/

/-- R11: the channel is SERVICE-protected, by its descriptor or its tube's root flag. -/
def State.serviceProtected (s : State) (p : Place) (d : DescWords) : Bool :=
  d.service || (s.root.tubes.get p.tube).service

/-- R11: writes through the channel are refused, by its descriptor or its tube's root flag. -/
def State.writeProtected (s : State) (p : Place) (d : DescWords) : Bool :=
  d.protect || (s.root.tubes.get p.tube).protect

/-- R11: a write of the ABORT value to word 0 of a TUBE channel is open to either class. -/
def abortException (acc : Access) (p : Place) (d : DescWords) : Bool :=
  decide (d.kind = some .tube) && decide (acc.direction = .write) && p.word == 0 && acc.value == 4

/-- R22, step 4. -/
def channelRefusal (acc : Access) (p : Place) (d : DescWords) : Option RefuseReason :=
  let count := match acc.direction with | .read => d.readable | .write => d.writable
  if p.word.toNat < count then none else some .noChannel

/-- R22, step 5. -/
def State.classRefusal (s : State) (acc : Access) (p : Place) (d : DescWords) : Option RefuseReason :=
  if decide (acc.class_ = .operator) && s.serviceProtected p d
      && (decide (acc.direction = .write) || decide (d.kind = some .plain)) && !abortException acc p d then
    some .privilege
  else none

/-- R10: the address a PLAIN channel translates a word to. -/
def DescWords.translate (d : DescWords) (word : Six) : Addr := d.addr + word.setWidth 20

/-- R10: what refuses a PLAIN write at its translated address. -/
def State.plainRefusal (s : State) (c : AccessClass) (a : Addr) : Option RefuseReason :=
  if (rootWordAt s.root.address a).isSome then some .isProtected else s.writeRefusal c a

/-- R22, step 6. -/
def State.protectRefusal (s : State) (acc : Access) (p : Place) (d : DescWords) : Option RefuseReason :=
  if s.writeProtected p d then some .isProtected
  else if d.kind = some .plain then s.plainRefusal acc.class_ (d.translate p.word)
  else none

/-- R22, steps 4 to 6, in order. -/
def State.stepRefusal (s : State) (acc : Access) (p : Place) (d : DescWords) : Option RefuseReason :=
  match channelRefusal acc p d with
  | some r => some r
  | none =>
    match s.classRefusal acc p d with
    | some r => some r
    | none =>
      match acc.direction with
      | .read => none
      | .write => s.protectRefusal acc p d

/-- R23: a read is dispatched by kind. -/
def State.dispatchRead (s : State) (acc : Access) (p : Place) (d : DescWords) : State :=
  match d.kind with
  | some .plain => s.passRead acc (d.translate p.word)
  | some .tube => s.tubeRead p
  | _ => s.passRead acc d.addr

/-- R23: a write is dispatched by kind. -/
def State.dispatchWrite (s : State) (acc : Access) (p : Place) (d : DescWords) : State :=
  match d.kind with
  | some .plain => s.passWrite acc (d.translate p.word) false
  | some .tube => s.tubeCommand acc p
  | _ => if d.manual then s.manual acc p d else s.accept acc p d

/-- R22, steps 4 to 8, for an access whose lookup gave the entry in `way`. -/
def State.afterLookup (s : State) (acc : Access) (p : Place) (way : Ix4) : State :=
  let e := s.cacheEntry p way
  match s.stepRefusal acc p e.words with
  | some r => s.refuseAt acc p r
  | none =>
    match acc.direction with
    | .read => s.dispatchRead acc p e.words
    | .write =>
      if e.wKnown then s.dispatchWrite acc p e.words
      else { s with port := { s.port with phase := .useWriteBack acc way } }

/-! ## Steps 1 to 3 of R22 -/

/-- R16: the lookup of an access; the counter advances, and its value before is the victim number. -/
def State.lookup (s : State) (acc : Access) (p : Place) : State :=
  let s1 := { s with replacement := s.replacement + 1 }
  match s.cacheHit p with
  | some way => s1.afterLookup acc p way
  | none => { s1 with port := { s1.port with phase := .walk acc [] (Ix4.ofMod s.replacement.toNat) } }

/-- R22: a furnace-window access. -/
def State.channelAccess (s : State) (acc : Access) (p : Place) : State :=
  match s.loader.phase with
  | .notReady => s.refuseAt acc p .notReady
  | .loading => s.refuseAt acc p .loading
  | .ready => if s.present p.tube then s.lookup acc p else s.refuseAt acc p .noTube

/-- R1: a controller address is classified: root block, furnace window, or a guarded or open pass. -/
def State.classify (s : State) (acc : Access) (straps : BitVec 4) : State :=
  match rootWordAt s.root.address acc.addr with
  | some w => s.rootAccess acc w straps
  | none =>
    match windowPlace s.root.windowBase acc.addr with
    | some p => s.channelAccess acc p
    | none => s.passThrough acc

/-- R172: an access is presented to the port; while the port holds another none is (log 6). `straps` is the level of
the ROOT_SEL pins, which a taken RELOAD samples. -/
def State.takeAccess (s : State) (acc : Access) (straps : BitVec 4) : State :=
  if s.port.phase = .idle then (s.advance).finish ((s.advance).classify acc straps) else s

/-! ## Controller accesses: the rows -/

/-- A controller write to a root word, at the root address in force. -/
def rootWriteAccess (s : State) (c : AccessClass) (word : Six) (v : Word) : Access :=
  ⟨s.root.address + word.setWidth 20, .write, c, v⟩

/-- A controller access to a place in the furnace window in force. -/
def placeAccess (s : State) (c : AccessClass) (d : Direction) (p : Place) (v : Word) : Access :=
  ⟨placeAddress s.root.windowBase p, d, c, v⟩

/-- FLUSH_DESC (R18). -/
def execFlushDesc (c : AccessClass) (s : State) : Host.Outcome State Fault Refusal :=
  .next (s.takeAccess (rootWriteAccess s c 1 1) s.straps)

/-- RELOAD (R177). -/
def execReload (c : AccessClass) (straps : BitVec 4) (s : State) : Host.Outcome State Fault Refusal :=
  .next (s.takeAccess (rootWriteAccess s c 1 2) straps)

/-- TRIP_CLEAR (R153). -/
def execTripClear (c : AccessClass) (s : State) : Host.Outcome State Fault Refusal :=
  .next (s.takeAccess (rootWriteAccess s c 1 3) s.straps)

/-- ROOT_COMMAND_UNKNOWN (R3). -/
def execRootCommandUnknown (c : AccessClass) (v : Word) (s : State) : Host.Outcome State Fault Refusal :=
  .next (s.takeAccess (rootWriteAccess s c 1 v) s.straps)

/-- ARGUMENT_WORD_WRITE (R2). -/
def execArgumentWordWrite (c : AccessClass) (v : Word) (s : State) : Host.Outcome State Fault Refusal :=
  .next (s.takeAccess (rootWriteAccess s c 2 v) s.straps)

/-- CONSUMER_INDEX_WRITE (R184). -/
def execConsumerIndexWrite (c : AccessClass) (v : Word) (s : State) : Host.Outcome State Fault Refusal :=
  .next (s.takeAccess (rootWriteAccess s c 5 v) s.straps)

/-- ROOT_WRITE (R2). -/
def execRootWrite (c : AccessClass) (word : Six) (v : Word) (s : State) : Host.Outcome State Fault Refusal :=
  .next (s.takeAccess (rootWriteAccess s c word v) s.straps)

/-- OPEN_PASS_READ (R7). -/
def execOpenPassRead (c : AccessClass) (a : Addr) (s : State) : Host.Outcome State Fault Refusal :=
  .next (s.takeAccess ⟨a, .read, c, 0⟩ s.straps)

/-- OPEN_PASS_WRITE (R7). -/
def execOpenPassWrite (c : AccessClass) (a : Addr) (v : Word) (s : State) : Host.Outcome State Fault Refusal :=
  .next (s.takeAccess ⟨a, .write, c, v⟩ s.straps)

/-- GUARDED_PASS_READ (R6). -/
def execGuardedPassRead (c : AccessClass) (a : Addr) (s : State) : Host.Outcome State Fault Refusal :=
  .next (s.takeAccess ⟨a, .read, c, 0⟩ s.straps)

/-- GUARDED_PASS_WRITE (R6). -/
def execGuardedPassWrite (c : AccessClass) (a : Addr) (v : Word) (s : State) : Host.Outcome State Fault Refusal :=
  .next (s.takeAccess ⟨a, .write, c, v⟩ s.straps)

/-- PLAIN_READ (R10). -/
def execPlainRead (c : AccessClass) (p : Place) (s : State) : Host.Outcome State Fault Refusal :=
  .next (s.takeAccess (placeAccess s c .read p 0) s.straps)

/-- PLAIN_WRITE (R10). -/
def execPlainWrite (c : AccessClass) (p : Place) (v : Word) (s : State) : Host.Outcome State Fault Refusal :=
  .next (s.takeAccess (placeAccess s c .write p v) s.straps)

/-- CHANNEL_READ (R23). -/
def execChannelRead (c : AccessClass) (p : Place) (s : State) : Host.Outcome State Fault Refusal :=
  .next (s.takeAccess (placeAccess s c .read p 0) s.straps)

/-- SHAPED_WRITE (R26). -/
def execShapedWrite (c : AccessClass) (p : Place) (v : Word) (s : State) : Host.Outcome State Fault Refusal :=
  .next (s.takeAccess (placeAccess s c .write p v) s.straps)

/-- MANUAL_WRITE (R68). -/
def execManualWrite (c : AccessClass) (p : Place) (v : Word) (s : State) : Host.Outcome State Fault Refusal :=
  .next (s.takeAccess (placeAccess s c .write p v) s.straps)

/-- TUBE_PURGE (R57). -/
def execTubePurge (c : AccessClass) (t : Tube) (ch : Six) (s : State) : Host.Outcome State Fault Refusal :=
  .next (s.takeAccess (placeAccess s c .write ⟨t, ch, 0⟩ 1) s.straps)

/-- TUBE_HOLD (R58). -/
def execTubeHold (c : AccessClass) (t : Tube) (ch : Six) (s : State) : Host.Outcome State Fault Refusal :=
  .next (s.takeAccess (placeAccess s c .write ⟨t, ch, 0⟩ 2) s.straps)

/-- TUBE_RESUME (R59, R60). -/
def execTubeResume (c : AccessClass) (t : Tube) (ch : Six) (s : State) : Host.Outcome State Fault Refusal :=
  .next (s.takeAccess (placeAccess s c .write ⟨t, ch, 0⟩ 3) s.straps)

/-- TUBE_ABORT (R61). -/
def execTubeAbort (c : AccessClass) (t : Tube) (ch : Six) (s : State) : Host.Outcome State Fault Refusal :=
  .next (s.takeAccess (placeAccess s c .write ⟨t, ch, 0⟩ 4) s.straps)

/-- TUBE_VENT (R62). -/
def execTubeVent (c : AccessClass) (t : Tube) (ch : Six) (s : State) : Host.Outcome State Fault Refusal :=
  .next (s.takeAccess (placeAccess s c .write ⟨t, ch, 0⟩ 5) s.straps)

/-- TUBE_FLUSH (R63). -/
def execTubeFlush (c : AccessClass) (t : Tube) (ch : Six) (s : State) : Host.Outcome State Fault Refusal :=
  .next (s.takeAccess (placeAccess s c .write ⟨t, ch, 0⟩ 6) s.straps)

/-- TUBE_COMMAND_UNKNOWN (R56). -/
def execTubeCommandUnknown (c : AccessClass) (t : Tube) (ch : Six) (v : Word) (s : State) :
    Host.Outcome State Fault Refusal :=
  .next (s.takeAccess (placeAccess s c .write ⟨t, ch, 0⟩ v) s.straps)

/-- SUMMARY_READ (R65). -/
def execSummaryRead (c : AccessClass) (t : Tube) (ch : Six) (s : State) : Host.Outcome State Fault Refusal :=
  .next (s.takeAccess (placeAccess s c .read ⟨t, ch, 3⟩ 0) s.straps)

/-- PURGE_LATCH_LOW_READ (R66). -/
def execPurgeLatchLowRead (c : AccessClass) (t : Tube) (ch : Six) (s : State) : Host.Outcome State Fault Refusal :=
  .next (s.takeAccess (placeAccess s c .read ⟨t, ch, 4⟩ 0) s.straps)

/-- PURGE_LATCH_HIGH_READ (R66). -/
def execPurgeLatchHighRead (c : AccessClass) (t : Tube) (ch : Six) (s : State) : Host.Outcome State Fault Refusal :=
  .next (s.takeAccess (placeAccess s c .read ⟨t, ch, 5⟩ 0) s.straps)

/-- The value word of an access: a read carries none. -/
def valueOf : Direction → Word → Word
  | .read, _ => 0
  | .write, v => v

/-- CHANNEL_ACCESS_REFUSED (R22). -/
def execChannelAccessRefused (c : AccessClass) (d : Direction) (p : Place) (v : Word) (s : State) :
    Host.Outcome State Fault Refusal :=
  .next (s.takeAccess (placeAccess s c d p (valueOf d v)) s.straps)

/-! ## Walks and write-backs (R17, R19) -/

/-- R17: a walk that fails a test. -/
def State.refuseWalk (s : State) (acc : Access) (p : Place) (r : RefuseReason) (code : FaultCode) (w0 : Word) : State :=
  (s.place (notice .descFault (some p.tube) (some p.channel) code.code 0 w0 0)).refuseAt acc p r

/-- R16, R17: the entry a walk fills. -/
def filledEntry (p : Place) (d : DescWords) (w6 : Word) : CacheEntry :=
  { valid := true, tagTube := p.tube, tagHigh := cacheTag p.channel, words := d, wKnown := w6.getLsbD 1 }

/-- R17: a walk that passes fills the cache, and writes w6 back where U is clear. -/
def State.fillWalk (s : State) (acc : Access) (p : Place) (d : DescWords) (w6 : Word) (victim : Ix4) : State :=
  let way := s.fillWay p victim
  let s1 := s.setCacheEntry p way (filledEntry p d w6)
  if w6.getLsbD 0 then s1.afterLookup acc p way
  else { s1 with port := { s1.port with phase := .fillWriteBack acc way (w6.getLsbD 1) } }

/-- R17: the outcome of a walk whose words, w0 first, are `ws`. -/
def State.decideWalk (s : State) (acc : Access) (ws : List Word) (victim : Ix4) : State :=
  let p := s.placeOf acc
  let d := DescWords.ofList ws
  if checkWord d.toList ≠ ws.getD 7 0 then s.refuseWalk acc p .descCheck .check d.w0
  else if !d.wellFormed then s.refuseWalk acc p .descCheck .form d.w0
  else if (s.binding.get p.tube).mismatch p.channel d then s.refuseWalk acc p .descMismatch .binding d.w0
  else s.fillWalk acc p d (ws.getD 6 0) victim

def State.onWalk (s : State) : Bool :=
  match s.port.phase with
  | .walk _ _ _ => true
  | _ => false

def State.walkWord (s : State) (w : Word) : State :=
  match s.port.phase with
  | .walk acc ws victim =>
    if ws.length + 1 < 8 then { s with port := { s.port with phase := .walk acc (w :: ws) victim } }
    else s.decideWalk acc (w :: ws).reverse victim
  | _ => s

/-- DESC_WALK (R17): `n` descriptor words arrive; with the eighth the walk is decided. -/
def execDescWalk (n : Nat) (s : State) : Host.Outcome State Fault Refusal :=
  .next (takeWords .walk State.onWalk State.walkWord n (s.openBus .walk))

/-- STATUS_WRITE_BACK (R19): the write of w6 completes and the held access continues. -/
def execStatusWriteBack (s : State) : Host.Outcome State Fault Refusal :=
  let s1 := s.openBus .walk
  match s1.inFlightOf .walk, s1.port.phase with
  | some _, .fillWriteBack acc way _ => .next (s1.finish (s1.completeBus.afterLookup acc (s1.placeOf acc) way))
  | some _, .useWriteBack acc way =>
    let p := s1.placeOf acc
    let e := s1.cacheEntry p way
    .next (s1.finish
      ((s1.completeBus.setCacheEntry p way { e with wKnown := true }).dispatchWrite acc p e.words))
  | _, _ => .next s1

/-! ## Pass accesses (R172, R173, R184) -/

/-- R173: no delivery for an address is pending or in flight. -/
def State.deliverySettled (s : State) (a : Addr) : Bool :=
  (s.forwarded a).isNone
    && (match s.bus.inFlight with
        | some b => !(decide (b.requester = .deliver) && b.addr == a)
        | none => true)

/-- PASS_WRITE_DEFERRED (R173): the pending delivery has been written, and the port raises its PASS request. A write held
since LOADING raises it in READY too, with no BOUND check: R8 and R173 check a write as it is presented (log 24). -/
def execPassWriteDeferred (s : State) : Host.Outcome State Fault Refusal :=
  match s.port.phase with
  | .deferred acc a consumer =>
    if s.deliverySettled a then
      .next (s.finish { s with port := { s.port with phase := .pass acc a consumer } })
    else .next s
  | _ => .next s

/-- R172, R184: a PASS access of the held access `acc` completes with `w`, the word memory holds. -/
def State.passDone (s : State) (acc : Access) (consumer : Bool) (w : Word) : State :=
  let s1 := if consumer then s.completeBus.consumerWritten acc.value.toNat else s.completeBus
  match acc.direction with
  | .read => s1.answer (.data w)
  | .write => s1.ack

/-- PASS_ACCESS_COMPLETE (R172). -/
def execPassAccessComplete (s : State) : Host.Outcome State Fault Refusal :=
  let s1 := s.openBus .pass
  match s1.inFlightOf .pass, s1.port.phase with
  | some a, .pass acc _ consumer => .next (s1.finish (s1.passDone acc consumer (s1.readWord a.addr)))
  | _, _ => .next s1

/-- CONSUMER_ADVANCE (R184): a taken consumer-index write completes (log 25). -/
def execConsumerAdvance (s : State) : Host.Outcome State Fault Refusal :=
  let s1 := s.openBus .pass
  match s1.inFlightOf .pass, s1.port.phase with
  | some a, .pass acc _ true => .next (s1.finish (s1.passDone acc true (s1.readWord a.addr)))
  | _, _ => .next s1

end Sys2Proof.Machine
end

