-- ==== Sys2Proof/Machine/Gas.lean ====
section
/-! DEFINITION. The Gas Engine's events: the sample and purge-limit expiries, sample arrivals of its lines, and the Bank
Budget's scrubber expiry (R100 to R102, R106, R137, R138). -/

namespace Sys2Proof.Machine

/-- R100: the flow a sample counts: the purge line's measured value when sampled, its delivered flow otherwise. -/
def State.purgeFlowUsed (s : State) (t : Tube) : Nat :=
  let l := (s.tube t).header.purgeLine
  let m := s.lineSample t l
  if m.sampled then m.value.toNat else (s.lineRec t l).flow.toNat

/-- R100: the accumulator and the run record after a sample of `flow` over `period` milliseconds. -/
def Gas.addSample (g : Gas) (flow period : Nat) : Gas :=
  match g.run with
  | none => g
  | some r =>
    let sum := flow * period + r.remainder
    { g with
      accumulator := g.accumulator + BitVec.ofNat 32 (sum / 60000)
      run := some { r with remainder := sum % 60000, samples := min 65535 (r.samples + 1) }
      sampleTimer := some period }

/-- R102: a run that has reached its volume target. -/
def State.completeRun (s : State) (t : Tube) (r : Run) : State :=
  let h := (s.tube t).header
  let flow := (s.lineRec t h.purgeLine).flow
  let total := (s.tube t).gas.accumulator.toNat
  let s1 := s.modGas t fun g =>
    { g with sampleTimer := none, limitTimer := none, atmosphere := .inert, run := none }
  let s2 := s1.lowerLine State.rescan t h.purgeLine (if h.standbyFlow.toNat ≤ flow.toNat then h.standbyFlow else flow)
  let s3 := s2.modSummary t fun f =>
    match r.purpose with
    | .purge => { f with purgeDone := true }
    | .clearing => { f with clearDone := true }
  let s4 := s3.place (doneNotice (match r.purpose with | .purge => 3 | .clearing => 4) t none
    (s3.tube t).lastReleased (litresWord total) (wordOf r.samples))
  if (s4.tube t).mode = .aborting then s4.endAbort t (litresWord total) else s4

/-- R100: one sample expiry, with the test for completion. -/
def State.sampleExpired (s : State) (t : Tube) : State :=
  let s1 := s.modGas t fun g => g.addSample (s.purgeFlowUsed t) (s.tube t).header.samplePeriod
  match (s1.tube t).gas.run with
  | none => s1.modGas t fun g => { g with sampleTimer := none }
  | some r => if r.target ≤ (s1.tube t).gas.accumulator.toNat then s1.completeRun t r else s1

/-- SAMPLE_EXPIRY (R100, R102). -/
def execSampleExpiry (t : Tube) (s : State) : Host.Outcome State Fault Refusal :=
  match (s.tube t).gas.sampleTimer with
  | none => .next s
  | some r => .next (s.finish ((s.elapse r).sampleExpired t))

/-- R101: one purge-limit expiry; the timer stays stopped, and the timeout goes to the Abort Controller by the mode. -/
def State.purgeLimitExpired (s : State) (t : Tube) : State :=
  let g := (s.tube t).gas
  let s1 := s.modGas t fun g => { g with limitTimer := none }
  let litres := litresWord g.accumulator.toNat
  match g.run with
  | none => s1
  | some r =>
    match (s.tube t).mode with
    | .run => s1.requestAbort ⟨t, .purgeTimeout, none, litres, wordOf r.purpose.code⟩
    | .hold => s1.requestAbort ⟨t, .purgeTimeout, none, litres, wordOf r.purpose.code⟩
    | .aborting => s1.requestTrip ⟨.purgeTimeout, some t, 0, litres⟩
    | .aborted => s1

/-- PURGE_LIMIT_EXPIRY (R101). -/
def execPurgeLimitExpiry (t : Tube) (s : State) : Host.Outcome State Fault Refusal :=
  match (s.tube t).gas.limitTimer with
  | none => .next s
  | some r => .next (s.finish ((s.elapse r).purgeLimitExpired t))

/-- R191: the first detail of FLOW_DEVIATION: the line in bits 15-13, the measured value in bits 12-0, stopping at
1FFFH. -/
def deviationDetail (l : Line) (measured : Word) : Word := wordOf (l.toNat * 0x2000 + min measured.toNat 0x1FFF)

/-- R106: an arrival of a measured flow; an open reactive line's deviation is judged. R90 gives the deviation counter
the range 0 to 15, and at 15 it stays (log 34). -/
def State.lineArrives (s : State) (a : LineArrival) : State :=
  let r := s.lineRec a.tube a.line
  if r.reactive && r.flow != 0 then
    if r.devLimit < distance a.value.toNat r.flow.toNat then
      let s1 := s.modGas a.tube fun g =>
        { g with lines := g.lines.set a.line { g.lines.get a.line with devCounter := min 15 (r.devCounter + 1) } }
      if r.devCounter + 1 = r.devCount then
        s1.requestAbort ⟨a.tube, .flowDeviation, none, deviationDetail a.line a.value, r.flow⟩
      else s1
    else
      s.modGas a.tube fun g => { g with lines := g.lines.set a.line { g.lines.get a.line with devCounter := 0 } }
  else s

/-- LINE_SAMPLE_ARRIVAL (R106, R159): the first arrival handed over is taken. -/
def execLineSampleArrival (s : State) : Host.Outcome State Fault Refusal :=
  match s.arrivals with
  | [] => .next s
  | a :: rest => .next (s.finish ({ s with arrivals := rest }.lineArrives a))

/-- R137: the load after an expiry: the open reactive draw added, stopping at 65535, then drained, stopping at 0. -/
def scrubbedLoad (load draw drain : Nat) : Nat := min 65535 (load + draw) - drain

/-- R138: the hysteresis test. -/
def throttleAfter (b : Budget) (load : Nat) : Bool :=
  if !b.throttle && decide (b.upper ≤ load) then true
  else if b.throttle && decide (load ≤ b.lower) then false
  else b.throttle

/-- R137: one scrubber expiry. -/
def State.scrubberExpired (s : State) : State :=
  let load := scrubbedLoad s.budget.load s.reactiveDraw s.budget.drain
  s.modBudget fun b => { b with load := load, throttle := throttleAfter b load, timer := some 1000 }

/-- SCRUBBER_EXPIRY (R137, R138). -/
def execScrubberExpiry (s : State) : Host.Outcome State Fault Refusal :=
  match s.budget.timer with
  | none => .next s
  | some r => .next (s.finish (s.elapse r).scrubberExpired)

end Sys2Proof.Machine
end

