-- ==== Sys2Proof/Machine/Scan.lean ====
section
/-! DEFINITION. The Feedback Scanner: passes, arrivals, limit checks and staleness (R157 to R163). -/

namespace Sys2Proof.Machine

/-- The first active record at or after an index. -/
def nextActive (list : List ScanRecord) (start : Nat) : Option Nat :=
  (List.range list.length).find? fun i =>
    decide (start ≤ i) && (match list[i]? with | some r => r.active | none => false)

/-- R162: a pass completes. -/
def Scanner.passCompleted (c : Scanner) : Scanner :=
  { c with
    passCounter := c.passCounter + 1
    pass := none
    stale := false
    staleTimer := if c.staleLimit = 0 then c.staleTimer else some c.staleLimit }

/-- R157, R158: a pass starts at the first active record; one with no active record completes at once. -/
def Scanner.startPass (c : Scanner) (clock : Long) : Scanner :=
  match nextActive c.list 0 with
  | none => c.passCompleted
  | some i => { c with pass := some { index := i, done := 0, start := clock } }

/-- R157: the SCAN_OVERRUN notice. -/
def overrunNotice (s : State) (p : Pass) : Notice :=
  notice .scanOverrun none none 0 s.scanner.passCounter (wordOf p.done) (wordStop (s.since p.start))

/-- R157: one scan expiry. -/
def State.scanExpired (s : State) : State :=
  let s1 := s.modScanner fun c => { c with timer := some c.period }
  match s.scanner.pass with
  | none => s1.modScanner fun c => { c with overrun := false }.startPass s.clock
  | some p =>
    if s.scanner.overrun then s1
    else (s1.modScanner fun c => { c with overrun := true }).place (overrunNotice s p)

/-- SCAN_EXPIRY (R157). -/
def execScanExpiry (s : State) : Host.Outcome State Fault Refusal :=
  match s.scanner.timer with
  | none => .next s
  | some r => .next (s.finish (s.elapse r).scanExpired)

/-- The tube a target lies in; none for a bank input. -/
def ScanTarget.tube : ScanTarget → Option Tube
  | .zone t _ => some t
  | .line t _ => some t
  | .boat t => some t
  | .bankInput _ => none

/-- R161: the action of a record that has reached its trip count. -/
def State.scanAction (s : State) (index : Nat) (r : ScanRecord) (v : Word) : State :=
  match r.target with
  | none => s
  | some target =>
    if r.bankTrip then s.requestTrip ⟨.scanLimit, target.tube, wordOf index, v⟩
    else
      match target.tube with
      | some t => s.requestAbort ⟨t, .scanLimit, none, wordOf index, v⟩
      | none => Ix4.all.foldl (fun acc t => acc.requestAbort ⟨t, .scanLimit, none, wordOf index, v⟩) s

/-- The value is out of a record's limits (R160). -/
def ScanRecord.outOfLimits (r : ScanRecord) (v : Word) : Bool :=
  decide (r.high.toNat < v.toNat) || decide (v.toNat < r.low.toNat)

/-- A record's trip counter set. -/
def State.setCounter (s : State) (index : Nat) (r : ScanRecord) (n : Nat) : State :=
  s.modScanner fun c => { c with list := c.list.set index { r with counter := n } }

/-- R160: the limit check of a record for the value read. -/
def State.limitCheck (s : State) (index : Nat) (r : ScanRecord) (v : Word) : State :=
  if !r.enable then s
  else if !r.outOfLimits v then s.setCounter index r 0
  else if r.counter + 1 = r.tripCount then (s.setCounter index r 0).scanAction index r v
  else s.setCounter index r (min 15 (r.counter + 1))

/-- R159, step 2: a sample arrival for a LINE target of a present tube. -/
def State.handSample (s : State) (target : Option ScanTarget) (v : Word) : State :=
  match target with
  | some (.line t l) => if s.present t then { s with arrivals := s.arrivals ++ [⟨t, l, v⟩] } else s
  | _ => s

/-- R159, step 4: the next active record, or the end of the pass. -/
def Scanner.nextRecord (c : Scanner) (p : Pass) : Scanner :=
  match nextActive c.list (p.index + 1) with
  | none => c.passCompleted
  | some i => { c with pass := some { p with index := i, done := p.done + 1 } }

/-- R159, step 1. -/
def State.sampleTarget (s : State) (target : Option ScanTarget) (v : Word) : State :=
  match target with
  | none => s
  | some k => { s with measured := s.measured.sample k v }

/-- R159: one arrival, of the record the pass waits on. -/
def State.scanArrived (s : State) (p : Pass) (v : Word) : State :=
  match s.scanner.list[p.index]? with
  | none => s.modScanner fun c => { c with pass := none }
  | some r =>
    (((s.sampleTarget r.target v).handSample r.target v).limitCheck p.index r v).modScanner fun c => c.nextRecord p

/-- The field boards' write of a measured word, taken with the read that finds it (log 22). -/
def State.boardWrite (s : State) (a : Addr) : Option Word → State
  | none => s
  | some w => s.writeWord a w

/-- SCAN_ARRIVAL (R159): the scan read in flight completes with the word memory holds. -/
def execScanArrival (board : Option Word) (s : State) : Host.Outcome State Fault Refusal :=
  let s1 := s.openBus .scan
  match s1.inFlightOf .scan, s1.scanner.pass with
  | some a, some p =>
    let s2 := s1.boardWrite a.addr board
    .next (s1.finish (s2.completeBus.scanArrived p (s2.readWord a.addr)))
  | _, _ => .next s1

/-- R163: one stale expiry. -/
def State.staleExpired (s : State) : State :=
  (s.modScanner fun c => { c with stale := true, staleTimer := none }).place
    (notice .scanStale none none 0 s.scanner.passCounter
      (match s.scanner.pass with | some p => wordOf p.index | none => 0xFFFF) (wordOf s.scanner.staleLimit))

/-- STALE_EXPIRY (R163). -/
def execStaleExpiry (s : State) : Host.Outcome State Fault Refusal :=
  match s.scanner.staleTimer with
  | none => .next s
  | some r => .next (s.finish (s.elapse r).staleExpired)

end Sys2Proof.Machine
end

