-- ==== Sys2Proof/Machine/Dispatch.lean ====
section
/-! DEFINITION. The meaning of every command: one arm for each constructor of `Instr`. -/

namespace Sys2Proof.Machine

def exec (i : Instr) (s : State) : Host.Outcome State Fault Refusal :=
  match i with
  | .reset straps => Sys2Proof.Machine.execReset straps s
  | .rootRead n => Sys2Proof.Machine.execRootRead n s
  | .tubeLoad n => Sys2Proof.Machine.execTubeLoad n s
  | .scanListLoad n => Sys2Proof.Machine.execScanListLoad n s
  | .adoptionStart => Sys2Proof.Machine.execAdoptionStart s
  | .tubeAdopt n => Sys2Proof.Machine.execTubeAdopt n s
  | .flushDesc c => Sys2Proof.Machine.execFlushDesc c s
  | .reload c straps => Sys2Proof.Machine.execReload c straps s
  | .tripClear c => Sys2Proof.Machine.execTripClear c s
  | .rootCommandUnknown c v => Sys2Proof.Machine.execRootCommandUnknown c v s
  | .argumentWordWrite c v => Sys2Proof.Machine.execArgumentWordWrite c v s
  | .consumerIndexWrite c v => Sys2Proof.Machine.execConsumerIndexWrite c v s
  | .consumerAdvance => Sys2Proof.Machine.execConsumerAdvance s
  | .rootWrite c w v => Sys2Proof.Machine.execRootWrite c w v s
  | .openPassRead c a => Sys2Proof.Machine.execOpenPassRead c a s
  | .openPassWrite c a v => Sys2Proof.Machine.execOpenPassWrite c a v s
  | .guardedPassRead c a => Sys2Proof.Machine.execGuardedPassRead c a s
  | .guardedPassWrite c a v => Sys2Proof.Machine.execGuardedPassWrite c a v s
  | .passWriteDeferred => Sys2Proof.Machine.execPassWriteDeferred s
  | .passAccessComplete => Sys2Proof.Machine.execPassAccessComplete s
  | .descWalk n => Sys2Proof.Machine.execDescWalk n s
  | .statusWriteBack => Sys2Proof.Machine.execStatusWriteBack s
  | .plainRead c p => Sys2Proof.Machine.execPlainRead c p s
  | .plainWrite c p v => Sys2Proof.Machine.execPlainWrite c p v s
  | .channelRead c p => Sys2Proof.Machine.execChannelRead c p s
  | .shapedWrite c p v => Sys2Proof.Machine.execShapedWrite c p v s
  | .manualWrite c p v => Sys2Proof.Machine.execManualWrite c p v s
  | .tubePurge c t ch => Sys2Proof.Machine.execTubePurge c t ch s
  | .tubeHold c t ch => Sys2Proof.Machine.execTubeHold c t ch s
  | .tubeResume c t ch => Sys2Proof.Machine.execTubeResume c t ch s
  | .tubeAbort c t ch => Sys2Proof.Machine.execTubeAbort c t ch s
  | .tubeVent c t ch => Sys2Proof.Machine.execTubeVent c t ch s
  | .tubeFlush c t ch => Sys2Proof.Machine.execTubeFlush c t ch s
  | .tubeCommandUnknown c t ch v => Sys2Proof.Machine.execTubeCommandUnknown c t ch v s
  | .summaryRead c t ch => Sys2Proof.Machine.execSummaryRead c t ch s
  | .purgeLatchLowRead c t ch => Sys2Proof.Machine.execPurgeLatchLowRead c t ch s
  | .purgeLatchHighRead c t ch => Sys2Proof.Machine.execPurgeLatchHighRead c t ch s
  | .entryExpiry t k => Sys2Proof.Machine.execEntryExpiry t k s
  | .releaseGapExpiry t => Sys2Proof.Machine.execReleaseGapExpiry t s
  | .stepExpiry t => Sys2Proof.Machine.execStepExpiry t s
  | .settleExpiry t => Sys2Proof.Machine.execSettleExpiry t s
  | .motionExpiry t => Sys2Proof.Machine.execMotionExpiry t s
  | .sampleExpiry t => Sys2Proof.Machine.execSampleExpiry t s
  | .purgeLimitExpiry t => Sys2Proof.Machine.execPurgeLimitExpiry t s
  | .lineSampleArrival => Sys2Proof.Machine.execLineSampleArrival s
  | .scrubberExpiry => Sys2Proof.Machine.execScrubberExpiry s
  | .abortRequest => Sys2Proof.Machine.execAbortRequest s
  | .abortClaimExpiry t => Sys2Proof.Machine.execAbortClaimExpiry t s
  | .bankTrip => Sys2Proof.Machine.execBankTrip s
  | .scanExpiry => Sys2Proof.Machine.execScanExpiry s
  | .scanArrival board => Sys2Proof.Machine.execScanArrival board s
  | .staleExpiry => Sys2Proof.Machine.execStaleExpiry s
  | .serviceExpiry => Sys2Proof.Machine.execServiceExpiry s
  | .deliverWriteComplete => Sys2Proof.Machine.execDeliverWriteComplete s
  | .noticeRecordTake n => Sys2Proof.Machine.execNoticeRecordTake n s
  | .producerAdvance => Sys2Proof.Machine.execProducerAdvance s
  | .rootWordWrite => Sys2Proof.Machine.execRootWordWrite s
  | .channelAccessRefused c d p v => Sys2Proof.Machine.execChannelAccessRefused c d p v s

end Sys2Proof.Machine
end

