-- ==== Sys2Proof/Machine/Step.lean ====
section
/-! DEFINITION. One step: the command at the front of the queue is taken; on an empty queue one millisecond passes. -/

namespace Sys2Proof.Machine

/-- The front command is run on the state with the queue's rest; on an empty queue one millisecond passes (log 5). -/
def step (s : State) : Host.Outcome State Fault Refusal :=
  match s.pending with
  | [] => .next (s.finish (s.elapse 1))
  | c :: rest => exec c { s with pending := rest }

/-- The command a table word spells is put at the front of the queue; a word that spells none changes nothing (log 23). -/
def State.withFetchWord (s : State) (nbits w : Nat) : State :=
  match decodeTableWord nbits w with
  | some c => { s with pending := c :: s.pending }
  | none => s

end Sys2Proof.Machine
end

