-- ==== Sys2Proof/Safety.lean ====
section
/-! DEFINITION. What counts as a legal state of the part: the laws the manual states of its queues, its gas lines, its
trip latch and its budget, and the terms in which claims about commands are put. -/

namespace Sys2Proof.Machine

/-! ## Terms of claims -/

/-- A command completes with a next state that satisfies `q`. -/
def Completes (i : Instr) (s : State) (q : State → Prop) : Prop := ∃ t, exec i s = .next t ∧ q t

/-- An access of requester `r` is in flight and its owner waits for it (R166). -/
def InFlight (s : State) (r : Requester) (a : BusAccess) : Prop :=
  s.bus.inFlight = some a ∧ a.requester = r ∧ a.discard = false

/-- The value placed last for an address that has not reached the image yet: pending in the Delivery Queue, or carried by
the DELIVER write in flight (R169). -/
def State.underway (s : State) (a : Addr) : Option Word :=
  match pendingFor s.delivery a with
  | some d => some d.value
  | none =>
    match s.bus.inFlight with
    | some b => if b.requester = .deliver ∧ b.addr = a then b.write else none
    | none => none

/-- R168: at most one pending write per address, and no urgent entry behind a non-urgent one. -/
def DeliveryOk (q : List Delivery) : Prop :=
  (q.map Delivery.addr).Nodup ∧ q.Pairwise (fun a b => b.urgent = true → a.urgent = true)

/-- An access to a furnace-window place reaches dispatch at once: the port is IDLE, the load phase READY, the tube
present, the cache holds the channel's descriptor `d`, steps 4 to 6 of R22 refuse nothing, and a write finds W_KNOWN
set. -/
structure Dispatches (s : State) (acc : Access) (p : Place) (d : DescWords) : Prop where
  idle : s.port.phase = .idle
  offRoot : rootWordAt s.root.address acc.addr = none
  place : windowPlace s.root.windowBase acc.addr = some p
  ready : s.loader.phase = .ready
  present : s.present p.tube = true
  cached : ∃ way, s.cacheHit p = some way ∧ (s.cacheEntry p way).words = d
    ∧ (acc.direction = .write → (s.cacheEntry p way).wKnown = true)
  allowed : s.stepRefusal acc p d = none

/-- A command of a tube reaches Tube Control: its access reaches dispatch through a TUBE channel. -/
def CommandReaches (s : State) (c : AccessClass) (t : Tube) (ch : Six) (v : Word) : Prop :=
  ∃ d, d.kind = some .tube ∧ Dispatches s (placeAccess s c .write ⟨t, ch, 0⟩ v) ⟨t, ch, 0⟩ d

/-- A read of TUBE word `n` reaches Tube Control. -/
def TubeReadReaches (s : State) (c : AccessClass) (t : Tube) (ch n : Six) : Prop :=
  ∃ d, d.kind = some .tube ∧ Dispatches s (placeAccess s c .read ⟨t, ch, n⟩ 0) ⟨t, ch, n⟩ d

/-- A shaped write reaches acceptance through the cached descriptor `d` of a ZONE, LINE or BOAT channel without MANUAL. -/
def ShapedReaches (s : State) (c : AccessClass) (p : Place) (v : Word) (d : DescWords) : Prop :=
  (d.kind = some .zone ∨ d.kind = some .line ∨ d.kind = some .boat) ∧ d.manual = false
    ∧ Dispatches s (placeAccess s c .write p v) p d

/-- R27: the write is to the purge line while the Gas Engine owns it. -/
def OwnedLine (s : State) (t : Tube) (d : DescWords) : Prop :=
  d.mark = .line (s.tube t).header.purgeLine
    ∧ ((s.binding.get t).lines.get (s.tube t).header.purgeLine).purge = true
    ∧ ((s.tube t).gas.atmosphere = .purging ∨ (s.tube t).gas.atmosphere = .clearing)

/-- R28: the value lies within the cached limits. -/
def InRange (d : DescWords) (v : Word) : Prop :=
  v.toNat ≤ d.w3.toNat ∧ ∀ z, d.mark = .zone z → d.w4.toNat ≤ v.toNat

/-- R26, step 3: the write is a bypass write of line `l`. -/
def IsBypass (s : State) (t : Tube) (d : DescWords) (v : Word) (l : Line) : Prop :=
  d.mark = .line l ∧ v.toNat ≤ ((s.tube t).gas.lines.get l).flow.toNat

/-- R26, R29: the write passes steps 1 to 4 as a queued write. -/
def IsQueued (s : State) (t : Tube) (d : DescWords) (v : Word) : Prop :=
  ¬ OwnedLine s t d ∧ InRange d v ∧ (∀ l, ¬ IsBypass s t d v l) ∧ (s.tube t).mode.working = true
    ∧ ¬ ((∃ l, d.mark = .line l) ∧ d.reactive = true ∧ s.monitor.lapsed = true)

/-- The furnace-window access a row's command makes: its class, direction, place and value. -/
def channelCommand : Instr → Option (AccessClass × Direction × Place × Word)
  | .plainRead c p => some (c, .read, p, 0)
  | .plainWrite c p v => some (c, .write, p, v)
  | .channelRead c p => some (c, .read, p, 0)
  | .shapedWrite c p v => some (c, .write, p, v)
  | .manualWrite c p v => some (c, .write, p, v)
  | .tubePurge c t ch => some (c, .write, ⟨t, ch, 0⟩, 1)
  | .tubeHold c t ch => some (c, .write, ⟨t, ch, 0⟩, 2)
  | .tubeResume c t ch => some (c, .write, ⟨t, ch, 0⟩, 3)
  | .tubeAbort c t ch => some (c, .write, ⟨t, ch, 0⟩, 4)
  | .tubeVent c t ch => some (c, .write, ⟨t, ch, 0⟩, 5)
  | .tubeFlush c t ch => some (c, .write, ⟨t, ch, 0⟩, 6)
  | .tubeCommandUnknown c t ch v => some (c, .write, ⟨t, ch, 0⟩, v)
  | .summaryRead c t ch => some (c, .read, ⟨t, ch, 3⟩, 0)
  | .purgeLatchLowRead c t ch => some (c, .read, ⟨t, ch, 4⟩, 0)
  | .purgeLatchHighRead c t ch => some (c, .read, ⟨t, ch, 5⟩, 0)
  | .channelAccessRefused c d p v => some (c, d, p, valueOf d v)
  | _ => none

/-- A row's furnace-window access meets an IDLE port and lies outside the root block. -/
def Presents (s : State) (acc : Access) : Prop := s.port.phase = .idle ∧ rootWordAt s.root.address acc.addr = none

/-- A root word the part writes is due, or the Notice Writer has turned to it (R176). -/
def RootWordDue (n : NoticeWriter) (item : RootItem) : Prop :=
  n.phase = .rootWord item
    ∨ (match item with
      | .status => n.dueStatus | .lost => n.dueLost | .consumer => n.dueConsumer | .producer => n.dueProducer) = true

/-- What the port does with a write it passes to memory at `a`: it asks for the bus, or in NOT_READY and LOADING first
waits for a delivery pending at `a` once the bus has decided (R172, R173). -/
def State.passPhase (s : State) (acc : Access) (a : Addr) (consumer : Bool) : PortPhase :=
  if s.loader.phase ≠ .ready ∧ (s.advance.forwarded a).isSome then .deferred acc a consumer else .pass acc a consumer

/-- What the port does with a read of `a`: the value pending for it once the bus has decided is answered at once, any
other read asks for the bus (R170, R172). -/
def State.readPort (s : State) (acc : Access) (a : Addr) : Port :=
  match s.advance.forwarded a with
  | some v => ⟨.idle, .data v⟩
  | none => ⟨.pass acc a false, s.port.answer⟩

/-- A notice placed first in an event stands in the Notice Buffer, stamped, where the buffer had room. -/
def Reports (s t : State) (n : Notice) : Prop :=
  s.notices.buffer.length < 8 → { n with clock := t.clock } ∈ t.notices.buffer

/-- An access ends in an error acknowledge with its REFUSED notice (R24). -/
def Refuses (s t : State) (n : Notice) : Prop := t.port = ⟨.idle, .errorAcknowledge⟩ ∧ Reports s t n

/-- What a refusal by acceptance, Tube Control or the MANUAL path does: the error acknowledge, the notice, REFUSED_ANY, and
nothing else of the tube (R26, R56, R68). -/
def RefusesTube (s t : State) (acc : Access) (p : Place) (r : RefuseReason) : Prop :=
  Refuses s t (refusedNotice (some p.tube) (some p.channel) acc r)
    ∧ t.tube p.tube = { s.tube p.tube with summary := { (s.tube p.tube).summary with refusedAny := true } }

/-- R192: what a read of word `n` of a TUBE channel returns, by the fields and codes of the eight words. -/
def tubeWordOf (x : TubeState) (n : Nat) : Word :=
  let volume := if x.latchHeld = true then x.latchValue else x.gas.accumulator
  let bit (f : Bool) (i : Nat) : Nat := if f = true then 2 ^ i else 0
  let f := x.summary
  match n with
  | 0 => BitVec.ofNat 16
      ((match x.mode with | .run => 0 | .hold => 1 | .aborting => 2 | .aborted => 3)
      + 16 * (match x.gas.atmosphere with | .air => 0 | .purging => 1 | .inert => 2 | .process => 3 | .clearing => 4))
  | 1 => BitVec.ofNat 16
      ((match x.boat.state with
        | .outPos => 0 | .partialPos => 1 | .inPos => 2 | .moving => 3 | .paused => 4 | .stalled => 5)
      + 16 * (match x.boat.direction with | .none => 0 | .inward => 1 | .outward => 2)
      + 256 * (match x.ramp.thermal with | .ramping => 0 | .held => 1 | .settling => 2 | .stable => 3)
      + 1024 * (match x.ramp.cause with | .none => 0 | .lag => 1 | .hold => 2 | .abort => 3)
      + 4096 * (match x.ramp.direction with | .none => 0 | .up => 1 | .down => 2))
  | 2 => BitVec.ofNat 16 (x.queue.length + 256 * (match x.queue.head?.map HeldEntry.state with
      | none => 0 | some .waiting => 1 | some .claiming => 2))
  | 3 => BitVec.ofNat 16 (bit f.rampDone 0 + bit f.boatArrived 1 + bit f.purgeDone 2 + bit f.clearDone 3
      + bit f.abortEnd 4 + bit f.expiredAny 5 + bit f.refusedAny 6)
  | 4 => volume.setWidth 16
  | 5 => (volume >>> 16).setWidth 16
  | 6 => x.lastIssued
  | _ => x.lastReleased

/-! ## Frames -/

/-- What a release or a grant that an event causes cannot change of a tube: its mode, tickets issued, read latch, abort
record, header, bindings, delivered temperatures and position, and its event summary but for BOAT_ARRIVED. -/
structure TubeKept (x y : TubeState) : Prop where
  mode : y.mode = x.mode
  nextTicket : y.nextTicket = x.nextTicket
  lastIssued : y.lastIssued = x.lastIssued
  latchHeld : y.latchHeld = x.latchHeld
  latchValue : y.latchValue = x.latchValue
  abortCause : y.abortCause = x.abortCause
  abortBegin : y.abortBegin = x.abortBegin
  header : y.header = x.header
  boatBound : y.boat.bound = x.boat.bound
  boatDelivered : y.boat.delivered = x.boat.delivered
  zoneBound : ∀ z, (y.ramp.zones.get z).bound = (x.ramp.zones.get z).bound
  zoneDelivered : ∀ z, (y.ramp.zones.get z).delivered = (x.ramp.zones.get z).delivered
  lines : ∀ l, { y.gas.lines.get l with
      flow := (x.gas.lines.get l).flow, devCounter := (x.gas.lines.get l).devCounter } = x.gas.lines.get l
  summary : y.summary = { x.summary with boatArrived := y.summary.boatArrived }

/-- What stays outside one tube (or outside none): the image, the root copy, the cache, the bindings, the scanner and its
table, the monitor, the loader, the trip latch, the budget's pools, the ring, and the other tubes as `TubeKept` says. -/
structure Elsewhere (k : Option Tube) (s t : State) : Prop where
  pending : t.pending = s.pending
  mem : t.mem = s.mem
  straps : t.straps = s.straps
  clock : t.clock = s.clock
  root : t.root = s.root
  cache : t.cache = s.cache
  binding : t.binding = s.binding
  scanner : t.scanner = s.scanner
  measured : t.measured = s.measured
  arrivals : t.arrivals = s.arrivals
  monitor : t.monitor = s.monitor
  loader : t.loader = s.loader
  latch : t.abort.latch = s.abort.latch ∧ t.abort.tripCause = s.abort.tripCause ∧ t.abort.tripTime = s.abort.tripTime
  pools : { t.budget with claims := s.budget.claims, joinCounter := s.budget.joinCounter } = s.budget
  ring : t.notices.producer = s.notices.producer ∧ t.notices.consumer = s.notices.consumer
  others : ∀ j, some j ≠ k → TubeKept (s.tube j) (t.tube j)

/-! ## Adoption (R89, R109, R124, R149, R180) -/

/-- Line `l` of tube `k` is bound and inert. -/
def State.inertLine (s : State) (k : Tube) (l : Line) : Bool :=
  ((s.binding.get k).lines.get l).bound && !((s.binding.get k).lines.get l).reactive

/-- Line `l` of tube `k` is bound and reactive, and `value` gives it a flow. -/
def State.openReactive (s : State) (k : Tube) (value : Addr → Word) (l : Line) : Bool :=
  ((s.binding.get k).lines.get l).bound && ((s.binding.get k).lines.get l).reactive
    && value (s.lineAddr k l) != 0

/-- The draw of the flow `value` gives line `l` (R91). -/
def State.drawRead (s : State) (k : Tube) (value : Addr → Word) (l : Line) : Nat :=
  ((value (s.lineAddr k l)).toNat + 99) / 100 * ((s.tube k).gas.lines.get l).weight

/-- The draw of every present tube but `k`. -/
def State.drawOfOthers (s : State) (k : Tube) : Nat :=
  ((s.presentTubes.filter fun j => decide (j ≠ k)).map fun j => (s.tube j).gas.draw).sum

/-- R109, step 2: the inert line `m` fits: its draw is within the capacity less the draw of the other tubes and of the inert
lines before it. -/
def State.lineFits (s : State) (k : Tube) (value : Addr → Word) (m : Line) : Bool :=
  decide (s.drawRead k value m ≤ s.budget.capacity - (s.drawOfOthers k
    + ((Ix8.all.filter fun j => s.inertLine k j && decide (j.toNat < m.toNat)).map (s.drawRead k value)).sum))

/-- R109, step 2: the inert line `l` is kept: no line was closed before it in the bank, and it fits, as does every inert line
of its tube before it. -/
def State.keptLine (s : State) (k : Tube) (value : Addr → Word) (l : Line) : Bool :=
  s.inertLine k l && !s.loader.closing
    && Ix8.all.all fun m => !(s.inertLine k m && decide (m.toNat ≤ l.toNat)) || s.lineFits k value m

/-- The line record adoption leaves: a kept line's flow as read, every other line at 0. -/
def State.adoptedLine (s : State) (k : Tube) (value : Addr → Word) (l : Line) : LineRec :=
  { (s.tube k).gas.lines.get l with
    flow := if s.keptLine k value l then value (s.lineAddr k l) else 0, devCounter := 0 }

/-- What the purge line needs for the abort purge flow beyond its kept draw. -/
def State.clearingNeed (s : State) (k : Tube) (value : Addr → Word) : Nat :=
  let line := s.adoptedLine k value (s.tube k).header.purgeLine
  ((s.tube k).header.abortPurgeFlow.toNat + 99) / 100 * line.weight - (line.flow.toNat + 99) / 100 * line.weight

/-- The units free once the tube's inert lines are taken. -/
def State.freeAfterLines (s : State) (k : Tube) (value : Addr → Word) : Nat :=
  s.budget.capacity - (s.drawOfOthers k + ((Ix8.all.filter (s.keptLine k value)).map (s.drawRead k value)).sum)

/-- The ABORT_BEGIN notice of a tube adopted with reactive lines open: their number is its first detail (R149). -/
def State.startupNotice (s : State) (k : Tube) (value : Addr → Word) : Notice :=
  notice .abortBegin (some k) none AbortCause.startup.code (s.tube k).lastReleased
    (wordOf (Ix8.all.filter (s.openReactive k value)).length) 0

/-- The LOADED notice: the adopted mode, the reactive lines closed and the inert lines closed (R180; log 18 on which inert
lines count). -/
def State.loadedNotice (s : State) (k : Tube) (value : Addr → Word) (mode : Mode) : Notice :=
  notice .loaded (some k) none mode.code (s.tube k).lastReleased
    (wordOf (Ix8.all.filter (s.openReactive k value)).length)
    (wordOf (Ix8.all.filter fun l => s.inertLine k l && !s.keptLine k value l).length)

/-- Tube `k`, ABORTED in `s`, has been adopted in `t` with the words `value` gives its delivered addresses. -/
structure Adopted (s t : State) (k : Tube) (value : Addr → Word) : Prop where
  kept : t.mem = s.mem ∧ t.root = s.root ∧ t.binding = s.binding ∧ t.port = s.port ∧ t.clock = s.clock
    ∧ t.abort = s.abort ∧ t.cache = s.cache ∧ t.measured = s.measured
  others : ∀ j, j ≠ k → TubeKept (s.tube j) (t.tube j)
  /-- What adoption leaves of the tube itself. -/
  same : (t.tube k).nextTicket = (s.tube k).nextTicket ∧ (t.tube k).lastIssued = (s.tube k).lastIssued
    ∧ (t.tube k).lastReleased = (s.tube k).lastReleased ∧ (t.tube k).gapTimer = (s.tube k).gapTimer
    ∧ (t.tube k).header = (s.tube k).header ∧ (t.tube k).summary = (s.tube k).summary
    ∧ (t.tube k).latchHeld = (s.tube k).latchHeld ∧ (t.tube k).latchValue = (s.tube k).latchValue
  /-- R89. -/
  zones : ∀ z, (t.tube k).ramp.zones.get z =
    if ((s.binding.get k).zones.get z).bound = true then
      ⟨true, value (s.zoneAddr k z), value (s.zoneAddr k z), ((s.binding.get k).zones.get z).step⟩
    else (s.tube k).ramp.zones.get z
  /-- R89. -/
  ramp : (t.tube k).ramp = { (s.tube k).ramp with
    zones := (t.tube k).ramp.zones, thermal := .settling, cause := .none, direction := .none, stepTimer := none
    settleTimer := some (s.tube k).header.settlePeriod, retry := 0, slotHeld := false }
  /-- R124. -/
  boat : (t.tube k).boat =
    if (s.binding.get k).boat.bound = true then
      { (s.tube k).boat with
        bound := true, target := value (s.binding.get k).boat.addr, delivered := value (s.binding.get k).boat.addr
        state := if value (s.binding.get k).boat.addr = 0 then .outPos
          else if (value (s.binding.get k).boat.addr).toNat < (s.tube k).header.inThreshold then .partialPos else .inPos
        direction := .none, motionTimer := none, stall := 0, expiries := 0 }
    else (s.tube k).boat
  /-- R109, steps 1 and 2: the flows, but for the purge line of a tube that starts a clearing. -/
  lines : ∀ l, (∀ m, s.openReactive k value m = false) ∨ l ≠ (s.tube k).header.purgeLine →
    (t.tube k).gas.lines.get l = s.adoptedLine k value l
  /-- R109, R168: the closed lines are placed for delivery, and with no waiting claim nothing else is but the clearing's flow. -/
  writes : s.budget.claims = [] → DeliveryOk s.delivery →
    (∀ l, s.openReactive k value l = true ∨ s.inertLine k l = true ∧ s.keptLine k value l = false →
      (∀ m, s.openReactive k value m = false) ∨ l ≠ (s.tube k).header.purgeLine →
      t.underway (s.lineAddr k l) = some 0)
    ∧ ∀ a, (∀ l, s.openReactive k value l = true ∨ s.inertLine k l = true ∧ s.keptLine k value l = false →
        a ≠ s.lineAddr k l) →
      (∀ m, s.openReactive k value m = false) ∨ a ≠ s.lineAddr k (s.tube k).header.purgeLine →
      t.underway a = s.underway a
  /-- R109, step 3, R149: no reactive line was open. -/
  rest : (∀ l, s.openReactive k value l = false) →
    (t.tube k).mode = .aborted ∧ (t.tube k).abortCause = .none ∧ (t.tube k).abortBegin = (s.tube k).abortBegin
    ∧ (t.tube k).gas.atmosphere = .air ∧ (t.tube k).gas.run = none ∧ (t.tube k).gas.sampleTimer = none
    ∧ (t.tube k).gas.limitTimer = none ∧ (t.tube k).gas.accumulator = (s.tube k).gas.accumulator
    ∧ t.budget = s.budget ∧ Reports s t (s.loadedNotice k value .aborted)
  /-- R98, R109, step 3, R149: a reactive line was open. -/
  clears : (∃ l, s.openReactive k value l = true) →
    (t.tube k).mode = .aborting ∧ (t.tube k).abortCause = .startup ∧ (t.tube k).abortBegin = s.clock
    ∧ (t.tube k).gas.atmosphere = .clearing ∧ (t.tube k).gas.accumulator = 0
    ∧ (t.tube k).gas.limitTimer = some ((s.tube k).header.purgeLimit * 1000)
    ∧ ∃ phase, (t.tube k).gas.run = some ⟨.clearing, (s.tube k).header.abortPurgeFlow, .abort,
        (s.tube k).header.clearingVolume * 1000, phase, 0, 0⟩
  /-- R149, R180: its two notices, in their order, where the buffer has room. -/
  notices : (∃ l, s.openReactive k value l = true) → s.budget.claims = [] → s.notices.buffer.length < 6 →
    ∃ before after, t.notices.buffer = before
      ++ [{ s.startupNotice k value with clock := s.clock }, { s.loadedNotice k value .aborting with clock := s.clock }]
      ++ after
  /-- R98, R99: the clearing's flow fits. -/
  flows : (∃ l, s.openReactive k value l = true) → s.budget.claims = [] →
    s.clearingNeed k value ≤ s.freeAfterLines k value →
    t.budget.claims = [] ∧ ((t.tube k).gas.run.map (·.phase)) = some .flowing
    ∧ (t.tube k).gas.sampleTimer = some (s.tube k).header.samplePeriod
    ∧ (t.tube k).gas.lines.get (s.tube k).header.purgeLine
      = { s.adoptedLine k value (s.tube k).header.purgeLine with flow := (s.tube k).header.abortPurgeFlow }
    ∧ (DeliveryOk s.delivery →
        t.underway (s.lineAddr k (s.tube k).header.purgeLine) = some (s.tube k).header.abortPurgeFlow)
  /-- R98, R135, R146: it does not fit, and its claim waits. -/
  waits : (∃ l, s.openReactive k value l = true) → s.budget.claims = [] →
    s.freeAfterLines k value < s.clearingNeed k value →
    t.budget.claims = [⟨k, .exhaust, s.clearingNeed k value, .abort, s.budget.joinCounter, .abortPurge, false⟩]
    ∧ ((t.tube k).gas.run.map (·.phase)) = some .claiming ∧ (t.tube k).gas.sampleTimer = none
    ∧ (t.tube k).gas.lines.get (s.tube k).header.purgeLine = s.adoptedLine k value (s.tube k).header.purgeLine
    ∧ (t.tube k).abortTimer = if s.abort.claimLimit = 0 then none else some (s.abort.claimLimit * 100)
  /-- R109, R180: the next present tube follows. -/
  next : ∀ j : Tube, k.toNat < j.toNat → s.present j = true →
    (∀ i : Tube, k.toNat < i.toNat → i.toNat < j.toNat → s.present i = false) →
    t.loader = { s.loader with
      job := .adopt j [], closing := s.loader.closing || Ix8.all.any fun l => s.inertLine k l && !s.keptLine k value l }
    ∧ t.scanner = s.scanner ∧ t.monitor = s.monitor
  /-- R176, R180, R181: it was the last, and the part is READY. -/
  last : (∀ j : Tube, k.toNat < j.toNat → s.present j = false) →
    t.loader.phase = .ready ∧ t.loader.job = .idle ∧ (s.loader.phase ≠ .ready → RootWordDue t.notices .status)
    ∧ t.scanner = { s.scanner with
        timer := startUnlessZero s.scanner.period, staleTimer := startUnlessZero s.scanner.staleLimit }
    ∧ t.monitor = { s.monitor with
        timer := if s.monitor.period ≠ 0 ∧ s.monitor.limit ≠ 0 then some s.monitor.period else none }

/-! ## Laws of the state -/

/-- R35: a Held Write Queue holds at most eight entries and at most one per channel, and only its head may be
CLAIMING. -/
def QueueOk (q : List HeldEntry) : Prop :=
  q.length ≤ 8 ∧ (q.map HeldEntry.channel).Nodup ∧ ∀ e ∈ q.tail, e.state = .waiting

/-- R94: a tube's reactive gas, with what it rests on. -/
structure GasSafe (x : TubeState) : Prop where
  /-- R35: the class of a held LINE entry is its line's. -/
  classes : ∀ e ∈ x.queue, ∀ l r p w, e.kind = .line l r p w → (x.gas.lines.get l).reactive = r
  /-- R97: the purge line is not reactive. -/
  purgeInert : (x.gas.lines.get x.header.purgeLine).reactive = false
  /-- R94: a reactive line flows only in PROCESS. -/
  closed : ∀ l, (x.gas.lines.get l).reactive = true → (x.gas.lines.get l).flow ≠ 0 → x.gas.atmosphere = .process
  /-- R96: PROCESS needs mode RUN or HOLD. -/
  working : x.gas.atmosphere = .process → x.mode.working = true
  /-- R96, R98: a purge run stands only in PURGING and CLEARING. -/
  run : x.gas.run ≠ none → x.gas.atmosphere = .purging ∨ x.gas.atmosphere = .clearing
  /-- R29, R46: writes are held only in RUN and HOLD. -/
  idle : x.mode.working = false → x.queue = []
  /-- R52: a boat that is OUT stands at position 0. -/
  boatOut : x.boat.state = .outPos → x.boat.delivered = 0
  /-- R112: the motion timer runs only while the boat is MOVING. -/
  boatTimer : x.boat.motionTimer ≠ none → x.boat.state = .moving

/-- R94 for the part: every tube's reactive gas is safe, and what acceptance and adoption go by agrees with the line
records: the Binding Table's classes (R13, R90), the cached descriptors (R14, R16), and outside READY no working tube and
no cached descriptor (R25, R177). -/
structure ReactiveLaw (s : State) : Prop where
  tubes : ∀ k, GasSafe (s.tube k)
  classes : ∀ k l, (s.lineRec k l).reactive = ((s.binding.get k).lines.get l).reactive
  cache : ∀ p way, (s.cacheEntry p way).holds p.tube p.channel = true →
    (s.cacheEntry p way).words.wellFormed = true
      ∧ (s.binding.get p.tube).mismatch p.channel (s.cacheEntry p way).words = false
  loading : s.loader.phase ≠ .ready →
    (∀ k, (s.tube k).mode.working = false) ∧ ∀ set way, ((s.cache.get set).get way).valid = false
  jobs : s.loader.job ≠ .idle → s.loader.phase ≠ .ready
  walks : s.portOffWalk = false → s.loader.phase = .ready
  writeBacks : ∀ acc way, (∃ w, s.port.phase = .fillWriteBack acc way w) ∨ s.port.phase = .useWriteBack acc way →
    (s.cacheEntry (s.placeOf acc) way).holds (s.placeOf acc).tube (s.placeOf acc).channel = true

/-- The access a port holds for a walk or a status write-back. -/
def PortPhase.walking : PortPhase → Option Access
  | .walk acc _ _ => some acc
  | .fillWriteBack acc _ _ => some acc
  | .useWriteBack acc _ => some acc
  | _ => none

/-- R150: while the trip latch is set no tube works, and only a present tube ever does; an access that waits for its
descriptor is one to a present tube (R22, step 2). -/
structure TripLaw (s : State) : Prop where
  absent : ∀ k, s.present k = false → (s.tube k).mode.working = false
  latched : s.abort.latch = true → ∀ k, (s.tube k).mode.working = false
  served : ∀ acc, s.port.phase.walking = some acc → s.present (s.placeOf acc).tube = true

/-- R98, R99: the waiting claim `c` of a tube's purge run. Its units make the run flow fit, and its purge line, which the Gas
Engine owns (R27), keeps its flow meanwhile. -/
structure RunWaits (x : TubeState) (c : Claim) : Prop where
  pool : c.pool = .exhaust
  owned : x.gas.atmosphere = .purging ∨ x.gas.atmosphere = .clearing
  purge : (x.gas.lines.get x.header.purgeLine).purge = true
  run : ∃ r, x.gas.run = some r ∧ r.phase = .claiming
    ∧ drawOf r.flow.toNat (x.gas.lines.get x.header.purgeLine).weight
        ≤ (x.gas.lines.get x.header.purgeLine).draw + c.amount

/-- The tubes a load has not come to adopt yet (R180). -/
def LoadJob.unadopted : LoadJob → Tube → Prop
  | .idle, _ => False
  | .adopt t _, k => t.toNat ≤ k.toNat
  | _, _ => True

/-- R125, R126, R128: the draw within the capacity, the slot holders within the slot count, at most one claim of each tube's
queue and one of its purge run, with what these rest on. -/
structure BudgetLaw (s : State) : Prop where
  draw : s.bankDraw ≤ s.budget.capacity
  slots : s.slotHolders ≤ s.budget.slots
  apart : s.budget.claims.Pairwise fun c d => c.tube = d.tube → c.origin.isEntry ≠ d.origin.isEntry
  /-- R41: an entry's claim stands only while its head is CLAIMING. -/
  heads : ∀ c ∈ s.budget.claims, c.origin.isEntry = true →
    ∃ e rest, (s.tube c.tube).queue = e :: rest ∧ e.state = .claiming
  runs : ∀ c ∈ s.budget.claims, c.origin.isEntry = false → RunWaits (s.tube c.tube) c
  /-- R99: the sample timer runs only while the run flow does. -/
  sampling : ∀ k, (s.tube k).gas.sampleTimer ≠ none → ∃ r, (s.tube k).gas.run = some r ∧ r.phase = .flowing
  /-- R97: the purge line of a loaded tube is marked. -/
  marked : ∀ k, s.present k = true ∨ (s.tube k).mode.working = true →
    ((s.tube k).gas.lines.get (s.tube k).header.purgeLine).purge = true
  /-- R35, R13: the marks of held entries and bindings are their lines'. -/
  entries : ∀ k, ∀ e ∈ (s.tube k).queue, ∀ l r p w, e.kind = .line l r p w → ((s.tube k).gas.lines.get l).purge = p
  bindings : ∀ k l, (s.lineRec k l).purge = ((s.binding.get k).lines.get l).purge
  /-- R145: an ABORTED tube has no run. -/
  aborted : ∀ k, (s.tube k).mode = .aborted → (s.tube k).gas.run = none
  /-- R87: only a working tube holds a slot. -/
  idle : ∀ k, (s.tube k).mode.working = false → (s.tube k).ramp.slotHeld = false
  /-- R90: a tube not adopted yet has no run and no flow. -/
  loading : s.loader.phase ≠ .ready → ∀ k, s.loader.job.unadopted k →
    (s.tube k).gas.run = none ∧ ∀ l, ((s.tube k).gas.lines.get l).flow = 0
  adopting : ∀ t words, s.loader.job = .adopt t words → s.present t = true

end Sys2Proof.Machine
end

