-- ==== Sys2Proof/Certificates/Slice0/Obligations.lean ====
section
/-! DEFINITION. The statements for the provers. Each says what a command of the DG-440 does and what it leaves as it was,
or a law every step keeps. `Completes i s q`: command `i` on `s` answers a next state that satisfies `q`. -/

open Sys2Proof Sys2Proof.Machine

/-! ## Steps and reset -/

/-- A step takes the command at the front of the queue and runs it on the state with the queue's rest. -/
def Obligations.StepTakesFrontCommand : Prop :=
  ∀ (c : Instr) (rest : List Instr) (s : State),
    step { s with pending := c :: rest } = exec c { s with pending := rest }

/-- R186: when `n` milliseconds pass, the bank clock advances by `n`, wrapping, every stopped timer stays stopped, every
running one (gap, hold, abort claim, step, settle, sample, limit, motion, scrubber, scan, stale, service) has `n` less to
run, stopping at 0, and nothing else changes. On an empty queue one millisecond passes (log 5): what follows it is a
decision of the Image Bus alone. -/
def Obligations.IdleStepLetsOneMillisecondPass : Prop :=
  let less (n : Nat) (timer : Timer) : Timer := match timer with | none => none | some r => some (r - n)
  let passed (n : Nat) (x : TubeState) : TubeState := { x with
    queue := x.queue.map fun e => { e with timer := less n e.timer }
    gapTimer := less n x.gapTimer
    abortTimer := less n x.abortTimer
    ramp := { x.ramp with stepTimer := less n x.ramp.stepTimer, settleTimer := less n x.ramp.settleTimer }
    gas := { x.gas with sampleTimer := less n x.gas.sampleTimer, limitTimer := less n x.gas.limitTimer }
    boat := { x.boat with motionTimer := less n x.boat.motionTimer } }
  (∀ (n : Nat) (s : State),
    (∀ k, (s.elapse n).tube k = passed n (s.tube k))
    ∧ s.elapse n = { s with
        clock := s.clock + BitVec.ofNat 32 n
        tubes := (s.elapse n).tubes
        budget := { s.budget with timer := less n s.budget.timer }
        scanner := { s.scanner with timer := less n s.scanner.timer, staleTimer := less n s.scanner.staleTimer }
        monitor := { s.monitor with timer := less n s.monitor.timer } })
  ∧ ∀ s : State, s.pending = [] →
    ∃ t, step s = .next t ∧ t.clock = s.clock + 1 ∧ Elsewhere none (s.elapse 1) t
      ∧ t = { s.elapse 1 with bus := t.bus, delivery := t.delivery, notices := t.notices }
      ∧ t = (s.elapse 1).takeDue.arbitrate
      ∧ t.budget.timer = less 1 s.budget.timer ∧ t.scanner.timer = less 1 s.scanner.timer
      ∧ t.scanner.staleTimer = less 1 s.scanner.staleTimer ∧ t.monitor.timer = less 1 s.monitor.timer
      ∧ ∀ k, t.tube k = passed 1 (s.tube k)

/-- Every command answers a next state, never a fault or a refusal, one whose event cannot happen too (the model's
choice, log 6), and leaves the commands that wait as they are, RESET too (the model's choice, log 26). -/
def Obligations.EveryCommandAnswersANextState : Prop :=
  ∀ (i : Instr) (s : State), Completes i s fun t => t.pending = s.pending

/-- R25, R48, R67, R88, R108, R124, R139, R154, R164, R171, R186: the values the manual gives for reset, in
State.reset and after a RESET command with any strap level, which also sets the root address and keeps the image
memory (the model's choice, log 26). -/
def Obligations.ResetLeavesTheStatedValues : Prop :=
  ∀ (straps : BitVec 4) (s : State), Completes (.reset straps) s fun t =>
    t.mem = s.mem ∧ t.root.address = BitVec.ofNat 20 (straps.toNat * 0x10000)
    ∧ ∀ u, u = t ∨ u = State.reset →
      u.clock = 0 ∧ u.port.phase = .idle ∧ u.root.windowBase = 0 ∧ u.root.guard0.size = 0 ∧ u.root.guard1.size = 0
      ∧ u.root.argument = 0 ∧ u.replacement = 0
      ∧ (∀ set way, ((u.cache.get set).get way).valid = false ∧ ((u.cache.get set).get way).wKnown = false)
      ∧ (∀ k, u.present k = false ∧ u.binding.get k = TubeBinding.empty)
      ∧ (∀ k, (u.tube k).mode = .aborted ∧ (u.tube k).queue = [] ∧ (u.tube k).nextTicket = 0
          ∧ (u.tube k).lastIssued = 0xFFFF ∧ (u.tube k).lastReleased = 0xFFFF ∧ (u.tube k).gapTimer = none
          ∧ (u.tube k).summary = Summary.clear ∧ (u.tube k).latchHeld = false ∧ (u.tube k).latchValue = 0
          ∧ (u.tube k).abortCause = .none ∧ (u.tube k).abortBegin = 0 ∧ (u.tube k).abortTimer = none)
      ∧ (∀ k, (u.tube k).ramp.thermal = .held ∧ (u.tube k).ramp.cause = .abort ∧ (u.tube k).ramp.direction = .none
          ∧ (u.tube k).ramp.stepTimer = none ∧ (u.tube k).ramp.settleTimer = none ∧ (u.tube k).ramp.retry = 0
          ∧ (u.tube k).ramp.slotHeld = false ∧ (u.tube k).ramp.lastTicket = 0xFFFF
          ∧ ∀ z, (u.tube k).ramp.zones.get z = ⟨false, 0, 0, 1⟩)
      ∧ (∀ k, (u.tube k).gas.atmosphere = .air ∧ (u.tube k).gas.run = none ∧ (u.tube k).gas.sampleTimer = none
          ∧ (u.tube k).gas.limitTimer = none ∧ (u.tube k).gas.accumulator = 0
          ∧ ∀ l, (u.tube k).gas.lines.get l = ⟨false, false, false, 0, 1, 0, 1, 0⟩)
      ∧ (∀ k, (u.tube k).boat = ⟨false, 0, 0, .outPos, .none, none, 0, 0, 0xFFFF, 0⟩)
      ∧ u.budget.claims = [] ∧ u.budget.load = 0 ∧ u.budget.throttle = false ∧ u.budget.timer = none
      ∧ u.abort.latch = false ∧ u.abort.tripCause = .none ∧ u.abort.tripTime = 0 ∧ u.abort.claimLimit = 0
      ∧ u.scanner.list = [] ∧ u.scanner.pass = none ∧ u.scanner.passCounter = 0 ∧ u.scanner.overrun = false
      ∧ u.scanner.stale = false ∧ u.scanner.timer = none ∧ u.scanner.staleTimer = none ∧ u.measured = Measured.empty
      ∧ u.delivery = [] ∧ u.bus.inFlight = none ∧ (∀ r, u.bus.age r = 0)
      ∧ u.notices.buffer = [] ∧ u.notices.producer = 0 ∧ u.notices.consumer = 0 ∧ u.notices.lost = 0
      ∧ u.notices.ringUsed = false ∧ u.notices.nextDue = none ∧ u.noticeOutput = false
      ∧ u.monitor = ⟨false, 0, 0, 0, 0, none⟩ ∧ u.loader.phase = .notReady ∧ u.loader.reason = .none

/-! ## Start-up -/

/-- R139, R175, R178, R183: with the last of the 64 root words the root is decided by the seven tests in their order,
the first that fails giving the not-ready reason. A root that fails leaves the copies as they were, and the part waits
for a RELOAD; one that passes is taken in field by field, and the part is LOADING with the first tube that has a
pointer. -/
def Obligations.RootReadIsDecided : Prop :=
  ∀ (s : State) (a : BusAccess) (words : List Word) (n : Nat), 1 ≤ n → InFlight s .walk a → a.write = none →
    s.portOffWalk = true → s.loader.job = .root words → words.length = 63 →
    let w (i : Nat) : Word := (s.readWord a.addr :: words).reverse.getD i 0
    let reason : NotReadyReason :=
      if w 0 ≠ 0xD440 then .signature
      else if (w 7).toNat % 64 = s.root.address.toNat / 0x10000 * 4 then .overlap
      else if 6 < (w 24).toNat % 8 then .ringSize
      else if (w 20).toNat % 64 = 0 ∨ 32 < (w 20).toNat % 64 then .scanCount
      else if (w 28).toNat % 8 = 0 ∨ 4 < (w 28).toNat % 8 then .heatSlots
      else if (w 27).toNat % 4096 = 0 then .capacity
      else if (w 29).toNat ≤ (w 30).toNat then .marks
      else .none
    Completes (.rootRead n) s fun t =>
      t.mem = s.mem ∧ t.binding = s.binding ∧ t.abort.latch = s.abort.latch ∧ t.port = s.port
      ∧ (∀ k, TubeKept (s.tube k) (t.tube k))
      ∧ (reason = .none →
          t.loader.phase = .loading ∧ t.loader.reason = .none
          ∧ (s.loader.phase = .notReady → RootWordDue t.notices .status)
          ∧ t.root.address = s.root.address ∧ t.root.argument = s.root.argument ∧ t.root.windowBase = (w 7).setWidth 6
          ∧ (∀ k : Tube, t.root.tubes.get k
              = ⟨w (8 + k.toNat), false, (w 12).getLsbD (2 * k.toNat), (w 12).getLsbD (2 * k.toNat + 1)⟩)
          ∧ t.root.guard0 = ⟨w 13, w 14, (w 15).getLsbD 0, (w 15).getLsbD 1⟩
          ∧ t.root.guard1 = ⟨w 16, w 17, (w 18).getLsbD 0, (w 18).getLsbD 1⟩
          ∧ t.loader.scanPointer = w 19 ∧ t.loader.scanCount = (w 20).toNat % 64
          ∧ t.scanner.period = (w 21).toNat ∧ t.scanner.staleLimit = (w 22).toNat
          ∧ t.notices.ringBase = w 23 ∧ t.notices.sizeCode = (w 24).toNat % 8 ∧ t.notices.reserve = (w 25).toNat
          ∧ t.notices.ringEnable = (w 26).getLsbD 0 ∧ t.notices.staleEnable = (w 26).getLsbD 1
          ∧ t.budget.enable = (w 26).getLsbD 2 ∧ t.budget.capacity = (w 27).toNat % 4096
          ∧ t.budget.slots = (w 28).toNat % 8 ∧ t.budget.upper = (w 29).toNat ∧ t.budget.lower = (w 30).toNat
          ∧ t.budget.drain = (w 31).toNat
          ∧ t.budget.timer = (match s.budget.timer with | none => some 1000 | some r => some r)
          ∧ t.monitor.period = (w 32).toNat ∧ t.monitor.limit = (w 33).toNat % 256
          ∧ t.abort.claimLimit = (w 34).toNat ∧ t.notices.ringInUse = true
          ∧ (s.notices.ringUsed = false →
              RootWordDue t.notices .producer ∧ RootWordDue t.notices .consumer ∧ RootWordDue t.notices .lost)
          ∧ (∀ k : Tube, w (8 + k.toNat) ≠ 0 → (∀ j : Tube, j.toNat < k.toNat → w (8 + j.toNat) = 0) →
              t.loader.job = .tube k [])
          ∧ ((∀ k : Tube, w (8 + k.toNat) = 0) → t.loader.job = .scanList []))
      ∧ (reason ≠ .none →
          t.loader = { s.loader with reason := reason, job := .idle } ∧ RootWordDue t.notices .status
          ∧ t.root = s.root ∧ t.scanner = s.scanner ∧ t.monitor = s.monitor ∧ t.abort = s.abort
          ∧ { t.budget with claims := s.budget.claims, joinCounter := s.budget.joinCounter } = s.budget
          ∧ t.notices.ringBase = s.notices.ringBase ∧ t.notices.sizeCode = s.notices.sizeCode
          ∧ t.notices.reserve = s.notices.reserve ∧ t.notices.ringEnable = s.notices.ringEnable
          ∧ t.notices.staleEnable = s.notices.staleEnable ∧ t.notices.suspended = false)

/-- R12, R13, R90, R97, R179: with the last of a tube table's 544 words the tube is decided by the tests in their
order: the header's check word and ranges, then over the ZONE, LINE and BOAT descriptors the check words, the forms,
the bindings (of the channels that fail one of these three the lowest-numbered is named, the model's choice, log 17)
and the purge line. A tube that fails is left absent with its DESC_FAULT notice; one that passes has its bindings,
header and line records taken. The next tube with a pointer follows, or the scan list. -/
def Obligations.TubeLoadIsDecided : Prop :=
  ∀ (s : State) (a : BusAccess) (k : Tube) (words : List Word) (n : Nat), 1 ≤ n → InFlight s .walk a →
    a.write = none → s.portOffWalk = true → s.loader.job = .tube k words → words.length = 543 →
    let ws := (s.readWord a.addr :: words).reverse
    let w (i : Nat) : Word := ws.getD i 0
    let v (i : Nat) : Nat := (w i).toNat
    let outOfRange (i : Nat) : Prop :=
      i = 2 ∧ (v 2 < 250 ∨ 10000 < v 2) ∨ (i = 3 ∨ i = 5 ∨ i = 22 ∨ i = 23 ∨ i = 24 ∨ i = 25) ∧ 1000 < v i
      ∨ i = 4 ∧ (v 4 < 250 ∨ 60000 < v 4) ∨ (i = 8 ∨ i = 10 ∨ i = 11 ∨ i = 12 ∨ i = 14 ∨ i = 16) ∧ v i = 0
      ∨ i = 9 ∧ v 8 < v 9 ∨ i = 13 ∧ (v 13 < 250 ∨ 10000 < v 13) ∨ i = 15 ∧ (v 15 < 100 ∨ 5000 < v 15)
      ∨ i = 27 ∧ (v 27 = 0 ∨ 1000 < v 27) ∨ i = 29 ∧ v 29 % 16 = 0
    let d (c : Nat) : DescWords :=
      ⟨w (32 + c * 8), w (33 + c * 8), w (34 + c * 8), w (35 + c * 8), w (36 + c * 8), w (37 + c * 8)⟩
    let kind (c : Nat) : Nat := v (32 + c * 8) % 8
    let bound (c : Nat) : Prop := c < 64 ∧ 2 ≤ kind c ∧ kind c ≤ 4
    let checked (c : Nat) : Prop := checkWord (d c).toList = w (39 + c * 8)
    let formed (c : Nat) : Prop :=
      (kind c = 2 → (d c).index ≤ 4 ∧ 1 ≤ v (37 + c * 8) ∧ v (37 + c * 8) ≤ 500 ∧ v (36 + c * 8) ≤ v (35 + c * 8))
      ∧ (kind c = 3 → (d c).index ≤ 7 ∧ 1 ≤ (d c).weight ∧ (d c).weight ≤ 8 ∧ 1 ≤ (d c).devCount ∧ (d c).devCount ≤ 15)
      ∧ (kind c ≠ 3 → (d c).reactive = false ∧ (d c).purge = false)
      ∧ ((d c).reactive = true → (d c).manual = false ∧ (d c).purge = false)
    let table : Addr := BitVec.ofNat 20 ((s.root.tubes.get k).pointer.toNat * 16)
    let forbidden (x : Addr) : Prop :=
      (x - s.root.address).toNat < 64 ∨ (x - table).toNat < 544
      ∨ (∃ u, s.present u = true ∧ ((x - BitVec.ofNat 20 ((s.root.tubes.get u).pointer.toNat * 16)).toNat < 544
          ∨ x ∈ (s.binding.get u).plan))
      ∨ (x - BitVec.ofNat 20 (s.notices.ringBase.toNat * 16)).toNat < 16 * 2 ^ s.notices.sizeCode * 8
    let conflicts (c : Nat) : Prop := forbidden (d c).addr ∨ ∃ b, b < c ∧ bound b
      ∧ ((d b).mark = (d c).mark ∧ ((d b).addr ≠ (d c).addr ∨ (d b).reactive ≠ (d c).reactive ∨ (d b).purge ≠ (d c).purge)
        ∨ (d b).mark ≠ (d c).mark ∧ (d b).addr = (d c).addr)
    let covers : Prop := ∃ u x, s.present u = true ∧ x ∈ (s.binding.get u).plan ∧ (x - table).toNat < 544
    let lowest (m : Mark) (c : Nat) : Prop := bound c ∧ (d c).mark = m ∧ ∀ b, b < c → bound b → (d b).mark ≠ m
    let purgeOk : Prop := ∃ l c, Ix8.toNat l = v 7 % 8 ∧ lowest (.line l) c ∧ (d c).reactive = false ∧ (d c).purge = true
      ∧ (∀ b, bound b → (d b).purge = true → (d b).mark = .line l)
      ∧ v 8 ≤ v (35 + c * 8) ∧ v 10 ≤ v (35 + c * 8) ∧ v 9 ≤ v (35 + c * 8)
    let header := checkWord (ws.take 31) = w 31
    let ranges := ∀ i, ¬ outOfRange i
    let checks := ∀ c, bound c → checked c
    let forms := ∀ c, bound c → formed c
    let binds := ∀ c, bound c → ¬ conflicts c
    let fails (t : State) (code : FaultCode) (channel : Option Six) (value : Word) : Prop :=
      t.root = s.root ∧ t.binding = s.binding ∧ TubeKept (s.tube k) (t.tube k)
      ∧ Reports s t (notice .descFault (some k) channel code.code 0 value 0)
    Completes (.tubeLoad n) s fun t =>
      t.mem = s.mem ∧ t.loader.phase = s.loader.phase ∧ t.port = s.port
      ∧ (∀ j, j ≠ k → t.root.tubes.get j = s.root.tubes.get j ∧ t.binding.get j = s.binding.get j
          ∧ TubeKept (s.tube j) (t.tube j))
      ∧ (¬ header → fails t .header none 31)
      ∧ (∀ i, header → outOfRange i → (∀ j, j < i → ¬ outOfRange j) → fails t .header none (BitVec.ofNat 16 i))
      ∧ (∀ c, header → ranges → bound c → ¬ checked c → (∀ b, b < c → bound b → checked b) →
          fails t .check (some (BitVec.ofNat 6 c)) (w (32 + c * 8)))
      ∧ (∀ c, header → ranges → checks → bound c → ¬ formed c → (∀ b, b < c → bound b → formed b) →
          fails t .form (some (BitVec.ofNat 6 c)) (w (32 + c * 8)))
      ∧ (∀ c, header → ranges → checks → forms → bound c → conflicts c → (∀ b, b < c → bound b → ¬ conflicts b) →
          fails t .binding (some (BitVec.ofNat 6 c)) (w (32 + c * 8)))
      ∧ (header → ranges → checks → forms → binds → covers →
          ∃ c, c < 64 ∧ fails t .binding (some (BitVec.ofNat 6 c)) (w (32 + c * 8)))
      ∧ (header → ranges → checks → forms → binds → ¬ covers → ¬ purgeOk →
          fails t .purge none (BitVec.ofNat 16 (v 7 % 8)))
      ∧ (header → ranges → checks → forms → binds → ¬ covers → purgeOk →
          t.root = { s.root with tubes := t.root.tubes }
          ∧ t.root.tubes.get k = { s.root.tubes.get k with present := true }
          ∧ (∀ z c, lowest (.zone z) c → (t.binding.get k).zones.get z = ⟨true, (d c).addr, v (37 + c * 8)⟩)
          ∧ (∀ z, (∀ c, ¬ lowest (.zone z) c) → ((t.binding.get k).zones.get z).bound = false)
          ∧ (∀ l c, lowest (.line l) c →
              (t.binding.get k).lines.get l = ⟨true, (d c).addr, (d c).reactive, (d c).purge⟩)
          ∧ (∀ l, (∀ c, ¬ lowest (.line l) c) → ((t.binding.get k).lines.get l).bound = false)
          ∧ (∀ c, lowest .boat c → (t.binding.get k).boat = ⟨true, (d c).addr⟩)
          ∧ ((∀ c, ¬ lowest .boat c) → (t.binding.get k).boat.bound = false)
          ∧ (∀ c, c < 64 → (t.binding.get k).marks[c]? = some (d c).mark)
          ∧ (t.tube k).header.purgeLine.toNat = v 7 % 8
          ∧ (t.tube k).header =
              { holdLimit := v 0, releaseGap := v 1, stepPeriod := v 2, lagLimit := v 3, settlePeriod := v 4,
                settleWindow := v 5, settleRetryLimit := v 6 % 256, purgeLine := (t.tube k).header.purgeLine,
                purgeFlow := w 8, standbyFlow := w 9, abortPurgeFlow := w 10, purgeVolume := v 11,
                clearingVolume := v 12, samplePeriod := v 13, purgeLimit := v 14, motionPeriod := v 15,
                inThreshold := v 16, pushLimit := v 17, bandBound := ⟨v 18, v 19, v 20, v 21⟩,
                bandStep := ⟨v 22, v 23, v 24, v 25⟩, approachDistance := v 26, approachStep := v 27,
                stallLimit := v 28, stallCount := v 29 % 16 }
          ∧ (t.tube k).mode = (s.tube k).mode
          ∧ (∀ l c, lowest (.line l) c → { (t.tube k).gas.lines.get l with flow := 0, devCounter := 0 }
              = ⟨true, (d c).reactive, (d c).purge, 0, (d c).weight, v (37 + c * 8), (d c).devCount, 0⟩)
          ∧ (∀ l, (∀ c, ¬ lowest (.line l) c) → ((t.tube k).gas.lines.get l).bound = false)
          ∧ ((s.tube k).mode ≠ .run ∨ (s.tube k).queue = [] → (s.tube k).gas.run = none →
              ∀ l, ((t.tube k).gas.lines.get l).flow = 0 ∧ ((t.tube k).gas.lines.get l).devCounter = 0))
      ∧ (∀ j : Tube, k.toNat < j.toNat → (s.root.tubes.get j).pointer ≠ 0 →
          (∀ i : Tube, k.toNat < i.toNat → i.toNat < j.toNat → (s.root.tubes.get i).pointer = 0) →
          t.loader.job = .tube j [])
      ∧ ((∀ j : Tube, k.toNat < j.toNat → (s.root.tubes.get j).pointer = 0) → t.loader.job = .scanList [])

/-- R155, R179, R190: with the last word of the scan table the Scan List is filled, one record for each of the scan
count's entries with its fields from the entry's four words, and trip counter 0. A malformed entry, whose target code
names no target or whose enabled trip has count 0 or crossed limits, is loaded inactive and places its DESC_FAULT notice
(code SCAN 6, its index as value). Adoption is waited for. -/
def Obligations.ScanListIsLoaded : Prop :=
  ∀ (s : State) (a : BusAccess) (words : List Word) (n : Nat), 1 ≤ n → InFlight s .walk a → a.write = none →
    s.portOffWalk = true → s.loader.job = .scanList words → words.length + 1 = s.loader.scanCount * 4 →
    let w (i j : Nat) : Word := (s.readWord a.addr :: words).reverse.getD (i * 4 + j) 0
    let code (i : Nat) : Nat := (w i 1).toNat / 16 % 64
    let enable (i : Nat) : Bool := (w i 1).getLsbD 10
    let count (i : Nat) : Nat := (w i 1).toNat / 4096
    let malformed (i : Nat) : Prop :=
      code i % 16 = 7 ∨ enable i = true ∧ (count i = 0 ∨ (w i 2).toNat < (w i 3).toNat)
    let faultsBefore (t : State) (i : Nat) : Nat := ((t.scanner.list.take i).filter fun r => !r.active).length
    Completes (.scanListLoad n) s fun t =>
      t.scanner = { s.scanner with list := t.scanner.list } ∧ t.scanner.list.length = s.loader.scanCount
      ∧ (∀ i r, t.scanner.list[i]? = some r →
          r.source = BitVec.ofNat 20 ((w i 1).toNat % 16 * 0x10000 + (w i 0).toNat)
          ∧ r.high = w i 2 ∧ r.low = w i 3 ∧ r.enable = enable i ∧ r.bankTrip = (w i 1).getLsbD 11
          ∧ r.tripCount = count i ∧ r.counter = 0 ∧ (r.active = true ↔ ¬ malformed i)
          ∧ (∀ k z, r.target = some (.zone k z) ↔ code i = k.toNat * 16 + z.toNat)
          ∧ (∀ k, r.target = some (.boat k) ↔ code i = k.toNat * 16 + 5)
          ∧ (∀ k, r.target = some (.bankInput k) ↔ code i = k.toNat * 16 + 6)
          ∧ (∀ k l, r.target = some (.line k l) ↔ code i = k.toNat * 16 + 8 + l.toNat)
          ∧ (r.target = none ↔ code i % 16 = 7))
      ∧ (∀ i, i < s.loader.scanCount → malformed i → s.notices.buffer.length + faultsBefore t i < 8 →
          { notice .descFault none none 6 0 (BitVec.ofNat 16 i) 0 with clock := t.clock } ∈ t.notices.buffer)
      ∧ ((∀ i, i < s.loader.scanCount → ¬ malformed i) → t.notices.buffer = s.notices.buffer)
      ∧ t.loader = { s.loader with job := .adoptWait } ∧ t.mem = s.mem ∧ t.root = s.root ∧ t.binding = s.binding
      ∧ t.port = s.port ∧ ∀ k, TubeKept (s.tube k) (t.tube k)

/-- R176, R180, R181: adoption starts with the first present tube once every pending delivery is at a bound address;
until then the loader waits. With no tube present the part is READY at once, its timers start, and the status word is
due. -/
def Obligations.AdoptionStartsOnceDeliveriesAreBound : Prop :=
  ∀ s : State, s.loader.job = .adoptWait → (∀ b, s.bus.inFlight = some b → b.discard = false) →
    Completes .adoptionStart s fun t =>
      t.mem = s.mem ∧ t.root = s.root ∧ t.binding = s.binding ∧ t.port = s.port
      ∧ (∀ k, TubeKept (s.tube k) (t.tube k))
      ∧ (∀ k, s.present k = true → (∀ j, j.toNat < k.toNat → s.present j = false) →
          (∀ d ∈ s.delivery, s.isBound d.addr = true) →
          t.loader.phase = s.loader.phase ∧ t.loader.job = .adopt k [])
      ∧ (∀ k, s.present k = true → (∃ d ∈ s.advance.delivery, s.isBound d.addr = false) → t.loader = s.loader)
      ∧ ((∀ k, s.present k = false) →
          t.loader.phase = .ready ∧ t.loader.job = .idle
          ∧ (s.loader.phase ≠ .ready → RootWordDue t.notices .status)
          ∧ t.scanner.timer = startUnlessZero s.scanner.period
          ∧ t.scanner.staleTimer = startUnlessZero s.scanner.staleLimit
          ∧ t.monitor.timer
              = if s.monitor.period ≠ 0 ∧ s.monitor.limit ≠ 0 then some s.monitor.period else none)

/-- R89, R91, R98, R109, R124, R149, R170, R180, R181: with the last word of an ABORTED tube's plan, from memory or
forwarded from a pending delivery, the tube is adopted as `Adopted` says: ramp, boat, line flows with their urgent
writes, the STARTUP clearing of a tube with a reactive line open, its notices (which inert lines LOADED counts is the
model's choice, log 18, and the order of the plan within the tube its choice too, log 40), and the next tube or READY. -/
def Obligations.TubeIsAdopted : Prop :=
  ∀ (s : State) (k : Tube) (words rest : List Word) (value : Addr → Word), s.present k = true →
    (s.tube k).mode = .aborted → s.portOffWalk = true → s.loader.job = .adopt k words → (s.binding.get k).plan.Nodup →
    let plan := (s.binding.get k).plan
    (∀ (a : BusAccess) (n : Nat), 1 ≤ n → InFlight s .walk a → a.write = none →
      let got := (s.readWord a.addr :: words).reverse
      plan.length = got.length + rest.length →
      (∀ (i : Nat) (x : Addr) (w : Word), plan[got.length + i]? = some x → rest[i]? = some w → s.forwarded x = some w) →
      (∀ (i : Nat) (x : Addr), plan[i]? = some x → (got ++ rest)[i]? = some (value x)) →
      Completes (.tubeAdopt n) s fun t => Adopted s t k value)
    ∧ (∀ (a : BusAccess) (n : Nat), s.bus.inFlight = some a → a.requester ≠ .walk →
      plan.length = words.length + rest.length →
      (∀ (i : Nat) (x : Addr) (w : Word), plan[words.length + i]? = some x → rest[i]? = some w → s.forwarded x = some w) →
      (∀ (i : Nat) (x : Addr), plan[i]? = some x → (words.reverse ++ rest)[i]? = some (value x)) →
      Completes (.tubeAdopt n) s fun t => Adopted s t k value)

/-! ## The root block -/

/-- R3, R25, R48, R67, R88, R108, R124, R154, R165, R177, R185, R186: a RELOAD written by SERVICE is taken where every
tube is ABORTED, every line is at 0 and the Claim List is empty, and else refused STATE. A taken one samples the
straps, clears every present flag, binding, cache entry and measured value, empties the Scan List, and keeps the
tickets, the summary, the bank clock and, as the model's choice (log 14), the abort and trip requests that wait. -/
def Obligations.ReloadIsTakenOrRefused : Prop :=
  ∀ (s : State) (straps : BitVec 4), s.port.phase = .idle →
    Completes (.reload .service straps) s fun t =>
      ((∀ k, (s.tube k).mode = .aborted ∧ ∀ l, ((s.tube k).gas.lines.get l).flow = 0) → s.budget.claims = [] →
        t.port = ⟨.idle, .acknowledge⟩ ∧ t.mem = s.mem ∧ t.clock = s.clock ∧ t.straps = straps
        ∧ t.root = { s.root with address := BitVec.ofNat 20 (straps.toNat * 0x10000), tubes := t.root.tubes }
        ∧ (∀ k, t.root.tubes.get k = { s.root.tubes.get k with present := false } ∧ t.present k = false)
        ∧ t.replacement = 0
        ∧ (∀ set way, ((t.cache.get set).get way).valid = false ∧ ((t.cache.get set).get way).wKnown = false)
        ∧ (∀ k, t.binding.get k = TubeBinding.empty)
        ∧ t.loader.phase = .notReady ∧ t.loader.job = .root []
        ∧ t.notices.producer = 0 ∧ t.notices.consumer = 0 ∧ t.notices.ringInUse = false ∧ t.noticeOutput = false
        ∧ RootWordDue t.notices .producer ∧ RootWordDue t.notices .consumer ∧ RootWordDue t.notices .lost
        ∧ t.monitor = { s.monitor with timer := none, lapsed := false, count := 0, recorded := 0 }
        ∧ t.scanner = { s.scanner with
            list := [], pass := none, timer := none, staleTimer := none, overrun := false, stale := false }
        ∧ (∀ k, (∀ z, (t.measured.tubes.get k).zones.get z = ⟨0, false⟩)
            ∧ (∀ l, (t.measured.tubes.get k).lines.get l = ⟨0, false⟩) ∧ (t.measured.tubes.get k).boat = ⟨0, false⟩)
        ∧ (∀ n, t.measured.inputs.get n = ⟨0, false⟩) ∧ t.measured = Measured.empty ∧ t.abort = s.abort
        ∧ { t.budget with claims := s.budget.claims, joinCounter := s.budget.joinCounter } = s.budget
        ∧ (∀ k, (t.tube k).mode = .aborted ∧ (t.tube k).abortCause = .none ∧ (t.tube k).latchHeld = false
            ∧ (t.tube k).nextTicket = (s.tube k).nextTicket ∧ (t.tube k).lastIssued = (s.tube k).lastIssued
            ∧ (t.tube k).lastReleased = (s.tube k).lastReleased ∧ (t.tube k).summary = (s.tube k).summary
            ∧ (t.tube k).ramp.thermal = .held ∧ (t.tube k).ramp.cause = .abort ∧ (t.tube k).gas.atmosphere = .air
            ∧ (t.tube k).boat.state = .outPos)
        ∧ (DeliveryOk s.delivery → ∀ b, t.underway b = s.underway b)
        ∧ ∀ a, s.bus.inFlight = some a → a.requester = .walk ∨ a.requester = .scan →
            t.bus.inFlight = some { a with discard := true })
      ∧ (¬ ((∀ k, (s.tube k).mode = .aborted ∧ ∀ l, ((s.tube k).gas.lines.get l).flow = 0) ∧ s.budget.claims = []) →
        Refuses s t (refusedNotice none none (rootWriteAccess s .service 1 2) .state) ∧ Elsewhere none s t)

/-- R18: FLUSH_DESC invalidates the entry of the tube and channel the argument copy names, or all sixteen at 0FFFFH,
and is refused BAD_COMMAND for any other argument. -/
def Obligations.FlushDescInvalidatesTheNamedEntries : Prop :=
  ∀ s : State, s.port.phase = .idle →
    Completes (.flushDesc .service) s fun t =>
      t.replacement = s.replacement ∧ Elsewhere none { s with cache := t.cache } t
      ∧ (s.root.argument.toNat < 256 →
          t.port = ⟨.idle, .acknowledge⟩
          ∧ ∀ set way, (t.cache.get set).get way
              = if set = cacheSet (sixOf s.root.argument.toNat)
                  ∧ ((s.cache.get set).get way).holds (Ix4.ofMod (s.root.argument.toNat / 64))
                      (sixOf s.root.argument.toNat) = true
                then { (s.cache.get set).get way with valid := false, wKnown := false }
                else (s.cache.get set).get way)
      ∧ (s.root.argument = 0xFFFF →
          t.port = ⟨.idle, .acknowledge⟩
          ∧ ∀ set way, (t.cache.get set).get way = { (s.cache.get set).get way with valid := false, wKnown := false })
      ∧ (256 ≤ s.root.argument.toNat → s.root.argument ≠ 0xFFFF →
          Refuses s t (refusedNotice none none (rootWriteAccess s .service 1 1) .badCommand) ∧ t.cache = s.cache)

/-- R153, R176: TRIP_CLEAR is taken while no present tube is ABORTING, and clears a set latch with its notice; the status
word becomes due. -/
def Obligations.TripClearClearsTheLatch : Prop :=
  ∀ s : State, s.port.phase = .idle →
    Completes (.tripClear .service) s fun t =>
      Elsewhere none { s with abort := t.abort } t ∧ (∀ k, (t.tube k).mode = (s.tube k).mode)
      ∧ ((∀ k, s.present k = true → (s.tube k).mode ≠ .aborting) →
          t.port = ⟨.idle, .acknowledge⟩ ∧ t.tripOutput = false
          ∧ (s.abort.latch = true →
              t.abort = { s.abort with latch := false, tripCause := .none } ∧ RootWordDue t.notices .status
              ∧ Reports s t
                  (notice .tripCleared none none s.abort.tripCause.code 0 0 (s.secondsSince s.abort.tripTime)))
          ∧ (s.abort.latch = false → t.abort = s.abort ∧ t.notices.buffer = s.notices.buffer))
      ∧ ((∃ k, s.present k = true ∧ (s.tube k).mode = .aborting) →
          Refuses s t (refusedNotice none none (rootWriteAccess s .service 1 3) .state) ∧ t.abort = s.abort)

/-- R2, R3: every OPERATOR write to a root word but the consumer index is refused PRIVILEGE. A SERVICE write goes by
the word: the argument word is copied and passed to memory, the words the part writes are refused PROTECTED, an
unknown command is refused BAD_COMMAND, and every other word is passed to memory, where outside READY it first waits
for a delivery pending for its address (R173, which the model takes for root words too, log 24). -/
def Obligations.RootWritesFollowTheClassAndTheWord : Prop :=
  (∀ (s : State) (i : Instr) (word : Six) (v : Word), s.port.phase = .idle → word ≠ 5 →
    (i = .rootWrite .operator word v ∨ (i = .argumentWordWrite .operator v ∧ word = 2)
      ∨ (i = .rootCommandUnknown .operator v ∧ word = 1) ∨ (i = .flushDesc .operator ∧ word = 1 ∧ v = 1)
      ∨ ((∃ straps, i = .reload .operator straps) ∧ word = 1 ∧ v = 2) ∨ (i = .tripClear .operator ∧ word = 1 ∧ v = 3)) →
    Completes i s fun t =>
      Refuses s t (refusedNotice none none (rootWriteAccess s .operator word v) .privilege) ∧ Elsewhere none s t)
  ∧ (∀ (s : State) (v : Word), s.port.phase = .idle →
    Completes (.argumentWordWrite .service v) s fun t =>
      t.port = ⟨s.passPhase (rootWriteAccess s .service 2 v) (s.root.address + 2) false, s.port.answer⟩
      ∧ Elsewhere none { s with root := { s.root with argument := v } } t)
  ∧ (∀ (s : State) (v : Word), s.port.phase = .idle → v ≠ 1 → v ≠ 2 → v ≠ 3 →
    Completes (.rootCommandUnknown .service v) s fun t =>
      Refuses s t (refusedNotice none none (rootWriteAccess s .service 1 v) .badCommand) ∧ Elsewhere none s t)
  ∧ (∀ (s : State) (word : Six) (v : Word), s.port.phase = .idle → word = 3 ∨ word = 4 ∨ word = 6 →
    Completes (.rootWrite .service word v) s fun t =>
      Refuses s t (refusedNotice none none (rootWriteAccess s .service word v) .isProtected) ∧ Elsewhere none s t)
  ∧ (∀ (s : State) (word : Six) (v : Word), s.port.phase = .idle → word = 0 ∨ 6 < word.toNat →
    Completes (.rootWrite .service word v) s fun t =>
      t.port = ⟨s.passPhase (rootWriteAccess s .service word v) (s.root.address + word.setWidth 20) false,
        s.port.answer⟩
      ∧ Elsewhere none s t)

/-- R184: a consumer-index write, by either class, is decided against the copies; a taken one goes to memory, and
outside READY first waits for a delivery pending for its address (R173, which the model takes for it too, log 24). -/
def Obligations.ConsumerIndexWriteIsDecided : Prop :=
  ∀ (s : State) (c : AccessClass) (v : Word), s.port.phase = .idle →
    Completes (.consumerIndexWrite c v) s fun t =>
      Elsewhere none s t
      ∧ (v.toNat < 16 * 2 ^ s.notices.sizeCode
          → ringDistance (16 * 2 ^ s.notices.sizeCode) v.toNat s.notices.consumer
            ≤ ringDistance (16 * 2 ^ s.notices.sizeCode) s.notices.producer s.notices.consumer →
          t.port = ⟨s.passPhase (rootWriteAccess s c 5 v) (s.root.address + 5) true, s.port.answer⟩)
      ∧ (16 * 2 ^ s.notices.sizeCode ≤ v.toNat
          ∨ ringDistance (16 * 2 ^ s.notices.sizeCode) s.notices.producer s.notices.consumer
            < ringDistance (16 * 2 ^ s.notices.sizeCode) v.toNat s.notices.consumer →
          Refuses s t (refusedNotice none none (rootWriteAccess s c 5 v) .ringIndex))

/-- R184, R185: when a taken consumer-index write completes, the image word and the consumer copy take the value, and
a changed copy returns the Service Monitor to NORMAL, with SERVICE_BACK where it was LAPSED. Either row that completes
a PASS access does all this (the model's choice, log 25). -/
def Obligations.ConsumerAdvanceFollowsTheWrite : Prop :=
  ∀ (s : State) (i : Instr) (a : BusAccess) (acc : Access) (b : Addr),
    i = .consumerAdvance ∨ i = .passAccessComplete → InFlight s .pass a → s.port.phase = .pass acc b true →
    acc.direction = .write → a.write = some acc.value → s.mem.wf = true →
    Completes i s fun t =>
      t.port = ⟨.idle, .acknowledge⟩ ∧ t.notices.consumer = acc.value.toNat
      ∧ t.notices.producer = s.notices.producer
      ∧ (t.noticeOutput = true ↔ s.notices.producer ≠ acc.value.toNat)
      ∧ (∀ x, t.readWord x = if x = a.addr then acc.value else s.readWord x)
      ∧ (acc.value.toNat ≠ s.notices.consumer → t.monitor = { s.monitor with count := 0, lapsed := false }
          ∧ (s.monitor.lapsed = true →
              Reports s t (serviceNotice .serviceBack { s.notices with consumer := acc.value.toNat })))
      ∧ (acc.value.toNat = s.notices.consumer → t.monitor = s.monitor)
      ∧ Elsewhere none { s with mem := t.mem, monitor := t.monitor, notices := t.notices } t

/-! ## Passes -/

/-- R6, R7, R8: a guard window of nonzero size covers base × 16 to base × 16 + size × 16 − 1; an address is bound when it
is the delivered address of a bound zone, line or boat of a present tube. Outside the root block and the furnace window a read is answered from a pending delivery or goes to
memory. An open write is checked for BOUND in READY; a guarded write is checked for NO_WRITE, then SERVICE_WRITE, then
BOUND. Outside READY a write waits for a delivery pending for its address (R173; log 24). A row has the effect its
access has, whether or not a guard window covers the address (the model's choice, log 7). -/
def Obligations.PassesFollowTheWindowsAndTheBounds : Prop :=
  (∀ (g : Guard) (a : Addr), g.covers a = true ↔
    g.size ≠ 0 ∧ g.base.toNat * 16 ≤ a.toNat ∧ a.toNat ≤ g.base.toNat * 16 + g.size.toNat * 16 - 1)
  ∧ (∀ (s : State) (a : Addr), s.isBound a = true ↔ ∃ k, (s.root.tubes.get k).present = true ∧
    let b := s.binding.get k
    ((∃ z, (b.zones.get z).bound = true ∧ (b.zones.get z).addr = a)
      ∨ (∃ l, (b.lines.get l).bound = true ∧ (b.lines.get l).addr = a) ∨ b.boat.bound = true ∧ b.boat.addr = a))
  ∧ (∀ (s : State) (c : AccessClass) (a : Addr), Presents s ⟨a, .read, c, 0⟩ → windowPlace s.root.windowBase a = none →
    Completes (.openPassRead c a) s fun t => t.port = s.readPort ⟨a, .read, c, 0⟩ a ∧ Elsewhere none s t)
  ∧ (∀ (s : State) (c : AccessClass) (a : Addr) (v : Word), Presents s ⟨a, .write, c, v⟩ →
    windowPlace s.root.windowBase a = none → s.root.guard0.covers a = false → s.root.guard1.covers a = false →
    Completes (.openPassWrite c a v) s fun t =>
      Elsewhere none s t
      ∧ (s.loader.phase = .ready ∧ s.isBound a = true → Refuses s t (refusedNotice none none ⟨a, .write, c, v⟩ .bound))
      ∧ (s.loader.phase ≠ .ready ∨ s.isBound a = false →
          t.port = ⟨s.passPhase ⟨a, .write, c, v⟩ a false, s.port.answer⟩))
  ∧ (∀ (s : State) (c : AccessClass) (a : Addr), Presents s ⟨a, .read, c, 0⟩ → windowPlace s.root.windowBase a = none →
    Completes (.guardedPassRead c a) s fun t => t.port = s.readPort ⟨a, .read, c, 0⟩ a ∧ Elsewhere none s t)
  ∧ (∀ (s : State) (c : AccessClass) (a : Addr) (v : Word), Presents s ⟨a, .write, c, v⟩ →
    windowPlace s.root.windowBase a = none →
    let noWrite := ∃ g, (g = s.root.guard0 ∨ g = s.root.guard1) ∧ g.covers a = true ∧ g.noWrite = true
    let service := ∃ g, (g = s.root.guard0 ∨ g = s.root.guard1) ∧ g.covers a = true ∧ g.serviceWrite = true
    let bound := s.loader.phase = .ready ∧ s.isBound a = true
    Completes (.guardedPassWrite c a v) s fun t =>
      Elsewhere none s t
      ∧ (noWrite → Refuses s t (refusedNotice none none ⟨a, .write, c, v⟩ .isProtected))
      ∧ (¬ noWrite → service → c = .operator → Refuses s t (refusedNotice none none ⟨a, .write, c, v⟩ .privilege))
      ∧ (¬ noWrite → ¬ (service ∧ c = .operator) → bound →
          Refuses s t (refusedNotice none none ⟨a, .write, c, v⟩ .bound))
      ∧ (¬ noWrite → ¬ (service ∧ c = .operator) → ¬ bound →
          t.port = ⟨s.passPhase ⟨a, .write, c, v⟩ a false, s.port.answer⟩))

/-- R172, R173: a write that waits for a pending delivery raises its PASS request once that delivery has been written.
A PASS access completes: a read answers the word memory holds, a write places its word and is acknowledged. While the
delivery is pending PASS_WRITE_DEFERRED changes nothing (the model's choice, log 6), and it raises the request of
every write that waits, the consumer index among them (the model's choice, log 24). -/
def Obligations.PassAccessesComplete : Prop :=
  (∀ (s : State) (acc : Access) (a : Addr) (consumer : Bool), s.port.phase = .deferred acc a consumer →
    Completes .passWriteDeferred s fun t =>
      ((∀ d ∈ s.delivery, d.addr ≠ a) → (∀ b, s.bus.inFlight = some b → b.requester = .deliver → b.addr ≠ a) →
        t.port = ⟨.pass acc a consumer, s.port.answer⟩ ∧ Elsewhere none s t)
      ∧ ((∃ d ∈ s.delivery, d.addr = a) → t = s))
  ∧ (∀ (s : State) (a : BusAccess) (acc : Access) (b : Addr), InFlight s .pass a → s.port.phase = .pass acc b false →
    (acc.direction = .read → a.write = none →
      Completes .passAccessComplete s fun t =>
        t.port = ⟨.idle, .data (s.readWord a.addr)⟩ ∧ Elsewhere none s t)
    ∧ (acc.direction = .write → a.write = some acc.value → s.mem.wf = true →
      Completes .passAccessComplete s fun t =>
        t.port = ⟨.idle, .acknowledge⟩ ∧ (∀ x, t.readWord x = if x = a.addr then acc.value else s.readWord x)
        ∧ Elsewhere none { s with mem := t.mem } t))

/-! ## The Channel Map -/

/-- R22, steps 1 to 6: an access to a channel is refused by the load phase, by an absent tube, or by the steps that
follow a lookup that hits. -/
def Obligations.ChannelAccessIsRefusedInOrder : Prop :=
  ∀ (s : State) (i : Instr) (c : AccessClass) (dir : Direction) (p : Place) (v : Word),
    channelCommand i = some (c, dir, p, v) →
    let acc := placeAccess s c dir p v
    Presents s acc → ∀ r,
    (s.loader.phase = .notReady ∧ r = .notReady
      ∨ s.loader.phase = .loading ∧ r = .loading
      ∨ s.loader.phase = .ready ∧ s.present p.tube = false ∧ r = .noTube
      ∨ s.loader.phase = .ready ∧ s.present p.tube = true
          ∧ ∃ way, s.cacheHit p = some way ∧ s.stepRefusal acc p (s.cacheEntry p way).words = some r) →
    Completes i s fun t =>
      Refuses s t (refusedNotice (some p.tube) (some p.channel) acc r) ∧ Elsewhere none s t

/-- R9, R10, R11, R22, R189: what a descriptor's words say: its kind, how many words may be read and written through it, its
flags, its address and what it is bound to. What steps 4 to 6 refuse, in order: a word past the channel's count, a class,
and a protected or untranslatable write. -/
def Obligations.StepsFourToSixInOrder : Prop :=
  (∀ d : DescWords,
    let code := d.w0.toNat % 8
    let index := d.w0.toNat / 256 % 16
    d.kind = (match code with
      | 0 => some .invalid | 1 => some .plain | 2 => some .zone | 3 => some .line | 4 => some .boat | 5 => some .tube
      | _ => none)
    ∧ d.readable = (match code with | 1 => d.w3.toNat | 2 => 1 | 3 => 1 | 4 => 1 | 5 => 8 | _ => 0)
    ∧ d.writable = (match code with | 1 => d.w3.toNat | 2 => 1 | 3 => 1 | 4 => 1 | 5 => 1 | _ => 0)
    ∧ d.service = d.w0.getLsbD 3 ∧ d.protect = d.w0.getLsbD 4 ∧ d.manual = d.w0.getLsbD 5
    ∧ d.addr = BitVec.ofNat 20 (d.w2.toNat % 16 * 0x10000 + d.w1.toNat)
    ∧ (∀ z, d.mark = .zone z ↔ code = 2 ∧ index = z.toNat) ∧ (∀ l, d.mark = .line l ↔ code = 3 ∧ index = l.toNat)
    ∧ (d.mark = .boat ↔ code = 4))
  ∧ ∀ (s : State) (acc : Access) (p : Place) (d : DescWords),
    let count := if acc.direction = .read then d.readable else d.writable
    let private_ := acc.class_ = .operator ∧ (d.service = true ∨ (s.root.tubes.get p.tube).service = true)
      ∧ (acc.direction = .write ∨ d.kind = some .plain)
      ∧ ¬ (d.kind = some .tube ∧ acc.direction = .write ∧ p.word = 0 ∧ acc.value = 4)
    let guarded := acc.direction = .write ∧ (d.protect = true ∨ (s.root.tubes.get p.tube).protect = true)
    (count ≤ p.word.toNat → s.stepRefusal acc p d = some .noChannel)
    ∧ (p.word.toNat < count → private_ → s.stepRefusal acc p d = some .privilege)
    ∧ (p.word.toNat < count → ¬ private_ → guarded → s.stepRefusal acc p d = some .isProtected)
    ∧ (p.word.toNat < count → ¬ private_ → acc.direction = .read → s.stepRefusal acc p d = none)
    ∧ (p.word.toNat < count → ¬ private_ → ¬ guarded → acc.direction = .write → d.kind ≠ some .plain →
        s.stepRefusal acc p d = none)
    ∧ (p.word.toNat < count → ¬ private_ → ¬ guarded → acc.direction = .write → d.kind = some .plain →
        (rootWordAt s.root.address (d.addr + p.word.setWidth 20) ≠ none → s.stepRefusal acc p d = some .isProtected)
        ∧ (rootWordAt s.root.address (d.addr + p.word.setWidth 20) = none →
            s.stepRefusal acc p d = s.writeRefusal acc.class_ (d.addr + p.word.setWidth 20)))

/-- R16: a lookup that misses takes its victim from the replacement counter, which advances, and walks. -/
def Obligations.MissStartsAWalk : Prop :=
  ∀ (s : State) (i : Instr) (c : AccessClass) (dir : Direction) (p : Place) (v : Word),
    channelCommand i = some (c, dir, p, v) → Presents s (placeAccess s c dir p v) → s.loader.phase = .ready →
    s.present p.tube = true → s.cacheHit p = none →
    Completes i s fun t =>
      t.port = ⟨.walk (placeAccess s c dir p v) [] (Ix4.ofMod s.replacement.toNat), s.port.answer⟩
      ∧ t.replacement = s.replacement + 1 ∧ Elsewhere none s t

/-- R12, R14, R16, R17, R23, R192: which descriptors are malformed, and which the binding comparison finds different. With the
eighth descriptor word a walk is decided: a failed check, form or binding comparison is refused, its DESC_FAULT notice
first; else the cache takes the entry, and w6 is written back where U is clear. Where U is set the access goes on with steps
4 to 6, and where they refuse nothing a read is answered by kind, and a write whose W is set is dispatched, by the one
function that dispatches a write that hits. -/
def Obligations.WalkIsDecided : Prop :=
  (∀ d : DescWords,
    let kind := d.w0.toNat % 8
    let index := d.w0.toNat / 256 % 16
    let manual := d.w0.getLsbD 5 = true
    let reactive := d.w0.getLsbD 6 = true
    let purge := d.w0.getLsbD 7 = true
    d.wellFormed = true ↔
      kind ≤ 5
      ∧ (kind = 1 → 1 ≤ d.w3.toNat ∧ d.w3.toNat ≤ 64)
      ∧ (kind = 2 → index ≤ 4 ∧ 1 ≤ d.w5.toNat ∧ d.w5.toNat ≤ 500 ∧ d.w4.toNat ≤ d.w3.toNat)
      ∧ (kind = 3 → index ≤ 7 ∧ 1 ≤ d.w4.toNat % 256 ∧ d.w4.toNat % 256 ≤ 8 ∧ 1 ≤ d.w4.toNat / 256
          ∧ d.w4.toNat / 256 ≤ 15)
      ∧ (reactive ∨ purge → kind = 3) ∧ (manual → kind ≠ 1 ∧ kind ≠ 5 ∧ kind ≠ 0)
      ∧ ¬ (manual ∧ reactive) ∧ ¬ (purge ∧ reactive))
  ∧ (∀ (b : TubeBinding) (c : Six) (d : DescWords),
    let kind := d.w0.toNat % 8
    let index := d.w0.toNat / 256 % 16
    let addr : Addr := BitVec.ofNat 20 (d.w2.toNat % 16 * 0x10000 + d.w1.toNat)
    let mark := b.marks.getD c.toNat .none
    (mark = .none → (b.mismatch c d = true ↔ 2 ≤ kind ∧ kind ≤ 4))
    ∧ (∀ z, mark = .zone z →
        (b.mismatch c d = true ↔ ¬ (kind = 2 ∧ index = z.toNat ∧ addr = (b.zones.get z).addr)))
    ∧ (∀ l, mark = .line l →
        (b.mismatch c d = true ↔ ¬ (kind = 3 ∧ index = l.toNat ∧ addr = (b.lines.get l).addr
          ∧ d.w0.getLsbD 6 = (b.lines.get l).reactive ∧ d.w0.getLsbD 7 = (b.lines.get l).purge)))
    ∧ (mark = .boat → (b.mismatch c d = true ↔ ¬ (kind = 4 ∧ addr = b.boat.addr))))
  ∧ (∀ (s : State) (i : Instr) (c : AccessClass) (p : Place) (v : Word) (d : DescWords),
    channelCommand i = some (c, .write, p, v) →
    let acc := placeAccess s c .write p v
    Dispatches s acc p d →
    exec i s = .next (s.advance.finish
      (State.dispatchWrite { s.advance with replacement := s.replacement + 1 } acc p d)))
  ∧ ∀ (s : State) (a : BusAccess) (acc : Access) (words : List Word) (victim : Ix4) (n : Nat), 1 ≤ n →
    InFlight s .walk a → a.write = none → s.port.phase = .walk acc words victim → words.length = 7 →
    let ws := (s.readWord a.addr :: words).reverse
    let d := DescWords.ofList ws
    let p := s.placeOf acc
    let w6 := ws.getD 6 0
    let refused (t : State) (r : RefuseReason) (f : FaultCode) :=
      t.port = ⟨.idle, .errorAcknowledge⟩ ∧ Elsewhere none s t
      ∧ Reports s t (notice .descFault (some p.tube) (some p.channel) f.code 0 d.w0 0)
      ∧ (s.notices.buffer.length < 7 →
          { refusedNotice (some p.tube) (some p.channel) acc r with clock := t.clock } ∈ t.notices.buffer)
    Completes (.descWalk n) s fun t =>
      (checkWord d.toList ≠ ws.getD 7 0 → refused t .descCheck .check)
      ∧ (checkWord d.toList = ws.getD 7 0 → d.wellFormed = false → refused t .descCheck .form)
      ∧ (checkWord d.toList = ws.getD 7 0 → d.wellFormed = true → (s.binding.get p.tube).mismatch p.channel d = true →
          refused t .descMismatch .binding)
      ∧ (checkWord d.toList = ws.getD 7 0 → d.wellFormed = true → (s.binding.get p.tube).mismatch p.channel d = false →
          t.cacheEntry p (s.fillWay p victim) = ⟨true, p.tube, cacheTag p.channel, d, w6.getLsbD 1⟩
          ∧ (∀ q way, (cacheSet q.channel, way) ≠ (cacheSet p.channel, s.fillWay p victim) →
              t.cacheEntry q way = s.cacheEntry q way)
          ∧ Elsewhere (some p.tube) { s with cache := t.cache } t
          ∧ (w6.getLsbD 0 = false →
              t.port = ⟨.fillWriteBack acc (s.fillWay p victim) (w6.getLsbD 1), s.port.answer⟩)
          ∧ (w6.getLsbD 0 = true → ∀ r, s.stepRefusal acc p d = some r →
              Refuses s t (refusedNotice (some p.tube) (some p.channel) acc r))
          ∧ (w6.getLsbD 0 = true → s.stepRefusal acc p d = none → acc.direction = .write → w6.getLsbD 1 = false →
              t.port = ⟨.useWriteBack acc (s.fillWay p victim), s.port.answer⟩)
          ∧ (w6.getLsbD 0 = true → s.stepRefusal acc p d = none → acc.direction = .read →
              (d.kind = some .plain → t.port = s.readPort acc (d.addr + p.word.setWidth 20))
              ∧ (d.kind = some .zone ∨ d.kind = some .line ∨ d.kind = some .boat → t.port = s.readPort acc d.addr)
              ∧ (d.kind = some .tube →
                  t.port = ⟨.idle, .data (tubeWordOf (s.tube p.tube) p.word.toNat)⟩
                  ∧ t.tube p.tube = (
                    let x := s.tube p.tube
                    match p.word.toNat with
                    | 3 => { x with summary := ⟨false, false, false, false, false, false, false⟩ }
                    | 4 => if x.latchHeld = true then x
                      else { x with latchHeld := true, latchValue := x.gas.accumulator }
                    | 5 => { x with latchHeld := false }
                    | _ => x))
              ∧ (d.kind ≠ some .tube → t.tube p.tube = s.tube p.tube))
          ∧ (w6.getLsbD 0 = true → s.stepRefusal acc p d = none → acc.direction = .write → w6.getLsbD 1 = true →
              t = s.takeDue.finish (State.dispatchWrite
                { s.takeDue with bus := { s.bus with inFlight := none }, cache := t.cache } acc p d)
              ∧ (d.kind = some .plain → t.port = ⟨s.passPhase acc (d.addr + p.word.setWidth 20) false, s.port.answer⟩)))

/-- R19: a status write-back asks for w6 with U set: the one of a fill keeps W, the one of a first write sets it. When
it completes its word reaches the image. After a fill's the access goes on with steps 4 to 6; after a first write's
W_KNOWN is set, and a PLAIN write is passed to memory. -/
def Obligations.StatusWriteBackCompletes : Prop :=
  (∀ (s : State) (acc : Access) (way : Ix4),
    let p := s.placeOf acc
    let w6 : Addr := BitVec.ofNat 20 (((s.root.tubes.get p.tube).pointer.toNat * 16 + 32 + p.channel.toNat * 8 + 6))
    (∀ wBit, s.port.phase = .fillWriteBack acc way wBit →
      s.request .walk = some ⟨.walk, w6, some (if wBit = true then 3 else 1), false⟩)
    ∧ (s.port.phase = .useWriteBack acc way → s.request .walk = some ⟨.walk, w6, some 3, false⟩))
  ∧ ∀ (s : State) (a : BusAccess) (acc : Access) (way : Ix4) (v : Word), InFlight s .walk a → a.write = some v →
    s.mem.wf = true →
    let p := s.placeOf acc
    let d := (s.cacheEntry p way).words
    (∀ wBit, s.port.phase = .fillWriteBack acc way wBit →
      Completes .statusWriteBack s fun t =>
        (∀ x, t.readWord x = if x = a.addr then v else s.readWord x)
        ∧ Elsewhere (some p.tube) { s with mem := t.mem } t
        ∧ (∀ r, s.stepRefusal acc p d = some r → Refuses s t (refusedNotice (some p.tube) (some p.channel) acc r))
        ∧ (s.stepRefusal acc p d = none → acc.direction = .write → (s.cacheEntry p way).wKnown = false →
            t.port = ⟨.useWriteBack acc way, s.port.answer⟩))
    ∧ (s.port.phase = .useWriteBack acc way →
      Completes .statusWriteBack s fun t =>
        (∀ x, t.readWord x = if x = a.addr then v else s.readWord x)
        ∧ Elsewhere (some p.tube) { s with mem := t.mem, cache := t.cache } t
        ∧ t.cacheEntry p way = { s.cacheEntry p way with wKnown := true }
        ∧ (d.kind = some .plain → s.loader.phase = .ready →
            t.port = ⟨.pass acc (d.addr + p.word.setWidth 20) false, s.port.answer⟩))

/-- R10, R23: a PLAIN channel reads and writes memory at its address plus the word number. -/
def Obligations.PlainChannelTranslates : Prop :=
  (∀ (s : State) (c : AccessClass) (p : Place) (d : DescWords), d.kind = some .plain →
    Dispatches s (placeAccess s c .read p 0) p d →
    Completes (.plainRead c p) s fun t =>
      t.port = s.readPort (placeAccess s c .read p 0) (d.addr + p.word.setWidth 20)
      ∧ t.replacement = s.replacement + 1 ∧ Elsewhere none s t)
  ∧ (∀ (s : State) (c : AccessClass) (p : Place) (v : Word) (d : DescWords), d.kind = some .plain →
    Dispatches s (placeAccess s c .write p v) p d →
    Completes (.plainWrite c p v) s fun t =>
      t.port = ⟨.pass (placeAccess s c .write p v) (d.addr + p.word.setWidth 20) false, s.port.answer⟩
      ∧ t.replacement = s.replacement + 1 ∧ Elsewhere none s t)

/-- R23, R64, R192: a ZONE, LINE or BOAT channel reads its delivered address, a TUBE channel its words 0, 1, 2, 6 and
7 (`tubeWordOf` spells their fields and codes), which come by the row CHANNEL_READ too (the model's choice, log 7). -/
def Obligations.ChannelReadByKind : Prop :=
  ∀ (s : State) (c : AccessClass) (p : Place) (d : DescWords), Dispatches s (placeAccess s c .read p 0) p d →
    let x := s.tube p.tube
    Completes (.channelRead c p) s fun t =>
      t.replacement = s.replacement + 1
      ∧ (d.kind = some .zone ∨ d.kind = some .line ∨ d.kind = some .boat →
          t.port = s.readPort (placeAccess s c .read p 0) d.addr ∧ Elsewhere none s t)
      ∧ (d.kind = some .tube → p.word = 0 → t.port = ⟨.idle, .data (tubeWordOf x 0)⟩)
      ∧ (d.kind = some .tube → p.word = 1 → t.port = ⟨.idle, .data (tubeWordOf x 1)⟩)
      ∧ (d.kind = some .tube → p.word = 2 → t.port = ⟨.idle, .data (tubeWordOf x 2)⟩)
      ∧ (d.kind = some .tube → p.word = 6 → t.port = ⟨.idle, .data x.lastIssued⟩)
      ∧ (d.kind = some .tube → p.word = 7 → t.port = ⟨.idle, .data x.lastReleased⟩)
      ∧ (d.kind = some .tube → p.word = 0 ∨ p.word = 1 ∨ p.word = 2 ∨ p.word = 6 ∨ p.word = 7 → Elsewhere none s t)

/-! ## Shaped writes -/

/-- R26 to R29: what acceptance refuses, in order. A refusal takes no ticket. A queued write that both the mode and the
Service Monitor forbid is refused ABORTED (the model's choice, log 41). -/
def Obligations.ShapedWriteIsRefusedInOrder : Prop :=
  ∀ (s : State) (c : AccessClass) (p : Place) (v : Word) (d : DescWords), ShapedReaches s c p v d →
    let acc := placeAccess s c .write p v
    let queued := ∀ l, ¬ IsBypass s p.tube d v l
    ∀ r, (OwnedLine s p.tube d ∧ r = .owned
        ∨ ¬ OwnedLine s p.tube d ∧ ¬ InRange d v ∧ r = .range
        ∨ ¬ OwnedLine s p.tube d ∧ InRange d v ∧ queued ∧ (s.tube p.tube).mode.working = false ∧ r = .aborted
        ∨ ¬ OwnedLine s p.tube d ∧ InRange d v ∧ queued ∧ (s.tube p.tube).mode.working = true
            ∧ (∃ l, d.mark = .line l) ∧ d.reactive = true ∧ s.monitor.lapsed = true ∧ r = .inhibited) →
      Completes (.shapedWrite c p v) s fun t => RefusesTube s t acc p r ∧ Elsewhere (some p.tube) s t

/-- R30, R31, R94: a bypass write takes a ticket and removes the held entries of its line. With no held write, no run
and no waiting claim it sets the line's flow at once and changes no other gas record, but for the close of the last
open reactive line in PROCESS, which begins a clearing. -/
def Obligations.BypassWriteIsDeliveredAtOnce : Prop :=
  ∀ (s : State) (c : AccessClass) (p : Place) (v : Word) (d : DescWords) (l : Line), ShapedReaches s c p v d →
    ¬ OwnedLine s p.tube d → InRange d v → IsBypass s p.tube d v l → DeliveryOk s.delivery →
    let x := s.tube p.tube
    let closes := (x.gas.lines.get l).reactive = true ∧ v = 0 ∧ x.gas.atmosphere = .process
      ∧ ∀ m, m ≠ l → (x.gas.lines.get m).reactive = true → (x.gas.lines.get m).flow = 0
    Completes (.shapedWrite c p v) s fun t =>
      t.port = ⟨.idle, .acknowledge⟩ ∧ (t.tube p.tube).nextTicket = x.nextTicket + 1
      ∧ (t.tube p.tube).lastIssued = x.nextTicket ∧ Elsewhere (some p.tube) s t
      ∧ (∀ e ∈ (t.tube p.tube).queue, HeldEntry.forLine l e = false)
      ∧ (x.queue = [] → (t.tube p.tube).lastReleased = x.nextTicket)
      ∧ (x.queue = [] → s.budget.claims = [] →
          Reports s t (releasedNotice p.tube p.channel .bypass x.nextTicket v s.clock))
      ∧ (x.queue = [] → x.gas.run = none → closes → (t.tube p.tube).gas.atmosphere = .clearing)
      ∧ (x.queue = [] → x.gas.run = none → s.budget.claims = [] → ¬ closes →
          (t.tube p.tube).gas = { x.gas with lines := x.gas.lines.set l { x.gas.lines.get l with flow := v, devCounter := 0 } }
          ∧ t.underway (s.lineAddr p.tube l) = some v
          ∧ ∀ b, b ≠ s.lineAddr p.tube l → t.underway b = s.underway b)

/-- R30, R32, R33, R35 to R38, R44, R45, R54, R74: the release tests 1 to 5 in their order, with the throttles that act on
them and the gate of each kind of entry, and the claim each kind needs. A
new entry holds the write's ticket, channel, value, time and the parameters of its descriptor; held, it has its deadline
and hold timer, hold limit × 100 ms, or neither where the limit is 0. A queued write that is not released is held.
Behind other entries it joins the tail, its own channel's entry superseded; as head it stays with the first release test
that failed as its hold reason, or, where its claim has to wait, CLAIMING with reason CLAIM, its HELD notice before its
CLAIM_WAIT notice. A write that supersedes the head finds the next entry as head, examined, and an empty queue where
none is left: a superseded CLAIMING head's claim is withdrawn. -/
def Obligations.QueuedWriteIsHeld : Prop :=
  (∀ (s : State) (k : Tube) (e : HeldEntry),
    let x := s.tube k
    let size := 16 * 2 ^ s.notices.sizeCode
    let gas := x.gas.atmosphere
    let ring := s.notices.ringEnable = true
      ∧ size - 1 - ringDistance size s.notices.producer s.notices.consumer < s.notices.reserve
    let stale := s.notices.staleEnable = true ∧ s.scanner.stale = true
    let scrubber := s.budget.enable = true ∧ s.budget.throttle = true
    let gate : Prop := match e.kind with
      | .zone _ _ => x.boat.state = .outPos ∨ x.boat.state = .partialPos ∨ x.boat.state = .inPos
      | .line _ reactive purge _ =>
        (reactive = true ∧ (gas = .inert ∨ gas = .process) ∧ x.boat.state = .inPos ∧ x.ramp.thermal = .stable)
        ∨ (reactive = false ∧ (purge = false ∨ gas ≠ .purging ∧ gas ≠ .clearing))
      | .boat =>
        (x.boat.delivered.toNat < e.value.toNat ∧ (gas = .inert ∨ gas = .purging) ∧ x.ramp.thermal = .stable
          ∧ (x.ramp.zones.get .i0).delivered.toNat ≤ x.header.pushLimit)
        ∨ (e.value.toNat < x.boat.delivered.toNat ∧ (gas = .air ∨ gas = .inert ∨ gas = .purging)
          ∧ x.ramp.thermal = .stable)
        ∨ e.value = x.boat.delivered
    let raises : Prop := match e.kind with
      | .line l reactive _ _ => reactive = true ∧ (x.gas.lines.get l).flow.toNat < e.value.toNat
      | _ => False
    (x.mode ≠ .run → s.firstFailure k e = some .mode)
    ∧ (x.mode = .run → x.gapTimer ≠ none → s.firstFailure k e = some .gap)
    ∧ (x.mode = .run → x.gapTimer = none → ring ∨ stale → s.firstFailure k e = some .throttle)
    ∧ (x.mode = .run → x.gapTimer = none → ¬ (ring ∨ stale) → ¬ gate → s.firstFailure k e = some .gate)
    ∧ (x.mode = .run → x.gapTimer = none → ¬ (ring ∨ stale) → gate → raises → scrubber ∨ s.monitor.lapsed = true →
        s.firstFailure k e = some .inhibit)
    ∧ (x.mode = .run → x.gapTimer = none → ¬ (ring ∨ stale) → gate →
        ¬ (raises ∧ (scrubber ∨ s.monitor.lapsed = true)) → s.firstFailure k e = none))
  ∧ (∀ (x : TubeState) (e : HeldEntry),
    (∀ z step, e.kind = .zone z step →
      let up : Prop := ∃ y, (x.ramp.zones.get y).bound = true
        ∧ (x.ramp.zones.get y).delivered.toNat < (if y = z then e.value else (x.ramp.zones.get y).target).toNat
      (x.ramp.slotHeld = false → up → neededClaim x e = some (.heat, 1))
      ∧ (x.ramp.slotHeld = true ∨ ¬ up → neededClaim x e = none))
    ∧ (∀ l reactive purge weight, e.kind = .line l reactive purge weight →
      let added := (e.value.toNat + 99) / 100 * weight - ((x.gas.lines.get l).flow.toNat + 99) / 100 * weight
      neededClaim x e = if 0 < added then some (.exhaust, added) else none)
    ∧ (e.kind = .boat → neededClaim x e = none))
  ∧ (∀ (p : Place) (d : DescWords) (ticket v : Word) (now : Long),
    let e := newEntry p d ticket v now
    e.ticket = ticket ∧ e.channel = p.channel ∧ e.value = v ∧ e.acceptedAt = now ∧ e.state = .waiting ∧ e.claim = none
    ∧ e.deadline = none ∧ e.timer = none ∧ e.held = false
    ∧ (∀ z, d.mark = .zone z → e.kind = .zone z d.w5.toNat)
    ∧ (∀ l, d.mark = .line l → e.kind = .line l (d.w0.getLsbD 6) (d.w0.getLsbD 7) (d.w4.toNat % 256))
    ∧ (d.mark = .boat → e.kind = .boat)
    ∧ ∀ limit, e.hold limit = { e with
        held := true
        deadline := if limit = 0 then none else some (now + BitVec.ofNat 32 (limit * 100))
        timer := if limit = 0 then none else some (limit * 100) })
  ∧ ∀ (s : State) (c : AccessClass) (p : Place) (v : Word) (d : DescWords), ShapedReaches s c p v d →
    IsQueued s p.tube d v →
    let x := s.tube p.tube
    let e := newEntry p d x.nextTicket v s.clock
    let held := e.hold x.header.holdLimit
    Completes (.shapedWrite c p v) s fun t =>
      (t.tube p.tube).nextTicket = x.nextTicket + 1 ∧ (t.tube p.tube).lastIssued = x.nextTicket
      ∧ Elsewhere (some p.tube) s t
      ∧ (1 ≤ x.queue.length → x.queue.length < 8 → (∀ f ∈ x.queue, f.channel ≠ p.channel) →
          t.port = ⟨.idle, .acknowledge⟩ ∧ (t.tube p.tube).queue = x.queue ++ [held]
          ∧ (t.tube p.tube).gas = x.gas ∧ (t.tube p.tube).ramp = x.ramp ∧ (t.tube p.tube).boat = x.boat
          ∧ Reports s t (heldNotice p.tube e .behind x.queue.length))
      ∧ (∀ pre f post, x.queue = pre ++ f :: post → pre ≠ [] → x.queue.length ≤ 8 → f.channel = p.channel →
          f.state = .waiting → (∀ g ∈ pre ++ post, g.channel ≠ p.channel) →
          t.port = ⟨.idle, .acknowledge⟩ ∧ (t.tube p.tube).queue = pre ++ post ++ [held]
          ∧ Reports s t (supersededNotice p.tube f .queued x.nextTicket))
      ∧ (∀ r, x.queue = [] → s.firstFailure p.tube e = some r →
          t.port = ⟨.idle, .acknowledge⟩ ∧ (t.tube p.tube).queue = [held]
          ∧ (t.tube p.tube).lastReleased = x.lastReleased ∧ Reports s t (heldNotice p.tube e r 0))
      ∧ (∀ pool amount, x.queue = [] → s.firstFailure p.tube e = none → neededClaim x e = some (pool, amount) →
          (∀ old ∈ s.budget.claims, old.fresh = false) →
          let joined (fresh : Bool) : Budget := { s.budget with
            claims := s.budget.claims
              ++ [⟨p.tube, pool, amount, .process, s.budget.joinCounter, .entry x.nextTicket p.channel, fresh⟩]
            joinCounter := s.budget.joinCounter + 1 }
          (∀ q front, (joined true).front q = some front → s.freeOf q < front.amount) →
          t.port = ⟨.idle, .acknowledge⟩ ∧ t.budget = joined false
          ∧ (t.tube p.tube).queue = [{ held with state := .claiming, claim := some (pool, amount) }]
          ∧ (t.tube p.tube).lastReleased = x.lastReleased
          ∧ (s.notices.buffer.length < 7 → t.notices.buffer = s.notices.buffer ++
              [{ heldNotice p.tube e .claim 0 with clock := s.clock },
               { notice .claimWait (some p.tube) (some p.channel)
                  (pool.code + Priority.process.code * 2 + (Origin.entry x.nextTicket p.channel).code * 8) x.nextTicket
                  (wordOf amount) (wordOf (s.freeOf pool)) with clock := s.clock }]))
      ∧ (∀ f r, x.queue = [f] → f.channel = p.channel → s.firstFailure p.tube e = some r →
          f.state = .waiting
            ∨ f.state = .claiming ∧ (∃ old ticket channel, s.budget.claims = [old] ∧ old.tube = p.tube
              ∧ old.origin = .entry ticket channel) →
          t.port = ⟨.idle, .acknowledge⟩ ∧ (t.tube p.tube).queue = [held]
          ∧ (t.tube p.tube).lastReleased = x.lastReleased ∧ (f.state = .claiming → t.budget.claims = [])
          ∧ Reports s t (supersededNotice p.tube f .queued x.nextTicket)
          ∧ (s.notices.buffer.length < 7 → { heldNotice p.tube e r 0 with clock := t.clock } ∈ t.notices.buffer))
      ∧ (∀ f g post, x.queue = f :: g :: post → x.queue.length ≤ 8 → f.channel = p.channel → f.state = .waiting →
          g.state = .waiting → (∀ h ∈ g :: post, h.channel ≠ p.channel) →
          (∀ r, s.firstFailure p.tube g = some r →
            t.port = ⟨.idle, .acknowledge⟩ ∧ (t.tube p.tube).queue = g :: post ++ [held]
            ∧ (t.tube p.tube).lastReleased = x.lastReleased
            ∧ Reports s t (supersededNotice p.tube f .queued x.nextTicket)
            ∧ (s.notices.buffer.length < 7 →
                { heldNotice p.tube e .behind (post.length + 1) with clock := t.clock } ∈ t.notices.buffer))
          ∧ (∀ r, post = [] → s.firstFailure p.tube g = none → g.kind = .boat → g.value = x.boat.delivered →
              x.boat.state ≠ .moving → s.firstFailure p.tube e = some r →
              t.port = ⟨.idle, .acknowledge⟩ ∧ (t.tube p.tube).queue = [held]
              ∧ (t.tube p.tube).lastReleased = g.ticket
              ∧ Reports s t (supersededNotice p.tube f .queued x.nextTicket)))

/-- R33, R37, R42, R74 to R78, R127 to R131: a queued write to an empty queue whose release tests hold (spelled out, as the claims
are, in `QueuedWriteIsHeld`) is released within its acceptance, where it needs no claim or where no claim waits and the
pool has room. A released ZONE entry sets the target and
step size and, by the direction that gives, starts a ramp, turns or ends one, or leaves the tube at rest, with the heat
slot kept, taken or freed. A released BOAT entry starts the boat, and leaves a STALLED one STALLED with its value as target (R52;
the model's choice, log 35); a released LINE open of a tube with no run sets the flow, turns INERT to PROCESS for a
reactive line, and starts the release gap. -/
def Obligations.QueuedWriteIsReleasedAtOnce : Prop :=
  ∀ (s : State) (c : AccessClass) (p : Place) (v : Word) (d : DescWords), ShapedReaches s c p v d →
    IsQueued s p.tube d v → (s.tube p.tube).queue = [] →
    let x := s.tube p.tube
    let e := newEntry p d x.nextTicket v s.clock
    s.firstFailure p.tube e = none →
    (neededClaim x e = none
      ∨ s.budget.claims = [] ∧ ∃ pool amount, neededClaim x e = some (pool, amount) ∧ amount ≤ s.freeOf pool) →
    Completes (.shapedWrite c p v) s fun t =>
      t.port = ⟨.idle, .acknowledge⟩ ∧ (t.tube p.tube).nextTicket = x.nextTicket + 1
      ∧ (t.tube p.tube).lastIssued = x.nextTicket ∧ (t.tube p.tube).lastReleased = x.nextTicket
      ∧ (t.tube p.tube).queue = [] ∧ Elsewhere (some p.tube) s t
      ∧ Reports s t (releasedNotice p.tube p.channel .immediate x.nextTicket v s.clock)
      ∧ (d.mark = .boat → x.boat.state ≠ .moving → x.boat.state ≠ .stalled → v ≠ x.boat.delivered →
          (t.tube p.tube).boat = { x.boat with
            target := v, state := .moving
            direction := if x.boat.delivered.toNat < v.toNat then .inward else .outward
            motionTimer := some x.header.motionPeriod, stall := 0, expiries := 0
            lastTicket := x.nextTicket, lastChannel := p.channel })
      ∧ (d.mark = .boat → x.boat.state = .stalled → v ≠ x.boat.delivered →
          (t.tube p.tube).boat = { x.boat with target := v, lastTicket := x.nextTicket, lastChannel := p.channel })
      ∧ (∀ z, d.mark = .zone z → x.ramp.thermal = .stable →
          directionOf (withTarget x.ramp.zones z v) = .up →
          (t.tube p.tube).ramp = { x.ramp with
            zones := x.ramp.zones.set z { x.ramp.zones.get z with target := v, step := d.w5.toNat }
            thermal := .ramping, cause := .none, direction := .up, settleTimer := none, retry := 0
            stepTimer := some x.header.stepPeriod, slotHeld := true, lastTicket := x.nextTicket })
      ∧ (∀ z, d.mark = .zone z →
          let zones := x.ramp.zones.set z { x.ramp.zones.get z with target := v, step := d.w5.toNat }
          let up : Prop := ∃ y, (zones.get y).bound = true
            ∧ (zones.get y).delivered.toNat < (zones.get y).target.toNat
          let down : Prop := ∃ y, (zones.get y).bound = true
            ∧ (zones.get y).target.toNat < (zones.get y).delivered.toNat
          let taken : Ramp := { x.ramp with zones := zones, lastTicket := x.nextTicket }
          (x.ramp.thermal = .settling ∨ x.ramp.thermal = .stable →
            (up → (t.tube p.tube).ramp = { taken with
              thermal := .ramping, cause := .none, direction := .up, settleTimer := none, retry := 0
              stepTimer := some x.header.stepPeriod, slotHeld := true })
            ∧ (¬ up → down → (t.tube p.tube).ramp = { taken with
              thermal := .ramping, cause := .none, direction := .down, settleTimer := none, retry := 0
              stepTimer := some x.header.stepPeriod })
            ∧ (¬ up → ¬ down → (t.tube p.tube).ramp = taken))
          ∧ (x.ramp.thermal = .ramping ∨ x.ramp.thermal = .held →
            (up → (t.tube p.tube).ramp = { taken with direction := .up, slotHeld := true })
            ∧ (¬ up → down → (t.tube p.tube).ramp = { taken with direction := .down, slotHeld := false })
            ∧ (¬ up → ¬ down → (t.tube p.tube).ramp = { taken with
              thermal := .settling, cause := .none, direction := .none, stepTimer := none, retry := 0
              settleTimer := some x.header.settlePeriod, slotHeld := false })))
      ∧ (∀ l, d.mark = .line l → x.gas.run = none → (x.gas.lines.get l).flow = 0 →
          d.weight = (x.gas.lines.get l).weight →
          (t.tube p.tube).gas = { x.gas with
            lines := x.gas.lines.set l { x.gas.lines.get l with flow := v, devCounter := 0 }
            atmosphere := if (x.gas.lines.get l).reactive = true ∧ x.gas.atmosphere = .inert then .process
              else x.gas.atmosphere }
          ∧ (t.tube p.tube).gapTimer = if x.header.releaseGap = 0 then none else some x.header.releaseGap)

/-- R34: a queued write that finds eight entries and none of its own channel is refused QUEUE_FULL; its ticket is
consumed, its notice carries it, and the queue and every held entry are left as they were. A write whose channel has
an entry in a full queue finds room. -/
def Obligations.FullQueueRefusesTheWrite : Prop :=
  ∀ (s : State) (c : AccessClass) (p : Place) (v : Word) (d : DescWords), ShapedReaches s c p v d →
    IsQueued s p.tube d v →
    let x := s.tube p.tube
    (8 ≤ x.queue.length → (∀ f ∈ x.queue, f.channel ≠ p.channel) →
      Completes (.shapedWrite c p v) s fun t =>
        Refuses s t (notice .refused (some p.tube) (some p.channel) (RefuseReason.queueFull.code + 32) x.nextTicket v 0)
        ∧ t.tube p.tube = { x with
            lastIssued := x.nextTicket, nextTicket := x.nextTicket + 1
            summary := { x.summary with refusedAny := true } }
        ∧ Elsewhere (some p.tube) s t)
    ∧ (x.queue.length = 8 → (∃ f ∈ x.queue, f.channel = p.channel) →
      Completes (.shapedWrite c p v) s fun t =>
        t.port = ⟨.idle, .acknowledge⟩ ∧ (t.tube p.tube).lastIssued = x.nextTicket ∧ Elsewhere (some p.tube) s t)

/-- R36, R40 to R43, R45: the expiry of a held entry removes it with its notice (of a CLAIMING one, where no other claim is
granted with the withdrawal). The release-gap expiry stops the gap timer and examines the head: in RUN a WAITING head whose
tests then hold (spelled out in `QueuedWriteIsHeld`) is released, at once or with its claim granted at once, and one whose
tests fail stays. An expiry first lets the time its timer has left pass (the model's choice, log 5). -/
def Obligations.QueueTimersExpire : Prop :=
  (∀ (s : State) (k : Tube) (ticket : Word) (e : HeldEntry) (r : Nat),
    (s.tube k).entryOf ticket = some e → e.timer = some r →
    let ahead := ((s.tube k).queue.takeWhile fun f => f.ticket != ticket).length
    Completes (.entryExpiry k ticket) s fun t =>
      t.clock = s.clock + BitVec.ofNat 32 r ∧ (∀ f ∈ (t.tube k).queue, f.ticket ≠ ticket)
      ∧ (t.tube k).summary.expiredAny = true ∧ (t.tube k).mode = (s.tube k).mode
      ∧ (e.state = .waiting →
          Reports s t (notice .expired (some k) (some e.channel) 1 e.ticket e.value (BitVec.ofNat 16 ahead)))
      ∧ (e.state = .claiming →
          (∀ c ∈ s.budget.claims, ¬ (c.tube = k ∧ ∃ n ch, c.origin = .entry n ch) →
            c.fresh = false ∧ s.freeOf c.pool < c.amount) →
          Reports s t (notice .expired (some k) (some e.channel) 2 e.ticket e.value (BitVec.ofNat 16 ahead)))
      ∧ ((s.tube k).mode ≠ .run →
          (t.tube k).queue.map (·.ticket) = ((s.tube k).queue.map (·.ticket)).filter (fun n => n != ticket)
          ∧ (t.tube k).lastReleased = (s.tube k).lastReleased)
      ∧ Elsewhere (some k) (s.elapse r) t)
  ∧ (∀ (s : State) (k : Tube) (r : Nat), (s.tube k).gapTimer = some r →
    Completes (.releaseGapExpiry k) s fun t =>
      t.clock = s.clock + BitVec.ofNat 32 r ∧ (t.tube k).mode = (s.tube k).mode
      ∧ ((s.tube k).mode ≠ .run ∨ (s.tube k).queue = [] → (t.tube k).gapTimer = none
          ∧ (t.tube k).queue.map (·.ticket) = (s.tube k).queue.map (·.ticket)
          ∧ (t.tube k).lastReleased = (s.tube k).lastReleased)
      ∧ (∀ e rest, (s.tube k).mode = .run → (s.tube k).queue = e :: rest → e.state = .waiting →
          let u := s.elapse r
          let w := u.modTube k fun x => { x with gapTimer := none }
          w.firstFailure k e = none →
          (neededClaim (s.tube k) e = none
            ∨ s.budget.claims = [] ∧ ∃ pool amount, neededClaim (s.tube k) e = some (pool, amount)
              ∧ amount ≤ s.freeOf pool) →
          Reports s t (notice .released (some k) (some e.channel) (if e.held = true then 3 else 2) e.ticket e.value
            (e.acceptedAt.setWidth 16))
          ∧ (t.tube k).queue.map (·.ticket) <:+ rest.map (·.ticket)
          ∧ (rest = [] → (t.tube k).queue = [] ∧ (t.tube k).lastReleased = e.ticket))
      ∧ (∀ e rest reason, (s.tube k).mode = .run → (s.tube k).queue = e :: rest → e.state = .waiting →
          ((s.elapse r).modTube k fun x => { x with gapTimer := none }).firstFailure k e = some reason →
          (t.tube k).gapTimer = none ∧ (t.tube k).queue.map (·.ticket) = (s.tube k).queue.map (·.ticket)
          ∧ (t.tube k).lastReleased = (s.tube k).lastReleased)
      ∧ Elsewhere (some k) (s.elapse r) t)

/-! ## The MANUAL path -/

/-- R68: what the MANUAL path refuses, in order. -/
def Obligations.ManualWriteIsRefusedInOrder : Prop :=
  ∀ (s : State) (c : AccessClass) (p : Place) (v : Word) (d : DescWords), d.manual = true →
    (d.kind = some .zone ∨ d.kind = some .line ∨ d.kind = some .boat) →
    let acc := placeAccess s c .write p v
    Dispatches s acc p d →
    ∀ r, ((c = .operator ∨ (s.tube p.tube).mode ≠ .aborted) ∧ r = .manualDenied
        ∨ c = .service ∧ (s.tube p.tube).mode = .aborted ∧ ¬ InRange d v ∧ r = .range
        ∨ c = .service ∧ (s.tube p.tube).mode = .aborted ∧ InRange d v ∧ r = .budget
            ∧ ∃ l, d.mark = .line l ∧ ((s.tube p.tube).gas.lines.get l).flow.toNat < v.toNat
              ∧ 0 < addedDraw v.toNat ((s.tube p.tube).gas.lines.get l).flow.toNat d.weight
              ∧ ((∃ k ∈ s.budget.claims, k.pool = .exhaust)
                ∨ s.freeUnits < addedDraw v.toNat ((s.tube p.tube).gas.lines.get l).flow.toNat d.weight)) →
      Completes (.manualWrite c p v) s fun t => RefusesTube s t acc p r ∧ Elsewhere (some p.tube) s t

/-- R69 to R71: a taken MANUAL write sets target and delivered value of its zone or boat, or its line's flow, at once,
and takes no ticket. -/
def Obligations.ManualWriteIsApplied : Prop :=
  ∀ (s : State) (p : Place) (v : Word) (d : DescWords), d.manual = true →
    (d.kind = some .zone ∨ d.kind = some .line ∨ d.kind = some .boat) →
    Dispatches s (placeAccess s .service .write p v) p d → (s.tube p.tube).mode = .aborted → InRange d v →
    DeliveryOk s.delivery → s.budget.claims = [] →
    let x := s.tube p.tube
    Completes (.manualWrite .service p v) s fun t =>
      (t.tube p.tube).nextTicket = x.nextTicket ∧ (t.tube p.tube).queue = x.queue
      ∧ (t.tube p.tube).summary.boatArrived = x.summary.boatArrived ∧ Elsewhere (some p.tube) s t
      ∧ (∀ z, d.mark = .zone z →
          t.port = ⟨.idle, .acknowledge⟩
          ∧ (t.tube p.tube).ramp.zones.get z = { x.ramp.zones.get z with target := v, delivered := v }
          ∧ (t.tube p.tube).ramp.thermal = (if x.ramp.thermal = .stable then .settling else x.ramp.thermal)
          ∧ (x.ramp.thermal = .settling ∨ x.ramp.thermal = .stable →
              (t.tube p.tube).ramp.settleTimer = some x.header.settlePeriod)
          ∧ (x.ramp.thermal = .settling → (t.tube p.tube).ramp.retry = 0)
          ∧ (t.tube p.tube).gas = x.gas ∧ (t.tube p.tube).boat = x.boat
          ∧ t.underway (s.zoneAddr p.tube z) = some v
          ∧ ∀ b, b ≠ s.zoneAddr p.tube z → t.underway b = s.underway b)
      ∧ (d.mark = .boat →
          t.port = ⟨.idle, .acknowledge⟩
          ∧ (t.tube p.tube).boat = { x.boat with
              target := v, delivered := v, state := positionState x.header.inThreshold v, direction := .none
              motionTimer := none, stall := 0 }
          ∧ (t.tube p.tube).gas = x.gas ∧ (t.tube p.tube).ramp = x.ramp
          ∧ t.underway (s.binding.get p.tube).boat.addr = some v
          ∧ ∀ b, b ≠ (s.binding.get p.tube).boat.addr → t.underway b = s.underway b)
      ∧ (∀ l, d.mark = .line l → x.gas.run = none → d.weight = (x.gas.lines.get l).weight →
          (v.toNat ≤ (x.gas.lines.get l).flow.toNat
            ∨ addedDraw v.toNat (x.gas.lines.get l).flow.toNat d.weight ≤ s.freeUnits) →
          t.port = ⟨.idle, .acknowledge⟩
          ∧ (t.tube p.tube).gas
              = { x.gas with lines := x.gas.lines.set l { x.gas.lines.get l with flow := v, devCounter := 0 } }
          ∧ (t.tube p.tube).ramp = x.ramp ∧ (t.tube p.tube).boat = x.boat
          ∧ t.underway (s.lineAddr p.tube l) = some v
          ∧ ∀ b, b ≠ s.lineAddr p.tube l → t.underway b = s.underway b)

/-! ## Tube Control -/

/-- R57, R98, R127 to R131: PURGE is taken in RUN or HOLD with atmosphere AIR or INERT, and starts a purge run; else
refused STATE. With no held write and no other claim the run carries its flow at once where the pool has room,
placed for delivery, and else its claim waits and nothing is placed. -/
def Obligations.PurgeStartsARun : Prop :=
  ∀ (s : State) (c : AccessClass) (k : Tube) (ch : Six), CommandReaches s c k ch 1 →
    let x := s.tube k
    let line := x.gas.lines.get x.header.purgeLine
    let allowed := x.mode.working = true ∧ (x.gas.atmosphere = .air ∨ x.gas.atmosphere = .inert)
    Completes (.tubePurge c k ch) s fun t =>
      Elsewhere (some k) s t
      ∧ (allowed →
          t.port = ⟨.idle, .acknowledge⟩ ∧ (t.tube k).mode = x.mode ∧ (t.tube k).gas.atmosphere = .purging
          ∧ (t.tube k).gas.accumulator = 0 ∧ (t.tube k).gas.limitTimer = some (x.header.purgeLimit * 1000)
          ∧ (∃ phase, (t.tube k).gas.run = some ⟨.purge, x.header.purgeFlow, .purge, x.header.purgeVolume * 1000, phase, 0, 0⟩)
          ∧ (x.queue = [] → s.budget.claims = [] →
              drawOf x.header.purgeFlow.toNat line.weight - line.draw ≤ s.freeUnits →
              (t.tube k).gas.run = some ⟨.purge, x.header.purgeFlow, .purge, x.header.purgeVolume * 1000, .flowing, 0, 0⟩
              ∧ (t.tube k).gas.sampleTimer = some x.header.samplePeriod
              ∧ ((t.tube k).gas.lines.get x.header.purgeLine).flow = x.header.purgeFlow
              ∧ (DeliveryOk s.delivery →
                  t.underway (s.lineAddr k x.header.purgeLine) = some x.header.purgeFlow
                  ∧ ∀ b, b ≠ s.lineAddr k x.header.purgeLine → t.underway b = s.underway b))
          ∧ (x.queue = [] → s.budget.claims = [] →
              s.freeUnits < drawOf x.header.purgeFlow.toNat line.weight - line.draw →
              (t.tube k).gas.sampleTimer = none ∧ (t.tube k).gas.lines = x.gas.lines
              ∧ t.budget.claims = [⟨k, .exhaust, drawOf x.header.purgeFlow.toNat line.weight - line.draw, .purge,
                  s.budget.joinCounter, .purge, false⟩]
              ∧ (DeliveryOk s.delivery → ∀ b, t.underway b = s.underway b)))
      ∧ (¬ allowed → RefusesTube s t (placeAccess s c .write ⟨k, ch, 0⟩ 1) ⟨k, ch, 0⟩ .state)

/-- R58: HOLD is taken in RUN, where it stops ramp and boat and leaves gas and queue, and in HOLD, where it changes
nothing; else refused STATE. -/
def Obligations.HoldStopsRampAndBoat : Prop :=
  ∀ (s : State) (c : AccessClass) (k : Tube) (ch : Six), CommandReaches s c k ch 2 →
    let x := s.tube k
    Completes (.tubeHold c k ch) s fun t =>
      Elsewhere (some k) s t
      ∧ (x.mode = .run → t.port = ⟨.idle, .acknowledge⟩ ∧ t.tube k = { x with
          mode := .hold
          ramp := if x.ramp.thermal = .ramping ∨ (x.ramp.thermal = .held ∧ x.ramp.cause = .lag) then
              { x.ramp with thermal := .held, cause := .hold, stepTimer := none }
            else x.ramp
          boat := if x.boat.state = .moving then { x.boat with state := .paused, motionTimer := none } else x.boat })
      ∧ (x.mode = .hold → t.port = ⟨.idle, .acknowledge⟩ ∧ t.tube k = x)
      ∧ (x.mode = .aborting ∨ x.mode = .aborted →
          RefusesTube s t (placeAccess s c .write ⟨k, ch, 0⟩ 2) ⟨k, ch, 0⟩ .state)

/-- R59, R60: RESUME from HOLD restarts ramp and boat; from ABORTED it is taken while the trip latch is clear, and
refused TRIPPED while it is set; in RUN it changes nothing; in ABORTING it is refused STATE. -/
def Obligations.ResumeRestartsTheTube : Prop :=
  ∀ (s : State) (c : AccessClass) (k : Tube) (ch : Six), CommandReaches s c k ch 3 →
    let x := s.tube k
    let acc := placeAccess s c .write ⟨k, ch, 0⟩ 3
    Completes (.tubeResume c k ch) s fun t =>
      Elsewhere (some k) s t
      ∧ (x.mode = .run → t.port = ⟨.idle, .acknowledge⟩ ∧ t.tube k = x)
      ∧ (x.mode = .hold → t.port = ⟨.idle, .acknowledge⟩ ∧ (t.tube k).mode = .run)
      ∧ (x.mode = .hold → x.queue = [] → t.tube k = { x with
          mode := .run
          ramp := if x.ramp.thermal = .held ∧ x.ramp.cause = .hold then
              { x.ramp with thermal := .ramping, cause := .none, stepTimer := some x.header.stepPeriod }
            else x.ramp
          boat := if x.boat.state = .paused then
              { x.boat with state := .moving, motionTimer := some x.header.motionPeriod }
            else x.boat })
      ∧ (x.mode = .aborting → RefusesTube s t acc ⟨k, ch, 0⟩ .state)
      ∧ (x.mode = .aborted → s.abort.latch = true → RefusesTube s t acc ⟨k, ch, 0⟩ .tripped)
      ∧ (x.mode = .aborted → s.abort.latch = false →
          t.port = ⟨.idle, .acknowledge⟩ ∧ (t.tube k).mode = .run ∧ (t.tube k).abortCause = .none)
      ∧ (x.mode = .aborted → s.abort.latch = false → x.queue = [] →
          (x.ramp.thermal = .held → x.ramp.cause = .abort →
            (t.tube k).ramp.thermal = .settling ∧ (t.tube k).ramp.direction = .none
            ∧ (t.tube k).ramp.settleTimer = some x.header.settlePeriod
            ∧ ∀ z, (t.tube k).ramp.zones.get z
                = { x.ramp.zones.get z with target := (x.ramp.zones.get z).delivered })
          ∧ (x.ramp.thermal = .settling ∨ x.ramp.thermal = .stable → (t.tube k).ramp = x.ramp)
          ∧ (x.boat.state = .stalled →
            (t.tube k).boat.state = positionState x.header.inThreshold x.boat.delivered ∧ (t.tube k).boat.stall = 0)
          ∧ (x.boat.state.stationary = true → (t.tube k).boat = x.boat))

/-- R61, R140: ABORT is taken in every mode by either class, and hands an abort with cause COMMAND to the Abort
Controller, where it waits in order with the channel written and the class as its details. -/
def Obligations.AbortCommandHandsOverARequest : Prop :=
  ∀ (s : State) (c : AccessClass) (k : Tube) (ch : Six), CommandReaches s c k ch 4 →
    Completes (.tubeAbort c k ch) s fun t =>
      t.port = ⟨.idle, .acknowledge⟩
      ∧ t.abort = { s.abort with requests := s.abort.requests
          ++ [⟨k, .command, some ch, ch.setWidth 16, wordOf (AccessClass.code c)⟩] }
      ∧ t.tube k = s.tube k ∧ Elsewhere none s t

/-- R62, R95: VENT is taken in RUN or HOLD with atmosphere INERT and the boat OUT, and closes every bound line, the 0
of each open one placed for delivery where no claim waits; else refused STATE. (With a held write or a run the order of the closes is the model's choice, log 37, and nothing is said
of it here.) -/
def Obligations.VentClosesEveryLine : Prop :=
  ∀ (s : State) (c : AccessClass) (k : Tube) (ch : Six), CommandReaches s c k ch 5 →
    let x := s.tube k
    let allowed := x.mode.working = true ∧ x.gas.atmosphere = .inert ∧ x.boat.state = .outPos
    Completes (.tubeVent c k ch) s fun t =>
      Elsewhere (some k) s t
      ∧ (allowed → t.port = ⟨.idle, .acknowledge⟩ ∧ (t.tube k).mode = x.mode)
      ∧ (allowed → x.queue = [] → x.gas.run = none →
          (t.tube k).gas = { x.gas with
            atmosphere := .air
            lines := x.gas.lines.map fun l => { l with flow := if l.bound then 0 else l.flow, devCounter := 0 } }
          ∧ (t.tube k).ramp = x.ramp ∧ (t.tube k).boat = x.boat)
      ∧ (allowed → x.queue = [] → x.gas.run = none → s.budget.claims = [] → DeliveryOk s.delivery →
          let closed (l : Line) : Prop := (x.gas.lines.get l).bound = true ∧ (x.gas.lines.get l).flow ≠ 0
          (∀ l, closed l → t.underway (s.lineAddr k l) = some 0)
          ∧ ∀ b, (∀ l, closed l → b ≠ s.lineAddr k l) → t.underway b = s.underway b)
      ∧ (¬ allowed → RefusesTube s t (placeAccess s c .write ⟨k, ch, 0⟩ 5) ⟨k, ch, 0⟩ .state)

/-- R46, R56, R63: FLUSH empties the queue of a tube in RUN or HOLD, with one notice for each entry where the head
does not claim, and is refused STATE in the other modes; a value that names no tube command is refused BAD_COMMAND. -/
def Obligations.FlushAndUnknownCommands : Prop :=
  (∀ (s : State) (c : AccessClass) (k : Tube) (ch : Six), CommandReaches s c k ch 6 →
    let x := s.tube k
    Completes (.tubeFlush c k ch) s fun t =>
      Elsewhere (some k) s t
      ∧ (x.mode.working = true →
          t.port = ⟨.idle, .acknowledge⟩ ∧ (t.tube k).queue = [] ∧ (t.tube k).mode = x.mode)
      ∧ (x.mode.working = true → (∀ e ∈ x.queue, e.state = .waiting) →
          t.tube k = { x with queue := [] }
          ∧ ∀ n e, x.queue[n]? = some e → s.notices.buffer.length + n < 8 →
              { notice .flushed (some k) (some e.channel) FlushOrigin.command.code e.ticket e.value (wordOf n) with
                clock := t.clock } ∈ t.notices.buffer)
      ∧ (x.mode.working = false → RefusesTube s t (placeAccess s c .write ⟨k, ch, 0⟩ 6) ⟨k, ch, 0⟩ .state))
  ∧ (∀ (s : State) (c : AccessClass) (k : Tube) (ch : Six) (v : Word), v = 0 ∨ 6 < v.toNat → CommandReaches s c k ch v →
    Completes (.tubeCommandUnknown c k ch v) s fun t =>
      RefusesTube s t (placeAccess s c .write ⟨k, ch, 0⟩ v) ⟨k, ch, 0⟩ .badCommand ∧ Elsewhere (some k) s t)

/-- R65, R66, R192: a read of the event summary returns its flags and clears all seven; reads of w4 and w5 go through
the purge accumulator read latch. -/
def Obligations.SummaryAndLatchReads : Prop :=
  (∀ (s : State) (c : AccessClass) (k : Tube) (ch : Six), TubeReadReaches s c k ch 3 →
    let f := (s.tube k).summary
    Completes (.summaryRead c k ch) s fun t =>
      t.port = ⟨.idle, .data (wordOf (flagBit f.rampDone 0 + flagBit f.boatArrived 1 + flagBit f.purgeDone 2
        + flagBit f.clearDone 3 + flagBit f.abortEnd 4 + flagBit f.expiredAny 5 + flagBit f.refusedAny 6))⟩
      ∧ t.tube k = { s.tube k with summary := ⟨false, false, false, false, false, false, false⟩ }
      ∧ Elsewhere (some k) s t)
  ∧ (∀ (s : State) (c : AccessClass) (k : Tube) (ch : Six), TubeReadReaches s c k ch 4 →
    let x := s.tube k
    Completes (.purgeLatchLowRead c k ch) s fun t =>
      Elsewhere (some k) s t
      ∧ (x.latchHeld = false → t.port = ⟨.idle, .data (Long.low x.gas.accumulator)⟩
          ∧ t.tube k = { x with latchHeld := true, latchValue := x.gas.accumulator })
      ∧ (x.latchHeld = true → t.port = ⟨.idle, .data (Long.low x.latchValue)⟩ ∧ t.tube k = x))
  ∧ (∀ (s : State) (c : AccessClass) (k : Tube) (ch : Six), TubeReadReaches s c k ch 5 →
    let x := s.tube k
    Completes (.purgeLatchHighRead c k ch) s fun t =>
      Elsewhere (some k) s t
      ∧ (x.latchHeld = false → t.port = ⟨.idle, .data (Long.high x.gas.accumulator)⟩ ∧ t.tube k = x)
      ∧ (x.latchHeld = true → t.port = ⟨.idle, .data (Long.high x.latchValue)⟩
          ∧ t.tube k = { x with latchHeld := false }))

/-! ## Expiries -/

/-- R79 to R82: a step expiry moves no zone while one lags, and else every bound zone off its target by the smaller of
its step size and the distance, each new value placed for delivery. With no working head the thermal state follows. The time the timer has left passes
first (the model's choice, log 5). -/
def Obligations.StepExpiryMovesTheZones : Prop :=
  ∀ (s : State) (k : Tube) (r : Nat), (s.tube k).ramp.stepTimer = some r →
    let u := s.elapse r
    let x := u.tube k
    let lags (z : Zone) := x.header.lagLimit ≠ 0 ∧ (x.ramp.zones.get z).bound = true
      ∧ (x.ramp.zones.get z).delivered ≠ (x.ramp.zones.get z).target ∧ (s.zoneSample k z).sampled = true
      ∧ x.header.lagLimit < distance (s.zoneSample k z).value.toNat (x.ramp.zones.get z).delivered.toNat
    let quiet := x.mode ≠ .run ∨ x.queue = []
    let moved (z : Zone) := (x.ramp.zones.get z).moved
    let moves (z : Zone) : Prop :=
      (x.ramp.zones.get z).bound = true ∧ (x.ramp.zones.get z).delivered ≠ (x.ramp.zones.get z).target
    let zones' := Five.ofFn fun z =>
      if (x.ramp.zones.get z).bound = true ∧ (x.ramp.zones.get z).delivered ≠ (x.ramp.zones.get z).target then
        { x.ramp.zones.get z with delivered := moved z }
      else x.ramp.zones.get z
    Completes (.stepExpiry k) s fun t =>
      t.clock = s.clock + BitVec.ofNat 32 r ∧ Elsewhere (some k) u t ∧ (t.tube k).mode = x.mode
      ∧ (∀ z, (x.ramp.zones.get z).delivered.toNat ≤ (x.ramp.zones.get z).target.toNat →
          (moved z).toNat = (x.ramp.zones.get z).delivered.toNat
            + min (x.ramp.zones.get z).step
              ((x.ramp.zones.get z).target.toNat - (x.ramp.zones.get z).delivered.toNat))
      ∧ (∀ z, (x.ramp.zones.get z).target.toNat < (x.ramp.zones.get z).delivered.toNat →
          (moved z).toNat = (x.ramp.zones.get z).delivered.toNat
            - min (x.ramp.zones.get z).step
              ((x.ramp.zones.get z).delivered.toNat - (x.ramp.zones.get z).target.toNat))
      ∧ ((∃ z, lags z) →
          (∀ z, ((t.tube k).ramp.zones.get z).delivered = (x.ramp.zones.get z).delivered)
          ∧ (quiet → (t.tube k).ramp.stepTimer = some x.header.stepPeriod
              ∧ (t.tube k).ramp.direction = x.ramp.direction
              ∧ (x.ramp.thermal = .ramping → (t.tube k).ramp.thermal = .held ∧ (t.tube k).ramp.cause = .lag)
              ∧ (x.ramp.thermal ≠ .ramping → (t.tube k).ramp.thermal = x.ramp.thermal)
              ∧ (DeliveryOk s.delivery → ∀ b, t.underway b = s.underway b))
          ∧ (∀ z, lags z → (∀ y, y.toNat < z.toNat → ¬ lags y) → x.ramp.thermal = .ramping →
              Reports u t (notice .lag (some k) none z.toNat x.ramp.lastTicket (x.ramp.zones.get z).delivered
                (s.zoneSample k z).value)))
      ∧ (¬ (∃ z, lags z) →
          (∀ z, ((t.tube k).ramp.zones.get z).delivered = (zones'.get z).delivered)
          ∧ (quiet → (t.tube k).ramp.zones = zones')
          ∧ (quiet → s.budget.claims = [] → DeliveryOk s.delivery →
              (∀ z, moves z → (∀ y, moves y → y ≠ z → s.zoneAddr k y ≠ s.zoneAddr k z) →
                t.underway (s.zoneAddr k z) = some (moved z))
              ∧ ∀ b, (∀ z, moves z → b ≠ s.zoneAddr k z) → t.underway b = s.underway b)
          ∧ (quiet → directionOf zones' = .none →
              (t.tube k).ramp.thermal = .settling ∧ (t.tube k).ramp.direction = .none ∧ (t.tube k).ramp.stepTimer = none
              ∧ (t.tube k).ramp.retry = 0 ∧ (t.tube k).ramp.slotHeld = false
              ∧ (t.tube k).ramp.settleTimer = some x.header.settlePeriod)
          ∧ (quiet → directionOf zones' ≠ .none →
              (t.tube k).ramp.thermal = .ramping ∧ (t.tube k).ramp.direction = directionOf zones'
              ∧ (t.tube k).ramp.stepTimer = some x.header.stepPeriod
              ∧ (directionOf zones' = .down → (t.tube k).ramp.slotHeld = false)))

/-- R83, R84: a settle expiry with every sampled bound zone in the window makes the tube STABLE with its DONE(RAMP)
notice; one outside adds to the retry count, with SETTLE_SLOW, of no channel (the model's choice, log 38), when the
count reaches the limit. The time the timer has left passes first (the model's choice, log 5). -/
def Obligations.SettleExpiryJudgesTheWindow : Prop :=
  ∀ (s : State) (k : Tube) (r : Nat), (s.tube k).ramp.settleTimer = some r →
    let u := s.elapse r
    let x := u.tube k
    let outside (z : Zone) := (x.ramp.zones.get z).bound = true ∧ (s.zoneSample k z).sampled = true
      ∧ x.header.settleWindow < distance (s.zoneSample k z).value.toNat (x.ramp.zones.get z).target.toNat
    Completes (.settleExpiry k) s fun t =>
      t.clock = s.clock + BitVec.ofNat 32 r ∧ Elsewhere (some k) u t ∧ (t.tube k).mode = x.mode
      ∧ (∀ z, ((t.tube k).ramp.zones.get z).delivered = (x.ramp.zones.get z).delivered)
      ∧ ((∀ z, ¬ outside z) →
          (t.tube k).summary.rampDone = true
          ∧ Reports u t (doneNotice 1 k none x.ramp.lastTicket (wordOf x.ramp.retry) 0)
          ∧ (x.mode ≠ .run ∨ x.queue = [] → (t.tube k).ramp =
              { x.ramp with thermal := .stable, cause := .none, direction := .none, settleTimer := none }))
      ∧ (∀ z, outside z → (∀ y, y.toNat < z.toNat → ¬ outside y) →
          t.tube k = { x with ramp := { x.ramp with
            retry := min 255 (x.ramp.retry + 1), settleTimer := some x.header.settlePeriod } }
          ∧ (x.header.settleRetryLimit ≠ 0 → x.ramp.retry + 1 = x.header.settleRetryLimit → x.ramp.retry < 255 →
              Reports u t (notice .settleSlow (some k) none z.toNat x.ramp.lastTicket (x.ramp.zones.get z).target
                (s.zoneSample k z).value)))

/-- R112, R116 to R119: a motion expiry moves the boat by the band step, checks for a stall, and ends the motion at the
target or starts a new period. The step is that of the first band whose bound is at or above the temperature, 0 with
none, cut to the approach step within the approach distance; the temperature is zone 0's measured value where sampled,
else its delivered value; the move stops at the target. The time the timer has left passes first (the model's choice,
log 5). -/
def Obligations.MotionExpiryMovesTheBoat : Prop :=
  (∀ (h : Header) (temperature remaining : Nat),
    (∀ i : Ix4, temperature ≤ h.bandBound.get i → (∀ j : Ix4, j.toNat < i.toNat → h.bandBound.get j < temperature) →
      motionStep h temperature remaining =
        if h.approachDistance ≠ 0 ∧ remaining ≤ h.approachDistance then min (h.bandStep.get i) h.approachStep
        else h.bandStep.get i)
    ∧ ((∀ j : Ix4, h.bandBound.get j < temperature) → motionStep h temperature remaining = 0))
  ∧ (∀ (s : State) (k : Tube),
    let m := (s.measured.tubes.get k).zones.get .i0
    s.loadEndTemperature k = if m.sampled = true then m.value.toNat else ((s.tube k).ramp.zones.get .i0).delivered.toNat)
  ∧ (∀ (b : Boat) (step : Nat),
    (b.delivered.toNat ≤ b.target.toNat →
      (movedPosition b step).toNat = min (b.delivered.toNat + step) b.target.toNat
      ∧ (b.delivered ≠ b.target → b.heading = .inward))
    ∧ (b.target.toNat ≤ b.delivered.toNat →
      (movedPosition b step).toNat = max (b.delivered.toNat - step) b.target.toNat
      ∧ (b.delivered ≠ b.target → b.heading = .outward)))
  ∧ (∀ (h : Header) (m : Sample) (position : Word) (counter : Nat),
    distance m.value.toNat position.toNat = max m.value.toNat position.toNat - min m.value.toNat position.toNat
    ∧ stallCounter h m position counter =
      if m.sampled = false then counter
      else if h.stallLimit < distance m.value.toNat position.toNat then min 15 (counter + 1) else 0)
  ∧ (∀ (inThreshold : Nat) (position : Word), positionState inThreshold position =
    if position = 0 then .outPos else if position.toNat < inThreshold then .partialPos else .inPos)
  ∧ ∀ (s : State) (k : Tube) (r : Nat), (s.tube k).boat.motionTimer = some r → DeliveryOk s.delivery →
    let u := s.elapse r
    let x := u.tube k
    let b := x.boat
    let step := motionStep x.header (u.loadEndTemperature k) (distance b.target.toNat b.delivered.toNat)
    let p := movedPosition b step
    let m := s.boatSample k
    let stall := m.sampled = true ∧ x.header.stallLimit < distance m.value.toNat p.toNat
      ∧ x.header.stallCount ≤ b.stall + 1
    let quiet := x.mode ≠ .run ∨ x.queue = []
    Completes (.motionExpiry k) s fun t =>
      t.clock = s.clock + BitVec.ofNat 32 r ∧ Elsewhere (some k) u t ∧ (t.tube k).mode = x.mode
      ∧ (t.tube k).boat.delivered = p
      ∧ (quiet → p ≠ b.delivered → t.underway (s.binding.get k).boat.addr = some p)
      ∧ (quiet → p = b.delivered → ∀ a, t.underway a = s.underway a)
      ∧ (stall →
          t.abort.requests = s.abort.requests ++ [⟨k, .boatStall, none, m.value, p⟩]
          ∧ (quiet → (t.tube k).boat.state = .stalled ∧ (t.tube k).boat.direction = .none
              ∧ (t.tube k).boat.motionTimer = none ∧ (t.tube k).boat.target = b.target))
      ∧ (¬ stall → p = b.target →
          t.abort = s.abort ∧ (t.tube k).summary.boatArrived = true
          ∧ Reports u t (doneNotice 2 k (some b.lastChannel) b.lastTicket p (wordOf (min 65535 (b.expiries + 1))))
          ∧ (quiet → (t.tube k).boat.state = positionState x.header.inThreshold p
              ∧ (t.tube k).boat.direction = .none ∧ (t.tube k).boat.motionTimer = none
              ∧ (t.tube k).boat.target = p))
      ∧ (¬ stall → p ≠ b.target →
          t.abort = s.abort
          ∧ (quiet → (t.tube k).boat = { b with
              delivered := p, expiries := min 65535 (b.expiries + 1), direction := b.heading
              stall := stallCounter x.header m p b.stall, motionTimer := some x.header.motionPeriod }))

/-- R100, R102, R145: a sample expiry adds the volume of its period to the accumulator and restarts the timer; at the
volume target it ends the run in INERT with the purge line at standby, placed for delivery, and ends an abort. The time the timer has left
passes first (the model's choice, log 5), and litres above 65535 are a free value (log 16). -/
def Obligations.SampleExpiryCountsTheVolume : Prop :=
  ∀ (s : State) (k : Tube) (r : Nat) (run : Run), (s.tube k).gas.sampleTimer = some r → (s.tube k).gas.run = some run →
    let u := s.elapse r
    let x := u.tube k
    let line := x.gas.lines.get x.header.purgeLine
    let sample := s.lineSample k x.header.purgeLine
    let flow := if sample.sampled = true then sample.value.toNat else line.flow.toNat
    let sum := flow * x.header.samplePeriod + run.remainder
    let total := x.gas.accumulator + BitVec.ofNat 32 (sum / 60000)
    let samples := min 65535 (run.samples + 1)
    let litres := litresWord total.toNat
    Completes (.sampleExpiry k) s fun t =>
      t.clock = s.clock + BitVec.ofNat 32 r ∧ Elsewhere (some k) u t
      ∧ (total.toNat < run.target →
          t.tube k = { x with gas := { x.gas with
            accumulator := total, sampleTimer := some x.header.samplePeriod
            run := some { run with remainder := sum % 60000, samples := samples } } }
          ∧ (DeliveryOk s.delivery → ∀ b, t.underway b = s.underway b))
      ∧ (run.target ≤ total.toNat →
          (t.tube k).gas.accumulator = total ∧ (t.tube k).mode = (if x.mode = .aborting then .aborted else x.mode)
          ∧ (run.purpose = .purge → (t.tube k).summary.purgeDone = true)
          ∧ (run.purpose = .clearing → (t.tube k).summary.clearDone = true)
          ∧ (x.mode = .aborting → (t.tube k).summary.abortEnd = true)
          ∧ (x.mode ≠ .run ∨ x.queue = [] →
              (t.tube k).gas.atmosphere = .inert ∧ (t.tube k).gas.run = none
              ∧ (t.tube k).gas.sampleTimer = none ∧ (t.tube k).gas.limitTimer = none
              ∧ ((t.tube k).gas.lines.get x.header.purgeLine).flow.toNat
                  = min x.header.standbyFlow.toNat line.flow.toNat)
          ∧ (x.mode ≠ .run ∨ x.queue = [] → s.budget.claims = [] → DeliveryOk s.delivery →
              t.underway (s.lineAddr k x.header.purgeLine)
                = some (BitVec.ofNat 16 (min x.header.standbyFlow.toNat line.flow.toNat))
              ∧ ∀ b, b ≠ s.lineAddr k x.header.purgeLine → t.underway b = s.underway b)
          ∧ (x.mode = .aborting → (t.tube k).abortTimer = none)
          ∧ (s.budget.claims = [] →
              Reports u t (doneNotice (match run.purpose with | .purge => 3 | .clearing => 4) k none x.lastReleased litres
                (wordOf samples))
              ∧ (x.mode = .aborting → s.notices.buffer.length < 7 →
                  { abortNotice .abortEnd k none x.abortCause x.lastReleased litres (u.secondsSince x.abortBegin) with
                    clock := t.clock } ∈ t.notices.buffer)))

/-- R101, R146: a purge-limit expiry hands its timeout over by the tube's mode, and an abort-claim expiry hands a trip
over where the run's claim still waits; either timer stays stopped, and nothing else of the tube changes. The time the
timer has left passes first (the model's choice, log 5), and litres above 65535 are a free value (log 16). -/
def Obligations.LimitTimersHandOver : Prop :=
  (∀ (s : State) (k : Tube) (r : Nat) (run : Run), (s.tube k).gas.limitTimer = some r → (s.tube k).gas.run = some run →
    let x := (s.elapse r).tube k
    let litres := litresWord x.gas.accumulator.toNat
    Completes (.purgeLimitExpiry k) s fun t =>
      t.clock = s.clock + BitVec.ofNat 32 r ∧ Elsewhere (some k) (s.elapse r) t
      ∧ t.tube k = { x with gas := { x.gas with limitTimer := none } }
      ∧ (x.mode.working = true → t.abort = { s.abort with requests := s.abort.requests
          ++ [⟨k, .purgeTimeout, none, litres, wordOf run.purpose.code⟩] })
      ∧ (x.mode = .aborting → t.abort = { s.abort with trips := s.abort.trips ++ [⟨.purgeTimeout, some k, 0, litres⟩] })
      ∧ (x.mode = .aborted → t.abort = s.abort))
  ∧ (∀ (s : State) (k : Tube) (r : Nat), (s.tube k).abortTimer = some r →
    Completes (.abortClaimExpiry k) s fun t =>
      t.clock = s.clock + BitVec.ofNat 32 r ∧ Elsewhere (some k) (s.elapse r) t
      ∧ t.tube k = { (s.elapse r).tube k with abortTimer := none }
      ∧ (∀ c, s.runClaim k = some c →
          t.abort = { s.abort with trips := s.abort.trips ++ [⟨.claimStarved, some k, 0, wordOf c.amount⟩] })
      ∧ (s.runClaim k = none → t.abort = s.abort))

/-- R41, R99, R125 to R135, R137, R138: a scrubber expiry (the time left passes first, the model's choice, log 5) adds
the open reactive draw of the bank and drains the load, then turns the throttle on at the upper mark and off at the
lower one. The Claim List: the front claim of a pool is the highest in priority, the earliest to join among those; a
scan grants front claims that fit, one after another, exhaust first (the model's choice, log 12), until none fits. A
joined claim that is not granted waits with its CLAIM_WAIT notice; a granted run carries its flow; a granted head is
released, hands the grant back, or claims anew; a fall of draw or of a slot scans the list, an expiry withdraws its
head's claim, and an abort raises a purge run's claim, the run's priority with it (the model's choice, log 39). The
release tests and the claim a head needs are spelled out in `QueuedWriteIsHeld`. -/
def Obligations.ScrubberExpiryFollowsTheLoad : Prop :=
  (∀ (s : State) (r : Nat), s.budget.timer = some r →
    let draw := (s.presentTubes.map fun k =>
      (((s.tube k).gas.lines.toList.filter fun l => l.reactive && l.flow != 0).map fun l =>
        (l.flow.toNat + 99) / 100 * l.weight).sum).sum
    let load := min 65535 (s.budget.load + draw) - s.budget.drain
    Completes .scrubberExpiry s fun t =>
      t.clock = s.clock + BitVec.ofNat 32 r ∧ t.budget.load = load ∧ t.budget.timer = some 1000
      ∧ (s.budget.throttle = false → (t.budget.throttle = true ↔ s.budget.upper ≤ load))
      ∧ (s.budget.throttle = true → (t.budget.throttle = false ↔ load ≤ s.budget.lower))
      ∧ Elsewhere none { s.elapse r with budget := t.budget } t)
  ∧ (∀ (b : Budget) (p : Pool), ((∀ x ∈ b.claims, x.pool ≠ p) → b.front p = none)
    ∧ ∀ before c after, b.claims = before ++ c :: after → c.pool = p →
      (∀ x ∈ before, x.pool = p → x.priority.code < c.priority.code) →
      (∀ x ∈ after, x.pool = p → x.priority.code ≤ c.priority.code) → b.front p = some c)
  ∧ (∀ s : State, ∃ granted : List Claim, s.scan = granted.foldl State.grant s
    ∧ (∀ before c after, granted = before ++ c :: after →
        (before.foldl State.grant s).budget.front c.pool = some c
        ∧ c.amount ≤ (before.foldl State.grant s).freeOf c.pool)
    ∧ (∀ c rest d, granted = c :: rest → c.pool = .heat → s.budget.front .exhaust = some d → s.freeUnits < d.amount)
    ∧ (granted = [] → ∀ p c, s.budget.front p = some c → s.freeOf p < c.amount)
    ∧ ((∀ c ∈ s.budget.claims, ∀ ticket channel, c.origin ≠ .entry ticket channel) →
        ∀ p c, s.scan.budget.front p = some c → s.scan.freeOf p < c.amount)
    ∧ ((s.budget.claims.Pairwise fun c d => c.origin.isEntry = true → d.origin.isEntry = true → c.tube ≠ d.tube) →
        ∀ p c, s.scan.budget.front p = some c → s.scan.freeOf p < c.amount))
  ∧ (∀ (s : State) (old : List Claim) (c : Claim), s.budget.claims = old ++ [c] → c.fresh = true →
    (∀ d ∈ old, d.fresh = false) → (∀ p d, s.budget.front p = some d → s.freeOf p < d.amount) →
    let code := c.pool.code + c.priority.code * 2 + c.origin.code * 8
    let noted := notice .claimWait (some c.tube) (match c.origin with | .entry _ channel => some channel | _ => none) code
      (match c.origin with | .entry ticket _ => ticket | _ => (s.tube c.tube).lastReleased)
      (wordOf c.amount) (wordOf (s.freeOf c.pool))
    s.rescan.budget = { s.budget with claims := old ++ [{ c with fresh := false }] } ∧ Reports s s.rescan noted
    ∧ s.rescan = { s with budget := s.rescan.budget, notices := s.rescan.notices })
  ∧ (∀ (s : State) (c : Claim) (run : Run), (∀ ticket channel, c.origin ≠ .entry ticket channel) →
    (s.tube c.tube).gas.run = some run →
    let x := s.tube c.tube
    let u := s.grant c
    u = { s with
      budget := { s.budget with claims := s.budget.claims.erase c }
      delivery := u.delivery
      tubes := s.tubes.set c.tube { x with
        abortTimer := none
        gas := { x.gas with
          lines := x.gas.lines.set x.header.purgeLine
            { x.gas.lines.get x.header.purgeLine with flow := run.flow, devCounter := 0 }
          run := some { run with phase := .flowing }
          sampleTimer := some x.header.samplePeriod } } }
    ∧ u.underway (s.lineAddr c.tube x.header.purgeLine) = some run.flow
    ∧ ∀ b, b ≠ s.lineAddr c.tube x.header.purgeLine → u.underway b = s.underway b)
  ∧ (∀ (s : State) (c : Claim) (ticket : Word) (channel : Six) (e : HeldEntry) (rest : List HeldEntry),
    c.origin = .entry ticket channel → (s.tube c.tube).queue = e :: rest → e.state = .claiming →
    let x := s.tube c.tube
    let u := s.grant c
    let left := s.budget.claims.erase c
    (∀ r, s.firstFailure c.tube e = some r →
      u = { s with
        budget := { s.budget with claims := left }
        tubes := s.tubes.set c.tube { x with queue := { e with state := .waiting, claim := none } :: rest } })
    ∧ (∀ p a, s.firstFailure c.tube e = none → neededClaim x e = some (p, a) → (p, a) ≠ (c.pool, c.amount) →
      u = { s with
        budget := { s.budget with
          claims := left ++ [⟨c.tube, p, a, .process, s.budget.joinCounter, .entry e.ticket e.channel, true⟩]
          joinCounter := s.budget.joinCounter + 1 }
        tubes := s.tubes.set c.tube { x with queue := { e with state := .claiming, claim := some (p, a) } :: rest } })
    ∧ (s.firstFailure c.tube e = none → neededClaim x e = some (c.pool, c.amount) ∨ neededClaim x e = none → rest = [] →
      (neededClaim x e = some (c.pool, c.amount) → u.budget = { s.budget with claims := left })
      ∧ (u.tube c.tube).queue = [] ∧ (u.tube c.tube).lastReleased = e.ticket ∧ (∀ j, j ≠ c.tube → u.tube j = s.tube j)
      ∧ Reports s u (releasedNotice c.tube e.channel (if e.held = true then .queued else .immediate) e.ticket e.value
          e.acceptedAt)
      ∧ (∀ z step, e.kind = .zone z step → neededClaim x e = some (c.pool, c.amount) →
          c.pool = .heat ∧ (u.tube c.tube).ramp.slotHeld = true ∧ (u.tube c.tube).ramp.direction = .up
          ∧ (u.tube c.tube).ramp.zones
            = x.ramp.zones.set z { x.ramp.zones.get z with target := e.value, step := step })
      ∧ (∀ l reactive purge weight, e.kind = .line l reactive purge weight →
          neededClaim x e = some (c.pool, c.amount) → weight = (x.gas.lines.get l).weight →
          c.pool = .exhaust
          ∧ (u.tube c.tube).gas = { x.gas with
              lines := x.gas.lines.set l { x.gas.lines.get l with flow := e.value, devCounter := 0 }
              atmosphere := if (x.gas.lines.get l).reactive = true ∧ x.gas.atmosphere = .inert then .process
                else x.gas.atmosphere })))
  ∧ (∀ (s : State) (k : Tube) (l : Line) (v : Word),
    let u := s.setFlow k l v true
    s.lowerLine State.rescan k l v = (if (u.lineRec k l).draw < (s.lineRec k l).draw then u.rescan else u)
    ∧ s.freeSlot State.rescan k = (if (s.tube k).ramp.slotHeld = true then
        (s.modRamp k fun r => { r with slotHeld := false }).rescan else s))
  ∧ (∀ (s : State) (p : Place) (v : Word) (d : DescWords) (l : Line) (c : Claim) (ticket : Word) (channel : Six)
    (e : HeldEntry) (m : Line) (reactive purge : Bool) (weight : Nat), d.manual = true → d.kind = some .line →
    d.mark = .line l → Dispatches s (placeAccess s .service .write p v) p d → (s.tube p.tube).mode = .aborted →
    InRange d v → v.toNat ≤ ((s.tube p.tube).gas.lines.get l).flow.toNat →
    s.budget.claims = [c] → c.tube ≠ p.tube → c.pool = .exhaust → c.origin = .entry ticket channel →
    (s.tube c.tube).queue = [e] → e.state = .claiming → s.firstFailure c.tube e = none →
    neededClaim (s.tube c.tube) e = some (c.pool, c.amount) → e.kind = .line m reactive purge weight →
    weight = ((s.tube c.tube).gas.lines.get m).weight →
    let old := (s.tube p.tube).gas.lines.get l
    let drop := (old.flow.toNat + 99) / 100 * old.weight - (v.toNat + 99) / 100 * old.weight
    0 < drop → c.amount + s.bankDraw ≤ s.budget.capacity + drop →
    Completes (.manualWrite .service p v) s fun t =>
      t.port = ⟨.idle, .acknowledge⟩ ∧ ((t.tube p.tube).gas.lines.get l).flow = v
      ∧ t.budget.claims = [] ∧ (t.tube c.tube).queue = [] ∧ (t.tube c.tube).lastReleased = e.ticket
      ∧ ((t.tube c.tube).gas.lines.get m).flow = e.value ∧ Elsewhere (some p.tube) s t)
  ∧ (∀ (s : State) (k : Tube) (ticket : Word) (e : HeldEntry) (r : Nat), (s.tube k).queue = [e] → e.ticket = ticket →
    e.timer = some r → e.state = .claiming → ∀ (c : Claim), c.tube = k → (∃ n ch, c.origin = .entry n ch) →
    (s.budget.claims = [c] → Completes (.entryExpiry k ticket) s fun t => t.budget.claims = [])
    ∧ ∀ (d : Claim) (run : Run), s.budget.claims = [c, d] → d.tube ≠ k → d.pool = .exhaust →
      (∀ n ch, d.origin ≠ .entry n ch) → (s.tube d.tube).gas.run = some run → (s.tube d.tube).queue = [] →
      (d.amount ≤ s.freeUnits →
        Completes (.entryExpiry k ticket) s fun t =>
          t.budget.claims = [] ∧ (t.tube d.tube).gas.run = some { run with phase := .flowing }
          ∧ ((t.tube d.tube).gas.lines.get (s.tube d.tube).header.purgeLine).flow = run.flow)
      ∧ (s.freeUnits < d.amount → d.fresh = false →
        Completes (.entryExpiry k ticket) s fun t =>
          t.budget.claims = [d] ∧ (t.tube d.tube).gas.run = some run))
  ∧ (∀ (s : State) (q : AbortRequest) (rest : List AbortRequest) (run : Run) (before after : List Claim) (c : Claim),
    s.abort.requests = q :: rest →
    let k := q.tube
    let x := s.tube k
    s.present k = true → x.mode.working = true → x.queue = [] → x.ramp.slotHeld = false → x.gas.atmosphere = .purging →
    x.gas.run = some run → run.phase = .claiming → s.budget.claims = before ++ c :: after → c.tube = k →
    (∀ n ch, c.origin ≠ .entry n ch) → c.priority = .purge → (∀ d ∈ before ++ after, d.tube ≠ k ∧ d.fresh = false) →
    c.fresh = false →
    let raised : Budget := { s.budget with claims := before ++ { c with priority := .abort } :: after }
    (∀ p d, raised.front p = some d → s.freeOf p < d.amount) →
    Completes .abortRequest s fun t =>
      t.budget = raised ∧ (t.tube k).mode = .aborting ∧ (t.tube k).gas.run = some { run with priority := .abort }
      ∧ (t.tube k).abortTimer = if s.abort.claimLimit = 0 then none else some (s.abort.claimLimit * 100))

/-- R157, R158, R163: a scan expiry starts a pass at the first active record, or is an overrun; a stale expiry sets
STALE with its notice. The time the timer has left passes first (the model's choice, log 5). -/
def Obligations.ScanTimersExpire : Prop :=
  (∀ (s : State) (r : Nat), s.scanner.timer = some r →
    let u := s.elapse r
    Completes .scanExpiry s fun t =>
      t.clock = s.clock + BitVec.ofNat 32 r ∧ t.scanner.timer = some s.scanner.period
      ∧ Elsewhere none { u with scanner := t.scanner } t
      ∧ (∀ i rec, s.scanner.pass = none → s.scanner.list[i]? = some rec → rec.active = true →
          (∀ j old, j < i → s.scanner.list[j]? = some old → old.active = false) →
          t.scanner = { u.scanner with
            timer := some s.scanner.period, overrun := false, pass := some ⟨i, 0, u.clock⟩ })
      ∧ (s.scanner.pass = none → (∀ rec ∈ s.scanner.list, rec.active = false) →
          t.scanner.pass = none ∧ t.scanner.overrun = false ∧ t.scanner.passCounter = s.scanner.passCounter + 1
          ∧ t.scanner.stale = false)
      ∧ (∀ p, s.scanner.pass = some p → s.scanner.overrun = false →
          t.scanner = { u.scanner with timer := some s.scanner.period, overrun := true }
          ∧ Reports u t (notice .scanOverrun none none 0 s.scanner.passCounter (wordOf p.done)
              (wordStop (u.clock - p.start).toNat)))
      ∧ (∀ p, s.scanner.pass = some p → s.scanner.overrun = true →
          t.scanner = { u.scanner with timer := some s.scanner.period }
          ∧ t.notices.buffer = s.notices.buffer))
  ∧ (∀ (s : State) (r : Nat), s.scanner.staleTimer = some r →
    Completes .staleExpiry s fun t =>
      t.clock = s.clock + BitVec.ofNat 32 r
      ∧ t.scanner = { (s.elapse r).scanner with stale := true, staleTimer := none }
      ∧ Reports s t (notice .scanStale none none 0 s.scanner.passCounter
          (match s.scanner.pass with | some p => wordOf p.index | none => 0xFFFF) (wordOf s.scanner.staleLimit))
      ∧ Elsewhere none { s.elapse r with scanner := t.scanner } t)

/-- R185: a service expiry counts the periods in which the controller took no record, and at the service limit lapses
the monitor, with SERVICE_LOST and one request for each tube in PROCESS. The time the timer has left passes first (the
model's choice, log 5). -/
def Obligations.ServiceExpiryCountsTheLapse : Prop :=
  ∀ (s : State) (r : Nat), s.monitor.timer = some r →
    let u := s.elapse r
    let count := if s.notices.producer ≠ s.notices.consumer ∧ s.notices.consumer = s.monitor.recorded then
      s.monitor.count + 1 else 0
    let next : Monitor := { s.monitor with timer := some s.monitor.period, recorded := s.notices.consumer }
    let unconsumed := ringDistance (16 * 2 ^ s.notices.sizeCode) s.notices.producer s.notices.consumer
    Completes .serviceExpiry s fun t =>
      t.clock = s.clock + BitVec.ofNat 32 r ∧ Elsewhere none { u with monitor := t.monitor } t
      ∧ (s.monitor.lapsed = true → t.monitor = next ∧ t.abort = s.abort)
      ∧ (s.monitor.lapsed = false → count ≠ s.monitor.limit → t.monitor = { next with count := count } ∧ t.abort = s.abort)
      ∧ (s.monitor.lapsed = false → count = s.monitor.limit →
          t.monitor = { next with count := count, lapsed := true }
          ∧ Reports u t (notice .serviceLost none none 0 (wordOf s.notices.consumer) (wordOf unconsumed) 0)
          ∧ t.abort.requests = s.abort.requests
            ++ ([Ix4.i0, .i1, .i2, .i3].filter fun k => (s.tube k).gas.atmosphere == .process).map fun k =>
              ⟨k, .serviceLost, none, wordOf s.notices.consumer, wordOf unconsumed⟩)

/-! ## Requests taken -/

/-- R106: a sample of an open reactive line counts towards its deviation count, or clears the counter; at the count an
abort request is handed over. Other lines take no action. The counter stops at 15
(the model's choice, log 34). -/
def Obligations.LineSampleIsJudged : Prop :=
  ∀ (s : State) (a : LineArrival) (rest : List LineArrival), s.arrivals = a :: rest →
    let x := s.tube a.tube
    let l := x.gas.lines.get a.line
    let watched := l.reactive = true ∧ l.flow ≠ 0
    let deviates := l.devLimit < distance a.value.toNat l.flow.toNat
    let counted (n : Nat) : TubeState :=
      { x with gas := { x.gas with lines := x.gas.lines.set a.line { l with devCounter := n } } }
    Completes .lineSampleArrival s fun t =>
      t.arrivals = rest ∧ Elsewhere (some a.tube) { s with arrivals := rest } t
      ∧ (¬ watched → t.tube a.tube = x ∧ t.abort = s.abort)
      ∧ (watched → ¬ deviates → t.tube a.tube = counted 0 ∧ t.abort = s.abort)
      ∧ (watched → deviates → l.devCounter + 1 ≠ l.devCount →
          t.tube a.tube = counted (min 15 (l.devCounter + 1)) ∧ t.abort = s.abort)
      ∧ (watched → deviates → l.devCounter + 1 = l.devCount →
          t.tube a.tube = counted (min 15 (l.devCounter + 1))
          ∧ t.abort = { s.abort with requests := s.abort.requests
              ++ [⟨a.tube, .flowDeviation, none, deviationDetail a.line a.value, l.flow⟩] })

/-- R87, R105, R121, R140, R142, R145, R148: the first waiting abort request is taken. In RUN or HOLD the tube is
flushed and frozen, its reactive lines are closed, and it is left ABORTING with a run or ABORTED without one; with no
waiting claim the 0 of each closed line and the flow of a clearing that has its draw are placed for delivery; in
ABORTING or ABORTED it gives ABORT_AGAIN; for an absent tube it is discarded. -/
def Obligations.AbortRequestIsTaken : Prop :=
  ∀ (s : State) (q : AbortRequest) (rest : List AbortRequest), s.abort.requests = q :: rest →
    let x := s.tube q.tube
    let working := s.present q.tube = true ∧ x.mode.working = true
    Completes .abortRequest s fun t =>
      t.abort = { s.abort with requests := rest } ∧ Elsewhere (some q.tube) s t
      ∧ (s.present q.tube = false → t.tube q.tube = x ∧ t.notices.buffer = s.notices.buffer)
      ∧ (s.present q.tube = true → x.mode.working = false →
          t.tube q.tube = x
          ∧ Reports s t (notice .abortAgain (some q.tube) q.channel q.cause.code x.lastReleased
              (wordOf x.abortCause.code) q.detail1))
      ∧ (working →
          (t.tube q.tube).abortCause = q.cause ∧ (t.tube q.tube).abortBegin = s.clock ∧ (t.tube q.tube).queue = []
          ∧ (t.tube q.tube).gapTimer = none
          ∧ Reports s t (notice .abortBegin (some q.tube) q.channel q.cause.code x.lastReleased q.detail1 q.detail2)
          ∧ (t.tube q.tube).ramp = { x.ramp with
              thermal := .held, cause := .abort, stepTimer := none, settleTimer := none, slotHeld := false
              direction := if x.ramp.thermal = .ramping ∨ x.ramp.thermal = .held then x.ramp.direction else .none }
          ∧ (t.tube q.tube).boat.target = x.boat.delivered ∧ (t.tube q.tube).boat.motionTimer = none
          ∧ (t.tube q.tube).boat.state = (if x.boat.state = .moving ∨ x.boat.state = .paused then
              positionState x.header.inThreshold x.boat.delivered else x.boat.state))
      ∧ (working → x.gas.run = none → x.gas.atmosphere = .air ∨ x.gas.atmosphere = .inert →
          (t.tube q.tube).mode = .aborted ∧ (t.tube q.tube).summary.abortEnd = true
          ∧ (t.tube q.tube).gas.atmosphere = x.gas.atmosphere)
      ∧ (working → x.gas.atmosphere = .process ∨ x.gas.atmosphere = .clearing →
          (t.tube q.tube).mode = .aborting ∧ (t.tube q.tube).gas.atmosphere = .clearing
          ∧ (t.tube q.tube).gas.accumulator = 0
          ∧ (∃ phase, (t.tube q.tube).gas.run = some
              ⟨.clearing, x.header.abortPurgeFlow, .abort, x.header.clearingVolume * 1000, phase, 0, 0⟩)
          ∧ (t.tube q.tube).gas.limitTimer = some (x.header.purgeLimit * 1000))
      ∧ (working → x.gas.atmosphere = .process → ∀ l, l ≠ x.header.purgeLine → (x.gas.lines.get l).reactive = true →
          ((t.tube q.tube).gas.lines.get l).flow = 0)
      ∧ (∀ run, working → x.gas.atmosphere = .purging → x.gas.run = some run →
          (t.tube q.tube).mode = .aborting ∧ (t.tube q.tube).gas.atmosphere = .purging
          ∧ (t.tube q.tube).gas.accumulator = x.gas.accumulator
          ∧ ∃ now, (t.tube q.tube).gas.run = some now ∧ now.purpose = run.purpose ∧ now.target = run.target
            ∧ now.remainder = run.remainder ∧ now.samples = run.samples)
      ∧ (working → s.budget.claims = [] → DeliveryOk s.delivery →
          let purgeAddr := s.lineAddr q.tube x.header.purgeLine
          let closed (l : Line) : Prop :=
            x.gas.atmosphere = .process ∧ (x.gas.lines.get l).reactive = true ∧ (x.gas.lines.get l).flow ≠ 0
          let clears := x.gas.atmosphere = .process ∨ x.gas.atmosphere = .clearing
          (∀ l, closed l → s.lineAddr q.tube l ≠ purgeAddr → t.underway (s.lineAddr q.tube l) = some 0)
          ∧ (∀ run, clears → (t.tube q.tube).gas.run = some run → run.phase = .flowing →
              t.underway purgeAddr = some x.header.abortPurgeFlow)
          ∧ (∀ run, clears → (t.tube q.tube).gas.run = some run → run.phase = .claiming →
              (∀ l, closed l → s.lineAddr q.tube l ≠ purgeAddr) → t.underway purgeAddr = s.underway purgeAddr)
          ∧ (∀ b, clears → b ≠ purgeAddr → (∀ l, closed l → b ≠ s.lineAddr q.tube l) → t.underway b = s.underway b)
          ∧ (¬ clears → ∀ b, t.underway b = s.underway b))

/-- R150, R151, R176: a first trip sets the latch with its cause and time, asserts TRIP, makes the status word due, places
its TRIP notice with the number of tubes it aborts, and aborts every present tube in RUN or HOLD with cause BANK_TRIP. -/
def Obligations.FirstTripAbortsTheBank : Prop :=
  ∀ (s : State) (q : TripRequest) (rest : List TripRequest), s.abort.trips = q :: rest → s.abort.latch = false →
    let ticket := match q.cause, q.tube with
      | .scanLimit, _ => q.index
      | _, some k => (s.tube k).lastReleased
      | _, none => 0
    let working (k : Tube) := s.present k = true ∧ (s.tube k).mode.working = true
    Completes .bankTrip s fun t =>
      t.abort = { s.abort with trips := rest, latch := true, tripCause := q.cause, tripTime := s.clock }
      ∧ t.tripOutput = true ∧ t.mem = s.mem ∧ t.root = s.root ∧ RootWordDue t.notices .status
      ∧ Reports s t (notice .trip q.tube none q.cause.code ticket q.detail
          (wordOf ([Ix4.i0, .i1, .i2, .i3].filter fun k => s.present k && (s.tube k).mode.working).length))
      ∧ (∀ k, working k → ((t.tube k).mode = .aborting ∨ (t.tube k).mode = .aborted)
          ∧ (t.tube k).abortCause = .bankTrip ∧ (t.tube k).abortBegin = s.clock ∧ (t.tube k).queue = []
          ∧ (t.tube k).ramp.thermal = .held ∧ (t.tube k).ramp.cause = .abort)
      ∧ (∀ k, ¬ working k → TubeKept (s.tube k) (t.tube k))

/-- R152: a trip taken while the latch is set places its TRIP notice with 0FFFFH, and leaves the latch, the recorded
cause and every tube as they are. -/
def Obligations.RepeatedTripChangesNoTube : Prop :=
  ∀ (s : State) (q : TripRequest) (rest : List TripRequest), s.abort.trips = q :: rest → s.abort.latch = true →
    let ticket := match q.cause, q.tube with
      | .scanLimit, _ => q.index
      | _, some k => (s.tube k).lastReleased
      | _, none => 0
    Completes .bankTrip s fun t =>
      t.abort = { s.abort with trips := rest } ∧ t.tripOutput = true
      ∧ Reports s t (notice .trip q.tube none q.cause.code ticket q.detail 0xFFFF)
      ∧ (∀ k, t.tube k = s.tube k) ∧ Elsewhere none s t

/-! ## Image Bus transactions -/

/-- R156, R159 to R162: a scan read arrives. The Measured Table takes the word, a LINE sample of a present tube is
handed on, the record's limits are checked, its action is sent at the trip count, and the pass goes on or completes. A
word the field board has written comes in with the row and is stored in the image before the read completes (the
model's choice, log 22). -/
def Obligations.ScanArrivalIsTaken : Prop :=
  ∀ (s : State) (a : BusAccess) (board : Option Word) (p : Pass) (rec : ScanRecord), InFlight s .scan a →
    a.write = none → s.scanner.pass = some p → s.scanner.list[p.index]? = some rec → s.mem.wf = true →
    let v := match board with | some w => w | none => s.readWord a.addr
    let out := rec.enable = true ∧ (rec.high.toNat < v.toNat ∨ v.toNat < rec.low.toNat)
    let acts := out ∧ rec.counter + 1 = rec.tripCount
    let counter := if rec.enable = false then rec.counter else if ¬ out ∨ rec.counter + 1 = rec.tripCount then 0
      else min 15 (rec.counter + 1)
    let list := s.scanner.list.set p.index { rec with counter := counter }
    Completes (.scanArrival board) s fun t =>
      (∀ b, t.readWord b = match board with
        | some w => if b = a.addr then w else s.readWord b
        | none => s.readWord b)
      ∧ t.port = s.port ∧ t.root = s.root ∧ (∀ k, TubeKept (s.tube k) (t.tube k))
      ∧ t.measured = (match rec.target with | some target => s.measured.sample target v | none => s.measured)
      ∧ (∀ k l, rec.target = some (.line k l) → s.present k = true → t.arrivals = s.arrivals ++ [⟨k, l, v⟩])
      ∧ ((∀ k l, rec.target = some (.line k l) → s.present k = false) → t.arrivals = s.arrivals)
      ∧ (∀ i next, p.index < i → s.scanner.list[i]? = some next → next.active = true →
          (∀ j mid, p.index < j → j < i → s.scanner.list[j]? = some mid → mid.active = false) →
          t.scanner = { s.scanner with list := list, pass := some ⟨i, p.done + 1, p.start⟩ })
      ∧ ((∀ i next, p.index < i → s.scanner.list[i]? = some next → next.active = false) →
          t.scanner = { s.scanner with
            list := list, pass := none, passCounter := s.scanner.passCounter + 1, stale := false
            staleTimer := if s.scanner.staleLimit = 0 then s.scanner.staleTimer else some s.scanner.staleLimit })
      ∧ (¬ acts → t.abort = s.abort)
      ∧ (∀ target, acts → rec.target = some target → rec.bankTrip = true →
          t.abort = { s.abort with trips := s.abort.trips ++ [⟨.scanLimit, target.tube, wordOf p.index, v⟩] })
      ∧ (∀ target, acts → rec.target = some target → rec.bankTrip = false →
          t.abort = { s.abort with requests := s.abort.requests
            ++ (match target.tube with | some k => [k] | none => [Ix4.i0, .i1, .i2, .i3]).map fun k =>
              ⟨k, .scanLimit, none, wordOf p.index, v⟩ })

/-- R5, R158, R167, R169, R170, R172, R173, R176, R178 to R180, R183: the Image Bus Arbiter's decision: a BUSY bus or no
request leaves the state; else the grant goes to the first due requester in the order DELIVER, WALK, PASS, NOTICE, SCAN,
with none due to the first that waits, where DELIVER stands back from a waiting write of a controller to its front
entry's address (the model's choice, log 36). The granted age is 0, every other waiting requester's rises by one,
stopping at 4. A NOTICE grant fixes a due root word's value and clears its mark (the model's choice, log 10). A write of
the part completes and the bus decides again: the image word takes the value in flight and no other word changes. A
delivery leaves all else; a due root word leaves the index copies; a record's producer index moves the producer copy on.
What each requester asks for: DELIVER the front entry's address and value; NOTICE a due root word with its value at its
place; PASS the held access; WALK the next descriptor word of a walk, else the loader's next word, which comes from the
root block, a tube table, the scan table, or the tube's plan of adoption reads, zones, lines, then the boat (the model's
choice, log 40), where no delivery is pending for it; SCAN the source of the record the pass is at. -/
def Obligations.ImageWritesComplete : Prop :=
  (∀ s : State,
    let waits (r : Requester) : Prop := (s.request r).isSome = true
    let held : Prop := ∃ acc a consumer d rest, s.port.phase = .pass acc a consumer ∧ acc.direction = .write
      ∧ s.delivery = d :: rest ∧ d.addr = a
    let may (r : Requester) : Prop := waits r ∧ ¬ (r = .deliver ∧ held)
    let due (r : Requester) : Prop := 4 ≤ s.bus.age r
    let u := s.arbitrate
    (s.bus.inFlight ≠ none → u = s)
    ∧ ((∀ r, ¬ may r) → u = s)
    ∧ ∀ (before : List Requester) (r : Requester) (after : List Requester),
        [Requester.deliver, .walk, .pass, .notice, .scan] = before ++ r :: after → s.bus.inFlight = none → may r →
        (due r ∧ (∀ q ∈ before, may q → ¬ due q)) ∨ ((∀ q, may q → ¬ due q) ∧ ∀ q ∈ before, ¬ may q) →
        u.bus.inFlight = s.request r ∧ u.bus.age r = 0
        ∧ (∀ q, q ≠ r → waits q → u.bus.age q = min 4 (s.bus.age q + 1))
        ∧ (∀ q, q ≠ r → ¬ waits q → u.bus.age q = s.bus.age q)
        ∧ u = { s with
            bus := u.bus
            delivery := if r = .deliver then s.delivery.tail else s.delivery
            notices := if r = .notice then { s.notices with
                dueStatus := s.notices.dueStatus && decide (s.notices.phase ≠ .rootWord .status)
                dueLost := s.notices.dueLost && decide (s.notices.phase ≠ .rootWord .lost)
                dueConsumer := s.notices.dueConsumer && decide (s.notices.phase ≠ .rootWord .consumer)
                dueProducer := s.notices.dueProducer && decide (s.notices.phase ≠ .rootWord .producer) }
              else s.notices })
  ∧ (∀ (s : State) (a : BusAccess) (v : Word), InFlight s .deliver a → a.write = some v →
    Completes .deliverWriteComplete s fun t =>
      t = ({ s with bus := { s.bus with inFlight := none }, mem := s.mem.write a.addr.toNat v } : State).takeDue.arbitrate)
  ∧ (∀ (s : State) (d : Delivery) (rest : List Delivery), s.delivery = d :: rest →
    s.request .deliver = some ⟨.deliver, d.addr, some d.value, false⟩)
  ∧ (∀ (s : State) (item : RootItem), s.notices.phase = .rootWord item →
    s.request .notice = some (match item with
      | .status => ⟨.notice, s.root.address + 3,
          some (BitVec.ofNat 16 (s.loader.phase.code + s.loader.reason.code * 4 + flagBit s.abort.latch 7
            + s.abort.tripCause.code * 256)), false⟩
      | .lost => ⟨.notice, s.root.address + 6, some s.notices.lost, false⟩
      | .consumer => ⟨.notice, s.root.address + 5, some (BitVec.ofNat 16 s.notices.consumer), false⟩
      | .producer => ⟨.notice, s.root.address + 4, some (BitVec.ofNat 16 s.notices.producer), false⟩))
  ∧ (∀ s : State,
    (s.delivery = [] → s.request .deliver = none) ∧ (s.notices.phase = .idle → s.request .notice = none)
    ∧ (∀ acc a consumer, s.port.phase = .pass acc a consumer →
        s.request .pass = some ⟨.pass, a, if acc.direction = .write then some acc.value else none, false⟩)
    ∧ ((∀ acc a consumer, s.port.phase ≠ .pass acc a consumer) → s.request .pass = none)
    ∧ (∀ acc words victim (p : Place), s.port.phase = .walk acc words victim →
        acc.addr.toNat = s.root.windowBase.toNat * 0x4000 + p.tube.toNat * 0x1000 + p.channel.toNat * 0x40 + p.word.toNat →
        s.request .walk = some ⟨.walk, BitVec.ofNat 20 ((s.root.tubes.get p.tube).pointer.toNat * 16 + 32
          + p.channel.toNat * 8 + words.length), none, false⟩)
    ∧ (∀ pass, s.scanner.pass = some pass → ∀ record, s.scanner.list[pass.index]? = some record →
        s.request .scan = some ⟨.scan, record.source, none, false⟩)
    ∧ (s.scanner.pass = none → s.request .scan = none))
  ∧ (∀ s : State, s.portOffWalk = true →
    let reads (a : Addr) : Prop := s.request .walk = some ⟨.walk, a, none, false⟩
    (s.loader.job = .idle ∨ s.loader.job = .adoptWait → s.request .walk = none)
    ∧ (∀ words, s.loader.job = .root words → words.length < 64 → reads (s.root.address + BitVec.ofNat 20 words.length))
    ∧ (∀ k words, s.loader.job = .tube k words → words.length < 544 →
        reads (BitVec.ofNat 20 ((s.root.tubes.get k).pointer.toNat * 16 + words.length)))
    ∧ (∀ words, s.loader.job = .scanList words → words.length < s.loader.scanCount * 4 →
        reads (BitVec.ofNat 20 (s.loader.scanPointer.toNat * 16 + words.length)))
    ∧ ∀ k words, s.loader.job = .adopt k words →
        let b := s.binding.get k
        let zones := ([.i0, .i1, .i2, .i3, .i4] : List Zone).filterMap fun z =>
          if (b.zones.get z).bound = true then some (b.zones.get z).addr else none
        let lines := ([.i0, .i1, .i2, .i3, .i4, .i5, .i6, .i7] : List Line).filterMap fun l =>
          if (b.lines.get l).bound = true then some (b.lines.get l).addr else none
        let plan := zones ++ lines ++ if b.boat.bound = true then [b.boat.addr] else []
        b.plan = plan
        ∧ (plan.length ≤ words.length → s.request .walk = none)
        ∧ ∀ a, plan[words.length]? = some a →
            ((∀ d ∈ s.delivery, d.addr ≠ a) → reads a) ∧ ((∃ d ∈ s.delivery, d.addr = a) → s.request .walk = none))
  ∧ (∀ (s : State) (a : BusAccess) (v : Word), InFlight s .deliver a → a.write = some v → s.mem.wf = true →
    Completes .deliverWriteComplete s fun t =>
      (∀ b, t.readWord b = if b = a.addr then v else s.readWord b) ∧ t.port = s.port
      ∧ Elsewhere none { s with mem := t.mem } t)
  ∧ (∀ (s : State) (a : BusAccess) (v : Word) (item : RootItem), InFlight s .notice a → a.write = some v →
    s.mem.wf = true → s.notices.phase = .rootWord item →
    Completes .rootWordWrite s fun t =>
      (∀ b, t.readWord b = if b = a.addr then v else s.readWord b) ∧ t.port = s.port
      ∧ (s.notices.nextDue = none → t.notices.phase = .idle) ∧ Elsewhere none { s with mem := t.mem } t)
  ∧ (∀ (s : State) (a : BusAccess) (v : Word), InFlight s .notice a → a.write = some v → s.mem.wf = true →
    s.notices.phase = .producerIndex →
    Completes .producerAdvance s fun t =>
      (∀ b, t.readWord b = if b = a.addr then v else s.readWord b) ∧ t.port = s.port
      ∧ t.notices.producer = (s.notices.producer + 1) % (16 * 2 ^ s.notices.sizeCode)
      ∧ (t.noticeOutput = true ↔ t.notices.producer ≠ s.notices.consumer)
      ∧ Elsewhere none { s with mem := t.mem, notices := t.notices } t)

/-- R183: the Notice Writer takes the front record of the buffer. With no free ring record it is lost and counted;
else its eight words follow in order from its ring address, each asked for at its own address and written as the bus is
granted, and then the producer index word, which is asked for with (producer + 1) mod N. -/
def Obligations.NoticeRecordIsTaken : Prop :=
  (∀ (s : State) (address : Addr) (w : Word) (ws : List Word), s.notices.phase = .record address (w :: ws) →
    s.request .notice = some ⟨.notice, address, some w, false⟩)
  ∧ (∀ (s : State), s.notices.phase = .producerIndex →
    s.request .notice = some ⟨.notice, s.root.address + 4,
      some (BitVec.ofNat 16 ((s.notices.producer + 1) % (16 * 2 ^ s.notices.sizeCode))), false⟩)
  ∧ (∀ (s : State) (n : Nat) (a : BusAccess) (r : Notice) (rest : List Notice), s.bus.inFlight = some a →
    a.requester ≠ .notice → s.notices.phase = .idle → s.notices.nextDue = none → s.notices.ringInUse = true →
    s.notices.buffer = r :: rest →
    Completes (.noticeRecordTake n) s fun t =>
      Elsewhere none s t ∧ t.bus = s.bus
      ∧ (16 * 2 ^ s.notices.sizeCode - 1
            = ringDistance (16 * 2 ^ s.notices.sizeCode) s.notices.producer s.notices.consumer →
          t.notices.buffer = rest
          ∧ t.notices.lost = if s.notices.lost = 0xFFFF then 0xFFFF else s.notices.lost + 1)
      ∧ (ringDistance (16 * 2 ^ s.notices.sizeCode) s.notices.producer s.notices.consumer
            < 16 * 2 ^ s.notices.sizeCode - 1 →
          t.notices = { s.notices with
            buffer := rest
            phase := .record (BitVec.ofNat 20 (s.notices.ringBase.toNat * 16)
              + BitVec.ofNat 20 (s.notices.producer * 8)) r.words }))
  ∧ (∀ (s : State) (a : BusAccess) (w : Word) (ws : List Word) (address : Addr), InFlight s .notice a →
    a.write = some w → s.notices.phase = .record address (w :: ws) → s.mem.wf = true →
    Completes (.noticeRecordTake 1) s fun t =>
      (∀ b, t.readWord b = if b = a.addr then w else s.readWord b)
      ∧ t.notices.phase = (if ws = [] then .producerIndex else .record (address + 1) ws)
      ∧ Elsewhere none { s with mem := t.mem } t)

/-- R182: a notice placed in a buffer of fewer than eight joins it, stamped with the bank clock; else it is lost, and
the lost count rises by one, stopping at 0FFFFH, and becomes due. The oldest record leaves the buffer first. -/
def Obligations.NoticeIsPlacedOrLost : Prop :=
  ∀ (s : State) (n : Notice),
    (s.notices.buffer.length < 8 →
      s.place n = { s with notices := { s.notices with
        buffer := s.notices.buffer ++ [{ n with clock := s.clock }] } })
    ∧ (8 ≤ s.notices.buffer.length →
      s.place n = { s with notices := { s.notices with
        lost := if s.notices.lost = 0xFFFF then 0xFFFF else s.notices.lost + 1, dueLost := true } })
    ∧ n.words = [wordOf n.kind.code ||| (n.subkind.setWidth 16 <<< 8),
        wordOf ((match n.tube with | some k => k.toNat | none => 7)
          + (match n.channel with | some c => c.toNat | none => 0x7F) * 8 + n.code.toNat * 1024),
        n.ticket, n.value, n.extra, 0, n.clock.setWidth 16, (n.clock >>> 16).setWidth 16]
    ∧ s.notices.takeRecord.buffer = s.notices.buffer.tail

/-! ## Laws every step keeps -/

/-- R94, R96, R97, R150: the reactive-gas law. What follows an event (examinations, releases, grants, and the bus's next
decision) opens no reactive line outside PROCESS; every step keeps `ReactiveLaw`: a reactive line of any tube flows only in
PROCESS, with what that rests on; and every step keeps `TripLaw`, so that with the trip latch set no tube is in RUN or HOLD and
no reactive line flows. The premise `BudgetLaw` is `QueuesStayBounded`'s. -/
def Obligations.ReleasesKeepReactiveGasSafe : Prop :=
  (∀ before after : State, (∀ k, GasSafe (after.tube k)) → ∀ k, GasSafe ((before.finish after).tube k))
  ∧ (∀ s t : State, ReactiveLaw s → step s = .next t → ReactiveLaw t)
  ∧ ∀ s t : State, ReactiveLaw s → TripLaw s → BudgetLaw s → step s = .next t → TripLaw t
    ∧ (t.abort.latch = true → ∀ k, (t.tube k).mode ≠ .run ∧ (t.tube k).mode ≠ .hold
      ∧ ∀ l, ((t.tube k).gas.lines.get l).reactive = true → ((t.tube k).gas.lines.get l).flow = 0)

/-- Every step keeps the canonical form of the image memory, which is the model's choice of how it lists the image's
words (log 2), no rule of the manual. -/
def Obligations.MemoryStaysCanonical : Prop :=
  ∀ s t : State, s.mem.wf = true → step s = .next t → t.mem.wf = true

/-- R168: the Delivery Queue keeps at most one entry per address and its urgent entries in front. -/
def Obligations.DeliveryQueueStaysOrdered : Prop :=
  ∀ s t : State, DeliveryOk s.delivery → step s = .next t → DeliveryOk t.delivery

/-- R35, R182: every Held Write Queue keeps at most eight entries, one per channel, with only its head CLAIMING, and
the Notice Buffer at most eight records. R125, R126, R128: every step keeps `BudgetLaw`: the draw of the present tubes' lines,
each line's flow in hundreds of SCCM rounded up times its weight, stays within the exhaust capacity, the tubes that hold a
ramp slot within the slot count, and at most eight claims wait. -/
def Obligations.QueuesStayBounded : Prop :=
  (∀ s t : State, (∀ k, QueueOk (s.tube k).queue) → s.notices.buffer.length ≤ 8 → step s = .next t →
    (∀ k, QueueOk (t.tube k).queue) ∧ t.notices.buffer.length ≤ 8)
  ∧ ∀ s t : State, ReactiveLaw s → TripLaw s → BudgetLaw s → step s = .next t → BudgetLaw t
    ∧ ((t.presentTubes.map fun k =>
        ((t.tube k).gas.lines.toList.map fun l => (l.flow.toNat + 99) / 100 * l.weight).sum).sum ≤ t.budget.capacity)
    ∧ (([.i0, .i1, .i2, .i3] : List Tube).filter fun k => (t.tube k).ramp.slotHeld).length ≤ t.budget.slots
    ∧ t.budget.claims.length ≤ 8

/-- The laws of the four statements before hold right after reset. That the image memory, with nothing listed, is in its
canonical form is the model's choice of how it lists the image's words (log 2), no rule of the manual. -/
def Obligations.ResetHoldsTheLaws : Prop :=
  State.reset.mem.wf = true ∧ DeliveryOk State.reset.delivery ∧ State.reset.notices.buffer.length ≤ 8
    ∧ (∀ k, QueueOk (State.reset.tube k).queue ∧ GasSafe (State.reset.tube k)) ∧ ReactiveLaw State.reset
    ∧ TripLaw State.reset ∧ BudgetLaw State.reset
end

