-- ==== Sys2Proof/Laws/State.lean ====
section
/-! SUPPORT. One lemma for each field of the state under each named update, so that no proof unfolds a record. -/

namespace Sys2Proof.Machine

variable (s : State)

@[simp] theorem State.setTube_pending (t : Tube) (x : TubeState) : (s.setTube t x).pending = s.pending := rfl
@[simp] theorem State.setTube_mem (t : Tube) (x : TubeState) : (s.setTube t x).mem = s.mem := rfl
@[simp] theorem State.setTube_straps (t : Tube) (x : TubeState) : (s.setTube t x).straps = s.straps := rfl
@[simp] theorem State.setTube_clock (t : Tube) (x : TubeState) : (s.setTube t x).clock = s.clock := rfl
@[simp] theorem State.setTube_port (t : Tube) (x : TubeState) : (s.setTube t x).port = s.port := rfl
@[simp] theorem State.setTube_root (t : Tube) (x : TubeState) : (s.setTube t x).root = s.root := rfl
@[simp] theorem State.setTube_cache (t : Tube) (x : TubeState) : (s.setTube t x).cache = s.cache := rfl
@[simp] theorem State.setTube_replacement (t : Tube) (x : TubeState) : (s.setTube t x).replacement = s.replacement := rfl
@[simp] theorem State.setTube_binding (t : Tube) (x : TubeState) : (s.setTube t x).binding = s.binding := rfl
@[simp] theorem State.setTube_tubes (t : Tube) (x : TubeState) : (s.setTube t x).tubes = s.tubes.set t x := rfl
@[simp] theorem State.setTube_budget (t : Tube) (x : TubeState) : (s.setTube t x).budget = s.budget := rfl
@[simp] theorem State.setTube_abort (t : Tube) (x : TubeState) : (s.setTube t x).abort = s.abort := rfl
@[simp] theorem State.setTube_scanner (t : Tube) (x : TubeState) : (s.setTube t x).scanner = s.scanner := rfl
@[simp] theorem State.setTube_measured (t : Tube) (x : TubeState) : (s.setTube t x).measured = s.measured := rfl
@[simp] theorem State.setTube_arrivals (t : Tube) (x : TubeState) : (s.setTube t x).arrivals = s.arrivals := rfl
@[simp] theorem State.setTube_delivery (t : Tube) (x : TubeState) : (s.setTube t x).delivery = s.delivery := rfl
@[simp] theorem State.setTube_bus (t : Tube) (x : TubeState) : (s.setTube t x).bus = s.bus := rfl
@[simp] theorem State.setTube_notices (t : Tube) (x : TubeState) : (s.setTube t x).notices = s.notices := rfl
@[simp] theorem State.setTube_monitor (t : Tube) (x : TubeState) : (s.setTube t x).monitor = s.monitor := rfl
@[simp] theorem State.setTube_loader (t : Tube) (x : TubeState) : (s.setTube t x).loader = s.loader := rfl
@[simp] theorem State.setTube_freeCount (t : Tube) (x : TubeState) : (s.setTube t x).freeCount = s.freeCount := rfl

@[simp] theorem State.modTube_pending (t : Tube) (f : TubeState → TubeState) : (s.modTube t f).pending = s.pending := rfl
@[simp] theorem State.modTube_mem (t : Tube) (f : TubeState → TubeState) : (s.modTube t f).mem = s.mem := rfl
@[simp] theorem State.modTube_straps (t : Tube) (f : TubeState → TubeState) : (s.modTube t f).straps = s.straps := rfl
@[simp] theorem State.modTube_clock (t : Tube) (f : TubeState → TubeState) : (s.modTube t f).clock = s.clock := rfl
@[simp] theorem State.modTube_port (t : Tube) (f : TubeState → TubeState) : (s.modTube t f).port = s.port := rfl
@[simp] theorem State.modTube_root (t : Tube) (f : TubeState → TubeState) : (s.modTube t f).root = s.root := rfl
@[simp] theorem State.modTube_cache (t : Tube) (f : TubeState → TubeState) : (s.modTube t f).cache = s.cache := rfl
@[simp] theorem State.modTube_replacement (t : Tube) (f : TubeState → TubeState) : (s.modTube t f).replacement = s.replacement := rfl
@[simp] theorem State.modTube_binding (t : Tube) (f : TubeState → TubeState) : (s.modTube t f).binding = s.binding := rfl
@[simp] theorem State.modTube_tubes (t : Tube) (f : TubeState → TubeState) : (s.modTube t f).tubes = s.tubes.set t (f (s.tube t)) := rfl
@[simp] theorem State.modTube_budget (t : Tube) (f : TubeState → TubeState) : (s.modTube t f).budget = s.budget := rfl
@[simp] theorem State.modTube_abort (t : Tube) (f : TubeState → TubeState) : (s.modTube t f).abort = s.abort := rfl
@[simp] theorem State.modTube_scanner (t : Tube) (f : TubeState → TubeState) : (s.modTube t f).scanner = s.scanner := rfl
@[simp] theorem State.modTube_measured (t : Tube) (f : TubeState → TubeState) : (s.modTube t f).measured = s.measured := rfl
@[simp] theorem State.modTube_arrivals (t : Tube) (f : TubeState → TubeState) : (s.modTube t f).arrivals = s.arrivals := rfl
@[simp] theorem State.modTube_delivery (t : Tube) (f : TubeState → TubeState) : (s.modTube t f).delivery = s.delivery := rfl
@[simp] theorem State.modTube_bus (t : Tube) (f : TubeState → TubeState) : (s.modTube t f).bus = s.bus := rfl
@[simp] theorem State.modTube_notices (t : Tube) (f : TubeState → TubeState) : (s.modTube t f).notices = s.notices := rfl
@[simp] theorem State.modTube_monitor (t : Tube) (f : TubeState → TubeState) : (s.modTube t f).monitor = s.monitor := rfl
@[simp] theorem State.modTube_loader (t : Tube) (f : TubeState → TubeState) : (s.modTube t f).loader = s.loader := rfl
@[simp] theorem State.modTube_freeCount (t : Tube) (f : TubeState → TubeState) : (s.modTube t f).freeCount = s.freeCount := rfl

@[simp] theorem State.modRamp_pending (t : Tube) (f : Ramp → Ramp) : (s.modRamp t f).pending = s.pending := rfl
@[simp] theorem State.modRamp_mem (t : Tube) (f : Ramp → Ramp) : (s.modRamp t f).mem = s.mem := rfl
@[simp] theorem State.modRamp_straps (t : Tube) (f : Ramp → Ramp) : (s.modRamp t f).straps = s.straps := rfl
@[simp] theorem State.modRamp_clock (t : Tube) (f : Ramp → Ramp) : (s.modRamp t f).clock = s.clock := rfl
@[simp] theorem State.modRamp_port (t : Tube) (f : Ramp → Ramp) : (s.modRamp t f).port = s.port := rfl
@[simp] theorem State.modRamp_root (t : Tube) (f : Ramp → Ramp) : (s.modRamp t f).root = s.root := rfl
@[simp] theorem State.modRamp_cache (t : Tube) (f : Ramp → Ramp) : (s.modRamp t f).cache = s.cache := rfl
@[simp] theorem State.modRamp_replacement (t : Tube) (f : Ramp → Ramp) : (s.modRamp t f).replacement = s.replacement := rfl
@[simp] theorem State.modRamp_binding (t : Tube) (f : Ramp → Ramp) : (s.modRamp t f).binding = s.binding := rfl
@[simp] theorem State.modRamp_budget (t : Tube) (f : Ramp → Ramp) : (s.modRamp t f).budget = s.budget := rfl
@[simp] theorem State.modRamp_abort (t : Tube) (f : Ramp → Ramp) : (s.modRamp t f).abort = s.abort := rfl
@[simp] theorem State.modRamp_scanner (t : Tube) (f : Ramp → Ramp) : (s.modRamp t f).scanner = s.scanner := rfl
@[simp] theorem State.modRamp_measured (t : Tube) (f : Ramp → Ramp) : (s.modRamp t f).measured = s.measured := rfl
@[simp] theorem State.modRamp_arrivals (t : Tube) (f : Ramp → Ramp) : (s.modRamp t f).arrivals = s.arrivals := rfl
@[simp] theorem State.modRamp_delivery (t : Tube) (f : Ramp → Ramp) : (s.modRamp t f).delivery = s.delivery := rfl
@[simp] theorem State.modRamp_bus (t : Tube) (f : Ramp → Ramp) : (s.modRamp t f).bus = s.bus := rfl
@[simp] theorem State.modRamp_notices (t : Tube) (f : Ramp → Ramp) : (s.modRamp t f).notices = s.notices := rfl
@[simp] theorem State.modRamp_monitor (t : Tube) (f : Ramp → Ramp) : (s.modRamp t f).monitor = s.monitor := rfl
@[simp] theorem State.modRamp_loader (t : Tube) (f : Ramp → Ramp) : (s.modRamp t f).loader = s.loader := rfl
@[simp] theorem State.modRamp_freeCount (t : Tube) (f : Ramp → Ramp) : (s.modRamp t f).freeCount = s.freeCount := rfl

@[simp] theorem State.modGas_pending (t : Tube) (f : Gas → Gas) : (s.modGas t f).pending = s.pending := rfl
@[simp] theorem State.modGas_mem (t : Tube) (f : Gas → Gas) : (s.modGas t f).mem = s.mem := rfl
@[simp] theorem State.modGas_straps (t : Tube) (f : Gas → Gas) : (s.modGas t f).straps = s.straps := rfl
@[simp] theorem State.modGas_clock (t : Tube) (f : Gas → Gas) : (s.modGas t f).clock = s.clock := rfl
@[simp] theorem State.modGas_port (t : Tube) (f : Gas → Gas) : (s.modGas t f).port = s.port := rfl
@[simp] theorem State.modGas_root (t : Tube) (f : Gas → Gas) : (s.modGas t f).root = s.root := rfl
@[simp] theorem State.modGas_cache (t : Tube) (f : Gas → Gas) : (s.modGas t f).cache = s.cache := rfl
@[simp] theorem State.modGas_replacement (t : Tube) (f : Gas → Gas) : (s.modGas t f).replacement = s.replacement := rfl
@[simp] theorem State.modGas_binding (t : Tube) (f : Gas → Gas) : (s.modGas t f).binding = s.binding := rfl
@[simp] theorem State.modGas_budget (t : Tube) (f : Gas → Gas) : (s.modGas t f).budget = s.budget := rfl
@[simp] theorem State.modGas_abort (t : Tube) (f : Gas → Gas) : (s.modGas t f).abort = s.abort := rfl
@[simp] theorem State.modGas_scanner (t : Tube) (f : Gas → Gas) : (s.modGas t f).scanner = s.scanner := rfl
@[simp] theorem State.modGas_measured (t : Tube) (f : Gas → Gas) : (s.modGas t f).measured = s.measured := rfl
@[simp] theorem State.modGas_arrivals (t : Tube) (f : Gas → Gas) : (s.modGas t f).arrivals = s.arrivals := rfl
@[simp] theorem State.modGas_delivery (t : Tube) (f : Gas → Gas) : (s.modGas t f).delivery = s.delivery := rfl
@[simp] theorem State.modGas_bus (t : Tube) (f : Gas → Gas) : (s.modGas t f).bus = s.bus := rfl
@[simp] theorem State.modGas_notices (t : Tube) (f : Gas → Gas) : (s.modGas t f).notices = s.notices := rfl
@[simp] theorem State.modGas_monitor (t : Tube) (f : Gas → Gas) : (s.modGas t f).monitor = s.monitor := rfl
@[simp] theorem State.modGas_loader (t : Tube) (f : Gas → Gas) : (s.modGas t f).loader = s.loader := rfl
@[simp] theorem State.modGas_freeCount (t : Tube) (f : Gas → Gas) : (s.modGas t f).freeCount = s.freeCount := rfl

@[simp] theorem State.modBoat_pending (t : Tube) (f : Boat → Boat) : (s.modBoat t f).pending = s.pending := rfl
@[simp] theorem State.modBoat_mem (t : Tube) (f : Boat → Boat) : (s.modBoat t f).mem = s.mem := rfl
@[simp] theorem State.modBoat_straps (t : Tube) (f : Boat → Boat) : (s.modBoat t f).straps = s.straps := rfl
@[simp] theorem State.modBoat_clock (t : Tube) (f : Boat → Boat) : (s.modBoat t f).clock = s.clock := rfl
@[simp] theorem State.modBoat_port (t : Tube) (f : Boat → Boat) : (s.modBoat t f).port = s.port := rfl
@[simp] theorem State.modBoat_root (t : Tube) (f : Boat → Boat) : (s.modBoat t f).root = s.root := rfl
@[simp] theorem State.modBoat_cache (t : Tube) (f : Boat → Boat) : (s.modBoat t f).cache = s.cache := rfl
@[simp] theorem State.modBoat_replacement (t : Tube) (f : Boat → Boat) : (s.modBoat t f).replacement = s.replacement := rfl
@[simp] theorem State.modBoat_binding (t : Tube) (f : Boat → Boat) : (s.modBoat t f).binding = s.binding := rfl
@[simp] theorem State.modBoat_budget (t : Tube) (f : Boat → Boat) : (s.modBoat t f).budget = s.budget := rfl
@[simp] theorem State.modBoat_abort (t : Tube) (f : Boat → Boat) : (s.modBoat t f).abort = s.abort := rfl
@[simp] theorem State.modBoat_scanner (t : Tube) (f : Boat → Boat) : (s.modBoat t f).scanner = s.scanner := rfl
@[simp] theorem State.modBoat_measured (t : Tube) (f : Boat → Boat) : (s.modBoat t f).measured = s.measured := rfl
@[simp] theorem State.modBoat_arrivals (t : Tube) (f : Boat → Boat) : (s.modBoat t f).arrivals = s.arrivals := rfl
@[simp] theorem State.modBoat_delivery (t : Tube) (f : Boat → Boat) : (s.modBoat t f).delivery = s.delivery := rfl
@[simp] theorem State.modBoat_bus (t : Tube) (f : Boat → Boat) : (s.modBoat t f).bus = s.bus := rfl
@[simp] theorem State.modBoat_notices (t : Tube) (f : Boat → Boat) : (s.modBoat t f).notices = s.notices := rfl
@[simp] theorem State.modBoat_monitor (t : Tube) (f : Boat → Boat) : (s.modBoat t f).monitor = s.monitor := rfl
@[simp] theorem State.modBoat_loader (t : Tube) (f : Boat → Boat) : (s.modBoat t f).loader = s.loader := rfl
@[simp] theorem State.modBoat_freeCount (t : Tube) (f : Boat → Boat) : (s.modBoat t f).freeCount = s.freeCount := rfl

@[simp] theorem State.modSummary_pending (t : Tube) (f : Summary → Summary) : (s.modSummary t f).pending = s.pending := rfl
@[simp] theorem State.modSummary_mem (t : Tube) (f : Summary → Summary) : (s.modSummary t f).mem = s.mem := rfl
@[simp] theorem State.modSummary_straps (t : Tube) (f : Summary → Summary) : (s.modSummary t f).straps = s.straps := rfl
@[simp] theorem State.modSummary_clock (t : Tube) (f : Summary → Summary) : (s.modSummary t f).clock = s.clock := rfl
@[simp] theorem State.modSummary_port (t : Tube) (f : Summary → Summary) : (s.modSummary t f).port = s.port := rfl
@[simp] theorem State.modSummary_root (t : Tube) (f : Summary → Summary) : (s.modSummary t f).root = s.root := rfl
@[simp] theorem State.modSummary_cache (t : Tube) (f : Summary → Summary) : (s.modSummary t f).cache = s.cache := rfl
@[simp] theorem State.modSummary_replacement (t : Tube) (f : Summary → Summary) : (s.modSummary t f).replacement = s.replacement := rfl
@[simp] theorem State.modSummary_binding (t : Tube) (f : Summary → Summary) : (s.modSummary t f).binding = s.binding := rfl
@[simp] theorem State.modSummary_budget (t : Tube) (f : Summary → Summary) : (s.modSummary t f).budget = s.budget := rfl
@[simp] theorem State.modSummary_abort (t : Tube) (f : Summary → Summary) : (s.modSummary t f).abort = s.abort := rfl
@[simp] theorem State.modSummary_scanner (t : Tube) (f : Summary → Summary) : (s.modSummary t f).scanner = s.scanner := rfl
@[simp] theorem State.modSummary_measured (t : Tube) (f : Summary → Summary) : (s.modSummary t f).measured = s.measured := rfl
@[simp] theorem State.modSummary_arrivals (t : Tube) (f : Summary → Summary) : (s.modSummary t f).arrivals = s.arrivals := rfl
@[simp] theorem State.modSummary_delivery (t : Tube) (f : Summary → Summary) : (s.modSummary t f).delivery = s.delivery := rfl
@[simp] theorem State.modSummary_bus (t : Tube) (f : Summary → Summary) : (s.modSummary t f).bus = s.bus := rfl
@[simp] theorem State.modSummary_notices (t : Tube) (f : Summary → Summary) : (s.modSummary t f).notices = s.notices := rfl
@[simp] theorem State.modSummary_monitor (t : Tube) (f : Summary → Summary) : (s.modSummary t f).monitor = s.monitor := rfl
@[simp] theorem State.modSummary_loader (t : Tube) (f : Summary → Summary) : (s.modSummary t f).loader = s.loader := rfl
@[simp] theorem State.modSummary_freeCount (t : Tube) (f : Summary → Summary) : (s.modSummary t f).freeCount = s.freeCount := rfl

@[simp] theorem State.modNotices_pending (f : NoticeWriter → NoticeWriter) : (s.modNotices f).pending = s.pending := rfl
@[simp] theorem State.modNotices_mem (f : NoticeWriter → NoticeWriter) : (s.modNotices f).mem = s.mem := rfl
@[simp] theorem State.modNotices_straps (f : NoticeWriter → NoticeWriter) : (s.modNotices f).straps = s.straps := rfl
@[simp] theorem State.modNotices_clock (f : NoticeWriter → NoticeWriter) : (s.modNotices f).clock = s.clock := rfl
@[simp] theorem State.modNotices_port (f : NoticeWriter → NoticeWriter) : (s.modNotices f).port = s.port := rfl
@[simp] theorem State.modNotices_root (f : NoticeWriter → NoticeWriter) : (s.modNotices f).root = s.root := rfl
@[simp] theorem State.modNotices_cache (f : NoticeWriter → NoticeWriter) : (s.modNotices f).cache = s.cache := rfl
@[simp] theorem State.modNotices_replacement (f : NoticeWriter → NoticeWriter) : (s.modNotices f).replacement = s.replacement := rfl
@[simp] theorem State.modNotices_binding (f : NoticeWriter → NoticeWriter) : (s.modNotices f).binding = s.binding := rfl
@[simp] theorem State.modNotices_tubes (f : NoticeWriter → NoticeWriter) : (s.modNotices f).tubes = s.tubes := rfl
@[simp] theorem State.modNotices_budget (f : NoticeWriter → NoticeWriter) : (s.modNotices f).budget = s.budget := rfl
@[simp] theorem State.modNotices_abort (f : NoticeWriter → NoticeWriter) : (s.modNotices f).abort = s.abort := rfl
@[simp] theorem State.modNotices_scanner (f : NoticeWriter → NoticeWriter) : (s.modNotices f).scanner = s.scanner := rfl
@[simp] theorem State.modNotices_measured (f : NoticeWriter → NoticeWriter) : (s.modNotices f).measured = s.measured := rfl
@[simp] theorem State.modNotices_arrivals (f : NoticeWriter → NoticeWriter) : (s.modNotices f).arrivals = s.arrivals := rfl
@[simp] theorem State.modNotices_delivery (f : NoticeWriter → NoticeWriter) : (s.modNotices f).delivery = s.delivery := rfl
@[simp] theorem State.modNotices_bus (f : NoticeWriter → NoticeWriter) : (s.modNotices f).bus = s.bus := rfl
@[simp] theorem State.modNotices_notices (f : NoticeWriter → NoticeWriter) : (s.modNotices f).notices = f s.notices := rfl
@[simp] theorem State.modNotices_monitor (f : NoticeWriter → NoticeWriter) : (s.modNotices f).monitor = s.monitor := rfl
@[simp] theorem State.modNotices_loader (f : NoticeWriter → NoticeWriter) : (s.modNotices f).loader = s.loader := rfl
@[simp] theorem State.modNotices_freeCount (f : NoticeWriter → NoticeWriter) : (s.modNotices f).freeCount = s.freeCount := rfl

@[simp] theorem State.modBudget_pending (f : Budget → Budget) : (s.modBudget f).pending = s.pending := rfl
@[simp] theorem State.modBudget_mem (f : Budget → Budget) : (s.modBudget f).mem = s.mem := rfl
@[simp] theorem State.modBudget_straps (f : Budget → Budget) : (s.modBudget f).straps = s.straps := rfl
@[simp] theorem State.modBudget_clock (f : Budget → Budget) : (s.modBudget f).clock = s.clock := rfl
@[simp] theorem State.modBudget_port (f : Budget → Budget) : (s.modBudget f).port = s.port := rfl
@[simp] theorem State.modBudget_root (f : Budget → Budget) : (s.modBudget f).root = s.root := rfl
@[simp] theorem State.modBudget_cache (f : Budget → Budget) : (s.modBudget f).cache = s.cache := rfl
@[simp] theorem State.modBudget_replacement (f : Budget → Budget) : (s.modBudget f).replacement = s.replacement := rfl
@[simp] theorem State.modBudget_binding (f : Budget → Budget) : (s.modBudget f).binding = s.binding := rfl
@[simp] theorem State.modBudget_tubes (f : Budget → Budget) : (s.modBudget f).tubes = s.tubes := rfl
@[simp] theorem State.modBudget_budget (f : Budget → Budget) : (s.modBudget f).budget = f s.budget := rfl
@[simp] theorem State.modBudget_abort (f : Budget → Budget) : (s.modBudget f).abort = s.abort := rfl
@[simp] theorem State.modBudget_scanner (f : Budget → Budget) : (s.modBudget f).scanner = s.scanner := rfl
@[simp] theorem State.modBudget_measured (f : Budget → Budget) : (s.modBudget f).measured = s.measured := rfl
@[simp] theorem State.modBudget_arrivals (f : Budget → Budget) : (s.modBudget f).arrivals = s.arrivals := rfl
@[simp] theorem State.modBudget_delivery (f : Budget → Budget) : (s.modBudget f).delivery = s.delivery := rfl
@[simp] theorem State.modBudget_bus (f : Budget → Budget) : (s.modBudget f).bus = s.bus := rfl
@[simp] theorem State.modBudget_notices (f : Budget → Budget) : (s.modBudget f).notices = s.notices := rfl
@[simp] theorem State.modBudget_monitor (f : Budget → Budget) : (s.modBudget f).monitor = s.monitor := rfl
@[simp] theorem State.modBudget_loader (f : Budget → Budget) : (s.modBudget f).loader = s.loader := rfl
@[simp] theorem State.modBudget_freeCount (f : Budget → Budget) : (s.modBudget f).freeCount = s.freeCount := rfl

@[simp] theorem State.modAbort_pending (f : AbortControl → AbortControl) : (s.modAbort f).pending = s.pending := rfl
@[simp] theorem State.modAbort_mem (f : AbortControl → AbortControl) : (s.modAbort f).mem = s.mem := rfl
@[simp] theorem State.modAbort_straps (f : AbortControl → AbortControl) : (s.modAbort f).straps = s.straps := rfl
@[simp] theorem State.modAbort_clock (f : AbortControl → AbortControl) : (s.modAbort f).clock = s.clock := rfl
@[simp] theorem State.modAbort_port (f : AbortControl → AbortControl) : (s.modAbort f).port = s.port := rfl
@[simp] theorem State.modAbort_root (f : AbortControl → AbortControl) : (s.modAbort f).root = s.root := rfl
@[simp] theorem State.modAbort_cache (f : AbortControl → AbortControl) : (s.modAbort f).cache = s.cache := rfl
@[simp] theorem State.modAbort_replacement (f : AbortControl → AbortControl) : (s.modAbort f).replacement = s.replacement := rfl
@[simp] theorem State.modAbort_binding (f : AbortControl → AbortControl) : (s.modAbort f).binding = s.binding := rfl
@[simp] theorem State.modAbort_tubes (f : AbortControl → AbortControl) : (s.modAbort f).tubes = s.tubes := rfl
@[simp] theorem State.modAbort_budget (f : AbortControl → AbortControl) : (s.modAbort f).budget = s.budget := rfl
@[simp] theorem State.modAbort_abort (f : AbortControl → AbortControl) : (s.modAbort f).abort = f s.abort := rfl
@[simp] theorem State.modAbort_scanner (f : AbortControl → AbortControl) : (s.modAbort f).scanner = s.scanner := rfl
@[simp] theorem State.modAbort_measured (f : AbortControl → AbortControl) : (s.modAbort f).measured = s.measured := rfl
@[simp] theorem State.modAbort_arrivals (f : AbortControl → AbortControl) : (s.modAbort f).arrivals = s.arrivals := rfl
@[simp] theorem State.modAbort_delivery (f : AbortControl → AbortControl) : (s.modAbort f).delivery = s.delivery := rfl
@[simp] theorem State.modAbort_bus (f : AbortControl → AbortControl) : (s.modAbort f).bus = s.bus := rfl
@[simp] theorem State.modAbort_notices (f : AbortControl → AbortControl) : (s.modAbort f).notices = s.notices := rfl
@[simp] theorem State.modAbort_monitor (f : AbortControl → AbortControl) : (s.modAbort f).monitor = s.monitor := rfl
@[simp] theorem State.modAbort_loader (f : AbortControl → AbortControl) : (s.modAbort f).loader = s.loader := rfl
@[simp] theorem State.modAbort_freeCount (f : AbortControl → AbortControl) : (s.modAbort f).freeCount = s.freeCount := rfl

@[simp] theorem State.modScanner_pending (f : Scanner → Scanner) : (s.modScanner f).pending = s.pending := rfl
@[simp] theorem State.modScanner_mem (f : Scanner → Scanner) : (s.modScanner f).mem = s.mem := rfl
@[simp] theorem State.modScanner_straps (f : Scanner → Scanner) : (s.modScanner f).straps = s.straps := rfl
@[simp] theorem State.modScanner_clock (f : Scanner → Scanner) : (s.modScanner f).clock = s.clock := rfl
@[simp] theorem State.modScanner_port (f : Scanner → Scanner) : (s.modScanner f).port = s.port := rfl
@[simp] theorem State.modScanner_root (f : Scanner → Scanner) : (s.modScanner f).root = s.root := rfl
@[simp] theorem State.modScanner_cache (f : Scanner → Scanner) : (s.modScanner f).cache = s.cache := rfl
@[simp] theorem State.modScanner_replacement (f : Scanner → Scanner) : (s.modScanner f).replacement = s.replacement := rfl
@[simp] theorem State.modScanner_binding (f : Scanner → Scanner) : (s.modScanner f).binding = s.binding := rfl
@[simp] theorem State.modScanner_tubes (f : Scanner → Scanner) : (s.modScanner f).tubes = s.tubes := rfl
@[simp] theorem State.modScanner_budget (f : Scanner → Scanner) : (s.modScanner f).budget = s.budget := rfl
@[simp] theorem State.modScanner_abort (f : Scanner → Scanner) : (s.modScanner f).abort = s.abort := rfl
@[simp] theorem State.modScanner_scanner (f : Scanner → Scanner) : (s.modScanner f).scanner = f s.scanner := rfl
@[simp] theorem State.modScanner_measured (f : Scanner → Scanner) : (s.modScanner f).measured = s.measured := rfl
@[simp] theorem State.modScanner_arrivals (f : Scanner → Scanner) : (s.modScanner f).arrivals = s.arrivals := rfl
@[simp] theorem State.modScanner_delivery (f : Scanner → Scanner) : (s.modScanner f).delivery = s.delivery := rfl
@[simp] theorem State.modScanner_bus (f : Scanner → Scanner) : (s.modScanner f).bus = s.bus := rfl
@[simp] theorem State.modScanner_notices (f : Scanner → Scanner) : (s.modScanner f).notices = s.notices := rfl
@[simp] theorem State.modScanner_monitor (f : Scanner → Scanner) : (s.modScanner f).monitor = s.monitor := rfl
@[simp] theorem State.modScanner_loader (f : Scanner → Scanner) : (s.modScanner f).loader = s.loader := rfl
@[simp] theorem State.modScanner_freeCount (f : Scanner → Scanner) : (s.modScanner f).freeCount = s.freeCount := rfl

@[simp] theorem State.modMonitor_pending (f : Monitor → Monitor) : (s.modMonitor f).pending = s.pending := rfl
@[simp] theorem State.modMonitor_mem (f : Monitor → Monitor) : (s.modMonitor f).mem = s.mem := rfl
@[simp] theorem State.modMonitor_straps (f : Monitor → Monitor) : (s.modMonitor f).straps = s.straps := rfl
@[simp] theorem State.modMonitor_clock (f : Monitor → Monitor) : (s.modMonitor f).clock = s.clock := rfl
@[simp] theorem State.modMonitor_port (f : Monitor → Monitor) : (s.modMonitor f).port = s.port := rfl
@[simp] theorem State.modMonitor_root (f : Monitor → Monitor) : (s.modMonitor f).root = s.root := rfl
@[simp] theorem State.modMonitor_cache (f : Monitor → Monitor) : (s.modMonitor f).cache = s.cache := rfl
@[simp] theorem State.modMonitor_replacement (f : Monitor → Monitor) : (s.modMonitor f).replacement = s.replacement := rfl
@[simp] theorem State.modMonitor_binding (f : Monitor → Monitor) : (s.modMonitor f).binding = s.binding := rfl
@[simp] theorem State.modMonitor_tubes (f : Monitor → Monitor) : (s.modMonitor f).tubes = s.tubes := rfl
@[simp] theorem State.modMonitor_budget (f : Monitor → Monitor) : (s.modMonitor f).budget = s.budget := rfl
@[simp] theorem State.modMonitor_abort (f : Monitor → Monitor) : (s.modMonitor f).abort = s.abort := rfl
@[simp] theorem State.modMonitor_scanner (f : Monitor → Monitor) : (s.modMonitor f).scanner = s.scanner := rfl
@[simp] theorem State.modMonitor_measured (f : Monitor → Monitor) : (s.modMonitor f).measured = s.measured := rfl
@[simp] theorem State.modMonitor_arrivals (f : Monitor → Monitor) : (s.modMonitor f).arrivals = s.arrivals := rfl
@[simp] theorem State.modMonitor_delivery (f : Monitor → Monitor) : (s.modMonitor f).delivery = s.delivery := rfl
@[simp] theorem State.modMonitor_bus (f : Monitor → Monitor) : (s.modMonitor f).bus = s.bus := rfl
@[simp] theorem State.modMonitor_notices (f : Monitor → Monitor) : (s.modMonitor f).notices = s.notices := rfl
@[simp] theorem State.modMonitor_monitor (f : Monitor → Monitor) : (s.modMonitor f).monitor = f s.monitor := rfl
@[simp] theorem State.modMonitor_loader (f : Monitor → Monitor) : (s.modMonitor f).loader = s.loader := rfl
@[simp] theorem State.modMonitor_freeCount (f : Monitor → Monitor) : (s.modMonitor f).freeCount = s.freeCount := rfl

@[simp] theorem State.modRoot_pending (f : RootCopy → RootCopy) : (s.modRoot f).pending = s.pending := rfl
@[simp] theorem State.modRoot_mem (f : RootCopy → RootCopy) : (s.modRoot f).mem = s.mem := rfl
@[simp] theorem State.modRoot_straps (f : RootCopy → RootCopy) : (s.modRoot f).straps = s.straps := rfl
@[simp] theorem State.modRoot_clock (f : RootCopy → RootCopy) : (s.modRoot f).clock = s.clock := rfl
@[simp] theorem State.modRoot_port (f : RootCopy → RootCopy) : (s.modRoot f).port = s.port := rfl
@[simp] theorem State.modRoot_root (f : RootCopy → RootCopy) : (s.modRoot f).root = f s.root := rfl
@[simp] theorem State.modRoot_cache (f : RootCopy → RootCopy) : (s.modRoot f).cache = s.cache := rfl
@[simp] theorem State.modRoot_replacement (f : RootCopy → RootCopy) : (s.modRoot f).replacement = s.replacement := rfl
@[simp] theorem State.modRoot_binding (f : RootCopy → RootCopy) : (s.modRoot f).binding = s.binding := rfl
@[simp] theorem State.modRoot_tubes (f : RootCopy → RootCopy) : (s.modRoot f).tubes = s.tubes := rfl
@[simp] theorem State.modRoot_budget (f : RootCopy → RootCopy) : (s.modRoot f).budget = s.budget := rfl
@[simp] theorem State.modRoot_abort (f : RootCopy → RootCopy) : (s.modRoot f).abort = s.abort := rfl
@[simp] theorem State.modRoot_scanner (f : RootCopy → RootCopy) : (s.modRoot f).scanner = s.scanner := rfl
@[simp] theorem State.modRoot_measured (f : RootCopy → RootCopy) : (s.modRoot f).measured = s.measured := rfl
@[simp] theorem State.modRoot_arrivals (f : RootCopy → RootCopy) : (s.modRoot f).arrivals = s.arrivals := rfl
@[simp] theorem State.modRoot_delivery (f : RootCopy → RootCopy) : (s.modRoot f).delivery = s.delivery := rfl
@[simp] theorem State.modRoot_bus (f : RootCopy → RootCopy) : (s.modRoot f).bus = s.bus := rfl
@[simp] theorem State.modRoot_notices (f : RootCopy → RootCopy) : (s.modRoot f).notices = s.notices := rfl
@[simp] theorem State.modRoot_monitor (f : RootCopy → RootCopy) : (s.modRoot f).monitor = s.monitor := rfl
@[simp] theorem State.modRoot_loader (f : RootCopy → RootCopy) : (s.modRoot f).loader = s.loader := rfl
@[simp] theorem State.modRoot_freeCount (f : RootCopy → RootCopy) : (s.modRoot f).freeCount = s.freeCount := rfl

@[simp] theorem State.deliver_pending (a : Addr) (v : Word) (u : Bool) : (s.deliver a v u).pending = s.pending := rfl
@[simp] theorem State.deliver_mem (a : Addr) (v : Word) (u : Bool) : (s.deliver a v u).mem = s.mem := rfl
@[simp] theorem State.deliver_straps (a : Addr) (v : Word) (u : Bool) : (s.deliver a v u).straps = s.straps := rfl
@[simp] theorem State.deliver_clock (a : Addr) (v : Word) (u : Bool) : (s.deliver a v u).clock = s.clock := rfl
@[simp] theorem State.deliver_port (a : Addr) (v : Word) (u : Bool) : (s.deliver a v u).port = s.port := rfl
@[simp] theorem State.deliver_root (a : Addr) (v : Word) (u : Bool) : (s.deliver a v u).root = s.root := rfl
@[simp] theorem State.deliver_cache (a : Addr) (v : Word) (u : Bool) : (s.deliver a v u).cache = s.cache := rfl
@[simp] theorem State.deliver_replacement (a : Addr) (v : Word) (u : Bool) : (s.deliver a v u).replacement = s.replacement := rfl
@[simp] theorem State.deliver_binding (a : Addr) (v : Word) (u : Bool) : (s.deliver a v u).binding = s.binding := rfl
@[simp] theorem State.deliver_tubes (a : Addr) (v : Word) (u : Bool) : (s.deliver a v u).tubes = s.tubes := rfl
@[simp] theorem State.deliver_budget (a : Addr) (v : Word) (u : Bool) : (s.deliver a v u).budget = s.budget := rfl
@[simp] theorem State.deliver_abort (a : Addr) (v : Word) (u : Bool) : (s.deliver a v u).abort = s.abort := rfl
@[simp] theorem State.deliver_scanner (a : Addr) (v : Word) (u : Bool) : (s.deliver a v u).scanner = s.scanner := rfl
@[simp] theorem State.deliver_measured (a : Addr) (v : Word) (u : Bool) : (s.deliver a v u).measured = s.measured := rfl
@[simp] theorem State.deliver_arrivals (a : Addr) (v : Word) (u : Bool) : (s.deliver a v u).arrivals = s.arrivals := rfl
@[simp] theorem State.deliver_delivery (a : Addr) (v : Word) (u : Bool) : (s.deliver a v u).delivery = placeDelivery a v u s.delivery := rfl
@[simp] theorem State.deliver_bus (a : Addr) (v : Word) (u : Bool) : (s.deliver a v u).bus = s.bus := rfl
@[simp] theorem State.deliver_notices (a : Addr) (v : Word) (u : Bool) : (s.deliver a v u).notices = s.notices := rfl
@[simp] theorem State.deliver_monitor (a : Addr) (v : Word) (u : Bool) : (s.deliver a v u).monitor = s.monitor := rfl
@[simp] theorem State.deliver_loader (a : Addr) (v : Word) (u : Bool) : (s.deliver a v u).loader = s.loader := rfl
@[simp] theorem State.deliver_freeCount (a : Addr) (v : Word) (u : Bool) : (s.deliver a v u).freeCount = s.freeCount := rfl

@[simp] theorem State.place_pending (n : Notice) : (s.place n).pending = s.pending := rfl
@[simp] theorem State.place_mem (n : Notice) : (s.place n).mem = s.mem := rfl
@[simp] theorem State.place_straps (n : Notice) : (s.place n).straps = s.straps := rfl
@[simp] theorem State.place_clock (n : Notice) : (s.place n).clock = s.clock := rfl
@[simp] theorem State.place_port (n : Notice) : (s.place n).port = s.port := rfl
@[simp] theorem State.place_root (n : Notice) : (s.place n).root = s.root := rfl
@[simp] theorem State.place_cache (n : Notice) : (s.place n).cache = s.cache := rfl
@[simp] theorem State.place_replacement (n : Notice) : (s.place n).replacement = s.replacement := rfl
@[simp] theorem State.place_binding (n : Notice) : (s.place n).binding = s.binding := rfl
@[simp] theorem State.place_tubes (n : Notice) : (s.place n).tubes = s.tubes := rfl
@[simp] theorem State.place_budget (n : Notice) : (s.place n).budget = s.budget := rfl
@[simp] theorem State.place_abort (n : Notice) : (s.place n).abort = s.abort := rfl
@[simp] theorem State.place_scanner (n : Notice) : (s.place n).scanner = s.scanner := rfl
@[simp] theorem State.place_measured (n : Notice) : (s.place n).measured = s.measured := rfl
@[simp] theorem State.place_arrivals (n : Notice) : (s.place n).arrivals = s.arrivals := rfl
@[simp] theorem State.place_delivery (n : Notice) : (s.place n).delivery = s.delivery := rfl
@[simp] theorem State.place_bus (n : Notice) : (s.place n).bus = s.bus := rfl
@[simp] theorem State.place_monitor (n : Notice) : (s.place n).monitor = s.monitor := rfl
@[simp] theorem State.place_loader (n : Notice) : (s.place n).loader = s.loader := rfl
@[simp] theorem State.place_freeCount (n : Notice) : (s.place n).freeCount = s.freeCount := rfl

@[simp] theorem State.writeWord_pending (a : Addr) (v : Word) : (s.writeWord a v).pending = s.pending := rfl
@[simp] theorem State.writeWord_mem (a : Addr) (v : Word) : (s.writeWord a v).mem = s.mem.write a.toNat v := rfl
@[simp] theorem State.writeWord_straps (a : Addr) (v : Word) : (s.writeWord a v).straps = s.straps := rfl
@[simp] theorem State.writeWord_clock (a : Addr) (v : Word) : (s.writeWord a v).clock = s.clock := rfl
@[simp] theorem State.writeWord_port (a : Addr) (v : Word) : (s.writeWord a v).port = s.port := rfl
@[simp] theorem State.writeWord_root (a : Addr) (v : Word) : (s.writeWord a v).root = s.root := rfl
@[simp] theorem State.writeWord_cache (a : Addr) (v : Word) : (s.writeWord a v).cache = s.cache := rfl
@[simp] theorem State.writeWord_replacement (a : Addr) (v : Word) : (s.writeWord a v).replacement = s.replacement := rfl
@[simp] theorem State.writeWord_binding (a : Addr) (v : Word) : (s.writeWord a v).binding = s.binding := rfl
@[simp] theorem State.writeWord_tubes (a : Addr) (v : Word) : (s.writeWord a v).tubes = s.tubes := rfl
@[simp] theorem State.writeWord_budget (a : Addr) (v : Word) : (s.writeWord a v).budget = s.budget := rfl
@[simp] theorem State.writeWord_abort (a : Addr) (v : Word) : (s.writeWord a v).abort = s.abort := rfl
@[simp] theorem State.writeWord_scanner (a : Addr) (v : Word) : (s.writeWord a v).scanner = s.scanner := rfl
@[simp] theorem State.writeWord_measured (a : Addr) (v : Word) : (s.writeWord a v).measured = s.measured := rfl
@[simp] theorem State.writeWord_arrivals (a : Addr) (v : Word) : (s.writeWord a v).arrivals = s.arrivals := rfl
@[simp] theorem State.writeWord_delivery (a : Addr) (v : Word) : (s.writeWord a v).delivery = s.delivery := rfl
@[simp] theorem State.writeWord_bus (a : Addr) (v : Word) : (s.writeWord a v).bus = s.bus := rfl
@[simp] theorem State.writeWord_notices (a : Addr) (v : Word) : (s.writeWord a v).notices = s.notices := rfl
@[simp] theorem State.writeWord_monitor (a : Addr) (v : Word) : (s.writeWord a v).monitor = s.monitor := rfl
@[simp] theorem State.writeWord_loader (a : Addr) (v : Word) : (s.writeWord a v).loader = s.loader := rfl
@[simp] theorem State.writeWord_freeCount (a : Addr) (v : Word) : (s.writeWord a v).freeCount = s.freeCount := rfl

/-! ## Tubes -/

theorem Four.get_set {α : Type} (v : Four α) (i j : Ix4) (x : α) : (v.set i x).get j = if j = i then x else v.get j := by
  cases i <;> cases j <;> rfl

theorem Five.get_set {α : Type} (v : Five α) (i j : Ix5) (x : α) : (v.set i x).get j = if j = i then x else v.get j := by
  cases i <;> cases j <;> rfl

theorem Eight.get_set {α : Type} (v : Eight α) (i j : Ix8) (x : α) : (v.set i x).get j = if j = i then x else v.get j := by
  cases i <;> cases j <;> rfl

@[simp] theorem Four.get_map {α β : Type} (f : α → β) (v : Four α) (i : Ix4) : (v.map f).get i = f (v.get i) := by
  cases i <;> rfl

@[simp] theorem Five.get_map {α β : Type} (f : α → β) (v : Five α) (i : Ix5) : (v.map f).get i = f (v.get i) := by
  cases i <;> rfl

@[simp] theorem Eight.get_map {α β : Type} (f : α → β) (v : Eight α) (i : Ix8) : (v.map f).get i = f (v.get i) := by
  cases i <;> rfl

@[simp] theorem Four.get_fill {α : Type} (x : α) (i : Ix4) : (Four.fill x).get i = x := by cases i <;> rfl

@[simp] theorem Five.get_fill {α : Type} (x : α) (i : Ix5) : (Five.fill x).get i = x := by cases i <;> rfl

@[simp] theorem Eight.get_fill {α : Type} (x : α) (i : Ix8) : (Eight.fill x).get i = x := by cases i <;> rfl

@[simp] theorem Five.get_ofFn {α : Type} (f : Ix5 → α) (i : Ix5) : (Five.ofFn f).get i = f i := by cases i <;> rfl

@[simp] theorem Eight.get_ofFn {α : Type} (f : Ix8 → α) (i : Ix8) : (Eight.ofFn f).get i = f i := by cases i <;> rfl

theorem Four.ext_get {α : Type} {v w : Four α} (h : ∀ i, v.get i = w.get i) : v = w := by
  cases v; cases w
  simpa [Four.get] using And.intro (h .i0) (And.intro (h .i1) (And.intro (h .i2) (h .i3)))

theorem Four.mem_toList {α : Type} {v : Four α} {x : α} : x ∈ v.toList ↔ ∃ i, v.get i = x := by
  constructor
  · intro h
    simp [Four.toList] at h
    rcases h with h | h | h | h
    all_goals first | exact ⟨.i0, h.symm⟩ | exact ⟨.i1, h.symm⟩ | exact ⟨.i2, h.symm⟩ | exact ⟨.i3, h.symm⟩
  · rintro ⟨i, rfl⟩
    cases i <;> simp [Four.toList, Four.get]

theorem Eight.mem_toList {α : Type} {v : Eight α} {x : α} : x ∈ v.toList ↔ ∃ i, v.get i = x := by
  constructor
  · intro h
    simp [Eight.toList] at h
    rcases h with h | h | h | h | h | h | h | h
    all_goals
      first
        | exact ⟨.i0, h.symm⟩ | exact ⟨.i1, h.symm⟩ | exact ⟨.i2, h.symm⟩ | exact ⟨.i3, h.symm⟩
        | exact ⟨.i4, h.symm⟩ | exact ⟨.i5, h.symm⟩ | exact ⟨.i6, h.symm⟩ | exact ⟨.i7, h.symm⟩
  · rintro ⟨i, rfl⟩
    cases i <;> simp [Eight.toList, Eight.get]

/-- A tube index is one of the four. -/
theorem Ix4.mem_all (i : Ix4) : i ∈ Ix4.all := by cases i <;> decide

theorem Ix8.mem_all (i : Ix8) : i ∈ Ix8.all := by cases i <;> decide

theorem Ix5.mem_all (i : Ix5) : i ∈ Ix5.all := by cases i <;> decide

@[simp] theorem State.tube_setTube (t k : Tube) (x : TubeState) :
    (s.setTube t x).tube k = if k = t then x else s.tube k := Four.get_set _ _ _ _

@[simp] theorem State.tube_modTube (t k : Tube) (f : TubeState → TubeState) :
    (s.modTube t f).tube k = if k = t then f (s.tube t) else s.tube k := Four.get_set _ _ _ _

@[simp] theorem State.tube_modRamp (t k : Tube) (f : Ramp → Ramp) :
    (s.modRamp t f).tube k = if k = t then { s.tube t with ramp := f (s.tube t).ramp } else s.tube k :=
  Four.get_set _ _ _ _

@[simp] theorem State.tube_modGas (t k : Tube) (f : Gas → Gas) :
    (s.modGas t f).tube k = if k = t then { s.tube t with gas := f (s.tube t).gas } else s.tube k :=
  Four.get_set _ _ _ _

@[simp] theorem State.tube_modBoat (t k : Tube) (f : Boat → Boat) :
    (s.modBoat t f).tube k = if k = t then { s.tube t with boat := f (s.tube t).boat } else s.tube k :=
  Four.get_set _ _ _ _

@[simp] theorem State.tube_modSummary (t k : Tube) (f : Summary → Summary) :
    (s.modSummary t f).tube k = if k = t then { s.tube t with summary := f (s.tube t).summary } else s.tube k :=
  Four.get_set _ _ _ _

@[simp] theorem State.tube_modNotices (k : Tube) (f : NoticeWriter → NoticeWriter) : (s.modNotices f).tube k = s.tube k := rfl

@[simp] theorem State.tube_modBudget (k : Tube) (f : Budget → Budget) : (s.modBudget f).tube k = s.tube k := rfl

@[simp] theorem State.tube_modAbort (k : Tube) (f : AbortControl → AbortControl) : (s.modAbort f).tube k = s.tube k := rfl

@[simp] theorem State.tube_modScanner (k : Tube) (f : Scanner → Scanner) : (s.modScanner f).tube k = s.tube k := rfl

@[simp] theorem State.tube_modMonitor (k : Tube) (f : Monitor → Monitor) : (s.modMonitor f).tube k = s.tube k := rfl

@[simp] theorem State.tube_modRoot (k : Tube) (f : RootCopy → RootCopy) : (s.modRoot f).tube k = s.tube k := rfl

@[simp] theorem State.tube_deliver (k : Tube) (a : Addr) (v : Word) (u : Bool) : (s.deliver a v u).tube k = s.tube k := rfl

@[simp] theorem State.tube_place (k : Tube) (n : Notice) : (s.place n).tube k = s.tube k := rfl

@[simp] theorem State.tube_writeWord (k : Tube) (a : Addr) (v : Word) : (s.writeWord a v).tube k = s.tube k := rfl

end Sys2Proof.Machine
end

