-- ==== Sys2Proof/Laws/Delivery.lean ====
section
/-! SUPPORT. The Delivery Queue keeps its order and one entry for an address (R168). -/

namespace Sys2Proof.Machine

/-- No urgent entry stands behind a non-urgent one. -/
abbrev UrgentFirst (q : List Delivery) : Prop := q.Pairwise (fun a b => b.urgent = true → a.urgent = true)

theorem mem_insertUrgent {e d : Delivery} : ∀ {q : List Delivery}, d ∈ insertUrgent e q ↔ d = e ∨ d ∈ q
  | [] => by simp [insertUrgent]
  | a :: q => by
    unfold insertUrgent
    split
    · rw [List.mem_cons, mem_insertUrgent, List.mem_cons]
      constructor
      · rintro (h | h | h)
        · exact .inr (.inl h)
        · exact .inl h
        · exact .inr (.inr h)
      · rintro (h | h | h)
        · exact .inr (.inl h)
        · exact .inl h
        · exact .inr (.inr h)
    · simp

theorem urgentFirst_insert {e : Delivery} (he : e.urgent = true) :
    ∀ {q : List Delivery}, UrgentFirst q → UrgentFirst (insertUrgent e q)
  | [], _ => by simp [insertUrgent]
  | a :: q, h => by
    rw [UrgentFirst, List.pairwise_cons] at h
    unfold insertUrgent
    split
    · next ha =>
      rw [UrgentFirst, List.pairwise_cons]
      exact ⟨fun _ _ _ => ha, urgentFirst_insert he h.2⟩
    · rw [UrgentFirst, List.pairwise_cons, List.pairwise_cons]
      exact ⟨fun _ _ _ => he, h.1, h.2⟩

theorem nodup_insert {e : Delivery} : ∀ {q : List Delivery}, (∀ d ∈ q, d.addr ≠ e.addr) →
    (q.map Delivery.addr).Nodup → ((insertUrgent e q).map Delivery.addr).Nodup
  | [], _, _ => by simp [insertUrgent]
  | a :: q, hn, h => by
    simp only [List.map_cons, List.nodup_cons, List.mem_map] at h
    unfold insertUrgent
    split
    · simp only [List.map_cons, List.nodup_cons, List.mem_map]
      refine ⟨?_, nodup_insert (fun d hd => hn d (by simp [hd])) h.2⟩
      rintro ⟨d, hd, he⟩
      rcases mem_insertUrgent.mp hd with rfl | hd
      · exact hn a (by simp) he.symm
      · exact h.1 ⟨d, hd, he⟩
    · simp only [List.map_cons, List.nodup_cons, List.mem_cons, List.mem_map]
      refine ⟨?_, h⟩
      rintro (c | ⟨d, hd, c⟩)
      · exact hn a (by simp) c.symm
      · exact hn d (by simp [hd]) c

theorem pendingFor_none {q : List Delivery} {a : Addr} (h : pendingFor q a = none) : ∀ d ∈ q, d.addr ≠ a := by
  intro d hd
  have := List.find?_eq_none.mp h d hd
  simpa using this

theorem replaceValue_addr (a : Addr) (v : Word) (q : List Delivery) :
    (replaceValue a v q).map Delivery.addr = q.map Delivery.addr := by
  unfold replaceValue
  rw [List.map_map]
  apply List.map_congr_left
  intro d _
  simp only [Function.comp]
  split <;> rfl

/-- R168: placing a write keeps the laws of the queue. -/
theorem DeliveryOk.place {q : List Delivery} (a : Addr) (v : Word) (u : Bool) (h : DeliveryOk q) :
    DeliveryOk (placeDelivery a v u q) := by
  obtain ⟨h1, h2⟩ := h
  unfold placeDelivery
  split
  · next hn =>
    split
    · exact ⟨nodup_insert (e := ⟨a, v, true⟩) (pendingFor_none hn) h1, urgentFirst_insert rfl h2⟩
    · refine ⟨?_, ?_⟩
      · simp only [List.map_append, List.map_cons, List.map_nil, List.nodup_append, List.nodup_cons, List.mem_map,
          List.not_mem_nil, not_false_eq_true, List.nodup_nil, and_true, List.mem_cons, or_false]
        refine ⟨h1, trivial, ?_⟩
        rintro x ⟨d, hd, rfl⟩ b rfl
        exact pendingFor_none hn d hd
      · rw [List.pairwise_append]
        refine ⟨h2, by simp, fun x _ y hy hu => ?_⟩
        simp only [List.mem_cons, List.not_mem_nil, or_false] at hy
        subst hy; cases hu
  · split
    · refine ⟨by rw [replaceValue_addr]; exact h1, ?_⟩
      unfold replaceValue
      rw [List.pairwise_map]
      refine h2.imp fun hxy => ?_
      split <;> split <;> exact hxy
    · refine ⟨nodup_insert (e := ⟨a, v, true⟩) (fun d hd => ?_) ?_, urgentFirst_insert rfl (h2.filter _)⟩
      · have := (List.mem_filter.mp hd).2
        simpa using this
      · exact (List.filter_sublist.map _).nodup h1

theorem DeliveryOk.tail {q : List Delivery} (h : DeliveryOk q) : DeliveryOk q.tail :=
  ⟨by rw [List.map_tail]; exact h.1.sublist (List.tail_sublist _), h.2.sublist (List.tail_sublist _)⟩

theorem pendingFor_insert {e : Delivery} {b : Addr} : ∀ {q : List Delivery}, (∀ d ∈ q, d.addr ≠ e.addr) →
    pendingFor (insertUrgent e q) b = if b = e.addr then some e else pendingFor q b
  | [], _ => by
    simp only [insertUrgent, pendingFor, List.find?_cons, List.find?_nil]
    by_cases c : e.addr = b
    · simp [c]
    · have : ¬ b = e.addr := fun d => c d.symm
      have c' : (e.addr == b) = false := by simpa using c
      simp [this, c']
  | a :: q, hn => by
    have ih := pendingFor_insert (b := b) (e := e) (q := q) fun d hd => hn d (by simp [hd])
    unfold insertUrgent
    split
    · simp only [pendingFor, List.find?_cons] at ih ⊢
      by_cases c : a.addr = b
      · have : ¬ b = e.addr := fun d => hn a (by simp) (c.trans d)
        simp [c, this]
      · have c' : (a.addr == b) = false := by simpa using c
        simp only [c']
        exact ih
    · simp only [pendingFor, List.find?_cons]
      by_cases c : e.addr = b
      · simp [c]
      · have : ¬ b = e.addr := fun d => c d.symm
        have c' : (e.addr == b) = false := by simpa using c
        simp [this, c']

theorem pendingFor_replace_same {a : Addr} {v : Word} {d : Delivery} : ∀ {q : List Delivery},
    pendingFor q a = some d → (pendingFor (replaceValue a v q) a).map Delivery.value = some v
  | [], h => by simp [pendingFor] at h
  | e :: q, h => by
    by_cases k : e.addr = a
    · simp [pendingFor, replaceValue, k]
    · have k' : (e.addr == a) = false := by simpa using k
      have ih := pendingFor_replace_same (v := v) (q := q) (a := a) (d := d)
      simp only [pendingFor, List.find?_cons, k', replaceValue, List.map_cons, Bool.false_eq_true, if_false] at h ih ⊢
      exact ih h

theorem pendingFor_replace_other {a b : Addr} {v : Word} (c : b ≠ a) : ∀ q : List Delivery,
    pendingFor (replaceValue a v q) b = pendingFor q b
  | [] => rfl
  | e :: q => by
    have ih := pendingFor_replace_other (v := v) c q
    by_cases k : e.addr = b
    · have j : (e.addr == a) = false := by rw [k]; simpa using c
      simp [pendingFor, replaceValue, k, c]
    · have k' : (e.addr == b) = false := by simpa using k
      have j : ((if (e.addr == a) = true then { e with value := v } else e).addr == b) = false := by
        split <;> exact k'
      simp only [pendingFor, replaceValue, List.map_cons, List.find?_cons, j, k'] at ih ⊢
      exact ih

theorem pendingFor_drop_other {a b : Addr} (c : b ≠ a) : ∀ q : List Delivery,
    pendingFor (dropAddress a q) b = pendingFor q b
  | [] => rfl
  | e :: q => by
    have ih := pendingFor_drop_other c q
    by_cases k : e.addr = b
    · simp [pendingFor, dropAddress, k, c]
    · have k' : (e.addr == b) = false := by simpa using k
      simp only [pendingFor, dropAddress, List.filter_cons, List.find?_cons, k'] at ih ⊢
      split
      · simp only [List.find?_cons, k']; exact ih
      · exact ih

/-- R168, R170: after a write is placed, its address is pending with its value, and every other address as before. -/
theorem pendingFor_place (a b : Addr) (v : Word) (u : Bool) (q : List Delivery) :
    (pendingFor (placeDelivery a v u q) b).map Delivery.value
      = if b = a then some v else (pendingFor q b).map Delivery.value := by
  unfold placeDelivery
  split
  · next hn =>
    split
    · rw [pendingFor_insert (e := ⟨a, v, true⟩) (pendingFor_none hn)]
      by_cases c : b = a <;> simp [c]
    · by_cases c : b = a
      · subst c
        rw [if_pos rfl]
        simp only [pendingFor] at hn
        simp [pendingFor, List.find?_append, hn]
      · have c' : (a == b) = false := by simpa using fun d => c d.symm
        simp [pendingFor, List.find?_append, c, c']
  · next d hd =>
    split
    · by_cases c : b = a
      · subst c; rw [if_pos rfl]; exact pendingFor_replace_same hd
      · rw [if_neg c, pendingFor_replace_other c]
    · rw [pendingFor_insert (e := ⟨a, v, true⟩) fun d hd => by
        have := (List.mem_filter.mp hd).2
        simpa using this]
      by_cases c : b = a
      · simp [c]
      · rw [if_neg c, if_neg c, pendingFor_drop_other c]

end Sys2Proof.Machine
end

