-- ==== Sys2Proof/Laws/Memory.lean ====
section
/-! SUPPORT. The image memory: reading after writing, and the canonical form every operation keeps (log 2). -/

namespace Sys2Proof.Machine

/-- Every address above a bound reads as if the memory were empty where the bound is above all listed addresses. -/
theorem Memory.read_of_risesFrom {b a : Nat} : ∀ {m : Memory}, m.risesFrom (some b) = true → a ≤ b → m.read a = 0
  | [], _, _ => rfl
  | (k, v) :: rest, h, ha => by
    simp only [Memory.risesFrom, Bool.and_eq_true, decide_eq_true_eq] at h
    unfold Memory.read
    rw [if_neg (by omega)]
    exact Memory.read_of_risesFrom h.2 (by omega)

/-- A write of an address reads back there, and nowhere else, in a memory of the canonical form. -/
theorem Memory.read_write {a c : Nat} {v : Word} : ∀ {m : Memory} {low : Option Nat}, m.risesFrom low = true →
    (m.write a v).read c = if c = a then v else m.read c
  | [], _, _ => by
    unfold Memory.write
    split
    · next h => simp [Memory.read, h]
    · simp only [Memory.read]
      by_cases e : a = c
      · rw [if_pos e, if_pos e.symm]
      · rw [if_neg e, if_neg fun d => e d.symm]
  | (k, w) :: rest, low, h => by
    have hr : Memory.risesFrom (some k) rest = true := by
      simp only [Memory.risesFrom, Bool.and_eq_true] at h; exact h.2
    unfold Memory.write
    split
    · next hlt =>
      split
      · next hv =>
        split
        · next e =>
          subst hv e
          simp only [Memory.read]
          rw [if_neg (by omega)]
          exact Memory.read_of_risesFrom hr (by omega)
        · rfl
      · rw [Memory.read]
        by_cases e : a = c
        · rw [if_pos e, if_pos e.symm]
        · rw [if_neg e, if_neg fun d => e d.symm]
    · split
      · next e =>
        subst e
        split
        · next hv =>
          subst hv
          by_cases e : c = a
          · subst e; rw [if_pos rfl]; exact Memory.read_of_risesFrom hr (Nat.le_refl _)
          · simp only [Memory.read]; rw [if_neg e, if_neg fun d => e d.symm]
        · simp only [Memory.read]
          by_cases e : a = c
          · rw [if_pos e, if_pos e.symm]
          · rw [if_neg e, if_neg fun d => e d.symm, if_neg e]
      · next hlt hne =>
        simp only [Memory.read]
        by_cases e : k = c
        · subst e; rw [if_pos rfl, if_neg fun d => hne d.symm, if_pos rfl]
        · rw [if_neg e, if_neg e]; exact Memory.read_write hr

theorem Memory.risesFrom_write {a : Nat} {v : Word} : ∀ {m : Memory} {low : Option Nat},
    (∀ b, low = some b → b < a) → m.risesFrom low = true → (m.write a v).risesFrom low = true
  | [], low, hl, _ => by
    unfold Memory.write
    split
    · rfl
    · next hv =>
      cases low with
      | none => simpa [Memory.risesFrom] using hv
      | some b => simpa [Memory.risesFrom, hl b rfl] using hv
  | (k, w) :: rest, low, hl, h => by
    have h' := h
    simp only [Memory.risesFrom, Bool.and_eq_true] at h
    obtain ⟨⟨h1, h2⟩, h3⟩ := h
    unfold Memory.write
    split
    · next hlt =>
      split
      · exact h'
      · next hv =>
        have hb : ∀ l : Option Nat, (∀ b, l = some b → b < a) →
            (match l with | none => true | some b => decide (b < a)) = true := fun l hl => by
          cases l with
          | none => rfl
          | some b => simpa using hl b rfl
        simp only [Memory.risesFrom, Bool.and_eq_true, decide_eq_true_eq, bne_iff_ne, ne_eq]
        exact ⟨⟨hb low hl, hv⟩, ⟨hlt, by simpa using h2⟩, h3⟩
    · split
      · next e =>
        subst e
        split
        · cases hrest : rest with
          | nil => rfl
          | cons p q =>
            obtain ⟨j, u⟩ := p
            rw [hrest] at h3
            simp only [Memory.risesFrom, Bool.and_eq_true, decide_eq_true_eq] at h3 ⊢
            refine ⟨⟨?_, h3.1.2⟩, h3.2⟩
            cases low with
            | none => rfl
            | some b =>
              have := hl b rfl
              simp only [decide_eq_true_eq]
              omega
        · next hv =>
          simp only [Memory.risesFrom, Bool.and_eq_true]
          exact ⟨⟨h1, by simpa using hv⟩, h3⟩
      · next hlt hne =>
        simp only [Memory.risesFrom, Bool.and_eq_true]
        exact ⟨⟨h1, h2⟩, Memory.risesFrom_write (fun b hb => by cases hb; omega) h3⟩

/-- A write keeps the canonical form. -/
theorem Memory.wf_write {m : Memory} (a : Nat) (v : Word) (h : m.wf = true) : (m.write a v).wf = true :=
  Memory.risesFrom_write (fun _ hb => by cases hb) h

/-- What a word reads as after a write of one word. -/
theorem State.readWord_writeWord {s : State} (a c : Addr) (v : Word) (h : s.mem.wf = true) :
    (s.writeWord a v).readWord c = if c = a then v else s.readWord c := by
  unfold State.readWord State.writeWord
  simp only
  rw [Memory.read_write h]
  by_cases e : c = a
  · rw [if_pos e, if_pos (by rw [e])]
  · rw [if_neg e, if_neg fun d => e (BitVec.eq_of_toNat_eq d)]

end Sys2Proof.Machine
end

