-- ==== Sys2Proof/Laws/Shift.lean ====
section
/-! SUPPORT. What examinations, releases, grants and scans can do, said once: `Shift s s'`. Every event ends with them, so
every claim about an event goes through `Shift`. -/

namespace Sys2Proof.Machine

variable {P : Prop}

/-! ## The relation -/

/-- An entry without the state that examinations and grants change. -/
def HeldEntry.core (e : HeldEntry) : HeldEntry := { e with state := .waiting, claim := none }

/-- A run record without its phase. -/
def Run.core (r : Run) : Run := { r with phase := .claiming }

/-- A line record without its flow and deviation counter. -/
def LineRec.plate (l : LineRec) : LineRec := { l with flow := 0, devCounter := 0 }

/-- What stays of a tube that is not in RUN. -/
structure Stopped (x y : TubeState) : Prop where
  queue : y.queue.map HeldEntry.core = x.queue.map HeldEntry.core
  ramp : y.ramp = x.ramp
  boat : y.boat = x.boat
  gap : y.gapTimer = x.gapTimer
  released : y.lastReleased = x.lastReleased
  summary : y.summary = x.summary

/-- What stays of the gas of a tube with no working head: all but what the grant of its purge run sets. -/
structure GasIdle (x y : TubeState) : Prop where
  atmosphere : y.gas.atmosphere = x.gas.atmosphere
  accumulator : y.gas.accumulator = x.gas.accumulator
  limit : y.gas.limitTimer = x.gas.limitTimer
  run : y.gas.run.map Run.core = x.gas.run.map Run.core
  lines : ∀ l, l ≠ x.header.purgeLine → y.gas.lines.get l = x.gas.lines.get l
  noRun : x.gas.run = none → y.gas = x.gas ∧ y.abortTimer = x.abortTimer

/-- The part of a tube's gas that stays in AIR, PURGING and CLEARING. -/
structure GasSettled (x y : TubeState) : Prop where
  atmosphere : y.gas.atmosphere = x.gas.atmosphere
  accumulator : y.gas.accumulator = x.gas.accumulator
  limit : y.gas.limitTimer = x.gas.limitTimer
  run : y.gas.run.map Run.core = x.gas.run.map Run.core

def Atmosphere.settled : Atmosphere → Bool
  | .air => true
  | .purging => true
  | .clearing => true
  | .inert => false
  | .process => false

/-- What a shift does to one tube. `busy`: the tube is in the middle of its own release, and `P` is what the laws of gas
said of it before. -/
structure TubeShift (busy : Bool) (P : Prop) (x y : TubeState) : Prop where
  mode : y.mode = x.mode
  nextTicket : y.nextTicket = x.nextTicket
  lastIssued : y.lastIssued = x.lastIssued
  latchHeld : y.latchHeld = x.latchHeld
  latchValue : y.latchValue = x.latchValue
  abortCause : y.abortCause = x.abortCause
  abortBegin : y.abortBegin = x.abortBegin
  header : y.header = x.header
  boatBound : y.boat.bound = x.boat.bound
  boatDelivered : y.boat.delivered = x.boat.delivered
  zoneBound : ∀ z, (y.ramp.zones.get z).bound = (x.ramp.zones.get z).bound
  zoneDelivered : ∀ z, (y.ramp.zones.get z).delivered = (x.ramp.zones.get z).delivered
  plates : ∀ l, (y.gas.lines.get l).plate = (x.gas.lines.get l).plate
  summary : y.summary = { x.summary with boatArrived := y.summary.boatArrived }
  arrived : x.summary.boatArrived = true → y.summary.boatArrived = true
  suffix : y.queue.map HeldEntry.core <:+ x.queue.map HeldEntry.core
  queueOk : QueueOk x.queue → QueueOk y.queue
  safe : (busy = true → P) → GasSafe x → GasSafe y
  vent : (busy = true → P) → GasSafe x → x.gas.atmosphere = .inert → x.boat.delivered = 0 → x.boat.state ≠ .inPos →
    y.gas.atmosphere = .inert ∧ y.boat.state ≠ .inPos
  flows : busy = false → ∀ l, l ≠ x.header.purgeLine → (∀ e ∈ x.queue, HeldEntry.forLine l e = false) →
    (y.gas.lines.get l).flow = (x.gas.lines.get l).flow
  settled : x.gas.atmosphere.settled = true → GasSettled x y
  stopped : x.mode ≠ .run → Stopped x y
  gasIdle : busy = false → x.mode ≠ .run ∨ x.queue = [] → GasIdle x y
  untouched : busy = false → x.queue = [] → Stopped x y

/-- The delivery queue after some placements. -/
inductive Placed : List Delivery → List Delivery → Prop
  | refl (q : List Delivery) : Placed q q
  | step {q r : List Delivery} (a : Addr) (v : Word) (u : Bool) : Placed q r → Placed q (placeDelivery a v u r)

/-- The notice writer after some notices were placed. -/
structure NoticeShift (n m : NoticeWriter) : Prop where
  same : { m with buffer := n.buffer, lost := n.lost, dueLost := n.dueLost } = n
  buffer : ∃ l, m.buffer = n.buffer ++ l
  bounded : n.buffer.length ≤ 8 → m.buffer.length ≤ 8
  due : n.dueLost = true → m.dueLost = true

/-- What examinations, releases, grants and scans can do to the part. `busy` names a tube in the middle of its own
release. -/
structure Shift (busy : Option Tube) (P : Prop) (s t : State) : Prop where
  pending : t.pending = s.pending
  mem : t.mem = s.mem
  straps : t.straps = s.straps
  clock : t.clock = s.clock
  port : t.port = s.port
  root : t.root = s.root
  cache : t.cache = s.cache
  replacement : t.replacement = s.replacement
  binding : t.binding = s.binding
  abort : t.abort = s.abort
  scanner : t.scanner = s.scanner
  measured : t.measured = s.measured
  arrivals : t.arrivals = s.arrivals
  bus : t.bus = s.bus
  monitor : t.monitor = s.monitor
  loader : t.loader = s.loader
  budget : { t.budget with claims := s.budget.claims, joinCounter := s.budget.joinCounter } = s.budget
  notices : NoticeShift s.notices t.notices
  delivery : Placed s.delivery t.delivery
  tubes : ∀ k, TubeShift (decide (busy = some k)) P (s.tube k) (t.tube k)

/-! ## It is reflexive and composes -/

theorem Stopped.refl (x : TubeState) : Stopped x x := ⟨rfl, rfl, rfl, rfl, rfl, rfl⟩

theorem Stopped.trans {x y z : TubeState} (h : Stopped x y) (g : Stopped y z) : Stopped x z :=
  ⟨g.queue.trans h.queue, g.ramp.trans h.ramp, g.boat.trans h.boat, g.gap.trans h.gap, g.released.trans h.released,
    g.summary.trans h.summary⟩

theorem GasIdle.refl (x : TubeState) : GasIdle x x := ⟨rfl, rfl, rfl, rfl, fun _ _ => rfl, fun _ => ⟨rfl, rfl⟩⟩

theorem GasIdle.trans {x y z : TubeState} (hd : y.header = x.header) (h : GasIdle x y) (g : GasIdle y z) :
    GasIdle x z := by
  refine ⟨g.atmosphere.trans h.atmosphere, g.accumulator.trans h.accumulator, g.limit.trans h.limit,
    g.run.trans h.run, fun l hl => (g.lines l (hd ▸ hl)).trans (h.lines l hl), fun hn => ?_⟩
  have hy := h.noRun hn
  have hz := g.noRun (by rw [hy.1]; exact hn)
  exact ⟨hz.1.trans hy.1, hz.2.trans hy.2⟩

theorem GasSettled.refl (x : TubeState) : GasSettled x x := ⟨rfl, rfl, rfl, rfl⟩

theorem GasSettled.trans {x y z : TubeState} (h : GasSettled x y) (g : GasSettled y z) : GasSettled x z :=
  ⟨g.atmosphere.trans h.atmosphere, g.accumulator.trans h.accumulator, g.limit.trans h.limit, g.run.trans h.run⟩

theorem TubeShift.refl (b : Bool) (x : TubeState) : TubeShift b P x x where
  mode := rfl
  nextTicket := rfl
  lastIssued := rfl
  latchHeld := rfl
  latchValue := rfl
  abortCause := rfl
  abortBegin := rfl
  header := rfl
  boatBound := rfl
  boatDelivered := rfl
  zoneBound := fun _ => rfl
  zoneDelivered := fun _ => rfl
  plates := fun _ => rfl
  summary := rfl
  arrived := id
  suffix := List.suffix_refl _
  queueOk := id
  safe := fun _ => id
  vent := fun _ _ a _ b => ⟨a, b⟩
  flows := fun _ _ _ _ => rfl
  settled := fun _ => .refl x
  stopped := fun _ => .refl x
  gasIdle := fun _ _ => .refl x
  untouched := fun _ _ => .refl x

theorem TubeShift.length {b : Bool} {x y : TubeState} (h : TubeShift b P x y) : y.queue.length ≤ x.queue.length := by
  have := h.suffix.length_le
  simpa using this

theorem TubeShift.emptyQueue {b : Bool} {x y : TubeState} (h : TubeShift b P x y) (e : x.queue = []) : y.queue = [] := by
  have := h.length
  rw [e] at this
  exact List.length_eq_zero_iff.mp (Nat.le_zero.mp this)

theorem HeldEntry.forLine_core (l : Line) (e : HeldEntry) : HeldEntry.forLine l e.core = HeldEntry.forLine l e := rfl

theorem TubeShift.noLine {b : Bool} {x y : TubeState} {l : Line} (h : TubeShift b P x y)
    (e : ∀ d ∈ x.queue, HeldEntry.forLine l d = false) : ∀ d ∈ y.queue, HeldEntry.forLine l d = false := by
  intro d hd
  have hm : d.core ∈ x.queue.map HeldEntry.core := h.suffix.subset (List.mem_map_of_mem hd)
  obtain ⟨c, hc, he⟩ := List.mem_map.mp hm
  rw [← HeldEntry.forLine_core, ← he, HeldEntry.forLine_core]
  exact e c hc

theorem TubeShift.trans {b : Bool} {x y z : TubeState} (h : TubeShift b P x y) (g : TubeShift b P y z) :
    TubeShift b P x z where
  mode := g.mode.trans h.mode
  nextTicket := g.nextTicket.trans h.nextTicket
  lastIssued := g.lastIssued.trans h.lastIssued
  latchHeld := g.latchHeld.trans h.latchHeld
  latchValue := g.latchValue.trans h.latchValue
  abortCause := g.abortCause.trans h.abortCause
  abortBegin := g.abortBegin.trans h.abortBegin
  header := g.header.trans h.header
  boatBound := g.boatBound.trans h.boatBound
  boatDelivered := g.boatDelivered.trans h.boatDelivered
  zoneBound := fun k => (g.zoneBound k).trans (h.zoneBound k)
  zoneDelivered := fun k => (g.zoneDelivered k).trans (h.zoneDelivered k)
  plates := fun l => (g.plates l).trans (h.plates l)
  summary := by have a := h.summary; have b := g.summary; rw [a] at b; exact b
  arrived := fun k => g.arrived (h.arrived k)
  suffix := g.suffix.trans h.suffix
  queueOk := fun k => g.queueOk (h.queueOk k)
  safe := fun p k => g.safe p (h.safe p k)
  vent := fun p k a d b =>
    have v := h.vent p k a d b
    g.vent p (h.safe p k) v.1 (h.boatDelivered.trans d) v.2
  flows := fun hb l hl hq => (g.flows hb l (by rw [h.header]; exact hl) (h.noLine hq)).trans (h.flows hb l hl hq)
  settled := fun k => (h.settled k).trans (g.settled (by rw [(h.settled k).atmosphere]; exact k))
  stopped := fun k => (h.stopped k).trans (g.stopped (by rw [h.mode]; exact k))
  gasIdle := fun hb k => .trans h.header (h.gasIdle hb k) (g.gasIdle hb (by rw [h.mode]; exact k.imp id h.emptyQueue))
  untouched := fun hb k => (h.untouched hb k).trans (g.untouched hb (h.emptyQueue k))

theorem Placed.trans {q r u : List Delivery} (h : Placed q r) (g : Placed r u) : Placed q u := by
  induction g with
  | refl => exact h
  | step a v b _ ih => exact ih.step a v b

theorem NoticeShift.refl (n : NoticeWriter) : NoticeShift n n := ⟨rfl, ⟨[], by simp⟩, id, id⟩

theorem NoticeShift.trans {n m k : NoticeWriter} (h : NoticeShift n m) (g : NoticeShift m k) : NoticeShift n k := by
  refine ⟨?_, ?_, fun a => g.bounded (h.bounded a), fun a => g.due (h.due a)⟩
  · have a := h.same
    have b := g.same
    rw [← b] at a
    exact a
  · obtain ⟨a, ha⟩ := h.buffer
    obtain ⟨b, hb⟩ := g.buffer
    exact ⟨a ++ b, by rw [hb, ha, List.append_assoc]⟩

theorem Shift.refl (o : Option Tube) (s : State) : Shift o P s s where
  pending := rfl
  mem := rfl
  straps := rfl
  clock := rfl
  port := rfl
  root := rfl
  cache := rfl
  replacement := rfl
  binding := rfl
  abort := rfl
  scanner := rfl
  measured := rfl
  arrivals := rfl
  bus := rfl
  monitor := rfl
  loader := rfl
  budget := rfl
  notices := .refl _
  delivery := .refl _
  tubes := fun _ => .refl _ _

theorem Shift.trans {o : Option Tube} {s t u : State} (h : Shift o P s t) (g : Shift o P t u) : Shift o P s u where
  pending := g.pending.trans h.pending
  mem := g.mem.trans h.mem
  straps := g.straps.trans h.straps
  clock := g.clock.trans h.clock
  port := g.port.trans h.port
  root := g.root.trans h.root
  cache := g.cache.trans h.cache
  replacement := g.replacement.trans h.replacement
  binding := g.binding.trans h.binding
  abort := g.abort.trans h.abort
  scanner := g.scanner.trans h.scanner
  measured := g.measured.trans h.measured
  arrivals := g.arrivals.trans h.arrivals
  bus := g.bus.trans h.bus
  monitor := g.monitor.trans h.monitor
  loader := g.loader.trans h.loader
  budget := by have a := h.budget; have b := g.budget; rw [← b] at a; exact a
  notices := h.notices.trans g.notices
  delivery := h.delivery.trans g.delivery
  tubes := fun k => (h.tubes k).trans (g.tubes k)

theorem TubeShift.weaken {x y : TubeState} (b : Bool) (h : TubeShift false True x y) : TubeShift b P x y :=
  { h with safe := fun _ => h.safe (fun c => by cases c), vent := fun _ => h.vent (fun c => by cases c), flows := fun _ => h.flows rfl, gasIdle := fun _ => h.gasIdle rfl, untouched := fun _ => h.untouched rfl }

/-- A shift of nobody in particular is a shift with any tube busy. -/
theorem Shift.weaken {s t : State} (o : Option Tube) (h : Shift none True s t) : Shift o P s t :=
  { h with tubes := fun k => (h.tubes k).weaken _ }

theorem TubeShift.strengthen {b : Bool} {x y : TubeState} (h : TubeShift b P x y) (hm : x.mode = .run)
    (hq : x.queue ≠ []) (hP : GasSafe x → P)
    (hF : ∀ l, l ≠ x.header.purgeLine → (∀ e ∈ x.queue, HeldEntry.forLine l e = false) →
      (y.gas.lines.get l).flow = (x.gas.lines.get l).flow) : TubeShift false True x y :=
  { h with
    flows := fun _ => hF
    safe := fun _ g => h.safe (fun _ => hP g) g
    vent := fun _ g => h.vent (fun _ => hP g) g
    gasIdle := fun _ k => by
      cases k with
      | inl k => exact absurd hm k
      | inr k => exact absurd k hq
    untouched := fun _ k => absurd k hq }

/-- A release seen from outside: the busy tube was in RUN with a head, and `P` is what its laws of gas gave. -/
theorem Shift.strengthen {s t : State} {k : Tube} (h : Shift (some k) P s t) (hm : (s.tube k).mode = .run)
    (hq : (s.tube k).queue ≠ []) (hP : GasSafe (s.tube k) → P)
    (hF : ∀ l, l ≠ (s.tube k).header.purgeLine → (∀ e ∈ (s.tube k).queue, HeldEntry.forLine l e = false) →
      ((t.tube k).gas.lines.get l).flow = ((s.tube k).gas.lines.get l).flow) : Shift none True s t :=
  { h with
    tubes := fun j => by
      by_cases e : j = k
      · subst e; exact (h.tubes _).strengthen hm hq hP hF
      · have g := h.tubes j
        have : decide (some k = some j) = false := by
          simp only [Option.some.injEq, decide_eq_false_iff_not]; exact fun c => e c.symm
        rw [this] at g
        exact { g with safe := fun _ => g.safe (fun c => by cases c), vent := fun _ => g.vent (fun c => by cases c) } }

end Sys2Proof.Machine
end

