-- ==== Sys2Proof/Laws/ShiftOps.lean ====
section
/-! SUPPORT. Each operation that examinations, releases, grants and scans are made of is a shift. -/

namespace Sys2Proof.Machine

variable {P : Prop}

/-- A change of one tube is a shift where it is one of that tube. -/
theorem Shift.ofTube {o : Option Tube} {s : State} {k : Tube} {x : TubeState}
    (h : TubeShift (decide (o = some k)) P (s.tube k) x) : Shift o P s (s.setTube k x) :=
  { Shift.refl (P := P) o s with
    tubes := fun j => by
      by_cases e : j = k
      · subst e; simpa using h
      · simpa [e] using TubeShift.refl _ _ }

theorem NoticeShift.place (n : NoticeWriter) (r : Notice) :
    NoticeShift n (if n.buffer.length < 8 then { n with buffer := n.buffer ++ [r] } else n.lose) := by
  split
  · refine ⟨rfl, ⟨[r], rfl⟩, fun _ => ?_, id⟩
    simp; omega
  · exact ⟨rfl, ⟨[], by simp [NoticeWriter.lose]⟩, id, fun _ => rfl⟩

theorem Shift.place (o : Option Tube) (s : State) (n : Notice) : Shift o P s (s.place n) :=
  { Shift.refl (P := P) o s with notices := NoticeShift.place _ _ }

theorem Shift.deliver (o : Option Tube) (s : State) (a : Addr) (v : Word) (u : Bool) : Shift o P s (s.deliver a v u) :=
  { Shift.refl (P := P) o s with delivery := (Placed.refl _).step a v u }

/-- A change of the waiting claims alone. -/
theorem Shift.claims (o : Option Tube) (s : State) (f : Budget → Budget)
    (h : ∀ b : Budget, { f b with claims := b.claims, joinCounter := b.joinCounter } = b) :
    Shift o P s (s.modBudget f) :=
  { Shift.refl (P := P) o s with budget := h _ }

theorem Shift.joinClaim (o : Option Tube) (s : State) (t : Tube) (p : Pool) (n : Nat) (r : Priority) (c : Origin) :
    Shift o P s (s.joinClaim t p n r c) := Shift.claims o s _ fun _ => rfl

theorem Shift.withdraw {o : Option Tube} {rescan : State → State} (hr : ∀ s, Shift none True s (rescan s)) (s : State)
    (w : Claim → Bool) : Shift o P s (s.withdraw rescan w) := by
  unfold State.withdraw
  split
  · refine Shift.trans ?_ ((hr _).weaken o)
    exact Shift.claims o s (fun b => { b with claims := b.claims.filter (fun c => !w c) }) fun _ => rfl
  · exact .refl o s

/-! ## The head of a queue -/

theorem QueueOk.head {e f : HeldEntry} {q : List HeldEntry} (hc : f.channel = e.channel) (h : QueueOk (e :: q)) :
    QueueOk (f :: q) := by
  obtain ⟨a, b, c⟩ := h
  exact ⟨by simpa using a, by simpa [hc] using b, by simpa using c⟩

theorem QueueOk.tail {q : List HeldEntry} (h : QueueOk q) : QueueOk q.tail := by
  obtain ⟨a, b, c⟩ := h
  cases q with
  | nil => exact ⟨by simp, by simp, by simp⟩
  | cons e q =>
    refine ⟨?_, ?_, fun f hf => c f (List.mem_of_mem_tail hf)⟩
    · simp at a ⊢; omega
    · simp only [List.map_cons, List.nodup_cons, List.tail_cons] at b ⊢
      exact b.2

/-- A head replaced by one that differs in state and claim alone. -/
theorem TubeShift.head {b : Bool} {x : TubeState} {e f : HeldEntry} {q : List HeldEntry} (hq : x.queue = e :: q)
    (hf : f.core = e.core) : TubeShift b P x { x with queue := f :: q } :=
  { TubeShift.refl (P := P) b x with
    suffix := by simp [hq, hf]
    queueOk := fun h => by
      rw [hq] at h
      exact QueueOk.head (by simpa [HeldEntry.core] using congrArg HeldEntry.channel hf) h
    safe := fun _ h => by
      refine { h with classes := fun d hd l r p w hk => ?_, idle := fun c => by simpa [hq] using h.idle c }
      rcases List.mem_cons.mp hd with rfl | hd
      · exact h.classes e (by simp [hq]) l r p w
          (by rw [← hk]; simpa [HeldEntry.core] using congrArg HeldEntry.kind hf.symm)
      · exact h.classes d (by simp [hq, hd]) l r p w hk
    vent := fun _ _ a _ b => ⟨a, b⟩
    flows := fun _ _ _ _ => rfl
    settled := fun _ => ⟨rfl, rfl, rfl, rfl⟩
    stopped := fun _ => ⟨by simp [hq, hf], rfl, rfl, rfl, rfl, rfl⟩
    gasIdle := fun _ _ => ⟨rfl, rfl, rfl, rfl, fun _ _ => rfl, fun _ => ⟨rfl, rfl⟩⟩
    untouched := fun _ h => by simp [hq] at h }

theorem Shift.setHead (o : Option Tube) {s : State} {t : Tube} {e f : HeldEntry} {q : List HeldEntry}
    (hq : (s.tube t).queue = e :: q) (hf : f.core = e.core) : Shift o P s (s.setHead t f) := by
  refine Shift.ofTube (x := { s.tube t with queue := f :: (s.tube t).queue.tail }) ?_
  rw [show (s.tube t).queue.tail = q by rw [hq]; rfl]
  exact TubeShift.head hq hf

/-! ## Steps of a release, with the tube busy -/

/-- What a release may do to a boat: it never comes to stand in a stationary state but by its position, and its timer runs
only while it moves. -/
structure BoatShift (x y : Boat) : Prop where
  out : (x.state = .outPos → x.delivered = 0) → y.state = .outPos → x.delivered = 0
  timer : (x.motionTimer ≠ none → x.state = .moving) → y.motionTimer ≠ none → y.state = .moving
  notIn : x.delivered = 0 → x.state ≠ .inPos → y.state ≠ .inPos

theorem BoatShift.refl (x : Boat) : BoatShift x x := ⟨id, id, fun _ => id⟩

/-- A step of a release that leaves the gas as it is. -/
theorem TubeShift.ofRelease {x y : TubeState} (hm : x.mode = .run) (hmode : y.mode = x.mode)
    (h1 : y.nextTicket = x.nextTicket) (h2 : y.lastIssued = x.lastIssued) (h3 : y.latchHeld = x.latchHeld)
    (h4 : y.latchValue = x.latchValue) (h5 : y.abortCause = x.abortCause) (h6 : y.abortBegin = x.abortBegin)
    (h7 : y.header = x.header) (h8 : y.boat.bound = x.boat.bound) (h9 : y.boat.delivered = x.boat.delivered)
    (h10 : ∀ z, (y.ramp.zones.get z).bound = (x.ramp.zones.get z).bound)
    (h11 : ∀ z, (y.ramp.zones.get z).delivered = (x.ramp.zones.get z).delivered)
    (h12 : y.summary = { x.summary with boatArrived := y.summary.boatArrived })
    (h13 : x.summary.boatArrived = true → y.summary.boatArrived = true) (hg : y.gas = x.gas)
    (hq : y.queue = x.queue ∨ y.queue = x.queue.tail) (hb : BoatShift x.boat y.boat) : TubeShift true P x y where
  mode := hmode
  nextTicket := h1
  lastIssued := h2
  latchHeld := h3
  latchValue := h4
  abortCause := h5
  abortBegin := h6
  header := h7
  boatBound := h8
  boatDelivered := h9
  zoneBound := h10
  zoneDelivered := h11
  plates := fun _ => by rw [hg]
  summary := h12
  arrived := h13
  suffix := by
    rcases hq with e | e
    · simp [e]
    · rw [e, List.map_tail]
      exact List.tail_suffix _
  queueOk := fun h => by
    rcases hq with e | e
    · rw [e]; exact h
    · rw [e]; exact h.tail
  safe := fun _ g => by
    refine ⟨fun e he l r p w hk => ?_, by rw [hg, h7]; exact g.purgeInert, by rw [hg]; exact g.closed,
      by rw [hg, hmode]; exact g.working, by rw [hg]; exact g.run, fun c => ?_,
      fun c => h9.trans (hb.out g.boatOut c), hb.timer g.boatTimer⟩
    · rw [hg]
      refine g.classes e ?_ l r p w hk
      rcases hq with c | c
      · rw [c] at he; exact he
      · rw [c] at he; exact List.mem_of_mem_tail he
    · rw [hmode, hm] at c; cases c
  vent := fun _ _ a d b => ⟨by rw [hg]; exact a, hb.notIn d b⟩
  flows := fun h => by cases h
  settled := fun _ => ⟨by rw [hg], by rw [hg], by rw [hg], by rw [hg]⟩
  stopped := fun h => absurd hm h
  gasIdle := fun h => by cases h
  untouched := fun h => by cases h

theorem decide_some_self (t : Tube) : decide (some t = some t) = true := by simp

/-- A release step on the busy tube. -/
theorem Shift.ofBusy {s : State} {t : Tube} {x : TubeState} (h : TubeShift true P (s.tube t) x) :
    Shift (some t) P s (s.setTube t x) := by
  refine Shift.ofTube ?_
  rw [decide_some_self]
  exact h

end Sys2Proof.Machine
end

