-- ==== Sys2Proof/Laws/Release.lean ====
section
/-! SUPPORT. Releases, examinations, grants and scans are shifts. -/

namespace Sys2Proof.Machine

variable {P : Prop}

/-! ## Gas -/

/-- A change of a tube's gas alone, with the tube busy. -/
theorem TubeShift.ofGas {x : TubeState} {g : Gas} (hp : ∀ l, (g.lines.get l).plate = (x.gas.lines.get l).plate)
    (hs : P → GasSafe x → GasSafe { x with gas := g })
    (ha : x.gas.atmosphere.settled = true → GasSettled x { x with gas := g })
    (hv : P → GasSafe x → x.gas.atmosphere = .inert → x.boat.delivered = 0 → x.boat.state ≠ .inPos →
      g.atmosphere = .inert) :
    TubeShift true P x { x with gas := g } :=
  { TubeShift.refl (P := P) true x with
    plates := hp
    safe := fun p => hs (p rfl)
    vent := fun p k a d b => ⟨hv (p rfl) k a d b, b⟩
    flows := fun h => by cases h
    settled := ha
    stopped := fun _ => ⟨rfl, rfl, rfl, rfl, rfl, rfl⟩
    gasIdle := fun h => by cases h
    untouched := fun h => by cases h }

theorem plate_set {v : Eight LineRec} {l : Line} {f : Word} {c : Nat} (k : Line) :
    ((v.set l { v.get l with flow := f, devCounter := c }).get k).plate = (v.get k).plate := by
  rw [Eight.get_set]
  split
  · next h => subst h; rfl
  · rfl

/-- A flow that the laws of reactive gas allow keeps them. -/
theorem GasSafe.setFlow {x : TubeState} {l : Line} {v : Word} {c : Nat} (h : GasSafe x)
    (hv : (x.gas.lines.get l).reactive = true → v ≠ 0 → x.gas.atmosphere = .process) :
    GasSafe { x with gas := { x.gas with
      lines := x.gas.lines.set l { x.gas.lines.get l with flow := v, devCounter := c } } } := by
  refine { h with classes := fun e he k r p w hk => ?_, purgeInert := ?_, closed := fun k hr hf => ?_ }
  · rw [← h.classes e he k r p w hk]
    simp only [Eight.get_set]; split
    · next h => subst h; rfl
    · rfl
  · rw [← h.purgeInert]
    simp only [Eight.get_set]; split
    · next h => rw [← h]
    · rfl
  · simp only [Eight.get_set] at hr hf
    split at hr
    · next h => rw [if_pos h] at hf; exact hv hr hf
    · next e => rw [if_neg e] at hf; exact h.closed k hr hf

theorem Shift.setFlow {s : State} {t : Tube} {l : Line} {v : Word} (u : Bool)
    (hv : P → GasSafe (s.tube t) → ((s.tube t).gas.lines.get l).reactive = true → v ≠ 0 →
      (s.tube t).gas.atmosphere = .process) : Shift (some t) P s (s.setFlow t l v u) := by
  refine Shift.trans (Shift.ofBusy (x := { s.tube t with gas := { (s.tube t).gas with
    lines := (s.tube t).gas.lines.set l { (s.tube t).gas.lines.get l with flow := v, devCounter := 0 } } })
    (TubeShift.ofGas (fun k => plate_set (c := 0) k) (fun p h => h.setFlow (c := 0) (hv p h))
      (fun _ => ⟨rfl, rfl, rfl, rfl⟩) fun _ _ a _ _ => a)) ?_
  exact Shift.deliver _ _ _ _ _

/-- A flow that falls or stays keeps the laws of reactive gas. -/
theorem Shift.lowerLine {rescan : State → State} (hr : ∀ s, Shift none True s (rescan s)) {s : State} {t : Tube} {l : Line}
    {v : Word} (hv : v.toNat ≤ ((s.tube t).gas.lines.get l).flow.toNat) :
    Shift (some t) P s (s.lowerLine rescan t l v) := by
  have h1 : Shift (some t) P s (s.setFlow t l v true) := Shift.setFlow true fun _ g hl hz => g.closed l hl fun h0 => by
    rw [h0] at hv
    exact hz (by apply BitVec.eq_of_toNat_eq; simpa using hv)
  unfold State.lowerLine
  simp only
  split
  · exact h1.trans ((hr _).weaken _)
  · exact h1

theorem tube_setTube_self (s : State) (t : Tube) (x : TubeState) : (s.setTube t x).tube t = x := by simp

/-- The start of a run, once its record stands. -/
theorem Shift.startRun {rescan : State → State} (hr : ∀ s, Shift none True s (rescan s)) (s : State) (t : Tube)
    (r : RunStart) :
    Shift (some t) P (s.modGas t fun g => g.beginRun r (s.tube t).header.purgeLimit) (s.startRun rescan t r) := by
  unfold State.startRun
  simp only
  generalize hs1 : (s.modGas t fun g => g.beginRun r (s.tube t).header.purgeLimit) = s1
  have hh : (s1.tube t).header = (s.tube t).header := by rw [← hs1]; simp
  rw [← hh]
  have hflow : ∀ u : State, Shift (some t) P u (u.modGas t fun g => g.flowing (s1.tube t).header.samplePeriod) := by
    intro u
    refine Shift.ofBusy (TubeShift.ofGas (fun _ => rfl) (fun _ h => { h with run := fun c => h.run fun e => c ?_ })
      (fun _ => ⟨rfl, rfl, rfl, ?_⟩) fun _ _ a _ _ => a)
    · simp [Gas.flowing, e]
    · simp only [Gas.flowing, Option.map_map]
      cases (u.tube t).gas.run <;> rfl
  have hset : ∀ u, Shift (some t) P s1 (s1.setFlow t (s1.tube t).header.purgeLine r.flow u) := fun u =>
    Shift.setFlow u fun _ g hl _ => by rw [g.purgeInert] at hl; cases hl
  split
  · refine Shift.trans ?_ (hflow _)
    split
    · exact (hset _).trans ((hr _).weaken _)
    · exact hset _
  · exact (Shift.joinClaim _ _ _ _ _ _ _).trans ((hr _).weaken _)

theorem beginRun_safe {x : TubeState} {r : RunStart} {n : Nat} (hc : x.gas.reactiveClosed = true) (h : GasSafe x) :
    GasSafe { x with gas := x.gas.beginRun r n } := by
  refine { h with closed := fun l hl hf => ?_, working := fun h => ?_, run := fun _ => ?_ }
  · exfalso
    have := List.all_eq_true.mp hc (x.gas.lines.get l) (Eight.mem_toList.mpr ⟨l, rfl⟩)
    simp only [Gas.beginRun] at hl hf
    simp only [hl, Bool.not_true, Bool.false_or, beq_iff_eq] at this
    exact hf this
  · simp only [Gas.beginRun] at h
    cases hp : r.purpose <;> simp [Purpose.atmosphere, hp] at h
  · cases hp : r.purpose <;> simp [Gas.beginRun, Purpose.atmosphere, hp]

theorem Shift.clearingTest {rescan : State → State} (hr : ∀ s, Shift none True s (rescan s)) (s : State) (t : Tube)
    (l : Line) (v : Word) : Shift (some t) P s (s.clearingTest rescan t l v) := by
  unfold State.clearingTest
  split
  · next h =>
    simp only [Bool.and_eq_true, beq_iff_eq] at h
    generalize hr' : closeClearing (s.tube t).header = r
    generalize hn : (s.tube t).header.purgeLimit = n
    have h1 : TubeShift true P (s.tube t) { s.tube t with gas := (s.tube t).gas.beginRun r n } :=
      TubeShift.ofGas (fun _ => rfl) (fun _ g => beginRun_safe h.2 g) (fun ha => by rw [h.1.2] at ha; cases ha)
        fun _ _ a _ _ => by rw [h.1.2] at a; cases a
    subst hn
    exact (Shift.ofBusy h1).trans (Shift.startRun hr s t r)
  · exact .refl _ _

/-- A released LINE entry whose gate held. -/
theorem Shift.applyLine {rescan : State → State} (hr : ∀ s, Shift none True s (rescan s)) (s : State) (t : Tube)
    (l : Line) (v : Word) (n : Nat) (hm : (s.tube t).mode = .run)
    (hg : P → GasSafe (s.tube t) → ((s.tube t).gas.lines.get l).reactive = true →
      ((s.tube t).gas.atmosphere = .inert ∨ (s.tube t).gas.atmosphere = .process) ∧ (s.tube t).boat.state = .inPos) :
    Shift (some t) P s (s.applyLine rescan t l v n) := by
  unfold State.applyLine
  simp only
  split
  · generalize settledFlow v _ n _ = f
    have h1 : Shift (some t) P s ((s.modGas t fun g => g.raise l f).deliver (s.lineAddr t l) f false) := by
      refine Shift.trans (Shift.ofBusy (TubeShift.ofGas (x := s.tube t) (fun k => plate_set k) (fun p h => ?_)
        (fun ha => ?_) fun p h a _ b => ?_)) (Shift.deliver _ _ _ _ _)
      · have hgate := hg p h
        refine { h with classes := fun e he k r p w hk => ?_, purgeInert := ?_, closed := fun k hk hf => ?_
                        working := fun _ => ?_, run := fun c => ?_ }
        · rw [← h.classes e he k r p w hk]
          simp only [Gas.raise, Eight.get_set]; split
          · next h => subst h; rfl
          · rfl
        · rw [← h.purgeInert]
          simp only [Gas.raise, Eight.get_set]; split
          · next h => rw [← h]
          · rfl
        · simp only [Gas.raise, Eight.get_set] at hk hf ⊢
          by_cases e : k = l
          · rw [if_pos e] at hk
            simp only at hk
            rcases (hgate hk).1 with a | a <;> simp [hk, a]
          · rw [if_neg e] at hk hf
            have := h.closed k hk hf
            simp [this]
        · simp [Mode.working, hm]
        · have hr := h.run c
          simp only [Gas.raise]
          split
          · next e =>
            simp only [Bool.and_eq_true, beq_iff_eq] at e
            rw [e.2] at hr
            rcases hr with e | e <;> cases e
          · exact hr
      · have : ((s.tube t).gas.raise l f).atmosphere = (s.tube t).gas.atmosphere := by
          simp only [Gas.raise]
          split
          · next h =>
            simp only [Bool.and_eq_true, beq_iff_eq] at h
            rw [h.2] at ha; cases ha
          · rfl
        exact ⟨this, rfl, rfl, rfl⟩
      · simp only [Gas.raise]
        split
        · next e =>
          simp only [Bool.and_eq_true, beq_iff_eq] at e
          exact absurd (hg p h e.1).2 b
        · exact a
    split
    · exact h1.trans ((hr _).weaken _)
    · exact h1
  · next h => exact (Shift.lowerLine hr (by simpa [State.lineRec] using h)).trans (Shift.clearingTest hr _ _ _ _)

/-! ## Zones and the boat -/

theorem zone_set {v : Five ZoneRec} {z : Zone} {a : Word} {n : Nat} (k : Zone) :
    ((v.set z { v.get z with target := a, step := n }).get k).bound = (v.get k).bound
      ∧ ((v.set z { v.get z with target := a, step := n }).get k).delivered = (v.get k).delivered := by
  rw [Five.get_set]
  split
  · next h => subst h; exact ⟨rfl, rfl⟩
  · exact ⟨rfl, rfl⟩

/-- A release step that changes the ramp alone and keeps what is delivered. -/
theorem TubeShift.ofRamp {x : TubeState} {r : Ramp} (hm : x.mode = .run)
    (hb : ∀ z, (r.zones.get z).bound = (x.ramp.zones.get z).bound)
    (hd : ∀ z, (r.zones.get z).delivered = (x.ramp.zones.get z).delivered) :
    TubeShift true P x { x with ramp := r } :=
  .ofRelease hm rfl rfl rfl rfl rfl rfl rfl rfl rfl rfl hb hd rfl id rfl (.inl rfl) (.refl _)

theorem Shift.ofRamp {s : State} {t : Tube} {f : Ramp → Ramp} (hm : (s.tube t).mode = .run)
    (hb : ∀ z, ((f (s.tube t).ramp).zones.get z).bound = ((s.tube t).ramp.zones.get z).bound)
    (hd : ∀ z, ((f (s.tube t).ramp).zones.get z).delivered = ((s.tube t).ramp.zones.get z).delivered) :
    Shift (some t) P s (s.modRamp t f) := Shift.ofBusy (.ofRamp hm hb hd)

theorem Shift.freeSlot {rescan : State → State} (hr : ∀ s, Shift none True s (rescan s)) {s : State} {t : Tube}
    (hm : (s.tube t).mode = .run) : Shift (some t) P s (s.freeSlot rescan t) := by
  unfold State.freeSlot
  split
  · exact (Shift.ofRamp hm (fun _ => rfl) fun _ => rfl).trans ((hr _).weaken _)
  · exact .refl _ _

theorem Shift.applyZone {rescan : State → State} (hr : ∀ s, Shift none True s (rescan s)) (s : State) (t : Tube) (z : Zone)
    (n : Nat) (v k : Word) (hm : (s.tube t).mode = .run) : Shift (some t) P s (s.applyZone rescan t z n v k) := by
  unfold State.applyZone
  simp only
  generalize hs1 : (s.modRamp t fun r =>
    { r with zones := r.zones.set z { r.zones.get z with target := v, step := n }, lastTicket := k }) = s1
  have h1 : Shift (some t) P s s1 := by
    rw [← hs1]
    exact Shift.ofRamp hm (fun k => (zone_set k).1) fun k => (zone_set k).2
  have hm1 : (s1.tube t).mode = .run := by rw [← hs1]; simpa using hm
  have hstep : ∀ f : Ramp → Ramp, (∀ r, (f r).zones = r.zones) → Shift (some t) P s1 (s1.modRamp t f) := fun f hf =>
    Shift.ofRamp hm1 (fun _ => by rw [hf]) fun _ => by rw [hf]
  have hfree : ∀ f : Ramp → Ramp, (∀ r, (f r).zones = r.zones) →
      Shift (some t) P s1 ((s1.modRamp t f).freeSlot rescan t) := fun f hf =>
    (hstep f hf).trans (Shift.freeSlot hr (by simpa using hm1))
  refine h1.trans ?_
  split
  · exact hstep _ fun r => by unfold Ramp.startRamp; split <;> rfl
  · split
    · exact hstep _ fun _ => rfl
    · exact hfree _ fun _ => rfl
    · exact hfree _ fun _ => rfl

theorem TubeShift.ofBoat {x : TubeState} {b : Boat} (hm : x.mode = .run) (hb : b.bound = x.boat.bound)
    (hd : b.delivered = x.boat.delivered) (hs : BoatShift x.boat b) : TubeShift true P x { x with boat := b } :=
  .ofRelease hm rfl rfl rfl rfl rfl rfl rfl rfl hb hd (fun _ => rfl) (fun _ => rfl) rfl id rfl (.inl rfl) hs

theorem Shift.ofBoat {s : State} {t : Tube} {f : Boat → Boat} (hm : (s.tube t).mode = .run)
    (hb : (f (s.tube t).boat).bound = (s.tube t).boat.bound)
    (hd : (f (s.tube t).boat).delivered = (s.tube t).boat.delivered)
    (hs : BoatShift (s.tube t).boat (f (s.tube t).boat)) : Shift (some t) P s (s.modBoat t f) :=
  Shift.ofBusy (.ofBoat hm hb hd hs)

theorem Shift.boatDone {s : State} {t : Tube} (n : Nat) (hm : (s.tube t).mode = .run) :
    Shift (some t) P s (s.boatDone t n) := by
  unfold State.boatDone
  refine Shift.trans (Shift.ofBusy (x := { s.tube t with summary := { (s.tube t).summary with boatArrived := true } })
    ?_) (Shift.place _ _ _)
  exact .ofRelease hm rfl rfl rfl rfl rfl rfl rfl rfl rfl rfl (fun _ => rfl) (fun _ => rfl) rfl (fun _ => rfl) rfl
    (.inl rfl) (.refl _)

theorem BoatShift.rest (b : Boat) (n : Nat) : BoatShift b (b.rest n) where
  out := fun _ h => by
    simp only [Boat.rest, positionState] at h
    split at h
    · next e => exact e
    · split at h <;> cases h
  timer := fun _ h => absurd rfl h
  notIn := fun d _ => by simp [Boat.rest, positionState, d]

theorem BoatShift.retarget (b : Boat) (v : Word) (n : Nat) : BoatShift b (b.retarget v n) where
  out := fun h e => by
    unfold Boat.retarget at e
    cases hs : b.state <;> simp [hs] at e
  timer := fun h e => by
    unfold Boat.retarget at e ⊢
    cases hs : b.state <;> simp [hs] at e ⊢
    exact absurd (h e) (by simp [hs])
  notIn := fun _ h => by
    unfold Boat.retarget
    cases hs : b.state <;> simp_all

theorem Boat.retarget_bound (b : Boat) (v : Word) (n : Nat) : (b.retarget v n).bound = b.bound := by
  unfold Boat.retarget; split <;> rfl

theorem Boat.retarget_delivered (b : Boat) (v : Word) (n : Nat) : (b.retarget v n).delivered = b.delivered := by
  unfold Boat.retarget; split <;> rfl

/-- R52: no release ends STALLED. -/
theorem Boat.retarget_stalled (b : Boat) (v : Word) (n : Nat) :
    (b.retarget v n).state = .stalled ↔ b.state = .stalled := by
  unfold Boat.retarget; cases h : b.state <;> simp

theorem Shift.applyBoat (s : State) (t : Tube) (v k : Word) (c : Six) (hm : (s.tube t).mode = .run) :
    Shift (some t) P s (s.applyBoat t v k c) := by
  unfold State.applyBoat
  simp only
  generalize hs1 : (s.modBoat t fun b => { b with lastTicket := k, lastChannel := c }) = s1
  have h1 : Shift (some t) P s s1 := by rw [← hs1]; exact Shift.ofBoat hm rfl rfl ⟨id, id, fun _ => id⟩
  have hm1 : (s1.tube t).mode = .run := by rw [← hs1]; simpa using hm
  have hstep : ∀ f : Boat → Boat, (∀ b, (f b).bound = b.bound) → (∀ b, (f b).delivered = b.delivered) →
      (∀ b, BoatShift b (f b)) → Shift (some t) P s1 (s1.modBoat t f) := fun f hb hd hs =>
    Shift.ofBoat hm1 (hb _) (hd _) (hs _)
  refine h1.trans ?_
  split
  · split
    · exact (hstep (fun b => b.rest (s.tube t).header.inThreshold) (fun _ => rfl) (fun _ => rfl) (.rest · _)).trans
        (Shift.boatDone _ (by simpa using hm1))
    · exact (hstep (fun b => { b with expiries := 0 }) (fun _ => rfl) (fun _ => rfl) fun _ => ⟨id, id, fun _ => id⟩).trans
        (Shift.boatDone _ (by simpa using hm1))
  · exact hstep _ (fun b => b.retarget_bound v _) (fun b => b.retarget_delivered v _) (.retarget · v _)

end Sys2Proof.Machine
end

