-- ==== Sys2Proof/Laws/Rescan.lean ====
section
/-! SUPPORT. Whole releases, examinations, grants, the scan of the Claim List and the examinations an event causes are
shifts. -/

namespace Sys2Proof.Machine

variable {P : Prop}

/-! ## A release -/

theorem firstFailure_none {s : State} {t : Tube} {e : HeldEntry} (h : s.firstFailure t e = none) :
    (s.tube t).mode = .run ∧ gateHolds (s.tube t) e = true := by
  simp only [State.firstFailure] at h
  split at h
  · cases h
  · next hm =>
    split at h
    · cases h
    · split at h
      · cases h
      · split at h
        · cases h
        · next hg => exact ⟨by simpa using hm, by simpa using hg⟩

theorem gate_line {x : TubeState} {e : HeldEntry} {l : Line} {p : Bool} {w : Nat}
    (hk : e.kind = .line l true p w) (h : gateHolds x e = true) :
    (x.gas.atmosphere = .inert ∨ x.gas.atmosphere = .process) ∧ x.boat.state = .inPos := by
  simp only [gateHolds, hk, Bool.and_eq_true, Bool.or_eq_true, beq_iff_eq] at h
  exact h.1

theorem Shift.applyEntry {rescan : State → State} (hr : ∀ s, Shift none True s (rescan s)) (s : State) (t : Tube)
    (e : HeldEntry) (n : Nat) (hm : (s.tube t).mode = .run)
    (hP : P → ∀ l r p w, e.kind = .line l r p w → ((s.tube t).gas.lines.get l).reactive = r)
    (hg : gateHolds (s.tube t) e = true) : Shift (some t) P s (s.applyEntry rescan t e n) := by
  unfold State.applyEntry
  split
  · exact Shift.applyZone hr s t _ _ _ _ hm
  · next l r p w hk =>
    refine Shift.applyLine hr s t _ _ _ hm fun q _ hl => ?_
    rw [hP q l r p w hk] at hl
    subst hl
    exact gate_line hk hg
  · exact Shift.applyBoat s t _ _ _ hm

/-- What keeps the flow of a line that no held entry is for: used for the steps of a release, between its shifts. -/
structure FlowKept (t : Tube) (l : Line) (s u : State) : Prop where
  header : (u.tube t).header = (s.tube t).header
  queue : (∀ d ∈ (s.tube t).queue, HeldEntry.forLine l d = false) → ∀ d ∈ (u.tube t).queue, HeldEntry.forLine l d = false
  flow : l ≠ (s.tube t).header.purgeLine → (∀ d ∈ (s.tube t).queue, HeldEntry.forLine l d = false) →
    ((u.tube t).gas.lines.get l).flow = ((s.tube t).gas.lines.get l).flow

theorem FlowKept.trans {t : Tube} {l : Line} {s u v : State} (h : FlowKept t l s u) (g : FlowKept t l u v) :
    FlowKept t l s v where
  header := g.header.trans h.header
  queue := fun q => g.queue (h.queue q)
  flow := fun e q => (g.flow (by rw [h.header]; exact e) (h.queue q)).trans (h.flow e q)

theorem FlowKept.ofShift {t : Tube} {l : Line} {s u : State} (h : Shift none True s u) : FlowKept t l s u where
  header := (h.tubes t).header
  queue := (h.tubes t).noLine
  flow := (h.tubes t).flows (by simp) l

theorem FlowKept.refl (t : Tube) (l : Line) (s : State) : FlowKept t l s s := ⟨rfl, id, fun _ _ => rfl⟩

/-- A change of the tube that keeps header, queue and the line's flow. -/
theorem FlowKept.setTube {t : Tube} {l : Line} {s : State} {x : TubeState} (hh : x.header = (s.tube t).header)
    (hq : x.queue = (s.tube t).queue)
    (hf : l ≠ (s.tube t).header.purgeLine → (x.gas.lines.get l).flow = ((s.tube t).gas.lines.get l).flow) :
    FlowKept t l s (s.setTube t x) where
  header := by simpa using hh
  queue := by simp [hq]
  flow := fun e _ => by simpa using hf e

theorem FlowKept.modRamp {t : Tube} {l : Line} (s : State) (f : Ramp → Ramp) : FlowKept t l s (s.modRamp t f) :=
  .setTube rfl rfl fun _ => rfl

theorem FlowKept.modBoat {t : Tube} {l : Line} (s : State) (f : Boat → Boat) : FlowKept t l s (s.modBoat t f) :=
  .setTube rfl rfl fun _ => rfl

theorem FlowKept.place {t : Tube} {l : Line} (s : State) (n : Notice) : FlowKept t l s (s.place n) := ⟨rfl, id, fun _ _ => rfl⟩

/-- A flow set on another line. -/
theorem FlowKept.setFlow {t : Tube} {l k : Line} (s : State) (v : Word) (b : Bool)
    (h : l ≠ (s.tube t).header.purgeLine → l ≠ k) : FlowKept t l s (s.setFlow t k v b) := by
  refine (FlowKept.setTube (x := { s.tube t with gas := { (s.tube t).gas with
    lines := (s.tube t).gas.lines.set k { (s.tube t).gas.lines.get k with flow := v, devCounter := 0 } } })
    rfl rfl fun e => ?_).trans ⟨rfl, id, fun _ _ => rfl⟩
  rw [Eight.get_set, if_neg (h e)]

section

variable {rescan : State → State} {t : Tube} {l : Line}

theorem FlowKept.freeSlot (hr : ∀ s, Shift none True s (rescan s)) (s : State) : FlowKept t l s (s.freeSlot rescan t) := by
  unfold State.freeSlot
  split
  · exact (FlowKept.modRamp s _).trans (.ofShift (hr _))
  · exact .refl t l s

theorem FlowKept.lowerLine (hr : ∀ s, Shift none True s (rescan s)) (s : State) {k : Line} (v : Word) (h : l ≠ k) :
    FlowKept t l s (s.lowerLine rescan t k v) := by
  unfold State.lowerLine
  simp only
  split
  · exact (FlowKept.setFlow s v true fun _ => h).trans (.ofShift (hr _))
  · exact .setFlow s v true fun _ => h

theorem FlowKept.startRun (hr : ∀ s, Shift none True s (rescan s)) (s : State) (r : RunStart) :
    FlowKept t l s (s.startRun rescan t r) := by
  unfold State.startRun
  simp only
  have h1 : FlowKept t l s (s.modGas t fun g => g.beginRun r (s.tube t).header.purgeLimit) :=
    .setTube rfl rfl fun _ => rfl
  have hset : ∀ u, FlowKept t l s u → (u.tube t).header = (s.tube t).header → ∀ b,
      FlowKept t l s (u.setFlow t (s.tube t).header.purgeLine r.flow b) := fun u hu e b =>
    hu.trans (.setFlow u _ _ fun n => by rw [e] at n; exact n)
  have h2 := hset _ h1 h1.header
  split
  · refine FlowKept.trans ?_ (.setTube rfl rfl fun _ => rfl)
    split
    · exact (h2 _).trans (.ofShift (hr _))
    · exact h2 _
  · exact (h1.trans (.ofShift (Shift.joinClaim none _ _ _ _ _ _))).trans (.ofShift (hr _))

theorem FlowKept.applyEntry (hr : ∀ s, Shift none True s (rescan s)) (s : State) {e : HeldEntry} (n : Nat)
    (he : HeldEntry.forLine l e = false) : FlowKept t l s (s.applyEntry rescan t e n) := by
  unfold State.applyEntry
  split
  · next z step _ =>
    unfold State.applyZone
    simp only
    generalize hs1 : (s.modRamp t fun r =>
      { r with zones := r.zones.set z { r.zones.get z with target := e.value, step := step }, lastTicket := e.ticket })
      = s1
    have h1 : FlowKept t l s s1 := by rw [← hs1]; exact .modRamp _ _
    refine h1.trans ?_
    split
    · exact .modRamp _ _
    · split
      · exact .modRamp _ _
      · exact (FlowKept.modRamp _ _).trans (.freeSlot hr _)
      · exact (FlowKept.modRamp _ _).trans (.freeSlot hr _)
  · next k _ _ _ hk =>
    have hne : l ≠ k := fun c => by simp [HeldEntry.forLine, hk, c] at he
    unfold State.applyLine
    simp only
    split
    · have h1 : ∀ f, FlowKept t l s ((s.modGas t fun g => g.raise k f).deliver (s.lineAddr t k) f false) := fun f =>
        (FlowKept.setTube (x := { s.tube t with gas := (s.tube t).gas.raise k f }) rfl rfl fun _ => by
          simp only [Gas.raise, Eight.get_set]; rw [if_neg hne]).trans ⟨rfl, id, fun _ _ => rfl⟩
      split
      · exact (h1 _).trans (.ofShift (hr _))
      · exact h1 _
    · refine (FlowKept.lowerLine hr s e.value hne).trans ?_
      unfold State.clearingTest
      split
      · exact .startRun hr _ _
      · exact .refl _ _ _
  · unfold State.applyBoat
    simp only
    generalize hs1 : (s.modBoat t fun b => { b with lastTicket := e.ticket, lastChannel := e.channel }) = s1
    have h1 : FlowKept t l s s1 := by rw [← hs1]; exact .modBoat _ _
    refine h1.trans ?_
    have hd : ∀ (u : State) (n : Nat), FlowKept t l u (u.boatDone t n) := fun u n =>
      (FlowKept.setTube (x := { u.tube t with summary := { (u.tube t).summary with boatArrived := true } })
        rfl rfl fun _ => rfl).trans (.place _ _)
    split
    · split
      · exact (FlowKept.modBoat _ _).trans (hd _ _)
      · exact (FlowKept.modBoat _ _).trans (hd _ _)
    · exact .modBoat _ _

theorem flow_releaseHead (hr : ∀ s, Shift none True s (rescan s)) {s : State} {e : HeldEntry} {q : List HeldEntry}
    (n : Nat) (hq : (s.tube t).queue = e :: q) (hl : l ≠ (s.tube t).header.purgeLine)
    (hn : ∀ d ∈ (s.tube t).queue, HeldEntry.forLine l d = false) :
    (((s.releaseHead rescan t e n).tube t).gas.lines.get l).flow = ((s.tube t).gas.lines.get l).flow := by
  unfold State.releaseHead
  simp only
  generalize (if e.held = true then Way.queued else Way.immediate) = way
  have h1 : FlowKept t l s (s.modTube t fun x => { x with queue := x.queue.tail }) :=
    ⟨by simp, fun k d hd => k d (List.mem_of_mem_tail (by simpa using hd)), fun _ _ => by simp⟩
  have h2 := ((h1.trans (.place _ (releasedNotice t e.channel way e.ticket e.value e.acceptedAt))).trans
    (.setTube (x := { ((s.modTube t fun x => { x with queue := x.queue.tail }).place
      (releasedNotice t e.channel way e.ticket e.value e.acceptedAt)).tube t with lastReleased := e.ticket }) rfl rfl
      fun _ => rfl)).trans (.applyEntry (rescan := rescan) hr _ n (hn e (by simp [hq])))
  split
  · exact (h2.trans (FlowKept.setTube (x := { (_ : TubeState) with gapTimer := startUnlessZero _ }) rfl rfl
      fun _ => rfl)).flow hl hn
  · exact h2.flow hl hn

end

/-- A head that every test passes is released: nobody else's records change, and its tube's as a release says. -/
theorem Shift.releaseHead {rescan : State → State} (hr : ∀ s, Shift none True s (rescan s)) {s : State} {t : Tube}
    {e : HeldEntry} {q : List HeldEntry} (n : Nat) (hq : (s.tube t).queue = e :: q)
    (hf : s.firstFailure t e = none) : Shift none True s (s.releaseHead rescan t e n) := by
  obtain ⟨hm, hg⟩ := firstFailure_none hf
  suffices h : Shift (some t) (GasSafe (s.tube t)) s (s.releaseHead rescan t e n) from
    h.strengthen hm (by simp [hq]) id fun l hl hn => flow_releaseHead hr n hq hl hn
  unfold State.releaseHead
  simp only
  generalize (if e.held = true then Way.queued else Way.immediate) = way
  generalize hs1 : s.modTube t (fun x => { x with queue := x.queue.tail }) = s1
  generalize hs2 : s1.place (releasedNotice t e.channel way e.ticket e.value e.acceptedAt) = s2
  generalize hs3 : s2.modTube t (fun x => { x with lastReleased := e.ticket }) = s3
  have h1 : Shift (some t) (GasSafe (s.tube t)) s s1 := by
    rw [← hs1]
    exact Shift.ofBusy (x := { s.tube t with queue := (s.tube t).queue.tail })
      (.ofRelease hm rfl rfl rfl rfl rfl rfl rfl rfl rfl rfl (fun _ => rfl) (fun _ => rfl) rfl id rfl (.inr rfl) (.refl _))
  have h2 : Shift (some t) (GasSafe (s.tube t)) s1 s2 := by rw [← hs2]; exact Shift.place _ _ _
  have hm2 : (s2.tube t).mode = .run := by rw [← hs2, ← hs1]; simpa using hm
  have h3 : Shift (some t) (GasSafe (s.tube t)) s2 s3 := by
    rw [← hs3]
    exact Shift.ofBusy (x := { s2.tube t with lastReleased := e.ticket })
      (.ofRelease hm2 rfl rfl rfl rfl rfl rfl rfl rfl rfl rfl (fun _ => rfl) (fun _ => rfl) rfl id rfl (.inl rfl) (.refl _))
  have hx : s3.tube t = { s.tube t with queue := (s.tube t).queue.tail, lastReleased := e.ticket } := by
    rw [← hs3, ← hs2, ← hs1]; simp
  have h4 : Shift (some t) (GasSafe (s.tube t)) s3 (s3.applyEntry rescan t e n) := by
    refine Shift.applyEntry hr s3 t e n (by rw [hx]; exact hm) (fun p l r k w hk => ?_) ?_
    · rw [hx]
      exact p.classes e (by simp [hq]) l r k w hk
    · rw [hx]
      rw [← hg]
      simp only [gateHolds, boatGate]
  have h := ((h1.trans h2).trans h3).trans h4
  split
  · refine h.trans (Shift.ofBusy (x := { (s3.applyEntry rescan t e n).tube t with
      gapTimer := startUnlessZero ((s3.applyEntry rescan t e n).tube t).header.releaseGap }) ?_)
    exact .ofRelease (by rw [(h.tubes t).mode]; exact hm) rfl rfl rfl rfl rfl rfl rfl rfl rfl rfl (fun _ => rfl)
      (fun _ => rfl) rfl id rfl (.inl rfl) (.refl _)
  · exact h

/-! ## Examination -/

theorem HeldEntry.toWaiting_core (e : HeldEntry) : e.toWaiting.core = e.core := rfl

theorem Shift.examineLoop {rescan : State → State} (hr : ∀ s, Shift none True s (rescan s)) (t : Tube) :
    ∀ (fuel : Nat) (s : State), Shift none True s (State.examineLoop rescan t fuel s)
  | 0, s => .refl _ s
  | fuel + 1, s => by
    unfold State.examineLoop
    split
    · exact .refl _ s
    · next e q hq =>
      split
      · exact .refl _ s
      · next hf =>
        split
        · exact (Shift.releaseHead hr _ hq hf).trans (Shift.examineLoop hr t fuel _)
        · next p a _ _ =>
          exact ((Shift.setHead none (f := { e with state := .claiming, claim := some (p, a) }) hq rfl).trans
            (Shift.joinClaim _ _ _ _ _ _ _)).trans (hr _)
        · split
          · exact .refl _ s
          · exact ((Shift.setHead none hq (HeldEntry.toWaiting_core e)).trans (Shift.withdraw hr _ _)).trans
              (Shift.examineLoop hr t fuel _)

theorem Shift.examineWith {rescan : State → State} (hr : ∀ s, Shift none True s (rescan s)) (s : State) (t : Tube) :
    Shift none True s (s.examineWith rescan t) := Shift.examineLoop hr t _ s

/-! ## Grants and the scan -/

theorem Shift.absorbed (s : State) : Shift none True s (absorbed s) := .refl _ s

theorem Shift.headGrant (s : State) (t : Tube) (p : Pool) (n : Nat) : Shift none True s (s.headGrant t p n) := by
  unfold State.headGrant
  split
  · exact .refl _ s
  · next e q hq =>
    split
    · exact .refl _ s
    · split
      · exact Shift.setHead none hq (HeldEntry.toWaiting_core e)
      · next hf =>
        split
        · exact (Shift.releaseHead Shift.absorbed _ hq hf).trans (Shift.examineWith Shift.absorbed _ _)
        · exact (Shift.setHead none hq (HeldEntry.toWaiting_core e)).trans (Shift.examineWith Shift.absorbed _ _)

/-- The grant of a purge run's claim. -/
theorem TubeShift.ofRunGrant {b : Bool} {x : TubeState} {r : Run} {n : Nat} (hr : x.gas.run = some r) :
    TubeShift b P x
      { x with
        gas := Gas.flowing
          { x.gas with
            lines := x.gas.lines.set x.header.purgeLine
              { x.gas.lines.get x.header.purgeLine with flow := r.flow, devCounter := 0 } }
          n
        abortTimer := none } :=
  { TubeShift.refl (P := P) b x with
    plates := fun k => plate_set (c := 0) k
    safe := fun _ h =>
      { h.setFlow (c := 0) (l := x.header.purgeLine) (v := r.flow) (fun hl _ => by rw [h.purgeInert] at hl; cases hl) with
        run := fun _ => h.run (by simp [hr]) }
    vent := fun _ _ a _ b => ⟨a, b⟩
    flows := fun _ l hl _ => by simp only [Gas.flowing, Eight.get_set]; rw [if_neg hl]
    settled := fun _ => ⟨rfl, rfl, rfl, by simp [Gas.flowing, hr, Run.core]⟩
    stopped := fun _ => ⟨rfl, rfl, rfl, rfl, rfl, rfl⟩
    gasIdle := fun _ _ => ⟨rfl, rfl, rfl, by simp [Gas.flowing, hr, Run.core],
      fun l hl => by simp only [Gas.flowing, Eight.get_set]; rw [if_neg hl], fun h => by simp [hr] at h⟩
    untouched := fun _ _ => ⟨rfl, rfl, rfl, rfl, rfl, rfl⟩ }

theorem Shift.runGrant (o : Option Tube) (s : State) (t : Tube) : Shift o P s (s.runGrant t) := by
  unfold State.runGrant
  split
  · exact .refl _ s
  · next r hr =>
    have h := Shift.ofTube (o := o) (s := s) (P := P) (TubeShift.ofRunGrant (n := (s.tube t).header.samplePeriod) hr)
    have g := h.trans (Shift.deliver o _ (s.lineAddr t (s.tube t).header.purgeLine) r.flow false)
    refine cast ?_ g
    congr 1
    cases t <;> rfl

theorem Shift.grant (s : State) (c : Claim) : Shift none True s (s.grant c) := by
  unfold State.grant
  have h1 : Shift none True s (s.modBudget fun b => { b with claims := b.claims.erase c }) :=
    Shift.claims none s (fun b => { b with claims := b.claims.erase c }) fun _ => rfl
  simp only
  split
  · exact h1.trans (Shift.headGrant _ _ _ _)
  · exact h1.trans (Shift.runGrant _ _ _)

theorem Shift.scanLoop : ∀ (fuel : Nat) (p : Pool) (b : Bool) (s : State),
    Shift none True s (State.scanLoop fuel p b s)
  | 0, _, _, s => .refl _ s
  | fuel + 1, p, b, s => by
    unfold State.scanLoop
    split
    · split
      · exact (Shift.grant s _).trans (Shift.scanLoop fuel p false _)
      · split
        · exact .refl _ s
        · exact Shift.scanLoop fuel _ true s
    · split
      · exact .refl _ s
      · exact Shift.scanLoop fuel _ true s

theorem Shift.scan (s : State) : Shift none True s s.scan := Shift.scanLoop _ _ _ _

theorem Shift.foldl {α : Type} {o : Option Tube} {f : State → α → State} (h : ∀ s a, Shift o P s (f s a)) :
    ∀ (l : List α) (s : State), Shift o P s (l.foldl f s)
  | [], s => .refl o s
  | a :: l, s => (h s a).trans (Shift.foldl h l _)

theorem Shift.announce (o : Option Tube) (s : State) : Shift o P s s.announce := by
  unfold State.announce
  refine Shift.trans (Shift.claims o s
    (fun b => { b with claims := b.claims.map (fun c => { c with fresh := false }) }) fun _ => rfl) ?_
  exact Shift.foldl (fun s c => Shift.place o s _) _ _

/-- A scan of the Claim List with its notices. -/
theorem Shift.rescan (s : State) : Shift none True s s.rescan := (Shift.scan s).trans (Shift.announce none _)

theorem Shift.examine (s : State) (t : Tube) : Shift none True s (s.examine t) := Shift.examineWith Shift.rescan s t

/-- The model's own counter moves on. -/
theorem Shift.freeCount (o : Option Tube) (s : State) (n : Nat) : Shift o P s { s with freeCount := n } :=
  { Shift.refl (P := P) o s with }

theorem Shift.examineOrder (s : State) (due : List Tube) : Shift none True s (examineOrder s due).2 := by
  unfold Machine.examineOrder
  split
  · exact .refl _ s
  · exact .refl _ s
  · exact Shift.freeCount none s _

/-- The examinations an event causes. -/
theorem Shift.examineChanged : ∀ (n : Nat) (before after : State),
    Shift none True after (State.examineChanged n before after)
  | 0, _, after => .refl _ after
  | n + 1, before, after => by
    unfold State.examineChanged
    split
    · exact .refl _ after
    · exact ((Shift.examineOrder after _).trans (Shift.foldl (fun s t => Shift.examine s t) _ _)).trans
        (Shift.examineChanged n after _)

/-- With no waiting claim a scan does nothing. -/
theorem rescan_of_no_claims {s : State} (h : s.budget.claims = []) : s.rescan = s := by
  have front : ∀ p, s.budget.front p = none := fun p => by simp [Budget.front, Budget.ordered, h]
  have loop : ∀ n p b, State.scanLoop n p b s = s := by
    intro n
    induction n with
    | zero => intro p b; rfl
    | succ n ih => intro p b; unfold State.scanLoop; rw [front]; cases b <;> simp [ih]
  simp only [State.rescan, State.scan, loop, State.announce, h, List.filter_nil, List.foldl_nil]
  unfold State.modBudget
  simp only [h, List.map_nil]
  rw [← h]

end Sys2Proof.Machine
end

