-- ==== Sys2Proof/Laws/Finish.lean ====
section
/-! SUPPORT. What follows every event, said once: `Finished s t` holds of the state an event left and the state its
examinations, its status word and the Image Bus's next decision leave. -/

namespace Sys2Proof.Machine

/-- What the examinations after an event, the due words and the next grant can do. -/
structure Finished (s t : State) : Prop where
  pending : t.pending = s.pending
  mem : t.mem = s.mem
  straps : t.straps = s.straps
  clock : t.clock = s.clock
  port : t.port = s.port
  root : t.root = s.root
  cache : t.cache = s.cache
  replacement : t.replacement = s.replacement
  binding : t.binding = s.binding
  abort : t.abort = s.abort
  scanner : t.scanner = s.scanner
  measured : t.measured = s.measured
  arrivals : t.arrivals = s.arrivals
  monitor : t.monitor = s.monitor
  loader : t.loader = s.loader
  budget : { t.budget with claims := s.budget.claims, joinCounter := s.budget.joinCounter } = s.budget
  writer :
    { t.notices with
      buffer := s.notices.buffer, lost := s.notices.lost, dueStatus := s.notices.dueStatus
      dueLost := s.notices.dueLost, dueConsumer := s.notices.dueConsumer, dueProducer := s.notices.dueProducer
      phase := s.notices.phase } = s.notices
  buffer : ∃ l, t.notices.buffer = s.notices.buffer ++ l
  bounded : s.notices.buffer.length ≤ 8 → t.notices.buffer.length ≤ 8
  phase : s.notices.phase ≠ .idle → t.notices.phase = s.notices.phase
  delivery : DeliveryOk s.delivery → DeliveryOk t.delivery
  busy : ∀ a, s.bus.inFlight = some a → t.bus = s.bus
  fresh : s.bus.inFlight = none → ∀ a, t.bus.inFlight = some a → a.discard = false
  tubes : ∀ k, TubeShift false True (s.tube k) (t.tube k)

theorem Finished.refl (s : State) : Finished s s where
  pending := rfl
  mem := rfl
  straps := rfl
  clock := rfl
  port := rfl
  root := rfl
  cache := rfl
  replacement := rfl
  binding := rfl
  abort := rfl
  scanner := rfl
  measured := rfl
  arrivals := rfl
  monitor := rfl
  loader := rfl
  budget := rfl
  writer := rfl
  buffer := ⟨[], by simp⟩
  bounded := id
  phase := fun _ => rfl
  delivery := id
  busy := fun _ _ => rfl
  fresh := fun h a ha => by rw [h] at ha; cases ha
  tubes := fun _ => .refl _ _

theorem Placed.ok {q r : List Delivery} (h : Placed q r) (hq : DeliveryOk q) : DeliveryOk r := by
  induction h with
  | refl => exact hq
  | step a v u _ ih => exact ih.place a v u

theorem NoticeShift.phase_eq {n m : NoticeWriter} (h : NoticeShift n m) : m.phase = n.phase := by
  have := congrArg NoticeWriter.phase h.same
  exact this

theorem NoticeShift.writer {n m : NoticeWriter} (h : NoticeShift n m) :
    { m with buffer := n.buffer, lost := n.lost, dueStatus := n.dueStatus, dueLost := n.dueLost,
             dueConsumer := n.dueConsumer, dueProducer := n.dueProducer, phase := n.phase } = n := by
  have := h.same
  rw [← this]

/-- A shift is one of the things that follow. -/
theorem Shift.finished {s t : State} (h : Shift none True s t) : Finished s t where
  pending := h.pending
  mem := h.mem
  straps := h.straps
  clock := h.clock
  port := h.port
  root := h.root
  cache := h.cache
  replacement := h.replacement
  binding := h.binding
  abort := h.abort
  scanner := h.scanner
  measured := h.measured
  arrivals := h.arrivals
  monitor := h.monitor
  loader := h.loader
  budget := h.budget
  writer := h.notices.writer
  buffer := h.notices.buffer
  bounded := h.notices.bounded
  phase := fun _ => h.notices.phase_eq
  delivery := h.delivery.ok
  busy := fun _ _ => h.bus
  fresh := fun e a ha => by rw [h.bus, e] at ha; cases ha
  tubes := fun k => by simpa using h.tubes k

theorem Finished.trans {s t u : State} (h : Finished s t) (g : Finished t u) : Finished s u where
  pending := g.pending.trans h.pending
  mem := g.mem.trans h.mem
  straps := g.straps.trans h.straps
  clock := g.clock.trans h.clock
  port := g.port.trans h.port
  root := g.root.trans h.root
  cache := g.cache.trans h.cache
  replacement := g.replacement.trans h.replacement
  binding := g.binding.trans h.binding
  abort := g.abort.trans h.abort
  scanner := g.scanner.trans h.scanner
  measured := g.measured.trans h.measured
  arrivals := g.arrivals.trans h.arrivals
  monitor := g.monitor.trans h.monitor
  loader := g.loader.trans h.loader
  budget := by have a := h.budget; have b := g.budget; rw [← b] at a; exact a
  writer := by have a := h.writer; have b := g.writer; rw [← b] at a; exact a
  buffer := by
    obtain ⟨a, ha⟩ := h.buffer
    obtain ⟨b, hb⟩ := g.buffer
    exact ⟨a ++ b, by rw [hb, ha, List.append_assoc]⟩
  bounded := fun a => g.bounded (h.bounded a)
  phase := fun a => by
    have b := h.phase a
    rw [g.phase (by rw [b]; exact a), b]
  delivery := fun a => g.delivery (h.delivery a)
  busy := fun a ha => by
    have b := h.busy a ha
    rw [g.busy a (by rw [b]; exact ha), b]
  fresh := fun e a ha => by
    cases ht : t.bus.inFlight with
    | none => exact g.fresh ht a ha
    | some b =>
      have := g.busy b ht
      rw [this, ht] at ha
      cases ha
      exact h.fresh e _ ht
  tubes := fun k => (h.tubes k).trans (g.tubes k)

theorem Finished.markStatus (before s : State) : Finished s (before.markStatus s) := by
  unfold State.markStatus
  split
  · exact .refl s
  · exact { Finished.refl s with }

theorem Finished.takeDue (s : State) : Finished s s.takeDue := by
  unfold State.takeDue
  split
  · next h _ => exact { Finished.refl s with phase := fun hn => absurd h hn }
  · exact .refl s

/-- Every request is one its owner waits for. -/
theorem request_discard {s : State} {r : Requester} {a : BusAccess} (h : s.request r = some a) :
    a.discard = false ∧ a.requester = r := by
  cases r with
  | deliver =>
    simp only [State.request, Option.map_eq_some_iff] at h
    obtain ⟨d, _, rfl⟩ := h; exact ⟨rfl, rfl⟩
  | walk =>
    simp only [State.request, State.walkAccess] at h
    split at h
    · cases h; exact ⟨rfl, rfl⟩
    · cases h; exact ⟨rfl, rfl⟩
    · cases h; exact ⟨rfl, rfl⟩
    · simp only [Option.map_eq_some_iff] at h
      obtain ⟨d, _, rfl⟩ := h; exact ⟨rfl, rfl⟩
  | pass =>
    simp only [State.request, State.passAccess] at h
    split at h
    · cases h; exact ⟨rfl, rfl⟩
    · cases h
  | notice =>
    simp only [State.request, State.noticeAccess] at h
    split at h
    · cases h
    · cases h
    · cases h; exact ⟨rfl, rfl⟩
    · cases h; exact ⟨rfl, rfl⟩
    · cases h; exact ⟨rfl, rfl⟩
  | scan =>
    simp only [State.request, State.scanAccess] at h
    split at h
    · cases h
    · simp only [Option.map_eq_some_iff] at h
      obtain ⟨d, _, rfl⟩ := h; exact ⟨rfl, rfl⟩

theorem Finished.grantBus {s : State} {r : Requester} {a : BusAccess} (hb : s.bus.inFlight = none)
    (ha : a.discard = false) : Finished s (s.grantBus r a) := by
  have hx : ∀ b, s.bus.inFlight = some b → (s.grantBus r a).bus = s.bus := fun b h => by rw [hb] at h; cases h
  have hf : s.bus.inFlight = none → ∀ b, (s.grantBus r a).bus.inFlight = some b → b.discard = false := fun _ b h => by
    simp only [State.grantBus, Option.some.injEq] at h; rw [← h]; exact ha
  unfold State.grantBus State.onGrant at *
  split at hf
  · exact { Finished.refl s with busy := hx, fresh := hf, delivery := fun h => h.tail }
  · split at hf
    · exact { Finished.refl s with busy := hx, fresh := hf }
    · exact { Finished.refl s with busy := hx, fresh := hf }
    · exact { Finished.refl s with busy := hx, fresh := hf }
    · exact { Finished.refl s with busy := hx, fresh := hf }
    · exact { Finished.refl s with busy := hx, fresh := hf }
  · exact { Finished.refl s with busy := hx, fresh := hf }

theorem Finished.arbitrate (s : State) : Finished s s.arbitrate := by
  unfold State.arbitrate
  split
  · exact .refl s
  · next hb =>
    split
    · exact .refl s
    · split
      · exact .refl s
      · next h => exact Finished.grantBus hb (request_discard h).1

theorem Finished.advance (s : State) : Finished s s.advance := (Finished.takeDue s).trans (.arbitrate _)

/-- What follows an event. -/
theorem Finished.finish (before after : State) : Finished after (before.finish after) := by
  unfold State.finish
  exact ((Shift.examineChanged 4 before after).finished.trans (.markStatus _ _)).trans (.advance _)

/-- With no held write no head is examined. -/
theorem dueHeads_of_no_queue {before after : State} (h : ∀ t, (after.tube t).queue = []) : dueHeads before after = [] := by
  simp [dueHeads, h]

theorem finish_of_no_due {before after : State} (h : dueHeads before after = []) :
    before.finish after = (before.markStatus after).advance := by
  simp only [State.finish, State.examineChanged, h]

/-! ## A command that completes an access in flight -/

theorem arbitrate_of_busy {s : State} {a : BusAccess} (h : s.bus.inFlight = some a) : s.arbitrate = s := by
  simp only [State.arbitrate, h]

theorem takeDue_bus (s : State) : s.takeDue.bus = s.bus := by
  unfold State.takeDue; split <;> rfl

theorem advance_of_busy {s : State} {a : BusAccess} (h : s.bus.inFlight = some a) : s.advance = s.takeDue :=
  arbitrate_of_busy (by rw [takeDue_bus]; exact h)

theorem dropDiscarded_of_kept {s : State} {r : Requester} {a : BusAccess} (h : s.bus.inFlight = some a)
    (hd : a.discard = false) : s.dropDiscarded r = s := by
  simp [State.dropDiscarded, h, hd]

/-- With an access in flight that its owner waits for, the bus opens as it is; only a due root word may be turned to. -/
theorem openBus_of_inFlight {s : State} {r : Requester} {a : BusAccess} (h : InFlight s r a) :
    s.openBus r = s.takeDue := by
  obtain ⟨hb, _, hd⟩ := h
  unfold State.openBus
  rw [advance_of_busy hb, dropDiscarded_of_kept (by rw [takeDue_bus]; exact hb) hd]

theorem inFlightOf_of_inFlight {s : State} {r : Requester} {a : BusAccess} (h : InFlight s r a) :
    s.takeDue.inFlightOf r = some a := by
  obtain ⟨hb, hr, hd⟩ := h
  simp [State.inFlightOf, takeDue_bus, hb, hr, hd]

/-- `takeDue` turns the Notice Writer's phase, and nothing else. -/
theorem takeDue_eq (s : State) : s.takeDue = s.modNotices fun n => { n with phase := s.takeDue.notices.phase } := by
  unfold State.takeDue
  split <;> rfl

theorem takeDue_of_phase {s : State} (h : s.notices.phase ≠ .idle) : s.takeDue = s := by
  unfold State.takeDue
  split
  · next h' _ => exact absurd h' h
  · rfl

/-- The bus is free and its word is in the image once a write in flight completes. -/
theorem completeBus_write {s : State} {a : BusAccess} {v : Word} (h : s.bus.inFlight = some a)
    (hw : a.write = some v) :
    s.completeBus = { s with bus := { s.bus with inFlight := none }, mem := s.mem.write a.addr.toNat v } := by
  simp only [State.completeBus, h, hw, State.writeWord]

theorem completeBus_read {s : State} {a : BusAccess} (h : s.bus.inFlight = some a) (hw : a.write = none) :
    s.completeBus = { s with bus := { s.bus with inFlight := none } } := by
  simp only [State.completeBus, h, hw]

/-! ## What is under way to the image -/

theorem underway_advance {s : State} (h : DeliveryOk s.delivery) (b : Addr) : s.advance.underway b = s.underway b := by
  have ht : ∀ u : State, u.takeDue.underway b = u.underway b := fun u => by unfold State.takeDue; split <;> rfl
  unfold State.advance
  rw [← ht s]
  have hd : DeliveryOk s.takeDue.delivery := (Finished.takeDue s).delivery h
  generalize s.takeDue = u at hd
  unfold State.arbitrate
  split
  · rfl
  · next hb =>
    split
    · rfl
    · next r _ =>
      split
      · rfl
      · next a ha =>
        have hreq := (request_discard ha).2
        cases r with
        | deliver =>
          simp only [State.request, Option.map_eq_some_iff] at ha
          obtain ⟨d, hq, rfl⟩ := ha
          cases q : u.delivery with
          | nil => simp [q] at hq
          | cons e rest =>
            rw [q] at hq hd
            simp only [List.head?_cons, Option.some.injEq] at hq
            subst hq
            simp only [State.underway, State.grantBus, State.onGrant, q, List.tail_cons, hb]
            by_cases c : e.addr = b
            · have hn : pendingFor rest b = none := by
                apply List.find?_eq_none.mpr
                intro x hx
                simp only [beq_iff_eq]
                intro hxb
                have := hd.1
                simp only [List.map_cons, List.nodup_cons, List.mem_map] at this
                exact this.1 ⟨x, hx, hxb.trans c.symm⟩
              have hf : pendingFor (e :: rest) b = some e := by simp [pendingFor, c]
              simp [hn, hf, c]
            · have c' : (e.addr == b) = false := by simpa using c
              simp only [pendingFor, List.find?_cons, c', c, and_false, if_false]
        | walk => simp [State.underway, State.grantBus, State.onGrant, hb, hreq]
        | pass => simp [State.underway, State.grantBus, State.onGrant, hb, hreq]
        | scan => simp [State.underway, State.grantBus, State.onGrant, hb, hreq]
        | notice =>
          have hdel : (u.onGrant .notice).delivery = u.delivery := by
            simp only [State.onGrant]
            split <;> rfl
          simp [State.underway, State.grantBus, hdel, hb, hreq]

/-- What a placed write does to what is under way. -/
theorem underway_deliver (s : State) (a b : Addr) (v : Word) (u : Bool) :
    (s.deliver a v u).underway b = if b = a then some v else s.underway b := by
  have h := pendingFor_place a b v u s.delivery
  have h0 : (s.deliver a v u).delivery = placeDelivery a v u s.delivery := rfl
  have h1 : (s.deliver a v u).bus = s.bus := rfl
  simp only [State.underway, h0, h1]
  cases hp : pendingFor (placeDelivery a v u s.delivery) b with
  | none =>
    rw [hp] at h
    by_cases c : b = a
    · simp [c] at h
    · rw [if_neg c] at h ⊢
      have : pendingFor s.delivery b = none := by
        cases hq : pendingFor s.delivery b with
        | none => rfl
        | some d => simp [hq] at h
      simp [this]
  | some d =>
    rw [hp] at h
    by_cases c : b = a
    · simp only [c, if_true] at h ⊢
      simpa using h
    · rw [if_neg c] at h ⊢
      cases hq : pendingFor s.delivery b with
      | none => simp [hq] at h
      | some e => simpa [hq] using h

end Sys2Proof.Machine
end

