-- ==== Sys2Proof/Laws/Access.lean ====
section
/-! SUPPORT. Controller accesses: addresses and places, and where an access of a legal shape is dispatched (R1, R5, R22,
R23). -/

namespace Sys2Proof.Machine

/-! ## Addresses -/

theorem Ix4.ofMod_toNat (t : Ix4) (n : Nat) : Ix4.ofMod (4 * n + t.toNat) = t := by
  cases t <;> simp [Ix4.ofMod, Ix4.toNat]

theorem Ix4.toNat_lt (t : Ix4) : t.toNat < 4 := by cases t <;> simp [Ix4.toNat]

theorem placeAddress_toNat (b : Six) (p : Place) : (placeAddress b p).toNat
    = b.toNat * 0x4000 + p.tube.toNat * 0x1000 + p.channel.toNat * 0x40 + p.word.toNat := by
  have h1 := b.isLt
  have h2 := Ix4.toNat_lt p.tube
  have h3 := p.channel.isLt
  have h4 := p.word.isLt
  rw [placeAddress, BitVec.toNat_ofNat, Nat.mod_eq_of_lt]
  omega

/-- R5: the address of a place names the place. -/
theorem windowPlace_placeAddress (b : Six) (p : Place) : windowPlace b (placeAddress b p) = some p := by
  have h1 := b.isLt
  have h2 := Ix4.toNat_lt p.tube
  have h3 := p.channel.isLt
  have h4 := p.word.isLt
  unfold windowPlace
  rw [placeAddress_toNat]
  rw [if_pos (by omega)]
  congr 1
  have e1 : (b.toNat * 0x4000 + p.tube.toNat * 0x1000 + p.channel.toNat * 0x40 + p.word.toNat) / 0x1000
      = 4 * b.toNat + p.tube.toNat := by omega
  have e2 : (b.toNat * 0x4000 + p.tube.toNat * 0x1000 + p.channel.toNat * 0x40 + p.word.toNat) / 0x40
      = (b.toNat * 4 + p.tube.toNat) * 64 + p.channel.toNat := by omega
  rw [e1, e2, Ix4.ofMod_toNat]
  have f1 : BitVec.ofNat 6 ((b.toNat * 4 + p.tube.toNat) * 64 + p.channel.toNat) = p.channel := by
    apply BitVec.eq_of_toNat_eq
    rw [BitVec.toNat_ofNat]; omega
  have f2 : BitVec.ofNat 6 (b.toNat * 0x4000 + p.tube.toNat * 0x1000 + p.channel.toNat * 0x40 + p.word.toNat) = p.word := by
    apply BitVec.eq_of_toNat_eq
    rw [BitVec.toNat_ofNat]; omega
  rw [f1, f2]

/-- R2: the address of a root word names the word. -/
theorem rootWordAt_root (root : Addr) (w : Six) : rootWordAt root (root + w.setWidth 20) = some w := by
  have hw := w.isLt
  have h : (root + w.setWidth 20 - root) = w.setWidth 20 := by
    rw [BitVec.add_comm, BitVec.add_sub_cancel]
  have h2 : (w.setWidth 20 : BitVec 20).toNat = w.toNat := by
    rw [BitVec.toNat_setWidth]; omega
  unfold rootWordAt
  rw [h, h2, if_pos (by omega)]
  congr 1
  apply BitVec.eq_of_toNat_eq
  rw [BitVec.toNat_ofNat]; omega

/-! ## The state an access meets -/

theorem grantBus_eq (s : State) (r : Requester) (a : BusAccess) :
    ∃ b d n, s.grantBus r a = { s with bus := b, delivery := d, notices := n } := by
  unfold State.grantBus State.onGrant
  split
  · exact ⟨_, _, _, rfl⟩
  · split <;> exact ⟨_, _, _, rfl⟩
  · exact ⟨_, _, _, rfl⟩

/-- The bus's decision changes the bus, the Delivery Queue and the Notice Writer alone. -/
theorem advance_eq (s : State) : ∃ b d n, s.advance = { s with bus := b, delivery := d, notices := n } := by
  have h1 : ∃ b d n, s.takeDue = { s with bus := b, delivery := d, notices := n } := by
    unfold State.takeDue
    split <;> exact ⟨_, _, _, rfl⟩
  have h2 : ∀ u : State, ∃ b d n, u.arbitrate = { u with bus := b, delivery := d, notices := n } := fun u => by
    unfold State.arbitrate
    split
    · exact ⟨_, _, _, rfl⟩
    · split
      · exact ⟨_, _, _, rfl⟩
      · split
        · exact ⟨_, _, _, rfl⟩
        · exact grantBus_eq u _ _
  obtain ⟨b, d, n, h⟩ := h1
  obtain ⟨b', d', n', h'⟩ := h2 s.takeDue
  refine ⟨b', d', n', ?_⟩
  unfold State.advance
  rw [h', h]

theorem Finished.tube_eq {s : State} (t : Tube) : s.advance.tube t = s.tube t := by
  obtain ⟨b, d, n, h⟩ := advance_eq s
  rw [h]; rfl

/-! ## Dispatch -/

/-- The state a dispatched access meets: the bus has decided, and the replacement counter has advanced (R16). -/
def State.met (s : State) : State := { s.advance with replacement := s.advance.replacement + 1 }

theorem met_eq (s : State) : ∃ b d n,
    s.met = { s with bus := b, delivery := d, notices := n, replacement := s.replacement + 1 } := by
  obtain ⟨b, d, n, h⟩ := advance_eq s
  exact ⟨b, d, n, by rw [State.met, h]⟩

theorem Dispatches.advance {s : State} {acc : Access} {p : Place} {d : DescWords} (h : Dispatches s acc p d) :
    Dispatches s.advance acc p d := by
  obtain ⟨b, q, n, ha⟩ := advance_eq s
  rw [ha]
  exact ⟨h.idle, h.offRoot, h.place, h.ready, h.present, h.cached, h.allowed⟩

/-- R22, R23, for the state the access meets. -/
theorem classify_of_dispatches {u : State} {acc : Access} {p : Place} {d : DescWords} (h : Dispatches u acc p d)
    (straps : BitVec 4) :
    u.classify acc straps =
      (match acc.direction with
       | .read => { u with replacement := u.replacement + 1 }.dispatchRead acc p d
       | .write => { u with replacement := u.replacement + 1 }.dispatchWrite acc p d) := by
  obtain ⟨way, hw, hd, hk⟩ := h.cached
  have he : ({ u with replacement := u.replacement + 1 }.cacheEntry p way) = u.cacheEntry p way := rfl
  have hs : { u with replacement := u.replacement + 1 }.stepRefusal acc p d = u.stepRefusal acc p d := rfl
  simp only [State.classify, h.offRoot, h.place, State.channelAccess, h.ready, h.present, if_true, State.lookup, hw,
    State.afterLookup, he, hd, hs, h.allowed]
  cases hdir : acc.direction with
  | read => rfl
  | write => simp only [hk hdir, if_true]

/-- R22, R23: an access that no step refuses is dispatched by kind, and what follows an event follows it. -/
theorem takeAccess_of_dispatches {s : State} {acc : Access} {p : Place} {d : DescWords} (h : Dispatches s acc p d)
    (straps : BitVec 4) :
    s.takeAccess acc straps = s.advance.finish
      (match acc.direction with
       | .read => s.met.dispatchRead acc p d
       | .write => s.met.dispatchWrite acc p d) := by
  unfold State.takeAccess
  rw [if_pos h.idle, classify_of_dispatches h.advance straps]
  rfl

end Sys2Proof.Machine
end

