-- ==== Sys2Proof/Laws/Arbiter.lean ====
section
/-! SUPPORT. The Image Bus Arbiter's decision (R167): which requesters wait, when DELIVER stands back (R173), and the age
counts after a grant. -/

namespace Sys2Proof.Machine

/-- The first element of a list that a test accepts. -/
theorem find?_first {α} {p : α → Bool} {pre post : List α} {r : α} (hr : p r = true)
    (hp : ∀ q ∈ pre, p q = false) :
    (pre ++ r :: post).find? p = some r := by
  induction pre with
  | nil => simp [hr]
  | cons a l ih => simp only [List.cons_append, List.find?_cons, hp a (.head _)]; exact ih fun q h => hp q (.tail _ h)

/-- The granted requester's age is 0. -/
theorem agesAfter_granted (ages : Five Nat) (w : List Requester) (r : Requester) : (agesAfter ages w r).get r.ix = 0 := by
  cases r <;> simp [agesAfter, Requester.all, Requester.ix] <;> (repeat' split) <;> rfl

/-- Every other waiting requester's age rises by one, stopping at 4; one that does not wait keeps its age. -/
theorem agesAfter_other (ages : Five Nat) (w : List Requester) {r q : Requester} (h : q ≠ r) :
    (agesAfter ages w r).get q.ix = if q ∈ w then min 4 (ages.get q.ix + 1) else ages.get q.ix := by
  cases r <;> cases q <;> first
    | exact absurd rfl h
    | (simp [agesAfter, Requester.all, Requester.ix] <;> (repeat' split) <;> rfl)

theorem Requester.mem_all (r : Requester) : r ∈ Requester.all := by cases r <;> decide

theorem mem_waiting {s : State} {r : Requester} : r ∈ s.waiting ↔ (s.request r).isSome = true := by
  simp [State.waiting, Requester.mem_all]

/-- DELIVER is held exactly by a waiting write of a controller to its front entry's address. -/
theorem deliverHeld_iff (s : State) : s.deliverHeld = true ↔ ∃ acc a consumer d rest, s.port.phase = .pass acc a consumer
    ∧ acc.direction = .write ∧ s.delivery = d :: rest ∧ d.addr = a := by
  unfold State.deliverHeld
  split
  · next acc a c d rest hp hd =>
    simp only [Bool.and_eq_true, decide_eq_true_eq, beq_iff_eq]
    constructor
    · rintro ⟨h1, h2⟩; exact ⟨acc, a, c, d, rest, hp, h1, hd, h2⟩
    · rintro ⟨acc', a', c', d', rest', hp', h1, hd', h2⟩
      rw [hp] at hp'; rw [hd] at hd'; cases hp'; cases hd'; exact ⟨h1, h2⟩
  · next h =>
    constructor
    · intro h; cases h
    · rintro ⟨acc', a', c', d', rest', hp', h1, hd', h2⟩; exact absurd hd' (h _ _ _ _ _ hp')

/-- A requester may be granted if it waits and is no held DELIVER. -/
theorem mem_eligible {s : State} {r : Requester} :
    r ∈ s.eligible ↔ (s.request r).isSome = true ∧ ¬ (r = .deliver ∧ s.deliverHeld = true) := by
  simp only [State.eligible, List.mem_filter, mem_waiting, Bool.not_eq_true', ← Bool.not_eq_true, Bool.and_eq_true,
    decide_eq_true_eq]

/-- A decision grants only a requester that may be granted. -/
theorem chosen_mem {s : State} {r : Requester} (h : s.chosen = some r) : r ∈ s.eligible := by
  unfold State.chosen at h
  split at h
  · next q hq => cases h; exact List.mem_of_find?_eq_some hq
  · exact List.mem_of_head? h

/-- A BUSY bus makes no decision. -/
theorem arbitrate_busy {s : State} (h : s.bus.inFlight ≠ none) : s.arbitrate = s := by
  unfold State.arbitrate
  split
  · rfl
  · next h' => exact absurd h' h

/-- A decision that chooses nobody leaves the state. -/
theorem arbitrate_none {s : State} (h : s.chosen = none) : s.arbitrate = s := by
  unfold State.arbitrate
  split
  · rfl
  · simp only [h]

/-- An IDLE bus grants the requester chosen its request. -/
theorem arbitrate_grants {s : State} {r : Requester} {a : BusAccess} (hb : s.bus.inFlight = none)
    (hc : s.chosen = some r) (ha : s.request r = some a) : s.arbitrate = s.grantBus r a := by
  unfold State.arbitrate
  rw [hb, hc]; simp only [ha]

end Sys2Proof.Machine
end

