-- ==== Sys2Proof/Laws/Local.lean ====
section
/-! SUPPORT. What a command that concerns one tube leaves as it was: everything outside the tube but the bus, the port, the
waiting requests and what releases and grants of other tubes change (`Local`), with every engine operation an instance. -/

namespace Sys2Proof.Machine

/-- Outside tube `k` only releases and grants happened. -/
structure Local (k : Tube) (s t : State) : Prop where
  pending : t.pending = s.pending
  mem : t.mem = s.mem
  straps : t.straps = s.straps
  clock : t.clock = s.clock
  root : t.root = s.root
  cache : t.cache = s.cache
  binding : t.binding = s.binding
  scanner : t.scanner = s.scanner
  measured : t.measured = s.measured
  arrivals : t.arrivals = s.arrivals
  monitor : t.monitor = s.monitor
  loader : t.loader = s.loader
  latch : { t.abort with requests := s.abort.requests, trips := s.abort.trips } = s.abort
  requests : ∃ l, t.abort.requests = s.abort.requests ++ l
  budget : { t.budget with claims := s.budget.claims, joinCounter := s.budget.joinCounter } = s.budget
  writer :
    { t.notices with
      buffer := s.notices.buffer, lost := s.notices.lost, dueStatus := s.notices.dueStatus
      dueLost := s.notices.dueLost, dueConsumer := s.notices.dueConsumer, dueProducer := s.notices.dueProducer
      phase := s.notices.phase } = s.notices
  buffer : ∃ l, t.notices.buffer = s.notices.buffer ++ l
  bounded : s.notices.buffer.length ≤ 8 → t.notices.buffer.length ≤ 8
  delivery : DeliveryOk s.delivery → DeliveryOk t.delivery
  others : ∀ j, j ≠ k → TubeShift false True (s.tube j) (t.tube j)

theorem Local.refl (k : Tube) (s : State) : Local k s s where
  pending := rfl
  mem := rfl
  straps := rfl
  clock := rfl
  root := rfl
  cache := rfl
  binding := rfl
  scanner := rfl
  measured := rfl
  arrivals := rfl
  monitor := rfl
  loader := rfl
  latch := rfl
  requests := ⟨[], by simp⟩
  budget := rfl
  writer := rfl
  buffer := ⟨[], by simp⟩
  bounded := id
  delivery := id
  others := fun _ _ => .refl _ _

theorem Local.trans {k : Tube} {s t u : State} (h : Local k s t) (g : Local k t u) : Local k s u where
  pending := g.pending.trans h.pending
  mem := g.mem.trans h.mem
  straps := g.straps.trans h.straps
  clock := g.clock.trans h.clock
  root := g.root.trans h.root
  cache := g.cache.trans h.cache
  binding := g.binding.trans h.binding
  scanner := g.scanner.trans h.scanner
  measured := g.measured.trans h.measured
  arrivals := g.arrivals.trans h.arrivals
  monitor := g.monitor.trans h.monitor
  loader := g.loader.trans h.loader
  latch := by have a := h.latch; have b := g.latch; rw [← b] at a; exact a
  requests := by
    obtain ⟨a, ha⟩ := h.requests
    obtain ⟨b, hb⟩ := g.requests
    exact ⟨a ++ b, by rw [hb, ha, List.append_assoc]⟩
  budget := by have a := h.budget; have b := g.budget; rw [← b] at a; exact a
  writer := by have a := h.writer; have b := g.writer; rw [← b] at a; exact a
  buffer := by
    obtain ⟨a, ha⟩ := h.buffer
    obtain ⟨b, hb⟩ := g.buffer
    exact ⟨a ++ b, by rw [hb, ha, List.append_assoc]⟩
  bounded := fun a => g.bounded (h.bounded a)
  delivery := fun a => g.delivery (h.delivery a)
  others := fun j hj => (h.others j hj).trans (g.others j hj)

/-- What follows an event is local to any tube. -/
theorem Finished.toLocal {s t : State} (k : Tube) (h : Finished s t) : Local k s t where
  pending := h.pending
  mem := h.mem
  straps := h.straps
  clock := h.clock
  root := h.root
  cache := h.cache
  binding := h.binding
  scanner := h.scanner
  measured := h.measured
  arrivals := h.arrivals
  monitor := h.monitor
  loader := h.loader
  latch := by rw [h.abort]
  requests := ⟨[], by simp [h.abort]⟩
  budget := h.budget
  writer := h.writer
  buffer := h.buffer
  bounded := h.bounded
  delivery := h.delivery
  others := fun j _ => h.tubes j

theorem Shift.toLocal {s t : State} (k : Tube) (h : Shift none True s t) : Local k s t := h.finished.toLocal k

theorem Local.setTube (k : Tube) (s : State) (x : TubeState) : Local k s (s.setTube k x) :=
  { Local.refl k s with
    others := fun j hj => by simpa [hj] using TubeShift.refl (P := True) false (s.tube j) }

theorem Local.modTube (k : Tube) (s : State) (f : TubeState → TubeState) : Local k s (s.modTube k f) :=
  Local.setTube k s _

theorem Local.modRamp (k : Tube) (s : State) (f : Ramp → Ramp) : Local k s (s.modRamp k f) := Local.setTube k s _

theorem Local.modGas (k : Tube) (s : State) (f : Gas → Gas) : Local k s (s.modGas k f) := Local.setTube k s _

theorem Local.modBoat (k : Tube) (s : State) (f : Boat → Boat) : Local k s (s.modBoat k f) := Local.setTube k s _

theorem Local.modSummary (k : Tube) (s : State) (f : Summary → Summary) : Local k s (s.modSummary k f) :=
  Local.setTube k s _

theorem Local.place (k : Tube) (s : State) (n : Notice) : Local k s (s.place n) := (Shift.place none s n).toLocal k

theorem Local.deliver (k : Tube) (s : State) (a : Addr) (v : Word) (u : Bool) : Local k s (s.deliver a v u) :=
  (Shift.deliver none s a v u).toLocal k

theorem Local.answer (k : Tube) (s : State) (a : Answer) : Local k s (s.answer a) := { Local.refl k s with }

theorem Local.setPort (k : Tube) (s : State) (p : Port) : Local k s { s with port := p } := { Local.refl k s with }

theorem Local.replacement (k : Tube) (s : State) (n : BitVec 2) : Local k s { s with replacement := n } :=
  { Local.refl k s with }

theorem Local.rescan (k : Tube) (s : State) : Local k s s.rescan := (Shift.rescan s).toLocal k

theorem Local.examine (k : Tube) (s : State) (t : Tube) : Local k s (s.examine t) := (Shift.examine s t).toLocal k

theorem Local.examineWith (k : Tube) {rescan : State → State} (hr : ∀ s, Shift none True s (rescan s)) (s : State)
    (t : Tube) : Local k s (s.examineWith rescan t) := (Shift.examineWith hr s t).toLocal k

theorem Local.announce (k : Tube) (s : State) : Local k s s.announce := (Shift.announce none s).toLocal k

theorem Local.joinClaim (k : Tube) (s : State) (t : Tube) (p : Pool) (n : Nat) (r : Priority) (c : Origin) :
    Local k s (s.joinClaim t p n r c) := (Shift.joinClaim none s t p n r c).toLocal k

theorem Local.withdraw (k : Tube) (s : State) (w : Claim → Bool) : Local k s (s.withdraw State.rescan w) :=
  (Shift.withdraw Shift.rescan s w).toLocal k

theorem Local.claims (k : Tube) (s : State) (f : Budget → Budget)
    (h : ∀ b : Budget, { f b with claims := b.claims, joinCounter := b.joinCounter } = b) :
    Local k s (s.modBudget f) := (Shift.claims none s f h).toLocal k

theorem Local.requestAbort (k : Tube) (s : State) (r : AbortRequest) : Local k s (s.requestAbort r) :=
  { Local.refl k s with
    latch := rfl
    requests := ⟨[r], rfl⟩ }

theorem Local.requestTrip (k : Tube) (s : State) (r : TripRequest) : Local k s (s.requestTrip r) :=
  { Local.refl k s with latch := rfl }

theorem Local.foldl {α : Type} {k : Tube} {f : State → α → State} (h : ∀ s a, Local k s (f s a)) :
    ∀ (l : List α) (s : State), Local k s (l.foldl f s)
  | [], s => .refl k s
  | a :: l, s => (h s a).trans (Local.foldl h l _)

/-! ## Engines -/

variable {k : Tube}

theorem Local.setFlow (s : State) (l : Line) (v : Word) (u : Bool) : Local k s (s.setFlow k l v u) :=
  (Local.modGas k s _).trans (.deliver _ _ _ _ _)

theorem Local.lowerLine (s : State) (l : Line) (v : Word) : Local k s (s.lowerLine State.rescan k l v) := by
  unfold State.lowerLine
  simp only
  split
  · exact (Local.setFlow s l v true).trans (.rescan _ _)
  · exact Local.setFlow s l v true

theorem Local.startRun (s : State) (r : RunStart) : Local k s (s.startRun State.rescan k r) := by
  unfold State.startRun
  simp only
  split
  · refine Local.trans ?_ (Local.modGas k _ _)
    split
    · exact Local.trans ((Local.modGas k s _).trans (.setFlow _ _ _ _)) (.rescan _ _)
    · exact (Local.modGas k s _).trans (.setFlow _ _ _ _)
  · exact (Local.modGas k s _).trans ((Local.joinClaim _ _ _ _ _ _ _).trans (.rescan _ _))

theorem Local.clearingTest (s : State) (l : Line) (v : Word) : Local k s (s.clearingTest State.rescan k l v) := by
  unfold State.clearingTest
  split
  · exact Local.startRun s _
  · exact .refl _ _

theorem Local.freeSlot (s : State) : Local k s (s.freeSlot State.rescan k) := by
  unfold State.freeSlot
  split
  · exact (Local.modRamp k s _).trans (.rescan _ _)
  · exact .refl _ _

/-! ## The queue and its removals -/

theorem Local.supersede (s : State) (w : HeldEntry → Bool) (y : Way) (n : Word) : Local k s (s.supersede k w y n) := by
  unfold State.supersede
  simp only
  have h := (Local.modTube k s fun x => { x with queue := x.queue.filter (fun e => !w e) }).trans
    (Local.foldl (fun u e => Local.place k u (supersededNotice k e y n)) ((s.tube k).queue.filter w) _)
  split
  · exact h.trans (.withdraw _ _ _)
  · exact h

theorem Local.placeFlushed (o : FlushOrigin) : ∀ (n : Nat) (q : List HeldEntry) (s : State),
    Local k s (placeFlushed k o n q s)
  | _, [], s => .refl k s
  | n, _ :: q, s => (Local.place k s _).trans (Local.placeFlushed o (n + 1) q _)

theorem Local.flush (s : State) (o : FlushOrigin) : Local k s (s.flush k o) := by
  unfold State.flush
  simp only
  refine Local.trans ?_ ((Local.modTube k _ fun x => { x with queue := [] }).trans (Local.placeFlushed o 0 _ _))
  split
  · exact .refl _ _
  · split
    · exact .withdraw _ _ _
    · exact .refl _ _

theorem Local.setHead (s : State) (e : HeldEntry) : Local k s (s.setHead k e) := Local.modTube k s _

/-! ## The Abort Controller -/

theorem Local.freezeRamp (s : State) : Local k s (s.freezeRamp k) := (Local.modRamp k s _).trans (.freeSlot _)

theorem Local.closeReactive : ∀ (ls : List Line) (s : State), Local k s (s.closeReactive k ls)
  | [], s => .refl k s
  | l :: ls, s => by
    unfold State.closeReactive
    simp only
    refine Local.trans ?_ (Local.closeReactive ls _)
    split
    · exact .lowerLine _ _ _
    · exact .refl _ _

theorem Local.raiseRunClaim (s : State) : Local k s (s.raiseRunClaim k) := by
  unfold State.raiseRunClaim
  split
  · exact .refl _ _
  · split
    · exact .refl _ _
    · refine Local.trans ?_ (.rescan _ _)
      refine Local.trans ?_ (.modGas _ _ _)
      exact Local.claims k s (fun b =>
        { b with claims := b.claims.map (fun d => if d.ofRun k then { d with priority := .abort } else d) }) fun _ => rfl

theorem Local.gasAbort (s : State) : Local k s (s.gasAbort k) := by
  unfold State.gasAbort
  simp only
  split
  · exact (Local.closeReactive _ s).trans (.startRun _ _)
  · exact (Local.withdraw _ s _).trans (.startRun _ _)
  · exact (Local.modGas k s _).trans (.raiseRunClaim _)
  · exact .refl _ _
  · exact .refl _ _

theorem Local.endAbort (s : State) (w : Word) : Local k s (s.endAbort k w) := by
  unfold State.endAbort
  simp only
  exact (Local.modTube k s _).trans (.place _ _ _)

theorem Local.afterGasAbort (s : State) : Local k s (s.afterGasAbort k) := by
  unfold State.afterGasAbort
  split
  · exact .endAbort _ _
  · split
    · exact .modTube k s _
    · exact .refl _ _

theorem Local.abortTube (s : State) (r : AbortRequest) : Local r.tube s (s.abortTube r) := by
  unfold State.abortTube
  simp only
  have h1 : Local r.tube s (s.beginAbort r) := (Local.modTube r.tube s _).trans (.place _ _ _)
  exact ((((h1.trans (.flush _ _)).trans (.modTube r.tube _ _)).trans (.freezeRamp _)).trans
    (.modBoat r.tube _ _)).trans ((Local.gasAbort _).trans (.afterGasAbort _))

theorem Local.takeAbort (s : State) (r : AbortRequest) : Local r.tube s (s.takeAbort r) := by
  unfold State.takeAbort
  split
  · exact .refl _ _
  · split
    · exact .abortTube s r
    · exact .abortTube s r
    · exact .place _ _ _
    · exact .place _ _ _

/-! ## Tube Control -/

theorem Local.refuseAt (s : State) (a : Access) (p : Place) (r : RefuseReason) : Local k s (s.refuseAt a p r) :=
  (Local.place k s _).trans (.answer _ _ _)

theorem Local.refuseBank (s : State) (a : Access) (r : RefuseReason) : Local k s (s.refuseBank a r) :=
  (Local.place k s _).trans (.answer _ _ _)

theorem Local.ack (s : State) : Local k s s.ack := .answer k s _

theorem Local.refuseTube (s : State) (a : Access) (p : Place) (r : RefuseReason) :
    Local p.tube s (s.refuseTube a p r) := (Local.modSummary p.tube s _).trans (.refuseAt _ _ _ _)

theorem Local.closeAll : ∀ (ls : List Line) (s : State), Local k s (s.closeAll k ls)
  | [], s => .refl k s
  | l :: ls, s => by
    unfold State.closeAll
    simp only
    refine Local.trans ?_ (Local.closeAll ls _)
    split
    · exact .lowerLine _ _ _
    · exact .refl _ _

theorem Local.tubeCommand (s : State) (a : Access) (p : Place) : Local p.tube s (s.tubeCommand a p) := by
  unfold State.tubeCommand
  split
  · unfold State.commandPurge
    split
    · exact (Local.startRun s _).trans (.ack _)
    · exact .refuseTube s a p _
  · unfold State.commandHold
    split
    · exact (Local.modTube p.tube s _).trans (.ack _)
    · exact .ack s
    · exact .refuseTube s a p _
    · exact .refuseTube s a p _
  · unfold State.commandResume
    split
    · exact .ack s
    · exact (Local.modTube p.tube s _).trans (.ack _)
    · exact .refuseTube s a p _
    · split
      · exact .refuseTube s a p _
      · exact (Local.modTube p.tube s _).trans (.ack _)
  · exact (Local.requestAbort p.tube s _).trans (.ack _)
  · unfold State.commandVent
    split
    · exact ((Local.closeAll _ s).trans (.modGas p.tube _ _)).trans (.ack _)
    · exact .refuseTube s a p _
  · unfold State.commandFlush
    split
    · exact (Local.flush s _).trans (.ack _)
    · exact .refuseTube s a p _
  · exact .refuseTube s a p _

theorem Local.tubeRead (s : State) (p : Place) : Local p.tube s (s.tubeRead p) :=
  (Local.setTube p.tube s _).trans (.answer _ _ _)

/-! ## Acceptance and the MANUAL path -/

theorem Local.takeTicket (s : State) : Local k s (s.takeTicket k) := .modTube k s _

theorem Local.bypass (s : State) (p : Place) (l : Line) (n v : Word) : Local p.tube s (s.bypass p l n v) := by
  unfold State.bypass
  simp only
  exact ((((Local.supersede s _ _ _).trans (.lowerLine _ _ _)).trans (.place _ _ _)).trans
    (.modTube p.tube _ _)).trans ((Local.clearingTest _ _ _).trans (.examine _ _ _))

theorem Local.holdHead (s : State) (n : Word) : Local k s (s.holdHead k n) := by
  unfold State.holdHead
  split
  · exact .refl _ _
  · split
    · exact (Local.setHead s _).trans (.place _ _ _)
    · exact .refl _ _

theorem Local.holdFirst (s : State) (e : HeldEntry) : Local k s (s.holdFirst k e) :=
  (((Local.modTube k s _).trans (.examineWith k Shift.scan _ _)).trans (.holdHead _ _)).trans (.announce _ _)

theorem Local.enqueue (s : State) (p : Place) (d : DescWords) (n v : Word) : Local p.tube s (s.enqueue p d n v) := by
  unfold State.enqueue
  simp only
  have h1 : Local p.tube s (s.supersedeChannel p n) := by
    unfold State.supersedeChannel
    simp only
    split
    · exact (Local.supersede s _ _ _).trans (.examine _ _ _)
    · exact .supersede s _ _ _
  refine h1.trans ?_
  split
  · exact (Local.holdFirst _ _).trans (.ack _)
  · split
    · unfold State.holdBehind
      simp only
      exact ((Local.modTube p.tube _ _).trans (.place _ _ _)).trans (.ack _)
    · unfold State.refuseFull
      exact ((Local.modSummary p.tube _ _).trans (.place _ _ _)).trans (.answer _ _ _)

theorem Local.accept (s : State) (a : Access) (p : Place) (d : DescWords) : Local p.tube s (s.accept a p d) := by
  unfold State.accept
  simp only
  split
  · exact .refuseTube s a p _
  · split
    · exact .refuseTube s a p _
    · split
      · exact ((Local.takeTicket s).trans (.bypass _ _ _ _ _)).trans (.ack _)
      · split
        · exact .refuseTube s a p _
        · exact (Local.takeTicket s).trans (.enqueue _ _ _ _ _)

theorem Local.setZone (s : State) (z : Zone) (v : Word) : Local k s (s.setZone k z v) :=
  (Local.modRamp k s _).trans (.deliver _ _ _ _ _)

theorem Local.manual (s : State) (a : Access) (p : Place) (d : DescWords) : Local p.tube s (s.manual a p d) := by
  unfold State.manual
  split
  · exact .refuseTube s a p _
  · split
    · exact .refuseTube s a p _
    · split
      · unfold State.manualZone
        simp only
        exact (((Local.modRamp p.tube s _).trans (.setZone _ _ _)).trans (.modRamp p.tube _ _)).trans (.ack _)
      · unfold State.manualLine
        simp only
        split
        · exact (Local.lowerLine s _ _).trans (.ack _)
        · split
          · unfold State.raiseLine
            simp only
            refine Local.trans ?_ (.ack _)
            split
            · exact (Local.setFlow s _ _ _).trans (.rescan _ _)
            · exact .setFlow s _ _ _
          · exact .refuseTube s a p _
      · exact ((Local.modBoat p.tube s _).trans (.deliver _ _ _ _ _)).trans (.ack _)
      · exact .ack s

/-- A dispatched write (R23). -/
theorem Local.passWrite (s : State) (a : Access) (x : Addr) (c : Bool) : Local k s (s.passWrite a x c) := by
  unfold State.passWrite
  split <;> exact .setPort _ _ _

theorem Local.passRead (s : State) (a : Access) (x : Addr) : Local k s (s.passRead a x) := by
  unfold State.passRead
  split
  · exact .answer _ _ _
  · exact .setPort _ _ _

theorem Local.dispatchRead (s : State) (a : Access) (p : Place) (d : DescWords) :
    Local p.tube s (s.dispatchRead a p d) := by
  unfold State.dispatchRead
  split
  · exact .passRead _ _ _
  · exact .tubeRead _ _
  · exact .passRead _ _ _

theorem Local.dispatchWrite (s : State) (a : Access) (p : Place) (d : DescWords) :
    Local p.tube s (s.dispatchWrite a p d) := by
  unfold State.dispatchWrite
  split
  · exact .passWrite _ _ _ _
  · exact .tubeCommand _ _ _
  · split
    · exact .manual _ _ _ _
    · exact .accept _ _ _ _

/-! ## Expiries and arrivals -/

theorem Local.entryExpired (s : State) (e : HeldEntry) : Local k s (s.entryExpired k e) := by
  unfold State.entryExpired
  simp only
  have h : ∀ u, Local k u (((u.place (expiredNotice k e (entriesAhead (s.tube k).queue e.ticket))).modSummary k
      fun f => { f with expiredAny := true })) := fun u => (Local.place _ _ _).trans (.modSummary _ _ _)
  have h2 : Local k s (if e.state = EntryState.claiming then
      (s.modTube k fun x => { x with queue := x.queue.filter (fun f => f.ticket != e.ticket) }).withdraw State.rescan
        (Claim.ofHead k)
      else s.modTube k fun x => { x with queue := x.queue.filter (fun f => f.ticket != e.ticket) }) := by
    split
    · exact (Local.modTube k s _).trans (.withdraw _ _ _)
    · exact .modTube k s _
  split
  · exact (h2.trans (h _)).trans (.examine _ _ _)
  · exact h2.trans (h _)

theorem Local.gapExpired (s : State) : Local k s (s.gapExpired k) := (Local.modTube k s _).trans (.examine _ _ _)

theorem Local.moveZone (s : State) (z : Zone) : Local k s (s.moveZone k z) := by
  unfold State.moveZone
  simp only
  split
  · exact .setZone _ _ _
  · exact .refl _ _

theorem Local.afterMoves (s : State) : Local k s (s.afterMoves k) := by
  unfold State.afterMoves
  simp only
  split
  · exact (Local.modRamp k _ _).trans (.freeSlot _)
  · exact .modRamp k _ _
  · exact (Local.modRamp k _ _).trans (.freeSlot _)

theorem Local.lagHold (s : State) (z : Zone) : Local k s (s.lagHold k z) := by
  unfold State.lagHold
  simp only
  split
  · exact (Local.modRamp k _ _).trans (.place _ _ _)
  · exact .refl _ _

theorem Local.stepExpired (s : State) : Local k s (s.stepExpired k) := by
  unfold State.stepExpired
  simp only
  have h := Local.modRamp k s fun r => { r with stepTimer := some (s.tube k).header.stepPeriod }
  split
  · exact h.trans (.lagHold _ _)
  · refine Local.trans ?_ (.afterMoves _)
    refine Local.trans ?_ (.modRamp k _ _)
    exact h.trans (Local.foldl (fun u z => Local.moveZone u z) _ _)

theorem Local.settleExpired (s : State) : Local k s (s.settleExpired k) := by
  unfold State.settleExpired
  split
  · unfold State.settleFailed
    simp only
    split
    · exact (Local.modRamp k s _).trans (.place _ _ _)
    · exact .modRamp k s _
  · unfold State.settlePassed
    simp only
    exact ((Local.modRamp k s _).trans (.place _ _ _)).trans (.modSummary _ _ _)

theorem Local.boatDone (s : State) (n : Nat) : Local k s (s.boatDone k n) := by
  unfold State.boatDone
  simp only
  exact (Local.modSummary k s _).trans (.place _ _ _)

theorem Local.afterMove (s : State) : Local k s (s.afterMove k) := by
  unfold State.afterMove
  simp only
  split
  · exact ((Local.modBoat k _ _).trans (.modBoat k _ _)).trans (.requestAbort _ _ _)
  · split
    · exact ((Local.modBoat k _ _).trans (.modBoat k _ _)).trans (.boatDone _ _)
    · exact (Local.modBoat k _ _).trans (.modBoat k _ _)

theorem Local.motionExpired (s : State) : Local k s (s.motionExpired k) := by
  unfold State.motionExpired
  simp only
  refine Local.trans ?_ (.afterMove _)
  split
  · exact .modBoat k _ _
  · exact ((Local.modBoat k _ _).trans (.modBoat k _ _)).trans (.deliver _ _ _ _ _)

theorem Local.ite {s t u : State} {c : Prop} [Decidable c] (h : Local k s t) (g : Local k s u) :
    Local k s (if c then t else u) := by
  split
  · exact h
  · exact g

theorem Local.completeRun (s : State) (r : Run) : Local k s (s.completeRun k r) := by
  unfold State.completeRun
  simp only
  have h : Local k s ((s.modGas k fun g =>
    { g with sampleTimer := none, limitTimer := none, atmosphere := .inert, run := none })) := .modGas k s _
  exact .ite ((((h.trans (.lowerLine _ _ _)).trans (.modSummary _ _ _)).trans (.place _ _ _)).trans (.endAbort _ _))
    (((h.trans (.lowerLine _ _ _)).trans (.modSummary _ _ _)).trans (.place _ _ _))

theorem Local.sampleExpired (s : State) : Local k s (s.sampleExpired k) := by
  unfold State.sampleExpired
  simp only
  refine (Local.modGas k s fun g => g.addSample (s.purgeFlowUsed k) (s.tube k).header.samplePeriod).trans ?_
  split
  · exact .modGas k _ _
  · split
    · exact .completeRun _ _
    · exact .refl _ _

theorem Local.purgeLimitExpired (s : State) : Local k s (s.purgeLimitExpired k) := by
  unfold State.purgeLimitExpired
  simp only
  split
  · exact .modGas k s _
  · split
    · exact (Local.modGas k s _).trans (.requestAbort _ _ _)
    · exact (Local.modGas k s _).trans (.requestAbort _ _ _)
    · exact (Local.modGas k s _).trans (.requestTrip _ _ _)
    · exact .modGas k s _

theorem Local.lineArrives (s : State) (a : LineArrival) : Local a.tube s (s.lineArrives a) := by
  unfold State.lineArrives
  simp only
  split
  · split
    · split
      · exact (Local.modGas a.tube s _).trans (.requestAbort _ _ _)
      · exact .modGas a.tube s _
    · exact .modGas a.tube s _
  · exact .refl _ _

theorem Local.abortClaimExpired (s : State) : Local k s (s.abortClaimExpired k) := by
  unfold State.abortClaimExpired
  simp only
  split
  · exact .modTube k s _
  · exact (Local.modTube k s _).trans (.requestTrip _ _ _)

end Sys2Proof.Machine
end

