-- ==== Sys2Proof/Laws/Frames.lean ====
section
/-! SUPPORT. The frames of Safety.lean follow from `Finished` and `Local`. -/

namespace Sys2Proof.Machine

theorem kept_line {a b : LineRec} (h : b.plate = a.plate) :
    { b with flow := a.flow, devCounter := a.devCounter } = a := by
  cases a; cases b
  simp only [LineRec.plate, LineRec.mk.injEq, true_and] at h ⊢
  obtain ⟨h1, h2, h3, h4, h5, h6, h7⟩ := h
  exact ⟨h1, h2, h3, h4, h5, h6, trivial⟩

theorem TubeShift.kept {b : Bool} {P : Prop} {x y : TubeState} (h : TubeShift b P x y) : TubeKept x y where
  mode := h.mode
  nextTicket := h.nextTicket
  lastIssued := h.lastIssued
  latchHeld := h.latchHeld
  latchValue := h.latchValue
  abortCause := h.abortCause
  abortBegin := h.abortBegin
  header := h.header
  boatBound := h.boatBound
  boatDelivered := h.boatDelivered
  zoneBound := h.zoneBound
  zoneDelivered := h.zoneDelivered
  lines := fun l => kept_line (h.plates l)
  summary := h.summary

theorem ring_of_writer {n m : NoticeWriter} (h : { m with
      buffer := n.buffer, lost := n.lost, dueStatus := n.dueStatus, dueLost := n.dueLost, dueConsumer := n.dueConsumer
      dueProducer := n.dueProducer, phase := n.phase } = n) : m.producer = n.producer ∧ m.consumer = n.consumer := by
  rw [← h]; exact ⟨rfl, rfl⟩

theorem Local.elsewhere {k : Tube} {s t : State} (h : Local k s t) : Elsewhere (some k) s t where
  pending := h.pending
  mem := h.mem
  straps := h.straps
  clock := h.clock
  root := h.root
  cache := h.cache
  binding := h.binding
  scanner := h.scanner
  measured := h.measured
  arrivals := h.arrivals
  monitor := h.monitor
  loader := h.loader
  latch := by have := h.latch; rw [← this]; exact ⟨rfl, rfl, rfl⟩
  pools := h.budget
  ring := ring_of_writer h.writer
  others := fun j hj => (h.others j fun e => hj (by rw [e])).kept

theorem Finished.elsewhere {s t : State} (h : Finished s t) : Elsewhere none s t where
  pending := h.pending
  mem := h.mem
  straps := h.straps
  clock := h.clock
  root := h.root
  cache := h.cache
  binding := h.binding
  scanner := h.scanner
  measured := h.measured
  arrivals := h.arrivals
  monitor := h.monitor
  loader := h.loader
  latch := by rw [h.abort]; exact ⟨rfl, rfl, rfl⟩
  pools := h.budget
  ring := ring_of_writer h.writer
  others := fun j _ => (h.tubes j).kept

theorem Local.finished {k : Tube} {s t u : State} (h : Local k s t) (g : Finished t u) : Local k s u := h.trans (g.toLocal k)

/-- The frame of a dispatched access of tube `k`. -/
theorem Local.met (k : Tube) (s : State) : Local k s s.met :=
  ((Finished.advance s).toLocal k).trans (.replacement _ _ _)

/-- A notice placed first stands in the buffer, whatever is placed after it. -/
theorem Reports.of_place {s u t : State} {n : Notice} (hb : u.notices.buffer = s.notices.buffer) (hc : t.clock = u.clock)
    (h : ∃ l, t.notices.buffer = (u.place n).notices.buffer ++ l) : Reports s t n := by
  intro hr
  obtain ⟨l, hl⟩ := h
  have hp : (u.place n).notices.buffer = u.notices.buffer ++ [{ n with clock := u.clock }] := by
    simp only [State.place, State.modNotices]
    rw [if_pos (by rw [hb]; exact hr)]
  rw [hl, hp, hc]
  simp

end Sys2Proof.Machine
end

