-- ==== Sys2Proof/Laws/Words.lean ====
section
/-! SUPPORT. Transactions of several words: one word taken, and where the taking stops (log 8). -/

namespace Sys2Proof.Machine

theorem takeWords_stop {r : Requester} {ready : State → Bool} {f : State → Word → State} {s : State}
    (h : ready s = false) (n : Nat) : takeWords r ready f n s = s := by
  cases n with
  | zero => rfl
  | succ n =>
    unfold takeWords
    split
    · rfl
    · simp [h]

theorem takeWords_one {r : Requester} {ready : State → Bool} {f : State → Word → State} {s : State} {a : BusAccess}
    {n : Nat} (ha : s.inFlightOf r = some a) (h : ready s = true) :
    takeWords r ready f (n + 1) s
      = takeWords r ready f n (s.finish (f s.completeBus (s.readWord a.addr))) := by
  rw [takeWords, ha]
  simp only [h, if_true]

/-- With the last word of a transaction in flight and waited for, the command is that word's event and no more. -/
theorem takeWords_last {r : Requester} {ready : State → Bool} {f : State → Word → State} {s : State} {a : BusAccess}
    {n : Nat} (hn : 1 ≤ n) (ha : s.inFlightOf r = some a) (h : ready s = true)
    (hs : ready (s.finish (f s.completeBus (s.readWord a.addr))) = false) :
    takeWords r ready f n s = s.finish (f s.completeBus (s.readWord a.addr)) := by
  obtain ⟨m, rfl⟩ : ∃ m, n = m + 1 := ⟨n - 1, by omega⟩
  rw [takeWords_one ha h, takeWords_stop hs]

/-- The state a bus command of `r` meets, with an access in flight that is waited for. -/
theorem opened {s : State} {r : Requester} {a : BusAccess} (h : InFlight s r a) :
    ∃ p, s.openBus r = (s.modNotices fun n => { n with phase := p })
      ∧ (s.notices.phase ≠ .idle → p = s.notices.phase)
      ∧ (s.openBus r).inFlightOf r = some a := by
  refine ⟨s.takeDue.notices.phase, by rw [openBus_of_inFlight h]; exact takeDue_eq s, fun hp => ?_, ?_⟩
  · rw [takeDue_of_phase hp]
  · rw [openBus_of_inFlight h]; exact inFlightOf_of_inFlight h

end Sys2Proof.Machine
end

