-- ==== Sys2Proof/Laws/Reactive.lean ====
section
/-! SUPPORT. The reactive-gas law of one tube (R94) through every event of that tube: `TubeStep r x y`, with `Halted` for
the middle of an abort or an adoption. -/

namespace Sys2Proof.Machine

/-- What an event does to a tube, as far as the law of its gas goes; `r` says that the part is READY. -/
structure TubeStep (r : Prop) (x y : TubeState) : Prop where
  safe : GasSafe x → GasSafe y
  plates : ∀ l, (y.gas.lines.get l).plate = (x.gas.lines.get l).plate
  mode : GasSafe x → ¬ r → y.mode.working = true → x.mode.working = true

variable {r : Prop} {k : Tube}

theorem TubeStep.refl (x : TubeState) : TubeStep r x x := ⟨id, fun _ => rfl, fun _ _ => id⟩

theorem TubeStep.trans {x y z : TubeState} (h : TubeStep r x y) (g : TubeStep r y z) : TubeStep r x z :=
  ⟨fun a => g.safe (h.safe a), fun l => (g.plates l).trans (h.plates l), fun s n a => h.mode s n (g.mode (h.safe s) n a)⟩

theorem TubeShift.step {b : Bool} {x y : TubeState} (h : TubeShift b True x y) : TubeStep r x y :=
  ⟨h.safe fun _ => trivial, h.plates, fun _ _ a => by rw [h.mode] at a; exact a⟩

/-- What an event does to tube `k` of the part; the port stays as it is or comes off the walk. -/
structure Step (r : Prop) (k : Tube) (s t : State) : Prop where
  tube : TubeStep r (s.tube k) (t.tube k)
  port : t.portOffWalk = true ∨ t.port = s.port

theorem Step.refl (s : State) : Step r k s s := ⟨.refl _, .inr rfl⟩

theorem Step.trans {s t u : State} (h : Step r k s t) (g : Step r k t u) : Step r k s u := by
  refine ⟨h.tube.trans g.tube, ?_⟩
  rcases g.port with c | c
  · exact .inl c
  · rcases h.port with d | d
    · exact .inl (by simpa only [State.portOffWalk, c] using d)
    · exact .inr (c.trans d)

theorem Shift.step {o : Option Tube} {s t : State} (h : Shift o True s t) : Step r k s t := ⟨(h.tubes k).step, .inr h.port⟩

theorem Finished.step {s t : State} (h : Finished s t) : Step r k s t := ⟨(h.tubes k).step, .inr h.port⟩

/-- A change of the tube that touches neither mode, queue, gas nor header, and its boat as a motion may. -/
theorem TubeStep.boat {x y : TubeState} (hm : y.mode = x.mode) (hq : y.queue = x.queue) (hg : y.gas = x.gas)
    (hh : y.header = x.header) (ho : GasSafe x → y.boat.state = .outPos → y.boat.delivered = 0)
    (ht : GasSafe x → y.boat.motionTimer ≠ none → y.boat.state = .moving) : TubeStep r x y where
  safe := fun g =>
    { classes := by rw [hq, hg]; exact g.classes
      purgeInert := by rw [hg, hh]; exact g.purgeInert
      closed := by rw [hg]; exact g.closed
      working := by rw [hg, hm]; exact g.working
      run := by rw [hg]; exact g.run
      idle := by rw [hm, hq]; exact g.idle
      boatOut := ho g
      boatTimer := ht g }
  plates := fun _ => by rw [hg]
  mode := fun _ _ => by rw [hm]; exact id

/-- A change that leaves the boat as well. -/
theorem TubeStep.quiet {x y : TubeState} (hm : y.mode = x.mode) (hq : y.queue = x.queue) (hg : y.gas = x.gas)
    (hh : y.header = x.header) (hb : y.boat = x.boat) : TubeStep r x y :=
  .boat hm hq hg hh (fun g => by rw [hb]; exact g.boatOut) fun g => by rw [hb]; exact g.boatTimer

/-- A change of the queue that keeps the class of every entry. -/
theorem TubeStep.queue {x y : TubeState} (hm : y.mode = x.mode) (hg : y.gas = x.gas) (hh : y.header = x.header)
    (hb : y.boat = x.boat) (hi : x.mode.working = false → x.queue = [] → y.queue = [])
    (hc : GasSafe x → ∀ e ∈ y.queue, ∀ l c p w, e.kind = .line l c p w → (x.gas.lines.get l).reactive = c) :
    TubeStep r x y where
  safe := fun g =>
    { classes := by rw [hg]; exact hc g
      purgeInert := by rw [hg, hh]; exact g.purgeInert
      closed := by rw [hg]; exact g.closed
      working := by rw [hg, hm]; exact g.working
      run := by rw [hg]; exact g.run
      idle := fun c => hi (by rw [hm] at c; exact c) (g.idle (by rw [hm] at c; exact c))
      boatOut := by rw [hb]; exact g.boatOut
      boatTimer := by rw [hb]; exact g.boatTimer }
  plates := fun _ => by rw [hg]
  mode := fun _ _ => by rw [hm]; exact id

theorem TubeStep.filter {x : TubeState} (f : HeldEntry → Bool) : TubeStep r x { x with queue := x.queue.filter f } :=
  .queue rfl rfl rfl rfl (fun _ h => by simp [h]) fun g e he => g.classes e (List.mem_filter.mp he).1

/-- A change of the gas alone. -/
theorem TubeStep.gas {x : TubeState} {g : Gas} (hp : ∀ l, (g.lines.get l).plate = (x.gas.lines.get l).plate)
    (hs : GasSafe x → GasSafe { x with gas := g }) : TubeStep r x { x with gas := g } := ⟨hs, hp, fun _ _ => id⟩

theorem reactive_of_plate {a b : LineRec} (h : a.plate = b.plate) : a.reactive = b.reactive := by
  have := congrArg LineRec.reactive h
  exact this

/-! ## Operations -/

theorem Step.setTube {s : State} {x : TubeState} (h : TubeStep r (s.tube k) x) : Step r k s (s.setTube k x) := ⟨by simpa using h, .inr rfl⟩

theorem Step.place (s : State) (n : Notice) : Step r k s (s.place n) := ⟨.refl _, .inr rfl⟩

theorem Step.deliver (s : State) (a : Addr) (v : Word) (u : Bool) : Step r k s (s.deliver a v u) :=
  ⟨.refl _, .inr rfl⟩

theorem Step.rescan (s : State) : Step r k s s.rescan := (Shift.rescan s).step

theorem Step.examine (s : State) (t : Tube) : Step r k s (s.examine t) := (Shift.examine s t).step

theorem Step.withdraw (s : State) (w : Claim → Bool) : Step r k s (s.withdraw State.rescan w) :=
  (Shift.withdraw (o := none) Shift.rescan s w).step

theorem Step.modRamp (s : State) (f : Ramp → Ramp) : Step r k s (s.modRamp k f) := .setTube (.quiet rfl rfl rfl rfl rfl)

theorem Step.modSummary (s : State) (f : Summary → Summary) : Step r k s (s.modSummary k f) :=
  .setTube (.quiet rfl rfl rfl rfl rfl)

theorem Step.freeSlot (s : State) : Step r k s (s.freeSlot State.rescan k) := by
  unfold State.freeSlot
  split
  · exact (Step.modRamp s _).trans (.rescan _)
  · exact .refl _

/-- A flow that the law allows. -/
theorem Step.setFlow {s : State} {l : Line} {v : Word} (u : Bool)
    (hv : GasSafe (s.tube k) → ((s.tube k).gas.lines.get l).reactive = true → v ≠ 0 →
      (s.tube k).gas.atmosphere = .process) : Step r k s (s.setFlow k l v u) :=
  (Step.setTube (x := { s.tube k with gas := { (s.tube k).gas with
      lines := (s.tube k).gas.lines.set l { (s.tube k).gas.lines.get l with flow := v, devCounter := 0 } } })
    (.gas (fun _ => plate_set _) fun g => g.setFlow (hv g))).trans (.deliver _ _ _ _)

theorem Step.lowerLine {s : State} {l : Line} {v : Word}
    (hv : GasSafe (s.tube k) → ((s.tube k).gas.lines.get l).reactive = true → v ≠ 0 →
      (s.tube k).gas.atmosphere = .process) : Step r k s (s.lowerLine State.rescan k l v) := by
  unfold State.lowerLine
  simp only
  split
  · exact (Step.setFlow true hv).trans (.rescan _)
  · exact Step.setFlow true hv

/-- Outside PROCESS every reactive line stands at 0. -/
theorem GasSafe.reactiveClosed {x : TubeState} (g : GasSafe x) (h : x.gas.atmosphere ≠ .process) :
    x.gas.reactiveClosed = true := by
  simp only [Gas.reactiveClosed, List.all_eq_true]
  intro l hl
  obtain ⟨i, rfl⟩ := Eight.mem_toList.mp hl
  cases hr : (x.gas.lines.get i).reactive with
  | false => simp
  | true =>
    by_cases hf : (x.gas.lines.get i).flow = 0
    · simp [hf]
    · exact absurd (g.closed i hr hf) h

/-- A run started outside PROCESS. -/
theorem Step.startRun {s : State} (q : RunStart) (h : (s.tube k).gas.atmosphere ≠ .process) :
    Step r k s (s.startRun State.rescan k q) := by
  refine (Step.setTube (x := { s.tube k with gas := (s.tube k).gas.beginRun q (s.tube k).header.purgeLimit })
    (.gas (fun _ => rfl) fun g => beginRun_safe (g.reactiveClosed h) g)).trans ?_
  exact (Shift.startRun (P := True) Shift.rescan s k q).step

theorem Step.clearingTest (s : State) (l : Line) (v : Word) : Step r k s (s.clearingTest State.rescan k l v) :=
  (Shift.clearingTest Shift.rescan s k l v).step

/-! ## A tube whose queue an abort or an adoption has emptied -/

/-- The law of a tube that is ABORTING or ABORTED, but for its queue and the rule that it is not in PROCESS. -/
structure Halted (x : TubeState) : Prop where
  mode : x.mode.working = false
  purgeInert : (x.gas.lines.get x.header.purgeLine).reactive = false
  closed : ∀ l, (x.gas.lines.get l).reactive = true → (x.gas.lines.get l).flow ≠ 0 → x.gas.atmosphere = .process
  run : x.gas.run ≠ none → x.gas.atmosphere = .purging ∨ x.gas.atmosphere = .clearing
  boatOut : x.boat.state = .outPos → x.boat.delivered = 0
  boatTimer : x.boat.motionTimer ≠ none → x.boat.state = .moving

theorem Halted.safe {x : TubeState} (h : Halted x) (hq : x.queue = []) (ha : x.gas.atmosphere ≠ .process) :
    GasSafe x where
  classes := by rw [hq]; simp
  purgeInert := h.purgeInert
  closed := h.closed
  working := fun c => absurd c ha
  run := h.run
  idle := fun _ => hq
  boatOut := h.boatOut
  boatTimer := h.boatTimer

theorem GasSafe.halted {x : TubeState} (g : GasSafe x) (h : x.mode.working = false) : Halted x :=
  ⟨h, g.purgeInert, g.closed, g.run, g.boatOut, g.boatTimer⟩

theorem not_run_of_idle {m : Mode} (h : m.working = false) : m ≠ .run := fun c => by rw [c] at h; cases h

/-- What an operation does to a halted tube. -/
structure HaltStep (k : Tube) (s t : State) : Prop where
  port : t.port = s.port
  halted : Halted (s.tube k) → Halted (t.tube k)
  plates : ∀ l, ((t.tube k).gas.lines.get l).plate = ((s.tube k).gas.lines.get l).plate
  queue : (s.tube k).queue = [] → (t.tube k).queue = []
  noRun : Halted (s.tube k) → (s.tube k).gas.run = none → (t.tube k).gas.run = none
  flows : Halted (s.tube k) → ∀ l, ((s.tube k).gas.lines.get l).reactive = true →
    ((s.tube k).gas.lines.get l).flow = 0 → ((t.tube k).gas.lines.get l).flow = 0
  atmosphere : Halted (s.tube k) → (t.tube k).gas.atmosphere = (s.tube k).gas.atmosphere

theorem HaltStep.refl (s : State) : HaltStep k s s :=
  ⟨rfl, id, fun _ => rfl, id, fun _ => id, fun _ _ _ h => h, fun _ => rfl⟩

theorem HaltStep.trans {s t u : State} (h : HaltStep k s t) (g : HaltStep k t u) : HaltStep k s u where
  port := g.port.trans h.port
  halted := fun a => g.halted (h.halted a)
  plates := fun l => (g.plates l).trans (h.plates l)
  queue := fun a => g.queue (h.queue a)
  noRun := fun a e => g.noRun (h.halted a) (h.noRun a e)
  flows := fun a l hr hf =>
    g.flows (h.halted a) l (by rw [reactive_of_plate (h.plates l)]; exact hr) (h.flows a l hr hf)
  atmosphere := fun a => (g.atmosphere (h.halted a)).trans (h.atmosphere a)

theorem Shift.halt {s t : State} (h : Shift none True s t) : HaltStep k s t := by
  have hk : TubeShift false True (s.tube k) (t.tube k) := by simpa using h.tubes k
  have hg : Halted (s.tube k) → GasIdle (s.tube k) (t.tube k) := fun a => hk.gasIdle rfl (.inl (not_run_of_idle a.mode))
  have hf : Halted (s.tube k) → ∀ l, ((s.tube k).gas.lines.get l).reactive = true →
      ((t.tube k).gas.lines.get l).flow = ((s.tube k).gas.lines.get l).flow := fun a l hr => by
    rw [(hg a).lines l fun c => by rw [c, a.purgeInert] at hr; cases hr]
  refine ⟨h.port, fun a => ?_, hk.plates, hk.emptyQueue, fun a e => ?_, fun a l hr e => (hf a l hr).trans e,
    fun a => (hg a).atmosphere⟩
  rotate_left
  · have := (hg a).run
    rw [e] at this
    simpa using this
  have hs := hk.stopped (not_run_of_idle a.mode)
  refine ⟨by rw [hk.mode]; exact a.mode, ?_, fun l hr hz => ?_, fun hr => ?_,
    by rw [hs.boat]; exact a.boatOut, by rw [hs.boat]; exact a.boatTimer⟩
  · rw [hk.header, reactive_of_plate (hk.plates _)]; exact a.purgeInert
  · rw [reactive_of_plate (hk.plates l)] at hr
    rw [(hg a).atmosphere]
    exact a.closed l hr (by rw [← hf a l hr]; exact hz)
  · rw [(hg a).atmosphere]
    refine a.run fun c => hr ?_
    have := (hg a).run
    rw [c] at this
    simpa using this

theorem HaltStep.rescan (s : State) : HaltStep k s s.rescan := (Shift.rescan s).halt

/-- A change that leaves mode, queue, gas, header and boat. -/
theorem HaltStep.quiet {s : State} {x : TubeState} (hm : x.mode.working = (s.tube k).mode.working)
    (hq : (s.tube k).queue = [] → x.queue = []) (hg : x.gas = (s.tube k).gas) (hh : x.header = (s.tube k).header)
    (hb : x.boat = (s.tube k).boat) : HaltStep k s (s.setTube k x) where
  port := rfl
  halted := fun a => by
    simp only [State.tube_setTube, if_true]
    exact ⟨by rw [hm]; exact a.mode, by rw [hg, hh]; exact a.purgeInert,
      by rw [hg]; exact a.closed, by rw [hg]; exact a.run, by rw [hb]; exact a.boatOut, by rw [hb]; exact a.boatTimer⟩
  plates := fun l => by simp [hg]
  queue := by simpa using hq
  noRun := fun _ => by simp [hg]
  flows := fun _ l _ h => by simpa [hg] using h
  atmosphere := fun _ => by simp [hg]

theorem HaltStep.place (s : State) (n : Notice) : HaltStep k s (s.place n) :=
  ⟨rfl, id, fun _ => rfl, id, fun _ => id, fun _ _ _ h => h, fun _ => rfl⟩

theorem HaltStep.modRamp (s : State) (f : Ramp → Ramp) : HaltStep k s (s.modRamp k f) := .quiet rfl id rfl rfl rfl

theorem HaltStep.freeSlot (s : State) : HaltStep k s (s.freeSlot State.rescan k) := by
  unfold State.freeSlot
  split
  · exact (HaltStep.modRamp s _).trans (.rescan _)
  · exact .refl _

theorem HaltStep.deliver (s : State) (a : Addr) (v : Word) (u : Bool) : HaltStep k s (s.deliver a v u) :=
  ⟨rfl, id, fun _ => rfl, id, fun _ => id, fun _ _ _ h => h, fun _ => rfl⟩

/-- A line set to 0, or an inert line set to any flow. -/
theorem HaltStep.setLine (s : State) {l : Line} {v : Word}
    (hv : Halted (s.tube k) → ((s.tube k).gas.lines.get l).reactive = true → v = 0) :
    HaltStep k s (s.modGas k fun g => { g with lines := g.lines.set l { g.lines.get l with flow := v, devCounter := 0 } }) := by
  generalize ht : (s.modGas k fun g =>
    { g with lines := g.lines.set l { g.lines.get l with flow := v, devCounter := 0 } }) = t
  have e : t.tube k = { s.tube k with gas := { (s.tube k).gas with
      lines := (s.tube k).gas.lines.set l { (s.tube k).gas.lines.get l with flow := v, devCounter := 0 } } } := by
    rw [← ht]; simp
  have hp : ∀ j, ((t.tube k).gas.lines.get j).plate = ((s.tube k).gas.lines.get j).plate := fun j => by
    rw [e]; exact plate_set _
  have hf : Halted (s.tube k) → ∀ j, ((s.tube k).gas.lines.get j).reactive = true →
      ((s.tube k).gas.lines.get j).flow = 0 ∨ j = l → ((t.tube k).gas.lines.get j).flow = 0 :=
    fun a j hr h => by
      rw [e]
      simp only [Eight.get_set]
      split
      · next c => exact hv a (c ▸ hr)
      · next c => exact h.resolve_right c
  refine ⟨by rw [← ht]; rfl, fun a => ?_, hp, by rw [e]; exact id, fun _ => by rw [e]; exact id, fun a j hr h => hf a j hr (.inl h),
    fun _ => by rw [e]⟩
  refine ⟨by rw [e]; exact a.mode, ?_, fun j hr hz => ?_, by rw [e]; exact a.run,
    by rw [e]; exact a.boatOut, by rw [e]; exact a.boatTimer⟩
  · rw [reactive_of_plate (hp _)]; rw [e]; exact a.purgeInert
  · rw [reactive_of_plate (hp j)] at hr
    rw [e]
    exact a.closed j hr fun c => hz (hf a j hr (.inl c))

theorem HaltStep.setFlow (s : State) {l : Line} {v : Word} (u : Bool)
    (hv : Halted (s.tube k) → ((s.tube k).gas.lines.get l).reactive = true → v = 0) :
    HaltStep k s (s.setFlow k l v u) := (HaltStep.setLine s hv).trans (.deliver _ _ _ _)

theorem HaltStep.lowerLine (s : State) {l : Line} {v : Word}
    (hv : Halted (s.tube k) → ((s.tube k).gas.lines.get l).reactive = true → v = 0) :
    HaltStep k s (s.lowerLine State.rescan k l v) := by
  unfold State.lowerLine
  simp only
  split
  · exact (HaltStep.setFlow s true hv).trans (.rescan _)
  · exact .setFlow s true hv

/-- R105: every reactive line of the list is closed. -/
theorem closeReactive_halts : ∀ (ls : List Line) (s : State), HaltStep k s (s.closeReactive k ls)
    ∧ (Halted (s.tube k) → ∀ l ∈ ls, ((s.tube k).gas.lines.get l).reactive = true →
        (((s.closeReactive k ls).tube k).gas.lines.get l).flow = 0)
  | [], s => ⟨.refl s, by simp⟩
  | l :: ls, s => by
    unfold State.closeReactive
    simp only
    generalize hu : (if ((s.lineRec k l).reactive && (s.lineRec k l).flow != 0) = true then
      s.lowerLine State.rescan k l 0 else s) = u
    have h1 : HaltStep k s u := by
      rw [← hu]; split
      · exact .lowerLine s fun _ _ => rfl
      · exact .refl s
    have h2 : Halted (s.tube k) → ((s.tube k).gas.lines.get l).reactive = true →
        ((u.tube k).gas.lines.get l).flow = 0 := fun a hr => by
      rw [← hu]; split
      · unfold State.lowerLine
        simp only
        have hs : HaltStep k s (s.setFlow k l 0 true) := .setFlow s true fun _ _ => rfl
        have hz : (((s.setFlow k l 0 true).tube k).gas.lines.get l).flow = 0 := by simp [State.setFlow, Eight.get_set]
        split
        · exact (HaltStep.rescan _).flows (hs.halted a) l (by rw [reactive_of_plate (hs.plates l)]; exact hr) hz
        · exact hz
      · next c =>
        have : (s.lineRec k l).reactive = true := hr
        show (s.lineRec k l).flow = 0
        simpa [this] using c
    obtain ⟨g1, g2⟩ := closeReactive_halts ls u
    refine ⟨h1.trans g1, fun a m hm hr => ?_⟩
    have hru : ((u.tube k).gas.lines.get m).reactive = true := by rw [reactive_of_plate (h1.plates m)]; exact hr
    rcases List.mem_cons.mp hm with rfl | hm
    · exact g1.flows (h1.halted a) m hru (h2 a hr)
    · exact g2 (h1.halted a) m hm hru

/-- R98: the start of a run, once its record stands. -/
theorem HaltStep.startRun (s : State) (q : RunStart) :
    HaltStep k (s.modGas k fun g => g.beginRun q (s.tube k).header.purgeLimit) (s.startRun State.rescan k q) := by
  unfold State.startRun
  simp only
  generalize hs1 : (s.modGas k fun g => g.beginRun q (s.tube k).header.purgeLimit) = s1
  have e : s1.tube k = { s.tube k with gas := (s.tube k).gas.beginRun q (s.tube k).header.purgeLimit } := by
    rw [← hs1]; simp
  have hset : ∀ u, HaltStep k s1 (s1.setFlow k (s.tube k).header.purgeLine q.flow u) := fun u =>
    .setFlow s1 u fun a hr => by
      have := a.purgeInert
      rw [e] at this hr
      rw [this] at hr; cases hr
  have hflow : ∀ (u : State) (n : Nat), HaltStep k u (u.modGas k fun g => g.flowing n) := fun u n => by
    have eu : (u.modGas k fun g => g.flowing n).tube k = { u.tube k with gas := (u.tube k).gas.flowing n } := by simp
    refine ⟨rfl, fun a => ?_, fun l => by rw [eu]; rfl, by rw [eu]; exact id, fun _ c => by rw [eu]; simp [Gas.flowing, c],
      fun _ l _ hf => by rw [eu]; exact hf, fun _ => by rw [eu]; rfl⟩
    rw [eu]
    refine ⟨a.mode, a.purgeInert, a.closed, fun c => a.run fun hn => c ?_, a.boatOut, a.boatTimer⟩
    simp [Gas.flowing, hn]
  split
  · refine HaltStep.trans ?_ (hflow _ _)
    split
    · exact (hset _).trans (.rescan _)
    · exact hset _
  · exact (Shift.joinClaim none s1 k .exhaust _ _ _).halt.trans (.rescan _)

theorem plates_startRun (s : State) (q : RunStart) (l : Line) :
    (((s.startRun State.rescan k q).tube k).gas.lines.get l).plate = ((s.tube k).gas.lines.get l).plate := by
  rw [(HaltStep.startRun s q).plates l]
  simp [Gas.beginRun]

/-- R98: a run started in a halted tube with an empty queue and every reactive line at 0 leaves a safe tube. -/
theorem startRun_safe {s : State} (q : RunStart) (h : Halted (s.tube k)) (hq : (s.tube k).queue = [])
    (hc : (s.tube k).gas.reactiveClosed = true) :
    GasSafe ((s.startRun State.rescan k q).tube k)
      ∧ ((s.startRun State.rescan k q).tube k).mode.working = false := by
  have hzero : ∀ l, ((s.tube k).gas.lines.get l).reactive = true → ((s.tube k).gas.lines.get l).flow = 0 := fun l hl => by
    have := List.all_eq_true.mp hc _ (Eight.mem_toList.mpr ⟨l, rfl⟩)
    simpa [hl] using this
  have g := HaltStep.startRun (k := k) s q
  generalize hs1 : (s.modGas k fun g => g.beginRun q (s.tube k).header.purgeLimit) = s1 at g
  have e : s1.tube k = { s.tube k with gas := (s.tube k).gas.beginRun q (s.tube k).header.purgeLimit } := by
    rw [← hs1]; simp
  have hu : Halted (s1.tube k) := by
    rw [e]
    refine ⟨h.mode, h.purgeInert, fun l hr hz => absurd (hzero l hr) hz, fun _ => ?_, h.boatOut, h.boatTimer⟩
    cases hp : q.purpose <;> simp [Gas.beginRun, Purpose.atmosphere, hp]
  refine ⟨(g.halted hu).safe (g.queue (by rw [e]; exact hq)) ?_, (g.halted hu).mode⟩
  rw [g.atmosphere hu, e]
  cases h : q.purpose <;> simp [Gas.beginRun, Purpose.atmosphere, h]

end Sys2Proof.Machine
end

