-- ==== Sys2Proof/Laws/ReactiveSteps.lean ====
section
/-! SUPPORT. The reactive-gas law through each event of one tube: acceptance, tube commands, expiries, arrivals, aborts. -/

namespace Sys2Proof.Machine

variable {r : Prop} {k : Tube}

theorem Step.foldl {α : Type} {f : State → α → State} (h : ∀ s a, Step r k s (f s a)) :
    ∀ (l : List α) (s : State), Step r k s (l.foldl f s)
  | [], s => .refl s
  | a :: l, s => (h s a).trans (Step.foldl h l (f s a))

theorem Step.modTube {s : State} {f : TubeState → TubeState} (h : TubeStep r (s.tube k) (f (s.tube k))) :
    Step r k s (s.modTube k f) := .setTube h

theorem Step.modGas {s : State} {f : Gas → Gas}
    (h : TubeStep r (s.tube k) { s.tube k with gas := f (s.tube k).gas }) : Step r k s (s.modGas k f) := .setTube h

theorem Step.modBoat {s : State} {f : Boat → Boat}
    (h : TubeStep r (s.tube k) { s.tube k with boat := f (s.tube k).boat }) : Step r k s (s.modBoat k f) := .setTube h

theorem Step.answer (s : State) (a : Answer) : Step r k s (s.answer a) := ⟨.refl _, .inl rfl⟩

theorem Step.refuseTube (s : State) (a : Access) (c : Six) (n : Six) (e : RefuseReason) :
    Step r k s (s.refuseTube a ⟨k, c, n⟩ e) :=
  ((Step.modSummary s _).trans (.place _ _)).trans (.answer _ _)

/-! ## The queue -/

theorem Step.supersede (s : State) (w : HeldEntry → Bool) (y : Way) (n : Word) : Step r k s (s.supersede k w y n) := by
  unfold State.supersede
  simp only
  have h1 : Step r k s (((s.tube k).queue.filter w).foldl (fun acc e => acc.place (supersededNotice k e y n))
      (s.modTube k fun x => { x with queue := x.queue.filter (fun e => !w e) })) :=
    (Step.setTube (.filter _)).trans (.foldl (fun s _ => .place s _) _ _)
  split
  · exact h1.trans (.withdraw _ _)
  · exact h1

theorem foldl_place_tube {α : Type} (f : State → α → Notice) (j : Tube) : ∀ (l : List α) (s : State),
    (l.foldl (fun acc e => acc.place (f acc e)) s).tube j = s.tube j
  | [], _ => rfl
  | a :: l, s => foldl_place_tube f j l (s.place (f s a))

/-- What a removal leaves of the tube: its mode, its header and the flow of a line with no entry left. -/
theorem supersede_tube (s : State) (w : HeldEntry → Bool) (y : Way) (n : Word) :
    TubeShift false True { s.tube k with queue := (s.tube k).queue.filter (fun e => !w e) }
      ((s.supersede k w y n).tube k) := by
  unfold State.supersede
  simp only
  generalize hu : ((s.tube k).queue.filter w).foldl (fun acc e => acc.place (supersededNotice k e y n))
      (s.modTube k fun x => { x with queue := x.queue.filter (fun e => !w e) }) = u
  have e : u.tube k = { s.tube k with queue := (s.tube k).queue.filter (fun e => !w e) } := by
    rw [← hu, foldl_place_tube (fun _ e => supersededNotice k e y n)]; simp
  rw [← e]
  split
  · simpa using (Shift.withdraw (P := True) (o := none) Shift.rescan u (Claim.ofHead k)).tubes k
  · exact .refl _ _

theorem Step.bypass (s : State) (c n : Six) (l : Line) (j v : Word)
    (hv : v.toNat ≤ ((s.tube k).gas.lines.get l).flow.toNat) : Step r k s (s.bypass ⟨k, c, n⟩ l j v) := by
  unfold State.bypass
  simp only
  have h1 : Step r k s (s.supersede k (HeldEntry.forLine l) .bypass j) := .supersede s _ _ _
  have h2 := supersede_tube (k := k) s (HeldEntry.forLine l) .bypass j
  generalize s.supersede k (HeldEntry.forLine l) .bypass j = s1 at h1 h2
  refine Step.trans ?_ (.examine _ _)
  refine Step.trans ?_ (.clearingTest _ _ _)
  refine Step.trans ?_ (.setTube (.quiet rfl rfl rfl rfl rfl))
  refine Step.trans ?_ (.place _ _)
  refine h1.trans (.lowerLine fun g hr hz => ?_)
  refine g.closed l hr fun c => hz ?_
  have hne : l ≠ (s.tube k).header.purgeLine := fun e => by
    have := g.purgeInert
    rw [h2.header] at this
    simp only at this
    rw [← e, hr] at this
    cases this
  have hf := h2.flows rfl l hne fun e he => by
    simpa using (List.mem_filter.mp he).2
  simp only at hf
  rw [hf] at c
  rw [c] at hv
  apply BitVec.eq_of_toNat_eq
  simpa using hv

/-- A new entry whose class is its line's may be queued in a working tube. -/
theorem TubeStep.append {x : TubeState} {q : List HeldEntry} (hm : x.mode.working = true)
    (hc : GasSafe x → ∀ e ∈ q, e ∈ x.queue ∨ ∀ l c p w, e.kind = .line l c p w → (x.gas.lines.get l).reactive = c) :
    TubeStep r x { x with queue := q } :=
  .queue rfl rfl rfl rfl (fun c => by rw [hm] at c; cases c) fun g e he l c p w hk => by
    rcases hc g e he with h | h
    · exact g.classes e h l c p w hk
    · exact h l c p w hk

theorem Step.holdHead (s : State) (n : Word) : Step r k s (s.holdHead k n) := by
  unfold State.holdHead
  split
  · exact .refl s
  · next e q hq =>
    split
    · refine Step.trans (Step.setTube (x := { s.tube k with
        queue := e.hold (s.tube k).header.holdLimit :: (s.tube k).queue.tail }) ?_) (.place _ _)
      refine .queue rfl rfl rfl rfl (fun _ h => by rw [h] at hq; cases hq) fun g d hd l c p w hk => ?_
      rw [hq] at hd
      rcases List.mem_cons.mp hd with rfl | hd
      · exact g.classes e (by simp [hq]) l c p w hk
      · exact g.classes d (by simp [hq, List.mem_of_mem_tail hd]) l c p w hk
    · exact .refl s

theorem Step.holdFirst (s : State) (e : HeldEntry) (hm : (s.tube k).mode.working = true)
    (hc : GasSafe (s.tube k) → ∀ l c p w, e.kind = .line l c p w → ((s.tube k).gas.lines.get l).reactive = c) :
    Step r k s (s.holdFirst k e) := by
  unfold State.holdFirst
  refine Step.trans ?_ (Shift.announce (P := True) none _).step
  refine Step.trans ?_ (.holdHead _ _)
  refine Step.trans (Step.setTube (.append hm fun g d hd => .inr ?_)) (Shift.examineWith Shift.scan _ k).step
  simp only [List.mem_singleton] at hd
  subst hd
  exact hc g

theorem Step.holdBehind (s : State) (e : HeldEntry) (hm : (s.tube k).mode.working = true)
    (hc : GasSafe (s.tube k) → ∀ l c p w, e.kind = .line l c p w → ((s.tube k).gas.lines.get l).reactive = c) :
    Step r k s (s.holdBehind k e) := by
  unfold State.holdBehind
  refine Step.trans (Step.setTube (.append hm fun g d hd => ?_)) (.place _ _)
  rcases List.mem_append.mp hd with h | h
  · exact .inl h
  · simp only [List.mem_singleton] at h
    subst h
    exact .inr (hc g)

/-- The class a descriptor gives a line is the one its record holds. -/
def ClassAgrees (s : State) (t : Tube) (d : DescWords) : Prop :=
  ∀ l, d.mark = .line l → (s.lineRec t l).reactive = d.reactive

theorem newEntry_class {s : State} {c n : Six} {d : DescWords} {j v : Word} {t : Long} (h : ClassAgrees s k d)
    {l : Line} {b p : Bool} {w : Nat} (hk : (newEntry ⟨k, c, n⟩ d j v t).kind = .line l b p w) :
    (s.lineRec k l).reactive = b := by
  simp only [newEntry, DescWords.entryKind] at hk
  split at hk
  · cases hk
  · next m hm => cases hk; exact h _ hm
  · cases hk

theorem Step.enqueue (s : State) (c n : Six) (d : DescWords) (j v : Word) (hm : (s.tube k).mode.working = true)
    (hd : ClassAgrees s k d) : Step r k s (s.enqueue ⟨k, c, n⟩ d j v) := by
  unfold State.enqueue
  simp only
  have h1 : Step r k s (s.supersedeChannel ⟨k, c, n⟩ j)
      ∧ ((s.supersedeChannel ⟨k, c, n⟩ j).tube k).mode = (s.tube k).mode := by
    unfold State.supersedeChannel
    simp only
    have h2 := supersede_tube (k := k) s (fun e => e.channel == c) .queued j
    split
    · refine ⟨(Step.supersede s _ _ _).trans (.examine _ _), ?_⟩
      rw [((Shift.examine _ k).tubes k).mode, h2.mode]
    · exact ⟨.supersede s _ _ _, h2.mode⟩
  generalize s.supersedeChannel ⟨k, c, n⟩ j = s1 at h1
  have hm1 : (s1.tube k).mode.working = true := by rw [h1.2]; exact hm
  have hc : ∀ l b p w, (newEntry ⟨k, c, n⟩ d j v s.clock).kind = .line l b p w →
      ((s1.tube k).gas.lines.get l).reactive = b := fun l b p w hk => by
    rw [reactive_of_plate (h1.1.tube.plates l)]
    exact newEntry_class hd hk
  refine h1.1.trans ?_
  split
  · exact (Step.holdFirst s1 _ hm1 fun _ => hc).trans (.answer _ _)
  · split
    · exact (Step.holdBehind s1 _ hm1 fun _ => hc).trans (.answer _ _)
    · exact ((Step.modSummary s1 _).trans (.place _ _)).trans (.answer _ _)

theorem Step.takeTicket (s : State) : Step r k s (s.takeTicket k) := .setTube (.quiet rfl rfl rfl rfl rfl)

theorem Step.accept (s : State) (a : Access) (c n : Six) (d : DescWords) (hd : ClassAgrees s k d) :
    Step r k s (s.accept a ⟨k, c, n⟩ d) := by
  unfold State.accept
  simp only
  split
  · exact .refuseTube s a c n _
  · split
    · exact .refuseTube s a c n _
    · split
      · next l hl =>
        refine Step.trans ?_ (.answer _ _)
        refine (Step.takeTicket s).trans (.bypass _ _ _ _ _ _ ?_)
        unfold bypassLine at hl
        split at hl
        · cases hl
        · split at hl
          · next h =>
            cases hl
            simpa [State.takeTicket] using h
          · cases hl
      · split
        · exact .refuseTube s a c n _
        · next h =>
          refine (Step.takeTicket s).trans (.enqueue _ _ _ _ _ _ ?_ fun l hl => ?_)
          · unfold State.queuedRefusal at h
            split at h
            · cases h
            · next hw => simpa [State.takeTicket] using hw
          · have := hd l hl
            simpa [State.takeTicket, State.lineRec] using this

/-! ## The MANUAL path -/

theorem Step.setZone (s : State) (z : Zone) (v : Word) : Step r k s (s.setZone k z v) :=
  (Step.modRamp s _).trans (.deliver _ _ _ _)

/-- A boat come to rest at a position. -/
theorem TubeStep.rest {x : TubeState} {b : Boat} {n : Nat} (hs : b.state = positionState n b.delivered)
    (ht : b.motionTimer = none) : TubeStep r x { x with boat := b } :=
  .boat rfl rfl rfl rfl
    (fun _ h => by
      simp only [hs, positionState] at h
      split at h
      · assumption
      · split at h <;> cases h)
    fun _ h => absurd ht h

theorem Step.manual (s : State) (a : Access) (c n : Six) (d : DescWords)
    (hd : ∀ l, d.mark = .line l → (s.lineRec k l).reactive = false) : Step r k s (s.manual a ⟨k, c, n⟩ d) := by
  unfold State.manual
  simp only
  split
  · exact .refuseTube s a c n _
  · split
    · exact .refuseTube s a c n _
    · split
      · refine Step.trans ?_ (.answer _ _)
        unfold State.manualZone
        exact ((Step.modRamp s _).trans (.setZone _ _ _)).trans (.modRamp _ _)
      · next l hl =>
        have hr : ∀ {q : Prop}, ((s.tube k).gas.lines.get l).reactive = true → q := fun h => by
          have := hd l hl
          simp only [State.lineRec] at this
          rw [this] at h; cases h
        unfold State.manualLine
        simp only
        split
        · exact (Step.lowerLine fun _ => hr).trans (.answer _ _)
        · split
          · refine Step.trans ?_ (.answer _ _)
            unfold State.raiseLine
            simp only
            split
            · exact (Step.setFlow _ fun _ => hr).trans (.rescan _)
            · exact Step.setFlow _ fun _ => hr
          · exact .refuseTube s a c n _
      · refine Step.trans ?_ (.answer _ _)
        unfold State.manualBoat
        exact (Step.setTube (.rest (n := (s.tube k).header.inThreshold) rfl rfl)).trans (.deliver _ _ _ _)
      · exact .answer _ _

/-! ## Tube commands and reads -/

theorem Step.placeFlushed (o : FlushOrigin) : ∀ (n : Nat) (q : List HeldEntry) (s : State),
    Step r k s (placeFlushed k o n q s)
  | _, [], s => .refl s
  | n, _ :: q, s => (Step.place s _).trans (Step.placeFlushed o (n + 1) q _)

theorem Step.flush (s : State) (o : FlushOrigin) : Step r k s (s.flush k o) := by
  unfold State.flush
  simp only
  refine Step.trans ?_ ((Step.modTube (f := fun x => { x with queue := [] }) ?_).trans (.placeFlushed o 0 _ _))
  · split
    · exact .refl _
    · split
      · exact .withdraw _ _
      · exact .refl _
  · exact .queue rfl rfl rfl rfl (fun _ _ => rfl) fun _ e he => by cases he

/-- What the closes of a VENT keep, from the state VENT is taken in. -/
def Venting (x : TubeState) : Prop := GasSafe x ∧ x.gas.atmosphere = .inert ∧ x.boat.delivered = 0 ∧ x.boat.state ≠ .inPos

theorem Venting.rescan {s : State} (h : Venting (s.tube k)) : Venting (s.rescan.tube k) := by
  have hs : TubeShift false True (s.tube k) (s.rescan.tube k) := by simpa using (Shift.rescan s).tubes k
  have v := hs.vent (fun _ => trivial) h.1 h.2.1 h.2.2.1 h.2.2.2
  exact ⟨hs.safe (fun _ => trivial) h.1, v.1, hs.boatDelivered.trans h.2.2.1, v.2⟩

theorem Venting.lowerLine {s : State} {l : Line} (h : Venting (s.tube k)) :
    Venting ((s.lowerLine State.rescan k l 0).tube k) := by
  have h1 : Venting ((s.setFlow k l 0 true).tube k) := by
    have e := (Step.setFlow (r := True) (k := k) (s := s) (l := l) (v := 0) true fun _ _ h => absurd rfl h).tube.safe h.1
    refine ⟨e, ?_⟩
    simpa [State.setFlow] using h.2
  unfold State.lowerLine
  simp only
  split
  · exact h1.rescan
  · exact h1

theorem port_lowerLine (s : State) (t : Tube) (l : Line) (v : Word) :
    (s.lowerLine State.rescan t l v).port = s.port := by
  unfold State.lowerLine
  simp only
  split
  · exact (Shift.rescan _).port
  · rfl

theorem closeAll_vents : ∀ (ls : List Line) (s : State),
    (Venting (s.tube k) → Venting ((s.closeAll k ls).tube k))
      ∧ (∀ l, (((s.closeAll k ls).tube k).gas.lines.get l).plate = ((s.tube k).gas.lines.get l).plate)
      ∧ (s.closeAll k ls).port = s.port
  | [], _ => ⟨id, fun _ => rfl, rfl⟩
  | l :: ls, s => by
    unfold State.closeAll
    simp only
    obtain ⟨h1, h2, h3⟩ := closeAll_vents ls (if ((s.lineRec k l).bound && (s.lineRec k l).flow != 0) = true then
      s.lowerLine State.rescan k l 0 else s)
    refine ⟨fun h => h1 ?_, fun m => (h2 m).trans ?_, h3.trans ?_⟩
    · split
      · exact h.lowerLine
      · exact h
    · split
      · exact (Step.lowerLine (r := True) fun _ _ h => absurd rfl h).tube.plates m
      · rfl
    · split
      · exact port_lowerLine _ _ _ _
      · rfl

theorem Step.takeVent (s : State) (ha : ventAllowed (s.tube k) = true) : Step r k s (s.takeVent k) := by
  simp only [ventAllowed, Bool.and_eq_true, beq_iff_eq] at ha
  obtain ⟨h1, h2, h3⟩ := closeAll_vents (k := k) Ix8.all s
  unfold State.takeVent
  have hmap : ∀ (v : Eight LineRec) (f : LineRec → LineRec) l, (v.map f).get l = f (v.get l) := fun v f l => by
    cases l <;> rfl
  refine ⟨⟨?_, fun l => ?_, fun _ _ _ => ha.1.1⟩, .inr h3⟩
  · intro g
    obtain ⟨v, w, _, _⟩ := h1 ⟨g, ha.1.2, g.boatOut ha.2, by rw [ha.2]; simp⟩
    have hz : ∀ l, (((s.closeAll k Ix8.all).tube k).gas.lines.get l).reactive = true →
        (((s.closeAll k Ix8.all).tube k).gas.lines.get l).flow = 0 := fun l hr => by
      by_cases e : (((s.closeAll k Ix8.all).tube k).gas.lines.get l).flow = 0
      · exact e
      · have := v.closed l hr e
        rw [w] at this; cases this
    simp only [State.modGas, State.modTube, State.tube_setTube, if_true]
    refine { v with classes := fun e he l c p n hk => ?_, purgeInert := ?_, closed := fun l hr hf => ?_, working := fun c => ?_, run := fun c => ?_ }
    · simp only [Gas.vented, hmap]
      exact v.classes e he l c p n hk
    · simp only [Gas.vented, hmap]
      exact v.purgeInert
    · simp only [Gas.vented, hmap] at hr hf
      exact absurd (hz l hr) hf
    · simp [Gas.vented] at c
    · have := v.run c
      rw [w] at this
      rcases this with e | e <;> cases e
  · rw [← h2 l]
    simp only [State.modGas, State.modTube, State.tube_setTube, if_true, Gas.vented, hmap]
    rfl

theorem TubeStep.pause {x : TubeState} (hm : x.mode = .run) : TubeStep r x x.pause where
  safe := fun g =>
    { g with
      working := fun _ => rfl
      idle := fun c => by cases c
      boatOut := by
        simp only [TubeState.pause, Boat.pause]
        split
        · exact fun c => by cases c
        · exact g.boatOut
      boatTimer := by
        simp only [TubeState.pause, Boat.pause]
        split
        · exact fun c => absurd rfl c
        · exact g.boatTimer }
  plates := fun _ => rfl
  mode := fun _ _ _ => by rw [hm]; rfl

theorem TubeStep.unpause {x : TubeState} (hm : x.mode = .hold) : TubeStep r x x.unpause where
  safe := fun g =>
    { g with
      working := fun _ => rfl
      idle := fun c => by cases c
      boatOut := by
        simp only [TubeState.unpause, Boat.unpause]
        split
        · exact fun c => by cases c
        · exact g.boatOut
      boatTimer := by
        simp only [TubeState.unpause, Boat.unpause]
        split
        · exact fun _ => rfl
        · exact g.boatTimer }
  plates := fun _ => rfl
  mode := fun _ _ _ => by rw [hm]; rfl

theorem positionState_out {n : Nat} {p : Word} (h : positionState n p = .outPos) : p = 0 := by
  simp only [positionState] at h
  split at h
  · assumption
  · split at h <;> cases h

theorem TubeStep.recover {x : TubeState} (hr : r) : TubeStep r x x.recover where
  safe := fun g =>
    { g with
      working := fun _ => rfl
      idle := fun c => by cases c
      boatOut := by
        simp only [TubeState.recover, Boat.recover]
        split
        · exact positionState_out
        · exact g.boatOut
      boatTimer := by
        simp only [TubeState.recover, Boat.recover]
        split
        · exact fun c => absurd rfl c
        · exact g.boatTimer }
  plates := fun _ => rfl
  mode := fun _ n => absurd hr n

theorem Step.requestAbort (s : State) (q : AbortRequest) : Step r k s (s.requestAbort q) :=
  ⟨.refl _, .inr rfl⟩

theorem Step.requestTrip (s : State) (q : TripRequest) : Step r k s (s.requestTrip q) :=
  ⟨.refl _, .inr rfl⟩

theorem Step.tubeCommand (s : State) (a : Access) (c n : Six) (hr : r) : Step r k s (s.tubeCommand a ⟨k, c, n⟩) := by
  unfold State.tubeCommand
  split
  · unfold State.commandPurge
    split
    · next h =>
      refine Step.trans (.startRun _ fun e => ?_) (.answer _ _)
      simp [purgeAllowed, e] at h
    · exact .refuseTube s a c n _
  · unfold State.commandHold
    split
    · next h => exact (Step.setTube (.pause h)).trans (.answer _ _)
    · exact .answer _ _
    · exact .refuseTube s a c n _
    · exact .refuseTube s a c n _
  · unfold State.commandResume
    split
    · exact .answer _ _
    · next h => exact (Step.setTube (.unpause h)).trans (.answer _ _)
    · exact .refuseTube s a c n _
    · split
      · exact .refuseTube s a c n _
      · exact (Step.setTube (.recover hr)).trans (.answer _ _)
  · exact (Step.requestAbort s _).trans (.answer _ _)
  · unfold State.commandVent
    split
    · next h => exact (Step.takeVent s h).trans (.answer _ _)
    · exact .refuseTube s a c n _
  · unfold State.commandFlush
    split
    · exact (Step.flush s _).trans (.answer _ _)
    · exact .refuseTube s a c n _
  · exact .refuseTube s a c n _

theorem Step.tubeRead (s : State) (c n : Six) : Step r k s (s.tubeRead ⟨k, c, n⟩) := by
  refine (Step.setTube ?_).trans (.answer _ _)
  unfold TubeState.readWord
  split
  · exact .refl _
  · exact .refl _
  · exact .refl _
  · exact .quiet rfl rfl rfl rfl rfl
  · unfold TubeState.readLow; split
    · exact .refl _
    · exact .quiet rfl rfl rfl rfl rfl
  · unfold TubeState.readHigh; split
    · exact .quiet rfl rfl rfl rfl rfl
    · exact .refl _
  · exact .refl _
  · exact .refl _

/-! ## Expiries and arrivals -/

theorem Step.entryExpired (s : State) (e : HeldEntry) : Step r k s (s.entryExpired k e) := by
  unfold State.entryExpired
  simp only
  have h1 : Step r k s (s.modTube k fun x => { x with queue := x.queue.filter (fun f => f.ticket != e.ticket) }) :=
    .setTube (.filter _)
  generalize (s.modTube k fun x => { x with queue := x.queue.filter (fun f => f.ticket != e.ticket) }) = s1 at h1
  have h2 : Step r k s (((if e.state = EntryState.claiming then s1.withdraw State.rescan (Claim.ofHead k) else s1).place
      (expiredNotice k e (entriesAhead (s.tube k).queue e.ticket))).modSummary k fun f =>
        { f with expiredAny := true }) := by
    refine Step.trans (Step.trans (h1.trans ?_) (.place _ _)) (.modSummary _ _)
    split
    · exact .withdraw _ _
    · exact .refl _
  split
  · exact h2.trans (.examine _ _)
  · exact h2

theorem Step.gapExpired (s : State) : Step r k s (s.gapExpired k) :=
  (Step.modTube (f := fun x => { x with gapTimer := none }) (.quiet rfl rfl rfl rfl rfl)).trans (.examine _ _)

theorem Step.moveZone (s : State) (z : Zone) : Step r k s (s.moveZone k z) := by
  unfold State.moveZone
  simp only
  split
  · exact .setZone _ _ _
  · exact .refl s

theorem Step.afterMoves (s : State) : Step r k s (s.afterMoves k) := by
  unfold State.afterMoves
  simp only
  split
  · exact (Step.modRamp s _).trans (.freeSlot _)
  · exact .modRamp s _
  · exact (Step.modRamp s _).trans (.freeSlot _)

theorem Step.stepExpired (s : State) : Step r k s (s.stepExpired k) := by
  unfold State.stepExpired
  simp only
  have h := Step.modRamp (r := r) (k := k) s fun r => { r with stepTimer := some (s.tube k).header.stepPeriod }
  split
  · refine h.trans ?_
    unfold State.lagHold
    simp only
    split
    · exact (Step.modRamp _ _).trans (.place _ _)
    · exact .refl _
  · refine Step.trans ?_ (.afterMoves _)
    refine Step.trans ?_ (.modRamp _ _)
    exact h.trans (Step.foldl (fun u z => Step.moveZone u z) _ _)

theorem Step.settleExpired (s : State) : Step r k s (s.settleExpired k) := by
  unfold State.settleExpired
  split
  · unfold State.settleFailed
    simp only
    split
    · exact (Step.modRamp s _).trans (.place _ _)
    · exact .modRamp s _
  · unfold State.settlePassed
    simp only
    exact ((Step.modRamp s _).trans (.place _ _)).trans (.modSummary _ _)

theorem Step.boatDone (s : State) (n : Nat) : Step r k s (s.boatDone k n) := (Step.modSummary s _).trans (.place _ _)

theorem Step.afterMove (s : State) (ht : (s.tube k).boat.motionTimer ≠ none) : Step r k s (s.afterMove k) := by
  unfold State.afterMove
  simp only
  generalize hs1 : (s.modBoat k fun b => { b with stall := stallCounter (s.tube k).header (s.boatSample k) b.delivered b.stall }) = s1
  have h1 : Step r k s s1 := by
    rw [← hs1]
    exact .setTube (.boat rfl rfl rfl rfl (fun g => g.boatOut) fun g => g.boatTimer)
  have ht1 : (s1.tube k).boat.motionTimer ≠ none := by rw [← hs1]; simpa using ht
  refine h1.trans ?_
  split
  · refine Step.trans (Step.setTube ?_) (.requestAbort _ _)
    exact .boat rfl rfl rfl rfl (fun _ c => by cases c) fun _ c => absurd rfl c
  · split
    · exact (Step.setTube (.rest (n := (s.tube k).header.inThreshold) rfl rfl)).trans (.boatDone _ _)
    · exact .setTube (.boat rfl rfl rfl rfl (fun g => g.boatOut) fun g _ => g.boatTimer ht1)

theorem Step.motionExpired (s : State) (ht : (s.tube k).boat.motionTimer ≠ none) : Step r k s (s.motionExpired k) := by
  unfold State.motionExpired
  simp only
  generalize hs1 : (s.modBoat k fun b => { b with expiries := min 65535 (b.expiries + 1), direction := b.heading }) = s1
  have h1 : Step r k s s1 := by
    rw [← hs1]
    exact .setTube (.boat rfl rfl rfl rfl (fun g => g.boatOut) fun g => g.boatTimer)
  have ht1 : (s1.tube k).boat.motionTimer ≠ none := by rw [← hs1]; simpa using ht
  refine h1.trans ?_
  split
  · exact .afterMove s1 ht1
  · refine Step.trans (Step.trans (Step.setTube ?_) (.deliver _ _ _ _)) (.afterMove _ ?_)
    · refine .boat rfl rfl rfl rfl (fun g c => ?_) fun g => g.boatTimer
      have := g.boatTimer ht1
      simp only at c
      rw [this] at c; cases c
    · simpa using ht1

theorem TubeStep.endAbort {x : TubeState} (hm : x.mode.working = false) (f : Summary) :
    TubeStep r x { x with abortTimer := none, mode := .aborted, summary := f } where
  safe := fun g =>
    { g with
      working := fun c => by have := g.working c; rw [hm] at this; cases this
      idle := fun _ => g.idle hm }
  plates := fun _ => rfl
  mode := fun _ _ c => by cases c

theorem Step.endAbort (s : State) (w : Word) (hm : (s.tube k).mode.working = false) : Step r k s (s.endAbort k w) :=
  (Step.setTube (.endAbort hm _)).trans (.place _ _)

theorem Step.completeRun (s : State) (q : Run) (hq : (s.tube k).gas.run = some q) : Step r k s (s.completeRun k q) := by
  unfold State.completeRun
  simp only
  generalize hs1 : (s.modGas k fun g =>
    { g with sampleTimer := none, limitTimer := none, atmosphere := .inert, run := none }) = s1
  have h1 : Step r k s s1 := by
    rw [← hs1]
    refine .setTube (.gas (fun _ => rfl) fun g =>
      { g with
        closed := fun l hr hf => ?_
        working := fun c => nomatch c
        run := fun c => absurd rfl c })
    have := g.closed l hr hf
    rcases g.run (by rw [hq]; simp) with e | e <;> (rw [e] at this; cases this)
  refine h1.trans ?_
  generalize hw : (if (s.tube k).header.standbyFlow.toNat ≤ (s.lineRec k (s.tube k).header.purgeLine).flow.toNat then
    (s.tube k).header.standbyFlow else (s.lineRec k (s.tube k).header.purgeLine).flow) = w
  have hh : (s1.tube k).header = (s.tube k).header := by rw [← hs1]; simp
  generalize hs2 : s1.lowerLine State.rescan k (s.tube k).header.purgeLine w = s2
  have h2 : Step r k s1 s2 := by
    rw [← hs2]
    refine .lowerLine fun g hr => ?_
    have := g.purgeInert
    rw [hh] at this
    rw [this] at hr; cases hr
  refine h2.trans ?_
  have tail : ∀ {u : State} {n : Notice} {f : Summary → Summary} {v : Word}, Step r k u
      (if (((u.modSummary k f).place n).tube k).mode = .aborting then ((u.modSummary k f).place n).endAbort k v
        else (u.modSummary k f).place n) := fun {u n f v} => by
    refine ((Step.modSummary u f).trans (.place _ n)).trans ?_
    split
    · next h => exact .endAbort _ _ (by rw [h]; rfl)
    · exact .refl _
  exact tail

theorem Step.sampleExpired (s : State) : Step r k s (s.sampleExpired k) := by
  unfold State.sampleExpired
  simp only
  have h1 : Step r k s (s.modGas k fun g => g.addSample (s.purgeFlowUsed k) (s.tube k).header.samplePeriod) := by
    refine .setTube (.gas (fun l => ?_) fun g => ?_)
    · show (((s.tube k).gas.addSample _ _).lines.get l).plate = _
      unfold Gas.addSample; split <;> rfl
    · show GasSafe { s.tube k with gas := (s.tube k).gas.addSample _ _ }
      unfold Gas.addSample
      split
      · exact g
      · next h => exact { g with run := fun _ => g.run (by rw [h]; simp) }
  refine h1.trans ?_
  split
  · exact .setTube (.gas (fun _ => rfl) fun g => { g with })
  · next q hq =>
    split
    · exact .completeRun _ q hq
    · exact .refl _

theorem Step.purgeLimitExpired (s : State) : Step r k s (s.purgeLimitExpired k) := by
  unfold State.purgeLimitExpired
  simp only
  refine Step.trans (t := s.modGas k fun g => { g with limitTimer := none })
    (.modGas (.gas (fun _ => rfl) fun g => { g with })) ?_
  split
  · exact .refl _
  · split
    · exact .requestAbort _ _
    · exact .requestAbort _ _
    · exact .requestTrip _ _
    · exact .refl _

theorem Step.setCounter (s : State) (l : Line) (n : Nat) :
    Step r k s (s.modGas k fun g => { g with lines := g.lines.set l { g.lines.get l with devCounter := n } }) := by
  refine .setTube (.gas (fun j => ?_) fun g => ?_)
  · simp only [Eight.get_set]; split
    · next h => subst h; rfl
    · rfl
  · exact g.setFlow (v := ((s.tube k).gas.lines.get l).flow) (g.closed l)

theorem Step.lineArrives (s : State) (l : Line) (v : Word) : Step r k s (s.lineArrives ⟨k, l, v⟩) := by
  unfold State.lineArrives
  simp only
  split
  · split
    · split
      · exact (Step.setCounter _ _ _).trans (.requestAbort _ _)
      · exact .setCounter _ _ _
    · exact .setCounter _ _ _
  · exact .refl s

theorem Step.abortClaimExpired (s : State) : Step r k s (s.abortClaimExpired k) := by
  unfold State.abortClaimExpired
  simp only
  refine Step.trans (t := s.modTube k fun x => { x with abortTimer := none }) (.modTube (.quiet rfl rfl rfl rfl rfl)) ?_
  split
  · exact .refl _
  · exact .requestTrip _ _

/-! ## Aborts -/

theorem HaltStep.modTube {s : State} {x : TubeState} (hm : x.mode = (s.tube k).mode)
    (hq : x.queue = (s.tube k).queue) (hg : x.gas = (s.tube k).gas) (hh : x.header = (s.tube k).header)
    (hb : x.boat = (s.tube k).boat) : HaltStep k s (s.setTube k x) :=
  .quiet (by rw [hm]) (by rw [hq]; exact id) hg hh hb

theorem HaltStep.withdraw (s : State) (w : Claim → Bool) : HaltStep k s (s.withdraw State.rescan w) :=
  (Shift.withdraw (o := none) Shift.rescan s w).halt

theorem HaltStep.placeFlushed (o : FlushOrigin) : ∀ (n : Nat) (q : List HeldEntry) (s : State),
    HaltStep k s (placeFlushed k o n q s)
  | _, [], s => .refl s
  | n, _ :: q, s => (HaltStep.place s _).trans (HaltStep.placeFlushed o (n + 1) q _)

theorem HaltStep.emptied (s : State) : HaltStep k s (s.modTube k fun x => { x with queue := [] }) :=
  .quiet rfl (fun _ => rfl) rfl rfl rfl

/-- R46: a flush empties the queue. -/
theorem flush_halts (s : State) (o : FlushOrigin) : HaltStep k s (s.flush k o) ∧ ((s.flush k o).tube k).queue = [] := by
  unfold State.flush
  simp only
  refine ⟨HaltStep.trans ?_ ((HaltStep.emptied _).trans (.placeFlushed o 0 _ _)),
    (HaltStep.placeFlushed o 0 _ _).queue (by simp)⟩
  split
  · exact .refl _
  · split
    · exact .withdraw _ _
    · exact .refl _

theorem HaltStep.freezeRamp (s : State) : HaltStep k s (s.freezeRamp k) := (HaltStep.modRamp s _).trans (.freeSlot _)

/-- R121: the boat of an aborted tube. -/
theorem HaltStep.freezeBoat (s : State) (n : Nat) : HaltStep k s (s.modBoat k fun b => b.freeze n) where
  port := rfl
  halted := fun a => by
    simp only [State.modBoat, State.modTube, State.tube_setTube, if_true]
    refine { a with boatOut := ?_, boatTimer := ?_ }
    · show (Boat.freeze _ n).state = .outPos → (Boat.freeze _ n).delivered = 0
      unfold Boat.freeze
      split
      · exact positionState_out
      · exact positionState_out
      · exact a.boatOut
    · show (Boat.freeze _ n).motionTimer ≠ none → (Boat.freeze _ n).state = .moving
      unfold Boat.freeze
      split
      · exact fun c => absurd rfl c
      · exact fun c => absurd rfl c
      · exact fun c => absurd rfl c
  plates := fun l => by simp
  queue := by simp
  noRun := fun _ => by simp
  flows := fun _ l _ h => by simpa using h
  atmosphere := fun _ => by simp

theorem Halted.reactiveClosed {x : TubeState} (h : Halted x) (ha : x.gas.atmosphere ≠ .process) :
    x.gas.reactiveClosed = true := by
  simp only [Gas.reactiveClosed, List.all_eq_true]
  intro l hl
  obtain ⟨i, rfl⟩ := Eight.mem_toList.mp hl
  cases hr : (x.gas.lines.get i).reactive with
  | false => simp
  | true =>
    by_cases hf : (x.gas.lines.get i).flow = 0
    · simp [hf]
    · exact absurd (h.closed i hr hf) ha

theorem reactiveClosed_of {x : TubeState} (h : ∀ l, (x.gas.lines.get l).reactive = true → (x.gas.lines.get l).flow = 0) :
    x.gas.reactiveClosed = true := by
  simp only [Gas.reactiveClosed, List.all_eq_true]
  intro l hl
  obtain ⟨i, rfl⟩ := Eight.mem_toList.mp hl
  cases hr : (x.gas.lines.get i).reactive with
  | false => simp
  | true => simp [h i hr]

theorem HaltStep.raiseRunClaim (s : State) : HaltStep k s (s.raiseRunClaim k) := by
  have hb : ∀ f, HaltStep k s (s.modBudget f) := fun f =>
    ⟨rfl, id, fun _ => rfl, id, fun _ => id, fun _ _ _ h => h, fun _ => rfl⟩
  have hg : ∀ u : State, HaltStep k u
      (u.modGas k fun g => { g with run := g.run.map (fun q => { q with priority := .abort }) }) := fun u => by
    have eu : (u.modGas k fun g => { g with run := g.run.map (fun q => { q with priority := .abort }) }).tube k
        = { u.tube k with gas := { (u.tube k).gas with
            run := (u.tube k).gas.run.map (fun q => { q with priority := .abort }) } } := by simp
    refine ⟨rfl, fun a => ?_, fun l => by rw [eu], by rw [eu]; exact id, fun _ c => by rw [eu]; simp [c],
      fun _ l _ hf => by rw [eu]; exact hf, fun _ => by rw [eu]⟩
    rw [eu]
    exact { a with run := fun c => a.run fun hn => c (by simp [hn]) }
  unfold State.raiseRunClaim
  split
  · exact .refl s
  · split
    · exact .refl s
    · exact ((hb _).trans (hg _)).trans (.rescan _)

theorem HaltStep.restart (s : State) (n : Nat) :
    HaltStep k s (s.modGas k fun g => { g with limitTimer := restartLimit g.limitTimer n }) := by
  have eu : (s.modGas k fun g => { g with limitTimer := restartLimit g.limitTimer n }).tube k
      = { s.tube k with gas := { (s.tube k).gas with limitTimer := restartLimit (s.tube k).gas.limitTimer n } } := by
    simp
  exact ⟨rfl, fun a => by rw [eu]; exact { a with }, fun l => by rw [eu], by rw [eu]; exact id, fun _ c => by rw [eu]; exact c,
    fun _ l _ hf => by rw [eu]; exact hf, fun _ => by rw [eu]⟩

/-- R105: what the Gas Engine's part of an abort leaves of a halted tube. -/
theorem gasAbort_safe (s : State) :
    (Halted (s.tube k) → (s.tube k).queue = [] →
      GasSafe ((s.gasAbort k).tube k) ∧ ((s.gasAbort k).tube k).mode.working = false)
      ∧ (∀ l, (((s.gasAbort k).tube k).gas.lines.get l).plate = ((s.tube k).gas.lines.get l).plate)
      ∧ (s.gasAbort k).port = s.port := by
  have still : ∀ u, HaltStep k s u → (s.tube k).gas.atmosphere ≠ .process →
      (Halted (s.tube k) → (s.tube k).queue = [] → GasSafe (u.tube k) ∧ (u.tube k).mode.working = false)
        ∧ (∀ l, ((u.tube k).gas.lines.get l).plate = ((s.tube k).gas.lines.get l).plate) ∧ u.port = s.port :=
    fun u g ha => ⟨fun h hq => ⟨(g.halted h).safe (g.queue hq) (by rw [g.atmosphere h]; exact ha), (g.halted h).mode⟩,
      g.plates, g.port⟩
  unfold State.gasAbort
  simp only
  split
  · obtain ⟨g, gz⟩ := closeReactive_halts (k := k) Ix8.all s
    refine ⟨fun h hq => ?_, fun l => (plates_startRun _ _ l).trans (g.plates l), (HaltStep.startRun _ _).port.trans g.port⟩
    exact startRun_safe _ (g.halted h) (g.queue hq) (reactiveClosed_of fun l hr =>
      gz h l (Ix8.mem_all l) (by rw [← reactive_of_plate (g.plates l)]; exact hr))
  · next ha =>
    have g : HaltStep k s (s.withdraw State.rescan (Claim.ofRun k)) := .withdraw _ _
    refine ⟨fun h hq => ?_, fun l => (plates_startRun _ _ l).trans (g.plates l), (HaltStep.startRun _ _).port.trans g.port⟩
    exact startRun_safe _ (g.halted h) (g.queue hq) ((g.halted h).reactiveClosed (by rw [g.atmosphere h, ha]; simp))
  · next ha => exact still _ ((HaltStep.restart s _).trans (.raiseRunClaim _)) (by rw [ha]; simp)
  · next ha => exact still s (.refl s) (by rw [ha]; simp)
  · next ha => exact still s (.refl s) (by rw [ha]; simp)

/-- The abort timer started. -/
theorem Step.startClaimTimer (s : State) : Step r k s (s.startClaimTimer k) := .setTube (.quiet rfl rfl rfl rfl rfl)

theorem Step.afterGasAbort (s : State) (hm : (s.tube k).mode.working = false) : Step r k s (s.afterGasAbort k) := by
  unfold State.afterGasAbort
  split
  · exact .endAbort _ _ hm
  · split
    · exact .startClaimTimer _
    · exact .refl _

theorem port_abortTube (s : State) (q : AbortRequest) : (s.abortTube q).port = s.port := by
  unfold State.abortTube
  simp only
  have h1 : (s.beginAbort q).port = s.port := rfl
  have h2 := (((flush_halts (k := q.tube) (s.beginAbort q) .abort).1.trans (HaltStep.modTube (x := { (
    ((s.beginAbort q).flush q.tube .abort).tube q.tube) with gapTimer := none }) rfl rfl rfl rfl rfl)).trans
    (.freezeRamp _)).port
  rw [h1] at h2
  rw [← h2]
  have h3 : ∀ u : State, (u.afterGasAbort q.tube).port = u.port := fun u => by
    unfold State.afterGasAbort
    split
    · rfl
    · split <;> rfl
  rw [h3, (gasAbort_safe _).2.2]
  rfl

theorem Step.abortTube (s : State) (q : AbortRequest) (hk : q.tube = k) : Step r k s (s.abortTube q) := by
  subst hk
  refine ⟨?_, .inr (port_abortTube s q)⟩
  unfold State.abortTube
  simp only
  generalize hs1 : s.beginAbort q = s1
  have e1 : s1.tube q.tube = { s.tube q.tube with abortCause := q.cause, abortBegin := s.clock, mode := .aborting } := by
    rw [← hs1]; simp [State.beginAbort]
  have hh : GasSafe (s.tube q.tube) → Halted (s1.tube q.tube) := fun g => by
    rw [e1]
    exact ⟨rfl, g.purgeInert, g.closed, g.run, g.boatOut, g.boatTimer⟩
  obtain ⟨f1, f2⟩ := flush_halts (k := q.tube) s1 .abort
  have h2 : HaltStep q.tube (s1.flush q.tube .abort) ((s1.flush q.tube .abort).modTube q.tube fun x => { x with gapTimer := none }) :=
    .modTube rfl rfl rfl rfl rfl
  generalize (s1.flush q.tube .abort).modTube q.tube (fun x => { x with gapTimer := none }) = s2 at h2
  have h4 : HaltStep q.tube s1 ((s2.freezeRamp q.tube).modBoat q.tube fun b => b.freeze ((s2.freezeRamp q.tube).tube q.tube).header.inThreshold) :=
    ((f1.trans h2).trans (.freezeRamp _)).trans (.freezeBoat _ _)
  have q4 : (((s2.freezeRamp q.tube).modBoat q.tube fun b => b.freeze ((s2.freezeRamp q.tube).tube q.tube).header.inThreshold).tube q.tube).queue = [] :=
    ((h2.trans (.freezeRamp _)).trans (.freezeBoat _ _)).queue f2
  generalize (s2.freezeRamp q.tube).modBoat q.tube (fun b => b.freeze ((s2.freezeRamp q.tube).tube q.tube).header.inThreshold) = s4 at h4 q4
  have hp4 : ∀ l, ((s4.tube q.tube).gas.lines.get l).plate = ((s.tube q.tube).gas.lines.get l).plate := fun l => by
    rw [h4.plates l, e1]
  have key : GasSafe (s.tube q.tube) → GasSafe (((s4.gasAbort q.tube).afterGasAbort q.tube).tube q.tube)
      ∧ (((s4.gasAbort q.tube).afterGasAbort q.tube).tube q.tube).mode.working = false := fun g => by
    obtain ⟨a, b⟩ := (gasAbort_safe (k := q.tube) s4).1 (h4.halted (hh g)) q4
    refine ⟨(Step.afterGasAbort (r := True) _ b).tube.safe a, ?_⟩
    unfold State.afterGasAbort
    split
    · simp [State.endAbort, Mode.working]
    · split
      · simpa [State.startClaimTimer] using b
      · exact b
  refine ⟨fun g => (key g).1, fun l => ?_, fun g _ c => by rw [(key g).2] at c; cases c⟩
  rw [← hp4 l, ← (gasAbort_safe (k := q.tube) s4).2.1 l]
  unfold State.afterGasAbort
  split
  · simp [State.endAbort]
  · split
    · simp [State.startClaimTimer]
    · rfl

theorem Step.takeAbort (s : State) (q : AbortRequest) (hk : q.tube = k) : Step r k s (s.takeAbort q) := by
  unfold State.takeAbort
  split
  · exact .refl s
  · split
    · exact .abortTube s q hk
    · exact .abortTube s q hk
    · exact .place _ _
    · exact .place _ _

/-! ## Time -/

theorem TubeStep.pass (x : TubeState) (n : Nat) : TubeStep r x (x.pass n) where
  safe := fun g =>
    { g with
      classes := fun e he l c p w hk => by
        simp only [TubeState.pass, List.mem_map] at he
        obtain ⟨d, hd, rfl⟩ := he
        exact g.classes d hd l c p w hk
      idle := fun c => by simp [TubeState.pass, g.idle c]
      boatTimer := fun c => g.boatTimer fun e => c (by simp [TubeState.pass, e, Timer.pass]) }
  plates := fun _ => rfl
  mode := fun _ _ => id

theorem tube_elapse (s : State) (n : Nat) (t : Tube) : (s.elapse n).tube t = (s.tube t).pass n := by
  simp [State.elapse, State.tube, Four.get_map]

end Sys2Proof.Machine
end

