-- ==== Sys2Proof/Laws/ReactiveLaw.lean ====
section
/-! SUPPORT. The part's reactive-gas law (`ReactiveLaw`) through what the commands are made of: events of one tube, the
bus, loader words, adoption, RELOAD, and the lookup, walk and dispatch of a controller access. -/

namespace Sys2Proof.Machine

variable {s t : State} {k : Tube}

/-! ## Events that leave binding, cache and loader -/

/-- The port stays as it is, or comes off the walk. -/
def PortKept (s t : State) : Prop := t.portOffWalk = true ∨ (t.port.phase = s.port.phase ∧ t.root = s.root)

theorem PortKept.trans {u : State} (h : PortKept s t) (g : PortKept t u) : PortKept s u := by
  rcases g with g | ⟨gp, gr⟩
  · exact .inl g
  · rcases h with h | ⟨hp, hr⟩
    · exact .inl (by simpa [State.portOffWalk, gp] using h)
    · exact .inr ⟨gp.trans hp, gr.trans hr⟩

theorem placeOf_congr {acc : Access} (h : t.root = s.root) : t.placeOf acc = s.placeOf acc := by
  simp only [State.placeOf, h]

/-- A port off the walk has no write-back. -/
theorem no_writeBack (h : t.portOffWalk = true) {acc : Access} {way : Ix4}
    (g : (∃ w, t.port.phase = .fillWriteBack acc way w) ∨ t.port.phase = .useWriteBack acc way) : False := by
  rcases g with ⟨w, g⟩ | g <;> simp [State.portOffWalk, g] at h

theorem ReactiveLaw.of (h : ReactiveLaw s) (ht : ∀ k, TubeStep (s.loader.phase = .ready) (s.tube k) (t.tube k))
    (hb : t.binding = s.binding) (hc : t.cache = s.cache) (hl : t.loader = s.loader) (hp : PortKept s t) :
    ReactiveLaw t where
  tubes := fun k => (ht k).safe (h.tubes k)
  classes := fun k l => by
    rw [hb, ← h.classes k l]
    exact reactive_of_plate ((ht k).plates l)
  cache := fun p way g => by
    rw [hb]
    have e : t.cacheEntry p way = s.cacheEntry p way := by simp only [State.cacheEntry, hc]
    rw [e] at g ⊢
    exact h.cache p way g
  loading := fun n => by
    rw [hl] at n
    rw [hc]
    refine ⟨fun k => ?_, (h.loading n).2⟩
    cases hm : (t.tube k).mode.working with
    | false => rfl
    | true => have := (ht k).mode (h.tubes k) n hm; rw [(h.loading n).1 k] at this; cases this
  jobs := by rw [hl]; exact h.jobs
  walks := fun g => by
    rw [hl]
    rcases hp with hp | ⟨hp, _⟩
    · rw [hp] at g; cases g
    · exact h.walks (by simpa [State.portOffWalk, hp] using g)
  writeBacks := fun acc way g => by
    rcases hp with hp | ⟨hp, hr⟩
    · exact (no_writeBack hp g).elim
    · rw [hp] at g
      have e : ∀ p, t.cacheEntry p way = s.cacheEntry p way := fun p => by simp only [State.cacheEntry, hc]
      rw [placeOf_congr hr, e]
      exact h.writeBacks acc way g

/-- A change of none of the tubes. -/
theorem ReactiveLaw.same (h : ReactiveLaw s) (ht : t.tubes = s.tubes) (hb : t.binding = s.binding)
    (hc : t.cache = s.cache) (hl : t.loader = s.loader) (hp : PortKept s t) : ReactiveLaw t :=
  h.of (fun k => by simp only [State.tube, ht]; exact .refl _) hb hc hl hp

theorem ReactiveLaw.finished (h : ReactiveLaw s) (g : Finished s t) : ReactiveLaw t :=
  h.of (fun k => (g.tubes k).step) g.binding g.cache g.loader (.inr ⟨by rw [g.port], g.root⟩)

theorem ReactiveLaw.finish (before : State) (h : ReactiveLaw s) : ReactiveLaw (before.finish s) :=
  h.finished (.finish before s)

theorem ReactiveLaw.advance (h : ReactiveLaw s) : ReactiveLaw s.advance := h.finished (.advance s)

/-- An event of one tube. -/
theorem ReactiveLaw.local (h : ReactiveLaw s) (g : Local k s t) (gk : Step (s.loader.phase = .ready) k s t) :
    ReactiveLaw t :=
  h.of (fun j => by
    by_cases e : j = k
    · subst e; exact gk.tube
    · exact (g.others j e).step) g.binding g.cache g.loader (gk.port.imp id fun c => ⟨by rw [c], g.root⟩)

theorem ReactiveLaw.elapse (h : ReactiveLaw s) (n : Nat) : ReactiveLaw (s.elapse n) :=
  h.of (fun k => by rw [tube_elapse]; exact .pass _ n) rfl rfl rfl (.inr ⟨rfl, rfl⟩)

/-! ## The bus -/

theorem completeBus_eq (s : State) : ∃ b m, s.completeBus = { s with bus := b, mem := m } := by
  unfold State.completeBus
  split
  · exact ⟨_, _, rfl⟩
  · simp only
    split <;> exact ⟨_, _, rfl⟩

theorem ReactiveLaw.completeBus (h : ReactiveLaw s) : ReactiveLaw s.completeBus := by
  obtain ⟨b, m, e⟩ := completeBus_eq s
  rw [e]
  exact h.same rfl rfl rfl rfl (.inr ⟨rfl, rfl⟩)

theorem ReactiveLaw.openBus (h : ReactiveLaw s) (r : Requester) : ReactiveLaw (s.openBus r) := by
  unfold State.openBus State.dropDiscarded
  have h1 := h.advance
  split
  · exact h1
  · split
    · exact h1.completeBus.finish _
    · exact h1

/-- Words that each keep the law keep it together. -/
theorem ReactiveLaw.takeWords {r : Requester} {ready : State → Bool} {f : State → Word → State}
    (hf : ∀ s w, ReactiveLaw s → ready s = true → ReactiveLaw (f s w))
    (hr : ∀ s b m, ready { s with bus := b, mem := m } = ready s) :
    ∀ (n : Nat) {s : State}, ReactiveLaw s → ReactiveLaw (takeWords r ready f n s)
  | 0, _, h => h
  | n + 1, s, h => by
    unfold Machine.takeWords
    split
    · exact h
    · split
      · next hs =>
        refine ReactiveLaw.takeWords hf hr n (ReactiveLaw.finish _ (hf _ _ h.completeBus ?_))
        obtain ⟨b, m, e⟩ := completeBus_eq s
        rw [e, hr]
        exact hs
      · exact h

/-! ## Before READY -/

/-- Off READY the port is off the walk. -/
theorem ReactiveLaw.offWalk (h : ReactiveLaw s) (hn : s.loader.phase ≠ .ready) : s.portOffWalk = true := by
  cases hp : s.portOffWalk with
  | true => rfl
  | false => exact absurd (h.walks hp) hn

/-- A loader event before READY that leaves the part before READY. -/
theorem ReactiveLaw.load (h : ReactiveLaw s) (hn : s.loader.phase ≠ .ready)
    (ht : ∀ k, TubeStep False (s.tube k) (t.tube k)) (hb : t.binding = s.binding) (hc : t.cache = s.cache)
    (hp : t.port = s.port) (hl : t.loader.phase ≠ .ready) : ReactiveLaw t := by
  have ho : t.portOffWalk = true := by
    have := h.offWalk hn
    simpa only [State.portOffWalk, hp] using this
  refine ⟨fun k => (ht k).safe (h.tubes k), fun k l => ?_, fun p way g => ?_, fun _ => ⟨fun k => ?_, by rw [hc]; exact (h.loading hn).2⟩,
    fun _ => hl, fun g => absurd g (by rw [ho]; simp), fun acc way g => (no_writeBack ho g).elim⟩
  · rw [hb, ← h.classes k l]
    exact reactive_of_plate ((ht k).plates l)
  · rw [hb]
    have e : t.cacheEntry p way = s.cacheEntry p way := by simp only [State.cacheEntry, hc]
    rw [e] at g ⊢
    exact h.cache p way g
  · cases hm : (t.tube k).mode.working with
    | false => rfl
    | true => have := (ht k).mode (h.tubes k) id hm; rw [(h.loading hn).1 k] at this; cases this

theorem ReactiveLaw.loadSame (h : ReactiveLaw s) (hn : s.loader.phase ≠ .ready) (ht : t.tubes = s.tubes)
    (hb : t.binding = s.binding) (hc : t.cache = s.cache) (hp : t.port = s.port) (hl : t.loader.phase ≠ .ready) :
    ReactiveLaw t :=
  h.load hn (fun k => by simp only [State.tube, ht]; exact .refl _) hb hc hp hl

theorem ReactiveLaw.setJob (h : ReactiveLaw s) (hn : s.loader.phase ≠ .ready) (j : LoadJob) : ReactiveLaw (s.setJob j) :=
  h.loadSame hn rfl rfl rfl rfl hn

/-- R181: the part becomes READY. -/
theorem ReactiveLaw.becomeReady (h : ReactiveLaw s) (hn : s.loader.phase ≠ .ready) : ReactiveLaw s.becomeReady where
  tubes := h.tubes
  classes := h.classes
  cache := h.cache
  loading := fun c => absurd rfl c
  jobs := fun c => absurd rfl c
  walks := fun _ => rfl
  writeBacks := fun _ _ g => (no_writeBack (h.offWalk hn) g).elim

theorem ReactiveLaw.nextAdopt (h : ReactiveLaw s) (hn : s.loader.phase ≠ .ready) (l : List Tube) :
    ReactiveLaw (s.nextAdopt l) := by
  unfold State.nextAdopt
  split
  · exact h.setJob hn _
  · exact h.becomeReady hn

theorem nextLoad_loader (s : State) (l : List Tube) : ∃ j, s.nextLoad l = s.setJob j := by
  unfold State.nextLoad; split <;> exact ⟨_, rfl⟩

theorem ReactiveLaw.rootWord (h : ReactiveLaw s) (w : Word) (hj : s.onRootJob = true) : ReactiveLaw (s.rootWord w) := by
  have hn : s.loader.phase ≠ .ready := h.jobs fun c => by simp [State.onRootJob, c] at hj
  unfold State.rootWord
  split
  · split
    · exact h.setJob hn _
    · unfold State.decideRoot
      simp only
      split
      · obtain ⟨j, e⟩ := nextLoad_loader (s.takeRoot (RootFields.ofWords (w :: _).reverse)) Ix4.all
        rw [e]
        exact h.loadSame hn rfl rfl rfl rfl (by simp [State.setJob, State.takeRoot])
      · exact h.loadSame hn rfl rfl rfl rfl hn
  · exact h

theorem ReactiveLaw.scanWord (h : ReactiveLaw s) (w : Word) (hj : s.onScanJob = true) : ReactiveLaw (s.scanWord w) := by
  have hn : s.loader.phase ≠ .ready := h.jobs fun c => by simp [State.onScanJob, c] at hj
  unfold State.scanWord
  split
  · split
    · exact h.setJob hn _
    · unfold State.loadScanList
      simp only
      have hs : ∀ (l : List ScanRecord) (i : Nat) {u : State}, ReactiveLaw u → u.loader = s.loader →
          ReactiveLaw (placeScanFaults i l u) ∧ (placeScanFaults i l u).loader = s.loader := by
        intro l
        induction l with
        | nil => exact fun _ _ h e => ⟨h, e⟩
        | cons a l ih =>
          intro i u h e
          unfold placeScanFaults
          split
          · exact ih _ h e
          · exact ih _ (h.same rfl rfl rfl rfl (.inr ⟨rfl, rfl⟩)) e
      obtain ⟨a, b⟩ := hs (scanRecords (w :: _).reverse) 0
        (h.same (t := s.modScanner fun c => { c with list := scanRecords (w :: _).reverse }) rfl rfl rfl rfl (.inr ⟨rfl, rfl⟩)) rfl
      exact a.setJob (by rw [b]; exact hn) _
  · exact h

/-- R90, R13: the class a loaded line record holds is its binding's. -/
theorem loadedLine_class (ds : List DescWords) (l : Line) :
    (loadedLine ds l).reactive = ((TubeBinding.ofDescriptors ds).lines.get l).reactive := by
  simp only [loadedLine, TubeBinding.ofDescriptors, Eight.get_ofFn]
  split <;> rfl

theorem loadedLine_flow (ds : List DescWords) (l : Line) : (loadedLine ds l).flow = 0 := by
  unfold loadedLine; split <;> rfl

theorem acceptTube_tube (s : State) (u : Tube) (ws : List Word) (j : Tube) : (s.acceptTube u ws).tube j
    = if j = u then { s.tube u with
        header := Header.ofWords ws
        gas := { (s.tube u).gas with lines := Eight.ofFn (loadedLine (tableDescriptors ws)) } } else s.tube j := by
  exact Four.get_set _ _ _ _

theorem ReactiveLaw.acceptTube (h : ReactiveLaw s) (hn : s.loader.phase ≠ .ready) (u : Tube) (ws : List Word)
    (hf : s.loadFault (s.root.tubes.get u).pointer ws = none) : ReactiveLaw (s.acceptTube u ws) := by
  have ho : (s.acceptTube u ws).portOffWalk = true := h.offWalk hn
  have hpurge : (loadedLine (tableDescriptors ws) (Header.ofWords ws).purgeLine).reactive = false := by
    have : purgeFault ws = none := by
      unfold State.loadFault at hf
      split at hf
      · cases hf
      · split at hf
        · cases hf
        · split at hf
          · cases hf
          · exact hf
    unfold purgeFault at this
    simp only at this
    split at this
    · next g =>
      rw [loadedLine_class]
      simp only [purgeLineOk, Bool.and_eq_true, Bool.not_eq_true'] at g
      exact g.1.1.1.1.1.2
    · cases this
  have hq : (s.tube u).queue = [] := (h.tubes u).idle ((h.loading hn).1 u)
  refine ⟨fun j => ?_, fun j l => ?_, fun p way g => ?_, fun _ => ⟨fun j => ?_, (h.loading hn).2⟩, fun _ => hn,
    fun g => absurd g (by rw [ho]; simp), fun acc way g => (no_writeBack ho g).elim⟩
  · rw [acceptTube_tube]
    split
    · refine { h.tubes u with classes := ?_, purgeInert := ?_, closed := fun l _ hz => ?_ }
      · simp [hq]
      · simpa using hpurge
      · simp [loadedLine_flow] at hz
    · exact h.tubes j
  · have e : (s.acceptTube u ws).lineRec j l = ((s.acceptTube u ws).tube j).gas.lines.get l := rfl
    have eb : (s.acceptTube u ws).binding = s.binding.set u (TubeBinding.ofDescriptors (tableDescriptors ws)) := rfl
    rw [e, eb, acceptTube_tube, Four.get_set]
    split
    · simpa using loadedLine_class _ _
    · exact h.classes j l
  · have := (h.loading hn).2 (cacheSet p.channel) way
    have e : (s.acceptTube u ws).cacheEntry p way = (s.cache.get (cacheSet p.channel)).get way := rfl
    rw [e] at g
    simp [CacheEntry.holds, this] at g
  · rw [acceptTube_tube]
    split
    · exact (h.loading hn).1 u
    · exact (h.loading hn).1 j

theorem ReactiveLaw.tubeWord (h : ReactiveLaw s) (w : Word) {u : Option Tube} (hj : State.onTubeJob u s = true) :
    ReactiveLaw (s.tubeWord w) := by
  have hn : s.loader.phase ≠ .ready := h.jobs fun c => by simp [State.onTubeJob, c] at hj
  unfold State.tubeWord
  split
  · next v ws _ =>
    split
    · exact h.setJob hn _
    · have key : ReactiveLaw (s.decideTube v (w :: ws).reverse) ∧ (s.decideTube v (w :: ws).reverse).loader = s.loader := by
        unfold State.decideTube
        split
        · exact ⟨h.same rfl rfl rfl rfl (.inr ⟨rfl, rfl⟩), rfl⟩
        · next hf => exact ⟨h.acceptTube hn v _ hf, rfl⟩
      obtain ⟨j, e⟩ := nextLoad_loader (s.decideTube v (w :: ws).reverse) v.later
      rw [e]
      exact key.1.setJob (by rw [key.2]; exact hn) j
  · exact h

/-! ## Adoption -/

/-- What the closes and keeps of an adoption do outside the tube's own flows. -/
structure Adopting (k : Tube) (s t : State) : Prop where
  halt : HaltStep k s t
  others : ∀ j, j ≠ k → t.tube j = s.tube j
  header : (t.tube k).header = (s.tube k).header
  ramp : (t.tube k).ramp = (s.tube k).ramp
  root : t.root = s.root
  binding : t.binding = s.binding
  cache : t.cache = s.cache
  port : t.port = s.port
  phase : t.loader.phase = s.loader.phase

theorem Adopting.refl (s : State) : Adopting k s s := ⟨.refl s, fun _ _ => rfl, rfl, rfl, rfl, rfl, rfl, rfl, rfl⟩

theorem Adopting.trans {u : State} (h : Adopting k s t) (g : Adopting k t u) : Adopting k s u :=
  ⟨h.halt.trans g.halt, fun j e => (g.others j e).trans (h.others j e), g.header.trans h.header, g.ramp.trans h.ramp,
    g.root.trans h.root, g.binding.trans h.binding, g.cache.trans h.cache, g.port.trans h.port, g.phase.trans h.phase⟩

theorem Adopting.close (s : State) (l : Line) : Adopting k s (s.setFlow k l 0 true) :=
  ⟨.setFlow s true fun _ _ => rfl, fun j e => by simp [State.setFlow, e], by simp [State.setFlow], by simp [State.setFlow],
    rfl, rfl, rfl, rfl, rfl⟩

theorem Adopting.reactive (value : Addr → Word) : ∀ (ls : List Line) (s : State),
    Adopting k s (s.adoptReactive k value ls).1
  | [], s => .refl s
  | l :: ls, s => by
    unfold State.adoptReactive
    simp only
    split
    · exact (Adopting.close s l).trans (Adopting.reactive value ls _)
    · exact Adopting.reactive value ls s

/-- The classes of a tube's lines are its bindings'. -/
def ClassesAgree (s : State) (k : Tube) : Prop :=
  ∀ l, (s.lineRec k l).reactive = ((s.binding.get k).lines.get l).reactive

theorem Adopting.classes (h : Adopting k s t) (g : ClassesAgree s k) : ClassesAgree t k := fun l => by
  rw [h.binding, ← g l]
  exact reactive_of_plate (h.halt.plates l)

theorem Adopting.inertLine (s : State) {l : Line} (v : Word) (hr : (s.lineRec k l).reactive = false) :
    Adopting k s (s.adoptInertLine k l v).1 := by
  unfold State.adoptInertLine
  split
  · exact ⟨.setLine s fun _ c => (by rw [State.lineRec] at hr; rw [hr] at c; cases c), fun j e => by simp [e], by simp, by simp, rfl, rfl, rfl, rfl, rfl⟩
  · exact (Adopting.close s l).trans ⟨⟨rfl, id, fun _ => rfl, id, fun _ => id, fun _ _ _ h => h, fun _ => rfl⟩,
      fun _ _ => rfl, rfl, rfl, rfl, rfl, rfl, rfl, rfl⟩

theorem Adopting.inert (value : Addr → Word) : ∀ (ls : List Line) (s : State), ClassesAgree s k →
    Adopting k s (s.adoptInert k value ls).1
  | [], s, _ => .refl s
  | l :: ls, s, hc => by
    unfold State.adoptInert
    simp only
    split
    · next h =>
      have hr : (s.lineRec k l).reactive = false := by
        rw [hc l]
        simp only [Bool.and_eq_true, Bool.not_eq_true'] at h
        exact h.2
      have g := Adopting.inertLine s (value ((s.binding.get k).lines.get l).addr) hr
      exact g.trans (Adopting.inert value ls _ (g.classes hc))
    · exact Adopting.inert value ls s hc

theorem boat_adopt_rest (b : Boat) (q : BoatBinding) (value : Addr → Word) (n : Nat)
    (ho : b.state = .outPos → b.delivered = 0) (ht : b.motionTimer ≠ none → b.state = .moving) :
    ((b.adopt q value n).state = .outPos → (b.adopt q value n).delivered = 0)
      ∧ ((b.adopt q value n).motionTimer ≠ none → (b.adopt q value n).state = .moving) := by
  unfold Boat.adopt
  split
  · exact ⟨positionState_out, fun c => absurd rfl c⟩
  · exact ⟨ho, ht⟩

/-- R109: an adopted tube, once its flows are known, is safe and does not work. -/
theorem adoptEnd_safe {u : State} {n : Nat} (h : Halted (u.tube k)) (hq : (u.tube k).queue = [])
    (hr : (u.tube k).gas.run = none) (hz : ∀ l, ((u.tube k).gas.lines.get l).reactive = true →
      ((u.tube k).gas.lines.get l).flow = 0) :
    let v := if n = 0 then u.adoptAborted k else u.adoptAborting k n
    GasSafe (v.tube k) ∧ (v.tube k).mode.working = false
      ∧ (∀ l, ((v.tube k).gas.lines.get l).plate = ((u.tube k).gas.lines.get l).plate) := by
  intro v
  by_cases hn : n = 0
  · have e : v.tube k = { u.tube k with mode := .aborted, abortCause := .none, gas := { (u.tube k).gas with atmosphere := .air } } := by
      simp [v, hn, State.adoptAborted]
    rw [e]
    exact ⟨⟨by simp [hq], h.purgeInert, fun l a b => absurd (hz l a) b, fun c => (nomatch c), fun c => absurd hr c,
      fun _ => hq, h.boatOut, h.boatTimer⟩, rfl, fun _ => rfl⟩
  · have e : v = u.adoptAborting k n := by simp [v, hn]
    rw [e]
    unfold State.adoptAborting
    simp only
    obtain ⟨a, b⟩ := startRun_safe (abortClearing (u.tube k).header) h hq (reactiveClosed_of hz)
    have p := plates_startRun (k := k) u (abortClearing (u.tube k).header)
    generalize u.startRun State.rescan k (abortClearing (u.tube k).header) = s1 at a b p
    have key : ∀ w : State, w.tube k = { s1.tube k with mode := .aborting, abortCause := .startup, abortBegin := s1.clock } →
        GasSafe (w.tube k) ∧ (w.tube k).mode.working = false
          ∧ ∀ l, ((w.tube k).gas.lines.get l).plate = ((u.tube k).gas.lines.get l).plate := fun w e => by
      rw [e]
      exact ⟨{ a with
          working := fun c => by have := a.working c; rw [b] at this; cases this
          idle := fun _ => a.idle b }, rfl, p⟩
    split
    · generalize hw : (s1.modTube k fun x => { x with mode := .aborting, abortCause := .startup, abortBegin := s1.clock }) = w
      have kw := key w (by rw [← hw]; simp)
      refine ⟨(Step.startClaimTimer (r := True) _).tube.safe kw.1, ?_, fun l => ?_⟩
      · simpa [State.startClaimTimer] using kw.2.1
      · rw [← kw.2.2 l]
        simp [State.startClaimTimer]
    · exact key _ (by simp)

/-- R109, R149: what the end of an adoption leaves outside the tube. -/
theorem adoptEnd_local (u : State) (n : Nat) : Local k u (if n = 0 then u.adoptAborted k else u.adoptAborting k n) := by
  split
  · exact .modTube k u _
  · unfold State.adoptAborting
    simp only
    have h : Local k u (((u.startRun State.rescan k (abortClearing (u.tube k).header)).modTube k fun x =>
        { x with mode := .aborting, abortCause := .startup,
                 abortBegin := (u.startRun State.rescan k (abortClearing (u.tube k).header)).clock })) :=
      (Local.startRun u _).trans (.modTube k _ _)
    split
    · exact (h.trans (.place k _ _)).trans (.modTube k _ _)
    · exact h.trans (.place k _ _)

theorem adoptEnd_port (u : State) (n : Nat) :
    (if n = 0 then u.adoptAborted k else u.adoptAborting k n).port = u.port := by
  have hs : (u.startRun State.rescan k (abortClearing (u.tube k).header)).port = u.port :=
    (Shift.startRun (P := True) Shift.rescan u k _).port
  split
  · rfl
  · unfold State.adoptAborting
    simp only
    split <;> exact hs

/-- The state an adoption leaves before the loader turns to the next tube. -/
def State.adoptedTube (s : State) (t : Tube) (ws : List Word) : State :=
  let b := s.binding.get t
  let value := adopted b.plan ws
  let s1 := s.modTube t fun x =>
    { x with
      ramp := x.ramp.adopt b value x.header.settlePeriod
      boat := x.boat.adopt b.boat value x.header.inThreshold
      gas := x.gas.zeroed }
  let r := s1.adoptReactive t value Ix8.all
  let i := r.1.adoptInert t value Ix8.all
  let s2 := if r.2 = 0 then i.1.adoptAborted t else i.1.adoptAborting t r.2
  s2.place (notice .loaded (some t) none (s2.tube t).mode.code (s2.tube t).lastReleased (wordOf r.2) (wordOf i.2))

theorem adoptTube_eq (s : State) (t : Tube) (ws : List Word) :
    s.adoptTube t ws = (s.adoptedTube t ws).nextAdopt t.later := rfl

theorem ReactiveLaw.adoptedTube (h : ReactiveLaw s) (hn : s.loader.phase ≠ .ready) (k : Tube) (ws : List Word) :
    ReactiveLaw (s.adoptedTube k ws) ∧ (s.adoptedTube k ws).loader.phase ≠ .ready := by
  unfold State.adoptedTube
  simp only
  generalize adopted (s.binding.get k).plan ws = value
  have hk := h.tubes k
  have hm := (h.loading hn).1 k
  generalize hs1 : (s.modTube k fun x => { x with
    ramp := x.ramp.adopt (s.binding.get k) value x.header.settlePeriod
    boat := x.boat.adopt (s.binding.get k).boat value x.header.inThreshold
    gas := x.gas.zeroed }) = s1
  have e1 : s1.tube k = { s.tube k with
      ramp := (s.tube k).ramp.adopt (s.binding.get k) value (s.tube k).header.settlePeriod
      boat := (s.tube k).boat.adopt (s.binding.get k).boat value (s.tube k).header.inThreshold
      gas := (s.tube k).gas.zeroed } := by rw [← hs1]; simp
  have l1 : Local k s s1 := by rw [← hs1]; exact .modTube k s _
  have p1 : s1.port = s.port := by rw [← hs1]; rfl
  have pl1 : ∀ l, ((s1.tube k).gas.lines.get l).plate = ((s.tube k).gas.lines.get l).plate := fun l => by
    rw [e1]; simp [Gas.zeroed, LineRec.plate]
  have hb1 := boat_adopt_rest (s.tube k).boat (s.binding.get k).boat value (s.tube k).header.inThreshold hk.boatOut
    hk.boatTimer
  have h1 : Halted (s1.tube k) := by
    rw [e1]
    refine ⟨hm, ?_, fun l _ hz => ?_, fun c => absurd rfl c, hb1.1, hb1.2⟩
    · simpa [Gas.zeroed, LineRec.reactive] using hk.purgeInert
    · simp [Gas.zeroed] at hz
  have q1 : (s1.tube k).queue = [] := by rw [e1]; exact hk.idle hm
  have c1 : ClassesAgree s1 k := fun l => by
    rw [l1.binding, ← h.classes k l]
    exact reactive_of_plate (pl1 l)
  have ar := Adopting.reactive (k := k) value Ix8.all s1
  have ai := Adopting.inert value Ix8.all _ (ar.classes c1)
  have aa := ar.trans ai
  generalize (s1.adoptReactive k value Ix8.all).2 = n
  generalize ((s1.adoptReactive k value Ix8.all).1.adoptInert k value Ix8.all).2 = m
  generalize ((s1.adoptReactive k value Ix8.all).1.adoptInert k value Ix8.all).1 = u at aa
  have hz1 : ∀ l, ((s1.tube k).gas.lines.get l).flow = 0 := fun l => by rw [e1]; simp [Gas.zeroed]
  have r1 : (s1.tube k).gas.run = none := by rw [e1]; rfl
  obtain ⟨a, b, c⟩ := adoptEnd_safe (n := n) (aa.halt.halted h1) (aa.halt.queue q1) (aa.halt.noRun h1 r1) fun l hr =>
    aa.halt.flows h1 l (by rw [← reactive_of_plate (aa.halt.plates l)]; exact hr) (hz1 l)
  have le := adoptEnd_local (k := k) u n
  have pe := adoptEnd_port (k := k) u n
  generalize (if n = 0 then u.adoptAborted k else u.adoptAborting k n) = v at a b c le pe
  have hv : ReactiveLaw v := by
    refine h.load hn (fun j => ?_) (le.binding.trans (aa.binding.trans l1.binding))
      (le.cache.trans (aa.cache.trans l1.cache)) (pe.trans (aa.port.trans p1)) ?_
    · by_cases e : j = k
      · subst e
        exact ⟨fun _ => a, fun l => (c l).trans ((aa.halt.plates l).trans (pl1 l)),
          fun _ _ d => by rw [b] at d; cases d⟩
      · have g := (l1.others j e).step (r := False)
        have g2 := (le.others j e).step (r := False)
        rw [aa.others j e] at g2
        exact g.trans g2
    · rw [le.loader, aa.phase, l1.loader]; exact hn
  have hl : v.loader.phase ≠ .ready := by rw [le.loader, aa.phase, l1.loader]; exact hn
  exact ⟨hv.same rfl rfl rfl rfl (.inr ⟨rfl, rfl⟩), hl⟩

theorem ReactiveLaw.adoptTube (h : ReactiveLaw s) (hn : s.loader.phase ≠ .ready) (k : Tube) (ws : List Word) :
    ReactiveLaw (s.adoptTube k ws) := by
  obtain ⟨a, b⟩ := h.adoptedTube hn k ws
  rw [adoptTube_eq]
  exact a.nextAdopt b _

theorem forwardWord_eq (s : State) : s.forwardWord = s ∨ s.loader.job ≠ .idle ∧ ∃ j, s.forwardWord = s.setJob j := by
  unfold State.forwardWord
  split
  · next hj _ =>
    have hi : s.loader.job ≠ .idle := by rw [hj]; simp
    split
    · exact .inl rfl
    · split
      · exact .inr ⟨hi, _, rfl⟩
      · exact .inl rfl
  · exact .inl rfl

theorem ReactiveLaw.forwardWords : ∀ (n : Nat) {s : State}, ReactiveLaw s → ReactiveLaw (State.forwardWords n s)
  | 0, _, h => h
  | n + 1, s, h => by
    unfold State.forwardWords
    refine ReactiveLaw.forwardWords n ?_
    rcases forwardWord_eq s with e | ⟨hi, j, e⟩
    · rw [e]; exact h
    · rw [e]; exact h.setJob (h.jobs hi) j

theorem ReactiveLaw.adoptAdvance (h : ReactiveLaw s) : ReactiveLaw s.adoptAdvance := by
  unfold State.adoptAdvance
  simp only
  have h1 := h.forwardWords 14
  split
  · next hj =>
    split
    · exact h1.adoptTube (h1.jobs (by rw [hj]; simp)) _ _
    · exact h1
  · exact h1

theorem ReactiveLaw.adoptWord (h : ReactiveLaw s) (w : Word) {u : Option Tube} (hj : State.onAdoptJob u s = true) :
    ReactiveLaw (s.adoptWord w) := by
  have hn : s.loader.phase ≠ .ready := h.jobs fun c => by simp [State.onAdoptJob, c] at hj
  unfold State.adoptWord
  split
  · exact (h.setJob hn _).adoptAdvance
  · exact h

end Sys2Proof.Machine
end

