-- ==== Sys2Proof/Laws/ReactiveAccess.lean ====
section
/-! SUPPORT. The part's reactive-gas law through a controller access: its lookup, walk, write-back and dispatch, the root
commands with RELOAD, and the bank trip. -/

namespace Sys2Proof.Machine

variable {s t : State} {k : Tube}

/-! ## The descriptor a cached entry holds -/

/-- R13, R14: a descriptor that agrees with the Binding Table gives a line its record's class. -/
theorem mismatch_class {b : TubeBinding} {c : Six} {d : DescWords} (h : b.mismatch c d = false) {l : Line}
    (hl : d.mark = .line l) : d.reactive = (b.lines.get l).reactive := by
  have hk : d.isBoundKind = true := by
    unfold DescWords.mark at hl
    unfold DescWords.isBoundKind
    split at hl
    · split at hl <;> cases hl
    · next e => simp
    · cases hl
    · cases hl
  unfold TubeBinding.mismatch at h
  split at h
  · rw [hk] at h; cases h
  · simp [hl] at h
  · simp only [hl, Mark.line.injEq, Bool.not_eq_false', Bool.and_eq_true, decide_eq_true_eq, beq_iff_eq] at h
    obtain ⟨⟨⟨rfl, _⟩, e⟩, _⟩ := h
    exact e
  · simp [hl] at h

/-- R12: a MANUAL descriptor is not reactive. -/
theorem manual_inert {d : DescWords} (h : d.wellFormed = true) (hm : d.manual = true) : d.reactive = false := by
  unfold DescWords.wellFormed at h
  split at h
  · cases h
  · simp only [Bool.and_eq_true] at h
    have := h.1.2
    simpa [hm] using this

/-- The two tests a cached descriptor has passed. -/
structure Cached (s : State) (p : Place) (d : DescWords) : Prop where
  formed : d.wellFormed = true
  bound : (s.binding.get p.tube).mismatch p.channel d = false

theorem ReactiveLaw.agrees (h : ReactiveLaw s) {p : Place} {d : DescWords} (hc : Cached s p d) :
    ClassAgrees s p.tube d := fun l hl => by
  rw [h.classes p.tube l, mismatch_class hc.bound hl]

/-! ## Dispatch -/

theorem offWalk_idle (h : t.port.phase = .idle) : t.portOffWalk = true := by simp [State.portOffWalk, h]

/-- A port phase that is no walk and no write-back. -/
theorem ReactiveLaw.setPort (h : ReactiveLaw s) {p : PortPhase} (hp : State.portOffWalk { s with port := { s.port with phase := p } } = true) :
    ReactiveLaw { s with port := { s.port with phase := p } } := h.same rfl rfl rfl rfl (.inl hp)

theorem ReactiveLaw.answer (h : ReactiveLaw s) (a : Answer) : ReactiveLaw (s.answer a) :=
  h.same rfl rfl rfl rfl (.inl rfl)

theorem ReactiveLaw.refuseBank (h : ReactiveLaw s) (a : Access) (e : RefuseReason) : ReactiveLaw (s.refuseBank a e) :=
  h.same rfl rfl rfl rfl (.inl rfl)

theorem ReactiveLaw.refuseAt (h : ReactiveLaw s) (a : Access) (p : Place) (e : RefuseReason) :
    ReactiveLaw (s.refuseAt a p e) := h.same rfl rfl rfl rfl (.inl rfl)

theorem ReactiveLaw.passRead (h : ReactiveLaw s) (a : Access) (x : Addr) : ReactiveLaw (s.passRead a x) := by
  unfold State.passRead
  split
  · exact h.answer _
  · exact h.setPort rfl

theorem ReactiveLaw.passWrite (h : ReactiveLaw s) (a : Access) (x : Addr) (c : Bool) :
    ReactiveLaw (s.passWrite a x c) := by
  unfold State.passWrite
  split
  · exact h.setPort rfl
  · exact h.setPort rfl

theorem ReactiveLaw.dispatchRead (h : ReactiveLaw s) (a : Access) (p : Place) (d : DescWords) :
    ReactiveLaw (s.dispatchRead a p d) := by
  obtain ⟨k, c, n⟩ := p
  unfold State.dispatchRead
  split
  · exact h.passRead _ _
  · exact h.local (Local.tubeRead s ⟨k, c, n⟩) (Step.tubeRead s c n)
  · exact h.passRead _ _

theorem ReactiveLaw.dispatchWrite (h : ReactiveLaw s) (hr : s.loader.phase = .ready) (a : Access) {p : Place}
    {d : DescWords} (hc : Cached s p d) : ReactiveLaw (s.dispatchWrite a p d) := by
  have ha := h.agrees hc
  obtain ⟨k, c, n⟩ := p
  unfold State.dispatchWrite
  split
  · exact h.passWrite _ _ _
  · exact h.local (Local.tubeCommand s a ⟨k, c, n⟩) (Step.tubeCommand s a c n hr)
  · split
    · next hm =>
      exact h.local (Local.manual s a ⟨k, c, n⟩ d)
        (Step.manual s a c n d fun l hl => (ha l hl).trans (manual_inert hc.formed hm))
    · exact h.local (Local.accept s a ⟨k, c, n⟩ d) (Step.accept s a c n d ha)

/-- R22, steps 4 to 8, for an access whose way of the cache holds its channel. -/
theorem ReactiveLaw.afterLookup (h : ReactiveLaw s) (hr : s.loader.phase = .ready) {acc : Access} {p : Place} {way : Ix4}
    (hp : s.placeOf acc = p) (hh : (s.cacheEntry p way).holds p.tube p.channel = true) :
    ReactiveLaw (s.afterLookup acc p way) := by
  unfold State.afterLookup
  simp only
  split
  · exact h.refuseAt _ _ _
  · split
    · exact h.dispatchRead _ _ _
    · split
      · obtain ⟨a, b⟩ := h.cache p way hh
        exact h.dispatchWrite hr _ ⟨a, b⟩
      · refine ⟨h.tubes, h.classes, h.cache, h.loading, h.jobs, fun _ => hr, fun acc' way' g => ?_⟩
        rcases g with ⟨w, g⟩ | g
        · cases g
        · cases g
          have e : State.placeOf { s with port := { s.port with phase := .useWriteBack acc way } } acc = p := hp
          rw [e]
          exact hh

theorem ReactiveLaw.lookup (h : ReactiveLaw s) (hr : s.loader.phase = .ready) {acc : Access} {p : Place}
    (hp : s.placeOf acc = p) : ReactiveLaw (s.lookup acc p) := by
  unfold State.lookup
  simp only
  have h1 : ReactiveLaw { s with replacement := s.replacement + 1 } := h.same rfl rfl rfl rfl (.inr ⟨rfl, rfl⟩)
  split
  · next way hw =>
    have hh := List.find?_some (p := fun w => (s.cacheEntry p w).holds p.tube p.channel) hw
    exact h1.afterLookup hr hp hh
  · refine ⟨h1.tubes, h1.classes, h1.cache, h1.loading, h1.jobs, fun _ => hr, fun acc' way' g => ?_⟩
    rcases g with ⟨w, g⟩ | g <;> cases g

/-! ## Walks and write-backs -/

theorem channel_of_set_tag {c d : Six} (hs : cacheSet c = cacheSet d) (ht : cacheTag c = cacheTag d) : c = d := by
  revert hs ht
  have : ∀ c d : Fin 64, cacheSet (BitVec.ofFin c) = cacheSet (BitVec.ofFin d) →
      cacheTag (BitVec.ofFin c) = cacheTag (BitVec.ofFin d) → (BitVec.ofFin c : Six) = BitVec.ofFin d := by
    intro c d hs ht
    have h1 := congrArg BitVec.toNat ht
    have h2 := congrArg Ix4.toNat hs
    have m : ∀ n, (Ix4.ofMod n).toNat = n % 4 := fun n => by
      unfold Ix4.ofMod
      split
      · simp [Ix4.toNat]; omega
      · split
        · simp [Ix4.toNat]; omega
        · split
          · simp [Ix4.toNat]; omega
          · simp [Ix4.toNat]; omega
    simp only [cacheTag, cacheSet, BitVec.toNat_ofNat, BitVec.toNat_ofFin, m] at h1 h2
    have := c.isLt
    have := d.isLt
    congr 1
    apply Fin.ext
    omega
  exact this c.toFin d.toFin

theorem setCacheEntry_get (s : State) (p q : Place) (way v : Ix4) (e : CacheEntry) :
    (s.setCacheEntry p way e).cacheEntry q v
      = if cacheSet q.channel = cacheSet p.channel ∧ v = way then e else s.cacheEntry q v := by
  simp only [State.setCacheEntry, State.cacheEntry, Four.get_set]
  by_cases h1 : cacheSet q.channel = cacheSet p.channel
  · by_cases h2 : v = way
    · simp [h1, h2, Four.get_set]
    · simp [h1, h2, Four.get_set]
  · simp [h1]

/-- An entry put in the cache in READY; a write-back that waits after it is that entry's. -/
theorem ReactiveLaw.setEntry {u : State} (h : ReactiveLaw s) (hr : s.loader.phase = .ready) {p : Place} {way : Ix4}
    {e : CacheEntry} (ht : u.tubes = s.tubes) (hb : u.binding = s.binding)
    (hc : u.cache = (s.setCacheEntry p way e).cache) (hl : u.loader = s.loader) (ho : u.root = s.root)
    (he : ∀ q : Place, cacheSet q.channel = cacheSet p.channel → e.holds q.tube q.channel = true →
      e.words.wellFormed = true ∧ (s.binding.get q.tube).mismatch q.channel e.words = false)
    (hw : ∀ acc v, ((∃ w, u.port.phase = .fillWriteBack acc v w) ∨ u.port.phase = .useWriteBack acc v) →
      v = way ∧ s.placeOf acc = p ∧ e.holds p.tube p.channel = true) : ReactiveLaw u := by
  have hx : ∀ q v, u.cacheEntry q v
      = if cacheSet q.channel = cacheSet p.channel ∧ v = way then e else s.cacheEntry q v := fun q v => by
    rw [← setCacheEntry_get]
    simp only [State.cacheEntry, hc]
  refine ⟨fun k => ?_, fun k l => ?_, fun q v g => ?_, fun c => ?_, fun g => ?_, fun _ => by rw [hl]; exact hr,
    fun acc v g => ?_⟩
  · rw [State.tube, ht]; exact h.tubes k
  · rw [State.lineRec, State.tube, ht, hb]; exact h.classes k l
  · rw [hx] at g ⊢
    rw [hb]
    split at g
    · next hq => rw [if_pos hq]; exact he q hq.1 g
    · next hq => rw [if_neg hq]; exact h.cache q v g
  · rw [hl] at c; exact absurd hr c
  · rw [hl] at g ⊢; exact h.jobs g
  · obtain ⟨e1, e2, e3⟩ := hw acc v g
    rw [placeOf_congr ho, e2, hx, if_pos ⟨rfl, e1⟩]
    exact e3

theorem filledEntry_holds (p : Place) (d : DescWords) (w : Word) : (filledEntry p d w).holds p.tube p.channel = true := by
  simp [filledEntry, CacheEntry.holds]

theorem filledEntry_sound {p : Place} {d : DescWords} (hf : d.wellFormed = true)
    (hm : (s.binding.get p.tube).mismatch p.channel d = false) (w : Word) (q : Place)
    (hs : cacheSet q.channel = cacheSet p.channel) (g : (filledEntry p d w).holds q.tube q.channel = true) :
    (filledEntry p d w).words.wellFormed = true
      ∧ (s.binding.get q.tube).mismatch q.channel (filledEntry p d w).words = false := by
  simp only [filledEntry, CacheEntry.holds, Bool.and_eq_true, beq_iff_eq, true_and] at g
  have ec : p.channel = q.channel := channel_of_set_tag hs.symm g.2
  have et : p.tube = q.tube := of_decide_eq_true g.1
  refine ⟨hf, ?_⟩
  rw [← et, ← ec]
  exact hm

/-- The port waits for no write-back. -/
def NoWriteBack (s : State) : Prop :=
  ∀ acc v, ¬ ((∃ w, s.port.phase = .fillWriteBack acc v w) ∨ s.port.phase = .useWriteBack acc v)

theorem ReactiveLaw.fillWalk (h : ReactiveLaw s) (hr : s.loader.phase = .ready) (hn : NoWriteBack s) {acc : Access}
    {p : Place} (hp : s.placeOf acc = p) {d : DescWords} (hf : d.wellFormed = true)
    (hm : (s.binding.get p.tube).mismatch p.channel d = false) (w6 : Word) (victim : Ix4) :
    ReactiveLaw (s.fillWalk acc p d w6 victim) := by
  unfold State.fillWalk
  simp only
  split
  · have h1 : ReactiveLaw (s.setCacheEntry p (s.fillWay p victim) (filledEntry p d w6)) :=
      h.setEntry hr rfl rfl rfl rfl rfl (filledEntry_sound hf hm w6) fun acc v g => absurd g (hn acc v)
    refine h1.afterLookup hr hp ?_
    rw [setCacheEntry_get, if_pos ⟨rfl, rfl⟩]
    exact filledEntry_holds _ _ _
  · refine h.setEntry hr rfl rfl rfl rfl rfl (filledEntry_sound hf hm w6) fun acc' v g => ?_
    rcases g with ⟨w, g⟩ | g
    · cases g
      exact ⟨rfl, hp, filledEntry_holds _ _ _⟩
    · cases g

theorem ReactiveLaw.decideWalk (h : ReactiveLaw s) (hr : s.loader.phase = .ready) (hn : NoWriteBack s) (acc : Access)
    (ws : List Word) (victim : Ix4) : ReactiveLaw (s.decideWalk acc ws victim) := by
  have hrefuse : ∀ (r : RefuseReason) (c : FaultCode) (w : Word),
      ReactiveLaw (s.refuseWalk acc (s.placeOf acc) r c w) := fun r c w => h.same rfl rfl rfl rfl (.inl rfl)
  unfold State.decideWalk
  simp only
  split
  · exact hrefuse _ _ _
  · split
    · exact hrefuse _ _ _
    · next hf =>
      split
      · exact hrefuse _ _ _
      · next hm => exact h.fillWalk hr hn rfl (by simpa using hf) (by simpa using hm) _ _

theorem ReactiveLaw.walkWord (h : ReactiveLaw s) (w : Word) : ReactiveLaw (s.walkWord w) := by
  unfold State.walkWord
  split
  · next acc ws victim hp =>
    have hr : s.loader.phase = .ready := h.walks (by simp [State.portOffWalk, hp])
    have hn : NoWriteBack s := fun a v g => by rw [hp] at g; rcases g with ⟨w, g⟩ | g <;> cases g
    split
    · refine ⟨h.tubes, h.classes, h.cache, h.loading, h.jobs, fun _ => hr, fun acc' way' g => ?_⟩
      rcases g with ⟨w, g⟩ | g <;> cases g
    · exact h.decideWalk hr hn _ _ _
  · exact h

/-- R19: W_KNOWN is recorded in the entry whose write-back completes. -/
theorem ReactiveLaw.markKnown (h : ReactiveLaw s) {acc : Access} {way : Ix4}
    (hp : s.port.phase = .useWriteBack acc way) :
    ReactiveLaw (s.setCacheEntry (s.placeOf acc) way { s.cacheEntry (s.placeOf acc) way with wKnown := true }) := by
  have hr : s.loader.phase = .ready := h.walks (by simp [State.portOffWalk, hp])
  refine h.setEntry hr rfl rfl rfl rfl rfl (fun q hs g => ?_) fun acc' v g => ?_
  · have e : s.cacheEntry q way = s.cacheEntry (s.placeOf acc) way := by simp only [State.cacheEntry, hs]
    have := h.cache q way (by rw [e]; exact g)
    rwa [e] at this
  · have e : (s.setCacheEntry (s.placeOf acc) way { s.cacheEntry (s.placeOf acc) way with wKnown := true }).port.phase
        = .useWriteBack acc way := hp
    rw [e] at g
    rcases g with ⟨w, g⟩ | g
    · cases g
    · cases g
      exact ⟨rfl, rfl, h.writeBacks acc way (.inr hp)⟩

theorem ReactiveLaw.statusWriteBack (h : ReactiveLaw s) {v : State} (hv : execStatusWriteBack s = .next v) :
    ReactiveLaw v := by
  have h1 := h.openBus .walk
  unfold execStatusWriteBack at hv
  simp only at hv
  generalize s.openBus .walk = s1 at h1 hv
  obtain ⟨b, m, ec⟩ := completeBus_eq s1
  have hcb : ReactiveLaw s1.completeBus := h1.completeBus
  split at hv
  · next acc way w _ hp =>
    cases hv
    have hr : s1.loader.phase = .ready := h1.walks (by simp [State.portOffWalk, hp])
    refine ReactiveLaw.finish _ (hcb.afterLookup (by rw [ec]; exact hr) (by rw [ec]; rfl) ?_)
    rw [ec]
    exact h1.writeBacks acc way (.inl ⟨w, hp⟩)
  · next acc way _ hp =>
    cases hv
    have hr : s1.loader.phase = .ready := h1.walks (by simp [State.portOffWalk, hp])
    have hk := hcb.markKnown (acc := acc) (way := way) (by rw [ec]; exact hp)
    rw [ec] at hk ⊢
    refine ReactiveLaw.finish _ (hk.dispatchWrite hr acc ?_)
    obtain ⟨a, c⟩ := h1.cache (s1.placeOf acc) way (h1.writeBacks acc way (.inr hp))
    exact ⟨a, c⟩
  · cases hv; exact h1

/-! ## Root commands -/

theorem invalidate_holds {e : CacheEntry} {t : Tube} {c : Six} : e.invalidate.holds t c = false := by
  simp [CacheEntry.invalidate, CacheEntry.holds]

/-- Entries that are invalidated, or stay. -/
theorem ReactiveLaw.flushed {u : State} (h : ReactiveLaw s) (ht : u.tubes = s.tubes) (hb : u.binding = s.binding)
    (hl : u.loader = s.loader) (hp : u.portOffWalk = true)
    (hc : ∀ i w, (u.cache.get i).get w = (s.cache.get i).get w ∨ (u.cache.get i).get w = ((s.cache.get i).get w).invalidate) :
    ReactiveLaw u := by
  refine ⟨fun k => ?_, fun k l => ?_, fun q v g => ?_, fun c => ?_, fun g => ?_, fun g => absurd g (by rw [hp]; simp),
    fun acc v g => (no_writeBack hp g).elim⟩
  · rw [State.tube, ht]; exact h.tubes k
  · rw [State.lineRec, State.tube, ht, hb]; exact h.classes k l
  · rw [hb]
    rcases hc (cacheSet q.channel) v with e | e
    · have e' : u.cacheEntry q v = s.cacheEntry q v := e
      rw [e'] at g ⊢
      exact h.cache q v g
    · have e' : u.cacheEntry q v = (s.cacheEntry q v).invalidate := e
      rw [e', invalidate_holds] at g
      cases g
  · rw [hl] at c
    obtain ⟨a, b⟩ := h.loading c
    refine ⟨fun k => by rw [State.tube, ht]; exact a k, fun i w => ?_⟩
    rcases hc i w with e | e
    · rw [e]; exact b i w
    · rw [e]; rfl
  · rw [hl] at g ⊢; exact h.jobs g

theorem ReactiveLaw.flushCommand (h : ReactiveLaw s) (a : Access) : ReactiveLaw (s.flushCommand a) := by
  unfold State.flushCommand
  simp only
  split
  · refine h.flushed rfl rfl rfl rfl fun i w => ?_
    show ((invalidateChannel s.cache _ _).get i).get w = _ ∨ ((invalidateChannel s.cache _ _).get i).get w = _
    unfold invalidateChannel
    rw [Four.get_set]
    split
    · next e =>
      subst e
      rw [Four.get_map]
      split
      · exact .inr rfl
      · exact .inl rfl
    · exact .inl rfl
  · split
    · refine h.flushed rfl rfl rfl rfl fun i w => .inr ?_
      show ((s.cache.map (Four.map CacheEntry.invalidate)).get i).get w = _
      rw [Four.get_map, Four.get_map]
    · exact h.refuseBank _ _

theorem abandonRecord_eq (s : State) : ∃ b n, s.abandonRecord = { s with bus := b, notices := n } := by
  have hw : ∀ (u : State) r, ∃ b, u.withdrawRequest r = { u with bus := b } := fun u r => by
    unfold State.withdrawRequest
    split
    · exact ⟨_, rfl⟩
    · exact ⟨_, rfl⟩
  unfold State.abandonRecord
  split
  · obtain ⟨b, e⟩ := hw s .notice
    rw [e]
    exact ⟨_, _, rfl⟩
  · exact ⟨_, _, rfl⟩

theorem abandonReads_eq (s : State) : ∃ b n, s.abandonReads = { s with bus := b, notices := n } := by
  have hw : ∀ (u : State) r, ∃ b, u.withdrawRequest r = { u with bus := b } := fun u r => by
    unfold State.withdrawRequest
    split
    · exact ⟨_, rfl⟩
    · exact ⟨_, rfl⟩
  unfold State.abandonReads
  obtain ⟨b, e⟩ := hw s .walk
  rw [e]
  obtain ⟨b2, e2⟩ := hw (State.abandonAccess { s with bus := b } .walk) .scan
  rw [e2]
  obtain ⟨b3, n, e3⟩ := abandonRecord_eq ((({ State.abandonAccess { s with bus := b } .walk with bus := b2 } : State)).abandonAccess .scan)
  exact ⟨b3, n, e3⟩

theorem reload_tube (s : State) (straps : BitVec 4) (k : Tube) : (s.reload straps).tube k = (s.tube k).reload := by
  obtain ⟨b, n, e⟩ := abandonReads_eq s
  unfold State.reload
  simp only [e]
  unfold State.reloadMonitor
  simp only
  split <;> exact Four.get_map _ _ _

theorem ReactiveLaw.reload (h : ReactiveLaw s) (hp : s.port.phase = .idle) (hr : s.reloadable = true)
    (straps : BitVec 4) : ReactiveLaw (s.reload straps) := by
  have hm : ∀ k, (s.tube k).mode = .aborted := fun k => by
    simp only [State.reloadable, Bool.and_eq_true, List.all_eq_true] at hr
    have := hr.1 k (Ix4.mem_all k)
    simp only [decide_eq_true_eq] at this
    exact this.1
  have ho : (s.reload straps).portOffWalk = true := by
    refine offWalk_idle ?_
    obtain ⟨b, n, e⟩ := abandonReads_eq s
    unfold State.reload
    simp only [e]
    unfold State.reloadMonitor
    simp only
    split <;> exact hp
  have hcache : ∀ i w, (((s.reload straps).cache.get i).get w).valid = false := fun i w => by
    unfold State.reload
    simp only [Four.get_map]
    rfl
  refine ⟨fun k => ?_, fun k l => ?_, fun q v g => ?_, fun _ => ⟨fun k => ?_, hcache⟩, fun _ => by simp [State.reload],
    fun g => absurd g (by rw [ho]; simp), fun acc v g => (no_writeBack ho g).elim⟩
  · rw [reload_tube]
    have hq : (s.tube k).queue = [] := (h.tubes k).idle (by rw [hm k]; rfl)
    exact ⟨by simp [TubeState.reload, hq], by simp [TubeState.reload, Gas.reset, LineRec.reset],
      fun l c => by simp [TubeState.reload, Gas.reset, LineRec.reset] at c, fun c => (nomatch c), fun c => absurd rfl c,
      fun _ => hq, fun _ => rfl, fun c => absurd rfl c⟩
  · have e : (s.reload straps).lineRec k l = ((s.reload straps).tube k).gas.lines.get l := rfl
    rw [e, reload_tube]
    have eb : (s.reload straps).binding = Four.fill TubeBinding.empty := rfl
    rw [eb]
    simp [TubeState.reload, Gas.reset, LineRec.reset, TubeBinding.empty]
  · have := hcache (cacheSet q.channel) v
    have e : (s.reload straps).cacheEntry q v = ((s.reload straps).cache.get (cacheSet q.channel)).get v := rfl
    rw [e] at g
    simp [CacheEntry.holds, this] at g
  · rw [reload_tube]
    simp [TubeState.reload, hm k, Mode.working]

theorem ReactiveLaw.rootAccess (h : ReactiveLaw s) (hp : s.port.phase = .idle) (a : Access) (w : Six)
    (straps : BitVec 4) : ReactiveLaw (s.rootAccess a w straps) := by
  unfold State.rootAccess
  split
  · exact h.setPort rfl
  · split
    · unfold State.consumerWrite
      split
      · exact h.passWrite _ _ _
      · exact h.refuseBank _ _
    · split
      · exact h.refuseBank _ _
      · unfold State.serviceRootWrite
        split
        · unfold State.rootCommand
          split
          · exact h.flushCommand _
          · unfold State.reloadCommand
            split
            · next hr => exact (h.reload hp hr straps).answer _
            · exact h.refuseBank _ _
          · unfold State.tripCommand
            split
            · refine ReactiveLaw.answer ?_ _
              unfold State.clearTrip
              split
              · exact h.same rfl rfl rfl rfl (.inr ⟨rfl, rfl⟩)
              · exact h
            · exact h.refuseBank _ _
          · exact h.refuseBank _ _
        · refine ReactiveLaw.passWrite ?_ _ _ _
          exact h.same rfl rfl rfl rfl (.inl (offWalk_idle hp))
        · exact h.refuseBank _ _
        · exact h.refuseBank _ _
        · exact h.refuseBank _ _
        · exact h.passWrite _ _ _

theorem ReactiveLaw.classify (h : ReactiveLaw s) (hp : s.port.phase = .idle) (a : Access) (straps : BitVec 4) :
    ReactiveLaw (s.classify a straps) := by
  unfold State.classify
  split
  · exact h.rootAccess hp _ _ _
  · split
    · next p hw =>
      unfold State.channelAccess
      split
      · exact h.refuseAt _ _ _
      · exact h.refuseAt _ _ _
      · next hr =>
        split
        · exact h.lookup hr (by simp [State.placeOf, hw])
        · exact h.refuseAt _ _ _
    · unfold State.passThrough
      split
      · exact h.passRead _ _
      · split
        · exact h.refuseBank _ _
        · exact h.passWrite _ _ _

theorem ReactiveLaw.takeAccess (h : ReactiveLaw s) (a : Access) (straps : BitVec 4) :
    ReactiveLaw (s.takeAccess a straps) := by
  unfold State.takeAccess
  split
  · next hp =>
    refine ReactiveLaw.finish _ (h.advance.classify ?_ a straps)
    rw [(Finished.advance s).port]
    exact hp
  · exact h

/-! ## Aborts and trips -/

theorem ReactiveLaw.abortTube (h : ReactiveLaw s) (q : AbortRequest) : ReactiveLaw (s.abortTube q) :=
  h.local (Local.abortTube s q) (Step.abortTube s q rfl)

theorem ReactiveLaw.takeAbort (h : ReactiveLaw s) (q : AbortRequest) : ReactiveLaw (s.takeAbort q) := by
  unfold State.takeAbort
  split
  · exact h
  · split
    · exact h.abortTube q
    · exact h.abortTube q
    · exact h.same rfl rfl rfl rfl (.inr ⟨rfl, rfl⟩)
    · exact h.same rfl rfl rfl rfl (.inr ⟨rfl, rfl⟩)

theorem ReactiveLaw.foldl {α : Type} {f : State → α → State} (hf : ∀ s a, ReactiveLaw s → ReactiveLaw (f s a)) :
    ∀ (l : List α) {s : State}, ReactiveLaw s → ReactiveLaw (l.foldl f s)
  | [], _, h => h
  | a :: l, _, h => ReactiveLaw.foldl hf l (hf _ a h)

theorem ReactiveLaw.takeTrip (h : ReactiveLaw s) (q : TripRequest) : ReactiveLaw (s.takeTrip q) := by
  unfold State.takeTrip
  split
  · exact h.same rfl rfl rfl rfl (.inr ⟨rfl, rfl⟩)
  · unfold State.firstTrip
    simp only
    exact ReactiveLaw.foldl (fun s t hs => hs.abortTube (tripAbort q t)) _
      (h.same rfl rfl rfl rfl (.inr ⟨rfl, rfl⟩))

end Sys2Proof.Machine
end

