-- ==== Sys2Proof/Laws/Events.lean ====
section
/-! SUPPORT. What a step can do, said once: every step is a chain of `Event`s, so a law that each of them keeps is kept by
every step. -/

namespace Sys2Proof.Machine

variable {s t u : State}

/-- Nothing that the laws of tubes, claims and the load read has changed. -/
structure Unmoved (s u : State) : Prop where
  tubes : u.tubes = s.tubes
  root : u.root = s.root
  binding : u.binding = s.binding
  cache : u.cache = s.cache
  loader : u.loader = s.loader
  capacity : u.budget.capacity = s.budget.capacity
  slots : u.budget.slots = s.budget.slots
  claims : u.budget.claims = s.budget.claims
  latch : u.abort.latch = s.abort.latch
  port : PortKept s u

theorem Unmoved.refl (s : State) : Unmoved s s := ⟨rfl, rfl, rfl, rfl, rfl, rfl, rfl, rfl, rfl, .inr ⟨rfl, rfl⟩⟩

theorem Unmoved.trans (h : Unmoved s t) (g : Unmoved t u) : Unmoved s u :=
  ⟨g.tubes.trans h.tubes, g.root.trans h.root, g.binding.trans h.binding, g.cache.trans h.cache, g.loader.trans h.loader,
    g.capacity.trans h.capacity, g.slots.trans h.slots, g.claims.trans h.claims, g.latch.trans h.latch, h.port.trans g.port⟩

theorem Unmoved.foldl {α : Type} {f : State → α → State} (hf : ∀ s a, Unmoved s (f s a)) :
    ∀ (l : List α) (s : State), Unmoved s (l.foldl f s)
  | [], s => .refl s
  | a :: l, s => (hf s a).trans (Unmoved.foldl hf l _)

/-- The things a step is made of. -/
inductive Event : State → State → Prop
  | unmoved {s u : State} (h : Unmoved s u) : Event s u
  | elapse (s : State) (n : Nat) : Event s (s.elapse n)
  | finish (before s : State) : Event s (before.finish s)
  | reset (s : State) (straps : BitVec 4) (m : Memory) (p : List Instr) (n : Nat) :
      Event s { State.afterReset straps m p with freeCount := n }
  | rootWord {s : State} (w : Word) (h : s.onRootJob = true) : Event s (s.rootWord w)
  | tubeWord {s : State} (w : Word) (o : Option Tube) (h : State.onTubeJob o s = true) : Event s (s.tubeWord w)
  | scanWord {s : State} (w : Word) (h : s.onScanJob = true) : Event s (s.scanWord w)
  | adoptionStart {s : State} (h : s.loader.job = .adoptWait) :
      Event s ({ s with loader := { s.loader with closing := false } }.nextAdopt Ix4.all)
  | adoptAdvance (s : State) : Event s s.adoptAdvance
  | adoptWord {s : State} (w : Word) (o : Option Tube) (h : State.onAdoptJob o s = true) : Event s (s.adoptWord w)
  | walkWord (s : State) (w : Word) : Event s (s.walkWord w)
  | fillDone {s : State} {acc : Access} {way : Ix4} {b : Bool} (h : s.port.phase = .fillWriteBack acc way b) :
      Event s (s.afterLookup acc (s.placeOf acc) way)
  | useDone {s : State} {acc : Access} {way : Ix4} (h : s.port.phase = .useWriteBack acc way) :
      Event s ((s.setCacheEntry (s.placeOf acc) way { s.cacheEntry (s.placeOf acc) way with wKnown := true }).dispatchWrite
        acc (s.placeOf acc) (s.cacheEntry (s.placeOf acc) way).words)
  | classify {s : State} (acc : Access) (straps : BitVec 4) (h : s.port.phase = .idle) : Event s (s.classify acc straps)
  | entryExpired {s : State} {k : Tube} {e d : HeldEntry} (h : (s.tube k).queue.find? (fun f => f.ticket == e.ticket) = some d)
      (hd : d.state = e.state) : Event s (s.entryExpired k e)
  | gapExpired (s : State) (k : Tube) : Event s (s.gapExpired k)
  | stepExpired (s : State) (k : Tube) : Event s (s.stepExpired k)
  | settleExpired (s : State) (k : Tube) : Event s (s.settleExpired k)
  | motionExpired {s : State} {k : Tube} (h : (s.tube k).boat.motionTimer ≠ none) : Event s (s.motionExpired k)
  | sampleExpired {s : State} {k : Tube} (h : (s.tube k).gas.sampleTimer ≠ none) : Event s (s.sampleExpired k)
  | purgeLimitExpired (s : State) (k : Tube) : Event s (s.purgeLimitExpired k)
  | lineArrives (s : State) (k : Tube) (l : Line) (v : Word) : Event s (s.lineArrives ⟨k, l, v⟩)
  | abortClaimExpired (s : State) (k : Tube) : Event s (s.abortClaimExpired k)
  | takeAbort (s : State) (r : AbortRequest) : Event s (s.takeAbort r)
  | takeTrip (s : State) (r : TripRequest) : Event s (s.takeTrip r)

/-- A chain of events. -/
inductive Events : State → State → Prop
  | refl (s : State) : Events s s
  | tail {s t u : State} (h : Events s t) (g : Event t u) : Events s u

theorem Event.one (h : Event s t) : Events s t := .tail (.refl s) h

theorem Events.trans (h : Events s t) (g : Events t u) : Events s u := by
  induction g with
  | refl => exact h
  | tail _ g ih => exact .tail ih g

theorem Unmoved.events (h : Unmoved s t) : Events s t := (Event.unmoved h).one

theorem Events.still (h : Events s t) (g : Unmoved t u) : Events s u := .tail h (.unmoved g)

theorem Events.finish (before : State) (h : Events s t) : Events s (before.finish t) := .tail h (.finish _ _)

/-- A law every event keeps is kept by a chain. -/
theorem Events.keep {J : State → Prop} (hj : ∀ s t, J s → Event s t → J t) (h : Events s t) (hs : J s) : J t := by
  induction h with
  | refl => exact hs
  | tail _ g ih => exact hj _ _ ih g

/-! ## The bus -/

theorem Unmoved.completeBus (s : State) : Unmoved s s.completeBus := by
  obtain ⟨b, m, e⟩ := completeBus_eq s
  rw [e]; exact { Unmoved.refl s with port := .inr ⟨rfl, rfl⟩ }

theorem Unmoved.advance (s : State) : Unmoved s s.advance := by
  have h1 : Unmoved s s.takeDue := by
    unfold State.takeDue
    split
    · exact { Unmoved.refl s with port := .inr ⟨rfl, rfl⟩ }
    · exact .refl s
  unfold State.advance
  refine h1.trans ?_
  generalize s.takeDue = v
  unfold State.arbitrate
  split
  · exact .refl v
  · split
    · exact .refl v
    · split
      · exact .refl v
      · unfold State.grantBus State.onGrant
        split
        · exact { Unmoved.refl v with port := .inr ⟨rfl, rfl⟩ }
        · split <;> exact { Unmoved.refl v with port := .inr ⟨rfl, rfl⟩ }
        · exact { Unmoved.refl v with port := .inr ⟨rfl, rfl⟩ }

theorem Events.openBus (s : State) (r : Requester) : Events s (s.openBus r) := by
  unfold State.openBus State.dropDiscarded
  have h := (Unmoved.advance s).events
  split
  · exact h
  · split
    · exact (h.still (.completeBus _)).finish _
    · exact h

theorem Events.takeWords {r : Requester} {ready : State → Bool} {f : State → Word → State}
    (hf : ∀ s w, ready s = true → Events s (f s w)) (hr : ∀ s b m, ready { s with bus := b, mem := m } = ready s) :
    ∀ (n : Nat) (s : State), Events s (takeWords r ready f n s)
  | 0, s => .refl s
  | n + 1, s => by
    unfold Machine.takeWords
    split
    · exact .refl s
    · split
      · next hs =>
        refine Events.trans (((Unmoved.completeBus s).events.trans (hf _ _ ?_)).finish s) (Events.takeWords hf hr n _)
        obtain ⟨b, m, e⟩ := completeBus_eq s
        rw [e, hr]; exact hs
      · exact .refl s

/-! ## Things that leave tubes, claims and the load alone -/

theorem Unmoved.modAbort (s : State) (f : AbortControl → AbortControl) (h : (f s.abort).latch = s.abort.latch) :
    Unmoved s (s.modAbort f) := { Unmoved.refl s with latch := h, port := .inr ⟨rfl, rfl⟩ }

theorem Unmoved.modMonitor (s : State) (f : Monitor → Monitor) : Unmoved s (s.modMonitor f) :=
  { Unmoved.refl s with port := .inr ⟨rfl, rfl⟩ }

theorem Unmoved.place (s : State) (n : Notice) : Unmoved s (s.place n) := { Unmoved.refl s with port := .inr ⟨rfl, rfl⟩ }

theorem Unmoved.modScanner (s : State) (f : Scanner → Scanner) : Unmoved s (s.modScanner f) :=
  { Unmoved.refl s with port := .inr ⟨rfl, rfl⟩ }

theorem Unmoved.modNotices (s : State) (f : NoticeWriter → NoticeWriter) : Unmoved s (s.modNotices f) :=
  { Unmoved.refl s with port := .inr ⟨rfl, rfl⟩ }

theorem Unmoved.requestAbort (s : State) (r : AbortRequest) : Unmoved s (s.requestAbort r) := .modAbort s _ rfl

theorem Unmoved.scanArrived (s : State) (p : Pass) (v : Word) : Unmoved s (s.scanArrived p v) := by
  have same : ∀ (s : State) m a, Unmoved s { s with measured := m, arrivals := a } := fun s _ _ =>
    { Unmoved.refl s with port := .inr ⟨rfl, rfl⟩ }
  unfold State.scanArrived
  split
  · exact .modScanner _ _
  · next r _ =>
    refine Unmoved.trans (t := ((s.sampleTarget r.target v).handSample r.target v).limitCheck p.index r v) ?_ (.modScanner _ _)
    refine Unmoved.trans (t := s.sampleTarget r.target v) ?_ (.trans (t := (s.sampleTarget r.target v).handSample r.target v) ?_ ?_)
    · unfold State.sampleTarget
      split
      · exact .refl s
      · exact same s _ s.arrivals
    · generalize s.sampleTarget r.target v = s1
      unfold State.handSample
      split
      · split
        · exact same s1 s1.measured _
        · exact .refl _
      · exact .refl _
    · generalize (s.sampleTarget r.target v).handSample r.target v = s2
      have hc : ∀ n, Unmoved s2 (s2.setCounter p.index r n) := fun n => .modScanner _ _
      unfold State.limitCheck
      split
      · exact .refl _
      · split
        · exact hc _
        · split
          · refine (hc 0).trans ?_
            generalize s2.setCounter p.index r 0 = s3
            unfold State.scanAction
            split
            · exact .refl _
            · split
              · exact .modAbort _ _ rfl
              · split
                · exact .requestAbort _ _
                · exact Unmoved.foldl (f := fun acc t => acc.requestAbort _) (fun s _ => .requestAbort s _) _ _
          · exact hc _

theorem Unmoved.passDone (s : State) (a : Access) (c : Bool) (w : Word) : Unmoved s (s.passDone a c w) := by
  have ans : ∀ (s : State) (x : Answer), Unmoved s (s.answer x) := fun s _ => { Unmoved.refl s with port := .inl rfl }
  unfold State.passDone
  simp only
  have h1 : Unmoved s (if c = true then s.completeBus.consumerWritten a.value.toNat else s.completeBus) := by
    refine (Unmoved.completeBus s).trans ?_
    split
    · unfold State.consumerWritten
      simp only
      split
      · split
        · exact ((Unmoved.modNotices _ _).trans (.modMonitor _ _)).trans (.place _ _)
        · exact (Unmoved.modNotices _ _).trans (.modMonitor _ _)
      · exact .modNotices _ _
    · exact .refl _
  split
  · exact h1.trans (ans _ _)
  · exact h1.trans (ans _ _)

theorem Unmoved.serviceAborts (s : State) : Unmoved s s.serviceAborts := by
  unfold State.serviceAborts
  exact Unmoved.foldl (fun s _ => Unmoved.requestAbort s _) _ _

theorem Unmoved.serviceExpired (s : State) : Unmoved s s.serviceExpired := by
  unfold State.serviceExpired
  simp only
  split
  · exact .modMonitor _ _
  · split
    · exact (((Unmoved.modMonitor s _).trans (.modMonitor _ _)).trans ((Unmoved.modMonitor _ _).trans (.place _ _))).trans (.serviceAborts _)
    · exact (Unmoved.modMonitor s _).trans (.modMonitor _ _)

/-! ## Commands -/

theorem Events.takeAccess (s : State) (a : Access) (straps : BitVec 4) : Events s (s.takeAccess a straps) := by
  unfold State.takeAccess
  split
  · next hp =>
    refine Events.finish _ (.tail (Unmoved.advance s).events (.classify a straps ?_))
    rw [(Finished.advance s).port]; exact hp
  · exact .refl s

/-- An expiry: the time left passes, the expiry is taken, and what follows an event follows. -/
theorem Events.expiry (before : State) (n : Nat) {f : State → State} (h : Event (s.elapse n) (f (s.elapse n))) :
    Events s (before.finish (f (s.elapse n))) := Events.finish _ (.tail (Event.elapse s n).one h)

theorem Events.statusWriteBack (h : execStatusWriteBack s = .next t) : Events s t := by
  have h1 := Events.openBus s .walk
  unfold execStatusWriteBack at h
  simp only at h
  generalize s.openBus .walk = s1 at h1 h
  obtain ⟨b, m, ec⟩ := completeBus_eq s1
  have hc : Events s s1.completeBus := h1.still (.completeBus s1)
  rw [ec] at hc h
  split at h
  · next acc way w _ hp => cases h; exact Events.finish _ (.tail hc (.fillDone hp))
  · next acc way _ hp => cases h; exact Events.finish _ (.tail hc (.useDone hp))
  · cases h; exact h1

theorem Events.noticeRecordTake (n : Nat) (h : execNoticeRecordTake n s = .next t) : Events s t := by
  unfold execNoticeRecordTake at h
  simp only at h
  cases h
  have h1 := Events.openBus s .notice
  generalize s.openBus .notice = s1 at h1
  refine Events.trans ?_ (Events.takeWords (fun s w _ => (Unmoved.modNotices s _).events) (fun _ _ _ => rfl) n _)
  split
  · exact (h1.still (.modNotices s1 _)).finish _
  · exact h1

set_option maxHeartbeats 1000000 in
theorem exec_events {i : Instr} (h : exec i s = .next t) : Events s t := by
  cases i <;> simp only [exec] at h
  case reset straps => cases h; exact (Event.reset _ _ _ _ _).one
  case rootRead n =>
    cases h
    exact (Events.openBus s _).trans (.takeWords (fun s w hj => (Event.rootWord w hj).one) (fun _ _ _ => rfl) n _)
  case tubeLoad n =>
    cases h
    exact (Events.openBus s _).trans (.takeWords (fun s w hj => (Event.tubeWord w _ hj).one) (fun _ _ _ => rfl) n _)
  case scanListLoad n =>
    cases h
    exact (Events.openBus s _).trans (.takeWords (fun s w hj => (Event.scanWord w hj).one) (fun _ _ _ => rfl) n _)
  case adoptionStart =>
    unfold execAdoptionStart at h
    simp only at h
    split at h
    · next hm =>
      cases h
      simp only [State.adoptionMayStart, Bool.and_eq_true, decide_eq_true_eq] at hm
      exact Events.finish _ (.tail (.openBus s _) (.adoptionStart hm.1))
    · cases h; exact .openBus s _
  case tubeAdopt n =>
    cases h
    exact (Events.finish _ (.tail (.openBus s _) (.adoptAdvance _))).trans
      (.takeWords (fun s w hj => (Event.adoptWord w _ hj).one) (fun _ _ _ => rfl) n _)
  case consumerAdvance =>
    unfold execConsumerAdvance at h; simp only at h
    split at h
    · cases h; exact ((Events.openBus s _).still (.passDone _ _ _ _)).finish _
    · cases h; exact .openBus s _
  case passWriteDeferred =>
    unfold execPassWriteDeferred at h
    split at h
    · next acc a consumer _ =>
      split at h
      · cases h
        exact (Unmoved.events (t := { s with port := { s.port with phase := .pass acc a consumer } })
          { Unmoved.refl s with port := .inl rfl }).finish _
      · cases h; exact .refl s
    · cases h; exact .refl s
  case passAccessComplete =>
    unfold execPassAccessComplete at h; simp only at h
    split at h
    · cases h; exact ((Events.openBus s _).still (.passDone _ _ _ _)).finish _
    · cases h; exact .openBus s _
  case descWalk n =>
    cases h
    exact (Events.openBus s _).trans (.takeWords (fun s w _ => (Event.walkWord s w).one) (fun _ _ _ => rfl) n _)
  case statusWriteBack => exact .statusWriteBack h
  case entryExpiry k n =>
    unfold execEntryExpiry at h
    split at h
    · cases h; exact .refl s
    · next e he =>
      split at h
      · cases h; exact .refl s
      · next r _ =>
        cases h
        have hn : e.ticket = n := by
          have := List.find?_some he
          simpa using this
        refine Events.expiry (f := fun s => s.entryExpired k e) _ r (.entryExpired (d := { e with timer := Timer.pass r e.timer }) ?_ rfl)
        subst hn
        rw [tube_elapse]
        show ((s.tube k).queue.map _).find? _ = _
        rw [List.find?_map]
        exact congrArg (Option.map _) he
  case releaseGapExpiry k =>
    unfold execReleaseGapExpiry at h
    split at h
    · cases h; exact .refl s
    · cases h; exact .expiry (f := fun s => s.gapExpired k) _ _ (.gapExpired _ _)
  case stepExpiry k =>
    unfold execStepExpiry at h
    split at h
    · cases h; exact .refl s
    · cases h; exact .expiry (f := fun s => s.stepExpired k) _ _ (.stepExpired _ _)
  case settleExpiry k =>
    unfold execSettleExpiry at h
    split at h
    · cases h; exact .refl s
    · cases h; exact .expiry (f := fun s => s.settleExpired k) _ _ (.settleExpired _ _)
  case motionExpiry k =>
    unfold execMotionExpiry at h
    split at h
    · cases h; exact .refl s
    · next r hr =>
      cases h
      refine .expiry (f := fun s => s.motionExpired k) _ _ (.motionExpired ?_)
      rw [tube_elapse]; simp [TubeState.pass, hr, Timer.pass]
  case sampleExpiry k =>
    unfold execSampleExpiry at h
    split at h
    · cases h; exact .refl s
    · next r hr =>
      cases h
      refine .expiry (f := fun s => s.sampleExpired k) _ _ (.sampleExpired ?_)
      rw [tube_elapse]; simp [TubeState.pass, hr, Timer.pass]
  case purgeLimitExpiry k =>
    unfold execPurgeLimitExpiry at h
    split at h
    · cases h; exact .refl s
    · cases h; exact .expiry (f := fun s => s.purgeLimitExpired k) _ _ (.purgeLimitExpired _ _)
  case lineSampleArrival =>
    unfold execLineSampleArrival at h
    split at h
    · cases h; exact .refl s
    · next a rest _ =>
      cases h
      obtain ⟨k, l, v⟩ := a
      exact Events.finish _ (.tail (Unmoved.events (t := { s with arrivals := rest })
        { Unmoved.refl s with port := .inr ⟨rfl, rfl⟩ }) (.lineArrives _ k l v))
  case scrubberExpiry =>
    unfold execScrubberExpiry at h
    split at h
    · cases h; exact .refl s
    · cases h
      exact Events.finish _ (.tail (Event.elapse s _).one (.unmoved { Unmoved.refl _ with port := .inr ⟨rfl, rfl⟩ }))
  case abortRequest =>
    unfold execAbortRequest at h
    split at h
    · cases h; exact .refl s
    · cases h; exact Events.finish _ (.tail (Unmoved.modAbort s _ rfl).events (.takeAbort _ _))
  case bankTrip =>
    unfold execBankTrip at h
    split at h
    · cases h; exact .refl s
    · cases h; exact Events.finish _ (.tail (Unmoved.modAbort s _ rfl).events (.takeTrip _ _))
  case abortClaimExpiry k =>
    unfold execAbortClaimExpiry at h
    split at h
    · cases h; exact .refl s
    · cases h; exact .expiry (f := fun s => s.abortClaimExpired k) _ _ (.abortClaimExpired _ _)
  case scanExpiry =>
    unfold execScanExpiry at h
    split at h
    · cases h; exact .refl s
    · next r _ =>
      cases h
      refine Events.finish _ (.tail (Event.elapse s r).one (.unmoved ?_))
      generalize s.elapse r = u
      unfold State.scanExpired
      simp only
      split
      · exact { Unmoved.refl u with port := .inr ⟨rfl, rfl⟩ }
      · split
        · exact { Unmoved.refl u with port := .inr ⟨rfl, rfl⟩ }
        · exact { Unmoved.refl u with port := .inr ⟨rfl, rfl⟩ }
  case scanArrival b =>
    unfold execScanArrival at h; simp only at h
    split at h
    · cases h
      have hb : ∀ (u : State) (x : Addr), Unmoved u (u.boardWrite x b) := fun u x => by
        unfold State.boardWrite
        split
        · exact .refl u
        · exact { Unmoved.refl u with port := .inr ⟨rfl, rfl⟩ }
      exact Events.finish _ ((Events.openBus s .scan).still ((hb _ _).trans ((Unmoved.completeBus _).trans (.scanArrived _ _ _))))
    · cases h; exact .openBus s _
  case staleExpiry =>
    unfold execStaleExpiry at h
    split at h
    · cases h; exact .refl s
    · cases h
      exact Events.finish _ (.tail (Event.elapse s _).one (.unmoved { Unmoved.refl _ with port := .inr ⟨rfl, rfl⟩ }))
  case serviceExpiry =>
    unfold execServiceExpiry at h
    split at h
    · cases h; exact .refl s
    · cases h; exact Events.finish _ (.tail (Event.elapse s _).one (.unmoved (.serviceExpired _)))
  case deliverWriteComplete =>
    unfold execDeliverWriteComplete at h; simp only at h
    split at h
    · cases h; exact ((Events.openBus s _).still (.completeBus _)).finish _
    · cases h; exact .openBus s _
  case noticeRecordTake n => exact .noticeRecordTake n h
  case producerAdvance =>
    unfold execProducerAdvance at h; simp only at h
    split at h
    · cases h; exact ((Events.openBus s _).still ((Unmoved.completeBus _).trans (.modNotices _ _))).finish _
    · cases h; exact .openBus s _
  case rootWordWrite =>
    unfold execRootWordWrite at h; simp only at h
    split at h
    · cases h; exact ((Events.openBus s _).still ((Unmoved.completeBus _).trans (.modNotices _ _))).finish _
    · cases h; exact .openBus s _
  all_goals (cases h; exact .takeAccess s _ _)

/-- Every step is a chain of events. -/
theorem step_events (h : step s = .next t) : Events s t := by
  unfold step at h
  split at h
  · cases h; exact Events.finish _ (Event.elapse s 1).one
  · next c rest _ =>
    exact (Unmoved.events (t := { s with pending := rest }) { Unmoved.refl s with port := .inr ⟨rfl, rfl⟩ }).trans (exec_events h)

end Sys2Proof.Machine
end

