-- ==== Sys2Proof/Laws/Quiet.lean ====
section
/-! SUPPORT. Events that examine no head, or none of a tube in RUN: what follows them leaves every tube, the budget and the
notices as they are (`Still`). -/

namespace Sys2Proof.Machine

/-! ## Heads that cannot be released -/

/-- R36, test 1: the head of a tube that is not in RUN is examined without effect. -/
theorem examine_of_not_run {s : State} {t : Tube} (h : (s.tube t).mode ≠ .run) : s.examine t = s := by
  have loop : ∀ n, State.examineLoop State.rescan t n s = s := by
    intro n
    cases n with
    | zero => rfl
    | succ n =>
      unfold State.examineLoop
      split
      · rfl
      · have : ∀ e, s.firstFailure t e = some .mode := fun e => by simp [State.firstFailure, h]
        simp [this]
  exact loop _

/-- A tube without held writes is examined without effect. -/
theorem examine_of_empty {s : State} {t : Tube} (h : (s.tube t).queue = []) : s.examine t = s := by
  have loop : ∀ n, State.examineLoop State.rescan t n s = s := by
    intro n
    cases n with
    | zero => rfl
    | succ n => unfold State.examineLoop; simp [h]
  exact loop _

/-- No head of a tube in RUN is due for an examination after the event that left `after`. -/
def NoneDue (before after : State) : Prop :=
  ∀ k, (after.tube k).queue = [] ∨ (after.tube k).mode ≠ .run ∨ before.headView k = after.headView k

theorem mem_dueHeads {before after : State} {k : Tube} (h : k ∈ dueHeads before after) :
    (after.tube k).queue ≠ [] ∧ before.headView k ≠ after.headView k := by
  simpa [dueHeads] using (List.mem_filter.mp h).2

theorem mem_of_mem_eraseIdx {α : Type} {x : α} {l : List α} {n : Nat} (h : x ∈ l.eraseIdx n) : x ∈ l :=
  List.mem_of_mem_eraseIdx h

theorem mem_pickOrder {x : Tube} : ∀ {fuel k : Nat} {l : List Tube}, x ∈ pickOrder fuel k l → x ∈ l
  | 0, _, _, h => h
  | _ + 1, _, [], h => h
  | fuel + 1, k, a :: l, h => by
    simp only [pickOrder, List.mem_cons] at h
    rcases h with h | h
    · rw [h, List.getD_eq_getElem?_getD]
      have : k % (l.length + 1) < (a :: l).length := by simpa using Nat.mod_lt _ (Nat.succ_pos _)
      rw [List.getElem?_eq_getElem this]
      exact List.getElem_mem this
    · exact mem_of_mem_eraseIdx (mem_pickOrder h)

theorem examineOrder_shape (s : State) (due : List Tube) :
    (∃ n, (examineOrder s due).2 = { s with freeCount := n }) ∧ ∀ k ∈ (examineOrder s due).1, k ∈ due := by
  unfold examineOrder
  split
  · exact ⟨⟨_, rfl⟩, by simp⟩
  · exact ⟨⟨_, rfl⟩, by simp⟩
  · exact ⟨⟨_, rfl⟩, fun k h => mem_pickOrder h⟩

/-- With no head of a tube in RUN due, the examinations change nothing but the model's own counter. -/
theorem examineChanged_of_none_due {before after : State} (h : NoneDue before after) :
    ∀ n, ∃ m, State.examineChanged n before after = { after with freeCount := m }
  | 0 => ⟨_, rfl⟩
  | n + 1 => by
    unfold State.examineChanged
    split
    · exact ⟨_, rfl⟩
    · obtain ⟨⟨m, hm⟩, ho⟩ := examineOrder_shape after (dueHeads before after)
      have hx : ∀ (l : List Tube), (∀ k ∈ l, k ∈ dueHeads before after) →
          l.foldl State.examine { after with freeCount := m } = { after with freeCount := m } := by
        intro l
        induction l with
        | nil => intro _; rfl
        | cons k l ih =>
          intro hl
          have hk := mem_dueHeads (hl k (by simp))
          have hr : (after.tube k).mode ≠ .run := (h k).resolve_left hk.1 |>.resolve_right hk.2
          rw [List.foldl_cons, examine_of_not_run (s := { after with freeCount := m }) hr]
          exact ih fun j hj => hl j (by simp [hj])
      simp only []
      rw [hm, hx _ ho]
      have hd : dueHeads after { after with freeCount := m } = [] := by
        have hv : ∀ k, State.headView { after with freeCount := m } k = after.headView k := fun _ => rfl
        simp [dueHeads, hv]
      cases n with
      | zero => exact ⟨_, rfl⟩
      | succ n => exact ⟨m, by simp only [State.examineChanged, hd]⟩

/-! ## What follows such an event -/

/-- What the due words and the next grant can do. -/
structure Still (s t : State) : Prop extends Finished s t where
  tube : ∀ k, t.tube k = s.tube k
  claims : t.budget = s.budget
  kept : t.notices.buffer = s.notices.buffer
  lost : t.notices.lost = s.notices.lost
  underway : DeliveryOk s.delivery → ∀ b, t.underway b = s.underway b

theorem Still.freeCount (s : State) (n : Nat) : Still s { s with freeCount := n } :=
  { Finished.refl s with tube := fun _ => rfl, claims := rfl, kept := rfl, lost := rfl, underway := fun _ _ => rfl }

theorem Still.trans {s t u : State} (h : Still s t) (g : Still t u) : Still s u :=
  { h.toFinished.trans g.toFinished with
    tube := fun k => (g.tube k).trans (h.tube k)
    claims := g.claims.trans h.claims
    kept := g.kept.trans h.kept
    lost := g.lost.trans h.lost
    underway := fun hd b => (g.underway (h.delivery hd) b).trans (h.underway hd b) }

theorem Still.markStatus (before s : State) : Still s (before.markStatus s) := by
  have h : before.markStatus s = s ∨ before.markStatus s = s.modNotices fun w => { w with dueStatus := true } := by
    unfold State.markStatus; split
    · exact .inl rfl
    · exact .inr rfl
  refine { Finished.markStatus before s with tube := ?_, claims := ?_, kept := ?_, lost := ?_, underway := ?_ }
  all_goals rcases h with h | h <;> rw [h] <;> intros <;> rfl

theorem notices_arbitrate (s : State) :
    s.arbitrate.notices.buffer = s.notices.buffer ∧ s.arbitrate.notices.lost = s.notices.lost := by
  unfold State.arbitrate
  split
  · exact ⟨rfl, rfl⟩
  · split
    · exact ⟨rfl, rfl⟩
    · split
      · exact ⟨rfl, rfl⟩
      · unfold State.grantBus State.onGrant
        split
        · exact ⟨rfl, rfl⟩
        · split <;> exact ⟨rfl, rfl⟩
        · exact ⟨rfl, rfl⟩

theorem notices_takeDue (s : State) :
    s.takeDue.notices.buffer = s.notices.buffer ∧ s.takeDue.notices.lost = s.notices.lost := by
  unfold State.takeDue; split <;> exact ⟨rfl, rfl⟩

theorem Still.advance (s : State) : Still s s.advance := by
  obtain ⟨b, d, n, h⟩ := advance_eq s
  have h1 := notices_arbitrate s.takeDue
  have h2 := notices_takeDue s
  exact { Finished.advance s with
    tube := fun k => by rw [h]; rfl
    claims := by rw [h]
    kept := h1.1.trans h2.1
    lost := h1.2.trans h2.2
    underway := fun hd b => underway_advance hd b }

/-- What follows an event after which no head of a tube in RUN is due. -/
theorem Still.finish {before after : State} (h : NoneDue before after) : Still after (before.finish after) := by
  obtain ⟨m, hm⟩ := examineChanged_of_none_due h 4
  unfold State.finish
  rw [hm]
  exact ((Still.freeCount after m).trans (.markStatus before _)).trans (.advance _)

/-! ## What a head's view depends on -/

/-- The records of a tube that R40 lists, unchanged. -/
structure SameView (x y : TubeState) : Prop where
  mode : y.mode = x.mode
  atmosphere : y.gas.atmosphere = x.gas.atmosphere
  boatState : y.boat.state = x.boat.state
  boatDir : y.boat.direction = x.boat.direction
  position : y.boat.delivered = x.boat.delivered
  thermal : y.ramp.thermal = x.ramp.thermal
  cause : y.ramp.cause = x.ramp.cause
  direction : y.ramp.direction = x.ramp.direction
  temperatures : y.ramp.zones.map (·.delivered) = x.ramp.zones.map (·.delivered)
  slotHeld : y.ramp.slotHeld = x.ramp.slotHeld
  flows : ∀ l, (y.gas.lines.get l).flow = (x.gas.lines.get l).flow
  head : y.queue.head?.map HeldEntry.kind = x.queue.head?.map HeldEntry.kind

theorem SameView.refl (x : TubeState) : SameView x x :=
  ⟨rfl, rfl, rfl, rfl, rfl, rfl, rfl, rfl, rfl, rfl, fun _ => rfl, rfl⟩

/-- The throttles and the Service Monitor, unchanged. -/
structure SameActs (s t : State) : Prop where
  ring : t.ringActs = s.ringActs
  stale : t.staleActs = s.staleActs
  scrubber : t.scrubberActs = s.scrubberActs
  lapsed : t.monitor.lapsed = s.monitor.lapsed

theorem headView_congr {s t : State} {k : Tube} (h : SameActs s t) (hk : SameView (s.tube k) (t.tube k)) :
    s.headView k = t.headView k := by
  simp only [State.headView, h.ring, h.stale, h.scrubber, h.lapsed, hk.mode, hk.atmosphere, hk.boatState, hk.boatDir,
    hk.position, hk.thermal, hk.cause, hk.direction, hk.temperatures, hk.slotHeld, hk.flows, hk.head]

theorem Local.acts {k : Tube} {s t : State} (h : Local k s t) : SameActs s t where
  ring := by unfold State.ringActs NoticeWriter.ringLow NoticeWriter.freeRecords; rw [← h.writer]; rfl
  stale := by unfold State.staleActs; rw [h.scanner, ← h.writer]
  scrubber := by unfold State.scrubberActs; rw [← h.budget]
  lapsed := by rw [h.monitor]

/-- An event of tube `k` that changes no record of R40 causes no examination. -/
theorem Local.noneDue {k : Tube} {s t : State} (h : Local k s t) (ho : ∀ j, j ≠ k → t.tube j = s.tube j)
    (hk : (t.tube k).queue = [] ∨ (t.tube k).mode ≠ .run ∨ SameView (s.tube k) (t.tube k)) : NoneDue s t := fun j => by
  by_cases e : j = k
  · subst e
    exact hk.imp_right (Or.imp_right (headView_congr h.acts))
  · exact .inr (.inr (headView_congr h.acts (by rw [ho j e]; exact .refl _)))

/-- The frame of an event that keeps what `TubeKept` says of its tube. -/
theorem Local.elsewhere_none {k : Tube} {s t : State} (h : Local k s t) (hk : TubeKept (s.tube k) (t.tube k)) :
    Elsewhere none s t :=
  { h.elsewhere with
    others := fun j _ => if e : j = k then e ▸ hk else (h.others j e).kept }

theorem TubeKept.refl (x : TubeState) : TubeKept x x :=
  ⟨rfl, rfl, rfl, rfl, rfl, rfl, rfl, rfl, rfl, rfl, fun _ => rfl, fun _ => rfl, fun _ => rfl, rfl⟩

theorem TubeKept.trans {x y z : TubeState} (h : TubeKept x y) (g : TubeKept y z) : TubeKept x z where
  mode := g.mode.trans h.mode
  nextTicket := g.nextTicket.trans h.nextTicket
  lastIssued := g.lastIssued.trans h.lastIssued
  latchHeld := g.latchHeld.trans h.latchHeld
  latchValue := g.latchValue.trans h.latchValue
  abortCause := g.abortCause.trans h.abortCause
  abortBegin := g.abortBegin.trans h.abortBegin
  header := g.header.trans h.header
  boatBound := g.boatBound.trans h.boatBound
  boatDelivered := g.boatDelivered.trans h.boatDelivered
  zoneBound := fun z => (g.zoneBound z).trans (h.zoneBound z)
  zoneDelivered := fun z => (g.zoneDelivered z).trans (h.zoneDelivered z)
  lines := fun l => by have a := h.lines l; have b := g.lines l; rw [← b] at a; exact a
  summary := by have a := h.summary; have b := g.summary; rw [a] at b; exact b

theorem Elsewhere.trans {k : Option Tube} {s t u : State} (h : Elsewhere k s t) (g : Elsewhere k t u) : Elsewhere k s u where
  pending := g.pending.trans h.pending
  mem := g.mem.trans h.mem
  straps := g.straps.trans h.straps
  clock := g.clock.trans h.clock
  root := g.root.trans h.root
  cache := g.cache.trans h.cache
  binding := g.binding.trans h.binding
  scanner := g.scanner.trans h.scanner
  measured := g.measured.trans h.measured
  arrivals := g.arrivals.trans h.arrivals
  monitor := g.monitor.trans h.monitor
  loader := g.loader.trans h.loader
  latch := ⟨g.latch.1.trans h.latch.1, g.latch.2.1.trans h.latch.2.1, g.latch.2.2.trans h.latch.2.2⟩
  pools := by have a := h.pools; have b := g.pools; rw [← b] at a; exact a
  ring := ⟨g.ring.1.trans h.ring.1, g.ring.2.trans h.ring.2⟩
  others := fun j hj => (h.others j hj).trans (g.others j hj)

/-! ## Accesses whose event touches no tube -/

/-- What an access leaves that is decided in one event, where no head is due after it. -/
theorem Still.ofAccess {s : State} {acc : Access} {straps : BitVec 4} {v : State} (hp : s.port.phase = .idle)
    (hv : s.advance.classify acc straps = v) (h : NoneDue s.advance v) :
    Still v (s.takeAccess acc straps) := by
  unfold State.takeAccess
  rw [if_pos hp, hv]
  exact Still.finish h

/-- The state a refusal leaves before what follows it: one notice placed and the port answered. -/
theorem noneDue_refused (s : State) (n : Notice) (a : Answer) : NoneDue s ((s.place n).answer a) :=
  Local.noneDue (k := .i0) ((Local.place _ _ _).trans (.answer _ _ _)) (fun _ _ => rfl) (.inr (.inr (.refl _)))

/-- R24: an access that ends in a refusal touches no tube, and its notice is the first placed. -/
theorem refused_access {s : State} {acc : Access} {straps : BitVec 4} {n : Notice} (hp : s.port.phase = .idle)
    (hv : s.advance.classify acc straps = (s.advance.place n).answer .errorAcknowledge) :
    Refuses s (s.takeAccess acc straps) n ∧ Elsewhere none s (s.takeAccess acc straps)
      ∧ (s.takeAccess acc straps).abort = s.abort ∧ (s.takeAccess acc straps).replacement = s.replacement
      ∧ ∀ k, (s.takeAccess acc straps).tube k = s.tube k := by
  have h := Still.ofAccess hp hv (noneDue_refused _ _ _)
  have ha := Still.advance s
  have hn : Local .i0 s.advance ((s.advance.place n).answer .errorAcknowledge) :=
    (Local.place _ _ _).trans (.answer _ _ _)
  refine ⟨⟨h.port, ?_⟩, ?_, h.abort.trans ha.abort, h.replacement.trans ha.replacement,
    fun k => (h.tube k).trans (ha.tube k)⟩
  · exact Reports.of_place ha.kept h.clock ⟨[], by rw [List.append_nil]; exact h.kept⟩
  · exact (ha.elsewhere.trans (hn.elsewhere_none (.refl _))).trans h.elsewhere

end Sys2Proof.Machine
end

