-- ==== Sys2Proof/Laws/Claims.lean ====
section
/-! SUPPORT. The Claim List at work: the front claim, scans that grant nothing or one claim (R131), what a grant to a run
does to the list (R99, R132), and what the release of a granted head leaves as it was (`Own`). -/

namespace Sys2Proof.Machine

/-! ## Front claims and scans -/

/-- A front claim stands in the list. -/
theorem mem_front {b : Budget} {p : Pool} {c : Claim} (h : b.front p = some c) : c ∈ b.claims := by
  have := List.mem_of_find?_eq_some h
  simp only [Budget.ordered, List.mem_append, List.mem_filter] at this
  rcases this with (h | h) | h <;> exact h.1

/-- A scan in which no front claim fits grants nothing (R131). -/
theorem scanLoop_no_fit {s : State} (h : ∀ p c, s.budget.front p = some c → s.freeOf p < c.amount) :
    ∀ n p b, State.scanLoop n p b s = s := by
  intro n
  induction n with
  | zero => intro p b; rfl
  | succ n ih =>
    intro p b
    unfold State.scanLoop
    split
    · next c hc =>
      have := h p c hc
      rw [if_neg (by omega)]; cases b
      · simp [ih]
      · rfl
    · cases b
      · simp [ih]
      · rfl

theorem scan_no_fit {s : State} (h : ∀ p c, s.budget.front p = some c → s.freeOf p < c.amount) : s.scan = s :=
  scanLoop_no_fit h _ _ _

theorem isEntry_false {o : Origin} (h : ∀ n ch, o ≠ .entry n ch) : o.isEntry = false := by
  cases o with
  | entry n ch => exact absurd rfl (h n ch)
  | _ => rfl

theorem runGrant_budget (s : State) (t : Tube) : (s.runGrant t).budget = s.budget := by
  unfold State.runGrant; split <;> rfl

/-- A run's grant takes its claim off the list. -/
theorem grant_run_claims {s : State} {c : Claim} (h : ∀ n ch, c.origin ≠ .entry n ch) :
    (s.grant c).budget.claims = s.budget.claims.erase c := by
  unfold State.grant
  simp only [isEntry_false h]
  exact congrArg Budget.claims (runGrant_budget _ _)

theorem map_fresh {old : List Claim} (h : ∀ d ∈ old, d.fresh = false) :
    old.map (fun c => { c with fresh := false }) = old := by
  induction old with
  | nil => rfl
  | cons d l ih =>
    rw [List.map_cons, ih fun x hx => h x (.tail _ hx)]
    have := h d (.head _)
    cases d; simp_all

/-- The free units are decided by the capacity, the tubes present and the flows. -/
theorem freeUnits_same {s t : State} (h1 : t.budget.capacity = s.budget.capacity) (h2 : t.root = s.root)
    (h3 : ∀ j, (t.tube j).gas.lines = (s.tube j).gas.lines) : t.freeUnits = s.freeUnits := by
  unfold State.freeUnits State.bankDraw State.presentTubes State.present
  rw [h1, h2]
  congr 3
  funext j
  unfold Gas.draw; rw [h3]

/-- Nothing follows a freed amount where no front claim fits and no claim has just joined (R131). -/
theorem rescan_no_fit {s : State} (h : ∀ p c, s.budget.front p = some c → s.freeOf p < c.amount)
    (hf : ∀ c ∈ s.budget.claims, c.fresh = false) : s.rescan = s := by
  unfold State.rescan State.announce
  rw [scan_no_fit h]
  have h1 : s.budget.claims.filter (·.fresh) = [] := by
    rw [List.filter_eq_nil_iff]; intro c hc; simp [hf c hc]
  simp only [h1, List.foldl_nil, State.modBudget, map_fresh hf]

/-- The front claim of a list of one. -/
theorem front_one {b : Budget} {c : Claim} (h : b.claims = [c]) (p : Pool) :
    b.front p = if c.pool = p then some c else none := by
  unfold Budget.front Budget.ordered
  rw [h]
  cases hp : c.priority <;> simp [List.find?_cons, hp] <;> split <;> simp_all

theorem scanLoop_none {s : State} (h : s.budget.claims = []) (n : Nat) (p : Pool) (b : Bool) :
    State.scanLoop n p b s = s :=
  scanLoop_no_fit (fun p c hc => by have := mem_front hc; rw [h] at this; cases this) n p b

/-- The list's only claim is granted where it fits and its grant leaves none. -/
theorem rescan_one {s : State} {c : Claim} (h : s.budget.claims = [c]) (hf : c.amount ≤ s.freeOf c.pool)
    (hg : (s.grant c).budget.claims = []) : s.rescan = s.grant c := by
  unfold State.rescan State.scan
  have hn : ∃ n, scanFuel s = n + 2 := ⟨scanFuel s - 2, by unfold scanFuel; omega⟩
  obtain ⟨n, hn⟩ := hn
  have : State.scanLoop (scanFuel s) .exhaust false s = s.grant c := by
    rw [hn]
    cases hp : c.pool
    · unfold State.scanLoop
      rw [front_one h]; simp only [hp]
      rw [hp] at hf
      simp only [if_true]
      rw [if_pos hf, scanLoop_none hg]
    · unfold State.scanLoop
      rw [front_one h]; simp only [hp]
      rw [if_neg (by decide)]
      simp only [Bool.false_eq_true, if_false]
      unfold State.scanLoop
      rw [front_one h]; simp only [hp, Pool.other]
      rw [hp] at hf
      simp only [if_true]
      rw [if_pos hf, scanLoop_none hg]
  rw [this]
  unfold State.announce
  simp only [hg, List.filter_nil, List.foldl_nil, State.modBudget, List.map_nil]
  rw [← hg]

/-! ## What a release leaves as it was -/

/-- The release tests read no more of the part than this. -/
theorem firstFailure_congr {s t : State} {k : Tube} {e f : HeldEntry}
    (h1 : (t.tube k).mode = (s.tube k).mode) (h2 : (t.tube k).gapTimer = (s.tube k).gapTimer)
    (h3 : gateHolds (t.tube k) f = gateHolds (s.tube k) e) (h4 : raisesReactive (t.tube k) f = raisesReactive (s.tube k) e)
    (h5 : t.ringActs = s.ringActs) (h6 : t.staleActs = s.staleActs) (h7 : t.scrubberActs = s.scrubberActs)
    (h8 : t.monitor.lapsed = s.monitor.lapsed) : t.firstFailure k f = s.firstFailure k e := by
  unfold State.firstFailure
  simp only [h1, h2, h3, h4, h5, h6, h7, h8]

/-- A write that adds draw raises the flow. -/
theorem addedDraw_pos {v f w : Nat} (h : 0 < addedDraw v f w) : f < v := by
  apply Nat.lt_of_not_le
  intro hle
  have : drawOf v w ≤ drawOf f w := by
    unfold drawOf hundreds
    exact Nat.mul_le_mul_right _ (Nat.div_le_div_right (by omega))
  unfold addedDraw at h; omega

/-- What the engines do with a released entry of tube `k`: its queue, its last released ticket, the clock and the other
tubes are as they were, and notices are only added. -/
structure Own (k : Tube) (s u : State) : Prop where
  others : ∀ j, j ≠ k → u.tube j = s.tube j
  queue : (u.tube k).queue = (s.tube k).queue
  last : (u.tube k).lastReleased = (s.tube k).lastReleased
  clock : u.clock = s.clock
  buffer : ∃ l, u.notices.buffer = s.notices.buffer ++ l

theorem Own.refl (k : Tube) (s : State) : Own k s s := ⟨fun _ _ => rfl, rfl, rfl, rfl, [], by simp⟩

theorem Own.trans {k : Tube} {s u v : State} (h : Own k s u) (g : Own k u v) : Own k s v where
  others j hj := (g.others j hj).trans (h.others j hj)
  queue := g.queue.trans h.queue
  last := g.last.trans h.last
  clock := g.clock.trans h.clock
  buffer := by obtain ⟨l, h⟩ := h.buffer; obtain ⟨m, g⟩ := g.buffer; exact ⟨l ++ m, by rw [g, h, List.append_assoc]⟩

theorem tube_setTube_ne (s : State) {k j : Tube} (x : TubeState) (h : j ≠ k) : (s.setTube k x).tube j = s.tube j := by
  cases k <;> cases j <;> first | rfl | exact absurd rfl h

theorem tube_modTube_eq (s : State) (k : Tube) (f : TubeState → TubeState) :
    (s.modTube k f).tube k = f (s.tube k) := tube_setTube_self _ _ _

theorem Own.modTube {k : Tube} (s : State) (f : TubeState → TubeState) (h : (f (s.tube k)).queue = (s.tube k).queue)
    (g : (f (s.tube k)).lastReleased = (s.tube k).lastReleased) : Own k s (s.modTube k f) where
  others j hj := tube_setTube_ne _ _ hj
  queue := by rw [State.modTube, tube_setTube_self, h]
  last := by rw [State.modTube, tube_setTube_self, g]
  clock := rfl
  buffer := ⟨[], (List.append_nil _).symm⟩

theorem Own.modRamp {k : Tube} (s : State) (f : Ramp → Ramp) : Own k s (s.modRamp k f) := Own.modTube s _ rfl rfl

theorem Own.modGas {k : Tube} (s : State) (f : Gas → Gas) : Own k s (s.modGas k f) := Own.modTube s _ rfl rfl

theorem Own.modBoat {k : Tube} (s : State) (f : Boat → Boat) : Own k s (s.modBoat k f) := Own.modTube s _ rfl rfl

theorem Own.modSummary {k : Tube} (s : State) (f : Summary → Summary) :
    Own k s (s.modSummary k f) := Own.modTube s _ rfl rfl

theorem Own.deliver {k : Tube} (s : State) (a : Addr) (v : Word) (b : Bool) : Own k s (s.deliver a v b) :=
  ⟨fun _ _ => rfl, rfl, rfl, rfl, [], (List.append_nil _).symm⟩

theorem Own.joinClaim {k : Tube} (s : State) (t : Tube) (p : Pool) (n : Nat) (r : Priority) (c : Origin) :
    Own k s (s.joinClaim t p n r c) :=
  ⟨fun _ _ => rfl, rfl, rfl, rfl, [], (List.append_nil _).symm⟩

theorem Own.place {k : Tube} (s : State) (n : Notice) : Own k s (s.place n) := by
  refine ⟨fun _ _ => rfl, rfl, rfl, rfl, ?_⟩
  unfold State.place State.modNotices
  by_cases h : s.notices.buffer.length < 8
  · exact ⟨_, by simp only [if_pos h]; rfl⟩
  · exact ⟨[], by simp only [if_neg h]; simp [NoticeWriter.lose]⟩

theorem Own.setFlow {k : Tube} (s : State) (l : Line) (v : Word) (b : Bool) : Own k s (s.setFlow k l v b) :=
  (Own.modGas s _).trans (.deliver _ _ _ _)

theorem Own.freeSlot {k : Tube} (s : State) : Own k s (s.freeSlot absorbed k) := by
  unfold State.freeSlot; split
  · exact .modRamp _ _
  · exact .refl _ _

theorem Own.startRun {k : Tube} (s : State) (r : RunStart) : Own k s (s.startRun absorbed k r) := by
  unfold State.startRun
  simp only [absorbed, ite_self]
  split
  · exact ((Own.modGas s _).trans (.setFlow _ _ _ _)).trans (.modGas _ _)
  · exact (Own.modGas s _).trans (.joinClaim _ _ _ _ _ _)

theorem Own.applyEntry {k : Tube} (s : State) (e : HeldEntry) (n : Nat) : Own k s (s.applyEntry absorbed k e n) := by
  unfold State.applyEntry
  split
  · unfold State.applyZone
    simp only []
    split
    · exact (Own.modRamp _ _).trans (.modRamp _ _)
    · split
      · exact (Own.modRamp _ _).trans (.modRamp _ _)
      · exact ((Own.modRamp _ _).trans (.modRamp _ _)).trans (.freeSlot _)
      · exact ((Own.modRamp _ _).trans (.modRamp _ _)).trans (.freeSlot _)
  · unfold State.applyLine
    simp only [absorbed, ite_self]
    split
    · exact (Own.modGas _ _).trans (.deliver _ _ _ _)
    · unfold State.clearingTest State.lowerLine
      simp only [absorbed, ite_self]
      split
      · exact (Own.setFlow _ _ _ _).trans (.startRun _ _)
      · exact .setFlow _ _ _ _
  · unfold State.applyBoat State.boatDone
    simp only []
    split
    · split
      · exact (((Own.modBoat _ _).trans (.modBoat _ _)).trans (.modSummary _ _)).trans (.place _ _)
      · exact (((Own.modBoat _ _).trans (.modBoat _ _)).trans (.modSummary _ _)).trans (.place _ _)
    · exact (Own.modBoat _ _).trans (.modBoat _ _)

/-- An empty queue has no head to examine. -/
theorem examine_empty {s : State} {k : Tube} (f : State → State) (h : (s.tube k).queue = []) :
    s.examineWith f k = s := by
  unfold State.examineWith examineFuel State.examineLoop
  simp only [h]

end Sys2Proof.Machine
end

