-- ==== Sys2Proof/Laws/Ledger.lean ====
section
/-! SUPPORT. The Bank Budget's books (R125 to R128) through releases, grants and scans: `Ledger nr nh s`, which holds between
the steps of an event too. `nr` names tubes whose run has no claim and gets none, `nh` tubes whose queue has none. -/

namespace Sys2Proof.Machine

variable {s u : State} {t k : Tube} {nr nh : Tube → Prop} {rescan : State → State}

/-! ## Sums over lines and tubes -/

theorem gasDraw_set (g : Gas) (l : Line) (r : LineRec) :
    Gas.draw { g with lines := g.lines.set l r } + (g.lines.get l).draw = g.draw + r.draw := by
  unfold Gas.draw
  cases l <;> simp [Eight.toList, Eight.set, Eight.get] <;> omega

theorem setLine_draw {g : Gas} {l : Line} {r : LineRec} {n : Nat} (h : r.draw ≤ (g.lines.get l).draw + n) :
    Gas.draw { g with lines := g.lines.set l r } ≤ g.draw + n := by
  have := gasDraw_set g l r; omega

theorem presentTubes_eq (h : u.root = s.root) : u.presentTubes = s.presentTubes := by
  unfold State.presentTubes State.present; rw [h]

theorem bankDraw_setTube (s : State) (t : Tube) (x : TubeState) :
    (s.setTube t x).bankDraw + (if s.present t = true then (s.tube t).gas.draw else 0)
      = s.bankDraw + (if s.present t = true then x.gas.draw else 0) := by
  have hp : (s.setTube t x).presentTubes = s.presentTubes := presentTubes_eq rfl
  unfold State.bankDraw
  rw [hp]
  unfold State.presentTubes
  cases t <;> cases e0 : s.present .i0 <;> cases e1 : s.present .i1 <;> cases e2 : s.present .i2 <;>
    cases e3 : s.present .i3 <;> simp [Ix4.all, e0, e1, e2, e3, State.tube_setTube] <;> omega

theorem slotHolders_setTube (s : State) (t : Tube) (x : TubeState) :
    (s.setTube t x).slotHolders + (if (s.tube t).ramp.slotHeld = true then 1 else 0)
      = s.slotHolders + (if x.ramp.slotHeld = true then 1 else 0) := by
  unfold State.slotHolders
  cases t <;> cases e0 : (s.tube .i0).ramp.slotHeld <;> cases e1 : (s.tube .i1).ramp.slotHeld <;>
    cases e2 : (s.tube .i2).ramp.slotHeld <;> cases e3 : (s.tube .i3).ramp.slotHeld <;> cases ex : x.ramp.slotHeld <;>
    simp [Ix4.all, e0, e1, e2, e3, ex, State.tube_setTube]

/-! ## The books -/

/-- A head that waits for its claim. -/
def Claiming (x : TubeState) : Prop := ∃ e rest, x.queue = e :: rest ∧ e.state = .claiming

/-- The purge line's record is marked. -/
def TubeState.purgeMarked (x : TubeState) : Prop := (x.gas.lines.get x.header.purgeLine).purge = true

structure Ledger (nr nh : Tube → Prop) (s : State) : Prop where
  draw : s.bankDraw ≤ s.budget.capacity
  slots : s.slotHolders ≤ s.budget.slots
  apart : s.budget.claims.Pairwise fun c d => c.tube = d.tube → c.origin.isEntry ≠ d.origin.isEntry
  heads : ∀ c ∈ s.budget.claims, c.origin.isEntry = true → Claiming (s.tube c.tube)
  runs : ∀ c ∈ s.budget.claims, c.origin.isEntry = false → RunWaits (s.tube c.tube) c
  sampling : ∀ k, (s.tube k).gas.sampleTimer ≠ none → ∃ r, (s.tube k).gas.run = some r ∧ r.phase = .flowing
  marked : ∀ k, s.present k = true ∨ (s.tube k).mode.working = true → (s.tube k).purgeMarked
  entries : ∀ k, ∀ e ∈ (s.tube k).queue, ∀ l r p w, e.kind = .line l r p w → ((s.tube k).gas.lines.get l).purge = p
  bindings : ∀ k l, (s.lineRec k l).purge = ((s.binding.get k).lines.get l).purge
  noRun : ∀ k, nr k → ((s.tube k).gas.atmosphere = .purging ∨ (s.tube k).gas.atmosphere = .clearing)
    ∧ ∀ c ∈ s.budget.claims, c.tube = k → c.origin.isEntry = true
  noHead : ∀ k, nh k → ∀ c ∈ s.budget.claims, c.tube = k → c.origin.isEntry = false

/-- No run claim of a tube waits. -/
def State.NoRunClaim (s : State) (t : Tube) : Prop := ∀ c ∈ s.budget.claims, c.tube = t → c.origin.isEntry = true

/-- No entry claim of a tube waits. -/
def State.NoHeadClaim (s : State) (t : Tube) : Prop := ∀ c ∈ s.budget.claims, c.tube = t → c.origin.isEntry = false

theorem Ledger.same (h : Ledger nr nh s) (ht : u.tubes = s.tubes) (hr : u.root = s.root) (hb : u.binding = s.binding)
    (hc : u.budget.capacity = s.budget.capacity) (hs : u.budget.slots = s.budget.slots)
    (hl : u.budget.claims = s.budget.claims) : Ledger nr nh u := by
  have htu : u.tube = s.tube := funext fun j => by simp only [State.tube, ht]
  have hpr : u.present = s.present := by unfold State.present; rw [hr]
  have hd : u.bankDraw = s.bankDraw := by unfold State.bankDraw; rw [presentTubes_eq hr, htu]
  have ho : u.slotHolders = s.slotHolders := by unfold State.slotHolders; rw [htu]
  refine ⟨by rw [hd, hc]; exact h.draw, by rw [ho, hs]; exact h.slots, by rw [hl]; exact h.apart, by rw [hl, htu]; exact h.heads,
    by rw [hl, htu]; exact h.runs, by rw [htu]; exact h.sampling, by rw [hpr, htu]; exact h.marked, by rw [htu]; exact h.entries,
    ?_, by rw [hl, htu]; exact h.noRun, by rw [hl]; exact h.noHead⟩
  unfold State.lineRec; rw [htu, hb]; exact h.bindings

/-- Fewer claims. -/
theorem Ledger.fewer (h : Ledger nr nh s) (l : List Claim) (hl : l.Sublist s.budget.claims) :
    Ledger nr nh (s.modBudget fun b => { b with claims := l }) where
  draw := h.draw
  slots := h.slots
  apart := h.apart.sublist hl
  heads c hc := h.heads c (hl.subset hc)
  runs c hc := h.runs c (hl.subset hc)
  sampling := h.sampling
  marked := h.marked
  entries := h.entries
  bindings := h.bindings
  noRun k hk := ⟨(h.noRun k hk).1, fun c hc => (h.noRun k hk).2 c (hl.subset hc)⟩
  noHead k hk c hc := h.noHead k hk c (hl.subset hc)

/-- Claims whose priority or freshness changes. -/
theorem Ledger.mapClaims (h : Ledger nr nh s) (f : Claim → Claim)
    (hf : ∀ c, (f c).tube = c.tube ∧ (f c).origin = c.origin ∧ (f c).pool = c.pool ∧ (f c).amount = c.amount) :
    Ledger nr nh (s.modBudget fun b => { b with claims := b.claims.map f }) := by
  have hm : ∀ {q : Claim → Prop}, (∀ c ∈ s.budget.claims, q (f c)) → ∀ c ∈ s.budget.claims.map f, q c := by
    intro q hq c hc
    obtain ⟨d, hd, rfl⟩ := List.mem_map.mp hc
    exact hq d hd
  refine ⟨h.draw, h.slots, ?_, hm fun c hc => ?_, hm fun c hc => ?_, h.sampling, h.marked, h.entries, h.bindings, fun k hk =>
    ⟨(h.noRun k hk).1, hm fun c hc => ?_⟩, fun k hk => hm fun c hc => ?_⟩
  · show (s.budget.claims.map f).Pairwise _
    rw [List.pairwise_map]
    refine h.apart.imp fun {c d} g => ?_
    rw [(hf c).1, (hf d).1, (hf c).2.1, (hf d).2.1]
    exact g
  · rw [(hf c).1, (hf c).2.1]; exact h.heads c hc
  · rw [(hf c).1, (hf c).2.1]
    intro ho
    have g := h.runs c hc ho
    refine ⟨(hf c).2.2.1.trans g.pool, g.owned, g.purge, ?_⟩
    obtain ⟨r, h1, h2, h3⟩ := g.run
    exact ⟨r, h1, h2, by rw [(hf c).2.2.2]; exact h3⟩
  · rw [(hf c).1, (hf c).2.1]; exact (h.noRun k hk).2 c hc
  · rw [(hf c).1, (hf c).2.1]; exact h.noHead k hk c hc

theorem Ledger.weaken {nr' nh' : Tube → Prop} (h : Ledger nr nh s) (hr : ∀ k, nr' k → nr k) (hh : ∀ k, nh' k → nh k) :
    Ledger nr' nh' s :=
  { h with noRun := fun k hk => h.noRun k (hr k hk), noHead := fun k hk => h.noHead k (hh k hk) }

/-- `p` with one tube more. -/
def Also (t : Tube) (p : Tube → Prop) (k : Tube) : Prop := k = t ∨ p k

theorem Ledger.alsoHead (h : Ledger nr nh s) (g : s.NoHeadClaim t) : Ledger nr (Also t nh) s :=
  { h with
    noHead := fun k hk => by
      rcases hk with rfl | hk
      · exact g
      · exact h.noHead k hk }

theorem Ledger.alsoRun (h : Ledger nr nh s) (g : s.NoRunClaim t)
    (ha : (s.tube t).gas.atmosphere = .purging ∨ (s.tube t).gas.atmosphere = .clearing) : Ledger (Also t nr) nh s :=
  { h with
    noRun := fun k hk => by
      rcases hk with rfl | hk
      · exact ⟨ha, g⟩
      · exact h.noRun k hk }

theorem Ledger.dropHead (h : Ledger nr (Also t nh) s) : Ledger nr nh s := h.weaken (fun _ => id) fun _ => .inr

theorem Ledger.dropRun (h : Ledger (Also t nr) nh s) : Ledger nr nh s := h.weaken (fun _ => .inr) fun _ => id

/-- A head that is not CLAIMING has no claim. -/
theorem Ledger.noHeadClaim (h : Ledger nr nh s) (g : ¬ Claiming (s.tube t)) : s.NoHeadClaim t := fun c hc ht => by
  cases he : c.origin.isEntry with
  | false => rfl
  | true => exact absurd (ht ▸ h.heads c hc he) g

/-- A run claim waits only in PURGING and CLEARING. -/
theorem Ledger.noRunClaim (h : Ledger nr nh s)
    (g : ¬ ((s.tube t).gas.atmosphere = .purging ∨ (s.tube t).gas.atmosphere = .clearing)) : s.NoRunClaim t :=
  fun c hc ht => by
    cases he : c.origin.isEntry with
    | true => rfl
    | false => exact absurd (ht ▸ (h.runs c hc he).owned) g

/-! ## A change of one tube -/

/-- An entry that carries its line's mark. -/
def TubeState.Fits (x : TubeState) (e : HeldEntry) : Prop :=
  ∀ l r p w, e.kind = .line l r p w → (x.gas.lines.get l).purge = p

/-- What a change of a tube leaves that the books read. -/
structure TubeBooks (x y : TubeState) : Prop where
  mode : y.mode.working = true → x.mode.working = true ∨ x.purgeMarked
  header : y.header = x.header
  plates : ∀ l, (y.gas.lines.get l).plate = (x.gas.lines.get l).plate
  queue : ∀ e ∈ y.queue, (∃ d ∈ x.queue, d.kind = e.kind) ∨ x.Fits e

theorem purge_of_plate {a b : LineRec} (h : a.plate = b.plate) : a.purge = b.purge := by
  have := congrArg LineRec.purge h
  exact this

theorem weight_of_plate {a b : LineRec} (h : a.plate = b.plate) : a.weight = b.weight := by
  have := congrArg LineRec.weight h
  exact this

theorem Ledger.setTube (h : Ledger nr nh s) {x : TubeState} (hb : TubeBooks (s.tube t) x)
    (hh : s.NoHeadClaim t ∨ (Claiming (s.tube t) → Claiming x))
    (hr : s.NoRunClaim t ∨ ∀ c, RunWaits (s.tube t) c → RunWaits x c)
    (hs : x.gas.sampleTimer ≠ none → ∃ r, x.gas.run = some r ∧ r.phase = .flowing)
    (hd : x.gas.draw ≤ (s.tube t).gas.draw + (s.budget.capacity - s.bankDraw))
    (hl : x.ramp.slotHeld = true → (s.tube t).ramp.slotHeld = true ∨ 0 < s.budget.slots - s.slotHolders)
    (hn : nr t → x.gas.atmosphere = .purging ∨ x.gas.atmosphere = .clearing) : Ledger nr nh (s.setTube t x) := by
  have hx : ∀ j, (s.setTube t x).tube j = if j = t then x else s.tube j := fun j => by simp
  refine ⟨?_, ?_, h.apart, fun c hc he => ?_, fun c hc he => ?_, fun j => ?_, fun j hj => ?_, fun j => ?_, fun j l => ?_,
    fun j hj => ⟨?_, (h.noRun j hj).2⟩, h.noHead⟩
  · have := bankDraw_setTube s t x
    have := h.draw
    show (s.setTube t x).bankDraw ≤ s.budget.capacity
    split at * <;> omega
  · have := slotHolders_setTube s t x
    have := h.slots
    show (s.setTube t x).slotHolders ≤ s.budget.slots
    by_cases hx : x.ramp.slotHeld = true
    · rcases hl hx with g | g
      · rw [if_pos hx, if_pos g] at *; omega
      · rw [if_pos hx] at *; split at * <;> omega
    · rw [if_neg hx] at *; omega
  · rw [hx]
    split
    · next e =>
      rcases hh with g | g
      · rw [g c hc e] at he; cases he
      · exact g (e ▸ h.heads c hc he)
    · exact h.heads c hc he
  · rw [hx]
    split
    · next e =>
      rcases hr with g | g
      · rw [g c hc e] at he; cases he
      · exact g c (e ▸ h.runs c hc he)
    · exact h.runs c hc he
  · rw [hx]
    split
    · exact hs
    · exact h.sampling j
  · rw [hx] at hj ⊢
    split
    · next e =>
      subst e
      rw [if_pos rfl] at hj
      have : (s.tube j).purgeMarked := by
        rcases hj with hj | hj
        · exact h.marked j (.inl hj)
        · exact (hb.mode hj).elim (fun g => h.marked j (.inr g)) id
      unfold TubeState.purgeMarked at this ⊢
      rw [hb.header, purge_of_plate (hb.plates _)]
      exact this
    · next e =>
      rw [if_neg e] at hj
      exact h.marked j hj
  · rw [hx]
    split
    · next e =>
      subst e
      intro e he l r p w hk
      rw [purge_of_plate (hb.plates l)]
      rcases hb.queue e he with ⟨d, hd, hdk⟩ | g
      · exact h.entries j d hd l r p w (hdk.trans hk)
      · exact g l r p w hk
    · exact h.entries j
  · have := h.bindings j l
    unfold State.lineRec at this ⊢
    rw [hx]
    split
    · next e =>
      subst e
      rw [purge_of_plate (hb.plates l)]; exact this
    · exact this
  · rw [hx]
    split
    · next e => subst e; exact hn hj
    · exact (h.noRun j hj).1

/-- A change that leaves gas, header and queue, and takes no slot. -/
structure Benign (x y : TubeState) : Prop where
  mode : y.mode.working = true → x.mode.working = true ∨ x.purgeMarked
  header : y.header = x.header
  lines : y.gas.lines = x.gas.lines
  run : y.gas.run = x.gas.run
  atmosphere : y.gas.atmosphere = x.gas.atmosphere
  sampleTimer : y.gas.sampleTimer ≠ none → x.gas.sampleTimer ≠ none
  queue : y.queue.map (fun e => (e.kind, e.state)) = x.queue.map (fun e => (e.kind, e.state))
  slot : y.ramp.slotHeld = true → x.ramp.slotHeld = true

theorem Benign.books {x y : TubeState} (h : Benign x y) : TubeBooks x y :=
  ⟨h.mode, h.header, fun l => by rw [h.lines], fun e he => by
    have : (e.kind, e.state) ∈ x.queue.map (fun e => (e.kind, e.state)) := by
      rw [← h.queue]; exact List.mem_map_of_mem he
    obtain ⟨d, hd, hk⟩ := List.mem_map.mp this
    exact .inl ⟨d, hd, congrArg Prod.fst hk⟩⟩

theorem Benign.claiming {x y : TubeState} (h : Benign x y) (g : Claiming x) : Claiming y := by
  obtain ⟨e, rest, hq, he⟩ := g
  have := h.queue
  rw [hq] at this
  match hy : y.queue, this with
  | d :: q, this =>
    simp only [List.map_cons, List.cons.injEq, Prod.mk.injEq] at this
    exact ⟨d, q, hy, this.1.2.trans he⟩

theorem Benign.waits {x y : TubeState} (h : Benign x y) {c : Claim} (g : RunWaits x c) : RunWaits y c := by
  obtain ⟨r, h1, h2, h3⟩ := g.run
  exact ⟨g.pool, by rw [h.atmosphere]; exact g.owned, by rw [h.lines, h.header]; exact g.purge, r, h.run.trans h1, h2,
    by rw [h.lines, h.header]; exact h3⟩

theorem Ledger.benign (h : Ledger nr nh s) {x : TubeState} (b : Benign (s.tube t) x) : Ledger nr nh (s.setTube t x) :=
  h.setTube b.books (.inr b.claiming) (.inr fun _ => b.waits)
    (fun g => by rw [b.run]; exact h.sampling t (b.sampleTimer g))
    (by unfold Gas.draw; rw [b.lines]; omega) (fun g => .inl (b.slot g)) fun g => by rw [b.atmosphere]; exact (h.noRun t g).1

/-- Every tube may have changed so. -/
theorem Ledger.allBenign (h : Ledger nr nh s) (ht : ∀ k, Benign (s.tube k) (u.tube k)) (hr : u.root = s.root)
    (hb : u.binding = s.binding) (hc : u.budget.capacity = s.budget.capacity) (hs : u.budget.slots = s.budget.slots)
    (hl : u.budget.claims = s.budget.claims) : Ledger nr nh u := by
  have h0 := h.benign (t := .i0) (ht .i0)
  generalize e0 : s.setTube .i0 (u.tube .i0) = s0 at h0
  have h1 : Ledger nr nh (s0.setTube .i1 (u.tube .i1)) := h0.benign (by rw [← e0, tube_setTube_ne _ _ (by decide)]; exact ht .i1)
  generalize e1 : s0.setTube .i1 (u.tube .i1) = s1 at h1
  have h2 : Ledger nr nh (s1.setTube .i2 (u.tube .i2)) := h1.benign (by
    rw [← e1, tube_setTube_ne _ _ (by decide), ← e0, tube_setTube_ne _ _ (by decide)]; exact ht .i2)
  generalize e2 : s1.setTube .i2 (u.tube .i2) = s2 at h2
  have h3 : Ledger nr nh (s2.setTube .i3 (u.tube .i3)) := h2.benign (by
    rw [← e2, tube_setTube_ne _ _ (by decide), ← e1, tube_setTube_ne _ _ (by decide), ← e0, tube_setTube_ne _ _ (by decide)]
    exact ht .i3)
  refine h3.same ?_ ?_ ?_ ?_ ?_ ?_ <;> subst e2 <;> subst e1 <;> subst e0
  · rfl
  · exact hr
  · exact hb
  · exact hc
  · exact hs
  · exact hl

theorem Ledger.modRamp (h : Ledger nr nh s) (f : Ramp → Ramp)
    (hf : (f (s.tube t).ramp).slotHeld = true → (s.tube t).ramp.slotHeld = true) : Ledger nr nh (s.modRamp t f) :=
  h.benign ⟨.inl, rfl, rfl, rfl, rfl, id, rfl, hf⟩

theorem Ledger.modBoat (h : Ledger nr nh s) (f : Boat → Boat) : Ledger nr nh (s.modBoat t f) :=
  h.benign ⟨.inl, rfl, rfl, rfl, rfl, id, rfl, id⟩

theorem Ledger.modSummary (h : Ledger nr nh s) (f : Summary → Summary) : Ledger nr nh (s.modSummary t f) :=
  h.benign ⟨.inl, rfl, rfl, rfl, rfl, id, rfl, id⟩

theorem Ledger.place (h : Ledger nr nh s) (n : Notice) : Ledger nr nh (s.place n) := h.same rfl rfl rfl rfl rfl rfl

theorem Ledger.deliver (h : Ledger nr nh s) (a : Addr) (v : Word) (b : Bool) : Ledger nr nh (s.deliver a v b) :=
  h.same rfl rfl rfl rfl rfl rfl

/-! ## Claims that join -/

theorem Ledger.join (h : Ledger nr nh s) (p : Pool) (n : Nat) (r : Priority) (o : Origin)
    (hh : o.isEntry = true → Claiming (s.tube t) ∧ s.NoHeadClaim t ∧ ¬ nh t)
    (hr : o.isEntry = false → (∀ c : Claim, c.pool = p → c.amount = n → RunWaits (s.tube t) c) ∧ s.NoRunClaim t ∧ ¬ nr t) :
    Ledger nr nh (s.joinClaim t p n r o) := by
  have hm : ∀ {q : Claim → Prop}, (∀ c ∈ s.budget.claims, q c) → q ⟨t, p, n, r, s.budget.joinCounter, o, true⟩ →
      ∀ c ∈ (s.joinClaim t p n r o).budget.claims, q c := by
    intro q h1 h2 c hc
    rcases List.mem_append.mp hc with hc | hc
    · exact h1 c hc
    · rw [List.mem_singleton.mp hc]; exact h2
  refine ⟨h.draw, h.slots, ?_, hm h.heads fun he => (hh he).1, hm h.runs fun he => (hr he).1 _ rfl rfl, h.sampling, h.marked, h.entries,
    h.bindings, fun k hk => ⟨(h.noRun k hk).1, hm (h.noRun k hk).2 fun e => ?_⟩, fun k hk => hm (h.noHead k hk) fun e => ?_⟩
  · show (s.budget.claims ++ [_]).Pairwise _
    rw [List.pairwise_append]
    refine ⟨h.apart, List.pairwise_singleton _ _, fun c hc d hd ht => ?_⟩
    rw [List.mem_singleton.mp hd] at ht ⊢
    cases ho : o.isEntry with
    | true => rw [(hh ho).2.1 c hc ht]; simp
    | false => rw [(hr ho).2.1 c hc ht]; simp
  · cases ho : o.isEntry with
    | true => rfl
    | false => exact absurd ((show t = k from e) ▸ hk) (hr ho).2.2
  · cases ho : o.isEntry with
    | false => rfl
    | true => exact absurd ((show t = k from e) ▸ hk) (hh ho).2.2

/-! ## Engines, with whatever follows a freed amount -/

/-- A scan, or nothing within one, keeps the books. -/
structure Keeps (rescan : State → State) : Prop where
  shift : ∀ s, Shift none True s (rescan s)
  books : ∀ nr nh s, Ledger nr nh s → Ledger nr nh (rescan s)

theorem Keeps.absorbed : Keeps absorbed := ⟨Shift.absorbed, fun _ _ _ h => h⟩

theorem hundreds_mono {a b : Nat} (h : a ≤ b) : hundreds a ≤ hundreds b := by
  unfold hundreds; omega

theorem drawOf_mono {a b : Nat} (h : a ≤ b) (w : Nat) : drawOf a w ≤ drawOf b w :=
  Nat.mul_le_mul_right w (hundreds_mono h)

/-- A line set: its draw stays within what is free, and the purge line of a waiting run is left alone. -/
theorem Ledger.setFlow (h : Ledger nr nh s) {l : Line} {v : Word} (b : Bool)
    (hd : drawOf v.toNat (s.lineRec t l).weight ≤ (s.lineRec t l).draw + (s.budget.capacity - s.bankDraw))
    (hp : l ≠ (s.tube t).header.purgeLine ∨ s.NoRunClaim t) : Ledger nr nh (s.setFlow t l v b) := by
  refine Ledger.deliver ?_ _ _ _
  refine h.setTube (x := { s.tube t with gas := { (s.tube t).gas with
    lines := (s.tube t).gas.lines.set l { (s.tube t).gas.lines.get l with flow := v, devCounter := 0 } } })
    ⟨.inl, rfl, fun _ => plate_set _, fun e he => .inl ⟨e, he, rfl⟩⟩ (.inr id) ?_ (h.sampling t) ?_ .inl fun g => (h.noRun t g).1
  · rcases hp with hp | hp
    · refine .inr fun c g => ?_
      have e : ((s.tube t).gas.lines.set l { (s.tube t).gas.lines.get l with flow := v, devCounter := 0 }).get
          (s.tube t).header.purgeLine = (s.tube t).gas.lines.get (s.tube t).header.purgeLine := by
        rw [Eight.get_set, if_neg (Ne.symm hp)]
      refine ⟨g.pool, g.owned, ?_, ?_⟩
      · show (((s.tube t).gas.lines.set l _).get _).purge = true
        rw [e]; exact g.purge
      · obtain ⟨r, h1, h2, h3⟩ := g.run
        refine ⟨r, h1, h2, ?_⟩
        show drawOf r.flow.toNat (((s.tube t).gas.lines.set l _).get _).weight ≤ (((s.tube t).gas.lines.set l _).get _).draw + _
        rw [e]; exact h3
    · exact .inl hp
  · exact setLine_draw hd

theorem tube_setFlow (s : State) (t : Tube) (l : Line) (v : Word) (b : Bool) : (s.setFlow t l v b).tube t
    = { s.tube t with gas := { (s.tube t).gas with
        lines := (s.tube t).gas.lines.set l { (s.tube t).gas.lines.get l with flow := v, devCounter := 0 } } } :=
  tube_setTube_self s t _

theorem Ledger.lowerLine (hk : Keeps rescan) (h : Ledger nr nh s) {l : Line} {v : Word}
    (hv : v.toNat ≤ (s.lineRec t l).flow.toNat) (hp : l ≠ (s.tube t).header.purgeLine ∨ s.NoRunClaim t) :
    Ledger nr nh (s.lowerLine rescan t l v) := by
  have h1 : Ledger nr nh (s.setFlow t l v true) :=
    h.setFlow true (Nat.le_trans (drawOf_mono hv _) (Nat.le_add_right _ _)) hp
  unfold State.lowerLine
  simp only
  split
  · exact hk.books _ _ _ h1
  · exact h1

theorem Ledger.startRun (hk : Keeps rescan) (h : Ledger nr nh s) {q : RunStart} (hq : q.origin.isEntry = false)
    (hn : s.NoRunClaim t) (hr : ¬ nr t) (hm : (s.tube t).purgeMarked) : Ledger nr nh (s.startRun rescan t q) := by
  unfold State.startRun
  simp only
  generalize hs1 : (s.modGas t fun g => g.beginRun q (s.tube t).header.purgeLimit) = s1
  have e1 : s1.tube t = { s.tube t with gas := (s.tube t).gas.beginRun q (s.tube t).header.purgeLimit } := by
    rw [← hs1]; exact tube_modTube_eq _ _ _
  have h1 : Ledger nr nh s1 := by
    rw [← hs1]
    exact h.setTube (x := { s.tube t with gas := (s.tube t).gas.beginRun q (s.tube t).header.purgeLimit })
      ⟨.inl, rfl, fun _ => rfl, fun e he => .inl ⟨e, he, rfl⟩⟩ (.inr id) (.inl hn) (fun c => absurd rfl c) (Nat.le_add_right _ _)
      .inl fun g => absurd g hr
  have ha : (s1.tube t).gas.atmosphere = .purging ∨ (s1.tube t).gas.atmosphere = .clearing := by
    rw [e1]
    show q.purpose.atmosphere = _ ∨ q.purpose.atmosphere = _
    cases q.purpose <;> simp [Purpose.atmosphere]
  have hn1 : s1.NoRunClaim t := by rw [← hs1]; exact hn
  have hl : s1.lineRec t (s.tube t).header.purgeLine = s.lineRec t (s.tube t).header.purgeLine := by
    unfold State.lineRec; rw [e1]; rfl
  split
  · next hd =>
    generalize hs2 : s1.setFlow t (s.tube t).header.purgeLine q.flow
      (decide (q.flow.toNat ≤ (s.lineRec t (s.tube t).header.purgeLine).flow.toNat)) = s2
    have e2 : (s2.tube t).gas.run = (s1.tube t).gas.run ∧ (s2.tube t).gas.atmosphere = (s1.tube t).gas.atmosphere := by
      rw [← hs2, tube_setFlow]; exact ⟨rfl, rfl⟩
    have h2 : Ledger (Also t nr) nh s2 := by
      refine Ledger.alsoRun ?_ (by rw [← hs2]; exact hn1) (by rw [e2.2]; exact ha)
      rw [← hs2]
      exact h1.setFlow _ (by rw [hl]; exact Nat.le_trans hd (Nat.le_add_right _ _)) (.inr hn1)
    have hrun : (s2.tube t).gas.run ≠ none := by
      rw [e2.1, e1]; exact fun c => nomatch c
    generalize hs3 : (if drawOf q.flow.toNat (s.lineRec t (s.tube t).header.purgeLine).weight
        < (s.lineRec t (s.tube t).header.purgeLine).draw then rescan s2 else s2) = s3
    have h3 : Ledger (Also t nr) nh s3 ∧ (s3.tube t).gas.run ≠ none := by
      rw [← hs3]
      split
      · refine ⟨hk.books _ _ _ h2, ?_⟩
        have hset : (s2.tube t).gas.atmosphere.settled = true := by
          rw [e2.2]; rcases ha with c | c <;> rw [c] <;> rfl
        have := (((hk.shift s2).tubes t).settled hset).run
        intro c
        rw [c] at this
        exact hrun (by simpa using this.symm)
      · exact ⟨h2, hrun⟩
    refine Ledger.dropRun (t := t) (h3.1.setTube (x := { s3.tube t with
      gas := (s3.tube t).gas.flowing (s.tube t).header.samplePeriod }) ⟨.inl, rfl, fun _ => rfl, fun e he => .inl ⟨e, he, rfl⟩⟩ (.inr id)
      (.inl (h3.1.noRun t (.inl rfl)).2) (fun _ => ?_) (Nat.le_add_right _ _) .inl fun _ => (h3.1.noRun t (.inl rfl)).1)
    match hg : (s3.tube t).gas.run, h3.2 with
    | some r, _ => exact ⟨{ r with phase := .flowing }, by simp [Gas.flowing, hg], rfl⟩
  · refine hk.books _ _ _ (h1.join _ _ _ _ (fun c => by rw [hq] at c; cases c) fun _ => ⟨fun c hp hc => ?_, hn1, hr⟩)
    refine ⟨hp, ha, ?_, ?_⟩
    · rw [e1]; exact hm
    · rw [e1]
      refine ⟨_, rfl, rfl, ?_⟩
      show drawOf q.flow.toNat (s.lineRec t (s.tube t).header.purgeLine).weight
        ≤ (s.lineRec t (s.tube t).header.purgeLine).draw + c.amount
      rw [hc]; omega

/-- R94, R103: the clearing a close starts. -/
theorem Ledger.clearingTest (hk : Keeps rescan) (h : Ledger nr nh s) (l : Line) (v : Word)
    (hm : (s.tube t).gas.atmosphere = .process → (s.tube t).purgeMarked) : Ledger nr nh (s.clearingTest rescan t l v) := by
  unfold State.clearingTest
  split
  · next c =>
    simp only [Bool.and_eq_true, beq_iff_eq] at c
    have ha : (s.tube t).gas.atmosphere = .process := c.1.2
    have hno : ¬ ((s.tube t).gas.atmosphere = .purging ∨ (s.tube t).gas.atmosphere = .clearing) := by
      rw [ha]; simp
    exact h.startRun hk rfl (h.noRunClaim hno) (fun g => hno (h.noRun t g).1) (hm ha)
  · exact h

theorem Ledger.freeSlot (hk : Keeps rescan) (h : Ledger nr nh s) : Ledger nr nh (s.freeSlot rescan t) := by
  unfold State.freeSlot
  split
  · exact hk.books _ _ _ (h.modRamp _ fun c => nomatch c)
  · exact h

/-! ## Releases -/

theorem directionOf_set (zones : Five ZoneRec) (z : Zone) (v : Word) (n : Nat) :
    directionOf (zones.set z { zones.get z with target := v, step := n }) = directionOf (withTarget zones z v) := by
  unfold directionOf withTarget
  cases z <;> simp [Five.set, Five.get, Five.toList]

/-- R75 to R78, with a slot free where the release needs one. -/
theorem Ledger.applyZone (hk : Keeps rescan) (h : Ledger nr nh s) (z : Zone) (n : Nat) (v c : Word)
    (hs : directionOf (withTarget (s.tube t).ramp.zones z v) = .up →
      (s.tube t).ramp.slotHeld = true ∨ 0 < s.budget.slots - s.slotHolders) :
    Ledger nr nh (s.applyZone rescan t z n v c) := by
  unfold State.applyZone
  simp only
  generalize hs1 : (s.modRamp t fun r =>
    { r with zones := r.zones.set z { r.zones.get z with target := v, step := n }, lastTicket := c }) = s1
  have e1 : s1.tube t = { s.tube t with ramp := { (s.tube t).ramp with
      zones := (s.tube t).ramp.zones.set z { (s.tube t).ramp.zones.get z with target := v, step := n }, lastTicket := c } } := by
    rw [← hs1]; exact tube_modTube_eq _ _ _
  have h1 : Ledger nr nh s1 := by rw [← hs1]; exact h.modRamp _ id
  have hsl : directionOf (s1.tube t).ramp.zones = .up →
      (s1.tube t).ramp.slotHeld = true ∨ 0 < s1.budget.slots - s1.slotHolders := by
    intro g
    have hso : s1.slotHolders = s.slotHolders := by
      have := slotHolders_setTube s t (s1.tube t)
      have e : s1.slotHolders = (s.setTube t (s1.tube t)).slotHolders := by
        rw [← hs1]
        congr 1
        show _ = s.setTube t (State.tube (State.modRamp s t _) t)
        unfold State.modRamp; rw [tube_modTube_eq]; rfl
      rw [e]
      rw [show (s1.tube t).ramp.slotHeld = (s.tube t).ramp.slotHeld by rw [e1]] at this
      omega
    have hbu : s1.budget = s.budget := by rw [← hs1]; rfl
    rw [hso, hbu]
    rw [e1] at g ⊢
    rw [directionOf_set] at g
    exact hs g
  have slot : ∀ {f : Ramp → Ramp}, directionOf (s1.tube t).ramp.zones = .up ∨
      ((f (s1.tube t).ramp).slotHeld = true → (s1.tube t).ramp.slotHeld = true) →
      Ledger nr nh (s1.modRamp t f) := by
    intro f hf
    exact h1.setTube (x := { s1.tube t with ramp := f (s1.tube t).ramp }) ⟨.inl, rfl, fun _ => rfl, fun e he => .inl ⟨e, he, rfl⟩⟩
      (.inr id) (.inr fun c g => ⟨g.pool, g.owned, g.purge, g.run⟩) (h1.sampling t) (Nat.le_add_right _ _)
      (fun g => by
        rcases hf with hf | hf
        · exact hsl hf
        · exact .inl (hf g)) fun g => (h1.noRun t g).1
  split
  · refine slot ?_
    cases hd : directionOf (s1.tube t).ramp.zones with
    | up => exact .inl rfl
    | down => exact .inr fun g => by simpa [Ramp.startRamp] using g
    | none => exact .inr fun g => g
  · split
    · next hd => exact slot (.inl hd)
    · exact (h1.modRamp _ id).freeSlot hk
    · exact (h1.modRamp _ id).freeSlot hk

theorem toNat_wordOf_le (n : Nat) : (wordOf n).toNat ≤ n := by
  unfold wordOf; rw [BitVec.toNat_ofNat]; exact Nat.mod_le _ _

/-- R92: the settled flow adds no more draw than the units granted. -/
theorem settledFlow_draw (v old : Word) (n w : Nat) :
    drawOf (settledFlow v old n w).toNat w ≤ drawOf old.toNat w + n := by
  unfold settledFlow
  split
  · next h => unfold addedDraw at h; omega
  · refine Nat.le_trans (drawOf_mono (toNat_wordOf_le _) w) ?_
    have : hundreds (100 * ((n + hundreds old.toNat * w) / w)) = (n + hundreds old.toNat * w) / w := by
      unfold hundreds; omega
    unfold drawOf
    rw [this]
    have := Nat.div_mul_le_self (n + hundreds old.toNat * w) w
    omega

/-- R93, R94: a LINE release found where the purge line of a waiting run is not its line. -/
theorem Ledger.applyLine (hk : Keeps rescan) (h : Ledger nr nh s) (l : Line) (v : Word) (n : Nat)
    (hn : n ≤ s.budget.capacity - s.bankDraw) (hp : l ≠ (s.tube t).header.purgeLine ∨ s.NoRunClaim t)
    (hw : (s.tube t).mode.working = true) : Ledger nr nh (s.applyLine rescan t l v n) := by
  unfold State.applyLine
  simp only
  split
  · generalize hf : settledFlow v (s.lineRec t l).flow n (s.lineRec t l).weight = f
    have hd : drawOf f.toNat (s.lineRec t l).weight ≤ (s.lineRec t l).draw + n := by
      rw [← hf]; exact settledFlow_draw _ _ _ _
    have h1 : Ledger nr nh ((s.modGas t fun g => g.raise l f).deliver (s.lineAddr t l) f false) := by
      refine Ledger.deliver ?_ _ _ _
      refine h.setTube (x := { s.tube t with gas := (s.tube t).gas.raise l f })
        ⟨.inl, rfl, fun _ => plate_set _, fun e he => .inl ⟨e, he, rfl⟩⟩ (.inr id) ?_ (h.sampling t) ?_ .inl fun g => ?_
      · rcases hp with hp | hp
        · refine .inr fun c g => ?_
          have e : ((s.tube t).gas.lines.set l { (s.tube t).gas.lines.get l with flow := f, devCounter := 0 }).get
              (s.tube t).header.purgeLine = (s.tube t).gas.lines.get (s.tube t).header.purgeLine := by
            rw [Eight.get_set, if_neg (Ne.symm hp)]
          refine ⟨g.pool, ?_, ?_, ?_⟩
          · have := g.owned
            show (if _ then Atmosphere.process else _) = _ ∨ (if _ then Atmosphere.process else _) = _
            rw [if_neg (by rcases this with c | c <;> rw [c] <;> simp)]
            exact this
          · show (((s.tube t).gas.lines.set l _).get _).purge = true
            rw [e]; exact g.purge
          · obtain ⟨r, h1, h2, h3⟩ := g.run
            refine ⟨r, h1, h2, ?_⟩
            show drawOf r.flow.toNat (((s.tube t).gas.lines.set l _).get _).weight
              ≤ (((s.tube t).gas.lines.set l _).get _).draw + _
            rw [e]; exact h3
        · exact .inl hp
      · exact setLine_draw (Nat.le_trans hd (Nat.add_le_add_left hn _))
      · have := (h.noRun t g).1
        show (if _ then Atmosphere.process else _) = _ ∨ (if _ then Atmosphere.process else _) = _
        rw [if_neg (by rcases this with c | c <;> rw [c] <;> simp)]
        exact this
    split
    · exact hk.books _ _ _ h1
    · exact h1
  · next hv =>
    have h1 : Ledger nr nh (s.lowerLine rescan t l v) := h.lowerLine hk (by omega) hp
    have hs : ((s.lowerLine rescan t l v).tube t).mode = (s.tube t).mode := by
      have e : ((s.setFlow t l v true).tube t).mode = (s.tube t).mode := by
        rw [tube_setFlow]
      unfold State.lowerLine
      simp only
      split
      · exact ((hk.shift _).tubes t).mode.trans e
      · exact e
    exact h1.clearingTest hk l v fun _ => h1.marked t (.inr (by rw [hs]; exact hw))

theorem Ledger.applyBoat (h : Ledger nr nh s) (v n : Word) (c : Six) : Ledger nr nh (s.applyBoat t v n c) := by
  unfold State.applyBoat State.boatDone
  simp only
  have h1 : Ledger nr nh (s.modBoat t fun b => { b with lastTicket := n, lastChannel := c }) := h.modBoat _
  split
  · split
    · exact ((h1.modBoat _).modSummary _).place _
    · exact ((h1.modBoat _).modSummary _).place _
  · exact h1.modBoat _

theorem bankDraw_same {x : TubeState} (h : x.gas = (s.tube t).gas) : (s.setTube t x).bankDraw = s.bankDraw := by
  have := bankDraw_setTube s t x
  rw [h] at this; omega

theorem slotHolders_same {x : TubeState} (h : x.ramp.slotHeld = (s.tube t).ramp.slotHeld) :
    (s.setTube t x).slotHolders = s.slotHolders := by
  have := slotHolders_setTube s t x
  rw [h] at this; omega

/-- R27, R54: a LINE entry that may be released is not for the purge line of a waiting run. -/
theorem Ledger.gateSpares (h : Ledger nr nh s) {e : HeldEntry} (he : e ∈ (s.tube t).queue) (hg : gateHolds (s.tube t) e = true)
    {l : Line} {r p : Bool} {w : Nat} (hk : e.kind = .line l r p w) :
    l ≠ (s.tube t).header.purgeLine ∨ s.NoRunClaim t := by
  by_cases hn : s.NoRunClaim t
  · exact .inr hn
  · refine .inl fun hl => hn fun c hc ht => ?_
    cases ho : c.origin.isEntry with
    | true => rfl
    | false =>
      exfalso
      have g := ht ▸ h.runs c hc ho
      have hp := h.entries t e he l r p w hk
      have := g.purge
      rw [← hl, hp] at this
      subst this
      simp only [gateHolds, hk] at hg
      cases r with
      | true =>
        simp only [Bool.and_eq_true, Bool.or_eq_true, beq_iff_eq] at hg
        rcases g.owned with c | c <;> rw [c] at hg <;> simp at hg
      | false => rcases g.owned with c | c <;> rw [c] at hg <;> simp at hg

/-- R42: a head that every test passes is released, with units and a slot free for it. -/
theorem Ledger.releaseHead (hk : Keeps rescan) (h : Ledger nr nh s) (hh : nh t) {e : HeldEntry} {q : List HeldEntry}
    (hq : (s.tube t).queue = e :: q) (hf : s.firstFailure t e = none) (n : Nat) (hn : n ≤ s.budget.capacity - s.bankDraw)
    (hz : ∀ z m, e.kind = .zone z m → directionOf (withTarget (s.tube t).ramp.zones z e.value) = .up →
      (s.tube t).ramp.slotHeld = true ∨ 0 < s.budget.slots - s.slotHolders) :
    Ledger nr nh (s.releaseHead rescan t e n) := by
  obtain ⟨hm, hg⟩ := firstFailure_none hf
  unfold State.releaseHead
  simp only
  generalize (if e.held = true then Way.queued else Way.immediate) = way
  generalize hs3 : ((s.modTube t fun x => { x with queue := x.queue.tail }).place
    (releasedNotice t e.channel way e.ticket e.value e.acceptedAt)).modTube t (fun x => { x with lastReleased := e.ticket }) = s3
  have e3 : s3.tube t = { s.tube t with queue := (s.tube t).queue.tail, lastReleased := e.ticket } := by
    rw [← hs3, tube_modTube_eq]
    have : ((s.modTube t fun x => { x with queue := x.queue.tail }).place
        (releasedNotice t e.channel way e.ticket e.value e.acceptedAt)).tube t
        = { s.tube t with queue := (s.tube t).queue.tail } :=
      tube_modTube_eq s t fun x => { x with queue := x.queue.tail }
    rw [this]
  have es : ∀ j, s3.tube j = (s.setTube t (s3.tube t)).tube j := fun j => by
    rw [State.tube_setTube]
    split
    · next c => rw [c]
    · next c =>
      rw [← hs3]
      exact (tube_setTube_ne _ _ c).trans (tube_setTube_ne _ _ c)
  have h3 : Ledger nr nh s3 := by
    have h1 : Ledger nr nh (s.setTube t { s.tube t with queue := (s.tube t).queue.tail, lastReleased := e.ticket }) :=
      h.setTube ⟨.inl, rfl, fun _ => rfl, fun d hd => .inl ⟨d, List.mem_of_mem_tail hd, rfl⟩⟩ (.inl (h.noHead t hh))
        (.inr fun c g => ⟨g.pool, g.owned, g.purge, g.run⟩) (h.sampling t) (Nat.le_add_right _ _) .inl fun g => (h.noRun t g).1
    refine h1.same ?_ (by rw [← hs3]; rfl) (by rw [← hs3]; rfl) (by rw [← hs3]; rfl) (by rw [← hs3]; rfl) (by rw [← hs3]; rfl)
    rw [← e3]
    have : ∀ a b : Four TubeState, (∀ j, a.get j = b.get j) → a = b := by
      intro a b hab
      have h0 := hab .i0; have h1 := hab .i1; have h2 := hab .i2; have h3 := hab .i3
      cases a; cases b
      simp only [Four.get] at h0 h1 h2 h3
      rw [h0, h1, h2, h3]
    exact this _ _ es
  have hb3 : s3.budget = s.budget := by rw [← hs3]; rfl
  have hr3 : s3.root = s.root := by rw [← hs3]; rfl
  have hd3 : s3.bankDraw = s.bankDraw := by
    have : s3.bankDraw = (s.setTube t (s3.tube t)).bankDraw := by
      unfold State.bankDraw
      rw [presentTubes_eq (s := s) hr3, presentTubes_eq (s := s) (u := s.setTube t _) rfl]
      exact congrArg (fun f : Tube → TubeState => (s.presentTubes.map fun k => (f k).gas.draw).sum) (funext es)
    rw [this]; exact bankDraw_same (by rw [e3])
  have ho3 : s3.slotHolders = s.slotHolders := by
    have : s3.slotHolders = (s.setTube t (s3.tube t)).slotHolders :=
      congrArg (fun f : Tube → TubeState => (Ix4.all.filter fun k => (f k).ramp.slotHeld).length) (funext es)
    rw [this]; exact slotHolders_same (by rw [e3])
  have h4 : Ledger nr nh (s3.applyEntry rescan t e n) := by
    unfold State.applyEntry
    split
    · next z m hkd =>
      refine h3.applyZone hk z m _ _ ?_
      rw [hb3, ho3, e3]
      exact hz z m hkd
    · next l r p w hkd =>
      refine h3.applyLine hk l _ n (by rw [hb3, hd3]; exact hn) ?_ (by rw [e3]; show (s.tube t).mode.working = true; rw [hm]; rfl)
      rw [e3]
      have := h.gateSpares (by rw [hq]; exact List.mem_cons_self ..) hg hkd
      unfold State.NoRunClaim at this ⊢
      rw [hb3]; exact this
    · exact h3.applyBoat _ _ _
  split
  · exact h4.benign ⟨.inl, rfl, rfl, rfl, rfl, id, rfl, id⟩
  · exact h4

/-! ## Examination -/

theorem Ledger.setHead (h : Ledger nr nh s) (hn : s.NoHeadClaim t) {e f : HeldEntry} {q : List HeldEntry}
    (hq : (s.tube t).queue = e :: q) (hf : f.kind = e.kind) : Ledger nr nh (s.setHead t f) := by
  refine h.setTube (x := { s.tube t with queue := f :: (s.tube t).queue.tail }) ⟨.inl, rfl, fun _ => rfl, fun d hd => ?_⟩
    (.inl hn) (.inr fun c g => ⟨g.pool, g.owned, g.purge, g.run⟩) (h.sampling t) (Nat.le_add_right _ _) .inl
    fun g => (h.noRun t g).1
  rw [hq] at hd ⊢
  rcases List.mem_cons.mp hd with rfl | hd
  · exact .inl ⟨e, by simp, hf.symm⟩
  · exact .inl ⟨d, List.mem_cons_of_mem _ hd, rfl⟩

/-- The claims of a tube's queue taken off. -/
theorem Ledger.withoutHead (h : Ledger nr nh s) (t : Tube) :
    Ledger nr (Also t nh) (s.modBudget fun b => { b with claims := b.claims.filter (fun c => !Claim.ofHead t c) }) := by
  refine Ledger.alsoHead (h.fewer _ List.filter_sublist) fun c hc ht => ?_
  have := (List.mem_filter.mp hc).2
  simpa [Claim.ofHead, ht] using this

/-- R133: a head's claim is withdrawn. -/
theorem Ledger.withdrawHead (hk : Keeps rescan)
    (h : Ledger nr (Also t nh) (s.modBudget fun b => { b with claims := b.claims.filter (fun c => !Claim.ofHead t c) })) :
    Ledger nr (Also t nh) (s.withdraw rescan (Claim.ofHead t)) := by
  unfold State.withdraw
  split
  · exact hk.books _ _ _ h
  · next c =>
    refine h.same rfl rfl rfl rfl rfl ?_
    rw [Bool.not_eq_true, List.any_eq_false] at c
    exact (List.filter_eq_self.mpr fun d hd => by simpa using c d hd).symm

theorem neededClaim_zone {x : TubeState} {e : HeldEntry} {z : Zone} {m : Nat} (hk : e.kind = .zone z m)
    (hd : directionOf (withTarget x.ramp.zones z e.value) = .up) :
    x.ramp.slotHeld = true ∨ neededClaim x e = some (.heat, 1) := by
  cases hs : x.ramp.slotHeld with
  | true => exact .inl rfl
  | false => refine .inr ?_; simp [neededClaim, hk, hs, hd]

theorem Ledger.examineLoop (hk : Keeps rescan) (ht : ¬ nh t) : ∀ (fuel : Nat) {s : State}, Ledger nr nh s →
    Ledger nr nh (State.examineLoop rescan t fuel s)
  | 0, _, h => h
  | fuel + 1, s, h => by
    unfold State.examineLoop
    split
    · exact h
    · next e q hq =>
      have hwait : e.state = .waiting → s.NoHeadClaim t := fun hw => h.noHeadClaim fun ⟨d, r, hd, hs⟩ => by
        rw [hq] at hd; cases hd; rw [hw] at hs; cases hs
      split
      · exact h
      · next hf =>
        split
        · next hw hnd =>
          refine Ledger.examineLoop hk ht fuel (Ledger.dropHead (t := t)
            ((h.alsoHead (hwait hw)).releaseHead hk (.inl rfl) hq hf 0 (Nat.zero_le _) fun z m hkd hd => ?_))
          rcases neededClaim_zone hkd hd with g | g
          · exact .inl g
          · rw [hnd] at g; cases g
        · next p a hw _ =>
          have hn := hwait hw
          refine hk.books _ _ _ ((h.setHead (f := { e with state := .claiming, claim := some (p, a) }) hn hq rfl).join _ _ _ _
            (fun _ => ⟨⟨{ e with state := .claiming, claim := some (p, a) }, (s.tube t).queue.tail, ?_, rfl⟩, hn, ht⟩)
            fun c => nomatch c)
          exact congrArg TubeState.queue (tube_modTube_eq s t _)
        · split
          · exact h
          · refine Ledger.examineLoop hk ht fuel (Ledger.dropHead (t := t) (Ledger.withdrawHead hk ?_))
            have g := h.withoutHead t
            have hn := g.noHead t (.inl rfl)
            exact (g.setHead (t := t) (e := e) (f := e.toWaiting) hn hq rfl).same rfl rfl rfl rfl rfl rfl

theorem Ledger.examineWith (hk : Keeps rescan) (h : Ledger nr nh s) (ht : ¬ nh t) :
    Ledger nr nh (s.examineWith rescan t) := Ledger.examineLoop hk ht _ h

/-! ## Grants and the scan -/

/-- R41: a head is granted its claim. -/
theorem Ledger.headGrant (h : Ledger nr nh s) (hn : s.NoHeadClaim t) (ht : ¬ nh t) {p : Pool} {n : Nat}
    (hp : n ≤ s.freeOf p) : Ledger nr nh (s.headGrant t p n) := by
  unfold State.headGrant
  split
  · exact h
  · next e q hq =>
    split
    · exact h
    · split
      · exact h.setHead hn hq rfl
      · next hf =>
        split
        · next hnd =>
          refine Ledger.examineWith .absorbed (Ledger.dropHead (t := t)
            ((h.alsoHead hn).releaseHead .absorbed (.inl rfl) hq hf _ ?_ fun z m hkd hd => ?_)) ht
          · split
            · next c => subst c; exact hp
            · exact Nat.zero_le _
          · rcases neededClaim_zone hkd hd with g | g
            · exact .inl g
            · rw [hnd] at g; cases g
              exact .inr hp
        · exact (h.setHead (f := e.toWaiting) hn hq rfl).examineWith .absorbed ht

/-- R99: a run is granted its claim. -/
theorem Ledger.runGrant (h : Ledger nr nh s) (hn : s.NoRunClaim t) (hr : ¬ nr t) {c : Claim} (hw : RunWaits (s.tube t) c)
    (hp : c.amount ≤ s.budget.capacity - s.bankDraw) : Ledger nr nh (s.runGrant t) := by
  obtain ⟨r, h1, _, h3⟩ := hw.run
  unfold State.runGrant
  rw [h1]
  simp only
  have hf : Ledger nr nh (s.setFlow t (s.tube t).header.purgeLine r.flow false) :=
    h.setFlow false (Nat.le_trans h3 (Nat.add_le_add_left hp _)) (.inr hn)
  generalize hs1 : s.setFlow t (s.tube t).header.purgeLine r.flow false = s1 at hf ⊢
  have e1 : (s1.tube t).gas.run = some r := by rw [← hs1, tube_setFlow]; exact h1
  have hn1 : s1.NoRunClaim t := by rw [← hs1]; exact hn
  have h2 : Ledger nr nh (s1.modGas t fun g => g.flowing (s.tube t).header.samplePeriod) :=
    hf.setTube (x := { s1.tube t with gas := (s1.tube t).gas.flowing (s.tube t).header.samplePeriod })
      ⟨.inl, rfl, fun _ => rfl, fun e he => .inl ⟨e, he, rfl⟩⟩ (.inr id) (.inl hn1)
      (fun _ => ⟨{ r with phase := .flowing }, by simp [Gas.flowing, e1], rfl⟩) (Nat.le_add_right _ _) .inl
      fun g => absurd g hr
  exact h2.benign ⟨.inl, rfl, rfl, rfl, rfl, id, rfl, id⟩

/-- R132: a claim that fits is granted. -/
theorem Ledger.grant (h : Ledger nr nh s) {c : Claim} (hc : c ∈ s.budget.claims) (hf : c.amount ≤ s.freeOf c.pool) :
    Ledger nr nh (s.grant c) := by
  unfold State.grant
  simp only
  have h1 : Ledger nr nh (s.modBudget fun b => { b with claims := b.claims.erase c }) :=
    h.fewer (s.budget.claims.erase c) List.erase_sublist
  have rest : ∀ d ∈ s.budget.claims.erase c, d.tube = c.tube → c.origin.isEntry ≠ d.origin.isEntry := by
    have := h.apart
    have hs : ∀ l : List Claim, c ∈ l → (l.Pairwise fun c d => c.tube = d.tube → c.origin.isEntry ≠ d.origin.isEntry) →
        ∀ d ∈ l.erase c, d.tube = c.tube → c.origin.isEntry ≠ d.origin.isEntry := by
      intro l
      induction l with
      | nil => intro hc; cases hc
      | cons a l ih =>
        intro hc hp d hd ht
        rw [List.pairwise_cons] at hp
        rw [List.erase_cons] at hd
        by_cases ha : a = c
        · subst ha
          simp at hd
          exact hp.1 d hd ht.symm
        · simp only [beq_iff_eq, ha, if_false] at hd
          have hc' : c ∈ l := (List.mem_cons.mp hc).resolve_left (Ne.symm ha)
          rcases List.mem_cons.mp hd with rfl | hd
          · exact fun e => hp.1 c hc' ht e.symm
          · exact ih hc' hp.2 d hd ht
    exact hs _ hc this
  split
  · next he =>
    refine h1.headGrant (fun d hd ht => ?_) (fun g => ?_) hf
    · have := rest d hd ht
      rw [he] at this
      simpa using this
    · have := h.noHead _ g c hc rfl
      rw [he] at this; cases this
  · next he =>
    have he : c.origin.isEntry = false := by simpa using he
    have hw := h.runs c hc he
    refine h1.runGrant (fun d hd ht => ?_) (fun g => ?_) hw ?_
    · have := rest d hd ht
      rw [he] at this
      simpa using this
    · have := (h.noRun _ g).2 c hc rfl
      rw [he] at this; cases this
    · rw [hw.pool] at hf; exact hf

theorem front_pool {b : Budget} {p : Pool} {c : Claim} (h : b.front p = some c) : c.pool = p := by
  have := List.find?_some h
  simpa using this

theorem Ledger.scanLoop : ∀ (fuel : Nat) (p : Pool) (b : Bool) {s : State}, Ledger nr nh s →
    Ledger nr nh (State.scanLoop fuel p b s)
  | 0, _, _, _, h => h
  | fuel + 1, p, b, s, h => by
    unfold State.scanLoop
    split
    · next c hc =>
      split
      · next hf => exact Ledger.scanLoop fuel p false (h.grant (mem_front hc) (by rw [front_pool hc]; exact hf))
      · split
        · exact h
        · exact Ledger.scanLoop fuel _ true h
    · split
      · exact h
      · exact Ledger.scanLoop fuel _ true h

theorem Ledger.scan (h : Ledger nr nh s) : Ledger nr nh s.scan := Ledger.scanLoop _ _ _ h

theorem Ledger.foldl {α : Type} {f : State → α → State} (hf : ∀ s a, Ledger nr nh s → Ledger nr nh (f s a)) :
    ∀ (l : List α) {s : State}, Ledger nr nh s → Ledger nr nh (l.foldl f s)
  | [], _, h => h
  | a :: l, _, h => Ledger.foldl hf l (hf _ a h)

theorem Ledger.announce (h : Ledger nr nh s) : Ledger nr nh s.announce := by
  unfold State.announce
  exact Ledger.foldl (fun s c h => h.place _) _ (h.mapClaims _ fun c => ⟨rfl, rfl, rfl, rfl⟩)

/-- R131: a scan with its notices keeps the books. -/
theorem Ledger.rescanned (h : Ledger nr nh s) : Ledger nr nh s.rescan := h.scan.announce

theorem Keeps.rescanned : Keeps State.rescan := ⟨Shift.rescan, fun _ _ _ h => h.rescanned⟩

theorem Keeps.scanned : Keeps State.scan := ⟨Shift.scan, fun _ _ _ h => h.scan⟩

/-! ## After an event -/

/-- The books between events. -/
abbrev State.Booked (s : State) : Prop := Ledger (fun _ => False) (fun _ => False) s

theorem Ledger.examine (h : s.Booked) (t : Tube) : (s.examine t).Booked := h.examineWith .rescanned id

theorem Ledger.examineChanged : ∀ (n : Nat) (before : State) {after : State}, after.Booked →
    (State.examineChanged n before after).Booked
  | 0, _, _, h => h
  | n + 1, before, after, h => by
    unfold State.examineChanged
    split
    · exact h
    · refine Ledger.examineChanged n after (Ledger.foldl (fun s t h => Ledger.examine h t) _ ?_)
      unfold examineOrder
      split
      · exact h
      · exact h
      · exact h.same rfl rfl rfl rfl rfl rfl

theorem Ledger.advance (h : Ledger nr nh s) : Ledger nr nh s.advance := by
  have h1 : Ledger nr nh s.takeDue := by
    unfold State.takeDue
    split
    · exact h.same rfl rfl rfl rfl rfl rfl
    · exact h
  unfold State.advance State.arbitrate
  split
  · exact h1
  · split
    · exact h1
    · split
      · exact h1
      · next r a _ _ =>
        unfold State.grantBus State.onGrant
        split
        · exact h1.same rfl rfl rfl rfl rfl rfl
        · split <;> exact h1.same rfl rfl rfl rfl rfl rfl
        · exact h1.same rfl rfl rfl rfl rfl rfl

theorem Ledger.finish (before : State) (h : s.Booked) : (before.finish s).Booked := by
  unfold State.finish
  refine Ledger.advance ?_
  have h1 := Ledger.examineChanged 4 before h
  unfold State.markStatus
  split
  · exact h1
  · exact h1.same rfl rfl rfl rfl rfl rfl

end Sys2Proof.Machine
end

