-- ==== Sys2Proof/Laws/Scan.lean ====
section
/-! SUPPORT. A scan of the Claim List ends with no front claim that fits, where each tube's queue has at most one claim in
the list (R128, R131): every grant lowers a count of a tube's entries and claims, and `scanFuel` covers it. -/

namespace Sys2Proof.Machine

/-! ## What a tube's claims and entries come to -/

/-- The claims of tube `t`'s queue in a list. -/
def headClaims (t : Tube) (l : List Claim) : List Claim := l.filter (Claim.ofHead t)

/-- The claims of tube `t`'s purge run in a list. -/
def runClaims (t : Tube) (l : List Claim) : List Claim := l.filter (Claim.ofRun t)

/-- The claim is not the one the head of its tube needs as things stand, so that its grant would be handed back. -/
def TubeState.unmatched (x : TubeState) (c : Claim) : Bool :=
  match x.queue with
  | [] => true
  | e :: _ => !(decide (e.state = .claiming) && decide (neededClaim x e = some (c.pool, c.amount)))

/-- Entries and run claims of a tube: what a release cannot raise. -/
def State.load (s : State) (t : Tube) : Nat :=
  4 * (s.tube t).queue.length + 2 * (runClaims t s.budget.claims).length

/-- The count a grant lowers. -/
def State.work (s : State) (t : Tube) : Nat :=
  s.load t + (headClaims t s.budget.claims).length
    + ((headClaims t s.budget.claims).filter (s.tube t).unmatched).length

theorem work_of_none {s : State} {t : Tube} (h : headClaims t s.budget.claims = []) : s.work t = s.load t := by
  simp [State.work, h]

theorem work_le {s : State} {t : Tube} (_ : (headClaims t s.budget.claims).length ≤ 1) :
    s.work t ≤ s.load t + 2 * (headClaims t s.budget.claims).length := by
  have := List.length_filter_le (s.tube t).unmatched (headClaims t s.budget.claims)
  unfold State.work; omega

/-- An event of tube `t` leaves the other tubes and their claims as they were. -/
structure Alone (t : Tube) (s u : State) : Prop where
  tube : ∀ j, j ≠ t → u.tube j = s.tube j
  claims : ∀ j, j ≠ t → headClaims j u.budget.claims = headClaims j s.budget.claims
    ∧ runClaims j u.budget.claims = runClaims j s.budget.claims

theorem Alone.refl (t : Tube) (s : State) : Alone t s s := ⟨fun _ _ => rfl, fun _ _ => ⟨rfl, rfl⟩⟩

theorem Alone.trans {t : Tube} {s u v : State} (h : Alone t s u) (g : Alone t u v) : Alone t s v where
  tube j hj := (g.tube j hj).trans (h.tube j hj)
  claims j hj := ⟨(g.claims j hj).1.trans (h.claims j hj).1, (g.claims j hj).2.trans (h.claims j hj).2⟩

theorem Alone.work {t j : Tube} {s u : State} (h : Alone t s u) (hj : j ≠ t) : u.work j = s.work j := by
  unfold State.work State.load
  rw [h.tube j hj, (h.claims j hj).1, (h.claims j hj).2]

theorem ofHead_ne {t j : Tube} {c : Claim} (h : c.tube = t) (hj : j ≠ t) : Claim.ofHead j c = false := by
  unfold Claim.ofHead; rw [h, decide_eq_false (Ne.symm hj)]; rfl

theorem ofRun_ne {t j : Tube} {c : Claim} (h : c.tube = t) (hj : j ≠ t) : Claim.ofRun j c = false := by
  unfold Claim.ofRun; rw [h, decide_eq_false (Ne.symm hj)]; rfl

theorem filter_append_none {p : Claim → Bool} {k l : List Claim} (h : ∀ c ∈ l, p c = false) :
    (k ++ l).filter p = k.filter p := by
  have : l.filter p = [] := List.filter_eq_nil_iff.mpr fun c hc => by simp [h c hc]
  rw [List.filter_append, this, List.append_nil]

/-- The list with claims of tube `t` joined. -/
theorem Alone.joined {t : Tube} {s u : State} {l : List Claim} (ht : ∀ j, j ≠ t → u.tube j = s.tube j)
    (h : u.budget.claims = s.budget.claims ++ l) (hl : ∀ c ∈ l, c.tube = t) : Alone t s u where
  tube := ht
  claims j hj := by
    rw [h]
    exact ⟨filter_append_none fun c hc => ofHead_ne (hl c hc) hj, filter_append_none fun c hc => ofRun_ne (hl c hc) hj⟩

theorem filter_erase_of_not {p : Claim → Bool} {c : Claim} (h : p c = false) :
    ∀ l : List Claim, (l.erase c).filter p = l.filter p
  | [] => rfl
  | d :: l => by
    rw [List.erase_cons]
    by_cases hd : d = c
    · subst hd; simp [h]
    · simp only [beq_iff_eq, hd, if_false, List.filter_cons, filter_erase_of_not h l]

theorem filter_erase_of {p : Claim → Bool} {c : Claim} (h : p c = true) :
    ∀ l : List Claim, (l.erase c).filter p = (l.filter p).erase c
  | [] => rfl
  | d :: l => by
    rw [List.erase_cons]
    by_cases hd : d = c
    · subst hd; simp [h]
    · by_cases hp : p d = true
      · simp [hd, hp, filter_erase_of h l]
      · simp [hd, hp, filter_erase_of h l]

/-- The list with one claim of tube `t` taken off. -/
theorem Alone.erased {t : Tube} {s u : State} {c : Claim} (ht : ∀ j, j ≠ t → u.tube j = s.tube j)
    (h : u.budget.claims = s.budget.claims.erase c) (hc : c.tube = t) : Alone t s u where
  tube := ht
  claims j hj := by
    rw [h]
    exact ⟨filter_erase_of_not (ofHead_ne hc hj) _, filter_erase_of_not (ofRun_ne hc hj) _⟩

/-! ## Releases within a scan -/

/-- At most one claim of tube `t`'s own run joins. -/
def RunJoined (t : Tube) (s u : State) : Prop :=
  ∃ l, u.budget.claims = s.budget.claims ++ l ∧ l.length ≤ 1 ∧ ∀ c ∈ l, c.tube = t ∧ c.origin.isEntry = false

theorem RunJoined.same {t : Tube} {s u : State} (h : u.budget = s.budget) : RunJoined t s u := ⟨[], by simp [h]⟩

theorem RunJoined.startRun {t : Tube} {s : State} (r : RunStart) (hr : r.origin.isEntry = false) :
    RunJoined t s (s.startRun absorbed t r) := by
  unfold State.startRun
  simp only [absorbed, ite_self]
  split
  · exact .same rfl
  · refine ⟨[_], rfl, Nat.le_refl _, ?_⟩
    intro c hc
    rw [List.mem_singleton] at hc
    subst hc
    exact ⟨rfl, hr⟩

theorem budget_freeSlot (s : State) (t : Tube) : (s.freeSlot absorbed t).budget = s.budget := by
  unfold State.freeSlot absorbed; split <;> rfl

theorem RunJoined.applyEntry (t : Tube) (s : State) (e : HeldEntry) (n : Nat) :
    RunJoined t s (s.applyEntry absorbed t e n) := by
  unfold State.applyEntry
  split
  · refine .same ?_
    unfold State.applyZone
    dsimp only
    split
    · rfl
    · split
      · rfl
      · rw [budget_freeSlot]; rfl
      · rw [budget_freeSlot]; rfl
  · unfold State.applyLine State.clearingTest State.lowerLine
    simp only [absorbed, ite_self]
    split
    · exact .same rfl
    · split
      · exact .startRun (s := s.setFlow t _ _ true) _ rfl
      · exact .same rfl
  · refine .same ?_
    unfold State.applyBoat State.boatDone
    dsimp only
    split
    · split <;> rfl
    · rfl

theorem releaseHead_joins (s : State) (t : Tube) (e : HeldEntry) (n : Nat) :
    (∀ j, j ≠ t → (s.releaseHead absorbed t e n).tube j = s.tube j)
    ∧ ((s.releaseHead absorbed t e n).tube t).queue = (s.tube t).queue.tail
    ∧ RunJoined t s (s.releaseHead absorbed t e n) := by
  have key : ∀ u : State, u.budget = s.budget → (u.tube t).queue = (s.tube t).queue.tail →
      (∀ j, j ≠ t → u.tube j = s.tube j) → ∀ g : TubeState → TubeState, (∀ x, (g x).queue = x.queue) → ∀ b : Bool,
      let v := if b then (u.applyEntry absorbed t e n).modTube t g else u.applyEntry absorbed t e n
      (∀ j, j ≠ t → v.tube j = s.tube j) ∧ (v.tube t).queue = (s.tube t).queue.tail ∧ RunJoined t s v := by
    intro u hb hq ho g hg b
    have h := Own.applyEntry (k := t) u e n
    have hr := RunJoined.applyEntry t u e n
    unfold RunJoined at hr ⊢
    rw [hb] at hr
    cases b with
    | true =>
      refine ⟨fun j hj => (tube_setTube_ne _ _ hj).trans ((h.others j hj).trans (ho j hj)), ?_, hr⟩
      show (((u.applyEntry absorbed t e n).modTube t g).tube t).queue = _
      rw [tube_modTube_eq, hg]
      exact h.queue.trans hq
    | false => exact ⟨fun j hj => (h.others j hj).trans (ho j hj), h.queue.trans hq, hr⟩
  have h := key (((s.modTube t fun x => { x with queue := x.queue.tail }).place (releasedNotice t e.channel
    (if e.held then Way.queued else Way.immediate) e.ticket e.value e.acceptedAt)).modTube t
      fun x => { x with lastReleased := e.ticket }) rfl
    (by
      rw [tube_modTube_eq]
      exact congrArg TubeState.queue (tube_modTube_eq s t fun x => { x with queue := x.queue.tail }))
    (fun j hj => (tube_setTube_ne _ _ hj).trans (tube_setTube_ne _ _ hj))
    (fun x => { x with gapTimer := startUnlessZero x.header.releaseGap }) (fun _ => rfl) (opensLine (s.tube t) e)
  exact h

/-- A release within a scan takes an entry and joins at most one run claim. -/
theorem releaseHead_load {s : State} {t : Tube} {e : HeldEntry} {n : Nat} (hq : (s.tube t).queue ≠ []) :
    Alone t s (s.releaseHead absorbed t e n) ∧ (s.releaseHead absorbed t e n).load t + 2 ≤ s.load t
      ∧ headClaims t (s.releaseHead absorbed t e n).budget.claims = headClaims t s.budget.claims := by
  obtain ⟨ho, hq', l, hc, hl, hr⟩ := releaseHead_joins s t e n
  refine ⟨.joined ho hc fun c h => (hr c h).1, ?_, ?_⟩
  · unfold State.load runClaims
    rw [hq', hc, List.filter_append, List.length_append, List.length_tail]
    have := List.length_filter_le (Claim.ofRun t) l
    have := List.length_pos_iff.mpr hq
    omega
  · rw [hc]; exact filter_append_none fun c h => by simp [Claim.ofHead, (hr c h).2]

/-! ## The examination of a head within a scan -/

theorem neededClaim_queue (x : TubeState) (q : List HeldEntry) (e f : HeldEntry) (hk : f.kind = e.kind)
    (hv : f.value = e.value) : neededClaim { x with queue := q } f = neededClaim x e := by
  unfold neededClaim; rw [hk, hv]

theorem setHead_tube (s : State) (t : Tube) (e : HeldEntry) :
    (s.setHead t e).tube t = { s.tube t with queue := e :: (s.tube t).queue.tail } := tube_modTube_eq _ _ _

theorem setHead_load {s : State} {t : Tube} {e : HeldEntry} (h : (s.tube t).queue ≠ []) :
    Alone t s (s.setHead t e) ∧ (s.setHead t e).load t = s.load t
      ∧ (s.setHead t e).budget = s.budget := by
  refine ⟨⟨fun j hj => tube_setTube_ne _ _ hj, fun _ _ => ⟨rfl, rfl⟩⟩, ?_, rfl⟩
  unfold State.load
  rw [setHead_tube]
  have := List.length_pos_iff.mpr h
  simp only [List.length_cons, List.length_tail]
  show 4 * _ + 2 * (runClaims t s.budget.claims).length = _
  omega

/-- An examination within a scan, of a tube whose queue has no claim: at most one claim joins, and the head needs it. -/
theorem examineLoop_work (t : Tube) : ∀ (fuel : Nat) (s : State), headClaims t s.budget.claims = [] →
    let u := State.examineLoop absorbed t fuel s
    Alone t s u ∧ u.work t ≤ s.load t + 1 ∧ (headClaims t u.budget.claims).length ≤ 1
  | 0, s, h => ⟨.refl _ _, by rw [State.examineLoop, work_of_none h]; omega, by rw [State.examineLoop, h]; simp⟩
  | fuel + 1, s, h => by
    have stay : Alone t s s ∧ s.work t ≤ s.load t + 1 ∧ (headClaims t s.budget.claims).length ≤ 1 :=
      ⟨.refl _ _, by rw [work_of_none h]; omega, by rw [h]; simp⟩
    simp only [State.examineLoop]
    split
    · exact stay
    · next e rest hq =>
      have hne : (s.tube t).queue ≠ [] := by rw [hq]; simp
      split
      · exact stay
      · split
        · obtain ⟨ha, hl, hc⟩ := releaseHead_load (e := e) (n := 0) hne
          obtain ⟨ia, il, ic⟩ := examineLoop_work t fuel _ (hc.trans h)
          exact ⟨ha.trans ia, by omega, ic⟩
        · next p a hst hnd =>
          obtain ⟨ha, hl, hb⟩ := setHead_load (e := { e with state := .claiming, claim := some (p, a) }) hne
          obtain ⟨g, hg⟩ : ∃ g, g = s.setHead t { e with state := .claiming, claim := some (p, a) } := ⟨_, rfl⟩
          rw [← hg] at ha hl hb
          have hh : headClaims t (s.budget.claims ++ [⟨t, p, a, .process, g.budget.joinCounter, .entry e.ticket e.channel, true⟩])
              = [⟨t, p, a, .process, g.budget.joinCounter, .entry e.ticket e.channel, true⟩] := by
            rw [headClaims, List.filter_append, show s.budget.claims.filter (Claim.ofHead t) = [] from h]
            simp [Claim.ofHead, Origin.isEntry]
          have hj : (absorbed (g.joinClaim t p a .process (.entry e.ticket e.channel))).budget.claims
              = s.budget.claims ++ [⟨t, p, a, .process, g.budget.joinCounter, .entry e.ticket e.channel, true⟩] := by
            show g.budget.claims ++ _ = _
            rw [hb]
          have hal : Alone t s (absorbed (g.joinClaim t p a .process (.entry e.ticket e.channel))) :=
            .joined ha.tube hj fun c hc => by rw [List.mem_singleton.mp hc]
          rw [← hg]
          refine ⟨hal, ?_, ?_⟩
          · rw [State.work, hj, hh]
            have hx : (absorbed (g.joinClaim t p a .process (.entry e.ticket e.channel))).tube t = g.tube t := rfl
            have hm : (g.tube t).unmatched ⟨t, p, a, .process, g.budget.joinCounter, .entry e.ticket e.channel, true⟩
                = false := by
              rw [hg, setHead_tube]
              have hn := (neededClaim_queue (s.tube t) ({ e with state := .claiming, claim := some (p, a) } ::
                (s.tube t).queue.tail) e { e with state := .claiming, claim := some (p, a) } rfl rfl).trans hnd
              simp only [TubeState.unmatched, hn]
              simp
            have hld : (absorbed (g.joinClaim t p a .process (.entry e.ticket e.channel))).load t = s.load t := by
              rw [← hl]
              unfold State.load
              rw [hj, hx, runClaims, List.filter_append]
              simp [Claim.ofRun, Origin.isEntry, runClaims, hb]
            rw [hx, hld]
            simp [hm]
          · rw [hj, hh]; simp
        · split
          · exact stay
          · obtain ⟨ha, hl, hb⟩ := setHead_load (e := e.toWaiting) hne
            have hw : (s.setHead t e.toWaiting).withdraw absorbed (Claim.ofHead t) = s.setHead t e.toWaiting := by
              unfold State.withdraw
              rw [if_neg]
              rw [hb, Bool.not_eq_true, List.any_eq_false]
              exact fun c hc => by simpa using List.filter_eq_nil_iff.mp h c hc
            rw [hw]
            obtain ⟨ia, il, ic⟩ := examineLoop_work t fuel _ (by rw [hb]; exact h)
            exact ⟨ha.trans ia, by omega, ic⟩

/-! ## Grants -/

theorem mem_erase_none {p : Claim → Bool} {l : List Claim} {c : Claim} (hc : c ∈ l) (hp : p c = true)
    (h : (l.filter p).length ≤ 1) : l.filter p = [c] ∧ (l.erase c).filter p = [] := by
  have hm : c ∈ l.filter p := List.mem_filter.mpr ⟨hc, hp⟩
  have h1 : l.filter p = [c] := by
    match hl : l.filter p, hm, h with
    | [x], hm, _ => rw [List.mem_singleton] at hm; rw [hm]
    | _ :: _ :: _, _, h => simp at h
  refine ⟨h1, ?_⟩
  rw [filter_erase_of hp, h1]
  simp

theorem origin_isEntry {c : Claim} (h : c.origin.isEntry = true) : Claim.ofHead c.tube c = true ∧ Claim.ofRun c.tube c = false := by
  simp [Claim.ofHead, Claim.ofRun, h]

/-- A grant changes its claimant's tube alone, and lowers its count. -/
theorem grant_work {s : State} {c : Claim} (hc : c ∈ s.budget.claims)
    (h1 : (headClaims c.tube s.budget.claims).length ≤ 1) :
    Alone c.tube s (s.grant c) ∧ (s.grant c).work c.tube + 1 ≤ s.work c.tube
      ∧ (headClaims c.tube (s.grant c).budget.claims).length ≤ 1 := by
  obtain ⟨t, ht⟩ : ∃ t, t = c.tube := ⟨_, rfl⟩
  rw [← ht] at h1 ⊢
  unfold State.grant
  dsimp only
  obtain ⟨s1, hs1⟩ : ∃ s1, s1 = s.modBudget fun b => { b with claims := b.claims.erase c } := ⟨_, rfl⟩
  rw [← hs1, ← ht]
  have htube : ∀ j, s1.tube j = s.tube j := fun j => by rw [hs1]; rfl
  have hcl : s1.budget.claims = s.budget.claims.erase c := by rw [hs1]; rfl
  have hal : Alone t s s1 := .erased (fun j _ => htube j) hcl ht.symm
  cases hen : c.origin.isEntry with
  | true =>
    simp only [if_true]
    obtain ⟨o1, o2⟩ := origin_isEntry hen
    rw [← ht] at o1 o2
    obtain ⟨e1, e2⟩ := mem_erase_none hc o1 h1
    have hnone : headClaims t s1.budget.claims = [] := by rw [hcl]; exact e2
    have hload : s1.load t = s.load t := by
      unfold State.load runClaims
      rw [htube, hcl, filter_erase_of_not o2]
    have hwork : s.work t = s.load t + 1 + (if (s.tube t).unmatched c = true then 1 else 0) := by
      unfold State.work headClaims
      rw [e1]
      by_cases hu : (s.tube t).unmatched c = true <;> simp [hu]
    have done : ∀ u : State, Alone t s1 u → u.load t = s1.load t → u.budget = s1.budget →
        Alone t s u ∧ u.work t + 1 ≤ s.work t ∧ (headClaims t u.budget.claims).length ≤ 1 := by
      intro u ha hl hb
      have hn : headClaims t u.budget.claims = [] := by rw [hb]; exact hnone
      refine ⟨hal.trans ha, ?_, by rw [hn]; simp⟩
      rw [work_of_none hn, hl, hload, hwork]; omega
    unfold State.headGrant
    split
    · exact done _ (.refl _ _) rfl rfl
    · next e rest hq =>
      have hne : (s1.tube t).queue ≠ [] := by rw [hq]; simp
      split
      · exact done _ (.refl _ _) rfl rfl
      · next hst =>
        split
        · obtain ⟨ha, hl, hb⟩ := setHead_load (e := e.toWaiting) hne
          exact done _ ha hl hb
        · split
          · obtain ⟨ha, hl, hb⟩ := releaseHead_load (e := e) (n := if c.pool = .exhaust then c.amount else 0) hne
            obtain ⟨ia, il, ic⟩ := examineLoop_work t (examineFuel (s1.releaseHead absorbed t e
              (if c.pool = .exhaust then c.amount else 0)) t) _ (hb.trans hnone)
            refine ⟨(hal.trans ha).trans ia, ?_, ic⟩
            show (State.examineLoop _ _ _ _).work t + 1 ≤ _
            omega
          · next hnd =>
            obtain ⟨ha, hl, hb⟩ := setHead_load (e := e.toWaiting) hne
            obtain ⟨ia, il, ic⟩ := examineLoop_work t (examineFuel (s1.setHead t e.toWaiting) t) _
              (by rw [hb]; exact hnone)
            have hu : (s.tube t).unmatched c = true := by
              rw [← htube]; unfold TubeState.unmatched; rw [hq]; simp [hnd]
            rw [if_pos hu] at hwork
            refine ⟨(hal.trans ha).trans ia, ?_, ic⟩
            show (State.examineLoop _ _ _ _).work t + 1 ≤ _
            omega
  | false =>
    simp only [Bool.false_eq_true, if_false]
    have o1 : Claim.ofHead t c = false := by simp [Claim.ofHead, hen]
    have o2 : Claim.ofRun t c = true := by simp [Claim.ofRun, hen, ht]
    have hq : ((s1.runGrant t).tube t).queue = (s.tube t).queue ∧ ∀ j, j ≠ t → (s1.runGrant t).tube j = s1.tube j := by
      unfold State.runGrant
      split
      · exact ⟨by rw [htube], fun _ _ => rfl⟩
      · refine ⟨?_, fun j hj => ?_⟩
        · rw [tube_modTube_eq]
          show ((State.modGas _ _ _).tube t).queue = _
          unfold State.modGas
          rw [tube_modTube_eq]
          show ((s1.setFlow _ _ _ _).tube t).queue = _
          rw [(Own.setFlow _ _ _ _).queue, htube]
        · exact (tube_setTube_ne _ _ hj).trans ((tube_setTube_ne _ _ hj).trans ((Own.setFlow _ _ _ _).others j hj))
    have hb : (s1.runGrant t).budget.claims = s.budget.claims.erase c := by rw [runGrant_budget, hcl]
    have hh : headClaims t (s1.runGrant t).budget.claims = headClaims t s.budget.claims := by
      rw [hb]; exact filter_erase_of_not o1 _
    have hlen : (runClaims t (s1.runGrant t).budget.claims).length + 1 = (runClaims t s.budget.claims).length := by
      unfold runClaims
      have hm : c ∈ s.budget.claims.filter (Claim.ofRun t) := List.mem_filter.mpr ⟨hc, o2⟩
      rw [hb, filter_erase_of o2, List.length_erase_of_mem hm]
      have := List.length_pos_of_mem hm
      omega
    refine ⟨hal.trans ⟨hq.2, fun j _ => by rw [runGrant_budget]; exact ⟨rfl, rfl⟩⟩, ?_, by rw [hh]; exact h1⟩
    have hw := work_le (s := s1.runGrant t) (t := t) (by rw [hh]; exact h1)
    have : s.load t + (headClaims t s.budget.claims).length ≤ s.work t := by unfold State.work; omega
    rw [hh] at hw
    have hl : (s1.runGrant t).load t + 2 = s.load t := by
      unfold State.load; rw [hq.1]; omega
    omega

/-! ## The scan -/

/-- The sum of the four tubes' counts. -/
def State.allWork (s : State) : Nat := (Ix4.all.map s.work).sum

/-- A grant lowers the sum. -/
theorem grant_allWork {s : State} {c : Claim} (hc : c ∈ s.budget.claims)
    (h1 : ∀ t, (headClaims t s.budget.claims).length ≤ 1) :
    (s.grant c).allWork + 1 ≤ s.allWork ∧ ∀ t, (headClaims t (s.grant c).budget.claims).length ≤ 1 := by
  obtain ⟨ha, hw, hn⟩ := grant_work hc (h1 c.tube)
  constructor
  · have e : ∀ j, j ≠ c.tube → (s.grant c).work j = s.work j := fun j hj => ha.work hj
    simp only [State.allWork, Ix4.all, List.map_cons, List.map_nil, List.sum_cons, List.sum_nil]
    generalize c.tube = t at e hw
    cases t
    · rw [e .i1 (by decide), e .i2 (by decide), e .i3 (by decide)]; omega
    · rw [e .i0 (by decide), e .i2 (by decide), e .i3 (by decide)]; omega
    · rw [e .i0 (by decide), e .i1 (by decide), e .i3 (by decide)]; omega
    · rw [e .i0 (by decide), e .i1 (by decide), e .i2 (by decide)]; omega
  · intro t
    by_cases h : t = c.tube
    · rw [h]; exact hn
    · rw [(ha.claims t h).1]; exact h1 t

theorem scanLoop_ends : ∀ (n : Nat) (p : Pool) (tried : Bool) (s : State),
    (∀ t, (headClaims t s.budget.claims).length ≤ 1) → 2 * s.allWork + (if tried then 1 else 2) ≤ n →
    (tried = true → ∀ d, s.budget.front p.other = some d → s.freeOf p.other < d.amount) →
    ∀ q c, (State.scanLoop n p tried s).budget.front q = some c → (State.scanLoop n p tried s).freeOf q < c.amount := by
  intro n
  induction n with
  | zero => intro p b s _ h; exfalso; revert h; cases b <;> simp
  | succ n ih =>
    intro p b s h1 hn hb
    have hoth : ∀ p : Pool, p.other.other = p := by intro p; cases p <;> rfl
    have hcase : ∀ q : Pool, q = p ∨ q = p.other := by intro q; cases p <;> cases q <;> simp [Pool.other]
    have skip : (∀ d, s.budget.front p = some d → s.freeOf p < d.amount) → ∀ q c,
        (if b then s else State.scanLoop n p.other true s).budget.front q = some c →
        (if b then s else State.scanLoop n p.other true s).freeOf q < c.amount := by
      intro hno
      cases b with
      | true =>
        intro q c hc
        rcases hcase q with rfl | rfl
        · exact hno c hc
        · exact hb rfl c hc
      | false =>
        simp at hn
        have := ih p.other true s h1 (by simp; omega) (by rw [hoth]; exact fun _ => hno)
        simpa using this
    unfold State.scanLoop
    split
    · next c hc =>
      by_cases hf : c.amount ≤ s.freeOf p
      · rw [if_pos hf]
        obtain ⟨hg, hk⟩ := grant_allWork (mem_front hc) h1
        exact ih p false (s.grant c) hk (by simp at hn ⊢; split at hn <;> omega) (by simp)
      · rw [if_neg hf]
        exact skip fun d hd => by rw [hc] at hd; cases hd; omega
    · next hc => exact skip fun d hd => by rw [hc] at hd; cases hd

theorem claims_split (l : List Claim) :
    l.length = (Ix4.all.map fun t => (headClaims t l).length + (runClaims t l).length).sum := by
  simp only [Ix4.all, List.map_cons, List.map_nil, List.sum_cons, List.sum_nil, headClaims, runClaims]
  induction l with
  | nil => rfl
  | cons c l ih =>
    have hh : ∀ t, Claim.ofHead t c = (decide (c.tube = t) && c.origin.isEntry) := fun _ => rfl
    have hr : ∀ t, Claim.ofRun t c = (decide (c.tube = t) && !c.origin.isEntry) := fun _ => rfl
    simp only [List.length_cons, List.filter_cons, hh, hr]
    generalize c.tube = t, c.origin.isEntry = b
    cases t <;> cases b <;> simp <;> omega

theorem allWork_fuel {s : State} (h : ∀ t, (headClaims t s.budget.claims).length ≤ 1) :
    2 * s.allWork + 2 ≤ scanFuel s := by
  have hc := claims_split s.budget.claims
  have w := fun t => work_le (h t)
  unfold scanFuel
  simp only [State.allWork, Ix4.all, List.map_cons, List.map_nil, List.sum_cons, List.sum_nil] at hc ⊢
  have w0 := w .i0
  have w1 := w .i1
  have w2 := w .i2
  have w3 := w .i3
  unfold State.load at w0 w1 w2 w3
  omega

/-- R131: a scan goes on until no front claim fits. -/
theorem scan_ends {s : State} (h : ∀ t, (headClaims t s.budget.claims).length ≤ 1) :
    ∀ p c, s.scan.budget.front p = some c → s.scan.freeOf p < c.amount :=
  scanLoop_ends _ _ _ s h (by simpa using allWork_fuel h) (by simp)

/-- One claim a tube's queue (R128), as pairs of a list. -/
theorem headClaims_le_one {l : List Claim}
    (h : l.Pairwise fun c d => c.origin.isEntry = true → d.origin.isEntry = true → c.tube ≠ d.tube) (t : Tube) :
    (headClaims t l).length ≤ 1 := by
  have hp := List.Pairwise.filter (Claim.ofHead t) h
  have hm : ∀ c ∈ headClaims t l, c.tube = t ∧ c.origin.isEntry = true := fun c hc => by
    have := (List.mem_filter.mp hc).2
    simpa [Claim.ofHead] using this
  unfold headClaims at hm ⊢
  match hl : l.filter (Claim.ofHead t), hp, hm with
  | [], _, _ => simp
  | [_], _, _ => simp
  | a :: b :: r, hp, hm =>
    rw [List.pairwise_cons] at hp
    have ha := hm a (by simp)
    have hb := hm b (by simp)
    exact absurd (ha.1.trans hb.1.symm) (hp.1 b (by simp) ha.2 hb.2)

end Sys2Proof.Machine
end

