-- ==== Sys2Proof/Laws/LedgerSteps.lean ====
section
/-! SUPPORT. The Bank Budget's books through every event of a tube. -/

namespace Sys2Proof.Machine

variable {s u : State} {t k : Tube} {nr nh : Tube → Prop}

theorem Ledger.unmoved (h : Ledger nr nh s) (g : Unmoved s u) : Ledger nr nh u :=
  h.same g.tubes g.root g.binding g.capacity g.slots g.claims

theorem Benign.pass (x : TubeState) (n : Nat) : Benign x (x.pass n) where
  mode := .inl
  header := rfl
  lines := rfl
  run := rfl
  atmosphere := rfl
  sampleTimer := fun c e => c (by simp [TubeState.pass, e, Timer.pass])
  queue := by simp [TubeState.pass]
  slot := id

theorem Ledger.elapse (h : Ledger nr nh s) (n : Nat) : Ledger nr nh (s.elapse n) :=
  h.allBenign (fun k => by rw [tube_elapse]; exact .pass _ n) rfl rfl rfl rfl rfl

theorem Ledger.modTube (h : Ledger nr nh s) (f : TubeState → TubeState) (b : Benign (s.tube t) (f (s.tube t))) :
    Ledger nr nh (s.modTube t f) := h.benign b

/-- A change of the gas that leaves lines, run and atmosphere, and starts no sample timer. -/
theorem Ledger.modGas (h : Ledger nr nh s) (f : Gas → Gas) (hl : (f (s.tube t).gas).lines = (s.tube t).gas.lines)
    (hr : (f (s.tube t).gas).run = (s.tube t).gas.run) (ha : (f (s.tube t).gas).atmosphere = (s.tube t).gas.atmosphere)
    (hs : (f (s.tube t).gas).sampleTimer ≠ none → (s.tube t).gas.sampleTimer ≠ none) : Ledger nr nh (s.modGas t f) :=
  h.benign ⟨.inl, rfl, hl, hr, ha, hs, rfl, id⟩

/-! ## A tube without claims is left alone -/

def State.NoClaim (s : State) (t : Tube) : Prop := ∀ c ∈ s.budget.claims, c.tube ≠ t

theorem Ledger.headClaims (h : Ledger nr nh s) (t : Tube) : (headClaims t s.budget.claims).length ≤ 1 :=
  headClaims_le_one (h.apart.imp fun {c d} g hc hd e => by have := g e; rw [hc, hd] at this; exact this rfl) t

theorem noClaim_iff {t : Tube} {l : List Claim} :
    (∀ c ∈ l, c.tube ≠ t) ↔ Machine.headClaims t l = [] ∧ runClaims t l = [] := by
  unfold Machine.headClaims runClaims
  rw [List.filter_eq_nil_iff, List.filter_eq_nil_iff]
  constructor
  · intro h
    exact ⟨fun c hc => by simp [Claim.ofHead, h c hc], fun c hc => by simp [Claim.ofRun, h c hc]⟩
  · rintro ⟨a, b⟩ c hc rfl
    have a := a c hc
    have b := b c hc
    cases he : c.origin.isEntry <;> simp [Claim.ofHead, Claim.ofRun, he] at a b

theorem Ledger.scanLoop_spares (ht : ∀ c ∈ s.budget.claims, c.tube ≠ t) (h : Ledger nr nh s) :
    ∀ (fuel : Nat) (p : Pool) (b : Bool), (State.scanLoop fuel p b s).tube t = s.tube t
      ∧ (State.scanLoop fuel p b s).NoClaim t := by
  intro fuel
  induction fuel generalizing s with
  | zero => exact fun _ _ => ⟨rfl, ht⟩
  | succ fuel ih =>
    intro p b
    unfold State.scanLoop
    split
    · next c hc =>
      split
      · next hf =>
        have hm := mem_front hc
        have hn : t ≠ c.tube := fun e => ht c hm e.symm
        obtain ⟨ha, _, _⟩ := grant_work hm (h.headClaims c.tube)
        have hg := h.grant hm (by rw [front_pool hc]; exact hf)
        have hno : (s.grant c).NoClaim t := by
          have := noClaim_iff.mp ht
          refine noClaim_iff.mpr ?_
          rw [(ha.claims t hn).1, (ha.claims t hn).2]
          exact this
        obtain ⟨a, b⟩ := ih hno hg p false
        exact ⟨a.trans (ha.tube t hn), b⟩
      · split
        · exact ⟨rfl, ht⟩
        · exact ih ht h _ _
    · split
      · exact ⟨rfl, ht⟩
      · exact ih ht h _ _

/-- A scan leaves a tube without claims as it was. -/
theorem Ledger.rescan_spares (h : Ledger nr nh s) (ht : s.NoClaim t) :
    s.rescan.tube t = s.tube t ∧ s.rescan.NoClaim t := by
  obtain ⟨a, b⟩ := h.scanLoop_spares ht (scanFuel s) .exhaust false
  have key : ∀ u : State, u.announce.tubes = u.tubes ∧ (u.NoClaim t → u.announce.NoClaim t) := by
    intro u
    unfold State.announce
    have g := Unmoved.foldl (f := fun acc c => acc.place (claimWaitNotice acc c)) (fun s _ => .place s _)
      (u.budget.claims.filter (·.fresh)) (u.modBudget fun b => { b with claims := b.claims.map (fun c => { c with fresh := false }) })
    refine ⟨g.tubes, fun hn c hc => ?_⟩
    rw [g.claims] at hc
    obtain ⟨d, hd, rfl⟩ := List.mem_map.mp hc
    exact hn d hd
  obtain ⟨c, d⟩ := key s.scan
  exact ⟨by unfold State.rescan State.tube; rw [c]; exact a, d b⟩

/-! ## Removals -/

/-- The queue filtered, with nothing said of its claim. -/
theorem Ledger.filterQueue (h : Ledger nr nh s) (f : HeldEntry → Bool)
    (hh : s.NoHeadClaim t ∨ ∀ e q, (s.tube t).queue = e :: q → e.state = .claiming → f e = true) :
    Ledger nr nh (s.modTube t fun x => { x with queue := x.queue.filter f }) := by
  refine h.setTube (x := { s.tube t with queue := (s.tube t).queue.filter f }) ⟨.inl, rfl, fun _ => rfl, fun e he =>
    .inl ⟨e, (List.mem_filter.mp he).1, rfl⟩⟩ (hh.imp id fun g c => ?_) (.inr fun c g => ⟨g.pool, g.owned, g.purge, g.run⟩)
    (h.sampling t) (Nat.le_add_right _ _) .inl fun g => (h.noRun t g).1
  obtain ⟨e, q, hq, he⟩ := c
  refine ⟨e, q.filter f, ?_, he⟩
  show (s.tube t).queue.filter f = _
  rw [hq, List.filter_cons, if_pos (g e q hq he)]

/-- What follows a removal that took the head's claim with it. -/
theorem Ledger.removed (h : Ledger nr nh s) {v : State} (f : HeldEntry → Bool)
    (hv : Unmoved (s.modTube t fun x => { x with queue := x.queue.filter f }) v) :
    Ledger nr (Also t nh) (v.withdraw State.rescan (Claim.ofHead t)) := by
  refine Ledger.withdrawHead .rescanned ?_
  have g := h.withoutHead t
  refine (g.filterQueue (t := t) f (.inl (g.noHead t (.inl rfl)))).same hv.tubes hv.root hv.binding hv.capacity hv.slots ?_
  show v.budget.claims.filter _ = _
  rw [hv.claims]; rfl

theorem Ledger.supersede (h : Ledger nr nh s) (w : HeldEntry → Bool) (y : Way) (n : Word) :
    Ledger nr nh (s.supersede t w y n) := by
  unfold State.supersede
  simp only
  have hv := Unmoved.foldl (f := fun acc e => acc.place (supersededNotice t e y n)) (fun s _ => .place s _)
    ((s.tube t).queue.filter w) (s.modTube t fun x => { x with queue := x.queue.filter fun e => !w e })
  split
  · exact Ledger.dropHead (t := t) (h.removed _ hv)
  · next hr =>
    refine (h.filterQueue (t := t) (fun e => !w e) (.inr fun e q hq he => ?_)).unmoved hv
    cases hw : w e with
    | false => rfl
    | true =>
      exfalso
      apply hr
      rw [List.any_eq_true]
      exact ⟨e, List.mem_filter.mpr ⟨by rw [hq]; exact List.mem_cons_self .., hw⟩, by simp [he]⟩

theorem Unmoved.placeFlushed (o : FlushOrigin) : ∀ (n : Nat) (q : List HeldEntry) (s : State),
    Unmoved s (placeFlushed t o n q s)
  | _, [], s => .refl s
  | n, _ :: q, s => (Unmoved.place s _).trans (Unmoved.placeFlushed o (n + 1) q _)

/-- R46: a flush leaves no claim of the queue. -/
theorem Ledger.flush (h : Ledger nr nh s) (o : FlushOrigin) : Ledger nr (Also t nh) (s.flush t o) := by
  have tail : ∀ {v : State}, Ledger nr (Also t nh) v → Ledger nr (Also t nh) (v.modTube t fun x => { x with queue := [] }) :=
    fun {v} h1 => h1.setTube (x := { v.tube t with queue := [] }) ⟨.inl, rfl, fun _ => rfl, fun e he => nomatch he⟩
      (.inl (h1.noHead t (.inl rfl))) (.inr fun c g => ⟨g.pool, g.owned, g.purge, g.run⟩) (h1.sampling t)
      (Nat.le_add_right _ _) .inl fun g => (h1.noRun t g).1
  unfold State.flush
  simp only
  refine Ledger.unmoved (tail ?_) (.placeFlushed o 0 _ _)
  split
  · next hq => exact h.alsoHead (h.noHeadClaim fun ⟨e, q, c, _⟩ => by rw [hq] at c; cases c)
  · next e q hq =>
    split
    · exact Ledger.withdrawHead .rescanned (h.withoutHead t)
    · next he => exact h.alsoHead (h.noHeadClaim fun ⟨d, r, c, hd⟩ => by rw [hq] at c; cases c; exact he hd)

/-! ## Expiries of the queue -/

theorem Ledger.entryExpired (h : s.Booked) {e d : HeldEntry}
    (hf : (s.tube k).queue.find? (fun f => f.ticket == e.ticket) = some d) (hd : d.state = e.state) :
    (s.entryExpired k e).Booked := by
  unfold State.entryExpired
  simp only
  generalize entriesAhead (s.tube k).queue e.ticket = n
  have tail : ∀ {v : State}, v.Booked → (if n = 0 then State.examine ((v.place (expiredNotice k e n)).modSummary k
      fun f => { f with expiredAny := true }) k else (v.place (expiredNotice k e n)).modSummary k
      fun f => { f with expiredAny := true }).Booked := fun {v} hv => by
    have h1 := (hv.place (expiredNotice k e n)).modSummary (t := k) fun f => { f with expiredAny := true }
    split
    · exact Ledger.examine h1 k
    · exact h1
  apply tail
  split
  · exact Ledger.dropHead (t := k) (h.removed _ (.refl _))
  · next he =>
    refine h.filterQueue _ (.inr fun a q hq ha => ?_)
    cases hw : (a.ticket != e.ticket) with
    | true => rfl
    | false =>
      exfalso
      rw [hq, List.find?_cons] at hf
      have : (a.ticket == e.ticket) = true := by simpa using hw
      rw [this] at hf
      cases hf
      exact he (hd ▸ ha)

theorem Ledger.gapExpired (h : s.Booked) : (s.gapExpired k).Booked :=
  Ledger.examine (h.modTube (t := k) _ ⟨.inl, rfl, rfl, rfl, rfl, id, rfl, id⟩) k

/-! ## Ramps -/

theorem Ledger.foldlTube {α : Type} {f : State → α → State} (hf : ∀ s a, Ledger nr nh s → Ledger nr nh (f s a)) (l : List α)
    (h : Ledger nr nh s) : Ledger nr nh (l.foldl f s) := Ledger.foldl hf l h

theorem Ledger.setZone (h : Ledger nr nh s) (z : Zone) (v : Word) : Ledger nr nh (s.setZone t z v) :=
  (h.modRamp _ id).deliver _ _ _

theorem Ledger.moveZone (h : Ledger nr nh s) (z : Zone) : Ledger nr nh (s.moveZone t z) := by
  unfold State.moveZone
  simp only
  split
  · exact h.setZone z _
  · exact h

theorem Ledger.stepExpired (h : s.Booked) : (s.stepExpired k).Booked := by
  unfold State.stepExpired
  simp only
  have h1 : (s.modRamp k fun r => { r with stepTimer := some (s.tube k).header.stepPeriod }).Booked := h.modRamp _ id
  generalize (s.modRamp k fun r => { r with stepTimer := some (s.tube k).header.stepPeriod }) = s1 at h1
  split
  · unfold State.lagHold
    simp only
    split
    · exact (h1.modRamp _ id).place _
    · exact h1
  · have h2 : (Ix5.all.foldl (fun acc z => acc.moveZone k z) s1).Booked := Ledger.foldl (fun s z h => h.moveZone z) _ h1
    have h3 := h2.modRamp (t := k) (fun r => { r with thermal := .ramping, cause := .none }) id
    generalize (Ix5.all.foldl (fun acc z => acc.moveZone k z) s1).modRamp k
      (fun r => { r with thermal := .ramping, cause := .none }) = s3 at h3
    unfold State.afterMoves
    simp only
    split
    · exact (h3.modRamp _ id).freeSlot .rescanned
    · exact h3.modRamp _ id
    · exact (h3.modRamp _ id).freeSlot .rescanned

theorem Ledger.settleExpired (h : s.Booked) : (s.settleExpired k).Booked := by
  unfold State.settleExpired State.settleFailed State.settlePassed
  simp only
  split
  · split
    · exact (h.modRamp _ id).place _
    · exact h.modRamp _ id
  · exact ((h.modRamp _ id).place _).modSummary _

/-! ## The boat -/

theorem Ledger.requestAbort (h : Ledger nr nh s) (r : AbortRequest) : Ledger nr nh (s.requestAbort r) :=
  h.unmoved (.requestAbort s r)

theorem Ledger.motionExpired (h : s.Booked) : (s.motionExpired k).Booked := by
  unfold State.motionExpired
  simp only
  have tail : ∀ {v : State}, v.Booked → (v.afterMove k).Booked := fun {v} hv => by
    unfold State.afterMove State.boatDone
    simp only
    split
    · exact ((hv.modBoat _).modBoat _).requestAbort _
    · split
      · exact (((hv.modBoat _).modBoat _).modSummary _).place _
      · exact (hv.modBoat _).modBoat _
  apply tail
  split
  · exact h.modBoat _
  · exact ((h.modBoat _).modBoat _).deliver _ _ _

/-! ## Gas -/

theorem Ledger.noRunClaim_of_none (h : Ledger nr nh s) (hr : (s.tube t).gas.run = none) : s.NoRunClaim t :=
  fun c hc ht => by
    cases he : c.origin.isEntry with
    | true => rfl
    | false =>
      obtain ⟨r, h1, _⟩ := (ht ▸ h.runs c hc he).run
      rw [hr] at h1; cases h1

theorem Ledger.endAbort (h : Ledger nr nh s) (w : Word) : Ledger nr nh (s.endAbort k w) :=
  Ledger.place (h.modTube _ ⟨(fun c => absurd c (by simp [Mode.working])), rfl, rfl, rfl, rfl, id, rfl, id⟩) _

theorem Ledger.completeRun (h : s.Booked) (q : Run) (hs : (s.tube k).gas.sampleTimer ≠ none) : (s.completeRun k q).Booked := by
  have hn : s.NoRunClaim k := fun c hc ht => by
    cases he : c.origin.isEntry with
    | true => rfl
    | false =>
      obtain ⟨r, h1, h2, _⟩ := (ht ▸ h.runs c hc he).run
      obtain ⟨r', g1, g2⟩ := h.sampling k hs
      rw [h1] at g1; cases g1; rw [h2] at g2; cases g2
  unfold State.completeRun
  simp only
  generalize hs1 : (s.modGas k fun g =>
    { g with sampleTimer := none, limitTimer := none, atmosphere := .inert, run := none }) = s1
  have h1 : s1.Booked := by
    rw [← hs1]
    exact h.setTube (x := { s.tube k with gas := { (s.tube k).gas with
      sampleTimer := none, limitTimer := none, atmosphere := .inert, run := none } })
      ⟨.inl, rfl, fun _ => rfl, fun e he => .inl ⟨e, he, rfl⟩⟩ (.inr id) (.inl hn) (fun c => absurd rfl c) (Nat.le_add_right _ _)
      .inl fun g => g.elim
  have hl : s1.lineRec k (s.tube k).header.purgeLine = s.lineRec k (s.tube k).header.purgeLine := by
    rw [← hs1]
    show (State.tube (State.modGas _ _ _) k).gas.lines.get _ = _
    rw [State.modGas, tube_modTube_eq]; rfl
  have h2 : (s1.lowerLine State.rescan k (s.tube k).header.purgeLine
      (if (s.tube k).header.standbyFlow.toNat ≤ (s.lineRec k (s.tube k).header.purgeLine).flow.toNat then
        (s.tube k).header.standbyFlow else (s.lineRec k (s.tube k).header.purgeLine).flow)).Booked := by
    refine h1.lowerLine .rescanned ?_ (.inr (by rw [← hs1]; exact hn))
    rw [hl]
    split
    · assumption
    · exact Nat.le_refl _
  generalize s1.lowerLine State.rescan k (s.tube k).header.purgeLine
      (if (s.tube k).header.standbyFlow.toNat ≤ (s.lineRec k (s.tube k).header.purgeLine).flow.toNat then
        (s.tube k).header.standbyFlow else (s.lineRec k (s.tube k).header.purgeLine).flow) = s2 at h2
  have tail : ∀ {v : State} {n : Notice} {f : Summary → Summary} {w : Word}, v.Booked →
      (if (((v.modSummary k f).place n).tube k).mode = .aborting then ((v.modSummary k f).place n).endAbort k w
        else (v.modSummary k f).place n).Booked := fun {v n f w} hv => by
    have := (hv.modSummary (t := k) f).place n
    split
    · exact this.endAbort _
    · exact this
  exact tail h2

theorem Ledger.sampleExpired (h : s.Booked) (hs : (s.tube k).gas.sampleTimer ≠ none) : (s.sampleExpired k).Booked := by
  obtain ⟨r, hr, hf⟩ := h.sampling k hs
  have hn : s.NoRunClaim k := fun c hc ht => by
    cases he : c.origin.isEntry with
    | true => rfl
    | false =>
      obtain ⟨r', g1, g2, _⟩ := (ht ▸ h.runs c hc he).run
      rw [hr] at g1; cases g1; rw [hf] at g2; cases g2
  unfold State.sampleExpired
  simp only
  generalize hs1 : (s.modGas k fun g => g.addSample (s.purgeFlowUsed k) (s.tube k).header.samplePeriod) = s1
  have e1 : s1.tube k = { s.tube k with
      gas := (s.tube k).gas.addSample (s.purgeFlowUsed k) (s.tube k).header.samplePeriod } := by
    rw [← hs1]; exact tube_modTube_eq _ _ _
  have eg : ∃ a q, (s.tube k).gas.addSample (s.purgeFlowUsed k) (s.tube k).header.samplePeriod
      = { (s.tube k).gas with accumulator := a, run := some q, sampleTimer := some (s.tube k).header.samplePeriod }
      ∧ q.phase = .flowing := by
    unfold Gas.addSample
    rw [hr]
    exact ⟨_, _, rfl, hf⟩
  obtain ⟨a, q, eg, hq⟩ := eg
  have h1 : s1.Booked := by
    rw [← hs1]
    refine h.setTube (x := { s.tube k with
      gas := (s.tube k).gas.addSample (s.purgeFlowUsed k) (s.tube k).header.samplePeriod }) ?_ (.inr id) (.inl hn) (fun _ => ?_)
      ?_ .inl fun g => g.elim
    · rw [eg]; exact ⟨.inl, rfl, fun _ => rfl, fun e he => .inl ⟨e, he, rfl⟩⟩
    · rw [eg]; exact ⟨q, rfl, hq⟩
    · rw [eg]; exact Nat.le_add_right _ _
  have hst : (s1.tube k).gas.sampleTimer ≠ none := by rw [e1, eg]; simp
  split
  · exact h1.modGas _ rfl rfl rfl fun c => absurd rfl c
  · split
    · exact h1.completeRun _ hst
    · exact h1

theorem Ledger.purgeLimitExpired (h : s.Booked) : (s.purgeLimitExpired k).Booked := by
  unfold State.purgeLimitExpired
  simp only
  have h1 := h.modGas (t := k) (fun g => { g with limitTimer := none }) rfl rfl rfl id
  split
  · exact h1
  · split
    · exact h1.requestAbort _
    · exact h1.requestAbort _
    · exact h1.unmoved (.modAbort _ _ rfl)
    · exact h1

/-- A deviation counter. -/
theorem Ledger.setCounter (h : Ledger nr nh s) (l : Line) (n : Nat) : Ledger nr nh
    (s.modGas k fun g => { g with lines := g.lines.set l { g.lines.get l with devCounter := n } }) := by
  have e : ∀ j, ∃ m, ((s.tube k).gas.lines.set l { (s.tube k).gas.lines.get l with devCounter := n }).get j
      = { (s.tube k).gas.lines.get j with devCounter := m } := fun j => by
    rw [Eight.get_set]
    split
    · next c => subst c; exact ⟨n, rfl⟩
    · exact ⟨_, rfl⟩
  refine h.setTube (x := { s.tube k with gas := { (s.tube k).gas with
    lines := (s.tube k).gas.lines.set l { (s.tube k).gas.lines.get l with devCounter := n } } })
    ⟨.inl, rfl, fun j => ?_, fun e he => .inl ⟨e, he, rfl⟩⟩ (.inr id) (.inr fun c g => ?_) (h.sampling k)
    (setLine_draw (Nat.le_add_right _ _)) .inl fun g => (h.noRun k g).1
  · obtain ⟨m, hm⟩ := e j
    show (((s.tube k).gas.lines.set l _).get j).plate = _
    rw [hm]; rfl
  · obtain ⟨m, hm⟩ := e (s.tube k).header.purgeLine
    refine ⟨g.pool, g.owned, ?_, ?_⟩
    · show (((s.tube k).gas.lines.set l _).get _).purge = true
      rw [hm]; exact g.purge
    · obtain ⟨r, h1, h2, h3⟩ := g.run
      refine ⟨r, h1, h2, ?_⟩
      show drawOf r.flow.toNat (((s.tube k).gas.lines.set l _).get _).weight ≤ (((s.tube k).gas.lines.set l _).get _).draw + _
      rw [hm]; exact h3

theorem Ledger.lineArrives (h : s.Booked) (l : Line) (v : Word) : (s.lineArrives ⟨k, l, v⟩).Booked := by
  unfold State.lineArrives
  simp only
  split
  · split
    · split
      · exact (h.setCounter _ _).requestAbort _
      · exact h.setCounter _ _
    · exact h.setCounter _ _
  · exact h

theorem Ledger.abortClaimExpired (h : s.Booked) : (s.abortClaimExpired k).Booked := by
  unfold State.abortClaimExpired
  simp only
  have h1 := h.modTube (t := k) (fun x => { x with abortTimer := none }) ⟨.inl, rfl, rfl, rfl, rfl, id, rfl, id⟩
  split
  · exact h1
  · exact h1.unmoved (.modAbort _ _ rfl)

end Sys2Proof.Machine
end

