-- ==== Sys2Proof/Laws/LedgerAccess.lean ====
section
/-! SUPPORT. The Bank Budget's books through a controller access: acceptance, the MANUAL path, Tube Control, aborts and
trips. -/

namespace Sys2Proof.Machine

variable {s u : State} {t k : Tube} {nr nh : Tube → Prop}

theorem Ledger.answer (h : Ledger nr nh s) (a : Answer) : Ledger nr nh (s.answer a) := h.same rfl rfl rfl rfl rfl rfl

theorem Ledger.refuseTube (h : Ledger nr nh s) (a : Access) (p : Place) (e : RefuseReason) :
    Ledger nr nh (s.refuseTube a p e) := Ledger.answer (Ledger.place (h.modSummary (t := p.tube) _) _) _

theorem present_of_root (h : u.root = s.root) (k : Tube) : u.present k = s.present k := by
  unfold State.present; rw [h]

/-! ## Acceptance -/

/-- The mark a descriptor gives a line is the one its record holds. -/
def MarkAgrees (s : State) (t : Tube) (d : DescWords) : Prop := ∀ l, d.mark = .line l → (s.lineRec t l).purge = d.purge

/-- R13, R14: a descriptor that agrees with the Binding Table gives a line its record's mark. -/
theorem mismatch_purge {b : TubeBinding} {c : Six} {d : DescWords} (h : b.mismatch c d = false) {l : Line}
    (hl : d.mark = .line l) : d.purge = (b.lines.get l).purge := by
  have hk : d.isBoundKind = true := by
    unfold DescWords.mark at hl
    unfold DescWords.isBoundKind
    split at hl
    · split at hl <;> cases hl
    · next e => simp
    · cases hl
    · cases hl
  unfold TubeBinding.mismatch at h
  split at h
  · rw [hk] at h; cases h
  · simp [hl] at h
  · simp only [hl, Mark.line.injEq, Bool.not_eq_false', Bool.and_eq_true, decide_eq_true_eq, beq_iff_eq] at h
    obtain ⟨⟨⟨rfl, _⟩, _⟩, e⟩ := h
    exact e
  · simp [hl] at h

/-- A removal in a tube without a run claim leaves its gas alone, and no run claim. -/
theorem Ledger.supersede_spares (h : Ledger nr nh s) (hn : s.NoRunClaim t) (w : HeldEntry → Bool) (y : Way) (n : Word) :
    ((s.supersede t w y n).tube t).gas = (s.tube t).gas ∧ (s.supersede t w y n).NoRunClaim t := by
  unfold State.supersede
  simp only
  have hv := Unmoved.foldl (f := fun acc e => acc.place (supersededNotice t e y n)) (fun s _ => .place s _)
    ((s.tube t).queue.filter w) (s.modTube t fun x => { x with queue := x.queue.filter fun e => !w e })
  generalize ((s.tube t).queue.filter w).foldl (fun acc e => acc.place (supersededNotice t e y n))
    (s.modTube t fun x => { x with queue := x.queue.filter fun e => !w e }) = v at hv
  have eg : (v.tube t).gas = (s.tube t).gas := by
    have : v.tube t = (s.modTube t fun x => { x with queue := x.queue.filter fun e => !w e }).tube t :=
      congrArg (fun c : Four TubeState => c.get t) hv.tubes
    rw [this, tube_modTube_eq]
  have en : v.NoRunClaim t := by unfold State.NoRunClaim; rw [hv.claims]; exact hn
  split
  · unfold State.withdraw
    split
    · have g : Ledger nr (Also t nh) (v.modBudget fun b => { b with claims := b.claims.filter fun c => !Claim.ofHead t c }) := by
        have g := h.withoutHead t
        refine (g.filterQueue (t := t) (fun e => !w e) (.inl (g.noHead t (.inl rfl)))).same hv.tubes hv.root hv.binding
          hv.capacity hv.slots ?_
        show v.budget.claims.filter _ = _
        rw [hv.claims]; rfl
      have hno : State.NoClaim (v.modBudget fun b => { b with claims := b.claims.filter fun c => !Claim.ofHead t c }) t :=
        fun c hc ht => by
          have a := g.noHead t (.inl rfl) c hc ht
          have b := en c (List.mem_filter.mp hc).1 ht
          rw [a] at b; cases b
      obtain ⟨a, b⟩ := g.rescan_spares hno
      exact ⟨by rw [a]; exact eg, fun c hc ht => absurd ht (b c hc)⟩
    · exact ⟨eg, en⟩
  · exact ⟨eg, en⟩

theorem Ledger.bypass (h : s.Booked) (p : Place) {l : Line} (j : Word) {v : Word}
    (hp : s.present p.tube = true) (hv : v.toNat ≤ ((s.tube p.tube).gas.lines.get l).flow.toNat)
    (ho : l = (s.tube p.tube).header.purgeLine →
      ¬ ((s.tube p.tube).gas.atmosphere = .purging ∨ (s.tube p.tube).gas.atmosphere = .clearing)) :
    (s.bypass p l j v).Booked := by
  unfold State.bypass
  simp only
  have h1 : (s.supersede p.tube (HeldEntry.forLine l) .bypass j).Booked := h.supersede _ _ _
  have h2 := supersede_tube (k := p.tube) s (HeldEntry.forLine l) .bypass j
  have h3 := fun hn => h.supersede_spares (t := p.tube) hn (HeldEntry.forLine l) .bypass j
  have hl := (Local.supersede (k := p.tube) s (HeldEntry.forLine l) .bypass j).root
  generalize s.supersede p.tube (HeldEntry.forLine l) .bypass j = s1 at h1 h2 h3 hl
  have eh : (s1.tube p.tube).header = (s.tube p.tube).header := h2.header
  have key : v.toNat ≤ (s1.lineRec p.tube l).flow.toNat ∧ (l ≠ (s1.tube p.tube).header.purgeLine ∨ s1.NoRunClaim p.tube) := by
    rw [eh]
    by_cases e : l = (s.tube p.tube).header.purgeLine
    · obtain ⟨a, b⟩ := h3 (h.noRunClaim (ho e))
      exact ⟨by unfold State.lineRec; rw [a]; exact hv, .inr b⟩
    · have hf := h2.flows rfl l e fun e he => by simpa using (List.mem_filter.mp he).2
      exact ⟨by unfold State.lineRec; rw [hf]; exact hv, .inl e⟩
  refine Ledger.examine ?_ _
  have h4 : (s1.lowerLine State.rescan p.tube l v).Booked := h1.lowerLine .rescanned key.1 key.2
  have hr : (s1.lowerLine State.rescan p.tube l v).root = s.root :=
    (Local.lowerLine (k := p.tube) s1 l v).root.trans hl
  generalize s1.lowerLine State.rescan p.tube l v = s4 at h4 hr
  have h5 : ((s4.place (releasedNotice p.tube p.channel .bypass j v s.clock)).modTube p.tube
      fun x => { x with lastReleased := j }).Booked :=
    Ledger.modTube (h4.place _) _ ⟨.inl, rfl, rfl, rfl, rfl, id, rfl, id⟩
  exact h5.clearingTest .rescanned l v fun _ => h5.marked p.tube (.inl ((present_of_root (s := s) hr _).trans hp))

/-- A new queue whose further entries carry their lines' marks. -/
theorem Ledger.append (h : Ledger nr nh s) {q : List HeldEntry} (hq : ∀ e ∈ q, e ∈ (s.tube t).queue ∨ (s.tube t).Fits e)
    (hc : s.NoHeadClaim t ∨ (Claiming (s.tube t) → Claiming { s.tube t with queue := q })) :
    Ledger nr nh (s.setTube t { s.tube t with queue := q }) :=
  h.setTube ⟨.inl, rfl, fun _ => rfl, fun e he => (hq e he).imp (fun g => ⟨e, g, rfl⟩) id⟩ hc
    (.inr fun _ g => ⟨g.pool, g.owned, g.purge, g.run⟩) (h.sampling t) (Nat.le_add_right _ _) .inl fun g => (h.noRun t g).1

theorem Ledger.holdHead (h : Ledger nr nh s) (n : Word) : Ledger nr nh (s.holdHead t n) := by
  unfold State.holdHead
  split
  · exact h
  · next e q hq =>
    split
    · refine Ledger.place (h.benign (x := { s.tube t with
        queue := e.hold (s.tube t).header.holdLimit :: (s.tube t).queue.tail }) ⟨.inl, rfl, rfl, rfl, rfl, id, ?_, id⟩) _
      rw [hq]; rfl
    · exact h

theorem Ledger.holdFirst (h : s.Booked) {e : HeldEntry} (hq : (s.tube t).queue = []) (hf : (s.tube t).Fits e) :
    (s.holdFirst t e).Booked := by
  unfold State.holdFirst
  refine Ledger.announce (Ledger.holdHead ?_ _)
  refine Ledger.examineWith .scanned ?_ id
  refine h.append (t := t) (q := [e]) (fun d hd => ?_) (.inl (h.noHeadClaim fun ⟨d, r, c, _⟩ => by rw [hq] at c; cases c))
  rw [List.mem_singleton.mp hd]; exact .inr hf

theorem Ledger.holdBehind (h : Ledger nr nh s) {e : HeldEntry} (hf : (s.tube t).Fits e) :
    Ledger nr nh (s.holdBehind t e) := by
  unfold State.holdBehind
  simp only
  refine Ledger.place (h.append (t := t) (q := (s.tube t).queue ++ [e.hold (s.tube t).header.holdLimit]) (fun d hd => ?_)
    (.inr ?_)) _
  · rcases List.mem_append.mp hd with g | g
    · exact .inl g
    · rw [List.mem_singleton.mp g]; exact .inr hf
  · rintro ⟨d, r, hq, hd⟩
    exact ⟨d, r ++ [_], by show (s.tube t).queue ++ _ = _; rw [hq]; rfl, hd⟩

theorem newEntry_fits {p : Place} {d : DescWords} {j v : Word} {n : Long} (h : MarkAgrees s p.tube d) :
    (s.tube p.tube).Fits (newEntry p d j v n) := by
  intro l b q w hk
  simp only [newEntry, DescWords.entryKind] at hk
  split at hk
  · cases hk
  · next m hm => cases hk; exact h _ hm
  · cases hk

theorem Ledger.enqueue (h : s.Booked) (p : Place) (d : DescWords) (j v : Word) (hd : MarkAgrees s p.tube d) :
    (s.enqueue p d j v).Booked := by
  unfold State.enqueue
  simp only
  have h1 : (s.supersedeChannel p j).Booked ∧ ∀ l, ((((s.supersedeChannel p j).tube p.tube).gas.lines.get l).plate)
      = ((s.tube p.tube).gas.lines.get l).plate := by
    unfold State.supersedeChannel
    simp only
    have h2 := supersede_tube (k := p.tube) s (fun e => e.channel == p.channel) .queued j
    split
    · exact ⟨Ledger.examine (h.supersede _ _ _) _, fun l => (((Shift.examine _ p.tube).tubes p.tube).plates l).trans (h2.plates l)⟩
    · exact ⟨h.supersede _ _ _, h2.plates⟩
  generalize s.supersedeChannel p j = s1 at h1
  have hf : (s1.tube p.tube).Fits (newEntry p d j v s.clock) := newEntry_fits fun l hl => by
    unfold State.lineRec
    rw [purge_of_plate (h1.2 l)]
    exact hd l hl
  split
  · next hn => exact Ledger.answer (h1.1.holdFirst (List.length_eq_zero_iff.mp hn) hf) _
  · split
    · exact Ledger.answer (h1.1.holdBehind hf) _
    · exact Ledger.answer (Ledger.place (h1.1.modSummary (t := p.tube) _) _) _

theorem Ledger.takeTicket (h : Ledger nr nh s) : Ledger nr nh (s.takeTicket t) :=
  h.modTube _ ⟨.inl, rfl, rfl, rfl, rfl, id, rfl, id⟩

theorem Ledger.accept (h : s.Booked) (a : Access) (p : Place) (d : DescWords) (hp : s.present p.tube = true)
    (hb : (s.binding.get p.tube).mismatch p.channel d = false) : (s.accept a p d).Booked := by
  have hd : MarkAgrees s p.tube d := fun l hl => by rw [h.bindings p.tube l, mismatch_purge hb hl]
  have h1 : (s.takeTicket p.tube).Booked := h.takeTicket
  have e1 : (s.takeTicket p.tube).tube p.tube
      = { s.tube p.tube with lastIssued := (s.tube p.tube).nextTicket, nextTicket := (s.tube p.tube).nextTicket + 1 } :=
    tube_modTube_eq _ _ _
  unfold State.accept
  simp only
  split
  · exact h.refuseTube _ _ _
  · next hown =>
    split
    · exact h.refuseTube _ _ _
    · split
      · next l hl =>
        unfold bypassLine at hl
        split at hl
        · cases hl
        · next m hm =>
          split at hl
          · next hv =>
            cases hl
            refine Ledger.answer (h1.bypass p _ hp (by rw [e1]; exact hv) fun e => ?_) _
            rw [e1] at e ⊢
            intro ha
            apply hown
            have hmark := h.marked p.tube (.inl hp)
            unfold TubeState.purgeMarked at hmark
            have hbl := h.bindings p.tube l
            unfold State.lineRec at hbl
            have e' : l = (s.tube p.tube).header.purgeLine := e
            rw [← e', hbl] at hmark
            unfold State.owned
            rw [hm]
            simp only [Bool.and_eq_true, decide_eq_true_eq, Bool.or_eq_true, beq_iff_eq]
            exact ⟨⟨e', hmark⟩, ha⟩
          · cases hl
      · split
        · exact h.refuseTube _ _ _
        · refine h1.enqueue p d _ _ fun l hl => ?_
          have := hd l hl
          unfold State.lineRec at this ⊢
          rw [e1]; exact this

/-! ## The MANUAL path -/

theorem Ledger.raiseLine (h : s.Booked) {l : Line} {v : Word} {n : Nat} (hn : n ≤ s.budget.capacity - s.bankDraw)
    (hr : s.NoRunClaim t) : (s.raiseLine t l v n).Booked := by
  unfold State.raiseLine
  simp only
  have h1 : (s.setFlow t l (settledFlow v (s.lineRec t l).flow n (s.lineRec t l).weight) (n == 0)).Booked :=
    h.setFlow _ (Nat.le_trans (settledFlow_draw _ _ _ _) (Nat.add_le_add_left hn _)) (.inr hr)
  split
  · exact h1.rescanned
  · exact h1

theorem Ledger.manual (h : s.Booked) (a : Access) (p : Place) (d : DescWords)
    (hr : (s.tube p.tube).mode = .aborted → (s.tube p.tube).gas.run = none) : (s.manual a p d).Booked := by
  unfold State.manual
  split
  · exact h.refuseTube _ _ _
  · next hm =>
    have hn : s.NoRunClaim p.tube := h.noRunClaim_of_none (hr (by
      rw [not_or, Decidable.not_not] at hm; exact hm.2))
    split
    · exact h.refuseTube _ _ _
    · split
      · refine Ledger.answer ?_ _
        unfold State.manualZone
        exact Ledger.modRamp (Ledger.setZone (h.modRamp _ id) _ _) _ fun g => by
          unfold Ramp.afterManual at g; split at g <;> exact g
      · next l _ =>
        unfold State.manualLine
        simp only
        split
        · next hv => exact Ledger.answer (h.lowerLine .rescanned hv (.inr hn)) _
        · split
          · next hf =>
            refine Ledger.answer (h.raiseLine ?_ hn) _
            unfold State.manualFits at hf
            simp only [Bool.or_eq_true, beq_iff_eq, Bool.and_eq_true, decide_eq_true_eq] at hf
            rcases hf with e | e
            · rw [e]; exact Nat.zero_le _
            · exact e.2
          · exact h.refuseTube _ _ _
      · refine Ledger.answer ?_ _
        unfold State.manualBoat
        exact Ledger.deliver (h.modBoat _) _ _ _
      · exact h.answer _

/-! ## Tube Control -/

theorem Ledger.closeAll : ∀ (ls : List Line) {s : State}, s.Booked → Venting (s.tube k) →
    (s.closeAll k ls).Booked ∧ Venting ((s.closeAll k ls).tube k)
  | [], _, h, v => ⟨h, v⟩
  | l :: ls, s, h, v => by
    unfold State.closeAll
    simp only
    split
    · refine Ledger.closeAll ls (h.lowerLine .rescanned (Nat.zero_le _) (.inr (h.noRunClaim ?_))) v.lowerLine
      rw [v.2.1]; simp
    · exact Ledger.closeAll ls h v

theorem Eight.sum_map_draw (v : Eight LineRec) :
    ((v.map fun l => { l with devCounter := 0 }).toList.map LineRec.draw).sum = (v.toList.map LineRec.draw).sum := rfl

theorem Ledger.takeVent (h : s.Booked) (hs : GasSafe (s.tube k)) (ha : ventAllowed (s.tube k) = true) :
    (s.takeVent k).Booked := by
  simp only [ventAllowed, Bool.and_eq_true, beq_iff_eq] at ha
  obtain ⟨h1, v⟩ := h.closeAll (k := k) Ix8.all ⟨hs, ha.1.2, hs.boatOut ha.2, by rw [ha.2]; simp⟩
  unfold State.takeVent
  generalize s.closeAll k Ix8.all = s1 at h1 v
  have hm : ∀ l, ((Gas.vented (s1.tube k).gas).lines.get l).plate = ((s1.tube k).gas.lines.get l).plate := fun l => by
    cases l <;> rfl
  refine h1.setTube (x := { s1.tube k with gas := (s1.tube k).gas.vented }) ⟨.inl, rfl, hm, fun e he => .inl ⟨e, he, rfl⟩⟩
    (.inr id) (.inl (h1.noRunClaim (by rw [v.2.1]; simp))) (h1.sampling k) ?_ .inl fun g => g.elim
  exact Nat.le_trans (Nat.le_of_eq (Eight.sum_map_draw _)) (Nat.le_add_right _ _)

theorem Benign.pause (x : TubeState) (h : x.mode = .run) : Benign x x.pause :=
  ⟨fun _ => .inl (by rw [h]; rfl), rfl, rfl, rfl, rfl, id, rfl, fun g => by
    unfold TubeState.pause Ramp.pause at g; simp only at g; split at g <;> exact g⟩

theorem Benign.unpause (x : TubeState) (h : x.mode = .hold) : Benign x x.unpause :=
  ⟨fun _ => .inl (by rw [h]; rfl), rfl, rfl, rfl, rfl, id, rfl, fun g => by
    unfold TubeState.unpause Ramp.unpause at g; simp only at g; split at g <;> exact g⟩

theorem Benign.recover (x : TubeState) (h : x.purgeMarked) : Benign x x.recover :=
  ⟨fun _ => .inr h, rfl, rfl, rfl, rfl, id, rfl, fun g => by
    unfold TubeState.recover Ramp.recover at g; simp only at g; split at g <;> exact g⟩

theorem Ledger.tubeCommand (h : s.Booked) (a : Access) (p : Place) (hs : GasSafe (s.tube p.tube))
    (hp : s.present p.tube = true) : (s.tubeCommand a p).Booked := by
  have hm : (s.tube p.tube).purgeMarked := h.marked p.tube (.inl hp)
  unfold State.tubeCommand
  split
  · unfold State.commandPurge
    split
    · next hg =>
      simp only [purgeAllowed, Bool.and_eq_true, Bool.or_eq_true, beq_iff_eq] at hg
      refine Ledger.answer (h.startRun .rescanned rfl (h.noRunClaim ?_) id hm) _
      rcases hg.2 with e | e <;> rw [e] <;> simp
    · exact h.refuseTube _ _ _
  · unfold State.commandHold
    split
    · next hr => exact Ledger.answer (h.modTube _ (.pause _ hr)) _
    · exact h.answer _
    · exact h.refuseTube _ _ _
    · exact h.refuseTube _ _ _
  · unfold State.commandResume
    split
    · exact h.answer _
    · next hr => exact Ledger.answer (h.modTube _ (.unpause _ hr)) _
    · exact h.refuseTube _ _ _
    · split
      · exact h.refuseTube _ _ _
      · exact Ledger.answer (h.modTube _ (.recover _ hm)) _
  · exact Ledger.answer (h.requestAbort _) _
  · unfold State.commandVent
    split
    · next hv => exact Ledger.answer (h.takeVent hs hv) _
    · exact h.refuseTube _ _ _
  · unfold State.commandFlush
    split
    · exact Ledger.answer (Ledger.dropHead (t := p.tube) (h.flush _)) _
    · exact h.refuseTube _ _ _
  · exact h.refuseTube _ _ _

theorem Benign.readWord (x : TubeState) (n : Nat) : Benign x (x.readWord n).2 := by
  have r : ∀ {y : TubeState}, y.mode = x.mode → y.header = x.header → y.gas = x.gas → y.queue = x.queue → y.ramp = x.ramp →
      Benign x y := fun m h g q r =>
    ⟨by rw [m]; exact .inl, h, by rw [g], by rw [g], by rw [g], by rw [g]; exact id, by rw [q], by rw [r]; exact id⟩
  unfold TubeState.readWord TubeState.readLow TubeState.readHigh
  split
  · exact r rfl rfl rfl rfl rfl
  · exact r rfl rfl rfl rfl rfl
  · exact r rfl rfl rfl rfl rfl
  · exact r rfl rfl rfl rfl rfl
  · split <;> exact r rfl rfl rfl rfl rfl
  · split <;> exact r rfl rfl rfl rfl rfl
  · exact r rfl rfl rfl rfl rfl
  · exact r rfl rfl rfl rfl rfl

theorem Ledger.tubeRead (h : Ledger nr nh s) (p : Place) : Ledger nr nh (s.tubeRead p) :=
  Ledger.answer (h.benign (.readWord _ _)) _

/-! ## Aborts -/

theorem Ledger.closeReactive : ∀ (ls : List Line) {s : State}, Ledger nr nh s → Halted (s.tube k) →
    Ledger nr nh (s.closeReactive k ls)
  | [], _, h, _ => h
  | l :: ls, s, h, hh => by
    unfold State.closeReactive
    simp only
    split
    · next c =>
      refine Ledger.closeReactive ls (h.lowerLine .rescanned (Nat.zero_le _) (.inl fun e => ?_))
        ((HaltStep.lowerLine s fun _ _ => rfl).halted hh)
      simp only [Bool.and_eq_true] at c
      have := hh.purgeInert
      rw [← e] at this
      have c1 : ((s.tube k).gas.lines.get l).reactive = true := c.1
      rw [this] at c1; cases c1
    · exact Ledger.closeReactive ls h hh

theorem runClaim_none (h : s.runClaim t = none) : s.NoRunClaim t := fun c hc ht => by
  have := List.find?_eq_none.mp h c hc
  cases he : c.origin.isEntry with
  | true => rfl
  | false => simp [Claim.ofRun, ht, he] at this

theorem Ledger.raiseRunClaim (h : Ledger nr nh s) : Ledger nr nh (s.raiseRunClaim k) := by
  unfold State.raiseRunClaim
  split
  · exact h
  · split
    · exact h
    · refine Ledger.rescanned ?_
      have h1 : Ledger nr nh (s.modBudget fun b =>
          { b with claims := b.claims.map fun d => if d.ofRun k then { d with priority := .abort } else d }) :=
        h.mapClaims _ fun c => by split <;> exact ⟨rfl, rfl, rfl, rfl⟩
      generalize (s.modBudget fun b =>
          { b with claims := b.claims.map fun d => if d.ofRun k then { d with priority := .abort } else d }) = v at h1
      refine h1.setTube (x := { v.tube k with gas := { (v.tube k).gas with
          run := (v.tube k).gas.run.map fun r => { r with priority := .abort } } })
        ⟨.inl, rfl, fun _ => rfl, fun e he => .inl ⟨e, he, rfl⟩⟩ (.inr id) (.inr fun _ g => ?_) (fun g => ?_)
        (Nat.le_add_right _ _) .inl fun g => (h1.noRun k g).1
      · obtain ⟨r, a, b, c⟩ := g.run
        exact ⟨g.pool, g.owned, g.purge, { r with priority := .abort },
          by show (v.tube k).gas.run.map _ = _; rw [a]; rfl, b, c⟩
      · obtain ⟨r, a, b⟩ := h1.sampling k g
        exact ⟨{ r with priority := .abort }, by show (v.tube k).gas.run.map _ = _; rw [a]; rfl, b⟩

/-- R105: the Gas Engine's part of an abort. -/
theorem Ledger.gasAbort (h : s.Booked) (hh : Halted (s.tube k)) (hm : (s.tube k).purgeMarked) : (s.gasAbort k).Booked := by
  have marks : ∀ {v : State}, HaltStep k s v → (v.tube k).header = (s.tube k).header → (v.tube k).purgeMarked :=
    fun {v} g e => by
      unfold TubeState.purgeMarked at hm ⊢
      rw [e, purge_of_plate (g.plates _)]; exact hm
  unfold State.gasAbort
  simp only
  split
  · next ha =>
    obtain ⟨g, _⟩ := closeReactive_halts (k := k) Ix8.all s
    have h1 := h.closeReactive (k := k) Ix8.all hh
    have hno : ¬ (((s.closeReactive k Ix8.all).tube k).gas.atmosphere = .purging
        ∨ ((s.closeReactive k Ix8.all).tube k).gas.atmosphere = .clearing) := by
      rw [g.atmosphere hh, ha]; simp
    have he : ((s.closeReactive k Ix8.all).tube k).header = (s.tube k).header := by
      have : ∀ (ls : List Line) (v : State), ((v.closeReactive k ls).tube k).header = (v.tube k).header := by
        intro ls
        induction ls with
        | nil => exact fun _ => rfl
        | cons l ls ih =>
          intro v
          unfold State.closeReactive
          simp only
          refine (ih _).trans ?_
          split
          · unfold State.lowerLine
            simp only
            split
            · exact (((Shift.rescan _).tubes k).header).trans (by rw [tube_setFlow])
            · rw [tube_setFlow]
          · rfl
      exact this _ _
    exact h1.startRun .rescanned rfl (h1.noRunClaim hno) id (marks g he)
  · next ha =>
    have g : HaltStep k s (s.withdraw State.rescan (Claim.ofRun k)) := .withdraw _ _
    have he : ((s.withdraw State.rescan (Claim.ofRun k)).tube k).header = (s.tube k).header :=
      ((Shift.withdraw (P := True) (o := none) Shift.rescan s (Claim.ofRun k)).tubes k).header
    have h1 : Ledger (Also k fun _ => False) (fun _ => False) (s.withdraw State.rescan (Claim.ofRun k)) := by
      unfold State.withdraw
      split
      · refine Ledger.rescanned (Ledger.alsoRun (h.fewer _ List.filter_sublist) (fun c hc ht => ?_) (.inr ha))
        have := (List.mem_filter.mp hc).2
        simpa [Claim.ofRun, ht] using this
      · next c =>
        refine h.alsoRun (fun d hd ht => ?_) (.inr ha)
        rw [Bool.not_eq_true, List.any_eq_false] at c
        have := c d hd
        simpa [Claim.ofRun, ht] using this
    exact h1.dropRun.startRun .rescanned rfl (h1.noRun k (.inl rfl)).2 id (marks g he)
  · exact Ledger.raiseRunClaim (h.modGas _ rfl rfl rfl id)
  · exact h
  · exact h

theorem Ledger.afterGasAbort (h : s.Booked) : (s.afterGasAbort k).Booked := by
  unfold State.afterGasAbort
  split
  · exact h.endAbort _
  · split
    · exact h.modTube _ ⟨.inl, rfl, rfl, rfl, rfl, id, rfl, id⟩
    · exact h

theorem Ledger.freezeRamp (h : Ledger nr nh s) : Ledger nr nh (s.freezeRamp k) :=
  Ledger.freeSlot .rescanned (h.modRamp _ id)

/-- R142: the abort of a present tube. -/
theorem Ledger.abortTube (h : s.Booked) (q : AbortRequest) (hs : GasSafe (s.tube q.tube))
    (hm : (s.tube q.tube).purgeMarked) : (s.abortTube q).Booked := by
  unfold State.abortTube
  simp only
  have h1 : (s.beginAbort q).Booked :=
    Ledger.place (h.modTube (t := q.tube) _ ⟨(fun c => absurd c (by simp [Mode.working])), rfl, rfl, rfl, rfl, id, rfl, id⟩) _
  have e1 : (s.beginAbort q).tube q.tube
      = { s.tube q.tube with abortCause := q.cause, abortBegin := s.clock, mode := .aborting } := by simp [State.beginAbort]
  have hh1 : Halted ((s.beginAbort q).tube q.tube) := by
    rw [e1]; exact ⟨rfl, hs.purgeInert, hs.closed, hs.run, hs.boatOut, hs.boatTimer⟩
  have hm1 : ((s.beginAbort q).tube q.tube).purgeMarked := by rw [e1]; exact hm
  generalize s.beginAbort q = s1 at h1 hh1 hm1
  have f1 := (flush_halts (k := q.tube) s1 .abort).1
  have eh1 : ((s1.flush q.tube .abort).tube q.tube).header = (s1.tube q.tube).header := by
    have pf : ∀ (n : Nat) (l : List HeldEntry) (v : State), (placeFlushed q.tube .abort n l v).tube q.tube = v.tube q.tube := by
      intro n l
      induction l generalizing n with
      | nil => exact fun _ => rfl
      | cons a l ih => exact fun v => ih (n + 1) (v.place _)
    unfold State.flush
    simp only
    rw [pf, tube_modTube_eq]
    show (State.tube _ q.tube).header = _
    split
    · rfl
    · split
      · exact ((Shift.withdraw (P := True) (o := none) Shift.rescan s1 (Claim.ofHead q.tube)).tubes q.tube).header
      · rfl
  have h2 : ((s1.flush q.tube .abort).modTube q.tube fun x => { x with gapTimer := none }).Booked :=
    Ledger.modTube (Ledger.dropHead (t := q.tube) (h1.flush .abort)) _ ⟨.inl, rfl, rfl, rfl, rfl, id, rfl, id⟩
  have g2 : HaltStep q.tube s1 ((s1.flush q.tube .abort).modTube q.tube fun x => { x with gapTimer := none }) :=
    f1.trans (.modTube rfl rfl rfl rfl rfl)
  have eh2 : (((s1.flush q.tube .abort).modTube q.tube fun x => { x with gapTimer := none }).tube q.tube).header
      = (s1.tube q.tube).header := by rw [tube_modTube_eq]; exact eh1
  generalize (s1.flush q.tube .abort).modTube q.tube (fun x => { x with gapTimer := none }) = s2 at h2 g2 eh2
  have h3 : (s2.freezeRamp q.tube).Booked := h2.freezeRamp
  have g3 : HaltStep q.tube s1 (s2.freezeRamp q.tube) := g2.trans (.freezeRamp _)
  have eh3 : ((s2.freezeRamp q.tube).tube q.tube).header = (s1.tube q.tube).header := by
    refine Eq.trans ?_ eh2
    unfold State.freezeRamp State.freeSlot
    have e : ∀ (v : State) f, ((v.modRamp q.tube f).tube q.tube).header = (v.tube q.tube).header := fun v f => by
      unfold State.modRamp; rw [tube_modTube_eq]
    split
    · refine Eq.trans ((Shift.rescan _).tubes q.tube).header ?_
      rw [e, e]
    · exact e _ _
  generalize s2.freezeRamp q.tube = s3 at h3 g3 eh3
  have h4 : (s3.modBoat q.tube fun b => b.freeze (s3.tube q.tube).header.inThreshold).Booked := h3.modBoat _
  have g4 : HaltStep q.tube s1 (s3.modBoat q.tube fun b => b.freeze (s3.tube q.tube).header.inThreshold) :=
    g3.trans (.freezeBoat _ _)
  have eh4 : ((s3.modBoat q.tube fun b => b.freeze (s3.tube q.tube).header.inThreshold).tube q.tube).header
      = (s1.tube q.tube).header := by unfold State.modBoat; rw [tube_modTube_eq]; exact eh3
  generalize (s3.modBoat q.tube fun b => b.freeze (s3.tube q.tube).header.inThreshold) = s4 at h4 g4 eh4
  refine Ledger.afterGasAbort (h4.gasAbort (g4.halted hh1) ?_)
  unfold TubeState.purgeMarked at hm1 ⊢
  rw [eh4, purge_of_plate (g4.plates _)]
  exact hm1

theorem Ledger.takeAbort (h : s.Booked) (q : AbortRequest) (hs : GasSafe (s.tube q.tube)) : (s.takeAbort q).Booked := by
  unfold State.takeAbort
  split
  · exact h
  · next hp =>
    have hm : (s.tube q.tube).purgeMarked := h.marked q.tube (.inl (by simpa using hp))
    split
    · exact h.abortTube q hs hm
    · exact h.abortTube q hs hm
    · exact h.place _
    · exact h.place _

theorem Ledger.takeTrip (h : s.Booked) (hs : ∀ k, GasSafe (s.tube k)) (q : TripRequest) : (s.takeTrip q).Booked := by
  have key : ∀ (l : List Tube) (v : State), v.Booked → (∀ k, GasSafe (v.tube k)) → (∀ k ∈ l, v.present k = true) →
      (l.foldl (fun acc t => acc.abortTube (tripAbort q t)) v).Booked := by
    intro l
    induction l with
    | nil => exact fun _ h _ _ => h
    | cons a l ih =>
      intro v h hs hp
      have lo : Local a v (v.abortTube (tripAbort q a)) := Local.abortTube v (tripAbort q a)
      refine ih _ (h.abortTube _ (hs _) (h.marked a (.inl (hp a (by simp))))) (fun k => ?_) fun k hk => ?_
      · by_cases e : k = a
        · subst e; exact (Step.abortTube (r := True) v (tripAbort q k) rfl).tube.safe (hs _)
        · exact (lo.others k e).safe (fun _ => trivial) (hs k)
      · rw [present_of_root lo.root]; exact hp k (List.mem_cons_of_mem _ hk)
  unfold State.takeTrip
  split
  · exact h.place _
  · unfold State.firstTrip
    simp only
    exact key _ _ (Ledger.place (h.same (u := s.modAbort fun a => { a with
      latch := true, tripCause := q.cause, tripTime := s.clock }) rfl rfl rfl rfl rfl rfl) _) hs fun k hk =>
        (List.mem_filter.mp (List.mem_filter.mp hk).1).2

end Sys2Proof.Machine
end

