-- ==== Sys2Proof/Laws/Conduct.lean ====
section
/-! SUPPORT. What each event does to a tube's mode, its slot and its run: a tube that does not work stays so, but for RESUME,
holds no slot and, where it is ABORTED, has no run. -/

namespace Sys2Proof.Machine

variable {s u v : State} {k : Tube} {f g : Prop} {x y z : TubeState}

/-! ## Mode and slot -/

/-- Mode and slot of a tube that does not work. -/
structure Mild (x y : TubeState) : Prop where
  mode : y.mode = x.mode
  slot : x.mode.working = false → y.ramp.slotHeld = true → x.ramp.slotHeld = true

theorem Mild.refl (x : TubeState) : Mild x x := ⟨rfl, fun _ => id⟩

theorem Mild.trans (h : Mild x y) (g : Mild y z) : Mild x z :=
  ⟨g.mode.trans h.mode, fun n c => h.slot n (g.slot (by rw [h.mode]; exact n) c)⟩

theorem TubeShift.mild {b : Bool} {P : Prop} (h : TubeShift b P x y) : Mild x y :=
  ⟨h.mode, fun n c => by rw [(h.stopped (not_run_of_idle n)).ramp] at c; exact c⟩

theorem Shift.mild {o : Option Tube} {P : Prop} (h : Shift o P s u) (k : Tube) : Mild (s.tube k) (u.tube k) := (h.tubes k).mild

theorem Mild.setTube (hm : x.mode = (s.tube k).mode) (hr : x.ramp.slotHeld = true → (s.tube k).ramp.slotHeld = true) :
    Mild (s.tube k) ((s.setTube k x).tube k) := by
  rw [tube_setTube_self]; exact ⟨hm, fun _ => hr⟩

theorem Mild.setFlow (s : State) (l : Line) (w : Word) (b : Bool) : Mild (s.tube k) ((s.setFlow k l w b).tube k) :=
  Mild.setTube (s := s) rfl id

theorem Mild.lowerLine (s : State) (l : Line) (w : Word) : Mild (s.tube k) ((s.lowerLine State.rescan k l w).tube k) := by
  unfold State.lowerLine
  simp only
  split
  · exact (Mild.setFlow s l w true).trans ((Shift.rescan _).mild k)
  · exact Mild.setFlow s l w true

theorem Mild.startRun (s : State) (q : RunStart) : Mild (s.tube k) ((s.startRun State.rescan k q).tube k) :=
  (Mild.setTube (s := s) (x := { s.tube k with gas := (s.tube k).gas.beginRun q (s.tube k).header.purgeLimit }) rfl id).trans
    ((Shift.startRun (P := True) Shift.rescan s k q).mild k)

theorem Mild.withdraw (s : State) (w : Claim → Bool) : Mild (s.tube k) ((s.withdraw State.rescan w).tube k) :=
  (Shift.withdraw (P := True) (o := none) Shift.rescan s w).mild k

/-! ## Run and flows -/

/-- What most events leave of a tube's mode, and of one that does not work its slot, its atmosphere and its run; `f`: its
flows too. -/
structure Tame (f : Prop) (x y : TubeState) : Prop extends Mild x y where
  atmosphere : x.mode.working = false → y.gas.atmosphere = x.gas.atmosphere
  run : x.mode.working = false → x.gas.run = none → y.gas.run = none
  flows : f → x.mode.working = false → x.gas.run = none → ∀ l, (y.gas.lines.get l).flow = (x.gas.lines.get l).flow

theorem Tame.refl (x : TubeState) : Tame f x x := ⟨.refl x, fun _ => rfl, fun _ => id, fun _ _ _ _ => rfl⟩

theorem Tame.trans (h : Tame f x y) (g : Tame f y z) : Tame f x z where
  toMild := h.toMild.trans g.toMild
  atmosphere := fun n => (g.atmosphere (by rw [h.mode]; exact n)).trans (h.atmosphere n)
  run := fun n r => g.run (by rw [h.mode]; exact n) (h.run n r)
  flows := fun p n r l => (g.flows p (by rw [h.mode]; exact n) (h.run n r) l).trans (h.flows p n r l)

theorem TubeShift.tame (h : TubeShift false True x y) : Tame f x y where
  toMild := h.mild
  atmosphere := fun n => (h.gasIdle rfl (.inl (not_run_of_idle n))).atmosphere
  run := fun n r => by rw [((h.gasIdle rfl (.inl (not_run_of_idle n))).noRun r).1]; exact r
  flows := fun _ n r l => by rw [((h.gasIdle rfl (.inl (not_run_of_idle n))).noRun r).1]

/-- What most events do to tube `k`. -/
def Tames (f : Prop) (k : Tube) (s u : State) : Prop := Tame f (s.tube k) (u.tube k)

theorem Tames.refl (s : State) : Tames f k s s := Tame.refl _

theorem Tames.trans (h : Tames f k s u) (g : Tames f k u v) : Tames f k s v := Tame.trans h g

theorem Shift.tames (h : Shift none True s u) : Tames f k s u := TubeShift.tame (by simpa using h.tubes k)

theorem Tames.place (s : State) (n : Notice) : Tames f k s (s.place n) := Tame.refl _

theorem Tames.deliver (s : State) (a : Addr) (w : Word) (b : Bool) : Tames f k s (s.deliver a w b) := Tame.refl _

theorem Tames.answer (s : State) (a : Answer) : Tames f k s (s.answer a) := Tame.refl _

theorem Tames.requestAbort (s : State) (r : AbortRequest) : Tames f k s (s.requestAbort r) := Tame.refl _

theorem Tames.requestTrip (s : State) (r : TripRequest) : Tames f k s (s.requestTrip r) := Tame.refl _

theorem Tame.gas (h : Mild x y) (g : y.gas = x.gas) : Tame f x y :=
  ⟨h, fun _ => by rw [g], fun _ r => by rw [g]; exact r, fun _ _ _ _ => by rw [g]⟩

/-- A change of the tube that leaves mode, slot and gas. -/
theorem Tames.setTube (hm : x.mode = (s.tube k).mode) (hr : x.ramp.slotHeld = true → (s.tube k).ramp.slotHeld = true)
    (hg : x.gas = (s.tube k).gas) : Tames f k s (s.setTube k x) :=
  Tame.gas (.setTube hm hr) (by rw [tube_setTube_self]; exact hg)

theorem Tames.modRamp (s : State) (q : Ramp → Ramp) (h : (q (s.tube k).ramp).slotHeld = true → (s.tube k).ramp.slotHeld = true) :
    Tames f k s (s.modRamp k q) := .setTube rfl h rfl

theorem Tames.modBoat (s : State) (q : Boat → Boat) : Tames f k s (s.modBoat k q) := .setTube rfl id rfl

theorem Tames.modSummary (s : State) (q : Summary → Summary) : Tames f k s (s.modSummary k q) :=
  .setTube rfl id rfl

theorem Tames.modGas (s : State) (q : Gas → Gas) (hr : (q (s.tube k).gas).run = (s.tube k).gas.run)
    (ha : (q (s.tube k).gas).atmosphere = (s.tube k).gas.atmosphere)
    (hl : ∀ l, ((q (s.tube k).gas).lines.get l).flow = ((s.tube k).gas.lines.get l).flow) :
    Tames f k s (s.modGas k q) := by
  have e : (s.modGas k q).tube k = { s.tube k with gas := q (s.tube k).gas } := tube_modTube_eq _ _ _
  unfold Tames
  rw [e]
  exact ⟨⟨rfl, fun _ => id⟩, fun _ => ha, fun _ r => hr.trans r, fun _ _ _ => hl⟩

theorem Tames.setFlow (s : State) (l : Line) (w : Word) (b : Bool) : Tames False k s (s.setFlow k l w b) :=
  ⟨.setFlow s l w b, fun _ => by rw [tube_setFlow], fun _ r => by rw [tube_setFlow]; exact r, fun c => c.elim⟩

theorem Tames.lowerLine (s : State) (l : Line) (w : Word) :
    Tames False k s (s.lowerLine State.rescan k l w) := by
  unfold State.lowerLine
  simp only
  split
  · exact (Tames.setFlow s l w true).trans (Shift.rescan _).tames
  · exact Tames.setFlow s l w true

theorem Tames.freeSlot (s : State) : Tames f k s (s.freeSlot State.rescan k) := by
  unfold State.freeSlot
  split
  · exact (Tames.modRamp s (fun r => { r with slotHeld := false }) fun c => absurd c Bool.false_ne_true).trans (Shift.rescan _).tames
  · exact .refl _

theorem Tames.foldl {α : Type} {q : State → α → State} (h : ∀ s a, Tames f k s (q s a)) :
    ∀ (l : List α) (s : State), Tames f k s (l.foldl q s)
  | [], _ => .refl _
  | a :: l, s => (h s a).trans (Tames.foldl h l _)

theorem Tames.supersede (s : State) (w : HeldEntry → Bool) (y : Way) (n : Word) :
    Tames f k s (s.supersede k w y n) :=
  Tame.trans (y := { s.tube k with queue := (s.tube k).queue.filter fun e => !w e }) ⟨⟨rfl, fun _ => id⟩, fun _ => rfl,
    fun _ => id, fun _ _ _ _ => rfl⟩ (supersede_tube s w y n).tame

/-! ## Acceptance and the MANUAL path -/

theorem Tames.refuseTube (s : State) (a : Access) (p : Place) (r : RefuseReason) : Tames f p.tube s (s.refuseTube a p r) :=
  ((Tames.modSummary s _).trans (.place _ _)).trans (.answer _ _)

theorem Tames.clearingTest (s : State) (l : Line) (w : Word)
    (h : (s.tube k).mode.working = false → (s.tube k).gas.atmosphere ≠ .process) :
    Tames False k s (s.clearingTest State.rescan k l w) := by
  have e : (s.tube k).mode.working = false → s.clearingTest State.rescan k l w = s := fun n => by
    unfold State.clearingTest
    split
    · next c =>
      simp only [Bool.and_eq_true, beq_iff_eq] at c
      exact absurd c.1.2 (h n)
    · rfl
  exact ⟨(Shift.clearingTest (P := True) Shift.rescan s k l w).mild k, fun n => by rw [e n], fun n r => by rw [e n]; exact r,
    fun c => c.elim⟩

theorem Tames.bypass (s : State) (p : Place) (l : Line) (j w : Word) (hs : GasSafe (s.tube p.tube)) :
    Tames False p.tube s (s.bypass p l j w) := by
  unfold State.bypass
  simp only
  have h1 : Tames False p.tube s (s.supersede p.tube (HeldEntry.forLine l) .bypass j) := .supersede _ _ _ _
  generalize s.supersede p.tube (HeldEntry.forLine l) .bypass j = s1 at h1
  have h2 := h1.trans (Tames.lowerLine s1 l w)
  generalize s1.lowerLine State.rescan p.tube l w = s2 at h2
  have h3 : Tames False p.tube s ((s2.place (releasedNotice p.tube p.channel .bypass j w s.clock)).modTube p.tube
      fun x => { x with lastReleased := j }) :=
    (h2.trans (.place _ _)).trans (.setTube rfl id rfl)
  generalize (s2.place (releasedNotice p.tube p.channel .bypass j w s.clock)).modTube p.tube
    (fun x => { x with lastReleased := j }) = s3 at h3
  refine Tames.trans (h3.trans (Tames.clearingTest s3 l w fun n c => ?_)) (Shift.examine _ p.tube).tames
  have n' : (s.tube p.tube).mode.working = false := by rw [← h3.mode]; exact n
  rw [h3.atmosphere n'] at c
  rw [hs.working c] at n'
  cases n'

theorem Tames.holdHead (s : State) (n : Word) : Tames f k s (s.holdHead k n) := by
  unfold State.holdHead
  split
  · exact .refl _
  · split
    · exact Tames.setTube (s := s) rfl id rfl
    · exact .refl _

theorem Tames.holdFirst (s : State) (e : HeldEntry) : Tames f k s (s.holdFirst k e) := by
  unfold State.holdFirst
  have h1 : Tames f k s (s.modTube k fun x => { x with queue := [e] }) := Tames.setTube (s := s) rfl id rfl
  exact ((h1.trans (Shift.examineWith Shift.scan _ k).tames).trans (.holdHead _ _)).trans
    (Shift.announce (P := True) none _).tames

theorem Tames.enqueue (s : State) (p : Place) (d : DescWords) (j w : Word) :
    Tames f p.tube s (s.enqueue p d j w) := by
  unfold State.enqueue
  simp only
  have h1 : Tames f p.tube s (s.supersedeChannel p j) := by
    unfold State.supersedeChannel
    simp only
    split
    · exact (Tames.supersede s _ _ _).trans (Shift.examine _ p.tube).tames
    · exact .supersede s _ _ _
  generalize s.supersedeChannel p j = s1 at h1
  refine h1.trans ?_
  split
  · exact (Tames.holdFirst s1 _).trans (.answer _ _)
  · split
    · exact ((Tames.setTube (s := s1) (x := { s1.tube p.tube with
        queue := (s1.tube p.tube).queue ++ [(newEntry p d j w s.clock).hold (s1.tube p.tube).header.holdLimit] })
        rfl id rfl).trans (.place _ _)).trans (.answer _ _)
    · exact ((Tames.modSummary s1 _).trans (.place _ _)).trans (.answer _ _)

theorem Tames.accept (s : State) (a : Access) (p : Place) (d : DescWords) (hs : GasSafe (s.tube p.tube)) :
    Tames False p.tube s (s.accept a p d) := by
  have h1 : Tames False p.tube s (s.takeTicket p.tube) := Tames.setTube (s := s) rfl id rfl
  unfold State.accept
  simp only
  split
  · exact .refuseTube s _ _ _
  · split
    · exact .refuseTube s _ _ _
    · split
      · next l _ =>
        refine (h1.trans (Tames.bypass (s.takeTicket p.tube) p l _ _ ?_)).trans (.answer _ _)
        exact (Step.takeTicket (r := True) (k := p.tube) s).tube.safe hs
      · split
        · exact .refuseTube s _ _ _
        · exact h1.trans (Tames.enqueue _ p d _ _)

theorem Tames.setZone (s : State) (z : Zone) (w : Word) : Tames f k s (s.setZone k z w) :=
  (Tames.modRamp s _ id).trans (.deliver _ _ _ _)

theorem afterManual_slot (r : Ramp) (n : Nat) : (r.afterManual n).slotHeld = r.slotHeld := by
  unfold Ramp.afterManual; split <;> rfl

theorem Tames.manual (s : State) (a : Access) (p : Place) (d : DescWords) :
    Tames False p.tube s (s.manual a p d) := by
  unfold State.manual
  split
  · exact .refuseTube s _ _ _
  · split
    · exact .refuseTube s _ _ _
    · split
      · refine Tames.trans ?_ (.answer _ _)
        unfold State.manualZone
        exact ((Tames.modRamp s _ id).trans (.setZone _ _ _)).trans (.modRamp _ _ fun g => by
          rw [afterManual_slot] at g; exact g)
      · unfold State.manualLine
        simp only
        split
        · exact (Tames.lowerLine s _ _).trans (.answer _ _)
        · split
          · refine Tames.trans ?_ (.answer _ _)
            unfold State.raiseLine
            simp only
            split
            · exact (Tames.setFlow s _ _ _).trans (Shift.rescan _).tames
            · exact Tames.setFlow s _ _ _
          · exact .refuseTube s _ _ _
      · exact ((Tames.modBoat s _).trans (.deliver _ _ _ _)).trans (.answer _ _)
      · exact .answer _ _

/-! ## Expiries and arrivals -/

theorem Tames.entryExpired (s : State) (e : HeldEntry) : Tames f k s (s.entryExpired k e) := by
  unfold State.entryExpired
  simp only
  have h1 : Tames f k s (s.modTube k fun x => { x with queue := x.queue.filter (fun f => f.ticket != e.ticket) }) :=
    Tames.setTube (s := s) rfl id rfl
  generalize (s.modTube k fun x => { x with queue := x.queue.filter (fun f => f.ticket != e.ticket) }) = s1 at h1
  have h2 : Tames f k s (if e.state = EntryState.claiming then s1.withdraw State.rescan (Claim.ofHead k) else s1) := by
    split
    · exact h1.trans (Shift.withdraw (P := True) (o := none) Shift.rescan s1 _).tames
    · exact h1
  generalize (if e.state = EntryState.claiming then s1.withdraw State.rescan (Claim.ofHead k) else s1) = s2 at h2
  have h3 := (h2.trans (.place s2 (expiredNotice k e (entriesAhead (s.tube k).queue e.ticket)))).trans
    (.modSummary _ fun f => { f with expiredAny := true })
  split
  · exact h3.trans (Shift.examine _ k).tames
  · exact h3

theorem Tames.gapExpired (s : State) : Tames f k s (s.gapExpired k) :=
  (Tames.setTube (s := s) (x := { s.tube k with gapTimer := none }) rfl id rfl).trans (Shift.examine _ k).tames

theorem Tames.moveZone (s : State) (z : Zone) : Tames f k s (s.moveZone k z) := by
  unfold State.moveZone
  simp only
  split
  · exact .setZone s _ _
  · exact .refl _

theorem Tames.stepExpired (s : State) : Tames f k s (s.stepExpired k) := by
  unfold State.stepExpired
  simp only
  have h := Tames.modRamp (f := f) (k := k) s (fun r => { r with stepTimer := some (s.tube k).header.stepPeriod }) id
  generalize (s.modRamp k fun r => { r with stepTimer := some (s.tube k).header.stepPeriod }) = s1 at h
  split
  · unfold State.lagHold
    simp only
    split
    · exact (h.trans (Tames.modRamp s1 _ id)).trans (.place _ _)
    · exact h
  · have h2 := (h.trans (Tames.foldl (fun u z => Tames.moveZone u z) Ix5.all s1)).trans
      (Tames.modRamp _ (fun r => { r with thermal := .ramping, cause := .none }) id)
    refine h2.trans ?_
    generalize (Ix5.all.foldl (fun acc z => acc.moveZone k z) s1).modRamp k
      (fun r => { r with thermal := .ramping, cause := .none }) = s3
    unfold State.afterMoves
    simp only
    split
    · exact (Tames.modRamp s3 _ id).trans (.freeSlot _)
    · exact Tames.modRamp s3 _ id
    · exact (Tames.modRamp s3 _ id).trans (.freeSlot _)

theorem Tames.settleExpired (s : State) : Tames f k s (s.settleExpired k) := by
  unfold State.settleExpired State.settleFailed State.settlePassed
  simp only
  split
  · split
    · exact (Tames.modRamp s _ id).trans (.place _ _)
    · exact Tames.modRamp s _ id
  · exact ((Tames.modRamp s _ id).trans (.place _ _)).trans (.modSummary _ _)

theorem Tames.afterMove (s : State) : Tames f k s (s.afterMove k) := by
  unfold State.afterMove State.boatDone
  simp only
  have h1 := Tames.modBoat (f := f) (k := k) s fun b =>
    { b with stall := stallCounter (s.tube k).header (s.boatSample k) b.delivered b.stall }
  generalize (s.modBoat k fun b => { b with stall := stallCounter (s.tube k).header (s.boatSample k) b.delivered b.stall }) = s1 at h1
  split
  · exact (h1.trans (Tames.modBoat s1 _)).trans (.requestAbort _ _)
  · split
    · exact ((h1.trans (Tames.modBoat s1 _)).trans (.modSummary _ _)).trans (.place _ _)
    · exact h1.trans (Tames.modBoat s1 _)

theorem Tames.motionExpired (s : State) : Tames f k s (s.motionExpired k) := by
  unfold State.motionExpired
  simp only
  have h1 := Tames.modBoat (f := f) (k := k) s fun b => { b with expiries := min 65535 (b.expiries + 1), direction := b.heading }
  generalize (s.modBoat k fun b => { b with expiries := min 65535 (b.expiries + 1), direction := b.heading }) = s1 at h1
  split
  · exact h1.trans (.afterMove s1)
  · exact ((h1.trans (Tames.modBoat s1 _)).trans (.deliver _ _ _ _)).trans (.afterMove _)

theorem Tames.purgeLimitExpired (s : State) : Tames f k s (s.purgeLimitExpired k) := by
  unfold State.purgeLimitExpired
  simp only
  have h1 := Tames.modGas (f := f) (k := k) s (fun g => { g with limitTimer := none }) rfl rfl fun _ => rfl
  split
  · exact h1
  · split
    · exact h1.trans (.requestAbort _ _)
    · exact h1.trans (.requestAbort _ _)
    · exact h1.trans (.requestTrip _ _)
    · exact h1

theorem Tames.setCounter (s : State) (l : Line) (n : Nat) : Tames f k s
    (s.modGas k fun g => { g with lines := g.lines.set l { g.lines.get l with devCounter := n } }) :=
  Tames.modGas s _ rfl rfl fun j => by
    simp only [Eight.get_set]; split
    · next h => subst h; rfl
    · rfl

theorem Tames.lineArrives (s : State) (l : Line) (w : Word) : Tames f k s (s.lineArrives ⟨k, l, w⟩) := by
  unfold State.lineArrives
  simp only
  split
  · split
    · split
      · exact (Tames.setCounter s _ _).trans (.requestAbort _ _)
      · exact Tames.setCounter s _ _
    · exact Tames.setCounter s _ _
  · exact .refl _

theorem Tames.abortClaimExpired (s : State) : Tames f k s (s.abortClaimExpired k) := by
  unfold State.abortClaimExpired
  simp only
  have h1 := Tames.setTube (f := f) (s := s) (k := k) (x := { s.tube k with abortTimer := none }) rfl id rfl
  split
  · exact h1
  · exact h1.trans (.requestTrip _ _)

theorem Tame.pass (x : TubeState) (n : Nat) : Tame f x (x.pass n) :=
  ⟨⟨rfl, fun _ => id⟩, fun _ => rfl, fun _ => id, fun _ _ _ _ => rfl⟩

/-! ## One event of a tube -/

/-- What holds of a tube between events: an ABORTED tube has no run, and only a working tube holds a slot. -/
structure Calm (x : TubeState) : Prop where
  aborted : x.mode = .aborted → x.gas.run = none
  idle : x.mode.working = false → x.ramp.slotHeld = false

/-- What an event does to its tube. `g`: it may bring the tube back to work; `f`: it leaves the flows of a tube that does
not work and has no run. -/
structure Kept (g f : Prop) (x y : TubeState) : Prop where
  calm : Calm x → Calm y
  still : ¬ g → x.mode.working = false → y.mode.working = false
  rest : f → x.mode.working = false → x.gas.run = none →
    y.gas.run = none ∧ ∀ l, (y.gas.lines.get l).flow = (x.gas.lines.get l).flow

theorem Tame.kept (h : Tame f x y) : Kept g f x y where
  calm := fun c =>
    ⟨fun m => by
      rw [h.mode] at m
      exact h.run (by rw [m]; rfl) (c.aborted m), fun n => by
      rw [h.mode] at n
      cases e : y.ramp.slotHeld with
      | false => rfl
      | true => rw [← c.idle n]; exact (h.slot n e).symm⟩
  still := fun _ n => by rw [h.mode]; exact n
  rest := fun p n r => ⟨h.run n r, h.flows p n r⟩

/-- A tube that works after its event, and before it unless the event brings it back. -/
theorem Kept.working (h : y.mode.working = true) (hx : x.mode.working = true ∨ g) : Kept g False x y where
  calm := fun _ => ⟨fun m => absurd h (by rw [m]; simp [Mode.working]), fun n => absurd h (by rw [n]; simp)⟩
  still := fun n w => by
    rcases hx with c | c
    · rw [c] at w; cases w
    · exact absurd c n
  rest := fun c => c.elim

/-- An event of a working tube after which the tube is as it should be. -/
theorem Kept.ofWorking (hx : x.mode.working = true) (h : Calm x → Calm y) : Kept g f x y where
  calm := h
  still := fun _ w => by rw [hx] at w; cases w
  rest := fun _ w => by rw [hx] at w; cases w

theorem Mild.closeAll : ∀ (ls : List Line) (s : State), Mild (s.tube k) ((s.closeAll k ls).tube k)
  | [], _ => .refl _
  | l :: ls, s => by
    unfold State.closeAll
    simp only
    refine Mild.trans ?_ (Mild.closeAll ls _)
    split
    · exact .lowerLine s l 0
    · exact .refl _

theorem Mild.placeFlushed (o : FlushOrigin) : ∀ (n : Nat) (q : List HeldEntry) (s : State),
    Mild (s.tube k) ((placeFlushed k o n q s).tube k)
  | _, [], _ => .refl _
  | n, _ :: q, s => Mild.placeFlushed o (n + 1) q (s.place _)

theorem Mild.flush (s : State) (o : FlushOrigin) : Mild (s.tube k) ((s.flush k o).tube k) := by
  unfold State.flush
  simp only
  have tail : ∀ (v : State) (q : List HeldEntry),
      Mild (v.tube k) ((Machine.placeFlushed k o 0 q (v.modTube k fun x => { x with queue := [] })).tube k) := fun v q =>
    (Mild.setTube (s := v) (x := { v.tube k with queue := [] }) rfl id).trans (.placeFlushed o 0 q _)
  refine Mild.trans ?_ (tail _ _)
  split
  · exact .refl _
  · split
    · exact .withdraw s _
    · exact .refl _

theorem Kept.tubeCommand (s : State) (a : Access) (p : Place) :
    Kept (s.abort.latch = false) False (s.tube p.tube) ((s.tubeCommand a p).tube p.tube) := by
  have refuse : ∀ r, Kept (s.abort.latch = false) False (s.tube p.tube) ((s.refuseTube a p r).tube p.tube) := fun r =>
    Tame.kept (Tames.refuseTube (f := False) s a p r)
  have same : ∀ {v : State}, Mild (s.tube p.tube) (v.tube p.tube) → (s.tube p.tube).mode.working = true →
      Kept (s.abort.latch = false) False (s.tube p.tube) (v.tube p.tube) := fun {v} m w =>
    .working (by rw [m.mode]; exact w) (.inl w)
  have stay : Kept (s.abort.latch = false) False (s.tube p.tube) (s.ack.tube p.tube) := Tame.kept (.refl _)
  unfold State.tubeCommand
  split
  · unfold State.commandPurge
    split
    · next h =>
      simp only [purgeAllowed, Bool.and_eq_true] at h
      exact same (v := (s.takePurge p.tube).ack) (Mild.startRun s _) h.1
    · exact refuse _
  · unfold State.commandHold
    split
    · next h =>
      refine .working ?_ (.inl (by rw [h]; rfl))
      show ((State.modTube _ _ _).tube p.tube).mode.working = true
      rw [tube_modTube_eq]; rfl
    · exact stay
    · exact refuse _
    · exact refuse _
  · unfold State.commandResume
    split
    · exact stay
    · next h =>
      refine .working ?_ (.inl (by rw [h]; rfl))
      show ((State.modTube _ _ _).tube p.tube).mode.working = true
      rw [tube_modTube_eq]; rfl
    · exact refuse _
    · split
      · exact refuse _
      · next h =>
        refine .working ?_ (.inr (by simpa using h))
        show ((State.modTube _ _ _).tube p.tube).mode.working = true
        rw [tube_modTube_eq]; rfl
  · exact Tame.kept (.refl _)
  · unfold State.commandVent
    split
    · next h =>
      simp only [ventAllowed, Bool.and_eq_true] at h
      refine same (v := (s.takeVent p.tube).ack) ((Mild.closeAll Ix8.all s).trans ?_) h.1.1
      exact Mild.setTube (s := s.closeAll p.tube Ix8.all) rfl id
    · exact refuse _
  · unfold State.commandFlush
    split
    · next h => exact same (v := (s.flush p.tube .command).ack) (Mild.flush s _) h
    · exact refuse _
  · exact refuse _

theorem Tame.readWord (x : TubeState) (n : Nat) : Tame f x (x.readWord n).2 := by
  have b := Benign.readWord x n
  have m : (x.readWord n).2.mode = x.mode := by
    unfold TubeState.readWord TubeState.readLow TubeState.readHigh
    split <;> first | rfl | (split <;> rfl)
  exact ⟨⟨m, fun _ => b.slot⟩, fun _ => b.atmosphere, fun _ r => b.run.trans r, fun _ _ _ l => by rw [b.lines]⟩

theorem Tames.tubeRead (s : State) (p : Place) : Tames f p.tube s (s.tubeRead p) := by
  have e : (s.tubeRead p).tube p.tube = ((s.tube p.tube).readWord p.word.toNat).2 := tube_setTube_self s _ _
  unfold Tames
  rw [e]; exact .readWord _ _

theorem tube_endAbort (s : State) (k : Tube) (w : Word) : (s.endAbort k w).tube k
    = { s.tube k with abortTimer := none, mode := .aborted, summary := { (s.tube k).summary with abortEnd := true } } := by
  simp [State.endAbort]

/-- R102, R145: a run that has its volume ends, and with it an abort. -/
theorem Kept.sampleExpired (s : State) {r : Run} (hr : (s.tube k).gas.run = some r) :
    Kept g f (s.tube k) ((s.sampleExpired k).tube k) := by
  have done : ∀ (v : State) (q : Run), (v.tube k).mode = (s.tube k).mode → (v.tube k).ramp = (s.tube k).ramp →
      (((v.completeRun k q).tube k).mode = (s.tube k).mode ∨ ((v.completeRun k q).tube k).mode = .aborted
          ∧ ((v.completeRun k q).tube k).gas.run = none ∧ (s.tube k).mode.working = false)
        ∧ ((s.tube k).mode.working = false → ((v.completeRun k q).tube k).ramp.slotHeld = true →
          (s.tube k).ramp.slotHeld = true) := by
    intro v q hm hp
    unfold State.completeRun
    simp only
    generalize hs1 : (v.modGas k fun g =>
      { g with sampleTimer := none, limitTimer := none, atmosphere := .inert, run := none }) = s1
    have e1 : s1.tube k = { v.tube k with gas := { (v.tube k).gas with
        sampleTimer := none, limitTimer := none, atmosphere := .inert, run := none } } := by
      rw [← hs1]; exact tube_modTube_eq _ _ _
    generalize (if (v.tube k).header.standbyFlow.toNat ≤ (v.lineRec k (v.tube k).header.purgeLine).flow.toNat then
        (v.tube k).header.standbyFlow else (v.lineRec k (v.tube k).header.purgeLine).flow) = w
    have h2 := Tames.lowerLine (k := k) s1 (v.tube k).header.purgeLine w
    generalize s1.lowerLine State.rescan k (v.tube k).header.purgeLine w = s2 at h2
    have key : ∀ (n : Notice) (c : Summary → Summary) (b : Word),
        let z := (if (((s2.modSummary k c).place n).tube k).mode = .aborting then ((s2.modSummary k c).place n).endAbort k b
          else (s2.modSummary k c).place n).tube k
        (z.mode = (s.tube k).mode ∨ z.mode = .aborted ∧ z.gas.run = none ∧ (s.tube k).mode.working = false)
          ∧ ((s.tube k).mode.working = false → z.ramp.slotHeld = true → (s.tube k).ramp.slotHeld = true) := by
      intro n c b z
      have e3 : ((s2.modSummary k c).place n).tube k = { s2.tube k with summary := c (s2.tube k).summary } := by
        simp
      have m2 : (s2.tube k).mode = (s.tube k).mode := h2.mode.trans (by rw [e1]; exact hm)
      have hw : (s1.tube k).mode = (s.tube k).mode := by rw [e1]; exact hm
      have sl : (s.tube k).mode.working = false → (s2.tube k).ramp.slotHeld = true → (s.tube k).ramp.slotHeld = true :=
        fun n c => by
          have := h2.slot (by rw [hw]; exact n) c
          rw [e1] at this
          rw [← hp]; exact this
      by_cases ha : (s.tube k).mode = .aborting
      · have hc : (((s2.modSummary k c).place n).tube k).mode = .aborting := by rw [e3]; exact m2.trans ha
        have ez : z = { s2.tube k with
            summary := { c (s2.tube k).summary with abortEnd := true }, abortTimer := none, mode := .aborted } := by
          simp only [z, if_pos hc]
          rw [tube_endAbort, e3]
        rw [ez]
        refine ⟨.inr ⟨rfl, ?_, by rw [ha]; rfl⟩, sl⟩
        exact h2.run (by rw [hw, ha]; rfl) (by rw [e1])
      · have hc : ¬ (((s2.modSummary k c).place n).tube k).mode = .aborting := by rw [e3]; exact fun c => ha (m2.symm.trans c)
        have ez : z = { s2.tube k with summary := c (s2.tube k).summary } := by
          simp only [z, if_neg hc]; exact e3
        rw [ez]
        exact ⟨.inl m2, sl⟩
    exact key _ _ _
  have main : ∀ z : TubeState, (z.mode = (s.tube k).mode ∨ z.mode = .aborted ∧ z.gas.run = none ∧ (s.tube k).mode.working = false) →
      ((s.tube k).mode.working = false → z.ramp.slotHeld = true → (s.tube k).ramp.slotHeld = true) → Kept g f (s.tube k) z := by
    intro z hz hl
    refine ⟨fun c => ⟨fun m => ?_, fun n => ?_⟩, fun _ n => ?_, fun _ _ e => by rw [hr] at e; cases e⟩
    · rcases hz with e | e
      · have := c.aborted (e.symm.trans m)
        rw [hr] at this; cases this
      · exact e.2.1
    · have n' : (s.tube k).mode.working = false := by
        rcases hz with e | e
        · rw [← e]; exact n
        · exact e.2.2
      cases hs : z.ramp.slotHeld with
      | false => rfl
      | true => rw [← c.idle n']; exact (hl n' hs).symm
    · rcases hz with e | e
      · rw [e]; exact n
      · rw [e.1]; rfl
  unfold State.sampleExpired
  simp only
  generalize hs1 : (s.modGas k fun g => g.addSample (s.purgeFlowUsed k) (s.tube k).header.samplePeriod) = s1
  have e1 : s1.tube k = { s.tube k with
      gas := (s.tube k).gas.addSample (s.purgeFlowUsed k) (s.tube k).header.samplePeriod } := by
    rw [← hs1]; exact tube_modTube_eq _ _ _
  split
  · refine main _ (.inl ?_) fun _ c => ?_
    · rw [State.modGas, tube_modTube_eq, e1]
    · rw [State.modGas, tube_modTube_eq, e1] at c; exact c
  · next q _ =>
    split
    · have := done s1 q (by rw [e1]) (by rw [e1])
      exact main _ this.1 this.2
    · exact main _ (.inl (by rw [e1])) fun _ c => by rw [e1] at c; exact c

/-! ## Aborts -/

/-- R87: the freeze frees the slot. -/
theorem freezeRamp_slot (s : State) (h : (s.tube k).mode ≠ .run) : ((s.freezeRamp k).tube k).ramp.slotHeld = false := by
  unfold State.freezeRamp
  generalize hs1 : (s.modRamp k fun r => { r with
      thermal := .held, cause := .abort
      direction := if r.thermal = .ramping ∨ r.thermal = .held then r.direction else .none
      stepTimer := none, settleTimer := none }) = s1
  have m1 : (s1.tube k).mode = (s.tube k).mode := by rw [← hs1, State.modRamp, tube_modTube_eq]
  unfold State.freeSlot
  split
  · have m2 : ((s1.modRamp k fun r => { r with slotHeld := false }).tube k).mode ≠ .run := by
      rw [State.modRamp, tube_modTube_eq]; exact fun c => h (m1.symm.trans c)
    rw [((((Shift.rescan _).tubes k).stopped m2)).ramp, State.modRamp, tube_modTube_eq]
  · next h => simpa using h

theorem Mild.closeReactive : ∀ (ls : List Line) (s : State), Mild (s.tube k) ((s.closeReactive k ls).tube k)
  | [], _ => .refl _
  | l :: ls, s => by
    unfold State.closeReactive
    simp only
    refine Mild.trans ?_ (Mild.closeReactive ls _)
    split
    · exact .lowerLine s l 0
    · exact .refl _

theorem Mild.gasAbort (s : State) : Mild (s.tube k) ((s.gasAbort k).tube k) := by
  have gas : ∀ (v : State) (q : Gas → Gas), Mild (v.tube k) ((v.modGas k q).tube k) := fun v q => Mild.setTube (s := v) rfl id
  unfold State.gasAbort
  simp only
  split
  · exact (Mild.closeReactive Ix8.all s).trans (.startRun _ _)
  · exact (Mild.withdraw s _).trans (.startRun _ _)
  · refine (gas s fun g => { g with limitTimer := restartLimit g.limitTimer (s.tube k).header.purgeLimit }).trans ?_
    generalize (s.modGas k fun g => { g with limitTimer := restartLimit g.limitTimer (s.tube k).header.purgeLimit }) = v
    unfold State.raiseRunClaim
    split
    · exact .refl _
    · split
      · exact .refl _
      · exact Mild.trans (gas (v.modBudget _) _) ((Shift.rescan _).mild k)
  · exact .refl _
  · exact .refl _

/-- R142, R145: after an abort the tube does not work, holds no slot, and is ABORTED only without a run. -/
theorem abortTube_calm (s : State) (q : AbortRequest) : Calm ((s.abortTube q).tube q.tube)
    ∧ ((s.abortTube q).tube q.tube).mode.working = false := by
  unfold State.abortTube
  simp only
  have m1 : ((s.beginAbort q).tube q.tube).mode = .aborting := by simp [State.beginAbort]
  generalize s.beginAbort q = s1 at m1
  have m2 := (Mild.flush (k := q.tube) s1 .abort).trans (Mild.setTube (s := s1.flush q.tube .abort)
    (x := { (s1.flush q.tube .abort).tube q.tube with gapTimer := none }) rfl id)
  have a2 : (((s1.flush q.tube .abort).modTube q.tube fun x => { x with gapTimer := none }).tube q.tube).mode = .aborting :=
    m2.mode.trans m1
  generalize (s1.flush q.tube .abort).modTube q.tube (fun x => { x with gapTimer := none }) = s2 at a2
  have s3 := freezeRamp_slot (k := q.tube) s2 (by rw [a2]; simp)
  have a3 : ((s2.freezeRamp q.tube).tube q.tube).mode = .aborting := by
    have h : Tames True q.tube s2 (s2.freezeRamp q.tube) :=
      Tames.trans (Tames.modRamp s2 _ id) (Tames.freeSlot _)
    exact h.mode.trans a2
  generalize s2.freezeRamp q.tube = v3 at s3 a3
  have m4 : Mild (v3.tube q.tube) ((v3.modBoat q.tube fun b => b.freeze (v3.tube q.tube).header.inThreshold).tube q.tube) :=
    Mild.setTube (s := v3) rfl id
  have m5 := m4.trans (Mild.gasAbort _)
  generalize (v3.modBoat q.tube fun b => b.freeze (v3.tube q.tube).header.inThreshold).gasAbort q.tube = v5 at m5
  have a5 : (v5.tube q.tube).mode = .aborting := m5.mode.trans a3
  have s5 : (v5.tube q.tube).ramp.slotHeld = false := by
    cases e : (v5.tube q.tube).ramp.slotHeld with
    | false => rfl
    | true => rw [← s3]; exact (m5.slot (by rw [a3]; rfl) e).symm
  unfold State.afterGasAbort
  split
  · next hr =>
    have e : ((v5.endAbort q.tube 0).tube q.tube)
        = { v5.tube q.tube with abortTimer := none, mode := .aborted,
                                summary := { (v5.tube q.tube).summary with abortEnd := true } } := tube_endAbort _ _ _
    rw [e]
    exact ⟨⟨fun _ => hr, fun _ => s5⟩, rfl⟩
  · split
    · have e : (v5.startClaimTimer q.tube).tube q.tube
          = { v5.tube q.tube with abortTimer := startUnlessZero (v5.abort.claimLimit * 100) } := tube_modTube_eq _ _ _
      rw [e]
      exact ⟨⟨fun c => (by rw [show (v5.tube q.tube).mode = .aborted from c] at a5; cases a5), fun _ => s5⟩, by
        show (v5.tube q.tube).mode.working = false
        rw [a5]; rfl⟩
    · exact ⟨⟨fun c => (by rw [c] at a5; cases a5), fun _ => s5⟩, by rw [a5]; rfl⟩

theorem Kept.takeAbort (s : State) (q : AbortRequest) : Kept g f (s.tube q.tube) ((s.takeAbort q).tube q.tube) := by
  unfold State.takeAbort
  split
  · exact Tame.kept (.refl _)
  · split
    · next h => exact .ofWorking (by rw [h]; rfl) fun _ => (abortTube_calm s q).1
    · next h => exact .ofWorking (by rw [h]; rfl) fun _ => (abortTube_calm s q).1
    · exact Tame.kept (.refl _)
    · exact Tame.kept (.refl _)

end Sys2Proof.Machine
end

