-- ==== Sys2Proof/Laws/BankLaw.lean ====
section
/-! SUPPORT. The laws of the part together (`Bank`): `ReactiveLaw`, `TripLaw` and `BudgetLaw`, from the
reactive-gas law, the budget's books and the conduct of each tube, and through a controller access. -/

namespace Sys2Proof.Machine

variable {s t u : State} {k : Tube} {f g : Prop}

/-! ## The two laws, and what they read -/

theorem BudgetLaw.booked (h : BudgetLaw s) : s.Booked where
  draw := h.draw
  slots := h.slots
  apart := h.apart
  heads := h.heads
  runs := h.runs
  sampling := h.sampling
  marked := h.marked
  entries := h.entries
  bindings := h.bindings
  noRun := fun _ c => c.elim
  noHead := fun _ c => c.elim

theorem BudgetLaw.calm (h : BudgetLaw s) (k : Tube) : Calm (s.tube k) := ⟨h.aborted k, h.idle k⟩

theorem Ledger.law (h : s.Booked) (hc : ∀ k, Calm (s.tube k))
    (hl : s.loader.phase ≠ .ready → ∀ k, s.loader.job.unadopted k →
      (s.tube k).gas.run = none ∧ ∀ l, ((s.tube k).gas.lines.get l).flow = 0)
    (ha : ∀ t words, s.loader.job = .adopt t words → s.present t = true) : BudgetLaw s where
  draw := h.draw
  slots := h.slots
  apart := h.apart
  heads := h.heads
  runs := h.runs
  sampling := h.sampling
  marked := h.marked
  entries := h.entries
  bindings := h.bindings
  aborted := fun k => (hc k).aborted
  idle := fun k => (hc k).idle
  loading := hl
  adopting := ha

/-- R94, R125, R126, R128, R150 together. -/
structure Bank (s : State) : Prop where
  reactive : ReactiveLaw s
  trip : TripLaw s
  budget : BudgetLaw s

theorem PortPhase.walking_offWalk (h : s.portOffWalk = true) : s.port.phase.walking = none := by
  unfold State.portOffWalk at h
  unfold PortPhase.walking
  split at h <;> simp_all

/-- An event after which every tube is as `Kept` says. -/
theorem Bank.of (h : Bank s) (hr : ReactiveLaw t) (hb : t.Booked) (hk : ∀ k, Kept (s.abort.latch = false ∧ s.present k = true)
      (s.loader.phase ≠ .ready) (s.tube k) (t.tube k))
    (ho : t.root = s.root) (hl : t.loader = s.loader) (ha : t.abort.latch = s.abort.latch)
    (hp : ∀ acc, t.port.phase.walking = some acc → t.present (t.placeOf acc).tube = true) : Bank t where
  reactive := hr
  trip :=
    { absent := fun k c => by
        rw [present_of_root ho] at c
        exact (hk k).still (fun e => by rw [e.2] at c; cases c) (h.trip.absent k c)
      latched := fun c k => by
        rw [ha] at c
        exact (hk k).still (fun e => by rw [e.1] at c; cases c) (h.trip.latched c k)
      served := hp }
  budget := hb.law (fun k => (hk k).calm (h.budget.calm k)) (fun n k hj => by
      rw [hl] at n hj
      obtain ⟨a, b⟩ := h.budget.loading n k hj
      have r := (hk k).rest n ((h.reactive.loading n).1 k) a
      exact ⟨r.1, fun l => (r.2 l).trans (b l)⟩) fun t w c => by
    rw [hl] at c
    rw [present_of_root ho]
    exact h.budget.adopting t w c

theorem Bank.served (h : Bank s) (hp : PortKept s t) :
    (∀ acc, t.port.phase.walking = some acc → t.present (t.placeOf acc).tube = true) := fun acc c => by
  rcases hp with hp | ⟨hp, hr⟩
  · rw [PortPhase.walking_offWalk hp] at c; cases c
  · rw [hp] at c
    rw [present_of_root hr, placeOf_congr hr]
    exact h.trip.served acc c

/-- Nothing that the laws read but the port. -/
theorem Bank.same (h : Bank s) (hr : ReactiveLaw t) (ht : t.tubes = s.tubes) (ho : t.root = s.root)
    (hb : t.binding = s.binding) (hl : t.loader = s.loader) (hc : t.budget.capacity = s.budget.capacity)
    (hs : t.budget.slots = s.budget.slots) (hcl : t.budget.claims = s.budget.claims) (ha : t.abort.latch = s.abort.latch)
    (hp : ∀ acc, t.port.phase.walking = some acc → t.present (t.placeOf acc).tube = true) : Bank t :=
  h.of hr (h.budget.booked.same ht ho hb hc hs hcl) (fun k => by
    have : t.tube k = s.tube k := by simp only [State.tube, ht]
    rw [this]
    exact (Tame.refl _).kept) ho hl ha hp

theorem Bank.unmoved (h : Bank s) (g : Unmoved s t) : Bank t :=
  h.same (h.reactive.same g.tubes g.binding g.cache g.loader g.port) g.tubes g.root g.binding g.loader g.capacity g.slots
    g.claims g.latch (h.served g.port)

theorem Bank.finish (h : Bank s) (before : State) : Bank (before.finish s) := by
  have g := Finished.finish before s
  exact h.of (h.reactive.finish before) (Ledger.finish before h.budget.booked) (fun k => (g.tubes k).tame.kept) g.root g.loader
    (by rw [g.abort]) (h.served (.inr ⟨by rw [g.port], g.root⟩))

theorem Bank.elapse (h : Bank s) (n : Nat) : Bank (s.elapse n) :=
  h.of (h.reactive.elapse n) (h.budget.booked.elapse n) (fun k => by rw [tube_elapse]; exact (Tame.pass _ n).kept) rfl rfl rfl
    (h.served (.inr ⟨rfl, rfl⟩))

theorem Local.latch_eq (h : Local k s t) : t.abort.latch = s.abort.latch := by
  have := congrArg AbortControl.latch h.latch
  exact this

/-- An event of one tube. -/
theorem Bank.local (h : Bank s) (lo : Local k s t) (st : Step (s.loader.phase = .ready) k s t) (hb : t.Booked)
    (hk : Kept (s.abort.latch = false ∧ s.present k = true) (s.loader.phase ≠ .ready) (s.tube k) (t.tube k)) : Bank t :=
  h.of (h.reactive.local lo st) hb (fun j => by
    by_cases e : j = k
    · subst e; exact hk
    · exact (lo.others j e).tame.kept) lo.root lo.loader lo.latch_eq (h.served (st.port.imp id fun c => ⟨by rw [c], lo.root⟩))

theorem Kept.weaken {g' f' : Prop} {x y : TubeState} (h : Kept g f x y) (hg : g → g') (hf : f' → f) : Kept g' f' x y :=
  ⟨h.calm, fun n => h.still fun c => n (hg c), fun c => h.rest (hf c)⟩

/-! ## Events of one tube -/

theorem Bank.dispatchRead (h : Bank s) (a : Access) (p : Place) (d : DescWords) : Bank (s.dispatchRead a p d) := by
  have hr := h.reactive.dispatchRead a p d
  have pass : ∀ x, ReactiveLaw (s.passRead a x) → Bank (s.passRead a x) := fun x hr => by
    unfold State.passRead at hr ⊢
    split
    · exact h.same (by simpa only [*] using hr) rfl rfl rfl rfl rfl rfl rfl rfl fun _ c => nomatch c
    · exact h.same (by simpa only [*] using hr) rfl rfl rfl rfl rfl rfl rfl rfl fun _ c => nomatch c
  obtain ⟨k, c, n⟩ := p
  unfold State.dispatchRead at hr ⊢
  split
  · exact pass _ (h.reactive.passRead _ _)
  · exact h.local (Local.tubeRead s ⟨k, c, n⟩) (Step.tubeRead s c n) (h.budget.booked.tubeRead _)
      (Tame.kept (Tames.tubeRead (f := _) s ⟨k, c, n⟩))
  · exact pass _ (h.reactive.passRead _ _)

theorem Bank.passWrite (h : Bank s) (a : Access) (x : Addr) (c : Bool) : Bank (s.passWrite a x c) := by
  have hr := h.reactive.passWrite a x c
  unfold State.passWrite at hr ⊢
  split
  · next e => rw [if_pos e] at hr; exact h.same hr rfl rfl rfl rfl rfl rfl rfl rfl fun _ c => nomatch c
  · next e => rw [if_neg e] at hr; exact h.same hr rfl rfl rfl rfl rfl rfl rfl rfl fun _ c => nomatch c

theorem Bank.dispatchWrite (h : Bank s) (hr : s.loader.phase = .ready) (a : Access) {p : Place} {d : DescWords}
    (hc : Cached s p d) (hp : s.present p.tube = true) : Bank (s.dispatchWrite a p d) := by
  have ha := h.reactive.agrees hc
  have hb := h.budget.booked
  have hf : s.loader.phase ≠ .ready → False := fun n => n hr
  obtain ⟨k, c, n⟩ := p
  unfold State.dispatchWrite
  split
  · exact h.passWrite _ _ _
  · exact h.local (Local.tubeCommand s a ⟨k, c, n⟩) (Step.tubeCommand s a c n hr)
      (hb.tubeCommand a ⟨k, c, n⟩ (h.reactive.tubes k) hp) ((Kept.tubeCommand s a ⟨k, c, n⟩).weaken (fun e => ⟨e, hp⟩) hf)
  · split
    · next hm =>
      exact h.local (Local.manual s a ⟨k, c, n⟩ d)
        (Step.manual s a c n d fun l hl => (ha l hl).trans (manual_inert hc.formed hm))
        (hb.manual a ⟨k, c, n⟩ d (h.budget.aborted k))
        ((Tame.kept (g := False) (Tames.manual s a ⟨k, c, n⟩ d)).weaken (fun e => e.elim) hf)
    · exact h.local (Local.accept s a ⟨k, c, n⟩ d) (Step.accept s a c n d ha) (hb.accept a ⟨k, c, n⟩ d hp hc.bound)
        ((Tame.kept (g := False) (Tames.accept s a ⟨k, c, n⟩ d (h.reactive.tubes k))).weaken (fun e => e.elim) hf)

theorem Bank.refuseAt (h : Bank s) (a : Access) (p : Place) (e : RefuseReason) : Bank (s.refuseAt a p e) :=
  h.same (h.reactive.refuseAt a p e) rfl rfl rfl rfl rfl rfl rfl rfl fun _ c => nomatch c

theorem Bank.refuseBank (h : Bank s) (a : Access) (e : RefuseReason) : Bank (s.refuseBank a e) :=
  h.same (h.reactive.refuseBank a e) rfl rfl rfl rfl rfl rfl rfl rfl fun _ c => nomatch c

theorem Bank.afterLookup (h : Bank s) (hr : s.loader.phase = .ready) {acc : Access} {p : Place} {way : Ix4}
    (hp : s.placeOf acc = p) (hh : (s.cacheEntry p way).holds p.tube p.channel = true) (hq : s.present p.tube = true) :
    Bank (s.afterLookup acc p way) := by
  have hl := h.reactive.afterLookup hr hp hh
  unfold State.afterLookup at hl ⊢
  simp only at hl ⊢
  split
  · exact h.refuseAt _ _ _
  · next e1 =>
    rw [e1] at hl
    split
    · exact h.dispatchRead _ _ _
    · next e2 =>
      rw [e2] at hl
      split
      · obtain ⟨a, b⟩ := h.reactive.cache p way hh
        exact h.dispatchWrite hr _ ⟨a, b⟩ hq
      · next e3 =>
        simp only [e3] at hl
        refine h.same hl rfl rfl rfl rfl rfl rfl rfl rfl fun acc' c => ?_
        cases c
        show s.present (s.placeOf acc).tube = true
        rw [hp]; exact hq

theorem Bank.lookup (h : Bank s) (hr : s.loader.phase = .ready) {acc : Access} {p : Place} (hp : s.placeOf acc = p)
    (hq : s.present p.tube = true) : Bank (s.lookup acc p) := by
  have hl := h.reactive.lookup hr hp
  unfold State.lookup at hl ⊢
  simp only at hl ⊢
  have h1 : Bank { s with replacement := s.replacement + 1 } := h.unmoved { Unmoved.refl s with port := .inr ⟨rfl, rfl⟩ }
  split
  · next way hw =>
    have hh := List.find?_some (p := fun w => (s.cacheEntry p w).holds p.tube p.channel) hw
    exact h1.afterLookup hr hp hh hq
  · next e =>
    rw [e] at hl
    refine h1.same hl rfl rfl rfl rfl rfl rfl rfl rfl fun acc' c => ?_
    cases c
    show s.present (s.placeOf acc).tube = true
    rw [hp]; exact hq

theorem Bank.fillWalk (h : Bank s) (hr : s.loader.phase = .ready) (hn : NoWriteBack s) {acc : Access}
    {p : Place} (hp : s.placeOf acc = p) {d : DescWords} (hf : d.wellFormed = true)
    (hm : (s.binding.get p.tube).mismatch p.channel d = false) (w6 : Word) (victim : Ix4) (hq : s.present p.tube = true) :
    Bank (s.fillWalk acc p d w6 victim) := by
  have hl := h.reactive.fillWalk hr hn hp hf hm w6 victim
  unfold State.fillWalk at hl ⊢
  simp only at hl ⊢
  split
  · next e =>
    have h0 : ReactiveLaw (s.setCacheEntry p (s.fillWay p victim) (filledEntry p d w6)) :=
      h.reactive.setEntry hr rfl rfl rfl rfl rfl (filledEntry_sound hf hm w6) fun acc v g => absurd g (hn acc v)
    have h1 : Bank (s.setCacheEntry p (s.fillWay p victim) (filledEntry p d w6)) :=
      h.same h0 rfl rfl rfl rfl rfl rfl rfl rfl h.trip.served
    refine h1.afterLookup hr hp ?_ hq
    rw [setCacheEntry_get, if_pos ⟨rfl, rfl⟩]
    exact filledEntry_holds _ _ _
  · next e =>
    rw [if_neg e] at hl
    refine h.same hl rfl rfl rfl rfl rfl rfl rfl rfl fun acc' c => ?_
    cases c
    show s.present (s.placeOf acc).tube = true
    rw [hp]; exact hq

theorem Bank.walkWord (h : Bank s) (w : Word) : Bank (s.walkWord w) := by
  have hl := h.reactive.walkWord w
  unfold State.walkWord at hl ⊢
  split
  · next acc ws victim hp =>
    simp only [hp] at hl
    have hr : s.loader.phase = .ready := h.reactive.walks (by simp [State.portOffWalk, hp])
    have hn : NoWriteBack s := fun a v g => by rw [hp] at g; rcases g with ⟨w, g⟩ | g <;> cases g
    have hq : s.present (s.placeOf acc).tube = true := h.trip.served acc (by rw [hp]; rfl)
    split
    · next e =>
      rw [if_pos e] at hl
      refine h.same hl rfl rfl rfl rfl rfl rfl rfl rfl fun acc' c => ?_
      cases c
      exact hq
    · next e =>
      rw [if_neg e] at hl
      unfold State.decideWalk at hl ⊢
      simp only at hl ⊢
      split
      · next e => rw [if_pos e] at hl; exact h.same hl rfl rfl rfl rfl rfl rfl rfl rfl fun _ c => nomatch c
      · next e1 =>
        rw [if_neg e1] at hl
        split
        · next e => rw [if_pos e] at hl; exact h.same hl rfl rfl rfl rfl rfl rfl rfl rfl fun _ c => nomatch c
        · next hf =>
          rw [if_neg hf] at hl
          split
          · next e => rw [if_pos e] at hl; exact h.same hl rfl rfl rfl rfl rfl rfl rfl rfl fun _ c => nomatch c
          · next hm =>
            exact h.fillWalk hr hn rfl (by simpa using hf) (by simpa using hm) _ _ hq
  · exact h

theorem Bank.fillDone (h : Bank s) {acc : Access} {way : Ix4} {b : Bool} (hp : s.port.phase = .fillWriteBack acc way b) :
    Bank (s.afterLookup acc (s.placeOf acc) way) :=
  h.afterLookup (h.reactive.walks (by simp [State.portOffWalk, hp])) rfl (h.reactive.writeBacks acc way (.inl ⟨b, hp⟩))
    (h.trip.served acc (by rw [hp]; rfl))

theorem Bank.useDone (h : Bank s) {acc : Access} {way : Ix4} (hp : s.port.phase = .useWriteBack acc way) :
    Bank ((s.setCacheEntry (s.placeOf acc) way { s.cacheEntry (s.placeOf acc) way with wKnown := true }).dispatchWrite
      acc (s.placeOf acc) (s.cacheEntry (s.placeOf acc) way).words) := by
  have hr : s.loader.phase = .ready := h.reactive.walks (by simp [State.portOffWalk, hp])
  have hk : Bank (s.setCacheEntry (s.placeOf acc) way { s.cacheEntry (s.placeOf acc) way with wKnown := true }) :=
    h.same (h.reactive.markKnown hp) rfl rfl rfl rfl rfl rfl rfl rfl h.trip.served
  obtain ⟨a, c⟩ := h.reactive.cache (s.placeOf acc) way (h.reactive.writeBacks acc way (.inr hp))
  exact hk.dispatchWrite hr acc ⟨a, c⟩ (h.trip.served acc (by rw [hp]; rfl))

end Sys2Proof.Machine
end

