-- ==== Sys2Proof/Laws/BankSteps.lean ====
section
/-! SUPPORT. `Bank` through RELOAD, TRIP_CLEAR and the other root accesses, the classification of every access, and trips. -/

namespace Sys2Proof.Machine

variable {s t u : State} {k : Tube}

/-! ## Root commands -/

theorem reload_eq (s : State) (straps : BitVec 4) : (s.reload straps).root = s.root.reload straps
    ∧ (s.reload straps).budget = s.budget ∧ (s.reload straps).abort = s.abort := by
  obtain ⟨b, n, e⟩ := abandonReads_eq s
  unfold State.reload
  simp only [e]
  unfold State.reloadMonitor
  simp only
  split <;> exact ⟨rfl, rfl, rfl⟩

theorem sum_zero : ∀ {l : List Nat}, (∀ n ∈ l, n = 0) → l.sum = 0
  | [], _ => rfl
  | a :: l, h => by
    rw [List.sum_cons, h a (by simp), sum_zero fun n hn => h n (by simp [hn])]

theorem draw_zero {g : Gas} (h : ∀ l, (g.lines.get l).flow = 0) : g.draw = 0 := by
  unfold Gas.draw
  refine sum_zero fun n hn => ?_
  obtain ⟨r, hr, rfl⟩ := List.mem_map.mp hn
  obtain ⟨l, rfl⟩ := Eight.mem_toList.mp hr
  simp [LineRec.draw, h l, drawOf, hundreds]

/-- With every line at 0, no run and no working tube, no claim waits and nothing is drawn. -/
theorem BudgetLaw.quiet {s : State} (h : BudgetLaw s) (hr : ReactiveLaw s) (hm : ∀ k, (s.tube k).mode.working = false)
    (hn : ∀ k, (s.tube k).gas.run = none) (hz : ∀ k l, ((s.tube k).gas.lines.get l).flow = 0) :
    s.budget.claims = [] ∧ s.bankDraw = 0 ∧ s.slotHolders = 0 := by
  refine ⟨List.eq_nil_iff_forall_not_mem.mpr fun c hc => ?_, ?_, ?_⟩
  · cases he : c.origin.isEntry with
    | true =>
      obtain ⟨e, q, hq, _⟩ := h.heads c hc he
      rw [(hr.tubes c.tube).idle (hm _)] at hq; cases hq
    | false =>
      obtain ⟨r, hr, _⟩ := (h.runs c hc he).run
      rw [hn] at hr; cases hr
  · unfold State.bankDraw
    refine sum_zero fun n hn => ?_
    obtain ⟨k, _, rfl⟩ := List.mem_map.mp hn
    exact draw_zero (hz k)
  · unfold State.slotHolders
    rw [List.length_eq_zero_iff, List.filter_eq_nil_iff]
    intro k _
    simp [h.idle k (hm k)]

/-- Books with nothing in them. -/
theorem Ledger.blank (hc : s.budget.claims = []) (hz : ∀ k l, ((s.tube k).gas.lines.get l).flow = 0)
    (hl : ∀ k, (s.tube k).ramp.slotHeld = false) (ht : ∀ k, (s.tube k).gas.sampleTimer = none)
    (hm : ∀ k, s.present k = true ∨ (s.tube k).mode.working = true → (s.tube k).purgeMarked)
    (he : ∀ k, (s.tube k).queue = [])
    (hb : ∀ k l, (s.lineRec k l).purge = ((s.binding.get k).lines.get l).purge) : s.Booked where
  draw := by
    unfold State.bankDraw
    rw [sum_zero fun n hn => by
      obtain ⟨k, _, rfl⟩ := List.mem_map.mp hn
      exact draw_zero (hz k)]
    exact Nat.zero_le _
  slots := by
    unfold State.slotHolders
    rw [List.filter_eq_nil_iff.mpr fun k _ => by simp [hl k]]
    exact Nat.zero_le _
  apart := by rw [hc]; exact .nil
  heads := by rw [hc]; intro _ c; cases c
  runs := by rw [hc]; intro _ c; cases c
  sampling := fun k c => absurd (ht k) c
  marked := hm
  entries := fun k e c => by rw [he k] at c; cases c
  bindings := hb
  noRun := fun _ c => c.elim
  noHead := fun _ c => c.elim

theorem Bank.reload (h : Bank s) (hp : s.port.phase = .idle) (hr : s.reloadable = true) (straps : BitVec 4) :
    Bank (s.reload straps) := by
  have hrl := h.reactive.reload hp hr straps
  obtain ⟨er, eb, ea⟩ := reload_eq s straps
  have hm : ∀ k, (s.tube k).mode = .aborted := fun k => by
    simp only [State.reloadable, Bool.and_eq_true, List.all_eq_true] at hr
    have := hr.1 k (Ix4.mem_all k)
    simp only [decide_eq_true_eq] at this
    exact this.1
  have hc : s.budget.claims = [] := by
    simp only [State.reloadable, Bool.and_eq_true, List.isEmpty_iff] at hr
    exact hr.2
  have hw : ∀ k, (s.tube k).mode.working = false := fun k => by rw [hm k]; rfl
  have hpr : ∀ k, (s.reload straps).present k = false := fun k => by
    unfold State.present
    rw [er]
    simp [RootCopy.reload]
  have hz : ∀ k l, (((s.reload straps).tube k).gas.lines.get l).flow = 0 := fun k l => by
    rw [reload_tube]; simp [TubeState.reload, Gas.reset, LineRec.reset]
  have hn : ∀ k, ((s.reload straps).tube k).gas.run = none := fun k => by rw [reload_tube]; rfl
  have hmw : ∀ k, ((s.reload straps).tube k).mode.working = false := fun k => by rw [reload_tube]; exact hw k
  have hsl : ∀ k, ((s.reload straps).tube k).ramp.slotHeld = false := fun k => by
    rw [reload_tube]; exact h.budget.idle k (hw k)
  have hport : (s.reload straps).portOffWalk = true := by
    cases e : (s.reload straps).portOffWalk with
    | true => rfl
    | false => exact absurd (hrl.walks e) (by simp [State.reload])
  refine ⟨hrl, ⟨fun k _ => hmw k, fun _ => hmw, fun acc c => ?_⟩, Ledger.law ?_ (fun k => ⟨fun _ => hn k, fun _ => hsl k⟩)
    (fun _ k _ => ⟨hn k, hz k⟩) fun t w c => ?_⟩
  · rw [PortPhase.walking_offWalk hport] at c; cases c
  · refine Ledger.blank (by rw [eb]; exact hc) hz hsl (fun k => by rw [reload_tube]; rfl) (fun k c => ?_) (fun k => ?_) fun k l => ?_
    · rcases c with c | c
      · rw [hpr k] at c; cases c
      · rw [hmw k] at c; cases c
    · rw [reload_tube]; exact (h.reactive.tubes k).idle (hw k)
    · have e : (s.reload straps).lineRec k l = ((s.reload straps).tube k).gas.lines.get l := rfl
      have eb : (s.reload straps).binding = Four.fill TubeBinding.empty := rfl
      rw [e, reload_tube, eb]
      simp [TubeState.reload, Gas.reset, LineRec.reset, TubeBinding.empty]
  · have : (s.reload straps).loader.job = .root [] := rfl
    rw [this] at c; cases c

theorem Bank.answer (h : Bank s) (a : Answer) : Bank (s.answer a) :=
  h.same (h.reactive.answer a) rfl rfl rfl rfl rfl rfl rfl rfl fun _ c => nomatch c

theorem Bank.clearTrip (h : Bank s) : Bank s.clearTrip := by
  have hr : ReactiveLaw s.clearTrip := by
    unfold State.clearTrip
    split
    · exact h.reactive.same rfl rfl rfl rfl (.inr ⟨rfl, rfl⟩)
    · exact h.reactive
  have hb : s.clearTrip.Booked := by
    unfold State.clearTrip
    split
    · exact h.budget.booked.same rfl rfl rfl rfl rfl rfl
    · exact h.budget.booked
  have e : s.clearTrip.tubes = s.tubes ∧ s.clearTrip.root = s.root ∧ s.clearTrip.loader = s.loader
      ∧ s.clearTrip.port = s.port ∧ (s.clearTrip.abort.latch = true → s.abort.latch = true) := by
    unfold State.clearTrip
    split
    · exact ⟨rfl, rfl, rfl, rfl, fun c => nomatch c⟩
    · exact ⟨rfl, rfl, rfl, rfl, id⟩
  obtain ⟨et, er, el, ep, ea⟩ := e
  have tube : ∀ k, s.clearTrip.tube k = s.tube k := fun k => by simp only [State.tube, et]
  refine ⟨hr, ⟨fun k c => ?_, fun c k => ?_, fun acc c => ?_⟩, hb.law (fun k => ?_) (fun n k c => ?_) fun t w c => ?_⟩
  · rw [tube]; exact h.trip.absent k (by rw [← present_of_root er]; exact c)
  · rw [tube]; exact h.trip.latched (ea c) k
  · rw [ep] at c; rw [present_of_root er, placeOf_congr er]; exact h.trip.served acc c
  · rw [tube]; exact h.budget.calm k
  · rw [el] at n c; rw [tube]; exact h.budget.loading n k c
  · rw [el] at c; rw [present_of_root er]; exact h.budget.adopting t w c

theorem Bank.rootAccess (h : Bank s) (hp : s.port.phase = .idle) (a : Access) (w : Six)
    (straps : BitVec 4) : Bank (s.rootAccess a w straps) := by
  have hl := h.reactive.rootAccess hp a w straps
  unfold State.rootAccess at hl ⊢
  split
  · next e => rw [e] at hl; exact h.same hl rfl rfl rfl rfl rfl rfl rfl rfl fun _ c => nomatch c
  · split
    · unfold State.consumerWrite
      split
      · exact h.passWrite _ _ _
      · exact h.refuseBank _ _
    · split
      · exact h.refuseBank _ _
      · unfold State.serviceRootWrite
        split
        · unfold State.rootCommand
          split
          · have hf := h.reactive.flushCommand a
            unfold State.flushCommand at hf ⊢
            simp only at hf ⊢
            split
            · next e => rw [if_pos e] at hf; exact h.same hf rfl rfl rfl rfl rfl rfl rfl rfl fun _ c => nomatch c
            · next e1 =>
              rw [if_neg e1] at hf
              split
              · next e => rw [if_pos e] at hf; exact h.same hf rfl rfl rfl rfl rfl rfl rfl rfl fun _ c => nomatch c
              · exact h.refuseBank _ _
          · unfold State.reloadCommand
            split
            · next hr => exact (h.reload hp hr straps).answer _
            · exact h.refuseBank _ _
          · unfold State.tripCommand
            split
            · exact h.clearTrip.answer _
            · exact h.refuseBank _ _
          · exact h.refuseBank _ _
        · refine Bank.passWrite ?_ _ _ _
          have hr : ReactiveLaw (s.modRoot fun r => { r with argument := a.value }) :=
            h.reactive.same rfl rfl rfl rfl (.inl (offWalk_idle hp))
          refine ⟨hr, ⟨h.trip.absent, h.trip.latched, h.trip.served⟩,
            Ledger.law ?_ h.budget.calm h.budget.loading h.budget.adopting⟩
          have b := h.budget.booked
          exact ⟨b.draw, b.slots, b.apart, b.heads, b.runs, b.sampling, b.marked, b.entries, b.bindings, b.noRun, b.noHead⟩
        · exact h.refuseBank _ _
        · exact h.refuseBank _ _
        · exact h.refuseBank _ _
        · exact h.passWrite _ _ _

theorem Bank.classify (h : Bank s) (hp : s.port.phase = .idle) (a : Access) (straps : BitVec 4) :
    Bank (s.classify a straps) := by
  unfold State.classify
  split
  · exact h.rootAccess hp _ _ _
  · split
    · next p hw =>
      unfold State.channelAccess
      split
      · exact h.refuseAt _ _ _
      · exact h.refuseAt _ _ _
      · next hr =>
        split
        · next hq => exact h.lookup hr (by simp [State.placeOf, hw]) hq
        · exact h.refuseAt _ _ _
    · unfold State.passThrough
      split
      · have hr := h.reactive.passRead a a.addr
        unfold State.passRead at hr ⊢
        split
        · next e => rw [e] at hr; exact h.same hr rfl rfl rfl rfl rfl rfl rfl rfl fun _ c => nomatch c
        · next e => rw [e] at hr; exact h.same hr rfl rfl rfl rfl rfl rfl rfl rfl fun _ c => nomatch c
      · split
        · exact h.refuseBank _ _
        · exact h.passWrite _ _ _

/-! ## Trips -/

/-- R150, R151: a bank trip leaves no tube at work. -/
theorem Bank.takeTrip (h : Bank s) (q : TripRequest) : Bank (s.takeTrip q) := by
  have hr := h.reactive.takeTrip q
  have hb := h.budget.booked.takeTrip h.reactive.tubes q
  unfold State.takeTrip at hr hb ⊢
  split
  · next e => rw [if_pos e] at hr; exact h.same hr rfl rfl rfl rfl rfl rfl rfl rfl h.trip.served
  · next e =>
    rw [if_neg e] at hr hb
    unfold State.firstTrip at hr hb ⊢
    simp only at hr hb ⊢
    generalize hs1 : s.modAbort (fun a => { a with latch := true, tripCause := q.cause, tripTime := s.clock }) = s1 at hr hb ⊢
    have key : ∀ (l : List Tube) (v : State), (∀ k, (v.tube k).mode.working = true → k ∈ l) →
        (∀ k, ((l.foldl (fun acc t => acc.abortTube (tripAbort q t)) v).tube k).mode.working = false)
        ∧ (∀ k, Calm (v.tube k) → Calm ((l.foldl (fun acc t => acc.abortTube (tripAbort q t)) v).tube k))
        ∧ (∀ k, k ∉ l → Tame True (v.tube k) ((l.foldl (fun acc t => acc.abortTube (tripAbort q t)) v).tube k))
        ∧ (l.foldl (fun acc t => acc.abortTube (tripAbort q t)) v).root = v.root
        ∧ (l.foldl (fun acc t => acc.abortTube (tripAbort q t)) v).loader = v.loader
        ∧ (l.foldl (fun acc t => acc.abortTube (tripAbort q t)) v).port = v.port := by
      intro l
      induction l with
      | nil =>
        intro v hv
        refine ⟨fun k => ?_, fun _ => id, fun _ _ => .refl _, rfl, rfl, rfl⟩
        cases e : (v.tube k).mode.working with
        | false => exact e
        | true => cases hv k e
      | cons a l ih =>
        intro v hv
        obtain ⟨c1, c2⟩ := abortTube_calm v (tripAbort q a)
        have lo : Local a v (v.abortTube (tripAbort q a)) := Local.abortTube v (tripAbort q a)
        obtain ⟨i1, i2, i3, i4, i5, i6⟩ := ih (v.abortTube (tripAbort q a)) fun k hk => by
          by_cases e : k = a
          · subst e; rw [show ((v.abortTube (tripAbort q k)).tube k).mode.working = false from c2] at hk; cases hk
          · rw [(lo.others k e).mode] at hk
            exact (List.mem_cons.mp (hv k hk)).resolve_left e
        refine ⟨i1, fun k hk => i2 k ?_, fun k hk => ?_, i4.trans lo.root, i5.trans lo.loader, i6.trans (port_abortTube _ _)⟩
        · by_cases e : k = a
          · subst e; exact c1
          · exact ((lo.others k e).tame (f := True)).kept (g := False) |>.calm hk
        · rw [List.mem_cons, not_or] at hk
          exact ((lo.others k hk.1).tame).trans (i3 k hk.2)
    have tube1 : ∀ k, (s1.place (tripNotice s q (wordOf (workingTubes s1).length))).tube k = s.tube k := fun k => by
      rw [← hs1]; rfl
    have root1 : (s1.place (tripNotice s q (wordOf (workingTubes s1).length))).root = s.root := by rw [← hs1]; rfl
    have load1 : (s1.place (tripNotice s q (wordOf (workingTubes s1).length))).loader = s.loader := by rw [← hs1]; rfl
    have port1 : (s1.place (tripNotice s q (wordOf (workingTubes s1).length))).port = s.port := by rw [← hs1]; rfl
    have mem1 : ∀ k, (s.tube k).mode.working = true → k ∈ workingTubes s1 := fun k hk => by
      have hp : s.present k = true := by
        cases e : s.present k with
        | true => rfl
        | false => rw [h.trip.absent k e] at hk; cases hk
      have t1 : s1.tube k = s.tube k := by rw [← hs1]; rfl
      have p1 : s1.present k = s.present k := by rw [← hs1]; rfl
      refine List.mem_filter.mpr ⟨List.mem_filter.mpr ⟨Ix4.mem_all k, by rw [p1]; exact hp⟩, ?_⟩
      rw [t1]
      cases hm : (s.tube k).mode <;> rw [hm] at hk <;> simp_all [Mode.working]
    have mem2 : ∀ k, k ∈ workingTubes s1 → (s.tube k).mode.working = true := fun k hk => by
      have := (List.mem_filter.mp hk).2
      have t1 : s1.tube k = s.tube k := by rw [← hs1]; rfl
      rw [t1] at this
      cases hm : (s.tube k).mode <;> simp_all [Mode.working]
    obtain ⟨k1, k2, k3, k4, k5, k6⟩ := key (workingTubes s1) (s1.place (tripNotice s q (wordOf (workingTubes s1).length)))
      fun k hk => mem1 k (by rw [tube1] at hk; exact hk)
    rw [root1] at k4; rw [load1] at k5; rw [port1] at k6
    generalize (workingTubes s1).foldl (fun acc t => acc.abortTube (tripAbort q t))
      (s1.place (tripNotice s q (wordOf (workingTubes s1).length))) = z at *
    refine ⟨hr, ⟨fun k _ => k1 k, fun _ => k1, fun acc c => ?_⟩, hb.law (fun k => k2 k ?_) (fun n k c => ?_) fun t w c => ?_⟩
    · rw [k6] at c; rw [present_of_root k4, placeOf_congr k4]; exact h.trip.served acc c
    · rw [tube1]; exact h.budget.calm k
    · rw [k5] at n c
      obtain ⟨a, b⟩ := h.budget.loading n k c
      have hw := (h.reactive.loading n).1 k
      have hk := k3 k fun m => by rw [mem2 k m] at hw; cases hw
      rw [tube1] at hk
      exact ⟨hk.run hw a, fun l => (hk.flows trivial hw a l).trans (b l)⟩
    · rw [k5] at c; rw [present_of_root k4]; exact h.budget.adopting t w c

end Sys2Proof.Machine
end

