-- ==== Sys2Proof/Laws/BankLoad.lean ====
section
/-! SUPPORT. `Bank` through the loader's words and through adoption. -/

namespace Sys2Proof.Machine

variable {s t u : State} {k : Tube} {nr nh : Tube → Prop}

/-! ## Before READY -/

theorem Bank.walking_none (h : ReactiveLaw s) (hn : s.loader.phase ≠ .ready) : s.port.phase.walking = none :=
  PortPhase.walking_offWalk (h.offWalk hn)

/-- Outside READY no tube works and the port walks for nobody. -/
theorem ReactiveLaw.trip (h : ReactiveLaw s) (hn : s.loader.phase ≠ .ready) : TripLaw s :=
  ⟨fun k _ => (h.loading hn).1 k, fun _ => (h.loading hn).1, fun acc c => by rw [Bank.walking_none h hn] at c; cases c⟩

/-- The loader turns to another piece of work. -/
theorem Bank.setJob (h : Bank s) (hn : s.loader.phase ≠ .ready) (j : LoadJob)
    (hu : ∀ k, j.unadopted k → s.loader.job.unadopted k) (ha : ∀ t words, j = .adopt t words → s.present t = true) :
    Bank (s.setJob j) :=
  have hr := h.reactive.setJob hn j
  ⟨hr, hr.trip hn, Ledger.law (h.budget.booked.same rfl rfl rfl rfl rfl rfl) h.budget.calm
    (fun _ k c => h.budget.loading hn k (hu k c)) ha⟩

theorem nextLoad_job (s : State) (l : List Tube) : ∃ j, s.nextLoad l = s.setJob j ∧ (∀ k, j.unadopted k)
    ∧ ∀ t words, j ≠ .adopt t words := by
  unfold State.nextLoad
  split
  · exact ⟨_, rfl, fun _ => trivial, fun _ _ c => nomatch c⟩
  · exact ⟨_, rfl, fun _ => trivial, fun _ _ c => nomatch c⟩

theorem Bank.nextLoad (h : Bank s) (hn : s.loader.phase ≠ .ready) (hj : ∀ k, s.loader.job.unadopted k) (l : List Tube) :
    Bank (s.nextLoad l) := by
  obtain ⟨j, e, _, b⟩ := nextLoad_job s l
  rw [e]
  exact h.setJob hn j (fun k _ => hj k) fun t w c => absurd c (b t w)

/-- Before any adoption the part stands still. -/
theorem Bank.still (h : Bank s) (hn : s.loader.phase ≠ .ready) (hj : ∀ k, s.loader.job.unadopted k) :
    (∀ k, (s.tube k).mode.working = false) ∧ (∀ k, (s.tube k).gas.run = none)
      ∧ (∀ k l, ((s.tube k).gas.lines.get l).flow = 0) ∧ s.budget.claims = [] ∧ (∀ k, (s.tube k).ramp.slotHeld = false)
      ∧ (∀ k, (s.tube k).gas.sampleTimer = none) ∧ ∀ k, (s.tube k).queue = [] := by
  have hm := (h.reactive.loading hn).1
  have hr := fun k => (h.budget.loading hn k (hj k)).1
  have hz := fun k => (h.budget.loading hn k (hj k)).2
  refine ⟨hm, hr, hz, (h.budget.quiet h.reactive hm hr hz).1, fun k => h.budget.idle k (hm k), fun k => ?_,
    fun k => (h.reactive.tubes k).idle (hm k)⟩
  cases e : (s.tube k).gas.sampleTimer with
  | none => rfl
  | some n =>
    obtain ⟨r, a, _⟩ := h.budget.sampling k (by rw [e]; simp)
    rw [hr k] at a; cases a

theorem ofWords_absent (ws : List Word) (k : Tube) : ((RootFields.ofWords ws).tubes.get k).present = false := by
  cases k <;> rfl

/-- R139, R175: a root that passed every test, while nothing flows. -/
theorem Bank.takeRoot (h : Bank s) (hn : s.loader.phase ≠ .ready) (hu : ∀ k, s.loader.job.unadopted k)
    (ha : ∀ t words, s.loader.job ≠ .adopt t words) {f : RootFields} (hf : ∀ k, (f.tubes.get k).present = false) :
    Bank (s.takeRoot f) := by
  obtain ⟨hm, hr, hz, hc, hs, ht, hq⟩ := h.still hn hu
  have hn' : (s.takeRoot f).loader.phase ≠ .ready := by simp [State.takeRoot]
  have hrl : ReactiveLaw (s.takeRoot f) := h.reactive.loadSame hn rfl rfl rfl rfl hn'
  refine ⟨hrl, hrl.trip hn', Ledger.law ?_ h.budget.calm (fun _ k _ => ⟨hr k, hz k⟩) fun t w c => absurd c (ha t w)⟩
  refine Ledger.blank hc hz hs ht (fun k c => ?_) hq h.budget.bindings
  have hp : (s.takeRoot f).present k = false := hf k
  rcases c with c | c
  · rw [hp] at c; cases c
  · have := hm k
    rw [show (s.tube k).mode.working = true from c] at this; cases this

theorem Bank.rootWord (h : Bank s) (w : Word) (hj : s.onRootJob = true) : Bank (s.rootWord w) := by
  have hn : s.loader.phase ≠ .ready := h.reactive.jobs fun c => by simp [State.onRootJob, c] at hj
  unfold State.rootWord
  split
  · next ws e =>
    have hu : ∀ k, s.loader.job.unadopted k := fun k => by rw [e]; trivial
    split
    · exact h.setJob hn _ (fun k _ => hu k) fun t w c => nomatch c
    · unfold State.decideRoot
      simp only
      split
      · exact (h.takeRoot hn hu (fun t w c => by rw [e] at c; cases c) (ofWords_absent _)).nextLoad
          (by simp [State.takeRoot]) hu _
      · have hrl : ∀ r, ReactiveLaw (s.rejectRoot r) := fun r => h.reactive.loadSame hn rfl rfl rfl rfl hn
        exact ⟨hrl _, (hrl _).trip hn, Ledger.law (h.budget.booked.same rfl rfl rfl rfl rfl rfl) h.budget.calm
          (fun _ k c => c.elim) fun t w c => nomatch c⟩
  · exact h

theorem Bank.scanWord (h : Bank s) (w : Word) (hj : s.onScanJob = true) : Bank (s.scanWord w) := by
  have hn : s.loader.phase ≠ .ready := h.reactive.jobs fun c => by simp [State.onScanJob, c] at hj
  unfold State.scanWord
  split
  · next ws e =>
    have hu : ∀ k, s.loader.job.unadopted k := fun k => by rw [e]; trivial
    split
    · exact h.setJob hn _ (fun k _ => hu k) fun t w c => nomatch c
    · unfold State.loadScanList
      simp only
      have hs : ∀ (l : List ScanRecord) (i : Nat) (u : State), Unmoved u (placeScanFaults i l u) := by
        intro l
        induction l with
        | nil => exact fun _ u => .refl u
        | cons a l ih =>
          intro i u
          unfold placeScanFaults
          split
          · exact ih _ _
          · exact (Unmoved.place _ _).trans (ih _ _)
      have g := (Unmoved.modScanner s fun c => { c with list := scanRecords (w :: ws).reverse }).trans
        (hs (scanRecords (w :: ws).reverse) 0 _)
      exact (h.unmoved g).setJob (by rw [g.loader]; exact hn) _ (fun k _ => by rw [g.loader]; exact hu k) fun t w c => nomatch c
  · exact h

/-- R90, R13: the mark a loaded line record holds is its binding's. -/
theorem loadedLine_purge (ds : List DescWords) (l : Line) :
    (loadedLine ds l).purge = ((TubeBinding.ofDescriptors ds).lines.get l).purge := by
  simp only [loadedLine, TubeBinding.ofDescriptors, Eight.get_ofFn]
  split <;> rfl

theorem Bank.acceptTube (h : Bank s) (hn : s.loader.phase ≠ .ready) (hj : ∀ k, s.loader.job.unadopted k)
    (ha : ∀ t words, s.loader.job ≠ .adopt t words) (v : Tube) (ws : List Word)
    (hf : s.loadFault (s.root.tubes.get v).pointer ws = none) : Bank (s.acceptTube v ws) := by
  have hrl := h.reactive.acceptTube hn v ws hf
  obtain ⟨hm, hr, hz, hc, hs, ht, hq⟩ := h.still hn hj
  have hpurge : (loadedLine (tableDescriptors ws) (Header.ofWords ws).purgeLine).purge = true := by
    have : purgeFault ws = none := by
      unfold State.loadFault at hf
      split at hf
      · cases hf
      · split at hf
        · cases hf
        · split at hf
          · cases hf
          · exact hf
    unfold purgeFault at this
    simp only at this
    split at this
    · next g =>
      rw [loadedLine_purge]
      simp only [purgeLineOk, Bool.and_eq_true, Bool.not_eq_true'] at g
      exact g.1.1.1.1.2
    · cases this
  have el : (s.acceptTube v ws).loader = s.loader := rfl
  have flow : ∀ k l, (((s.acceptTube v ws).tube k).gas.lines.get l).flow = 0 := fun k l => by
    rw [acceptTube_tube]
    split
    · simp [loadedLine_flow]
    · exact hz k l
  have mode : ∀ k, ((s.acceptTube v ws).tube k).mode = (s.tube k).mode := fun k => by
    rw [acceptTube_tube]
    split
    · next e => subst e; rfl
    · rfl
  have run : ∀ k, ((s.acceptTube v ws).tube k).gas.run = none := fun k => by
    rw [acceptTube_tube]
    split
    · exact hr v
    · exact hr k
  have slot : ∀ k, ((s.acceptTube v ws).tube k).ramp.slotHeld = false := fun k => by
    rw [acceptTube_tube]
    split
    · exact hs v
    · exact hs k
  refine ⟨hrl, hrl.trip hn, Ledger.law ?_ (fun k => ⟨fun _ => run k, fun _ => slot k⟩) (fun _ k _ => ⟨run k, flow k⟩)
    fun t w c => absurd c (ha t w)⟩
  refine Ledger.blank hc flow slot (fun k => ?_) (fun k c => ?_) (fun k => ?_) fun k l => ?_
  · rw [acceptTube_tube]
    split
    · exact ht v
    · exact ht k
  · unfold TubeState.purgeMarked
    rw [acceptTube_tube]
    split
    · simpa using hpurge
    · next e =>
      rcases c with c | c
      · refine h.budget.marked k (.inl ?_)
        have : (s.acceptTube v ws).root.tubes = s.root.tubes.set v { s.root.tubes.get v with present := true } := rfl
        unfold State.present at c ⊢
        rw [this, Four.get_set, if_neg e] at c
        exact c
      · rw [mode k, hm k] at c; cases c
  · rw [acceptTube_tube]
    split
    · exact hq v
    · exact hq k
  · have e : (s.acceptTube v ws).lineRec k l = ((s.acceptTube v ws).tube k).gas.lines.get l := rfl
    have eb : (s.acceptTube v ws).binding = s.binding.set v (TubeBinding.ofDescriptors (tableDescriptors ws)) := rfl
    rw [e, eb, acceptTube_tube, Four.get_set]
    split
    · simpa using loadedLine_purge _ _
    · exact h.budget.bindings k l

theorem Bank.tubeWord (h : Bank s) (w : Word) {o : Option Tube} (hj : State.onTubeJob o s = true) :
    Bank (s.tubeWord w) := by
  have hn : s.loader.phase ≠ .ready := h.reactive.jobs fun c => by simp [State.onTubeJob, c] at hj
  unfold State.tubeWord
  split
  · next v ws e =>
    have hu : ∀ k, s.loader.job.unadopted k := fun k => by rw [e]; trivial
    split
    · exact h.setJob hn _ (fun k _ => hu k) fun t w c => nomatch c
    · have key : Bank (s.decideTube v (w :: ws).reverse) ∧ (s.decideTube v (w :: ws).reverse).loader = s.loader := by
        unfold State.decideTube
        split
        · exact ⟨h.unmoved { Unmoved.refl s with port := .inr ⟨rfl, rfl⟩ }, rfl⟩
        · next hf => exact ⟨h.acceptTube hn hu (fun t w c => by rw [e] at c; cases c) v _ hf, rfl⟩
      exact key.1.nextLoad (by rw [key.2]; exact hn) (fun k => by rw [key.2]; exact hu k) _
  · exact h

/-! ## Adoption -/

/-- R181: READY, or the next present tube. -/
theorem Bank.nextAdopt (hr : ReactiveLaw s) (hn : s.loader.phase ≠ .ready) (hb : s.Booked) (hc : ∀ k, Calm (s.tube k))
    (l : List Tube) (hu : ∀ t ∈ l, s.present t = true → ∀ k, t.toNat ≤ k.toNat →
      (s.tube k).gas.run = none ∧ ∀ l, ((s.tube k).gas.lines.get l).flow = 0) : Bank (s.nextAdopt l) := by
  have hrl := hr.nextAdopt hn l
  unfold State.nextAdopt at hrl ⊢
  split
  · next t e =>
    rw [e] at hrl
    have hp : s.present t = true := List.find?_some e
    exact ⟨hrl, hrl.trip hn, Ledger.law (hb.same rfl rfl rfl rfl rfl rfl) hc
      (fun _ k c => hu t (List.mem_of_find?_eq_some e) hp k c) fun v w c => by cases c; exact hp⟩
  · next e =>
    rw [e] at hrl
    have ht := hr.trip hn
    refine ⟨hrl, ⟨ht.absent, ht.latched, fun acc c => ?_⟩, Ledger.law (hb.same rfl rfl rfl rfl rfl rfl) hc
      (fun n => absurd rfl n) fun t w c => nomatch c⟩
    have := Bank.walking_none hr hn
    rw [show s.port.phase.walking = some acc from c] at this; cases this

theorem Bank.adoptionStart (h : Bank s) (hj : s.loader.job = .adoptWait) :
    Bank ({ s with loader := { s.loader with closing := false } }.nextAdopt Ix4.all) := by
  have hn : s.loader.phase ≠ .ready := h.reactive.jobs (by rw [hj]; exact fun c => nomatch c)
  have hrl : ReactiveLaw { s with loader := { s.loader with closing := false } } := h.reactive.loadSame hn rfl rfl rfl rfl hn
  exact Bank.nextAdopt (s := { s with loader := { s.loader with closing := false } }) hrl hn
    (h.budget.booked.same rfl rfl rfl rfl rfl rfl) h.budget.calm _ fun _ _ _ k _ =>
      h.budget.loading hn k (by rw [hj]; trivial)

theorem drawOf_zero (w : Nat) : drawOf 0 w = 0 := by simp [drawOf, hundreds]

theorem Ledger.close (h : Ledger nr nh s) {l : Line} (b : Bool) (hn : s.NoRunClaim k) : Ledger nr nh (s.setFlow k l 0 b) :=
  h.setFlow b (by rw [show (0 : Word).toNat = 0 from rfl, drawOf_zero]; exact Nat.zero_le _) (.inr hn)

theorem Ledger.adoptReactive (value : Addr → Word) : ∀ (ls : List Line) {s : State}, Ledger nr nh s → s.NoRunClaim k →
    Ledger nr nh (s.adoptReactive k value ls).1 ∧ (s.adoptReactive k value ls).1.NoRunClaim k
  | [], _, h, n => ⟨h, n⟩
  | l :: ls, s, h, n => by
    unfold State.adoptReactive
    simp only
    split
    · exact Ledger.adoptReactive value ls (h.close true n) n
    · exact Ledger.adoptReactive value ls h n

theorem Ledger.adoptInert (value : Addr → Word) : ∀ (ls : List Line) {s : State}, Ledger nr nh s → s.NoRunClaim k →
    Ledger nr nh (s.adoptInert k value ls).1 ∧ (s.adoptInert k value ls).1.NoRunClaim k
  | [], _, h, n => ⟨h, n⟩
  | l :: ls, s, h, n => by
    unfold State.adoptInert
    simp only
    split
    · unfold State.adoptInertLine
      split
      · next c =>
        simp only [Bool.and_eq_true, decide_eq_true_eq] at c
        refine Ledger.adoptInert value ls ?_ n
        exact (h.setFlow (v := value ((s.binding.get k).lines.get l).addr) false
          (Nat.le_trans c.2 (Nat.le_add_left _ _)) (.inr n)).same rfl rfl rfl rfl rfl rfl
      · exact Ledger.adoptInert value ls ((h.close true n).same rfl rfl rfl rfl rfl rfl) n
    · exact Ledger.adoptInert value ls h n

theorem Ledger.adoptAborted (h : s.Booked) (hn : s.NoRunClaim k) : (s.adoptAborted k).Booked :=
  h.setTube (x := { s.tube k with
      mode := .aborted, abortCause := .none, gas := { (s.tube k).gas with atmosphere := .air } })
    ⟨fun c => absurd c (by simp [Mode.working]), rfl, fun _ => rfl, fun e he => .inl ⟨e, he, rfl⟩⟩ (.inr id) (.inl hn)
    (h.sampling k) (Nat.le_add_right _ _) .inl fun c => c.elim

theorem Ledger.adoptAborting (h : s.Booked) (hn : s.NoRunClaim k) (hm : (s.tube k).purgeMarked) (n : Nat) :
    (s.adoptAborting k n).Booked := by
  unfold State.adoptAborting
  simp only
  have h1 : (s.startRun State.rescan k (abortClearing (s.tube k).header)).Booked := h.startRun .rescanned rfl hn id hm
  have h2 := Ledger.modTube (t := k) h1
    (fun x => { x with mode := .aborting, abortCause := .startup,
                       abortBegin := (s.startRun State.rescan k (abortClearing (s.tube k).header)).clock })
    ⟨(fun c => absurd c (by simp [Mode.working])), rfl, rfl, rfl, rfl, id, rfl, id⟩
  split
  · exact Ledger.modTube (h2.place _) _ ⟨.inl, rfl, rfl, rfl, rfl, id, rfl, id⟩
  · exact h2.place _

theorem adoptAborting_calm {u : State} (n : Nat) (hm : (u.tube k).mode.working = false)
    (hs : (u.tube k).ramp.slotHeld = false) : Calm ((u.adoptAborting k n).tube k) := by
  have m := Mild.startRun (k := k) u (abortClearing (u.tube k).header)
  unfold State.adoptAborting
  simp only
  generalize u.startRun State.rescan k (abortClearing (u.tube k).header) = s1 at m
  have key : ∀ w : State, w.tube k = { s1.tube k with mode := .aborting, abortCause := .startup, abortBegin := s1.clock } →
      Calm (w.tube k) ∧ ∀ o, Calm ({ w.tube k with abortTimer := o }) := fun w e => by
    have sl : (s1.tube k).ramp.slotHeld = false := by
      cases c : (s1.tube k).ramp.slotHeld with
      | false => rfl
      | true => rw [← hs]; exact (m.slot hm c).symm
    rw [e]
    exact ⟨⟨(fun c => nomatch c), fun _ => sl⟩, fun _ => ⟨(fun c => nomatch c), fun _ => sl⟩⟩
  split
  · have e : ∀ w : State, (w.startClaimTimer k).tube k
        = { w.tube k with abortTimer := startUnlessZero (w.abort.claimLimit * 100) } := fun w => tube_modTube_eq _ _ _
    rw [e]
    exact (key (State.place _ _) (by simp)).2 _
  · exact (key (State.place _ _) (by simp)).1

theorem Bank.adoptTube (h : Bank s) {ws0 : List Word} (hj : s.loader.job = .adopt k ws0) (ws : List Word) :
    Bank (s.adoptTube k ws) := by
  have hn : s.loader.phase ≠ .ready := h.reactive.jobs (by rw [hj]; exact fun c => nomatch c)
  obtain ⟨hrl, hn'⟩ := h.reactive.adoptedTube hn k ws
  have hp : s.present k = true := h.budget.adopting k ws0 hj
  have hm := (h.reactive.loading hn).1
  have free : ∀ j : Tube, k.toNat ≤ j.toNat → (s.tube j).gas.run = none ∧ ∀ l, ((s.tube j).gas.lines.get l).flow = 0 :=
    fun j c => h.budget.loading hn j (by rw [hj]; exact c)
  have hq : (s.tube k).queue = [] := (h.reactive.tubes k).idle (hm k)
  have hk := h.reactive.tubes k
  rw [adoptTube_eq]
  unfold State.adoptedTube at hrl hn' ⊢
  simp only at hrl hn' ⊢
  generalize adopted (s.binding.get k).plan ws = value at hrl hn' ⊢
  generalize hs1 : (s.modTube k fun x => { x with
    ramp := x.ramp.adopt (s.binding.get k) value x.header.settlePeriod
    boat := x.boat.adopt (s.binding.get k).boat value x.header.inThreshold
    gas := x.gas.zeroed }) = s1 at hrl hn' ⊢
  have e1 : s1.tube k = { s.tube k with
      ramp := (s.tube k).ramp.adopt (s.binding.get k) value (s.tube k).header.settlePeriod
      boat := (s.tube k).boat.adopt (s.binding.get k).boat value (s.tube k).header.inThreshold
      gas := (s.tube k).gas.zeroed } := by rw [← hs1]; simp
  have l1 : Local k s s1 := by rw [← hs1]; exact .modTube k s _
  have pl1 : ∀ l, ((s1.tube k).gas.lines.get l).plate = ((s.tube k).gas.lines.get l).plate := fun l => by
    rw [e1]; simp [Gas.zeroed, LineRec.plate]
  have n0 : s.NoRunClaim k := h.budget.booked.noRunClaim_of_none (free k (Nat.le_refl _)).1
  have b1 : s1.Booked := by
    rw [← hs1]
    refine h.budget.booked.setTube (x := { s.tube k with
        ramp := (s.tube k).ramp.adopt (s.binding.get k) value (s.tube k).header.settlePeriod
        boat := (s.tube k).boat.adopt (s.binding.get k).boat value (s.tube k).header.inThreshold
        gas := (s.tube k).gas.zeroed }) ⟨.inl, rfl, fun l => ?_, fun e he => .inl ⟨e, he, rfl⟩⟩
      (.inl (h.budget.booked.noHeadClaim fun ⟨d, r, c, _⟩ => by rw [hq] at c; cases c)) (.inl n0) (fun c => absurd rfl c)
      ?_ (fun c => nomatch c) fun c => c.elim
    · simp [Gas.zeroed, LineRec.plate]
    · rw [show Gas.draw (Gas.zeroed (s.tube k).gas) = 0 from draw_zero fun l => by simp [Gas.zeroed]]
      exact Nat.zero_le _
  have n1 : s1.NoRunClaim k := by rw [← hs1]; exact n0
  have hb1 := boat_adopt_rest (s.tube k).boat (s.binding.get k).boat value (s.tube k).header.inThreshold hk.boatOut
    hk.boatTimer
  have h1 : Halted (s1.tube k) := by
    rw [e1]
    refine ⟨hm k, ?_, fun l _ hz => ?_, fun c => absurd rfl c, hb1.1, hb1.2⟩
    · simpa [Gas.zeroed, LineRec.reactive] using hk.purgeInert
    · simp [Gas.zeroed] at hz
  have c1 : ClassesAgree s1 k := fun l => by
    rw [l1.binding, ← h.reactive.classes k l]
    exact reactive_of_plate (pl1 l)
  have ar := Adopting.reactive (k := k) value Ix8.all s1
  have ai := Adopting.inert value Ix8.all _ (ar.classes c1)
  have aa := ar.trans ai
  obtain ⟨b2, n2⟩ := b1.adoptReactive value Ix8.all n1
  obtain ⟨b3, n3⟩ := b2.adoptInert value Ix8.all n2
  generalize (s1.adoptReactive k value Ix8.all).2 = n at hrl hn' ⊢
  generalize ((s1.adoptReactive k value Ix8.all).1.adoptInert k value Ix8.all).2 = m at hrl hn' ⊢
  generalize ((s1.adoptReactive k value Ix8.all).1.adoptInert k value Ix8.all).1 = u at hrl hn' aa b3 n3 ⊢
  have um : (u.tube k).purgeMarked := by
    have := h.budget.marked k (.inl hp)
    unfold TubeState.purgeMarked
    rw [aa.header, purge_of_plate (aa.halt.plates _), purge_of_plate (pl1 _), e1]
    exact this
  have us : (u.tube k).ramp.slotHeld = false := by rw [aa.ramp, e1]; rfl
  have uw : (u.tube k).mode.working = false := (aa.halt.halted h1).mode
  have ur : (u.tube k).gas.run = none := aa.halt.noRun h1 (by rw [e1]; rfl)
  have le := adoptEnd_local (k := k) u n
  have bv : State.Booked (if n = 0 then u.adoptAborted k else u.adoptAborting k n) := by
    split
    · exact b3.adoptAborted n3
    · exact b3.adoptAborting n3 um n
  have cv : Calm ((if n = 0 then u.adoptAborted k else u.adoptAborting k n).tube k) := by
    split
    · have e : (u.adoptAborted k).tube k = { u.tube k with
          mode := .aborted, abortCause := .none, gas := { (u.tube k).gas with atmosphere := .air } } := tube_modTube_eq _ _ _
      rw [e]
      exact ⟨fun _ => ur, fun _ => us⟩
    · exact adoptAborting_calm n uw us
  generalize (if n = 0 then u.adoptAborted k else u.adoptAborting k n) = v at le bv cv hrl hn' ⊢
  have others : ∀ j, j ≠ k → Tame True (s.tube j) (v.tube j) := fun j e => by
    have a := (l1.others j e).tame (f := True)
    rw [← aa.others j e] at a
    exact a.trans (le.others j e).tame
  refine Bank.nextAdopt hrl hn' (bv.place _) (fun j => ?_) _ fun t ht _ j hj => ?_
  · by_cases e : j = k
    · subst e; exact cv
    · exact ((others j e).kept (g := False)).calm (h.budget.calm j)
  · have lt : k.toNat < t.toNat := by
      revert ht; cases k <;> cases t <;> simp [Ix4.later, Ix4.toNat]
    have hne : j ≠ k := fun e => by subst e; omega
    obtain ⟨a, b⟩ := free j (by omega)
    exact ⟨(others j hne).run (hm j) a, fun l => ((others j hne).flows trivial (hm j) a l).trans (b l)⟩

theorem forwardWord_job (s : State) : s.forwardWord = s
    ∨ ∃ t ws v, s.loader.job = .adopt t ws ∧ s.forwardWord = s.setJob (.adopt t (v :: ws)) := by
  unfold State.forwardWord
  split
  · next t ws hj _ =>
    split
    · exact .inl rfl
    · split
      · exact .inr ⟨t, ws, _, hj, rfl⟩
      · exact .inl rfl
  · exact .inl rfl

/-- Another word of the tube being adopted. -/
theorem Bank.adoptJob (h : Bank s) {t : Tube} {ws vs : List Word} (hj : s.loader.job = .adopt t ws) :
    Bank (s.setJob (.adopt t vs)) :=
  h.setJob (h.reactive.jobs (by rw [hj]; exact fun c => nomatch c)) _ (fun k c => by rw [hj]; exact c) fun v w c => by
    cases c; exact h.budget.adopting t ws hj

theorem Bank.forwardWords : ∀ (n : Nat) {s : State}, Bank s → Bank (State.forwardWords n s)
  | 0, _, h => h
  | n + 1, s, h => by
    unfold State.forwardWords
    refine Bank.forwardWords n ?_
    rcases forwardWord_job s with e | ⟨t, ws, v, hj, e⟩
    · rw [e]; exact h
    · rw [e]; exact h.adoptJob hj

theorem Bank.adoptAdvance (h : Bank s) : Bank s.adoptAdvance := by
  unfold State.adoptAdvance
  simp only
  have h1 := h.forwardWords 14
  split
  · next hj =>
    split
    · exact h1.adoptTube hj _
    · exact h1
  · exact h1

theorem Bank.adoptWord (h : Bank s) (w : Word) : Bank (s.adoptWord w) := by
  unfold State.adoptWord
  split
  · next hj => exact (h.adoptJob hj).adoptAdvance
  · exact h

end Sys2Proof.Machine
end

