-- ==== Sys2Proof/Laws/BankEvents.lean ====
section
/-! SUPPORT. `Bank` after RESET and through every event, and so, by `step_events`, along every step. -/

namespace Sys2Proof.Machine

variable {s t : State} {k : Tube}

theorem afterReset_tube (straps : BitVec 4) (m : Memory) (p : List Instr) (n : Nat) (k : Tube) :
    State.tube { State.afterReset straps m p with freeCount := n } k = TubeState.reset := by cases k <;> rfl

/-- R178, R186: the part after RESET. -/
theorem Bank.afterReset (straps : BitVec 4) (m : Memory) (p : List Instr) (n : Nat) :
    Bank { State.afterReset straps m p with freeCount := n } := by
  have tube := afterReset_tube straps m p n
  have hr : ReactiveLaw { State.afterReset straps m p with freeCount := n } := by
    refine ⟨fun k => ?_, fun k l => ?_, fun pl way g => ?_, fun _ => ⟨fun k => ?_, fun i w => ?_⟩, fun _ c => (nomatch c),
      fun c => (nomatch c), fun acc way g => ?_⟩
    · rw [tube]
      refine ⟨?_, ?_, ?_, ?_, ?_, ?_, ?_, ?_⟩ <;> simp [TubeState.reset, Gas.reset, LineRec.reset, Boat.reset]
    · cases k <;> cases l <;> rfl
    · have e : State.cacheEntry { State.afterReset straps m p with freeCount := n } pl way = CacheEntry.empty := by
        simp [State.cacheEntry, State.afterReset]
      rw [e] at g
      simp [CacheEntry.holds, CacheEntry.empty] at g
    · cases k <;> rfl
    · cases i <;> cases w <;> rfl
    · rcases g with ⟨w, g⟩ | g <;> cases g
  have hz : ∀ k l, ((State.tube { State.afterReset straps m p with freeCount := n } k).gas.lines.get l).flow = 0 :=
    fun k l => by rw [tube]; cases l <;> rfl
  refine ⟨hr, ⟨(fun k _ => by rw [tube]; rfl), (fun c => nomatch c), fun _ c => nomatch c⟩,
    Ledger.law (.blank rfl hz (fun k => by rw [tube]; rfl) (fun k => by rw [tube]; rfl) (fun k c => ?_)
      (fun k => by rw [tube]; rfl) fun k l => ?_)
      (fun k => by rw [tube]; exact ⟨fun _ => rfl, fun _ => rfl⟩) (fun _ k _ => ⟨by rw [tube]; rfl, hz k⟩) fun t w c => nomatch c⟩
  · rcases c with c | c
    · cases k <;> cases c
    · rw [tube] at c; cases c
  · cases k <;> cases l <;> rfl

theorem Bank.event (h : Bank s) (e : Event s t) : Bank t := by
  have hb := h.budget.booked
  cases e
  case unmoved g => exact h.unmoved g
  case elapse => exact h.elapse _
  case finish => exact h.finish _
  case reset => exact .afterReset _ _ _ _
  case rootWord g => exact h.rootWord _ g
  case tubeWord g => exact h.tubeWord _ g
  case scanWord g => exact h.scanWord _ g
  case adoptionStart g => exact h.adoptionStart g
  case adoptAdvance => exact h.adoptAdvance
  case adoptWord => exact h.adoptWord _
  case walkWord => exact h.walkWord _
  case fillDone g => exact h.fillDone g
  case useDone g => exact h.useDone g
  case classify g => exact h.classify g _ _
  case entryExpired =>
    exact h.local (.entryExpired _ _) (.entryExpired _ _) (hb.entryExpired ‹_› ‹_›) (Tame.kept (Tames.entryExpired _ _))
  case gapExpired => exact h.local (.gapExpired _) (.gapExpired _) hb.gapExpired (Tame.kept (Tames.gapExpired _))
  case stepExpired => exact h.local (.stepExpired _) (.stepExpired _) hb.stepExpired (Tame.kept (Tames.stepExpired _))
  case settleExpired =>
    exact h.local (.settleExpired _) (.settleExpired _) hb.settleExpired (Tame.kept (Tames.settleExpired _))
  case motionExpired g =>
    exact h.local (.motionExpired _) (.motionExpired _ g) hb.motionExpired (Tame.kept (Tames.motionExpired _))
  case sampleExpired g =>
    obtain ⟨r, hr, _⟩ := hb.sampling _ g
    exact h.local (.sampleExpired _) (.sampleExpired _) (hb.sampleExpired g) (.sampleExpired _ hr)
  case purgeLimitExpired =>
    exact h.local (.purgeLimitExpired _) (.purgeLimitExpired _) hb.purgeLimitExpired (Tame.kept (Tames.purgeLimitExpired _))
  case lineArrives k l v =>
    exact h.local (Local.lineArrives s ⟨k, l, v⟩) (.lineArrives _ _ _) (hb.lineArrives l v) (Tame.kept (Tames.lineArrives _ _ _))
  case abortClaimExpired =>
    exact h.local (.abortClaimExpired _) (.abortClaimExpired _) hb.abortClaimExpired (Tame.kept (Tames.abortClaimExpired _))
  case takeAbort r =>
    exact h.local (Local.takeAbort s r) (Step.takeAbort s r rfl) (hb.takeAbort r (h.reactive.tubes _)) (.takeAbort _ _)
  case takeTrip r => exact h.takeTrip r

end Sys2Proof.Machine
end

