-- ==== Sys2Proof/Laws/Due.lean ====
section
/-! SUPPORT. A root word of the part that is due stays due, or the Notice Writer has turned to it, through everything that
follows an event, and an event that changes the status word makes it due (R176). -/

namespace Sys2Proof.Machine

theorem RootWordDue.takeDue {s : State} {i : RootItem} (h : RootWordDue s.notices i) : RootWordDue s.takeDue.notices i := by
  unfold State.takeDue
  split
  · next hp _ =>
    rcases h with h | h
    · simp [hp] at h
    · exact .inr h
  · exact h

theorem RootWordDue.onGrant {s : State} {i : RootItem} (r : Requester) (h : RootWordDue s.notices i) :
    RootWordDue (s.onGrant r).notices i := by
  unfold State.onGrant
  split
  · exact h
  · split
    all_goals
      first
      | exact h
      | next hp =>
        rcases h with h | h
        · exact .inl h
        · cases i <;> first | exact .inl hp | exact .inr h
  · exact h

theorem RootWordDue.arbitrate {s : State} {i : RootItem} (h : RootWordDue s.notices i) : RootWordDue s.arbitrate.notices i := by
  unfold State.arbitrate
  split
  · exact h
  · split
    · exact h
    · split
      · exact h
      · exact RootWordDue.onGrant _ h

theorem RootWordDue.advance {s : State} {i : RootItem} (h : RootWordDue s.notices i) : RootWordDue s.advance.notices i :=
  h.takeDue.arbitrate

theorem RootWordDue.markStatus {s u : State} {i : RootItem} (h : RootWordDue s.notices i) :
    RootWordDue (u.markStatus s).notices i := by
  unfold State.markStatus
  split
  · exact h
  · rcases h with h | h
    · exact .inl h
    · cases i <;> first | exact .inr rfl | exact .inr h

theorem NoticeShift.rootWordDue {n m : NoticeWriter} {i : RootItem} (h : NoticeShift n m) (d : RootWordDue n i) : RootWordDue m i := by
  have e := h.same
  rcases d with d | d
  · exact .inl (by rw [h.phase_eq]; exact d)
  · right
    cases i
    · exact (congrArg NoticeWriter.dueStatus e).trans d
    · exact h.due d
    · exact (congrArg NoticeWriter.dueConsumer e).trans d
    · exact (congrArg NoticeWriter.dueProducer e).trans d

/-- R176: what follows an event drops no due root word. -/
theorem RootWordDue.finish {s u : State} {i : RootItem} (h : RootWordDue s.notices i) : RootWordDue (u.finish s).notices i := by
  unfold State.finish
  refine RootWordDue.advance (RootWordDue.markStatus ?_)
  exact (Shift.examineChanged 4 u s).notices.rootWordDue h

/-- R176: an event that changes the status word makes it due. -/
theorem RootWordDue.of_statusWord {u w : State} (h : u.statusWord ≠ w.statusWord) :
    RootWordDue (u.finish w).notices .status := by
  have e := Shift.examineChanged 4 u w
  have same : (State.examineChanged 4 u w).statusWord = w.statusWord := by
    simp only [State.statusWord, e.loader, e.abort]
  unfold State.finish State.markStatus
  rw [same, if_neg h]
  exact RootWordDue.advance (.inr rfl)

/-- R188: the status word tells whether the trip latch is set. -/
theorem statusWord_latch (p : LoadPhase) (r : NotReadyReason) (c d : TripCause) :
    Machine.statusWord p r false c ≠ Machine.statusWord p r true d := by
  cases p <;> cases r <;> cases c <;> cases d <;> decide

/-- R150, R176: an event that sets or clears the trip latch makes the status word due. -/
theorem RootWordDue.of_latch {u w : State} (hl : w.loader = u.loader) (h : u.abort.latch ≠ w.abort.latch) :
    RootWordDue (u.finish w).notices .status := by
  apply RootWordDue.of_statusWord
  unfold State.statusWord
  rw [hl]
  cases h1 : u.abort.latch <;> cases h2 : w.abort.latch
  · simp [h1, h2] at h
  · exact statusWord_latch _ _ _ _
  · exact (statusWord_latch _ _ _ _).symm
  · simp [h1, h2] at h

end Sys2Proof.Machine
end

