-- ==== Sys2Proof/Laws/Held.lean ====
section
/-! SUPPORT. Heads that an examination leaves in the queue (R38, R39): one that fails a release test, and a CLAIMING one
whose claim still suits it. What follows an event that leaves such heads changes no tube, claim or notice (`Still`). -/

namespace Sys2Proof.Machine

/-- An examination leaves the head of tube `k` as it is. -/
def HeadStays (s : State) (k : Tube) : Prop :=
  ∀ e rest, (s.tube k).queue = e :: rest →
    (∃ r, s.firstFailure k e = some r) ∨ (e.state = .claiming ∧ neededClaim (s.tube k) e = e.claim)

theorem HeadStays.of_empty {s : State} {k : Tube} (h : (s.tube k).queue = []) : HeadStays s k := by
  intro e rest hq; rw [h] at hq; cases hq

theorem HeadStays.of_failure {s : State} {k : Tube} {e : HeldEntry} {rest : List HeldEntry} {r : HoldReason}
    (hq : (s.tube k).queue = e :: rest) (h : s.firstFailure k e = some r) : HeadStays s k := by
  intro f l hf; rw [hq] at hf; cases hf; exact .inl ⟨r, h⟩

theorem HeadStays.of_claiming {s : State} {k : Tube} {e : HeldEntry} {rest : List HeldEntry}
    (hq : (s.tube k).queue = e :: rest) (hs : e.state = .claiming) (h : neededClaim (s.tube k) e = e.claim) :
    HeadStays s k := by
  intro f l hf; rw [hq] at hf; cases hf; exact .inr ⟨hs, h⟩

/-- R38, R39: such a head is examined without effect, in a scan or outside one. -/
theorem HeadStays.examineWith {s : State} {k : Tube} (h : HeadStays s k) (f : State → State) : s.examineWith f k = s := by
  have loop : ∀ n, State.examineLoop f k n s = s := by
    intro n
    cases n with
    | zero => rfl
    | succ n =>
      unfold State.examineLoop
      split
      · rfl
      · next e rest hq =>
        rcases h e rest hq with ⟨r, hr⟩ | ⟨hs, hn⟩
        · simp only [hr]
        · cases hf : s.firstFailure k e with
          | some r => rfl
          | none => simp only [hs, hn, if_true]
  exact loop _

theorem HeadStays.examine {s : State} {k : Tube} (h : HeadStays s k) : s.examine k = s := h.examineWith _

theorem HeadStays.freeCount {s : State} {k : Tube} (h : HeadStays s k) (n : Nat) :
    HeadStays { s with freeCount := n } k := h

/-- Every head that the event which left `after` made due is left in the queue by its examination. -/
def NoneMoves (before after : State) : Prop := ∀ k, HeadStays after k ∨ before.headView k = after.headView k

theorem NoneMoves.examineChanged {before after : State} (h : NoneMoves before after) :
    ∀ n, ∃ m, State.examineChanged n before after = { after with freeCount := m }
  | 0 => ⟨_, rfl⟩
  | n + 1 => by
    unfold State.examineChanged
    split
    · exact ⟨_, rfl⟩
    · obtain ⟨⟨m, hm⟩, ho⟩ := examineOrder_shape after (dueHeads before after)
      have hx : ∀ (l : List Tube), (∀ k ∈ l, k ∈ dueHeads before after) →
          l.foldl State.examine { after with freeCount := m } = { after with freeCount := m } := by
        intro l
        induction l with
        | nil => intro _; rfl
        | cons k l ih =>
          intro hl
          have hk := (mem_dueHeads (hl k (by simp))).2
          rw [List.foldl_cons, (((h k).resolve_right hk).freeCount m).examine]
          exact ih fun j hj => hl j (by simp [hj])
      simp only []
      rw [hm, hx _ ho]
      have hd : dueHeads after { after with freeCount := m } = [] := by
        have hv : ∀ k, State.headView { after with freeCount := m } k = after.headView k := fun _ => rfl
        simp [dueHeads, hv]
      cases n with
      | zero => exact ⟨_, rfl⟩
      | succ n => exact ⟨m, by simp only [State.examineChanged, hd]⟩

/-- What follows an event whose due heads all stay. -/
theorem Still.finish_of_stays {before after : State} (h : NoneMoves before after) : Still after (before.finish after) := by
  obtain ⟨m, hm⟩ := h.examineChanged 4
  unfold State.finish
  rw [hm]
  exact ((Still.freeCount after m).trans (.markStatus before _)).trans (.advance _)

/-- An event of tube `k` that leaves the other tubes as they were and a head that stays. -/
theorem Local.noneMoves {k : Tube} {s t : State} (h : Local k s t) (ho : ∀ j, j ≠ k → t.tube j = s.tube j)
    (hk : HeadStays t k) : NoneMoves s t := fun j => by
  by_cases e : j = k
  · subst e; exact .inl hk
  · exact .inr (headView_congr h.acts (by rw [ho j e]; exact .refl _))

theorem SameActs.trans {s t u : State} (h : SameActs s t) (g : SameActs t u) : SameActs s u :=
  ⟨g.1.trans h.1, g.2.trans h.2, g.3.trans h.3, g.4.trans h.4⟩

/-- A failing test of an entry does not read the queue, the tickets or the last released ticket. -/
theorem firstFailure_tube {s t : State} {k : Tube} (e : HeldEntry) (ha : SameActs s t)
    (h : ∃ q n i l g, t.tube k = { s.tube k with queue := q, nextTicket := n, lastIssued := i, lastReleased := l, summary := g }) :
    t.firstFailure k e = s.firstFailure k e := by
  obtain ⟨q, n, i, l, g, h⟩ := h
  exact firstFailure_congr (by rw [h]) (by rw [h]) (by rw [h]; rfl) (by rw [h]; rfl) ha.ring ha.stale ha.scrubber ha.lapsed

end Sys2Proof.Machine
end

