-- ==== Sys2Proof/Laws/PerInstr.lean ====
section
/-! SUPPORT. Per command: a row's read of the furnace window carries no value. -/

namespace Sys2Proof.Laws.ReadCarriesNoValue

open Sys2Proof Sys2Proof.Machine

/-- The read a command makes of a furnace-window place carries the value 0. -/
def Statement (i : Instr) : Prop :=
  ∀ c p v, channelCommand i = some (c, Direction.read, p, v) → v = 0

/-- The value an access carries is 0 unless it writes. -/
theorem of_valueOf {d : Direction} {v : Word} (h : d = .read) : valueOf d v = 0 := by subst h; rfl

theorem reset : ∀ a, Statement (.reset a) := fun _ => nofun
theorem rootRead : ∀ a, Statement (.rootRead a) := fun _ => nofun
theorem tubeLoad : ∀ a, Statement (.tubeLoad a) := fun _ => nofun
theorem scanListLoad : ∀ a, Statement (.scanListLoad a) := fun _ => nofun
theorem adoptionStart : Statement .adoptionStart := nofun
theorem tubeAdopt : ∀ a, Statement (.tubeAdopt a) := fun _ => nofun
theorem flushDesc : ∀ a, Statement (.flushDesc a) := fun _ => nofun
theorem reload : ∀ a b, Statement (.reload a b) := fun _ _ => nofun
theorem tripClear : ∀ a, Statement (.tripClear a) := fun _ => nofun
theorem rootCommandUnknown : ∀ a b, Statement (.rootCommandUnknown a b) := fun _ _ => nofun
theorem argumentWordWrite : ∀ a b, Statement (.argumentWordWrite a b) := fun _ _ => nofun
theorem consumerIndexWrite : ∀ a b, Statement (.consumerIndexWrite a b) := fun _ _ => nofun
theorem consumerAdvance : Statement .consumerAdvance := nofun
theorem rootWrite : ∀ a b d, Statement (.rootWrite a b d) := fun _ _ _ => nofun
theorem openPassRead : ∀ a b, Statement (.openPassRead a b) := fun _ _ => nofun
theorem openPassWrite : ∀ a b d, Statement (.openPassWrite a b d) := fun _ _ _ => nofun
theorem guardedPassRead : ∀ a b, Statement (.guardedPassRead a b) := fun _ _ => nofun
theorem guardedPassWrite : ∀ a b d, Statement (.guardedPassWrite a b d) := fun _ _ _ => nofun
theorem passWriteDeferred : Statement .passWriteDeferred := nofun
theorem passAccessComplete : Statement .passAccessComplete := nofun
theorem descWalk : ∀ a, Statement (.descWalk a) := fun _ => nofun
theorem statusWriteBack : Statement .statusWriteBack := nofun
theorem plainRead : ∀ a b, Statement (.plainRead a b) := fun _ _ => fun _ _ _ h => (by injection h with h; injection h with _ h; injection h with _ h; injection h with _ h; exact h.symm)
theorem plainWrite : ∀ a b d, Statement (.plainWrite a b d) := fun _ _ _ => nofun
theorem channelRead : ∀ a b, Statement (.channelRead a b) := fun _ _ => fun _ _ _ h => (by injection h with h; injection h with _ h; injection h with _ h; injection h with _ h; exact h.symm)
theorem shapedWrite : ∀ a b d, Statement (.shapedWrite a b d) := fun _ _ _ => nofun
theorem manualWrite : ∀ a b d, Statement (.manualWrite a b d) := fun _ _ _ => nofun
theorem tubePurge : ∀ a b d, Statement (.tubePurge a b d) := fun _ _ _ => nofun
theorem tubeHold : ∀ a b d, Statement (.tubeHold a b d) := fun _ _ _ => nofun
theorem tubeResume : ∀ a b d, Statement (.tubeResume a b d) := fun _ _ _ => nofun
theorem tubeAbort : ∀ a b d, Statement (.tubeAbort a b d) := fun _ _ _ => nofun
theorem tubeVent : ∀ a b d, Statement (.tubeVent a b d) := fun _ _ _ => nofun
theorem tubeFlush : ∀ a b d, Statement (.tubeFlush a b d) := fun _ _ _ => nofun
theorem tubeCommandUnknown : ∀ a b d e, Statement (.tubeCommandUnknown a b d e) := fun _ _ _ _ => nofun
theorem summaryRead : ∀ a b d, Statement (.summaryRead a b d) := fun _ _ _ => fun _ _ _ h => (by injection h with h; injection h with _ h; injection h with _ h; injection h with _ h; exact h.symm)
theorem purgeLatchLowRead : ∀ a b d, Statement (.purgeLatchLowRead a b d) := fun _ _ _ => fun _ _ _ h => (by injection h with h; injection h with _ h; injection h with _ h; injection h with _ h; exact h.symm)
theorem purgeLatchHighRead : ∀ a b d, Statement (.purgeLatchHighRead a b d) := fun _ _ _ => fun _ _ _ h => (by injection h with h; injection h with _ h; injection h with _ h; injection h with _ h; exact h.symm)
theorem entryExpiry : ∀ a b, Statement (.entryExpiry a b) := fun _ _ => nofun
theorem releaseGapExpiry : ∀ a, Statement (.releaseGapExpiry a) := fun _ => nofun
theorem stepExpiry : ∀ a, Statement (.stepExpiry a) := fun _ => nofun
theorem settleExpiry : ∀ a, Statement (.settleExpiry a) := fun _ => nofun
theorem motionExpiry : ∀ a, Statement (.motionExpiry a) := fun _ => nofun
theorem sampleExpiry : ∀ a, Statement (.sampleExpiry a) := fun _ => nofun
theorem purgeLimitExpiry : ∀ a, Statement (.purgeLimitExpiry a) := fun _ => nofun
theorem lineSampleArrival : Statement .lineSampleArrival := nofun
theorem scrubberExpiry : Statement .scrubberExpiry := nofun
theorem abortRequest : Statement .abortRequest := nofun
theorem abortClaimExpiry : ∀ a, Statement (.abortClaimExpiry a) := fun _ => nofun
theorem bankTrip : Statement .bankTrip := nofun
theorem scanExpiry : Statement .scanExpiry := nofun
theorem scanArrival : ∀ a, Statement (.scanArrival a) := fun _ => nofun
theorem staleExpiry : Statement .staleExpiry := nofun
theorem serviceExpiry : Statement .serviceExpiry := nofun
theorem deliverWriteComplete : Statement .deliverWriteComplete := nofun
theorem noticeRecordTake : ∀ a, Statement (.noticeRecordTake a) := fun _ => nofun
theorem producerAdvance : Statement .producerAdvance := nofun
theorem rootWordWrite : Statement .rootWordWrite := nofun
theorem channelAccessRefused : ∀ a b d e, Statement (.channelAccessRefused a b d e) := fun _ _ _ _ => fun _ _ _ h => (by injection h with h; injection h with _ h; injection h with hd h; injection h with _ h; exact h ▸ of_valueOf hd)

end Sys2Proof.Laws.ReadCarriesNoValue
end

