-- ==== Sys2Proof/Laws/Queued.lean ====
section
/-! SUPPORT. Queued writes (R30, R32, R33): the state a ticket leaves, what a write that joins behind other entries or
finds an empty queue and fails a test leaves, and what supersede leaves of a head. -/

namespace Sys2Proof.Machine

/-- R28: the statement's range is the model's. -/
theorem inRange_inLimits {d : DescWords} {v : Word} (h : InRange d v) : inLimits d v = true := by
  unfold inLimits
  split
  · next z hz => simp [h.1, h.2 z hz]
  · simp [h.1]

/-- The line an access writes is the one its mark names. -/
theorem line?_eq {d : DescWords} {l : Line} : d.line? = some l ↔ d.mark = .line l := by
  unfold DescWords.line?; split
  · next h => simp [h]
  · next h => constructor
              · intro e; cases e
              · intro e; exact absurd e (h l)

/-- R26: a queued write that no step refuses takes a ticket and is enqueued. -/
theorem accept_queued {u : State} {acc : Access} {p : Place} {d : DescWords} (h : IsQueued u p.tube d acc.value) :
    u.accept acc p d = (u.takeTicket p.tube).enqueue p d (u.tube p.tube).nextTicket acc.value := by
  obtain ⟨h1, h2, h3, h4, h5⟩ := h
  have a1 : u.owned p.tube d = false := by
    unfold State.owned
    cases hl : d.line? with
    | none => rfl
    | some l =>
      simp only
      rw [← Bool.not_eq_true]; intro hc; apply h1
      simp at hc
      have := line?_eq.1 hl
      exact ⟨by rw [this, hc.1.1], hc.1.1 ▸ hc.1.2, by simpa using hc.2⟩
  have a2 : bypassLine (u.tube p.tube) d acc.value = none := by
    unfold bypassLine
    cases hl : d.line? with
    | none => rfl
    | some l =>
      simp only; rw [if_neg]; intro hc; exact h3 l ⟨line?_eq.1 hl, hc⟩
  have a3 : u.queuedRefusal p.tube d = none := by
    unfold State.queuedRefusal
    rw [h4]; simp only [Bool.not_true, Bool.false_eq_true, if_false]
    rw [if_neg]; intro hc; simp at hc
    apply h5
    obtain ⟨⟨hl, hr⟩, hm⟩ := hc
    obtain ⟨l, hl⟩ := Option.isSome_iff_exists.1 hl
    exact ⟨⟨l, line?_eq.1 hl⟩, hr, hm⟩
  unfold State.accept
  simp only [a1, inRange_inLimits h2, a2, a3, Bool.not_true, Bool.false_eq_true, if_false]

/-- `IsQueued` reads the tube, the Binding Table and the Service Monitor. -/
theorem isQueued_congr {s u : State} {t : Tube} {d : DescWords} {v : Word} (h : IsQueued s t d v)
    (h1 : u.tube t = s.tube t)
    (h2 : u.binding = s.binding) (h3 : u.monitor = s.monitor) : IsQueued u t d v := by
  obtain ⟨a, b, c, e, f⟩ := h
  refine ⟨?_, b, ?_, by rw [h1]; exact e, by rw [h3]; exact f⟩
  · rintro ⟨x, y, z⟩; exact a ⟨by rw [h1] at x; exact x, by rw [h1, h2] at y; exact y, by rw [h1] at z; exact z⟩
  · intro l ⟨x, y⟩; exact c l ⟨x, by rw [h1] at y; exact y⟩

/-- The state in which the write is enqueued: the discarded access behind it, its ticket taken (R30). -/
def ticketedState (s : State) (k : Tube) : State := s.met.takeTicket k

/-- A queued write is the enqueue in the state its ticket leaves, and what follows every event. -/
theorem exec_queued {s : State} {c : AccessClass} {p : Place} {v : Word} {d : DescWords} (h : ShapedReaches s c p v d)
    (hq : IsQueued s p.tube d v) : exec (.shapedWrite c p v) s
      = .next (s.advance.finish ((ticketedState s p.tube).enqueue p d (s.tube p.tube).nextTicket v)) := by
  obtain ⟨hk, hm, hd⟩ := h
  obtain ⟨b, dq, n, hmet⟩ := met_eq s
  show execShapedWrite c p v s = _
  unfold execShapedWrite
  rw [takeAccess_of_dispatches hd]
  show Host.Outcome.next (State.finish _ (s.met.dispatchWrite _ p d)) = _
  have : s.met.dispatchWrite (placeAccess s c .write p v) p d = s.met.accept (placeAccess s c .write p v) p d := by
    unfold State.dispatchWrite
    rcases hk with hk | hk | hk <;> simp [hk, hm]
  rw [this]
  have hmt : s.met.tube p.tube = s.tube p.tube := by rw [hmet]; rfl
  have hq' : IsQueued s.met p.tube d (placeAccess s c .write p v).value :=
    isQueued_congr hq hmt (by rw [hmet]) (by rw [hmet])
  rw [accept_queued hq', hmt]; rfl

/-- What the ticket leaves: the tube's two ticket records move, and nothing else a queued write reads. -/
structure TicketTaken (s w : State) (k : Tube) : Prop where
  own : w.tube k = { s.tube k with lastIssued := (s.tube k).nextTicket, nextTicket := (s.tube k).nextTicket + 1 }
  others : ∀ j, j ≠ k → w.tube j = s.tube j
  clock : w.clock = s.clock
  budget : w.budget = s.budget
  root : w.root = s.root
  buffer : w.notices.buffer = s.notices.buffer
  acts : SameActs s w
  loc : Local k s.advance w

theorem ticketTaken (s : State) (k : Tube) : TicketTaken s (ticketedState s k) k := by
  obtain ⟨b, dq, n, hmet⟩ := met_eq s
  have hmt : ∀ j, s.met.tube j = s.tube j := fun j => by rw [hmet]; rfl
  refine ⟨?_, ?_, ?_, ?_, ?_, ?_, ?_, ?_⟩
  · unfold ticketedState State.takeTicket; rw [tube_modTube_eq, hmt]
  · intro j hj; unfold ticketedState State.takeTicket; rw [State.modTube, tube_setTube_ne _ _ hj, hmt]
  · show s.met.clock = _; rw [hmet]
  · show s.met.budget = _; rw [hmet]
  · show s.met.root = _; rw [hmet]
  · exact (Still.advance s).kept
  · exact ((Local.met k s).trans (.takeTicket _)).acts
  · exact Local.trans (t := s.met) (Local.replacement _ _ _) (.takeTicket _)

/-- Taking the ticket concerns its tube alone. -/
theorem Local.ticketedState (s : State) (k : Tube) :
    Local k s (ticketedState s k) := (Local.met k s).trans (.takeTicket _)

/-- A queued write whose enqueue leaves the other tubes as they were and a head that stays: nothing follows it but the
bus and the status word. -/
theorem ShapedReaches.queued_still {s : State} {c : AccessClass} {p : Place} {v : Word}
    {d : DescWords} (h : ShapedReaches s c p v d)
    (hq : IsQueued s p.tube d v) {u : State} (hu : (ticketedState s p.tube).enqueue p d (s.tube p.tube).nextTicket v = u)
    (ho : ∀ j, j ≠ p.tube → u.tube j = s.tube j) (hst : HeadStays u p.tube) :
    ∃ t, exec (.shapedWrite c p v) s = .next t ∧ Still u t := by
  refine ⟨_, exec_queued h hq, ?_⟩
  rw [hu]
  apply Still.finish_of_stays
  have hat : ∀ j, s.advance.tube j = s.tube j := fun j => Finished.tube_eq j
  refine Local.noneMoves (k := p.tube) ?_ (fun j hj => by rw [ho j hj, hat]) hst
  rw [← hu]; exact (ticketTaken s p.tube).loc.trans (.enqueue _ _ _ _ _)

/-- R32: with no entry to remove, supersede places no notice and withdraws nothing. -/
theorem supersede_none {s : State} {t : Tube} {w : HeldEntry → Bool} {y : Way} {n : Word}
    (h : ∀ f ∈ (s.tube t).queue, w f = false) :
    s.supersede t w y n = s.modTube t (fun x => { x with queue := x.queue.filter fun e => !w e }) := by
  have : (s.tube t).queue.filter w = [] := by
    rw [List.filter_eq_nil_iff]; intro a ha; rw [h a ha]; decide
  unfold State.supersede
  simp only [this, List.foldl_nil, List.any_nil, Bool.false_eq_true, if_false]

/-- R182: a buffer with room takes the notice at its tail. -/
theorem buffer_place {s : State} {n : Notice} (h : s.notices.buffer.length < 8) :
    (s.place n).notices.buffer = s.notices.buffer ++ [{ n with clock := s.clock }] := by
  unfold State.place State.modNotices; simp only; rw [if_pos h]

/-- The release tests read the kind and the value of an entry alone. -/
theorem firstFailure_entry {s w : State} {k : Tube} (e : HeldEntry) (ha : SameActs s w)
    (h : ∃ q n i l g, w.tube k =
      { s.tube k with queue := q, nextTicket := n, lastIssued := i, lastReleased := l, summary := g }) (f : HeldEntry)
    (hk : f.kind = e.kind) (hv : f.value = e.value) : w.firstFailure k f = s.firstFailure k e := by
  rw [← firstFailure_tube e ha h]
  have hg : gateHolds (w.tube k) f = gateHolds (w.tube k) e := by unfold gateHolds; rw [hk, hv]
  have hr : raisesReactive (w.tube k) f = raisesReactive (w.tube k) e := by unfold raisesReactive; rw [hk, hv]
  unfold State.firstFailure; simp only [hg, hr]

/-- R33: the first entry of a queue that fails a test is held, with its HELD notice. -/
theorem holdFirst_fails {u : State} {k : Tube} {e : HeldEntry} {r : HoldReason} (hf : u.firstFailure k e = some r)
    (hh : e.held = false) :
    u.holdFirst k e
      = ((u.modTube k fun x => { x with queue := [e.hold x.header.holdLimit] }).place (heldNotice k e r 0)).announce := by
  let u1 := u.modTube k fun x => { x with queue := [e] }
  have hq1 : (u1.tube k).queue = [e] := by simp only [u1, tube_modTube_eq]
  have hf1 : u1.firstFailure k e = some r := by
    rw [← hf]
    exact firstFailure_tube e (Local.modTube k u _).acts ⟨[e], _, _, _, _, by simp only [u1, tube_modTube_eq]; rfl⟩
  have hst : HeadStays u1 k := .of_failure hq1 hf1
  unfold State.holdFirst
  rw [show (u.modTube k fun x => { x with queue := [e] }).examineWith State.scan k = u1 from hst.examineWith _]
  have : u1.holdHead k e.ticket
      = (u.modTube k fun x => { x with queue := [e.hold x.header.holdLimit] }).place (heldNotice k e r 0) := by
    unfold State.holdHead
    rw [hq1]; simp only [hh, Bool.not_false, and_true, if_true]
    have hr : u1.holdReason k e = r := by unfold State.holdReason; rw [hf1]
    rw [hr]
    congr 1
    unfold State.setHead
    simp only [u1, State.modTube, tube_setTube_self]
    unfold State.setTube
    simp only [List.tail_cons]
    congr 1
    cases k <;> rfl
  rw [this]

/-- What placing a notice leaves. -/
theorem place_facts (s : State) (n : Notice) :
    (∀ j, (s.place n).tube j = s.tube j) ∧ (s.place n).port = s.port ∧ (s.place n).clock = s.clock
   ∧ (s.place n).budget = s.budget ∧ ∃ l, (s.place n).notices.buffer = s.notices.buffer ++ l :=
  ⟨fun _ => rfl, rfl, rfl, rfl, (Local.place .i0 s n).buffer⟩

/-- What the CLAIM_WAIT notices of an acceptance leave. -/
theorem announce_facts (s : State) :
    (∀ j, s.announce.tube j = s.tube j) ∧ s.announce.port = s.port ∧ s.announce.clock = s.clock
   ∧ s.announce.budget.claims = s.budget.claims.map (fun c => { c with fresh := false })
   ∧ ∃ l, s.announce.notices.buffer = s.notices.buffer ++ l := by
  have hf : ∀ (l : List Claim) (v : State),
     (∀ j, (l.foldl (fun acc c => acc.place (claimWaitNotice acc c)) v).tube j = v.tube j)
     ∧ (l.foldl (fun acc c => acc.place (claimWaitNotice acc c)) v).port = v.port
     ∧ (l.foldl (fun acc c => acc.place (claimWaitNotice acc c)) v).clock = v.clock
     ∧ (l.foldl (fun acc c => acc.place (claimWaitNotice acc c)) v).budget = v.budget := by
    intro l
    induction l with
    | nil => intro v; exact ⟨fun _ => rfl, rfl, rfl, rfl⟩
    | cons a l ih =>
      intro v
      rw [List.foldl_cons]
      obtain ⟨a1, a2, a3, a4⟩ := ih (v.place (claimWaitNotice v a))
      exact ⟨a1, a2, a3, a4⟩
  unfold State.announce
  obtain ⟨a1, a2, a3, a4⟩ := hf (s.budget.claims.filter (·.fresh))
    (s.modBudget fun b => { b with claims := b.claims.map (fun c => { c with fresh := false }) })
  refine ⟨a1, a2, a3, by rw [show _ = _ from congrArg Budget.claims a4]; rfl, ?_⟩
  exact (Local.announce .i0 s).buffer

/-- The frame of a queued write. -/
theorem Elsewhere.of_enqueue {s : State} {p : Place} {d : DescWords} {v n : Word} {t : State}
    (h : Finished ((ticketedState s p.tube).enqueue p d n v) t) : Elsewhere (some p.tube) s t :=
  (((Local.ticketedState s p.tube).trans (.enqueue _ p d n v)).finished h).elsewhere

/-- The queue a write that joins behind others leaves. -/
theorem ShapedReaches.queued_behind {s : State} {c : AccessClass} {p : Place} {v : Word}
    {d : DescWords} (h : ShapedReaches s c p v d)
    (hq : IsQueued s p.tube d v) {w : State}
    (hw : (ticketedState s p.tube).supersedeChannel p (s.tube p.tube).nextTicket = w)
    (hwj : ∀ j, j ≠ p.tube → w.tube j = s.tube j) (g : HeldEntry) (rest : List HeldEntry)
    (hwq : (w.tube p.tube).queue = g :: rest) (hl : rest.length < 7)
    (hhd : (w.tube p.tube).header = (s.tube p.tube).header) (hst : HeadStays w p.tube) :
    let x := s.tube p.tube
    let e := newEntry p d x.nextTicket v s.clock
    ∃ t, exec (.shapedWrite c p v) s = .next t ∧ Elsewhere (some p.tube) s t ∧ t.port = ⟨.idle, .acknowledge⟩
      ∧ t.tube p.tube = { w.tube p.tube with queue := g :: rest ++ [e.hold x.header.holdLimit] }
      ∧ t.clock = s.clock
      ∧ t.notices.buffer = (w.place (heldNotice p.tube e .behind (rest.length + 1))).notices.buffer := by
  intro x e
  let e' := newEntry p d x.nextTicket v (ticketedState s p.tube).clock
  have he : e' = e := by show newEntry _ _ _ _ _ = newEntry _ _ _ _ _; rw [(ticketTaken s p.tube).clock]
  have hen : (ticketedState s p.tube).enqueue p d x.nextTicket v = (w.holdBehind p.tube e').ack := by
    have hw' : (ticketedState s p.tube).supersedeChannel p x.nextTicket = w := hw
    unfold State.enqueue
    simp only [hw', hwq]
    rw [if_neg (by simp), if_pos (by simp; omega)]
  let m := w.modTube p.tube fun x => { x with queue := x.queue ++ [e'.hold x.header.holdLimit] }
  let nt := heldNotice p.tube e' .behind (w.tube p.tube).queue.length
  obtain ⟨u, hu⟩ : ∃ u, u = (w.holdBehind p.tube e').ack := ⟨_, rfl⟩
  have hum : ∀ j, u.tube j = m.tube j := fun j => by rw [hu]; rfl
  rw [← hu] at hen
  have hut : u.tube p.tube = { w.tube p.tube with queue := g :: rest ++ [e.hold x.header.holdLimit] } := by
    rw [hum]; show (State.modTube _ _ _).tube _ = _
    rw [tube_modTube_eq]; simp only [hwq, hhd, he]; rfl
  have huj : ∀ j, j ≠ p.tube → u.tube j = s.tube j := fun j hj => by
    rw [hum]; show (State.modTube _ _ _).tube _ = _
    rw [State.modTube, tube_setTube_ne _ _ hj, hwj j hj]
  have hstu : HeadStays u p.tube := by
    intro f l hf
    rw [hut] at hf
    cases hf
    have hl : Local p.tube w u := by
      rw [hu]
      exact ((Local.modTube _ w _).trans (.place _ _ _)).trans (.ack _)
    rcases hst g rest hwq with ⟨r, hr⟩ | ⟨h1, h2⟩
    · left; exact ⟨r, by rw [← hr]; exact firstFailure_tube g hl.acts ⟨_, _, _, _, _, by rw [hut]⟩⟩
    · right; refine ⟨h1, ?_⟩; rw [hut, ← h2]; rfl
  obtain ⟨t, ht, hS⟩ := ShapedReaches.queued_still h hq (u := u) hen huj hstu
  have hel : Elsewhere (some p.tube) s t :=
    Elsewhere.of_enqueue (d := d) (v := v) (n := x.nextTicket) (by rw [hen]; exact hS.toFinished)
  refine ⟨t, ht, hel, by rw [hS.port, hu]; rfl, by rw [hS.tube, hut], hel.clock, ?_⟩
  rw [hS.kept, hu]
  have hwl : (w.tube p.tube).queue.length = rest.length + 1 := by rw [hwq]; rfl
  rw [← he, ← hwl]; rfl

/-- What a write that finds an empty queue and fails a test leaves. -/
theorem ShapedReaches.queued_first {s : State} {c : AccessClass} {p : Place} {v : Word}
    {d : DescWords} (h : ShapedReaches s c p v d)
    (hq : IsQueued s p.tube d v) {w : State}
    (hw : (ticketedState s p.tube).supersedeChannel p (s.tube p.tube).nextTicket = w)
    (hwj : ∀ j, j ≠ p.tube → w.tube j = s.tube j)
    (hwq : (w.tube p.tube).queue = [])
    (hhd : (w.tube p.tube).header = (s.tube p.tube).header) (r : HoldReason)
    (hr : w.firstFailure p.tube (newEntry p d (s.tube p.tube).nextTicket v s.clock) = some r) :
    let x := s.tube p.tube
    let e := newEntry p d x.nextTicket v s.clock
    ∃ t, exec (.shapedWrite c p v) s = .next t ∧ Elsewhere (some p.tube) s t ∧ t.port = ⟨.idle, .acknowledge⟩
      ∧ t.tube p.tube = { w.tube p.tube with queue := [e.hold x.header.holdLimit] }
      ∧ t.clock = s.clock ∧ t.budget.claims = w.budget.claims.map (fun c => { c with fresh := false })
      ∧ ∃ l, t.notices.buffer = (w.place (heldNotice p.tube e r 0)).notices.buffer ++ l := by
  intro x e
  let e' := newEntry p d x.nextTicket v (ticketedState s p.tube).clock
  have he : e' = e := by show newEntry _ _ _ _ _ = newEntry _ _ _ _ _; rw [(ticketTaken s p.tube).clock]
  have hen : (ticketedState s p.tube).enqueue p d x.nextTicket v = (w.holdFirst p.tube e).ack := by
    have hw' : (ticketedState s p.tube).supersedeChannel p x.nextTicket = w := hw
    unfold State.enqueue
    simp only [hw', hwq, ← he]; rfl
  let y := (w.modTube p.tube fun x => { x with queue := [e.hold x.header.holdLimit] }).place (heldNotice p.tube e r 0)
  have hy : w.holdFirst p.tube e = y.announce := holdFirst_fails hr rfl
  obtain ⟨f1, f2, f3, f4, f5⟩ := announce_facts y
  obtain ⟨u, hu⟩ : ∃ u, u = (w.holdFirst p.tube e).ack := ⟨_, rfl⟩
  rw [← hu] at hen
  have hum : ∀ j, u.tube j = (w.holdFirst p.tube e).tube j := fun j => by rw [hu]; rfl
  have hut : u.tube p.tube = { w.tube p.tube with queue := [e.hold x.header.holdLimit] } := by
    rw [hum, hy, f1]
    show (State.place (State.modTube _ _ _) _).tube _ = _
    rw [(place_facts _ _).1, tube_modTube_eq]; simp only [hhd]; rfl
  have huj : ∀ j, j ≠ p.tube → u.tube j = s.tube j := fun j hj => by
    rw [hum, hy, f1]
    show (State.place (State.modTube _ _ _) _).tube _ = _
    rw [(place_facts _ _).1, State.modTube, tube_setTube_ne _ _ hj, hwj j hj]
  have hstu : HeadStays u p.tube := by
    refine .of_failure (e := e.hold x.header.holdLimit) (rest := []) (by rw [hut]) (r := r) ?_
    rw [← hr]
    have hl : Local p.tube w u := by rw [hu]; exact (Local.holdFirst w e).trans (.ack _)
    exact firstFailure_entry e hl.acts ⟨_, _, _, _, _, by rw [hut]⟩ _ rfl rfl
  obtain ⟨t, ht, hS⟩ := ShapedReaches.queued_still h hq (u := u) hen huj hstu
  have hel : Elsewhere (some p.tube) s t :=
    Elsewhere.of_enqueue (d := d) (v := v) (n := x.nextTicket) (by rw [hen]; exact hS.toFinished)
  refine ⟨t, ht, hel, by rw [hS.port, hu]; rfl, by rw [hS.tube, hut], hel.clock, ?_, ?_⟩
  · rw [hS.claims, hu]; show (w.holdFirst p.tube e).budget.claims = _; rw [hy, f4]; rfl
  · rw [hS.kept, hu]; show ∃ l, (w.holdFirst p.tube e).notices.buffer = _; rw [hy]; exact f5

/-! ## A write that supersedes -/

/-- The ticket leaves the queue. -/
theorem ticketedState_queue (s : State) (k : Tube) :
    ((ticketedState s k).tube k).queue = (s.tube k).queue := by rw [(ticketTaken s k).own]

theorem filter_other_channels {q : List HeldEntry} {c : Six} (h : ∀ f ∈ q, f.channel ≠ c) :
    q.filter (fun e => !(e.channel == c)) = q := by
  rw [List.filter_eq_self]; intro f hf; simp [h f hf]

theorem filter_own_channel {q : List HeldEntry} {c : Six} (h : ∀ f ∈ q, f.channel ≠ c) :
    q.filter (fun e => e.channel == c) = [] := by
  rw [List.filter_eq_nil_iff]; intro f hf; simp [h f hf]

/-- What supersede leaves of a head on the write's channel, before the new head is examined. -/
def withoutHead (s : State) (p : Place) (f : HeldEntry) (rest : List HeldEntry) : State :=
  ((ticketedState s p.tube).modTube p.tube fun x => { x with queue := rest }).place
    (supersededNotice p.tube f .queued (s.tube p.tube).nextTicket)

/-- R32: the supersede of a head alone on the channel. -/
theorem supersede_head {s : State} {p : Place} {f : HeldEntry} {rest : List HeldEntry}
    (hx : (s.tube p.tube).queue = f :: rest) (hf : f.channel = p.channel) (ho : ∀ g ∈ rest, g.channel ≠ p.channel) :
    (ticketedState s p.tube).supersede p.tube (fun e => e.channel == p.channel) .queued (s.tube p.tube).nextTicket
      = if f.state = .claiming then (withoutHead s p f rest).withdraw State.rescan (Claim.ofHead p.tube)
        else withoutHead s p f rest := by
  have hq := ticketedState_queue s p.tube
  rw [hx] at hq
  unfold State.supersede
  have h1 : ((ticketedState s p.tube).tube p.tube).queue.filter (fun e => e.channel == p.channel) = [f] := by
    rw [hq, List.filter_cons, if_pos (by simp [hf]), filter_own_channel ho]
  have h2 : ((ticketedState s p.tube).modTube p.tube fun x =>
      { x with queue := x.queue.filter (fun e => !(e.channel == p.channel)) })
     = (ticketedState s p.tube).modTube p.tube fun x => { x with queue := rest } := by
    unfold State.modTube
    congr 1
    simp only
    rw [hq, List.filter_cons, if_neg (by simp [hf]), filter_other_channels ho]
  simp only [h1, h2, List.foldl_cons, List.foldl_nil, List.any_cons, List.any_nil, Bool.or_false]
  cases hs : f.state <;> simp [withoutHead]

/-- Such a head is examined anew after the supersede. -/
theorem head_on_channel {s : State} {p : Place} {f : HeldEntry} {rest : List HeldEntry}
    (hx : (s.tube p.tube).queue = f :: rest) (hf : f.channel = p.channel) :
    decide ((((ticketedState s p.tube).tube p.tube).queue.head?.map (·.channel)) = some p.channel) = true := by
  rw [ticketedState_queue, hx]; simp [hf]

/-- What the removal of a head leaves. -/
theorem withoutHead_facts (s : State) (p : Place) (f : HeldEntry) (rest : List HeldEntry) :
    (withoutHead s p f rest).tube p.tube = { s.tube p.tube with
        queue := rest, nextTicket := (s.tube p.tube).nextTicket + 1, lastIssued := (s.tube p.tube).nextTicket }
    ∧ (∀ j, j ≠ p.tube → (withoutHead s p f rest).tube j = s.tube j) ∧ SameActs s (withoutHead s p f rest)
    ∧ (withoutHead s p f rest).budget = s.budget ∧ (withoutHead s p f rest).clock = s.clock := by
  have T := ticketTaken s p.tube
  refine ⟨?_, fun j hj => ?_, ?_, T.budget, T.clock⟩
  · unfold withoutHead; rw [(place_facts _ _).1, tube_modTube_eq, T.own]
  · unfold withoutHead; rw [(place_facts _ _).1, State.modTube, tube_setTube_ne _ _ hj, T.others j hj]
  · exact (((Local.ticketedState s p.tube).trans (.modTube _ _ _)).trans (.place _ _ _)).acts

/-- R32: no entry on the channel, nothing superseded. -/
theorem supersedeChannel_none {s : State} {p : Place} (hn : ∀ f ∈ (s.tube p.tube).queue, f.channel ≠ p.channel) :
    ∃ w, (ticketedState s p.tube).supersedeChannel p (s.tube p.tube).nextTicket = w ∧ w = ticketedState s p.tube := by
  refine ⟨_, rfl, ?_⟩
  unfold State.supersedeChannel
  have hw : decide ((((ticketedState s p.tube).tube p.tube).queue.head?.map (·.channel)) = some p.channel) = false := by
    rw [ticketedState_queue]
    cases h : (s.tube p.tube).queue with
    | nil => rfl
    | cons f l => simp; exact hn f (by rw [h]; exact .head _)
  simp only [hw, Bool.false_eq_true, if_false]
  rw [supersede_none (by rw [ticketedState_queue]; intro f hf; simp [hn f hf])]
  unfold State.modTube
  have : { (ticketedState s p.tube).tube p.tube with
        queue := ((ticketedState s p.tube).tube p.tube).queue.filter (fun e => !(e.channel == p.channel)) }
      = (ticketedState s p.tube).tube p.tube := by
    rw [filter_other_channels (by rw [ticketedState_queue]; exact hn)]
  refine Eq.trans (congrArg (State.setTube _ _) this) ?_
  unfold State.setTube State.tube
  cases p.tube <;> rfl

end Sys2Proof.Machine
end

