-- ==== Sys2Proof/WellFormed.lean ====
section
/-! DEFINITION. Which commands are well formed: the operands the rows of the table admit. -/

namespace Sys2Proof

/-- A count of words that arrive: at least one, at most the words of the whole transaction (log 8). -/
def wordsOk (limit n : Nat) : Bool := decide (1 ≤ n) && decide (n ≤ limit)

/-- A value that names no root command (R3, R188). -/
def namesNoRootCommand (v : Word) : Bool := v != 1 && v != 2 && v != 3

/-- A value that names no tube command (R56). -/
def namesNoTubeCommand (v : Word) : Bool := v.toNat == 0 || decide (6 < v.toNat)

/-- The root words that have no row of their own: all but the control, argument and consumer index words (R2). -/
def isOtherRootWord (w : Six) : Bool := w != 1 && w != 2 && w != 5

/-- A command is well formed when its operands are what its row says. -/
def WellFormed : Instr → Bool
  | .reset _ => true
  | .rootRead n => wordsOk 64 n
  | .tubeLoad n => wordsOk 544 n
  | .scanListLoad n => wordsOk 128 n
  | .adoptionStart => true
  | .tubeAdopt n => wordsOk 14 n
  | .flushDesc _ => true
  | .reload _ _ => true
  | .tripClear _ => true
  | .rootCommandUnknown _ v => namesNoRootCommand v
  | .argumentWordWrite _ _ => true
  | .consumerIndexWrite _ _ => true
  | .consumerAdvance => true
  | .rootWrite _ w _ => isOtherRootWord w
  | .openPassRead _ _ => true
  | .openPassWrite _ _ _ => true
  | .guardedPassRead _ _ => true
  | .guardedPassWrite _ _ _ => true
  | .passWriteDeferred => true
  | .passAccessComplete => true
  | .descWalk n => wordsOk 8 n
  | .statusWriteBack => true
  | .plainRead _ _ => true
  | .plainWrite _ _ _ => true
  | .channelRead _ _ => true
  | .shapedWrite _ p _ => p.word == 0
  | .manualWrite _ p _ => p.word == 0
  | .tubePurge _ _ _ => true
  | .tubeHold _ _ _ => true
  | .tubeResume _ _ _ => true
  | .tubeAbort _ _ _ => true
  | .tubeVent _ _ _ => true
  | .tubeFlush _ _ _ => true
  | .tubeCommandUnknown _ _ _ v => namesNoTubeCommand v
  | .summaryRead _ _ _ => true
  | .purgeLatchLowRead _ _ _ => true
  | .purgeLatchHighRead _ _ _ => true
  | .entryExpiry _ _ => true
  | .releaseGapExpiry _ => true
  | .stepExpiry _ => true
  | .settleExpiry _ => true
  | .motionExpiry _ => true
  | .sampleExpiry _ => true
  | .purgeLimitExpiry _ => true
  | .lineSampleArrival => true
  | .scrubberExpiry => true
  | .abortRequest => true
  | .abortClaimExpiry _ => true
  | .bankTrip => true
  | .scanExpiry => true
  | .scanArrival _ => true
  | .staleExpiry => true
  | .serviceExpiry => true
  | .deliverWriteComplete => true
  | .noticeRecordTake n => wordsOk 8 n
  | .producerAdvance => true
  | .rootWordWrite => true
  | .channelAccessRefused _ d _ v => d == .write || v == 0

end Sys2Proof
end

