-- ==== Sys2Proof/Tests/Slice0.lean ====
section
/-! SUPPORT. The model's own tests: ill-formed commands, the examples of the manual, one small step of every command, and
for every statement a state that meets its hypotheses. -/

namespace Sys2Proof.Tests

open Sys2Proof.Machine

/-! ## A small furnace

`part` is a bank in READY with tube T0 in RUN: zones 0 and 1 on channels 1 and 6 (the second MANUAL), reactive line 0 on
channel 2, the purge line 1 on channel 3, the boat on channel 4, a TUBE channel 5 and a PLAIN channel 0. -/

def plainDesc : DescWords := ⟨0x0001, 0x1000, 0, 4, 0, 0⟩
def zoneDesc : DescWords := ⟨0x0002, 0x2000, 0, 9000, 100, 50⟩
def manualDesc : DescWords := ⟨0x0122, 0x2001, 0, 9000, 0, 50⟩
def reactiveDesc : DescWords := ⟨0x0043, 0x2010, 0, 1000, 0x0201, 30⟩
def purgeDesc : DescWords := ⟨0x0183, 0x2011, 0, 2000, 0x0101, 0⟩
def boatDesc : DescWords := ⟨0x0004, 0x2020, 0, 5000, 0, 0⟩
def tubeDesc : DescWords := ⟨0x0005, 0, 0, 0, 0, 0⟩

def descriptors : List DescWords := [plainDesc, zoneDesc, reactiveDesc, purgeDesc, boatDesc, tubeDesc, manualDesc]

def header : Header :=
  { holdLimit := 10, releaseGap := 100, stepPeriod := 1000, lagLimit := 50, settlePeriod := 2000, settleWindow := 20,
    settleRetryLimit := 3, purgeLine := .i1, purgeFlow := 1000, standbyFlow := 200, abortPurgeFlow := 1500,
    purgeVolume := 2, clearingVolume := 3, samplePeriod := 1000, purgeLimit := 60, motionPeriod := 500,
    inThreshold := 1000, pushLimit := 9000, bandBound := ⟨8000, 9000, 10000, 65535⟩, bandStep := ⟨200, 100, 50, 10⟩,
    approachDistance := 100, approachStep := 20, stallLimit := 100, stallCount := 3 }

def cached (ch : Six) (d : DescWords) : CacheEntry := ⟨true, .i0, cacheTag ch, d, true⟩

def ramp : Ramp :=
  { Ramp.reset with
    zones := ⟨⟨true, 1000, 1000, 50⟩, ⟨true, 1000, 1000, 50⟩, ⟨false, 0, 0, 1⟩, ⟨false, 0, 0, 1⟩, ⟨false, 0, 0, 1⟩⟩
    thermal := .stable
    cause := .none
    lastTicket := 7 }

def lines : Eight LineRec :=
  { Eight.fill LineRec.reset with
    a0 := ⟨true, true, false, 0, 1, 30, 2, 0⟩
    a1 := ⟨true, false, true, 200, 1, 0, 1, 0⟩ }

def gas : Gas :=
  { Gas.reset with
    atmosphere := .inert
    lines := lines }

def boat : Boat := { Boat.reset with bound := true, target := 2000, delivered := 2000, state := .inPos }

def tube : TubeState :=
  { TubeState.reset with
    mode := .run
    nextTicket := 5
    lastIssued := 4
    lastReleased := 4
    ramp := ramp
    gas := gas
    boat := boat
    header := header }

def root : RootCopy :=
  { RootCopy.reset 0 with
    windowBase := 8
    tubes := ⟨⟨0x100, true, false, false⟩, ⟨0, false, false, false⟩, ⟨0, false, false, false⟩, ⟨0, false, false, false⟩⟩ }

def cache : Four (Four CacheEntry) :=
  ⟨⟨cached 0 plainDesc, cached 4 boatDesc, CacheEntry.empty, CacheEntry.empty⟩,
    ⟨cached 1 zoneDesc, cached 5 tubeDesc, CacheEntry.empty, CacheEntry.empty⟩,
    ⟨cached 2 reactiveDesc, cached 6 manualDesc, CacheEntry.empty, CacheEntry.empty⟩,
    ⟨cached 3 purgeDesc, CacheEntry.empty, CacheEntry.empty, CacheEntry.empty⟩⟩

def part : State :=
  { State.reset with
    root := root
    cache := cache
    binding := { Four.fill TubeBinding.empty with a0 := TubeBinding.ofDescriptors descriptors }
    tubes := { Four.fill TubeState.reset with a0 := tube }
    budget := ⟨30, 1, [], 0, 0, false, some 1000, 100, 50, 5, false⟩
    scanner := ⟨[], 500, 2000, some 500, some 2000, 0, none, false, false⟩
    notices := { NoticeWriter.reset with ringUsed := true, ringBase := 0x300 }
    monitor := ⟨false, 0, 0, 5000, 2, some 5000⟩
    loader := ⟨.ready, .none, .idle, 0, 0, false⟩ }

def after (i : Instr) (s : State) : State :=
  match exec i s with
  | .next t => t
  | _ => s

/-- `part` with T0 changed. -/
def withTube (f : TubeState → TubeState) : State := part.modTube .i0 f

/-! ## Ill-formed commands are refused -/

theorem wf_root_read : WellFormed (.rootRead 64) = true ∧ WellFormed (.rootRead 0) = false
    ∧ WellFormed (.rootRead 65) = false := by decide

theorem wf_tube_load : WellFormed (.tubeLoad 544) = true ∧ WellFormed (.tubeLoad 0) = false
    ∧ WellFormed (.tubeLoad 545) = false := by decide

theorem wf_scan_list_load : WellFormed (.scanListLoad 128) = true ∧ WellFormed (.scanListLoad 0) = false
    ∧ WellFormed (.scanListLoad 129) = false := by decide

theorem wf_tube_adopt : WellFormed (.tubeAdopt 14) = true ∧ WellFormed (.tubeAdopt 0) = false
    ∧ WellFormed (.tubeAdopt 15) = false := by decide

theorem wf_desc_walk : WellFormed (.descWalk 8) = true ∧ WellFormed (.descWalk 0) = false
    ∧ WellFormed (.descWalk 9) = false := by decide

theorem wf_notice_record_take : WellFormed (.noticeRecordTake 8) = true ∧ WellFormed (.noticeRecordTake 0) = false
    ∧ WellFormed (.noticeRecordTake 9) = false := by decide

theorem wf_root_command_unknown : WellFormed (.rootCommandUnknown .service 4) = true
    ∧ WellFormed (.rootCommandUnknown .service 1) = false ∧ WellFormed (.rootCommandUnknown .service 2) = false
    ∧ WellFormed (.rootCommandUnknown .service 3) = false := by decide

theorem wf_root_write : WellFormed (.rootWrite .service 7 0) = true ∧ WellFormed (.rootWrite .service 1 0) = false
    ∧ WellFormed (.rootWrite .service 2 0) = false ∧ WellFormed (.rootWrite .service 5 0) = false := by decide

theorem wf_shaped_write : WellFormed (.shapedWrite .operator ⟨.i0, 1, 0⟩ 5) = true
    ∧ WellFormed (.shapedWrite .operator ⟨.i0, 1, 1⟩ 5) = false
    ∧ WellFormed (.manualWrite .service ⟨.i0, 1, 1⟩ 5) = false := by decide

theorem wf_tube_command_unknown : WellFormed (.tubeCommandUnknown .operator .i0 5 7) = true
    ∧ WellFormed (.tubeCommandUnknown .operator .i0 5 1) = false
    ∧ WellFormed (.tubeCommandUnknown .operator .i0 5 6) = false := by decide

theorem wf_channel_access_refused : WellFormed (.channelAccessRefused .operator .read ⟨.i0, 1, 1⟩ 0) = true
    ∧ WellFormed (.channelAccessRefused .operator .read ⟨.i0, 1, 1⟩ 5) = false := by decide

/-! ## Numbers of the manual -/

/-- R187: the check word of one zero word. -/
theorem test_check_word : checkWord [0] = 0x1D0F := by decide +kernel

/-- R5: tube 2, channel 10, word 3 of the window with base 8. -/
theorem test_place : windowPlace 8 0x22283 = some ⟨.i2, 10, 3⟩ ∧ windowPlace 8 0x24000 = none := by decide

/-- R91: a flow of 101 with weight 3 draws 6 units, a flow of 100 draws 3. -/
theorem test_draw : drawOf 101 3 = 6 ∧ drawOf 100 3 = 3 ∧ drawOf 0 3 = 0 := by decide

/-- R188: status word of a tripped bank in NOT_READY with reason MARKS and cause CLAIM_STARVED. -/
theorem test_status_word : statusWord .notReady .marks true .claimStarved = 0x029C := by decide

/-- R191: the eight words of a RELEASED notice. -/
theorem test_notice_words :
    { releasedNotice .i2 10 .queued 0x1234 500 0xABCD5678 with clock := 0x00012345 }.words
      = [3, 0x0C52, 0x1234, 500, 0x5678, 0, 0x2345, 1] := by decide

/-- R192: the TUBE words of `part`'s T0. -/
theorem test_tube_words : tube.word0 = 0x0020 ∧ tube.word1 = 0x0302 ∧ tube.word2 = 0 := by decide

/-! ## Steps, reset and start-up -/

theorem witness_IdleStepLetsOneMillisecondPass : part.pending = [] ∧ (part.tube .i0).queue = [] := by decide

theorem test_idle_step : ∃ t, step part = .next t ∧ t.clock = 1 ∧ t.monitor.timer = some 4999 := ⟨_, rfl, by decide⟩

theorem test_step_takes_the_front : step { part with pending := [.tubeHold .service .i0 5, .lineSampleArrival] }
    = exec (.tubeHold .service .i0 5) { part with pending := [.lineSampleArrival] } := rfl

theorem test_reset : after (.reset 3) part = { State.afterReset 3 [] [] with freeCount := 0 } := by decide

/-- `s` with a read in flight for which requester `r` waits. -/
def reading (s : State) (r : Requester) (a : Addr) : State := { s with bus := ⟨some ⟨r, a, none, false⟩, Five.fill 0⟩ }

/-- `s` with a write in flight for which requester `r` waits. -/
def writing (s : State) (r : Requester) (a : Addr) (v : Word) : State :=
  { s with bus := ⟨some ⟨r, a, some v, false⟩, Five.fill 0⟩ }

def rootWords : List Word :=
  [0xD440, 0, 0, 0, 0, 0, 0, 8, 0x100, 0, 0, 0, 0, 0, 0, 0, 0, 0, 0, 0x400, 1, 500, 2000, 0x300, 0, 2, 7, 100, 1, 100, 50,
    5, 5000, 2, 300] ++ List.replicate 28 0

/-- All root words but the last have been read. -/
def rootLast (words : List Word) : State :=
  reading { State.reset with loader := { Loader.reset with job := .root words } } .walk 63

theorem witness_RootReadIsDecided :
    InFlight (rootLast rootWords.reverse) .walk ⟨.walk, 63, none, false⟩ ∧ rootWords.reverse.length = 63
    ∧ (rootLast rootWords.reverse).portOffWalk = true
    ∧ (rootLast rootWords.reverse).loader.phase = .notReady ∧ (rootLast rootWords.reverse).notices.ringUsed = false
    ∧ InFlight (rootLast (List.replicate 63 0)) .walk ⟨.walk, 63, none, false⟩ ∧ (List.replicate 63 (0 : Word)).length = 63 :=
  ⟨⟨rfl, rfl, rfl⟩, by decide +kernel, rfl, rfl, rfl, ⟨rfl, rfl, rfl⟩, rfl⟩

theorem test_root_read : (after (.rootRead 1) (rootLast rootWords.reverse)).loader.job = .tube .i0 []
    ∧ (after (.rootRead 64) (rootLast (List.replicate 63 0))).loader.reason = .signature := by decide +kernel

/-- The reason a root is left with whose word `i` reads `v`. -/
def rootReason (i : Nat) (v : Word) : NotReadyReason :=
  (after (.rootRead 1) (rootLast (rootWords.set i v).reverse)).loader.reason

theorem test_root_reasons : rootReason 7 64 = .overlap ∧ rootReason 24 6 = .none ∧ rootReason 24 7 = .ringSize
    ∧ rootReason 20 0 = .scanCount ∧ rootReason 20 32 = .none ∧ rootReason 20 33 = .scanCount ∧ rootReason 28 0 = .heatSlots
    ∧ rootReason 28 4 = .none ∧ rootReason 28 5 = .heatSlots ∧ rootReason 27 0x1000 = .capacity
    ∧ rootReason 30 99 = .none ∧ rootReason 30 100 = .marks := by decide +kernel

def headerWords : List Word :=
  [10, 100, 1000, 50, 2000, 20, 3, 1, 1000, 200, 1500, 2, 3, 1000, 60, 500, 1000, 9000, 8000, 9000, 10000, 65535, 200, 100,
    50, 10, 100, 20, 100, 3, 0]

/-- A tube table of a header and channels; each check word is right but for a channel with `bad`. -/
def tableOf (h : List Word) (ds : List DescWords) (bad : Option DescWords) : List Word :=
  h ++ [checkWord h]
    ++ (ds.map fun d => d.toList ++ [0, if some d = bad then checkWord d.toList + 1 else checkWord d.toList]).flatten
    ++ List.replicate (512 - 8 * ds.length) 0

def tableWords : List Word := tableOf headerWords descriptors none

/-- All words of the table of T0 but the last, which reads 0, have been read. -/
def tableLast (words : List Word) : State :=
  reading { (after (.rootRead 1) (rootLast rootWords.reverse)) with
    loader := ⟨.loading, .none, .tube .i0 words, 0x400, 1, false⟩ } .walk 0x121F

theorem witness_TubeLoadIsDecided :
    InFlight (tableLast (tableWords.take 543).reverse) .walk ⟨.walk, 0x121F, none, false⟩
    ∧ (tableWords.take 543).reverse.length = 543 ∧ (tableLast (tableWords.take 543).reverse).portOffWalk = true
    ∧ tableWords.getD 543 0 = (tableLast (tableWords.take 543).reverse).readWord 0x121F
    ∧ checkWord (tableWords.take 31) = tableWords.getD 31 0
    ∧ ((tableLast (tableWords.take 543).reverse).tube .i0).gas.run = none :=
  ⟨⟨rfl, rfl, rfl⟩, by decide +kernel, rfl, by decide +kernel, by decide +kernel, rfl⟩

/-- The faults a table is reported with. -/
def tableFault (s : State → State) (ws : List Word) : List (Nat × Option Six × Word) :=
  (after (.tubeLoad 1) (s (tableLast (ws.take 543).reverse))).notices.buffer.map fun n => (n.code.toNat, n.channel, n.value)

/-- T1 is present, with a zone bound inside T0's table. -/
def covering (s : State) : State :=
  { s with
    root := { s.root with tubes := s.root.tubes.set .i1 ⟨0x200, true, false, false⟩ }
    binding := s.binding.set .i1 (TubeBinding.ofDescriptors [⟨0x0002, 0x1010, 0, 9000, 100, 50⟩]) }

theorem test_table_faults_of_the_header : tableFault id (List.replicate 544 0) = [(4, none, 31)]
    ∧ tableFault id (tableOf (headerWords.set 2 249) descriptors none) = [(4, none, 2)]
    ∧ tableFault id (tableOf (headerWords.set 2 250) descriptors none) = []
    ∧ tableFault id (tableOf (headerWords.set 9 1001) descriptors none) = [(4, none, 9)] := by decide +kernel

theorem test_table_faults_of_a_channel :
    tableFault id (tableOf headerWords descriptors (some boatDesc)) = [(1, some 4, 4)]
    ∧ tableFault id (tableOf headerWords (descriptors.set 1 { zoneDesc with w5 := 501 }) none) = [(2, some 1, 2)]
    ∧ tableFault id (tableOf headerWords (descriptors.set 4 { boatDesc with w1 := 0x2000 }) none) = [(3, some 4, 4)]
    ∧ tableFault id (tableOf headerWords (descriptors.set 4 { boatDesc with w1 := 63 }) none) = [(3, some 4, 4)]
    ∧ (tableFault covering tableWords).map (·.1) = [3]
    ∧ tableFault id (tableOf headerWords (descriptors.set 3 { purgeDesc with w3 := 1499 }) none) = [(5, none, 1)] := by
  decide +kernel

theorem test_tube_load : (after (.tubeLoad 1) (tableLast (tableWords.take 543).reverse)).present .i0 = true
    ∧ ((after (.tubeLoad 1) (tableLast (tableWords.take 543).reverse)).tube .i0).header = header
    ∧ (after (.tubeLoad 1) (tableLast (tableWords.take 543).reverse)).loader.job = .scanList [] := by decide +kernel

def scanLast : State :=
  reading { State.reset with loader := ⟨.loading, .none, .scanList [9000, 0x1C00, 0x2100], 0x400, 1, false⟩ } .walk 0x4003

theorem witness_ScanListIsLoaded : InFlight scanLast .walk ⟨.walk, 0x4003, none, false⟩ ∧ scanLast.portOffWalk = true
    ∧ [(9000 : Word), 0x1C00, 0x2100].length + 1 = scanLast.loader.scanCount * 4 := ⟨⟨rfl, rfl, rfl⟩, rfl, rfl⟩

theorem test_scan_list_load : (after (.scanListLoad 1) scanLast).scanner.list
    = [⟨0x2100, some (.zone .i0 .i0), 9000, 0, true, true, 1, true, 0⟩] := by decide

/-- A bank whose loads are done, with or without T0 present. -/
def adoptable (present : Bool) (q : List Delivery) : State :=
  { part with
    root := { root with tubes := root.tubes.set .i0 ⟨0x100, present, false, false⟩ }
    loader := ⟨.loading, .none, .adoptWait, 0, 0, false⟩
    delivery := q }

theorem witness_AdoptionStartsOnceDeliveriesAreBound :
    (adoptable true [⟨0x2000, 5, false⟩]).loader.job = .adoptWait
    ∧ (adoptable true [⟨0x2000, 5, false⟩]).isBound 0x2000 = true ∧ (adoptable true []).present .i0 = true
    ∧ (Ix4.all.all fun k => !(adoptable false []).present k) = true
    ∧ (adoptable true [⟨0x2000, 5, false⟩, ⟨0x2002, 5, false⟩]).advance.delivery = [⟨0x2002, 5, false⟩]
    ∧ (adoptable true []).isBound 0x2002 = false ∧ (adoptable false []).loader.phase ≠ .ready := by decide

/-- R181: with no tube present the part is READY at once, whatever is pending. -/
theorem test_ready_at_once :
    (after .adoptionStart (adoptable false [⟨0x2000, 5, false⟩, ⟨0x2002, 5, false⟩])).loader.phase = .ready := by decide

theorem test_adoption_start : (after .adoptionStart (adoptable true [⟨0x2000, 5, false⟩])).loader.job = .adopt .i0 []
    ∧ (after .adoptionStart (adoptable false [])).loader.phase = .ready
    ∧ (after .adoptionStart (adoptable true [⟨0x2000, 5, false⟩, ⟨0x2002, 5, false⟩])).loader.job = .adoptWait := by
  decide

/-- The boat's word, the last of T0's plan, is being read; line 0 was read with flow `v`. -/
def adoptLast (v : Word) : State :=
  reading { adoptable true [] with
    loader := ⟨.loading, .none, .adopt .i0 [200, v, 1000, 900], 0, 0, false⟩
    tubes := { Four.fill TubeState.reset with a0 := { TubeState.reset with header := header, gas := { Gas.reset with
      lines := { lines with a1 := { lines.a1 with flow := 0 } } } } } } .walk 0x2020

/-- A DELIVER write holds the bus, and the boat's word, the last one, is pending for delivery. -/
def adoptForwarded : State :=
  { writing (adoptLast 700) .deliver 0x2000 5 with delivery := [⟨0x2020, 6, false⟩] }

/-- Addresses given their words one by one. -/
theorem words_of_map {plan : List Addr} {value : Addr → Word} {ws : List Word} (h : plan.map value = ws) (i : Nat) (x : Addr)
    (hx : plan[i]? = some x) : ws[i]? = some (value x) := by
  rw [← h, List.getElem?_map, hx]
  rfl

theorem witness_TubeIsAdopted :
    (InFlight (adoptLast 700) .walk ⟨.walk, 0x2020, none, false⟩ ∧ (adoptLast 700).present .i0 = true
      ∧ ((adoptLast 700).tube .i0).mode = .aborted ∧ (adoptLast 700).portOffWalk = true
      ∧ ((adoptLast 700).binding.get .i0).plan = [0x2000, 0x2001, 0x2010, 0x2011, 0x2020]
      ∧ ((adoptLast 700).binding.get .i0).plan.Nodup
      ∧ (adoptLast 700).loader.job = .adopt .i0 [200, 700, 1000, 900] ∧ (adoptLast 700).readWord 0x2020 = 0)
    ∧ (∀ (v : Word) (i : Nat) (x : Addr), [(0x2000 : Addr), 0x2001, 0x2010, 0x2011, 0x2020][i]? = some x →
      [900, 1000, v, 200, 0][i]? = some (adopted [0x2000, 0x2001, 0x2010, 0x2011, 0x2020] [900, 1000, v, 200, 0] x))
    ∧ ((adoptLast 700).openReactive .i0 (adopted [0x2000, 0x2001, 0x2010, 0x2011, 0x2020] [900, 1000, 700, 200, 0]) .i0 = true
      ∧ (adoptLast 0).openReactive .i0 (adopted [0x2000, 0x2001, 0x2010, 0x2011, 0x2020] [900, 1000, 0, 200, 0]) .i0 = false)
    ∧ (adoptForwarded.bus.inFlight = some ⟨.deliver, 0x2000, some 5, false⟩
      ∧ adoptForwarded.forwarded 0x2020 = some 6
      ∧ (adoptForwarded.binding.get .i0).plan.length = [(200 : Word), 700, 1000, 900].length + [(6 : Word)].length) :=
  ⟨⟨⟨rfl, rfl, rfl⟩, by decide⟩, fun v => words_of_map rfl, by decide, by decide⟩

theorem test_tube_adopt_forwarded : ((after (.tubeAdopt 1) adoptForwarded).tube .i0).boat.delivered = 6
    ∧ ((after (.tubeAdopt 1) adoptForwarded).tube .i0).mode = .aborting
    ∧ (after (.tubeAdopt 1) adoptForwarded).loader.phase = .ready
    ∧ (after (.tubeAdopt 1) adoptForwarded).notices.buffer.map (·.kind) = [.abortBegin, .loaded] := by decide

theorem test_tube_adopt : ((after (.tubeAdopt 1) (adoptLast 700)).tube .i0).mode = .aborting
    ∧ ((after (.tubeAdopt 1) (adoptLast 700)).tube .i0).gas.atmosphere = .clearing
    ∧ ((after (.tubeAdopt 1) (adoptLast 0)).tube .i0).mode = .aborted
    ∧ ((after (.tubeAdopt 1) (adoptLast 0)).tube .i0).ramp.zones.a0 = ⟨true, 900, 900, 50⟩ := by decide

/-! ## The root block -/

theorem witness_ReloadIsTakenOrRefused : State.reset.port.phase = .idle ∧ State.reset.reloadable = true
    ∧ part.port.phase = .idle ∧ part.reloadable = false := by decide

theorem test_reload : (after (.reload .service 2) (reading State.reset .walk 0)).root.address = 0x20000
    ∧ (after (.reload .service 2) (reading State.reset .walk 0)).bus.inFlight = some ⟨.walk, 0, none, true⟩
    ∧ (after (.reload .service 2) part).port.answer = .errorAcknowledge := by decide

/-- `part` with the argument copy at `n`. -/
def argued (n : Word) : State := { part with root := { root with argument := n } }

theorem witness_FlushDescInvalidatesTheNamedEntries : (argued 5).port.phase = .idle ∧ (argued 5).root.argument.toNat < 256
    ∧ (argued 255).root.argument.toNat < 256 ∧ 256 ≤ (argued 256).root.argument.toNat
    ∧ (argued 0xFFFE).root.argument ≠ 0xFFFF ∧ (argued 0xFFFF).root.argument = 0xFFFF := by decide

theorem test_flush_desc : (after (.flushDesc .service) (argued 5)).cache.a1.a1 = { cached 5 tubeDesc with
      valid := false, wKnown := false }
    ∧ (after (.flushDesc .service) (argued 5)).cache.a1.a0 = cached 1 zoneDesc
    ∧ (after (.flushDesc .service) (argued 256)).port.answer = .errorAcknowledge := by decide

/-- A bank tripped 5 seconds ago. -/
def tripped : State :=
  { part with
    clock := 7000
    abort := ⟨[], [], true, .scanLimit, 2000, 0⟩ }

theorem witness_TripClearClearsTheLatch : tripped.port.phase = .idle
    ∧ (Ix4.all.all fun k => (tripped.tube k).mode != .aborting) = true ∧ tripped.abort.latch = true
    ∧ part.abort.latch = false ∧ (withTube fun x => { x with mode := .aborting }).present .i0 = true
    ∧ ((withTube fun x => { x with mode := .aborting }).tube .i0).mode = .aborting := by decide

theorem test_trip_clear : (after (.tripClear .service) tripped).tripOutput = false
    ∧ (after (.tripClear .service) tripped).notices.buffer.map (·.extra) = [5]
    ∧ (after (.tripClear .service) (withTube fun x => { x with mode := .aborting })).port.answer = .errorAcknowledge := by
  decide

theorem witness_RootWritesFollowTheClassAndTheWord : part.port.phase = .idle ∧ (7 : Six) ≠ 5 ∧ (63 : Six) ≠ 5
    ∧ (4 : Word) ≠ 1 ∧ (4 : Word) ≠ 2 ∧ (4 : Word) ≠ 3 ∧ 6 < (7 : Six).toNat ∧ 6 < (63 : Six).toNat := by decide

theorem test_argument_word_write : (after (.argumentWordWrite .service 77) part).root.argument = 77
    ∧ (after (.argumentWordWrite .service 77) part).port.phase = .pass ⟨2, .write, .service, 77⟩ 2 false
    ∧ (after (.argumentWordWrite .operator 77) part).root.argument = 0 := by decide

theorem test_root_write : (after (.rootWrite .service 7 1) part).port.phase = .pass ⟨7, .write, .service, 1⟩ 7 false
    ∧ (after (.rootWrite .service 4 1) part).port.answer = .errorAcknowledge
    ∧ (after (.rootCommandUnknown .service 4) part).port.answer = .errorAcknowledge := by decide

/-- A ring of 16 records with two of them not consumed. -/
def ringed : State := { part with notices := { part.notices with producer := 1, consumer := 15 } }

theorem witness_ConsumerIndexWriteIsDecided : ringed.port.phase = .idle
    ∧ (ringDistance 16 15 15 ≤ ringDistance 16 1 15 ∧ ringDistance 16 1 15 ≤ ringDistance 16 1 15
      ∧ ringDistance 16 1 15 < ringDistance 16 2 15 ∧ 16 * 2 ^ ringed.notices.sizeCode ≤ (16 : Word).toNat) := by decide

theorem test_consumer_index_write : (after (.consumerIndexWrite .operator 1) ringed).port.phase
      = .pass ⟨5, .write, .operator, 1⟩ 5 true
    ∧ (after (.consumerIndexWrite .operator 2) ringed).port.answer = .errorAcknowledge
    ∧ (after (.consumerIndexWrite .operator 16) ringed).port.answer = .errorAcknowledge := by decide

/-- A taken consumer-index write of `v` is in flight and the monitor is LAPSED. -/
def advancing (v : Word) : State :=
  writing { ringed with
    port := ⟨.pass ⟨5, .write, .operator, v⟩ 5 true, .none⟩
    monitor := ⟨true, 2, 15, 5000, 2, some 100⟩ } .pass 5 v

theorem witness_ConsumerAdvanceFollowsTheWrite : InFlight (advancing 0) .pass ⟨.pass, 5, some 0, false⟩
    ∧ (advancing 0).mem.wf = true ∧ (0 : Word).toNat ≠ (advancing 0).notices.consumer
    ∧ (15 : Word).toNat = (advancing 15).notices.consumer ∧ (advancing 0).monitor.lapsed = true :=
  ⟨⟨rfl, rfl, rfl⟩, by decide, by decide, by decide, rfl⟩

theorem test_consumer_advance : (after .consumerAdvance (advancing 0)).monitor.lapsed = false
    ∧ (after .consumerAdvance (advancing 0)).notices.consumer = 0
    ∧ (after .passAccessComplete (advancing 15)).monitor.lapsed = true
    ∧ (after .consumerAdvance (advancing 15)).readWord 5 = 15 := by decide

/-! ## Passes -/

def guarded (flags : Guard → Guard) : State := { part with root := { root with guard0 := flags ⟨0x1000, 2, false, false⟩ } }

theorem witness_PassesFollowTheWindowsAndTheBounds :
    Presents part ⟨0x5000, .read, .operator, 0⟩ ∧ windowPlace part.root.windowBase 0x5000 = none
    ∧ part.root.guard0.covers 0x5000 = false ∧ part.loader.phase = .ready ∧ part.isBound 0x2000 = true
    ∧ part.isBound 0x5000 = false ∧ (guarded id).root.guard0.covers 0x10000 = true
    ∧ (guarded id).root.guard0.covers 0x1001F = true ∧ (guarded id).root.guard0.covers 0x10020 = false :=
  ⟨⟨rfl, by decide⟩, by decide⟩

theorem test_open_pass : (after (.openPassRead .operator 0x5000) part).port.phase
      = .pass ⟨0x5000, .read, .operator, 0⟩ 0x5000 false
    ∧ (after (.openPassWrite .operator 0x2000 9) part).port.answer = .errorAcknowledge
    ∧ (after (.openPassRead .operator 0x2000) { part with delivery := [⟨1, 2, true⟩, ⟨0x2000, 7, false⟩] }).port.answer
      = .data 7 := by decide

theorem test_guarded_pass : (after (.guardedPassRead .operator 0x10000) (guarded id)).port.phase
      = .pass ⟨0x10000, .read, .operator, 0⟩ 0x10000 false
    ∧ (after (.guardedPassWrite .operator 0x1001F 1) (guarded fun g => { g with serviceWrite := true })).port.answer
      = .errorAcknowledge
    ∧ (after (.guardedPassWrite .service 0x1001F 1) (guarded fun g => { g with serviceWrite := true })).port.phase
      = .pass ⟨0x1001F, .write, .service, 1⟩ 0x1001F false
    ∧ (after (.guardedPassWrite .service 0x10020 1) (guarded fun g => { g with noWrite := true })).port.phase
      = .pass ⟨0x10020, .write, .service, 1⟩ 0x10020 false := by decide

def deferred (q : List Delivery) : State :=
  { part with
    delivery := q
    port := ⟨.deferred ⟨0x2000, .write, .operator, 3⟩ 0x2000 false, .none⟩ }

def passing (d : Direction) (v : Word) : State :=
  { part with
    mem := [(0x5000, 8)]
    port := ⟨.pass ⟨0x5000, d, .operator, v⟩ 0x5000 false, .none⟩
    bus := ⟨some ⟨.pass, 0x5000, if d = .write then some v else none, false⟩, Five.fill 0⟩ }

theorem witness_PassAccessesComplete :
    ((deferred []).port.phase = .deferred ⟨0x2000, .write, .operator, 3⟩ 0x2000 false
      ∧ (⟨0x2000, 5, false⟩ : Delivery) ∈ (deferred [⟨0x2000, 5, false⟩]).delivery)
    ∧ InFlight (passing .read 0) .pass ⟨.pass, 0x5000, none, false⟩
    ∧ InFlight (passing .write 3) .pass ⟨.pass, 0x5000, some 3, false⟩ ∧ (passing .write 3).mem.wf = true :=
  ⟨by decide, ⟨rfl, rfl, rfl⟩, ⟨rfl, rfl, rfl⟩, by decide⟩

theorem test_deferred_write : (after .passWriteDeferred (deferred [])).port.phase
      = .pass ⟨0x2000, .write, .operator, 3⟩ 0x2000 false
    ∧ after .passWriteDeferred (deferred [⟨0x2000, 5, false⟩]) = deferred [⟨0x2000, 5, false⟩] := by decide

theorem test_pass_access_complete : (after .passAccessComplete (passing .read 0)).port.answer = .data 8
    ∧ (after .passAccessComplete (passing .write 3)).mem = [(0x5000, 3)]
    ∧ (after .passAccessComplete (passing .write 0)).mem = [] := by decide

/-! ## The Channel Map -/

/-- `part` without the SERVICE flag, with T0 absent or another load phase. -/
def unloaded (phase : LoadPhase) : State := { part with loader := { part.loader with phase := phase } }

/-- The PLAIN channel's descriptor with other flags in w0. -/
def plainWith (w0 : Word) : DescWords := { plainDesc with w0 := w0 }

theorem witness_ChannelAccessIsRefusedInOrder :
    channelCommand (.channelAccessRefused .operator .read ⟨.i1, 1, 0⟩ 0) = some (.operator, .read, ⟨.i1, 1, 0⟩, 0)
    ∧ Presents part (placeAccess part .operator .read ⟨.i1, 1, 0⟩ 0) ∧ part.present .i1 = false
    ∧ (unloaded .notReady).loader.phase = .notReady ∧ (unloaded .loading).loader.phase = .loading
    ∧ Presents part (placeAccess part .operator .read ⟨.i0, 0, 4⟩ 0) ∧ part.present .i0 = true
    ∧ part.cacheHit ⟨.i0, 0, 4⟩ = some .i0
    ∧ part.stepRefusal (placeAccess part .operator .read ⟨.i0, 0, 4⟩ 0) ⟨.i0, 0, 4⟩ plainDesc = some .noChannel :=
  ⟨rfl, ⟨rfl, by decide⟩, by decide, rfl, rfl,
    ⟨rfl, by decide⟩, by decide, by decide, by decide⟩

theorem test_channel_access_refused :
    (after (.channelAccessRefused .operator .read ⟨.i1, 1, 0⟩ 0) part).notices.buffer.map (·.code) = [3]
    ∧ (after (.plainRead .operator ⟨.i0, 0, 4⟩) part).notices.buffer.map (·.code) = [4]
    ∧ (after (.channelAccessRefused .service .write ⟨.i0, 1, 0⟩ 9) (unloaded .loading)).notices.buffer.map (·.code) = [34] := by
  decide

/-- The clauses of R22's steps 4 to 6 on the PLAIN channel of four words. -/
theorem witness_StepsFourToSixInOrder :
    plainDesc.readable ≤ (4 : Six).toNat ∧ (3 : Six).toNat < plainDesc.writable
    ∧ (plainWith 0x0009).service = true ∧ (plainWith 0x0011).protect = true
    ∧ rootWordAt part.root.address ((⟨1, 62, 0, 4, 0, 0⟩ : DescWords).addr + (1 : Six).setWidth 20) = some 63
    ∧ rootWordAt part.root.address ((⟨1, 62, 0, 4, 0, 0⟩ : DescWords).addr + (2 : Six).setWidth 20) = none := by decide

theorem witness_MissStartsAWalk :
    channelCommand (.channelRead .operator ⟨.i0, 7, 0⟩) = some (.operator, .read, ⟨.i0, 7, 0⟩, 0)
    ∧ Presents part (placeAccess part .operator .read ⟨.i0, 7, 0⟩ 0) ∧ part.loader.phase = .ready
    ∧ part.present .i0 = true ∧ part.cacheHit ⟨.i0, 7, 0⟩ = none :=
  ⟨rfl, ⟨rfl, by decide⟩, rfl, by decide, by decide⟩

theorem test_miss : (after (.channelRead .operator ⟨.i0, 7, 0⟩) part).port.phase
      = .walk ⟨0x201C0, .read, .operator, 0⟩ [] .i0
    ∧ (after (.channelRead .operator ⟨.i0, 7, 0⟩) part).replacement = 1 := by decide

/-- A walk of channel 1 that waits for its eighth word, `crc`, with `w6` read before it. -/
def walking (d : DescWords) (w6 crc : Word) : State :=
  reading { part with
    mem := [(0x102F, crc)]
    cache := Four.fill (Four.fill CacheEntry.empty)
    port := ⟨.walk ⟨0x20040, .write, .operator, 500⟩ ((w6 :: d.toList.reverse)) .i2, .none⟩ } .walk 0x102F

theorem witness_WalkIsDecided :
    InFlight (walking zoneDesc 0 (checkWord zoneDesc.toList)) .walk ⟨.walk, 0x102F, none, false⟩
    ∧ (((0 : Word) :: zoneDesc.toList.reverse).length = 7
      ∧ (walking zoneDesc 0 (checkWord zoneDesc.toList)).readWord 0x102F = checkWord zoneDesc.toList
      ∧ (walking zoneDesc 0 5).readWord 0x102F ≠ checkWord zoneDesc.toList
      ∧ (walking zoneDesc 0 5).placeOf ⟨0x20040, .write, .operator, 500⟩ = ⟨.i0, 1, 0⟩
      ∧ zoneDesc.wellFormed = true ∧ { zoneDesc with w5 := 501 }.wellFormed = false
      ∧ { zoneDesc with w5 := 500 }.wellFormed = true
      ∧ ((part.binding.get .i0).mismatch 1 zoneDesc) = false
      ∧ ((part.binding.get .i0).mismatch 1 { zoneDesc with w1 := 0x2005 }) = true) :=
  ⟨⟨rfl, rfl, rfl⟩, by decide +kernel⟩

theorem test_desc_walk :
    (after (.descWalk 8) (walking zoneDesc 0 (checkWord zoneDesc.toList))).port.phase
      = .fillWriteBack ⟨0x20040, .write, .operator, 500⟩ .i0 false
    ∧ (after (.descWalk 1) (walking zoneDesc 1 (checkWord zoneDesc.toList))).port.phase
      = .useWriteBack ⟨0x20040, .write, .operator, 500⟩ .i0
    ∧ (after (.descWalk 1) (walking zoneDesc 0 5)).notices.buffer.map (·.kind) = [.descFault, .refused] := by
  decide +kernel

/-- A status write-back of channel 0 or 1 in flight. -/
def writingBack (phase : PortPhase) (v : Word) : State :=
  writing { part with
    cache := cache.set .i1 ((cache.get .i1).set .i0 { cached 1 zoneDesc with wKnown := false })
    port := ⟨phase, .none⟩ } .walk 0x102E v

theorem witness_StatusWriteBackCompletes :
    InFlight (writingBack (.fillWriteBack ⟨0x20040, .write, .operator, 500⟩ .i0 false) 1) .walk ⟨.walk, 0x102E, some 1, false⟩
    ∧ (writingBack (.useWriteBack ⟨0x20040, .write, .operator, 500⟩ .i0) 3).mem.wf = true
    ∧ ((writingBack .idle 3).cacheEntry ⟨.i0, 1, 0⟩ .i0).wKnown = false
    ∧ (writingBack .idle 3).stepRefusal ⟨0x20040, .write, .operator, 500⟩ ⟨.i0, 1, 0⟩ zoneDesc = none
    ∧ (writingBack .idle 3).stepRefusal ⟨0x20041, .write, .operator, 500⟩ ⟨.i0, 1, 1⟩ zoneDesc = some .noChannel
    ∧ plainDesc.kind = some .plain :=
  ⟨⟨rfl, rfl, rfl⟩, by decide⟩

theorem test_status_write_back :
    (after .statusWriteBack (writingBack (.fillWriteBack ⟨0x20040, .write, .operator, 500⟩ .i0 false) 1)).port.phase
      = .useWriteBack ⟨0x20040, .write, .operator, 500⟩ .i0
    ∧ (after .statusWriteBack (writingBack (.useWriteBack ⟨0x20040, .write, .operator, 500⟩ .i0) 3)).readWord 0x102E = 3
    ∧ ((after .statusWriteBack (writingBack (.useWriteBack ⟨0x20040, .write, .operator, 500⟩ .i0) 3)).tube .i0).lastReleased
      = 5 := by decide

/-- The conditions of `Dispatches` as a test, with the way that holds the channel. -/
def dispatchTest (s : State) (acc : Access) (p : Place) (d : DescWords) (way : Ix4) : Bool :=
  decide (s.port.phase = .idle) && decide (rootWordAt s.root.address acc.addr = none)
    && decide (windowPlace s.root.windowBase acc.addr = some p) && decide (s.loader.phase = .ready) && s.present p.tube
    && decide (s.cacheHit p = some way) && decide ((s.cacheEntry p way).words = d) && (s.cacheEntry p way).wKnown
    && decide (s.stepRefusal acc p d = none)

theorem dispatches {s : State} {acc : Access} {p : Place} {d : DescWords} (way : Ix4)
    (h : dispatchTest s acc p d way = true) : Dispatches s acc p d := by
  simp only [dispatchTest, Bool.and_eq_true, decide_eq_true_eq] at h
  obtain ⟨⟨⟨⟨⟨⟨⟨⟨h1, h2⟩, h3⟩, h4⟩, h5⟩, h6⟩, h7⟩, h8⟩, h9⟩ := h
  exact ⟨h1, h2, h3, h4, h5, ⟨way, h6, h7, fun _ => h8⟩, h9⟩

theorem witness_PlainChannelTranslates : plainDesc.kind = some .plain
    ∧ Dispatches part (placeAccess part .operator .read ⟨.i0, 0, 3⟩ 0) ⟨.i0, 0, 3⟩ plainDesc
    ∧ Dispatches part (placeAccess part .operator .write ⟨.i0, 0, 0⟩ 9) ⟨.i0, 0, 0⟩ plainDesc :=
  ⟨rfl, dispatches .i0 (by decide), dispatches .i0 (by decide)⟩

theorem test_plain_channel :
    (after (.plainRead .operator ⟨.i0, 0, 3⟩) part).port.phase = .pass ⟨0x20003, .read, .operator, 0⟩ 0x1003 false
    ∧ (after (.plainWrite .operator ⟨.i0, 0, 0⟩ 9) part).port.phase = .pass ⟨0x20000, .write, .operator, 9⟩ 0x1000 false := by
  decide

theorem witness_ChannelReadByKind :
    Dispatches part (placeAccess part .operator .read ⟨.i0, 1, 0⟩ 0) ⟨.i0, 1, 0⟩ zoneDesc
    ∧ Dispatches part (placeAccess part .operator .read ⟨.i0, 2, 0⟩ 0) ⟨.i0, 2, 0⟩ reactiveDesc
    ∧ Dispatches part (placeAccess part .operator .read ⟨.i0, 4, 0⟩ 0) ⟨.i0, 4, 0⟩ boatDesc
    ∧ Dispatches part (placeAccess part .operator .read ⟨.i0, 5, 0⟩ 0) ⟨.i0, 5, 0⟩ tubeDesc
    ∧ Dispatches part (placeAccess part .operator .read ⟨.i0, 5, 1⟩ 0) ⟨.i0, 5, 1⟩ tubeDesc
    ∧ Dispatches part (placeAccess part .operator .read ⟨.i0, 5, 2⟩ 0) ⟨.i0, 5, 2⟩ tubeDesc
    ∧ Dispatches part (placeAccess part .operator .read ⟨.i0, 5, 6⟩ 0) ⟨.i0, 5, 6⟩ tubeDesc
    ∧ Dispatches part (placeAccess part .operator .read ⟨.i0, 5, 7⟩ 0) ⟨.i0, 5, 7⟩ tubeDesc :=
  ⟨dispatches .i0 (by decide), dispatches .i0 (by decide), dispatches .i1 (by decide), dispatches .i1 (by decide),
    dispatches .i1 (by decide), dispatches .i1 (by decide), dispatches .i1 (by decide), dispatches .i1 (by decide)⟩

theorem test_channel_read :
    (after (.channelRead .operator ⟨.i0, 1, 0⟩) part).port.phase = .pass ⟨0x20040, .read, .operator, 0⟩ 0x2000 false
    ∧ (after (.channelRead .operator ⟨.i0, 5, 0⟩) part).port.answer = .data 0x0020
    ∧ (after (.channelRead .operator ⟨.i0, 5, 6⟩) part).port.answer = .data 4 := by decide

/-! ## Shaped writes -/

/-- A held entry of the boat channel. -/
def heldBoat (ticket : Word) (ch : Six) (state : EntryState) : HeldEntry :=
  ⟨ticket, ch, .boat, 100, 0, none, state, none, some 900, true⟩

/-- A shaped write of `v` to a channel of T0 reaches acceptance. -/
theorem shaped {s : State} {c : AccessClass} {ch : Six} {v : Word} {d : DescWords} (way : Ix4)
    (hk : d.kind = some .zone ∨ d.kind = some .line ∨ d.kind = some .boat) (hm : d.manual = false)
    (h : dispatchTest s (placeAccess s c .write ⟨.i0, ch, 0⟩ v) ⟨.i0, ch, 0⟩ d way = true) :
    ShapedReaches s c ⟨.i0, ch, 0⟩ v d := ⟨hk, hm, dispatches way h⟩

/-- The conditions of `IsQueued` as a test. -/
def queuedTest (s : State) (t : Tube) (d : DescWords) (v : Word) : Bool :=
  !(decide (d.mark = .line (s.tube t).header.purgeLine)
      && ((s.tube t).gas.atmosphere == .purging || (s.tube t).gas.atmosphere == .clearing))
    && inLimits d v && (bypassLine (s.tube t) d v).isNone && (s.tube t).mode.working && !s.monitor.lapsed

theorem bypassLine_none {x : TubeState} {d : DescWords} {v : Word} (h : bypassLine x d v = none) (l : Line) :
    ¬ (d.mark = .line l ∧ v.toNat ≤ (x.gas.lines.get l).flow.toNat) := by
  rintro ⟨h1, h2⟩
  simp [bypassLine, DescWords.line?, h1, h2] at h

theorem inLimits_inRange {d : DescWords} {v : Word} (h : inLimits d v = true) : InRange d v := by
  unfold inLimits at h
  split at h
  · next z hz =>
    simp only [Bool.and_eq_true, decide_eq_true_eq] at h
    exact ⟨h.2, fun _ _ => h.1⟩
  · next hz => exact ⟨by simpa using h, fun z e => absurd e (hz z)⟩

theorem queued {s : State} {t : Tube} {d : DescWords} {v : Word} (h : queuedTest s t d v = true) : IsQueued s t d v := by
  simp only [queuedTest, Bool.and_eq_true, Bool.not_eq_true', Option.isNone_iff_eq_none] at h
  obtain ⟨⟨⟨⟨h1, h2⟩, h3⟩, h4⟩, h5⟩ := h
  refine ⟨?_, inLimits_inRange h2, bypassLine_none h3, h4, fun c => by rw [h5] at c; exact absurd c.2.2 (by decide)⟩
  rintro ⟨a, -, b⟩
  rcases b with b | b <;> simp [a, b] at h1

theorem witness_ShapedWriteIsRefusedInOrder :
    (ShapedReaches (withTube fun x => { x with gas := { x.gas with atmosphere := .purging } }) .operator ⟨.i0, 3, 0⟩ 200
        purgeDesc
      ∧ OwnedLine (withTube fun x => { x with gas := { x.gas with atmosphere := .purging } }) .i0 purgeDesc)
    ∧ (ShapedReaches part .operator ⟨.i0, 1, 0⟩ 99 zoneDesc ∧ ¬ InRange zoneDesc 99 ∧ InRange zoneDesc 100
      ∧ InRange zoneDesc 9000 ∧ ¬ InRange zoneDesc 9001 ∧ ¬ OwnedLine part .i0 zoneDesc)
    ∧ (ShapedReaches (withTube fun x => { x with mode := .aborted }) .operator ⟨.i0, 4, 0⟩ 5 boatDesc
      ∧ ∀ l, ¬ IsBypass part .i0 boatDesc 5 l)
    ∧ (ShapedReaches { part with monitor := { part.monitor with lapsed := true } } .operator ⟨.i0, 2, 0⟩ 1 reactiveDesc
      ∧ (∀ l, ¬ IsBypass part .i0 reactiveDesc 1 l) ∧ reactiveDesc.mark = .line .i0 ∧ reactiveDesc.reactive = true) := by
  refine ⟨⟨shaped .i0 (by decide) rfl (by decide), by decide, by decide, .inl (by decide)⟩,
    ⟨shaped .i0 (by decide) rfl (by decide), fun h => absurd (h.2 .i0 (by decide)) (by decide),
      inLimits_inRange (by decide), inLimits_inRange (by decide), fun h => absurd h.1 (by decide),
      fun h => absurd h.1 (by decide)⟩,
    ⟨shaped .i1 (by decide) rfl (by decide), bypassLine_none (by decide)⟩,
    ⟨shaped .i0 (by decide) rfl (by decide), bypassLine_none (by decide), by decide, by decide⟩⟩

theorem test_shaped_write_refused :
    (after (.shapedWrite .operator ⟨.i0, 1, 0⟩ 99) part).notices.buffer.map (·.code) = [42]
    ∧ ((after (.shapedWrite .operator ⟨.i0, 1, 0⟩ 99) part).tube .i0)
      = { tube with summary := { Summary.clear with refusedAny := true } } := by decide

theorem witness_BypassWriteIsDeliveredAtOnce :
    ShapedReaches part .operator ⟨.i0, 3, 0⟩ 200 purgeDesc ∧ ShapedReaches part .operator ⟨.i0, 3, 0⟩ 0 purgeDesc
    ∧ ¬ OwnedLine part .i0 purgeDesc ∧ InRange purgeDesc 200 ∧ IsBypass part .i0 purgeDesc 200 .i1
    ∧ IsBypass part .i0 purgeDesc 0 .i1 ∧ DeliveryOk part.delivery ∧ (part.tube .i0).queue = []
    ∧ (part.tube .i0).gas.run = none ∧ part.budget.claims = []
    ∧ (let s := withTube fun x => { x with gas := { x.gas with
          atmosphere := .process
          lines := { lines with a0 := { lines.a0 with flow := 300 } } } }
      ShapedReaches s .operator ⟨.i0, 2, 0⟩ 0 reactiveDesc ∧ IsBypass s .i0 reactiveDesc 0 .i0
        ∧ (s.tube .i0).gas.atmosphere = .process ∧ ((s.tube .i0).gas.lines.get .i0).reactive = true) :=
  ⟨shaped .i0 (by decide) rfl (by decide), shaped .i0 (by decide) rfl (by decide),
    fun h => absurd h.2.2 (by decide), inLimits_inRange (by decide), ⟨by decide, by decide⟩, ⟨by decide, by decide⟩,
    ⟨by decide, by decide⟩, by decide, by decide, by decide,
    ⟨shaped .i0 (by decide) rfl (by decide), ⟨by decide, by decide⟩, by decide, by decide⟩⟩

theorem test_bypass_write :
    ((after (.shapedWrite .operator ⟨.i0, 3, 0⟩ 50) part).tube .i0).gas.lines.a1.flow = 50
    ∧ ((after (.shapedWrite .operator ⟨.i0, 3, 0⟩ 50) part).tube .i0).lastReleased = 5
    ∧ (after (.shapedWrite .operator ⟨.i0, 3, 0⟩ 50) part).underway 0x2011 = some 50 := by decide

/-- `part` with T0 in HOLD or RUN and `n` entries held, of channels 10, 11, … -/
def holding (mode : Mode) (n : Nat) : State :=
  withTube fun x => { x with
    mode := mode
    queue := (List.range n).map fun i => heldBoat (wordOf i) (sixOf (10 + i)) .waiting }

theorem witness_QueuedWriteIsHeld :
    ShapedReaches (holding .run 1) .operator ⟨.i0, 4, 0⟩ 500 boatDesc ∧ IsQueued (holding .run 1) .i0 boatDesc 500
    ∧ ShapedReaches (holding .run 7) .operator ⟨.i0, 4, 0⟩ 500 boatDesc ∧ IsQueued (holding .run 7) .i0 boatDesc 500
    ∧ (∀ f ∈ ((holding .run 7).tube .i0).queue, f.channel ≠ 4)
    ∧ ((holding .run 7).tube .i0).queue.length < 8
    ∧ (let s := withTube fun x => { x with queue := [heldBoat 1 10 .waiting, heldBoat 2 4 .waiting] }
      ShapedReaches s .operator ⟨.i0, 4, 0⟩ 500 boatDesc ∧ IsQueued s .i0 boatDesc 500
        ∧ (s.tube .i0).queue = [heldBoat 1 10 .waiting] ++ heldBoat 2 4 .waiting :: [])
    ∧ ShapedReaches (holding .hold 0) .operator ⟨.i0, 4, 0⟩ 500 boatDesc ∧ IsQueued (holding .hold 0) .i0 boatDesc 500
    ∧ ((holding .hold 0).tube .i0).queue = []
    ∧ (holding .hold 0).firstFailure .i0 (newEntry ⟨.i0, 4, 0⟩ boatDesc 5 500 0) = some .mode :=
  ⟨shaped .i1 (by decide) rfl (by decide), queued (by decide), shaped .i1 (by decide) rfl (by decide), queued (by decide),
    by decide, by decide, ⟨shaped .i1 (by decide) rfl (by decide), queued (by decide), by decide⟩,
    shaped .i1 (by decide) rfl (by decide), queued (by decide), by decide, by decide⟩

theorem test_queued_write_held :
    (((after (.shapedWrite .operator ⟨.i0, 4, 0⟩ 500) (holding .hold 0)).tube .i0).queue.map (·.deadline)) = [some 1000]
    ∧ (after (.shapedWrite .operator ⟨.i0, 4, 0⟩ 500) (holding .run 7)).notices.buffer.map (·.extra) = [7]
    ∧ ((after (.shapedWrite .operator ⟨.i0, 4, 0⟩ 500) (holding .run 7)).tube .i0).queue.length = 8 := by decide

/-- The entry a write of `v` to the channel of `d` becomes. -/
def entryOf (channel : Six) (d : DescWords) (v : Word) : HeldEntry := newEntry ⟨.i0, channel, 0⟩ d 5 v 0

/-- `part` with the ring throttle acting, or not, at a reserve of `n`. -/
def reserving (n : Nat) : State := { part with notices := { part.notices with ringEnable := true, reserve := n } }

/-- `part` with the scrubber throttle on. -/
def inhibiting : State := { part with budget := { part.budget with enable := true, throttle := true } }

/-- T0 in RUN with its ramp still settling and the entries `q` held. -/
def unsettled (q : List HeldEntry) : State := withTube fun x => { x with
  queue := q, ramp := { x.ramp with thermal := .settling } }

/-- The release tests at the boundaries of their clauses: each fails or holds as R36 and R54 say. -/
theorem test_release_tests :
    (holding .hold 0).firstFailure .i0 (entryOf 4 boatDesc 2000) = some .mode
    ∧ (withTube fun x => { x with gapTimer := some 0 }).firstFailure .i0 (entryOf 4 boatDesc 2000) = some .gap
    ∧ (reserving 16).firstFailure .i0 (entryOf 4 boatDesc 2000) = some .throttle
    ∧ (reserving 15).firstFailure .i0 (entryOf 4 boatDesc 2000) = none
    ∧ { part with
        notices := { part.notices with staleEnable := true }
        scanner := { part.scanner with stale := true } }.firstFailure .i0 (entryOf 4 boatDesc 2000) = some .throttle
    ∧ (unsettled []).firstFailure .i0 (entryOf 4 boatDesc 2001) = some .gate
    ∧ (unsettled []).firstFailure .i0 (entryOf 4 boatDesc 1999) = some .gate
    ∧ (unsettled []).firstFailure .i0 (entryOf 4 boatDesc 2000) = none
    ∧ (unsettled []).firstFailure .i0 (entryOf 2 reactiveDesc 1000) = some .gate
    ∧ (unsettled []).firstFailure .i0 (entryOf 1 zoneDesc 1200) = none
    ∧ inhibiting.firstFailure .i0 (entryOf 2 reactiveDesc 1000) = some .inhibit
    ∧ inhibiting.firstFailure .i0 (entryOf 3 purgeDesc 1000) = none
    ∧ (withTube fun x => { x with gas := { x.gas with atmosphere := .purging } }).firstFailure .i0
        (entryOf 3 purgeDesc 1000) = some .gate := by decide

theorem test_needed_claims : neededClaim tube (entryOf 1 zoneDesc 1001) = some (.heat, 1)
    ∧ neededClaim tube (entryOf 1 zoneDesc 1000) = none
    ∧ neededClaim { tube with ramp := { ramp with slotHeld := true } } (entryOf 1 zoneDesc 1001) = none
    ∧ neededClaim tube (entryOf 2 reactiveDesc 1000) = some (.exhaust, 10)
    ∧ neededClaim tube (entryOf 3 purgeDesc 200) = none ∧ neededClaim tube (entryOf 3 purgeDesc 201) = some (.exhaust, 1)
    ∧ neededClaim tube (entryOf 4 boatDesc 3000) = none := by decide

/-- `part` with an exhaust capacity of 11 units, 9 of them free. -/
def crowded : State := { part with budget := { part.budget with capacity := 11 } }

/-- T0 in RUN whose head, a CLAIMING entry of channel 4, has the only claim. -/
def claimingHead : State :=
  let s := unsettled [heldBoat 2 4 .claiming]
  { s with budget := { s.budget with claims := [⟨.i0, .heat, 1, .process, 0, .entry 2 4, false⟩] } }

theorem witness_HeadClaimsOrIsSuperseded :
    (ShapedReaches crowded .operator ⟨.i0, 2, 0⟩ 1000 reactiveDesc ∧ IsQueued crowded .i0 reactiveDesc 1000
      ∧ ((crowded.tube .i0).queue = [] ∧ crowded.firstFailure .i0 (entryOf 2 reactiveDesc 1000) = none
        ∧ neededClaim (crowded.tube .i0) (entryOf 2 reactiveDesc 1000) = some (.exhaust, 10)
        ∧ crowded.budget.claims = [] ∧ crowded.freeOf .exhaust = 9)
      ∧ ∀ q front, { crowded.budget with
          claims := [⟨.i0, .exhaust, 10, .process, 0, .entry 5 2, true⟩], joinCounter := 1 }.front q = some front →
          crowded.freeOf q < front.amount)
    ∧ (ShapedReaches (unsettled [heldBoat 2 4 .waiting]) .operator ⟨.i0, 4, 0⟩ 500 boatDesc
      ∧ IsQueued (unsettled [heldBoat 2 4 .waiting]) .i0 boatDesc 500
      ∧ (unsettled [heldBoat 2 4 .waiting]).firstFailure .i0 (entryOf 4 boatDesc 500) = some .gate)
    ∧ (ShapedReaches claimingHead .operator ⟨.i0, 4, 0⟩ 500 boatDesc ∧ IsQueued claimingHead .i0 boatDesc 500
      ∧ (claimingHead.tube .i0).queue = [heldBoat 2 4 .claiming]
      ∧ claimingHead.firstFailure .i0 (entryOf 4 boatDesc 500) = some .gate)
    ∧ (ShapedReaches (unsettled [heldBoat 2 4 .waiting, heldBoat 3 5 .waiting]) .operator ⟨.i0, 4, 0⟩ 500 boatDesc
      ∧ IsQueued (unsettled [heldBoat 2 4 .waiting, heldBoat 3 5 .waiting]) .i0 boatDesc 500
      ∧ (unsettled []).firstFailure .i0 (heldBoat 3 5 .waiting) = some .gate
      ∧ (unsettled []).firstFailure .i0 { heldBoat 3 5 .waiting with value := 2000 } = none
      ∧ ((unsettled []).tube .i0).boat.delivered = 2000 ∧ ((unsettled []).tube .i0).boat.state ≠ .moving)
    ∧ (ShapedReaches (unsettled [heldBoat 2 4 .waiting, { heldBoat 3 5 .waiting with value := 2000 }]) .operator
        ⟨.i0, 4, 0⟩ 500 boatDesc
      ∧ IsQueued (unsettled [heldBoat 2 4 .waiting, { heldBoat 3 5 .waiting with value := 2000 }]) .i0 boatDesc 500) := by
  refine ⟨⟨shaped .i0 (by decide) rfl (by decide), queued (by decide), by decide, ?_⟩,
    ⟨shaped .i1 (by decide) rfl (by decide), queued (by decide), by decide⟩,
    ⟨shaped .i1 (by decide) rfl (by decide), queued (by decide), by decide, by decide⟩,
    ⟨shaped .i1 (by decide) rfl (by decide), queued (by decide), by decide⟩,
    ⟨shaped .i1 (by decide) rfl (by decide), queued (by decide)⟩⟩
  intro q front h
  cases q with
  | exhaust => cases h; decide
  | heat => cases h

theorem test_head_claims_or_is_superseded :
    (after (.shapedWrite .operator ⟨.i0, 2, 0⟩ 1000) crowded).notices.buffer.map (·.kind) = [.held, .claimWait]
    ∧ ((after (.shapedWrite .operator ⟨.i0, 2, 0⟩ 1000) crowded).tube .i0).queue.map (·.state) = [.claiming]
    ∧ (after (.shapedWrite .operator ⟨.i0, 4, 0⟩ 500) claimingHead).budget.claims = []
    ∧ (after (.shapedWrite .operator ⟨.i0, 4, 0⟩ 500) claimingHead).notices.buffer.map (·.kind) = [.superseded, .held]
    ∧ (after (.shapedWrite .operator ⟨.i0, 4, 0⟩ 500)
        (unsettled [heldBoat 2 4 .waiting, { heldBoat 3 5 .waiting with value := 2000 }])).notices.buffer.map (·.kind)
      = [.superseded, .released, .done, .held] := by decide

/-- T0 in RUN with a stalled boat. -/
def stalled : State := withTube fun x => { x with boat := { x.boat with state := .stalled } }

theorem witness_QueuedWriteIsReleasedAtOnce :
    ShapedReaches part .operator ⟨.i0, 4, 0⟩ 3000 boatDesc ∧ IsQueued part .i0 boatDesc 3000
    ∧ (part.tube .i0).queue = []
    ∧ part.firstFailure .i0 (newEntry ⟨.i0, 4, 0⟩ boatDesc 5 3000 0) = none
    ∧ neededClaim (part.tube .i0) (newEntry ⟨.i0, 4, 0⟩ boatDesc 5 3000 0) = none
    ∧ (ShapedReaches part .operator ⟨.i0, 1, 0⟩ 1200 zoneDesc ∧ IsQueued part .i0 zoneDesc 1200
      ∧ part.firstFailure .i0 (newEntry ⟨.i0, 1, 0⟩ zoneDesc 5 1200 0) = none
      ∧ neededClaim (part.tube .i0) (newEntry ⟨.i0, 1, 0⟩ zoneDesc 5 1200 0) = some (.heat, 1)
      ∧ part.freeOf .heat = 1 ∧ directionOf (withTarget ramp.zones .i0 1200) = .up)
    ∧ (ShapedReaches part .operator ⟨.i0, 2, 0⟩ 1000 reactiveDesc ∧ IsQueued part .i0 reactiveDesc 1000
      ∧ part.firstFailure .i0 (newEntry ⟨.i0, 2, 0⟩ reactiveDesc 5 1000 0) = none
      ∧ neededClaim (part.tube .i0) (newEntry ⟨.i0, 2, 0⟩ reactiveDesc 5 1000 0) = some (.exhaust, 10)
      ∧ part.freeOf .exhaust = 28 ∧ reactiveDesc.weight = (gas.lines.get .i0).weight)
    ∧ (ShapedReaches stalled .operator ⟨.i0, 4, 0⟩ 1999 boatDesc ∧ IsQueued stalled .i0 boatDesc 1999
      ∧ (stalled.tube .i0).boat.state = .stalled ∧ (1999 : Word) ≠ (stalled.tube .i0).boat.delivered
      ∧ stalled.firstFailure .i0 (newEntry ⟨.i0, 4, 0⟩ boatDesc 5 1999 0) = none) :=
  ⟨shaped .i1 (by decide) rfl (by decide), queued (by decide), by decide, by decide, by decide,
    ⟨shaped .i0 (by decide) rfl (by decide), queued (by decide), by decide, by decide, by decide, by decide⟩,
    ⟨shaped .i0 (by decide) rfl (by decide), queued (by decide), by decide, by decide, by decide, by decide⟩,
    ⟨shaped .i1 (by decide) rfl (by decide), queued (by decide), by decide, by decide, by decide⟩⟩

/-- R52: a STALLED boat stays STALLED through a release, differing or equal. -/
theorem test_stalled_boat_stays :
    ((after (.shapedWrite .operator ⟨.i0, 4, 0⟩ 1999) stalled).tube .i0).boat.state = .stalled
    ∧ ((after (.shapedWrite .operator ⟨.i0, 4, 0⟩ 1999) stalled).tube .i0).boat.target = 1999
    ∧ ((after (.shapedWrite .operator ⟨.i0, 4, 0⟩ 2000) stalled).tube .i0).boat.state = .stalled
    ∧ ((after (.shapedWrite .operator ⟨.i0, 4, 0⟩ 2000) stalled).tube .i0).summary.boatArrived = true := by decide

theorem test_queued_write_released :
    ((after (.shapedWrite .operator ⟨.i0, 4, 0⟩ 3000) part).tube .i0).boat.direction = .inward
    ∧ ((after (.shapedWrite .operator ⟨.i0, 1, 0⟩ 1200) part).tube .i0).ramp.slotHeld = true
    ∧ ((after (.shapedWrite .operator ⟨.i0, 2, 0⟩ 1000) part).tube .i0).gas.atmosphere = .process
    ∧ ((after (.shapedWrite .operator ⟨.i0, 2, 0⟩ 1000) part).tube .i0).gapTimer = some 100 := by decide

/-- T0 with a full queue, channel 4 at its head. -/
def holdingOwn : State := withTube fun x => { x with
  queue := (List.range 8).map fun i => heldBoat (wordOf i) (sixOf (4 + i)) .waiting }

theorem witness_FullQueueRefusesTheWrite :
    (ShapedReaches (holding .run 8) .operator ⟨.i0, 4, 0⟩ 500 boatDesc ∧ IsQueued (holding .run 8) .i0 boatDesc 500
      ∧ 8 ≤ ((holding .run 8).tube .i0).queue.length ∧ (∀ f ∈ ((holding .run 8).tube .i0).queue, f.channel ≠ 4))
    ∧ ShapedReaches holdingOwn .operator ⟨.i0, 4, 0⟩ 500 boatDesc ∧ IsQueued holdingOwn .i0 boatDesc 500
    ∧ (holdingOwn.tube .i0).queue.length = 8 ∧ (∃ f ∈ (holdingOwn.tube .i0).queue, f.channel = 4) :=
  ⟨⟨shaped .i1 (by decide) rfl (by decide), queued (by decide), by decide, by decide⟩,
    shaped .i1 (by decide) rfl (by decide), queued (by decide), by decide, by decide⟩

theorem test_full_queue_own : (after (.shapedWrite .operator ⟨.i0, 4, 0⟩ 500) holdingOwn).port.answer = .acknowledge
    ∧ ((after (.shapedWrite .operator ⟨.i0, 4, 0⟩ 500) holdingOwn).tube .i0).lastIssued = 5 := by decide

theorem test_full_queue :
    ((after (.shapedWrite .operator ⟨.i0, 4, 0⟩ 500) (holding .run 8)).tube .i0).nextTicket = 6
    ∧ (after (.shapedWrite .operator ⟨.i0, 4, 0⟩ 500) (holding .run 8)).notices.buffer.map (·.ticket) = [5] := by decide

/-- T0 in HOLD with the release gap running. -/
def gapping (mode : Mode) : State := withTube fun x => { x with mode := mode, gapTimer := some 40 }

theorem witness_QueueTimersExpire :
    ((holding .hold 3).tube .i0).entryOf 2 = some (heldBoat 2 12 .waiting) ∧ (heldBoat 2 12 .waiting).timer = some 900
    ∧ (heldBoat 2 12 .waiting).state = .waiting ∧ ((holding .hold 3).tube .i0).mode ≠ .run
    ∧ ((gapping .hold).tube .i0).gapTimer = some 40 ∧ ((gapping .run).tube .i0).queue = [] := by decide

theorem test_entry_expiry : ((after (.entryExpiry .i0 2) (holding .hold 3)).tube .i0).queue.map (·.ticket) = [0, 1]
    ∧ (after (.entryExpiry .i0 2) (holding .hold 3)).notices.buffer.map (·.extra) = [2]
    ∧ (after (.entryExpiry .i0 2) (holding .hold 3)).clock = 900 := by decide

theorem test_release_gap_expiry : ((after (.releaseGapExpiry .i0) (gapping .run)).tube .i0).gapTimer = none
    ∧ (after (.releaseGapExpiry .i0) (gapping .run)).clock = 40 := by decide

/-! ## The MANUAL path -/

/-- T0 in ABORTED with lines 0 and 1 and the boat MANUAL as well. -/
def manualLine : DescWords := { purgeDesc with w0 := 0x01A3 }
def manualBoat : DescWords := { boatDesc with w0 := 0x0024 }

def manualPart : State :=
  { (withTube fun x => { x with mode := .aborted }) with
    cache := ⟨⟨cached 0 plainDesc, cached 4 manualBoat, CacheEntry.empty, CacheEntry.empty⟩, cache.a1, cache.a2,
      ⟨cached 3 manualLine, CacheEntry.empty, CacheEntry.empty, CacheEntry.empty⟩⟩ }

theorem witness_ManualWriteIsRefusedInOrder :
    (manualDesc.manual = true ∧ manualDesc.kind = some .zone ∧ (part.tube .i0).mode ≠ .aborted
      ∧ Dispatches part (placeAccess part .service .write ⟨.i0, 6, 0⟩ 5) ⟨.i0, 6, 0⟩ manualDesc)
    ∧ (Dispatches manualPart (placeAccess manualPart .service .write ⟨.i0, 6, 0⟩ 9001) ⟨.i0, 6, 0⟩ manualDesc
      ∧ ¬ InRange manualDesc 9001 ∧ InRange manualDesc 9000 ∧ (manualPart.tube .i0).mode = .aborted)
    ∧ (let s := { manualPart with budget := { part.budget with capacity := 19 } }
      Dispatches s (placeAccess s .service .write ⟨.i0, 3, 0⟩ 2000) ⟨.i0, 3, 0⟩ manualLine ∧ InRange manualLine 2000
        ∧ manualLine.mark = .line .i1 ∧ addedDraw 2000 200 manualLine.weight = 18 ∧ s.freeUnits = 17) :=
  ⟨⟨by decide, by decide, by decide, dispatches .i1 (by decide)⟩,
    ⟨dispatches .i1 (by decide), fun h => absurd h.1 (by decide), inLimits_inRange (by decide), by decide⟩,
    ⟨dispatches .i0 (by decide), inLimits_inRange (by decide), by decide, by decide, by decide⟩⟩

theorem test_manual_refused : (after (.manualWrite .operator ⟨.i0, 6, 0⟩ 5) manualPart).notices.buffer.map (·.code) = [51]
    ∧ (after (.manualWrite .service ⟨.i0, 6, 0⟩ 9001) manualPart).notices.buffer.map (·.code) = [42] := by decide

theorem witness_ManualWriteIsApplied :
    (Dispatches manualPart (placeAccess manualPart .service .write ⟨.i0, 6, 0⟩ 9000) ⟨.i0, 6, 0⟩ manualDesc
      ∧ manualDesc.mark = .zone .i1 ∧ InRange manualDesc 9000 ∧ DeliveryOk manualPart.delivery
      ∧ manualPart.budget.claims = [] ∧ (manualPart.tube .i0).ramp.thermal = .stable)
    ∧ (Dispatches manualPart (placeAccess manualPart .service .write ⟨.i0, 4, 0⟩ 5000) ⟨.i0, 4, 0⟩ manualBoat
      ∧ manualBoat.mark = .boat ∧ InRange manualBoat 5000)
    ∧ (Dispatches manualPart (placeAccess manualPart .service .write ⟨.i0, 3, 0⟩ 200) ⟨.i0, 3, 0⟩ manualLine
      ∧ Dispatches manualPart (placeAccess manualPart .service .write ⟨.i0, 3, 0⟩ 2000) ⟨.i0, 3, 0⟩ manualLine
      ∧ addedDraw 2000 200 manualLine.weight ≤ manualPart.freeUnits) :=
  ⟨⟨dispatches .i1 (by decide), by decide, inLimits_inRange (by decide), ⟨by decide, by decide⟩, by decide, by decide⟩,
    ⟨dispatches .i1 (by decide), by decide, inLimits_inRange (by decide)⟩,
    ⟨dispatches .i0 (by decide), dispatches .i0 (by decide), by decide⟩⟩

theorem test_manual_applied :
    ((after (.manualWrite .service ⟨.i0, 6, 0⟩ 9000) manualPart).tube .i0).ramp.zones.a1 = ⟨true, 9000, 9000, 50⟩
    ∧ ((after (.manualWrite .service ⟨.i0, 4, 0⟩ 999) manualPart).tube .i0).boat.state = .partialPos
    ∧ ((after (.manualWrite .service ⟨.i0, 3, 0⟩ 2000) manualPart).tube .i0).gas.lines.a1.flow = 2000 := by decide

/-! ## Tube Control -/

/-- A command of T0 reaches Tube Control in `s`. -/
theorem commands {s : State} {c : AccessClass} {v : Word}
    (h : dispatchTest s (placeAccess s c .write ⟨.i0, 5, 0⟩ v) ⟨.i0, 5, 0⟩ tubeDesc .i1 = true) :
    CommandReaches s c .i0 5 v := ⟨tubeDesc, by decide, dispatches .i1 h⟩

/-- A read of TUBE word `n` of T0 reaches Tube Control in `s`. -/
theorem reads {s : State} {c : AccessClass} {n : Six}
    (h : dispatchTest s (placeAccess s c .read ⟨.i0, 5, n⟩ 0) ⟨.i0, 5, n⟩ tubeDesc .i1 = true) :
    TubeReadReaches s c .i0 5 n := ⟨tubeDesc, by decide, dispatches .i1 h⟩

def moded (m : Mode) : State := withTube fun x => { x with mode := m }

theorem witness_PurgeStartsARun : CommandReaches part .operator .i0 5 1 ∧ (part.tube .i0).mode.working = true
    ∧ (part.tube .i0).gas.atmosphere = .inert
    ∧ drawOf header.purgeFlow.toNat lines.a1.weight - lines.a1.draw = 8 ∧ part.freeUnits = 28
    ∧ CommandReaches { part with budget := { part.budget with capacity := 9 } } .operator .i0 5 1
    ∧ State.freeUnits { part with budget := { part.budget with capacity := 9 } } = 7
    ∧ CommandReaches (moded .aborted) .operator .i0 5 1 ∧ ((moded .aborted).tube .i0).mode.working = false :=
  ⟨commands (by decide), by decide, by decide, by decide, by decide, commands (by decide), by decide,
    commands (by decide), by decide⟩

theorem test_tube_purge : ((after (.tubePurge .operator .i0 5) part).tube .i0).gas.lines.a1.flow = 1000
    ∧ ((after (.tubePurge .operator .i0 5) part).tube .i0).gas.limitTimer = some 60000
    ∧ (after (.tubePurge .operator .i0 5) { part with budget := { part.budget with capacity := 9 } }).notices.buffer.map
      (·.kind) = [.claimWait] := by decide

/-- T0 ramping up with the boat moving. -/
def moving : State := withTube fun x => { x with
  ramp := { x.ramp with
            thermal := .ramping
            direction := .up
            stepTimer := some 300
            slotHeld := true
            zones := { x.ramp.zones with a0 := ⟨true, 1120, 1000, 50⟩ } }
  boat := { x.boat with
            target := 3000
            state := .moving
            direction := .inward
            motionTimer := some 100 } }

/-- The same tube in HOLD. -/
def paused : State := after (.tubeHold .operator .i0 5) moving

theorem witness_HoldStopsRampAndBoat : CommandReaches moving .operator .i0 5 2 ∧ (moving.tube .i0).mode = .run
    ∧ CommandReaches (moded .hold) .operator .i0 5 2 ∧ CommandReaches (moded .aborting) .operator .i0 5 2
    ∧ CommandReaches (moded .aborted) .operator .i0 5 2 ∧ ((moded .hold).tube .i0).mode = .hold :=
  ⟨commands (by decide), by decide, commands (by decide), commands (by decide), commands (by decide), by decide⟩

theorem test_tube_hold : (paused.tube .i0).ramp.cause = .hold ∧ (paused.tube .i0).boat.state = .paused
    ∧ (paused.tube .i0).ramp.slotHeld = true
    ∧ (after (.tubeHold .operator .i0 5) (moded .aborted)).port.answer = .errorAcknowledge := by decide

/-- T0 in ABORTED with a frozen ramp and a stalled boat. -/
def frozen : State := withTube fun x => { x with
  mode := .aborted
  ramp := { x.ramp with thermal := .held, cause := .abort }
  boat := { x.boat with state := .stalled, stall := 3 } }

theorem witness_ResumeRestartsTheTube : CommandReaches paused .operator .i0 5 3 ∧ (paused.tube .i0).mode = .hold
    ∧ (paused.tube .i0).queue = [] ∧ CommandReaches frozen .operator .i0 5 3 ∧ frozen.abort.latch = false
    ∧ (frozen.tube .i0).ramp.cause = .abort ∧ (frozen.tube .i0).boat.state = .stalled
    ∧ CommandReaches { frozen with abort := tripped.abort } .operator .i0 5 3 ∧ tripped.abort.latch = true
    ∧ CommandReaches (moded .aborting) .operator .i0 5 3 ∧ CommandReaches part .operator .i0 5 3
    ∧ CommandReaches (moded .aborted) .operator .i0 5 3 ∧ ((moded .aborted).tube .i0).boat.state.stationary = true :=
  ⟨commands (by decide), by decide, by decide, commands (by decide), by decide, by decide, by decide,
    commands (by decide), by decide, commands (by decide), commands (by decide), commands (by decide), by decide⟩

theorem test_tube_resume : ((after (.tubeResume .operator .i0 5) paused).tube .i0).boat.motionTimer = some 500
    ∧ ((after (.tubeResume .operator .i0 5) frozen).tube .i0).boat.state = .inPos
    ∧ ((after (.tubeResume .operator .i0 5) frozen).tube .i0).ramp.thermal = .settling
    ∧ (after (.tubeResume .operator .i0 5) { frozen with abort := tripped.abort }).notices.buffer.map (·.code) = [49] := by
  decide

theorem witness_AbortCommandHandsOverARequest : CommandReaches part .operator .i0 5 4
    ∧ CommandReaches (moded .aborted) .service .i0 5 4 := ⟨commands (by decide), commands (by decide)⟩

theorem test_tube_abort : (after (.tubeAbort .operator .i0 5) part).abort.requests = [⟨.i0, .command, some 5, 5, 0⟩] := by
  decide

def boatOut : State := withTube fun x => { x with boat := { x.boat with state := .outPos, target := 0, delivered := 0 } }

theorem witness_VentClosesEveryLine : CommandReaches boatOut .operator .i0 5 5 ∧ (boatOut.tube .i0).boat.state = .outPos
    ∧ (boatOut.tube .i0).gas.atmosphere = .inert ∧ (boatOut.tube .i0).queue = [] ∧ (boatOut.tube .i0).gas.run = none
    ∧ CommandReaches part .operator .i0 5 5 ∧ (part.tube .i0).boat.state ≠ .outPos :=
  ⟨commands (by decide), by decide, by decide, by decide, by decide, commands (by decide), by decide⟩

theorem test_tube_vent : ((after (.tubeVent .operator .i0 5) boatOut).tube .i0).gas.atmosphere = .air
    ∧ ((after (.tubeVent .operator .i0 5) boatOut).tube .i0).gas.lines.a1.flow = 0
    ∧ (after (.tubeVent .operator .i0 5) boatOut).delivery = []
    ∧ (after (.tubeVent .operator .i0 5) boatOut).bus.inFlight = some ⟨.deliver, 0x2011, some 0, false⟩ := by decide

theorem witness_FlushAndUnknownCommands : CommandReaches (holding .hold 8) .operator .i0 5 6
    ∧ ((holding .hold 8).tube .i0).mode.working = true ∧ (∀ e ∈ ((holding .hold 8).tube .i0).queue, e.state = .waiting)
    ∧ CommandReaches (moded .aborted) .operator .i0 5 6 ∧ CommandReaches part .operator .i0 5 0
    ∧ CommandReaches part .operator .i0 5 7 :=
  ⟨commands (by decide), by decide, by decide, commands (by decide), commands (by decide), commands (by decide)⟩

theorem test_tube_flush : ((after (.tubeFlush .operator .i0 5) (holding .hold 8)).tube .i0).queue = []
    ∧ (after (.tubeFlush .operator .i0 5) (holding .hold 8)).notices.buffer.map (·.extra) = [0, 1, 2, 3, 4, 5, 6, 7] := by
  decide

theorem test_tube_command_unknown :
    (after (.tubeCommandUnknown .operator .i0 5 7) part).notices.buffer.map (·.code) = [47] := by decide

/-- T0 with an accumulator of 00012345H, all flags set, and its read latch empty or held. -/
def latched (held : Bool) : State := withTube fun x => { x with
  gas := { x.gas with accumulator := 0x00012345 }
  summary := ⟨true, true, true, true, true, true, true⟩
  latchHeld := held
  latchValue := if held then 0x00A00B00 else 0 }

theorem witness_SummaryAndLatchReads : TubeReadReaches (latched false) .operator .i0 5 3
    ∧ TubeReadReaches (latched false) .operator .i0 5 4 ∧ TubeReadReaches (latched true) .operator .i0 5 4
    ∧ TubeReadReaches (latched false) .operator .i0 5 5 ∧ TubeReadReaches (latched true) .operator .i0 5 5 :=
  ⟨reads (by decide), reads (by decide), reads (by decide), reads (by decide), reads (by decide)⟩

theorem test_summary_read : (after (.summaryRead .operator .i0 5) (latched false)).port.answer = .data 0x7F
    ∧ ((after (.summaryRead .operator .i0 5) (latched false)).tube .i0).summary = Summary.clear := by decide

theorem test_purge_latch_low_read : (after (.purgeLatchLowRead .operator .i0 5) (latched false)).port.answer = .data 0x2345
    ∧ (after (.purgeLatchLowRead .operator .i0 5) (latched true)).port.answer = .data 0x0B00 := by decide

theorem test_purge_latch_high_read : (after (.purgeLatchHighRead .operator .i0 5) (latched false)).port.answer = .data 1
    ∧ (after (.purgeLatchHighRead .operator .i0 5) (latched true)).port.answer = .data 0x00A0 := by decide

/-! ## Expiries -/

/-- `s` with zone 0 of T0 measured at `v`. -/
def measuring (s : State) (v : Word) : State := { s with measured := s.measured.sample (.zone .i0 .i0) v }

theorem witness_StepExpiryMovesTheZones : (moving.tube .i0).ramp.stepTimer = some 300 ∧ (moving.tube .i0).queue = []
    ∧ header.lagLimit < distance 949 1000 ∧ ¬ header.lagLimit < distance 950 1000
    ∧ ((measuring moving 949).zoneSample .i0 .i0).sampled = true ∧ ((moving.tube .i0).ramp.zones.get .i0).bound = true
    ∧ ((moving.tube .i0).ramp.zones.get .i0).delivered ≠ ((moving.tube .i0).ramp.zones.get .i0).target
    ∧ directionOf { ramp.zones with a0 := ⟨true, 1120, 1050, 50⟩ } = .up
    ∧ directionOf { ramp.zones with a0 := ⟨true, 1000, 1050, 50⟩ } = .down ∧ directionOf ramp.zones = .none := by decide

theorem test_step_expiry : ((after (.stepExpiry .i0) moving).tube .i0).ramp.zones.a0.delivered = 1050
    ∧ ((after (.stepExpiry .i0) moving).tube .i0).ramp.stepTimer = some 1000
    ∧ ((after (.stepExpiry .i0) (measuring moving 949)).tube .i0).ramp.cause = .lag
    ∧ ((after (.stepExpiry .i0) (measuring moving 950)).tube .i0).ramp.zones.a0.delivered = 1050 := by decide

/-- T0 settling after `n` failed checks. -/
def settling (n : Nat) : State := withTube fun x => { x with
  ramp := { x.ramp with thermal := .settling, settleTimer := some 7, retry := n } }

theorem witness_SettleExpiryJudgesTheWindow : ((settling 2).tube .i0).ramp.settleTimer = some 7
    ∧ ((settling 2).tube .i0).queue = [] ∧ ¬ header.settleWindow < distance 1020 1000
    ∧ header.settleWindow < distance 1021 1000 ∧ ((measuring (settling 2) 1021).zoneSample .i0 .i0).sampled = true
    ∧ ((settling 2).tube .i0).ramp.retry + 1 = header.settleRetryLimit := by decide

theorem test_settle_expiry : ((after (.settleExpiry .i0) (measuring (settling 2) 1020)).tube .i0).ramp.thermal = .stable
    ∧ (after (.settleExpiry .i0) (measuring (settling 2) 1020)).notices.buffer.map (·.value) = [2]
    ∧ (after (.settleExpiry .i0) (measuring (settling 2) 1021)).notices.buffer.map (·.kind) = [.settleSlow]
    ∧ ((after (.settleExpiry .i0) (measuring (settling 255) 1021)).tube .i0).ramp.retry = 255 := by decide

/-- `moving` with the boat `gap` short of its target, `stall` failed checks, and the boat measured at `m`. -/
def boating (gap stall : Nat) (m : Option Word) : State :=
  let s := moving.modBoat .i0 fun b => { b with delivered := 3000 - wordOf gap, stall := stall }
  match m with
  | none => s
  | some v => { s with measured := s.measured.sample (.boat .i0) v }

theorem witness_MotionExpiryMovesTheBoat : ((boating 300 0 none).tube .i0).boat.motionTimer = some 100
    ∧ DeliveryOk (boating 300 0 none).delivery ∧ ((boating 300 0 none).tube .i0).queue = []
    ∧ (1000 ≤ header.bandBound.get .i0 ∧ 8000 ≤ header.bandBound.get .i0 ∧ header.bandBound.get .i0 < 8001
      ∧ 8001 ≤ header.bandBound.get .i1
      ∧ (Ix4.all.all fun j => decide ({ header with bandBound := ⟨8000, 9000, 10000, 11000⟩ }.bandBound.get j < 11001)) = true)
    ∧ (motionStep header 1000 300 = 200 ∧ motionStep header 1000 100 = 20 ∧ motionStep header 8001 101 = 100
      ∧ header.stallLimit < distance 2799 2900 ∧ ¬ header.stallLimit < distance 2800 2900
      ∧ ((boating 300 2 (some 2799)).boatSample .i0).sampled = true) :=
  ⟨by decide, ⟨by decide, by decide⟩, by decide, by decide, by decide⟩

theorem test_motion_expiry : ((after (.motionExpiry .i0) (boating 300 0 none)).tube .i0).boat.delivered = 2900
    ∧ ((after (.motionExpiry .i0) (boating 20 0 none)).tube .i0).boat.state = .inPos
    ∧ ((after (.motionExpiry .i0) (boating 20 0 none)).tube .i0).summary.boatArrived = true
    ∧ (after (.motionExpiry .i0) (boating 300 2 (some 2799))).abort.requests = [⟨.i0, .boatStall, none, 2799, 2900⟩] := by
  decide

/-- T0 purging with `acc` scc counted. -/
def purging (mode : Mode) (acc : Long) : State := withTube fun x => { x with
  mode := mode
  gas := { x.gas with
    atmosphere := .purging
    accumulator := acc
    sampleTimer := some 10
    limitTimer := some 30000
    run := some ⟨.purge, 1000, .purge, 2000, .flowing, 59000, 4⟩ } }

theorem witness_SampleExpiryCountsTheVolume : ((purging .run 1997).tube .i0).gas.sampleTimer = some 10
    ∧ ((purging .run 1995).tube .i0).gas.run = some ⟨.purge, 1000, .purge, 2000, .flowing, 59000, 4⟩
    ∧ (200 * 1000 + 59000) / 60000 = 4 ∧ ((1995 : Long) + 4).toNat < 2000 ∧ 2000 ≤ ((1996 : Long) + 4).toNat
    ∧ (purging .run 1996).budget.claims = [] ∧ ((purging .aborting 1996).tube .i0).mode = .aborting := by decide

theorem test_sample_expiry : ((after (.sampleExpiry .i0) (purging .run 1995)).tube .i0).gas.accumulator = 1999
    ∧ ((after (.sampleExpiry .i0) (purging .run 1995)).tube .i0).gas.run
      = some ⟨.purge, 1000, .purge, 2000, .flowing, 19000, 5⟩
    ∧ ((after (.sampleExpiry .i0) (purging .run 1996)).tube .i0).gas.atmosphere = .inert
    ∧ (after (.sampleExpiry .i0) (purging .aborting 1996)).notices.buffer.map (·.kind) = [.done, .abortEnd] := by decide

/-- T0 aborting with its clearing claim waiting. -/
def starving : State :=
  { (withTube fun x => { x with mode := .aborting, abortTimer := some 5 }) with
    budget := ⟨30, 1, [⟨.i0, .exhaust, 40, .abort, 0, .abortPurge, false⟩], 1, 0, false, some 1000, 100, 50, 5, false⟩ }

theorem witness_LimitTimersHandOver : ((purging .run 5).tube .i0).gas.limitTimer = some 30000
    ∧ ((purging .run 5).tube .i0).mode.working = true ∧ ((purging .aborting 5).tube .i0).mode = .aborting
    ∧ ((purging .aborted 5).tube .i0).mode = .aborted ∧ (starving.tube .i0).abortTimer = some 5
    ∧ starving.runClaim .i0 = some ⟨.i0, .exhaust, 40, .abort, 0, .abortPurge, false⟩
    ∧ State.runClaim { starving with budget := part.budget } .i0 = none := by decide

theorem test_purge_limit_expiry : (after (.purgeLimitExpiry .i0) (purging .run 1999)).abort.requests
      = [⟨.i0, .purgeTimeout, none, 1, 1⟩]
    ∧ (after (.purgeLimitExpiry .i0) (purging .aborting 1999)).abort.trips = [⟨.purgeTimeout, some .i0, 0, 1⟩] := by decide

theorem test_abort_claim_expiry :
    (after (.abortClaimExpiry .i0) starving).abort.trips = [⟨.claimStarved, some .i0, 0, 40⟩] := by decide

/-- A scrubber load of `n` with 10 units of reactive draw open, and the throttle. -/
def scrubbing (n : Nat) (on : Bool) : State :=
  { (withTube fun x => { x with gas := { x.gas with
      atmosphere := .process
      lines := { lines with a0 := { lines.a0 with flow := 1000 } } } }) with
    budget := ⟨30, 1, [], 0, n, on, some 400, 100, 50, 5, false⟩ }

theorem witness_ScrubberExpiryFollowsTheLoad : (scrubbing 95 false).budget.timer = some 400
    ∧ (scrubbing 95 false).reactiveDraw = 10 ∧ (scrubbing 95 false).budget.upper ≤ 95 + 10 - 5
    ∧ ¬ (scrubbing 94 false).budget.upper ≤ 94 + 10 - 5 ∧ (scrubbing 45 true).budget.lower = 45 + 10 - 5 := by decide

theorem test_scrubber_expiry : (after .scrubberExpiry (scrubbing 95 false)).budget.throttle = true
    ∧ (after .scrubberExpiry (scrubbing 94 false)).budget.throttle = false
    ∧ (after .scrubberExpiry (scrubbing 45 true)).budget.throttle = false
    ∧ (after .scrubberExpiry (scrubbing 46 true)).budget.throttle = true := by decide

/-- `s` with an abort request of T0, or of an absent tube. -/
def requested (s : State) (t : Tube) : State := { s with abort := ⟨[⟨t, .command, some 5, 5, 1⟩], [], false, .none, 0, 300⟩ }

/-- Two present tubes, T0 as `x` and T1 as `y`, with the claims `cs` and the exhaust capacity `n`. -/
def claiming (x y : TubeState) (cs : List Claim) (n : Nat) : State :=
  { manualPart with
    root := { root with tubes := root.tubes.set .i1 ⟨0x200, true, false, false⟩ }
    tubes := { Four.fill TubeState.reset with a0 := x, a1 := y }
    budget := ⟨n, 1, cs, 7, 0, false, some 1000, 100, 50, 5, false⟩ }

/-- A head that claims 10 units for line 0, and its claim as a tube's. -/
def claimHead : HeldEntry :=
  ⟨9, 2, .line .i0 true false 1, 1000, 0, none, .claiming, some (.exhaust, 10), some 900, true⟩

def headClaim (t : Tube) (n : Nat) : Claim := ⟨t, .exhaust, n, .process, 3, .entry 9 2, false⟩

/-- A tube whose purge run waits for its 8 units, and the claim as T1's. -/
def runWaits : TubeState :=
  { tube with
    gas := { gas with
      atmosphere := .purging
      run := some ⟨.purge, 1000, .purge, 2000, .claiming, 0, 0⟩ } }

def runClaimOf (t : Tube) : Claim := ⟨t, .exhaust, 8, .purge, 4, .purge, false⟩

/-- R128, R130: the front claim: the later PURGE claim stands ahead, two of one priority in order of joining. -/
theorem test_front_claim :
    ({ part.budget with claims := [headClaim .i0 10, runClaimOf .i1, headClaim .i2 1] } : Budget).front .exhaust
      = some (runClaimOf .i1)
    ∧ ({ part.budget with claims := [headClaim .i0 10, headClaim .i2 1] } : Budget).front .exhaust = some (headClaim .i0 10)
    ∧ ({ part.budget with claims := [headClaim .i0 10] } : Budget).front .heat = none
    ∧ Priority.process.code < Priority.purge.code := by decide

/-- T1's head waits for 10 units while 8 are free, and a MANUAL close of T0's line frees 2. -/
def freeing : State :=
  claiming { tube with mode := .aborted } { tube with queue := [claimHead] } [headClaim .i1 10] 12

/-- T0's head claims ahead of T1's run, which needs 8 units of `n - 4`. -/
def withdrawing (n : Nat) : State :=
  claiming { tube with queue := [claimHead] } runWaits [headClaim .i0 10, runClaimOf .i1] n

/-- T0's run waits with T1's head. -/
def raising (n : Nat) : State := claiming runWaits tube [headClaim .i1 10, runClaimOf .i0] n

theorem witness_ClaimListServed :
    (Dispatches freeing (placeAccess freeing .service .write ⟨.i0, 3, 0⟩ 0) ⟨.i0, 3, 0⟩ manualLine
      ∧ manualLine.mark = .line .i1 ∧ InRange manualLine 0 ∧ (freeing.tube .i0).mode = .aborted
      ∧ freeing.firstFailure .i1 claimHead = none ∧ freeing.freeUnits = 8 ∧ freeing.bankDraw = 4
      ∧ neededClaim (freeing.tube .i1) claimHead = some (.exhaust, 10) ∧ 10 + 4 ≤ freeing.budget.capacity + 2)
    ∧ (((withdrawing 12).tube .i0).queue = [claimHead] ∧ claimHead.timer = some 900 ∧ (withdrawing 12).freeUnits = 8
      ∧ (withdrawing 11).freeUnits = 7 ∧ ((withdrawing 12).tube .i1).queue = []
      ∧ ((withdrawing 12).tube .i1).gas.run = some ⟨.purge, 1000, .purge, 2000, .claiming, 0, 0⟩)
    ∧ ((raising 11).freeUnits = 7 ∧ (raising 11).present .i0 = true ∧ ((raising 11).tube .i0).ramp.slotHeld = false
      ∧ ((raising 11).tube .i0).queue = []
      ∧ ({ part.budget with claims := [headClaim .i1 10, { runClaimOf .i0 with priority := .abort }] } : Budget).front .exhaust
        = some { runClaimOf .i0 with priority := .abort })
    ∧ (claiming tube tube [{ headClaim .i0 10 with fresh := true }] 3).freeOf .exhaust < 10 :=
  ⟨⟨dispatches .i0 (by decide), by decide, inLimits_inRange (by decide), by decide⟩, by decide, by decide, by decide⟩

theorem test_freed_units_are_granted : ((after (.manualWrite .service ⟨.i0, 3, 0⟩ 0) freeing).tube .i1).lastReleased = 9
    ∧ ((after (.manualWrite .service ⟨.i0, 3, 0⟩ 0) freeing).tube .i1).gas.lines.a0.flow = 1000
    ∧ (after (.manualWrite .service ⟨.i0, 3, 0⟩ 0) freeing).budget.claims = []
    ∧ (after (.manualWrite .service ⟨.i0, 3, 0⟩ 150) freeing).budget.claims = [headClaim .i1 10] := by decide

/-- R41: the three ways a granted head goes: released, handed back, and claiming anew. -/
theorem test_head_grants :
    ((freeing.grant (headClaim .i1 10)).tube .i1).queue = []
    ∧ (let s := claiming tube { tube with queue := [claimHead], gapTimer := some 3 } [headClaim .i1 10] 12
      ((s.grant (headClaim .i1 10)).tube .i1).queue = [{ claimHead with state := .waiting, claim := none }]
        ∧ (s.grant (headClaim .i1 10)).budget.claims = [])
    ∧ (freeing.grant (headClaim .i1 9)).budget.claims
      = [headClaim .i1 10, ⟨.i1, .exhaust, 10, .process, 7, .entry 9 2, true⟩] := by decide

/-- R133: an expiry withdraws its head's claim, and the run behind it is granted. -/
theorem test_withdrawn_claim :
    (after (.entryExpiry .i0 9) (withdrawing 12)).budget.claims = []
    ∧ ((after (.entryExpiry .i0 9) (withdrawing 12)).tube .i1).gas.lines.a1.flow = 1000
    ∧ (after (.entryExpiry .i0 9) (withdrawing 11)).budget.claims = [runClaimOf .i1] := by decide

/-- R134: an abort raises a waiting purge claim; where it then fits it is granted ahead of the other tube's. -/
theorem test_raised_claim :
    (after .abortRequest (requested (raising 11) .i0)).budget.claims
      = [headClaim .i1 10, { runClaimOf .i0 with priority := .abort }]
    ∧ (after .abortRequest (requested (raising 12) .i0)).budget.claims = [headClaim .i1 10] := by decide

def boatRecord : ScanRecord := ⟨0x2102, some (.boat .i0), 3000, 10, true, false, 2, true, 1⟩
def lineRecord : ScanRecord := ⟨0x2101, some (.line .i0 .i0), 500, 0, false, false, 1, true, 0⟩

/-- `part` with a Scan List whose first record is malformed. -/
def scanning (pass : Option Pass) (overrun : Bool) : State :=
  { part with
    clock := 1000
    scanner := ⟨[{ boatRecord with active := false }, boatRecord, lineRecord], 500, 2000, some 200, some 900, 7, pass,
      overrun, true⟩ }

theorem witness_ScanTimersExpire : (scanning none true).scanner.timer = some 200
    ∧ (scanning none true).scanner.staleTimer = some 900 ∧ (scanning none true).scanner.list[1]? = some boatRecord
    ∧ boatRecord.active = true ∧ (scanning (some ⟨2, 1, 400⟩) false).scanner.pass = some ⟨2, 1, 400⟩
    ∧ (scanning (some ⟨2, 1, 400⟩) true).scanner.overrun = true ∧ (∀ r ∈ part.scanner.list, r.active = false)
    ∧ part.scanner.timer = some 500 ∧ part.scanner.pass = none := by decide

theorem test_scan_expiry : (after .scanExpiry (scanning none true)).scanner.pass = some ⟨1, 0, 1200⟩
    ∧ (after .scanExpiry (scanning none true)).scanner.overrun = false
    ∧ (after .scanExpiry (scanning (some ⟨2, 1, 400⟩) false)).notices.buffer.map (·.extra) = [800]
    ∧ (after .scanExpiry part).scanner.passCounter = 1 := by decide

theorem test_stale_expiry : (after .staleExpiry (scanning (some ⟨2, 1, 400⟩) false)).scanner.stale = true
    ∧ (after .staleExpiry (scanning (some ⟨2, 1, 400⟩) false)).notices.buffer.map (·.value) = [2]
    ∧ (after .staleExpiry part).notices.buffer.map (·.value) = [0xFFFF] := by decide

/-- A bank with T0 in PROCESS whose controller has read no record since the last expiry. -/
def unserved (count : Nat) (lapsed : Bool) : State :=
  { scrubbing 0 false with
    notices := { part.notices with producer := 3 }
    monitor := ⟨lapsed, count, 0, 5000, 2, some 50⟩ }

theorem witness_ServiceExpiryCountsTheLapse : (unserved 1 false).monitor.timer = some 50
    ∧ (unserved 1 false).notices.producer ≠ (unserved 1 false).notices.consumer
    ∧ (unserved 1 false).notices.consumer = (unserved 1 false).monitor.recorded
    ∧ (unserved 1 false).monitor.count + 1 = (unserved 1 false).monitor.limit
    ∧ (unserved 0 false).monitor.count + 1 ≠ (unserved 0 false).monitor.limit ∧ (unserved 1 true).monitor.lapsed = true := by
  decide

theorem test_service_expiry : (after .serviceExpiry (unserved 1 false)).monitor.lapsed = true
    ∧ (after .serviceExpiry (unserved 1 false)).abort.requests = [⟨.i0, .serviceLost, none, 0, 3⟩]
    ∧ (after .serviceExpiry (unserved 0 false)).monitor.count = 1
    ∧ (after .serviceExpiry (unserved 2 true)).monitor.count = 2 := by decide

/-! ## Requests taken -/

/-- A sample `v` of line 0, open at 1000 with a deviation limit of 30 and a count of 2. -/
def sampled (v : Word) (counter : Nat) : State :=
  { (withTube fun x => { x with gas := { x.gas with
      atmosphere := .process
      lines := { lines with a0 := { lines.a0 with flow := 1000, devCounter := counter } } } }) with
    arrivals := [⟨.i0, .i0, v⟩] }

theorem witness_LineSampleIsJudged : (sampled 969 1).arrivals = [⟨.i0, .i0, 969⟩]
    ∧ (((sampled 969 1).tube .i0).gas.lines.get .i0).reactive = true
    ∧ (((sampled 969 1).tube .i0).gas.lines.get .i0).flow ≠ 0
    ∧ 30 < distance 969 1000 ∧ ¬ 30 < distance 970 1000 ∧ 1 + 1 = (((sampled 969 1).tube .i0).gas.lines.get .i0).devCount
    ∧ 0 + 1 ≠ (((sampled 969 0).tube .i0).gas.lines.get .i0).devCount
    ∧ ({ part with arrivals := [⟨.i0, .i0, 5⟩] } : State).arrivals = [⟨.i0, .i0, 5⟩]
    ∧ ((part.tube .i0).gas.lines.get .i0).flow = 0 := by decide

theorem test_line_sample : (after .lineSampleArrival (sampled 969 1)).abort.requests
      = [⟨.i0, .flowDeviation, none, 969, 1000⟩]
    ∧ ((after .lineSampleArrival (sampled 969 0)).tube .i0).gas.lines.a0.devCounter = 1
    ∧ ((after .lineSampleArrival (sampled 970 1)).tube .i0).gas.lines.a0.devCounter = 0 := by decide

/-- T0 clearing with 1500 scc counted. -/
def clearing (mode : Mode) : State := withTube fun x => { x with
  mode := mode
  gas := { x.gas with
    atmosphere := .clearing
    accumulator := 1500
    sampleTimer := some 10
    limitTimer := some 30000
    run := some ⟨.clearing, 1000, .purge, 3000, .flowing, 0, 4⟩ } }

theorem witness_AbortRequestIsTaken : (requested part .i0).abort.requests = [⟨.i0, .command, some 5, 5, 1⟩]
    ∧ (requested part .i0).present .i0 = true ∧ ((requested part .i0).tube .i0).mode.working = true
    ∧ ((requested part .i0).tube .i0).gas.run = none ∧ ((requested part .i0).tube .i0).gas.atmosphere = .inert
    ∧ (requested part .i1).present .i1 = false ∧ ((requested (moded .aborting) .i0).tube .i0).mode.working = false
    ∧ ((requested (sampled 0 0) .i0).tube .i0).gas.atmosphere = .process ∧ header.purgeLine ≠ .i0
    ∧ ((requested (clearing .run) .i0).tube .i0).gas.atmosphere = .clearing
    ∧ ((requested (clearing .run) .i0).tube .i0).mode.working = true
    ∧ ((requested (moded .aborted) .i0).tube .i0).mode.working = false
    ∧ ((requested (moded .hold) .i0).tube .i0).mode.working = true
    ∧ ((requested (purging .run 5) .i0).tube .i0).gas.atmosphere = .purging
    ∧ ((requested (purging .run 5) .i0).tube .i0).gas.run = some ⟨.purge, 1000, .purge, 2000, .flowing, 59000, 4⟩ := by decide

/-- An abort in CLEARING restarts the clearing; one in ABORTED is a second cause. -/
theorem test_abort_in_clearing_and_aborted :
    ((after .abortRequest (requested (clearing .run) .i0)).tube .i0).gas.accumulator = 0
    ∧ ((after .abortRequest (requested (clearing .run) .i0)).tube .i0).mode = .aborting
    ∧ ((after .abortRequest (requested (clearing .run) .i0)).tube .i0).gas.run.map (·.target) = some 3000
    ∧ (after .abortRequest (requested (moded .aborted) .i0)).notices.buffer.map (·.kind) = [.abortAgain]
    ∧ ((after .abortRequest (requested (moded .aborted) .i0)).tube .i0) = ((moded .aborted).tube .i0) := by decide

theorem test_abort_request : ((after .abortRequest (requested (sampled 0 0) .i0)).tube .i0).mode = .aborting
    ∧ ((after .abortRequest (requested (sampled 0 0) .i0)).tube .i0).gas.lines.a0.flow = 0
    ∧ ((after .abortRequest (requested (sampled 0 0) .i0)).tube .i0).gas.lines.a1.flow = 1500
    ∧ (after .abortRequest (requested part .i0)).notices.buffer.map (·.kind) = [.abortBegin, .abortEnd] := by decide

theorem test_abort_again : (after .abortRequest (requested (moded .aborting) .i0)).notices.buffer.map (·.kind) = [.abortAgain]
    ∧ after .abortRequest (requested part .i1) = { part with abort := ⟨[], [], false, .none, 0, 300⟩ } := by decide

/-- `s` with a waiting trip of scan entry 3. -/
def tripping (s : State) : State :=
  { s with abort := { s.abort with trips := [⟨.scanLimit, some .i0, 3, 4000⟩] } }

theorem witness_FirstTripAbortsTheBank : (tripping part).abort.trips = [⟨.scanLimit, some .i0, 3, 4000⟩]
    ∧ (tripping part).abort.latch = false ∧ (tripping part).present .i0 = true
    ∧ ((tripping part).tube .i0).mode.working = true := by decide

theorem test_first_trip : (after .bankTrip (tripping part)).notices.buffer.map (·.kind) = [.trip, .abortBegin, .abortEnd]
    ∧ (after .bankTrip (tripping part)).notices.buffer.map (·.extra) = [1, 4000, 0]
    ∧ ((after .bankTrip (tripping part)).tube .i0).abortCause = .bankTrip := by decide

theorem witness_RepeatedTripChangesNoTube : (tripping tripped).abort.trips = [⟨.scanLimit, some .i0, 3, 4000⟩]
    ∧ (tripping tripped).abort.latch = true := by decide

theorem test_repeated_trip : (after .bankTrip (tripping tripped)).notices.buffer.map (·.extra) = [0xFFFF]
    ∧ ((after .bankTrip (tripping tripped)).tube .i0) = tube := by decide

/-! ## Image Bus transactions -/

/-- A scan read of the record the pass waits on, in flight. -/
def scanRead (index : Nat) (v : Word) : State :=
  reading { scanning (some ⟨index, 0, 400⟩) false with mem := [(0x2101, 77), (0x2102, v)] } .scan
    (if index = 1 then 0x2102 else 0x2101)

theorem witness_ScanArrivalIsTaken : InFlight (scanRead 1 3001) .scan ⟨.scan, 0x2102, none, false⟩
    ∧ ((scanRead 1 3001).scanner.pass = some ⟨1, 0, 400⟩ ∧ (scanRead 1 3001).scanner.list[1]? = some boatRecord
      ∧ (scanRead 1 3001).mem.wf = true ∧ boatRecord.high.toNat < (3001 : Word).toNat
      ∧ ¬ boatRecord.high.toNat < (3000 : Word).toNat ∧ boatRecord.counter + 1 = boatRecord.tripCount
      ∧ (scanRead 1 3001).scanner.list[2]? = some lineRecord ∧ lineRecord.active = true)
    ∧ InFlight (scanRead 2 5) .scan ⟨.scan, 0x2101, none, false⟩
    ∧ ((scanRead 2 5).present .i0 = true ∧ lineRecord.target = some (.line .i0 .i0)
      ∧ (scanRead 2 5).scanner.list.length = 3) :=
  ⟨⟨rfl, rfl, rfl⟩, by decide, ⟨rfl, rfl, rfl⟩, by decide⟩

theorem test_scan_arrival : (after (.scanArrival none) (scanRead 1 3001)).abort.requests = [⟨.i0, .scanLimit, none, 1, 3001⟩]
    ∧ (after (.scanArrival none) (scanRead 1 3000)).abort.requests = []
    ∧ (after (.scanArrival none) (scanRead 1 3000)).scanner.pass = some ⟨2, 1, 400⟩
    ∧ (after (.scanArrival (some 9)) (scanRead 2 5)).arrivals = [⟨.i0, .i0, 9⟩]
    ∧ (after (.scanArrival none) (scanRead 2 5)).scanner.passCounter = 8 := by decide

/-- `part` while the Notice Writer is in `phase`. -/
def noting (phase : NoticePhase) : State := { part with notices := { part.notices with phase := phase, producer := 15 } }

theorem witness_ImageWritesComplete : InFlight (writing part .deliver 0x2000 9) .deliver ⟨.deliver, 0x2000, some 9, false⟩
    ∧ (writing part .deliver 0x2000 9).mem.wf = true
    ∧ InFlight (writing (noting (.rootWord .status)) .notice 3 2) .notice ⟨.notice, 3, some 2, false⟩
    ∧ (noting (.rootWord .status)).notices.nextDue = none
    ∧ InFlight (writing (noting .producerIndex) .notice 4 0) .notice ⟨.notice, 4, some 0, false⟩ :=
  ⟨⟨rfl, rfl, rfl⟩, by decide, ⟨rfl, rfl, rfl⟩, by decide, ⟨rfl, rfl, rfl⟩⟩

/-- The writes the part asks the bus for, in the phases and with the queue the statements name. -/
theorem test_writes_asked_for :
    ({ part with delivery := [⟨0x2000, 7, false⟩] } : State).request .deliver = some ⟨.deliver, 0x2000, some 7, false⟩
    ∧ (noting (.rootWord .status)).request .notice = some ⟨.notice, 3, some 2, false⟩
    ∧ (noting .producerIndex).request .notice = some ⟨.notice, 4, some 0, false⟩
    ∧ (writingBack (.fillWriteBack ⟨0x20040, .write, .operator, 500⟩ .i0 true) 1).request .walk
      = some ⟨.walk, 0x102E, some 3, false⟩ := by decide

/-- T0's adoption reads, `words` of them taken, with the deliveries `q` pending. -/
def adopting (words : List Word) (q : List Delivery) : State :=
  { adoptable true q with loader := ⟨.loading, .none, .adopt .i0 words, 0, 0, false⟩ }

/-- The reads the part asks the bus for: the words of a walk, the loader's words, a scan record, and a held access. -/
theorem test_reads_asked_for :
    (passing .read 0).request .pass = some ⟨.pass, 0x5000, none, false⟩
    ∧ (passing .write 3).request .pass = some ⟨.pass, 0x5000, some 3, false⟩ ∧ part.request .pass = none
    ∧ (walking zoneDesc 0 0).request .walk = some ⟨.walk, 0x102F, none, false⟩
    ∧ (0x20040 : Addr).toNat = part.root.windowBase.toNat * 0x4000 + 0 * 0x1000 + 1 * 0x40 + 0
    ∧ (rootLast (List.replicate 63 0)).request .walk = some ⟨.walk, 63, none, false⟩
    ∧ scanLast.request .walk = some ⟨.walk, 0x4003, none, false⟩
    ∧ (adopting [] []).request .walk = some ⟨.walk, 0x2000, none, false⟩
    ∧ (adopting [0, 0] []).request .walk = some ⟨.walk, 0x2010, none, false⟩
    ∧ (adopting [0, 0, 0, 0] []).request .walk = some ⟨.walk, 0x2020, none, false⟩
    ∧ (adopting [0, 0, 0, 0] [⟨0x2020, 1, false⟩]).request .walk = none
    ∧ (adopting [0, 0, 0, 0, 0] []).request .walk = none ∧ (adopting [] []).portOffWalk = true
    ∧ (scanRead 1 3001).request .scan = some ⟨.scan, 0x2102, none, false⟩ ∧ part.request .scan = none := by decide

theorem test_table_read_asked_for : (tableLast (tableWords.take 543).reverse).request .walk
    = some ⟨.walk, 0x121F, none, false⟩ := by decide +kernel

/-- A pending delivery for `a` while a PASS access to 2000H waits, with age count `n` of PASS. -/
def contended (d : Direction) (a : Addr) (n : Nat) : State :=
  { part with
    delivery := [⟨a, 7, false⟩]
    port := ⟨.pass ⟨0x2000, d, .service, 3⟩ 0x2000 false, .none⟩
    bus := ⟨none, (Five.fill 0).set Requester.pass.ix n⟩ }

theorem witness_ImageBusDecides : (contended .read 0x2001 3).bus.inFlight = none
    ∧ ((contended .read 0x2001 3).request .deliver).isSome = true ∧ ((contended .read 0x2001 3).request .pass).isSome = true
    ∧ ¬ 4 ≤ (contended .read 0x2001 3).bus.age .pass ∧ 4 ≤ (contended .read 0x2001 4).bus.age .pass
    ∧ (Requester.all.all fun r => ((part.request r).isSome == false)) = true
    ∧ (writing part .deliver 0x2000 9).bus.inFlight ≠ none := by decide

/-- R167: the order, a due requester, and the age counts; R173: an entry for a waiting write's address stands back. -/
theorem test_decisions :
    (contended .read 0x2001 3).arbitrate.bus = ⟨some ⟨.deliver, 0x2001, some 7, false⟩, (Five.fill 0).set .i2 4⟩
    ∧ (contended .read 0x2001 4).arbitrate.bus = ⟨some ⟨.pass, 0x2000, none, false⟩, (Five.fill 0).set .i0 1⟩
    ∧ (contended .write 0x2000 0).arbitrate.bus = ⟨some ⟨.pass, 0x2000, some 3, false⟩, (Five.fill 0).set .i0 1⟩
    ∧ (contended .write 0x2000 0).arbitrate.delivery = [⟨0x2000, 7, false⟩]
    ∧ (contended .read 0x2000 0).arbitrate.delivery = [] := by decide

theorem test_image_writes : (after .deliverWriteComplete (writing part .deliver 0x2000 9)).mem = [(0x2000, 9)]
    ∧ (after .rootWordWrite (writing (noting (.rootWord .status)) .notice 3 2)).mem = [(3, 2)]
    ∧ (after .producerAdvance (writing (noting .producerIndex) .notice 4 0)).notices.producer = 0 := by decide

/-- A record waits in the buffer while a walk read holds the bus; `producer` of 16 ring records is next. -/
def recording (producer : Nat) : State :=
  reading { part with notices := { part.notices with
    producer := producer
    buffer := [notice .held (some .i0) (some 4) 1 7 8 9] } } .walk 0

theorem witness_NoticeRecordIsTaken : (recording 14).bus.inFlight = some ⟨.walk, 0, none, false⟩
    ∧ (recording 14).notices.phase = .idle ∧ (recording 14).notices.nextDue = none
    ∧ (recording 14).notices.ringInUse = true ∧ ringDistance 16 14 0 < 15 ∧ 15 = ringDistance 16 15 0
    ∧ (noting (.record 0x3078 [1])).notices.phase = .record 0x3078 [1] ∧ (noting .idle).mem.wf = true
    ∧ ((writing (noting (.record 0x3078 [1, 2])) .notice 0x3078 1).bus.inFlight = some ⟨.notice, 0x3078, some 1, false⟩) := by
  decide

theorem test_record_word_asked_for :
    (noting (.record 0x3078 [1, 2])).request .notice = some ⟨.notice, 0x3078, some 1, false⟩ := by decide

theorem test_notice_record_take : (after (.noticeRecordTake 1) (recording 14)).notices.phase
      = .record 0x3070 [2, 0x0420, 7, 8, 9, 0, 0, 0]
    ∧ (after (.noticeRecordTake 1) (recording 15)).notices.lost = 1
    ∧ (after (.noticeRecordTake 1) (writing (noting (.record 0x3078 [1])) .notice 0x3078 1)).notices.phase
      = .producerIndex := by decide

theorem witness_NoticeIsPlacedOrLost :
    part.notices.buffer.length < 8
    ∧ 8 ≤ ({ part.notices with buffer := List.replicate 8 (notice .held none none 1 7 8 9) }).buffer.length := by decide

/-- The commands wait for what they complete: with nothing in flight and no timer running they change nothing. -/
theorem test_nothing_to_take : after .bankTrip part = part ∧ after (.stepExpiry .i0) part = part
    ∧ after .passAccessComplete part = part ∧ after .lineSampleArrival part = part := by decide

/-! ## Clauses spelled out: times, tables and descriptors -/

/-- T0 with a timer that runs out, one that goes on, and others that are stopped. -/
def timed : State := withTube fun x => { x with
  queue := [{ heldBoat 1 10 .waiting with timer := some 5 }, { heldBoat 2 11 .waiting with timer := none }]
  gapTimer := some 4
  ramp := { x.ramp with settleTimer := some 7 }
  gas := { x.gas with sampleTimer := some 6, limitTimer := none } }

/-- R186: a running timer stops at 0, a stopped one stays stopped. -/
theorem test_elapse :
    (let x := (timed.elapse 5).tube .i0;
      x.queue.map (·.timer) = [some 0, none] ∧ x.gapTimer = some 0 ∧ x.abortTimer = none ∧ x.ramp.settleTimer = some 2
      ∧ x.ramp.stepTimer = none ∧ x.gas.sampleTimer = some 1 ∧ x.gas.limitTimer = none ∧ x.boat.motionTimer = none)
    ∧ (timed.elapse 5).budget.timer = some 995 ∧ (timed.elapse 5).scanner.timer = some 495
    ∧ (timed.elapse 5).scanner.staleTimer = some 1995 ∧ (timed.elapse 5).monitor.timer = some 4995
    ∧ (timed.elapse 5).clock = 5 ∧ ({ timed with clock := 0xFFFFFFFF } : State).elapse 2 = { timed.elapse 2 with clock := 1 } := by
  decide

/-- A scan table of four entries: zone 4 of T3 with limits that meet, target code 7, limits that cross, a count of 0. -/
def faultyTable : List Word :=
  [0x2100, 0x1F44, 500, 500, 0x2101, 0x0072, 9, 0, 0x2102, 0x1C50, 4, 5, 0x2103, 0x0460, 9, 0]

def faultyScan : State :=
  reading { State.reset with
    mem := [(0x400F, 0)]
    loader := ⟨.loading, .none, .scanList (faultyTable.take 15).reverse, 0x400, 4, false⟩ } .walk 0x400F

theorem witness_ScanListIsLoaded_faults : InFlight faultyScan .walk ⟨.walk, 0x400F, none, false⟩
    ∧ faultyScan.portOffWalk = true ∧ (faultyTable.take 15).reverse.length + 1 = faultyScan.loader.scanCount * 4
    ∧ faultyScan.notices.buffer.length + 3 < 8 := ⟨⟨rfl, rfl, rfl⟩, by decide⟩

theorem test_scan_list_faults :
    (after (.scanListLoad 1) faultyScan).scanner.list.map (fun r => (r.source, r.target, r.active))
      = [(0x42100, some (.zone .i3 .i4), true), (0x22101, none, false), (0x02102, some (.boat .i0), false),
        (0x02103, some (.bankInput .i0), false)]
    ∧ (after (.scanListLoad 1) faultyScan).scanner.list.map (fun r => (r.high, r.low, r.tripCount, r.counter))
      = [(500, 500, 1, 0), (9, 0, 0, 0), (4, 5, 1, 0), (9, 0, 0, 0)]
    ∧ (after (.scanListLoad 1) faultyScan).notices.buffer.map (fun n => (n.kind, n.code, n.value))
      = [(.descFault, 6, 1), (.descFault, 6, 2), (.descFault, 6, 3)] := by decide

/-- R6, R8: an empty window covers nothing; an address of an unbound record or an absent tube is not bound. -/
theorem test_windows_and_bounds : (Guard.covers ⟨0x1000, 0, false, false⟩ 0x10000) = false
    ∧ (Guard.covers ⟨0xFFFF, 1, false, false⟩ 0xFFFFF) = true ∧ (Guard.covers ⟨0xFFFF, 1, false, false⟩ 0xFFFEF) = false
    ∧ part.isBound 0x2011 = true ∧ part.isBound 0x2020 = true ∧ part.isBound 0 = false
    ∧ State.isBound { part with root := { root with tubes := Four.fill ⟨0, false, false, false⟩ } } 0x2000 = false := by decide

/-- R9, R189: word counts, flags and marks at the ends of the kinds. -/
theorem test_descriptor_words : ({ plainDesc with w0 := 0xFF06 } : DescWords).kind = none
    ∧ plainDesc.readable = 4 ∧ plainDesc.writable = 4 ∧ tubeDesc.readable = 8 ∧ tubeDesc.writable = 1
    ∧ zoneDesc.readable = 1 ∧ ({ plainDesc with w0 := 0 } : DescWords).readable = 0
    ∧ ({ zoneDesc with w0 := 0x0502 } : DescWords).mark = .none ∧ ({ zoneDesc with w0 := 0x0402 } : DescWords).mark = .zone .i4
    ∧ ({ zoneDesc with w0 := 0x003A } : DescWords).service = true ∧ ({ zoneDesc with w0 := 0x003A } : DescWords).protect = true
    ∧ ({ zoneDesc with w2 := 0xFFFF } : DescWords).addr = 0xF2000 := by decide

/-- R12: each kind's checks at their boundaries. -/
theorem test_well_formed : ({ plainDesc with w3 := 64 } : DescWords).wellFormed = true
    ∧ ({ plainDesc with w3 := 65 } : DescWords).wellFormed = false ∧ ({ plainDesc with w3 := 0 } : DescWords).wellFormed = false
    ∧ ({ plainDesc with w0 := 0 } : DescWords).wellFormed = true ∧ ({ plainDesc with w0 := 0x20 } : DescWords).wellFormed = false
    ∧ ({ plainDesc with w0 := 0x40 } : DescWords).wellFormed = false ∧ ({ plainDesc with w0 := 6 } : DescWords).wellFormed = false
    ∧ ({ zoneDesc with w4 := 9000 } : DescWords).wellFormed = true ∧ ({ zoneDesc with w4 := 9001 } : DescWords).wellFormed = false
    ∧ ({ purgeDesc with w4 := 0x0F08 } : DescWords).wellFormed = true ∧ ({ purgeDesc with w4 := 0x1008 } : DescWords).wellFormed = false
    ∧ ({ purgeDesc with w4 := 0x0F09 } : DescWords).wellFormed = false
    ∧ ({ purgeDesc with w0 := 0x01C3 } : DescWords).wellFormed = false ∧ manualLine.wellFormed = true
    ∧ ({ reactiveDesc with w0 := 0x0063 } : DescWords).wellFormed = false := by decide

/-- R14: the binding comparison of each kind of channel. -/
theorem test_mismatch : (part.binding.get .i0).mismatch 0 plainDesc = false ∧ (part.binding.get .i0).mismatch 0 zoneDesc = true
    ∧ (part.binding.get .i0).mismatch 5 { plainDesc with w0 := 0 } = false
    ∧ (part.binding.get .i0).mismatch 1 plainDesc = true ∧ (part.binding.get .i0).mismatch 2 reactiveDesc = false
    ∧ (part.binding.get .i0).mismatch 2 { reactiveDesc with w0 := 0x0003 } = true
    ∧ (part.binding.get .i0).mismatch 4 boatDesc = false
    ∧ (part.binding.get .i0).mismatch 4 { boatDesc with w1 := 0x2021 } = true := by decide

/-- A walk of channel `p` whose word 6 is `w6`, its last word in flight, for the access `acc`. -/
def walkingFor (acc : Access) (d : DescWords) (a : Addr) (w6 : Word) : State :=
  reading { part with
    mem := [(a.toNat, checkWord d.toList)]
    cache := Four.fill (Four.fill CacheEntry.empty)
    port := ⟨.walk acc ((w6 :: d.toList.reverse)) .i2, .none⟩ } .walk a

/-- The walks with U set that go on: a TUBE word, a ZONE value, a PLAIN word, and writes with W set. -/
theorem witness_WalkIsDecided_used :
    InFlight (walkingFor ⟨0x20143, .read, .operator, 0⟩ tubeDesc 0x104F 1) .walk ⟨.walk, 0x104F, none, false⟩
    ∧ ((walkingFor ⟨0x20143, .read, .operator, 0⟩ tubeDesc 0x104F 1).placeOf ⟨0x20143, .read, .operator, 0⟩ = ⟨.i0, 5, 3⟩
      ∧ part.stepRefusal ⟨0x20143, .read, .operator, 0⟩ ⟨.i0, 5, 3⟩ tubeDesc = none
      ∧ (part.binding.get .i0).mismatch 5 tubeDesc = false ∧ tubeDesc.wellFormed = true
      ∧ part.stepRefusal ⟨0x20040, .write, .operator, 500⟩ ⟨.i0, 1, 0⟩ zoneDesc = none
      ∧ part.stepRefusal ⟨0x20003, .write, .operator, 5⟩ ⟨.i0, 0, 3⟩ plainDesc = none) :=
  ⟨⟨rfl, rfl, rfl⟩, by decide +kernel⟩

theorem test_walk_goes_on :
    (after (.descWalk 1) (walkingFor ⟨0x20140, .read, .operator, 0⟩ tubeDesc 0x104F 1)).port = ⟨.idle, .data 0x0020⟩
    ∧ (after (.descWalk 1) (walkingFor ⟨0x20040, .read, .operator, 0⟩ zoneDesc 0x104F 1)).port.phase
      = .pass ⟨0x20040, .read, .operator, 0⟩ 0x2000 false
    ∧ (after (.descWalk 1) (walkingFor ⟨0x20003, .write, .operator, 5⟩ plainDesc 0x104F 3)).port.phase
      = .pass ⟨0x20003, .write, .operator, 5⟩ 0x1003 false
    ∧ ((after (.descWalk 1) (walkingFor ⟨0x20100, .write, .operator, 3000⟩ boatDesc 0x104F 3)).tube .i0).lastReleased = 5
    ∧ Dispatches part (placeAccess part .operator .write ⟨.i0, 4, 0⟩ 3000) ⟨.i0, 4, 0⟩ boatDesc := by
  refine ⟨by decide +kernel, by decide +kernel, by decide +kernel, by decide +kernel, dispatches .i1 (by decide)⟩

/-- R192: the TUBE words of a tube under way. -/
theorem test_tube_words_under_way : tubeWordOf (moving.tube .i0) 0 = 0x0020 ∧ tubeWordOf (moving.tube .i0) 1 = 0x1013
    ∧ tubeWordOf ((holding .run 7).tube .i0) 2 = 0x0107
    ∧ tubeWordOf { tube with queue := [claimHead] } 2 = 0x0201 ∧ tubeWordOf tube 6 = 4 ∧ tubeWordOf tube 7 = 4 := by decide

/-! ## Clauses spelled out: release, delivery and the status word -/

/-- R35, R45: a hold limit of 0 gives neither deadline nor timer, and the deadline wraps with the clock. -/
theorem test_hold : ((entryOf 2 reactiveDesc 1000).hold 0).timer = none ∧ ((entryOf 2 reactiveDesc 1000).hold 0).deadline = none
    ∧ ((entryOf 2 reactiveDesc 1000).hold 1).timer = some 100
    ∧ ((newEntry ⟨.i0, 4, 0⟩ boatDesc 5 500 0xFFFFFFFF).hold 1).deadline = some 99
    ∧ (entryOf 2 reactiveDesc 1000).kind = .line .i0 true false 1 ∧ (entryOf 1 zoneDesc 1000).kind = .zone .i0 50 := by decide

/-- T0 with its ramp in `thermal`, zone 0 bound for `target` from 1000, its slot held or not. -/
def ramped (thermal : Thermal) (target : Word) (slot : Bool) : State := withTube fun x => { x with
  ramp := { x.ramp with
    thermal := thermal
    stepTimer := some 300
    settleTimer := some 9
    slotHeld := slot
    zones := { x.ramp.zones with a0 := ⟨true, target, 1000, 50⟩ } } }

/-- The conditions of a ZONE write of `v` released at once. -/
def zoneReleases (s : State) (v : Word) : Bool :=
  queuedTest s .i0 zoneDesc v && decide ((s.tube .i0).queue = [])
    && decide (s.firstFailure .i0 (entryOf 1 zoneDesc v) = none) && decide (neededClaim (s.tube .i0) (entryOf 1 zoneDesc v) = none)
    && dispatchTest s (placeAccess s .operator .write ⟨.i0, 1, 0⟩ v) ⟨.i0, 1, 0⟩ zoneDesc .i0

theorem witness_QueuedWriteIsReleasedAtOnce_zones :
    zoneReleases (ramped .stable 1000 false) 900 = true ∧ zoneReleases (ramped .settling 1000 false) 1000 = true
    ∧ zoneReleases (ramped .ramping 1120 true) 1050 = true ∧ zoneReleases (ramped .ramping 1120 true) 900 = true
    ∧ zoneReleases (ramped .ramping 1120 true) 1000 = true ∧ zoneReleases (ramped .held 900 false) 1000 = true := by decide

theorem test_zone_releases :
    (let r := ((after (.shapedWrite .operator ⟨.i0, 1, 0⟩ 900) (ramped .stable 1000 false)).tube .i0).ramp;
      r.thermal = .ramping ∧ r.direction = .down ∧ r.slotHeld = false ∧ r.stepTimer = some 1000 ∧ r.settleTimer = none)
    ∧ (let r := ((after (.shapedWrite .operator ⟨.i0, 1, 0⟩ 1000) (ramped .settling 1000 false)).tube .i0).ramp;
      r.thermal = .settling ∧ r.settleTimer = some 9 ∧ r.lastTicket = 5)
    ∧ (let r := ((after (.shapedWrite .operator ⟨.i0, 1, 0⟩ 1050) (ramped .ramping 1120 true)).tube .i0).ramp;
      r.direction = .up ∧ r.slotHeld = true ∧ r.stepTimer = some 300)
    ∧ (let r := ((after (.shapedWrite .operator ⟨.i0, 1, 0⟩ 900) (ramped .ramping 1120 true)).tube .i0).ramp;
      r.thermal = .ramping ∧ r.direction = .down ∧ r.slotHeld = false ∧ r.stepTimer = some 300)
    ∧ (let r := ((after (.shapedWrite .operator ⟨.i0, 1, 0⟩ 1000) (ramped .held 900 false)).tube .i0).ramp;
      r.thermal = .settling ∧ r.direction = .none ∧ r.stepTimer = none ∧ r.settleTimer = some 2000) := by decide

/-- T0 in RUN with the release gap running and the entries `q` held. -/
def gapHolding (q : List HeldEntry) : State := withTube fun x => { x with gapTimer := some 40, queue := q }

/-- A held open of line 0, which needs 10 units. -/
def heldOpen : HeldEntry := { claimHead with state := .waiting, claim := none }

theorem witness_QueueTimersExpire_release :
    (let w := ((gapHolding [heldOpen]).elapse 40).modTube .i0 fun x => { x with gapTimer := none };
      w.firstFailure .i0 heldOpen = none ∧ neededClaim ((gapHolding [heldOpen]).tube .i0) heldOpen = some (.exhaust, 10)
      ∧ 10 ≤ (gapHolding [heldOpen]).freeOf .exhaust ∧ (gapHolding [heldOpen]).budget.claims = []
      ∧ w.firstFailure .i0 { heldBoat 9 4 .waiting with value := 3000 } = none
      ∧ neededClaim tube { heldBoat 9 4 .waiting with value := 3000 } = none)
    ∧ (((inhibiting.modTube .i0 fun _ => (gapHolding [heldOpen]).tube .i0).elapse 40).modTube .i0 fun x =>
        { x with gapTimer := none }).firstFailure .i0 heldOpen = some .inhibit
    ∧ (((withdrawing 11).tube .i0).entryOf 9 = some claimHead ∧ claimHead.timer = some 900
      ∧ (runClaimOf .i1).fresh = false ∧ (withdrawing 11).freeOf .exhaust < (runClaimOf .i1).amount) := by decide

theorem test_release_gap_releases :
    (after (.releaseGapExpiry .i0) (gapHolding [heldOpen])).notices.buffer.map (fun n => (n.kind, n.code, n.ticket))
      = [(.released, 3, 9)]
    ∧ ((after (.releaseGapExpiry .i0) (gapHolding [heldOpen])).tube .i0).queue = []
    ∧ ((after (.releaseGapExpiry .i0) (gapHolding [heldOpen])).tube .i0).lastReleased = 9
    ∧ ((after (.releaseGapExpiry .i0) (inhibiting.modTube .i0 fun _ => (gapHolding [heldOpen]).tube .i0)).tube .i0).queue.map
      (·.ticket) = [9]
    ∧ (after (.entryExpiry .i0 9) (withdrawing 11)).notices.buffer.map (fun n => (n.kind, n.code, n.extra))
      = [(.expired, 2, 0)] := by decide

/-- R57, R95, R81, R102, R105: what each event places for delivery, and what it leaves under way as it was. -/
theorem test_placed_for_delivery :
    (after (.tubePurge .operator .i0 5) part).underway 0x2011 = some 1000
    ∧ (after (.tubePurge .operator .i0 5) { part with budget := { part.budget with capacity := 9 } }).underway 0x2011 = none
    ∧ (after (.tubeVent .operator .i0 5) boatOut).underway 0x2011 = some 0
    ∧ (after (.tubeVent .operator .i0 5) boatOut).underway 0x2010 = none
    ∧ (after (.stepExpiry .i0) moving).underway 0x2000 = some 1050 ∧ (after (.stepExpiry .i0) moving).underway 0x2001 = none
    ∧ (after (.stepExpiry .i0) (measuring moving 949)).underway 0x2000 = none
    ∧ (after (.sampleExpiry .i0) (purging .run 1996)).underway 0x2011 = some 200
    ∧ (after (.sampleExpiry .i0) (purging .run 1995)).underway 0x2011 = none := by decide

theorem test_abort_placed_for_delivery :
    (after .abortRequest (requested (sampled 0 0) .i0)).underway 0x2010 = some 0
    ∧ (after .abortRequest (requested (sampled 0 0) .i0)).underway 0x2011 = some 1500
    ∧ (let s := requested { sampled 0 0 with budget := { part.budget with capacity := 14 } } .i0
      (after .abortRequest s).underway 0x2010 = some 0 ∧ (after .abortRequest s).underway 0x2011 = none
      ∧ ((after .abortRequest s).tube .i0).gas.run.map (·.phase) = some .claiming)
    ∧ (after .abortRequest (requested (purging .run 5) .i0)).underway 0x2011 = none := by decide

theorem witness_DeliveriesAreOrdered : DeliveryOk part.delivery ∧ DeliveryOk boatOut.delivery ∧ DeliveryOk moving.delivery
    ∧ DeliveryOk (purging .run 1996).delivery ∧ DeliveryOk (requested (sampled 0 0) .i0).delivery
    ∧ ((part.budget.claims = [] ∧ boatOut.budget.claims = [] ∧ moving.budget.claims = [] ∧ (purging .run 1996).budget.claims = [])
      ∧ (moving.zoneAddr .i0 .i0 = 0x2000 ∧ moving.zoneAddr .i0 .i1 = 0x2001)
      ∧ (boatOut.lineAddr .i0 .i0 = 0x2010 ∧ boatOut.lineAddr .i0 .i1 = 0x2011)) :=
  ⟨⟨by decide, by decide⟩, ⟨by decide, by decide⟩, ⟨by decide, by decide⟩, ⟨by decide, by decide⟩, ⟨by decide, by decide⟩,
    by decide⟩

/-- R131: two heads claim 10 units and 15 are free: the scan grants the earlier one and stops. -/
theorem test_scan_of_entry_claims :
    (let s := claiming { tube with queue := [claimHead] } { tube with queue := [claimHead] } [headClaim .i0 10, headClaim .i1 10] 19;
      (s.budget.claims.Pairwise fun c d => c.origin.isEntry = true → d.origin.isEntry = true → c.tube ≠ d.tube)
      ∧ s.freeOf .exhaust = 15 ∧ s.scan.budget.claims = [headClaim .i1 10] ∧ s.scan.freeOf .exhaust = 5
      ∧ s.scan.budget.front .exhaust = some (headClaim .i1 10)) := by decide

/-- R150, R176: a first trip and the end of one make the status word due. -/
theorem test_status_word_due : RootWordDue (after .bankTrip (tripping part)).notices .status
    ∧ RootWordDue (after (.tripClear .service) tripped).notices .status
    ∧ ¬ RootWordDue (after .bankTrip (tripping tripped)).notices .status := by
  unfold RootWordDue
  decide

/-! ## Laws every step keeps -/

/-- A tube with no held write whose gas and boat pass the tests of `GasSafe`. -/
theorem gasSafe {x : TubeState} (hq : x.queue = []) (h1 : (x.gas.lines.get x.header.purgeLine).reactive = false)
    (h2 : ∀ l, (x.gas.lines.get l).reactive = true → (x.gas.lines.get l).flow ≠ 0 → x.gas.atmosphere = .process)
    (h3 : x.gas.atmosphere = .process → x.mode.working = true) (h4 : x.gas.run = none)
    (h5 : x.boat.state = .outPos → x.boat.delivered = 0) (h6 : x.boat.motionTimer = none) : GasSafe x :=
  ⟨fun _ he => absurd (hq ▸ he) List.not_mem_nil, h1, h2, h3, fun h => absurd h4 h, fun _ => hq, h5, fun h => absurd h6 h⟩

theorem gasSafe_part (k : Tube) : GasSafe (part.tube k) := by
  cases k <;> exact gasSafe rfl (by decide) (fun l => by cases l <;> decide) (by decide) rfl (by decide) rfl

/-- `part` with nothing cached, T0 in RUN, or ABORTED behind the trip latch. -/
def resting (latch : Bool) : State :=
  { (withTube fun x => { x with mode := if latch then .aborted else .run }) with
    cache := Four.fill (Four.fill CacheEntry.empty)
    abort := ⟨[], [], latch, if latch then .scanLimit else .none, 0, 300⟩ }

theorem gasSafe_resting (b : Bool) (k : Tube) : GasSafe ((resting b).tube k) := by
  cases b <;> cases k <;> exact gasSafe rfl (by decide) (fun l => by cases l <;> decide) (by decide) rfl (by decide) rfl

theorem witness_laws : part.mem.wf = true ∧ DeliveryOk part.delivery ∧ QueueOk ((holding .run 8).tube .i0).queue
    ∧ (holding .run 8).notices.buffer.length ≤ 8 :=
  ⟨by decide, ⟨by decide, by decide⟩, ⟨by decide, by decide, by decide⟩, by decide⟩

theorem witness_ReleasesKeepReactiveGasSafe : (∀ k, GasSafe (part.tube k)) ∧ ∀ b, ReactiveLaw (resting b) where
  left := gasSafe_part
  right b :=
    { tubes := gasSafe_resting b
      classes := fun k l => by cases b <;> cases k <;> cases l <;> decide
      cache := fun p way h => by
        have e : (resting b).cacheEntry p way = CacheEntry.empty := by
          simp only [State.cacheEntry]
          generalize cacheSet p.channel = i
          cases i <;> cases way <;> rfl
        rw [e] at h
        exact absurd h (by simp [CacheEntry.holds, CacheEntry.empty])
      loading := fun h => absurd rfl h
      jobs := fun h => absurd rfl h
      walks := fun _ => rfl
      writeBacks := fun acc way h => by
        rcases h with ⟨w, h⟩ | h
        · exact absurd h (by intro c; cases c)
        · exact absurd h (by intro c; cases c) }

/-- The premises of the trip and budget laws hold together, with the latch clear and with it set. -/
theorem witness_QueuesStayBounded (b : Bool) : TripLaw (resting b) ∧ BudgetLaw (resting b) ∧ (resting b).abort.latch = b where
  left :=
    { absent := fun k => by cases b <;> cases k <;> decide
      latched := fun h k => by
        cases b with
        | false => cases h
        | true => cases k <;> decide
      served := fun _ h => by cases h }
  right :=
    ⟨{ draw := by cases b <;> decide
       slots := by cases b <;> decide
       apart := .nil
       heads := fun _ h => by cases h
       runs := fun _ h => by cases h
       sampling := fun k h => by cases b <;> cases k <;> exact absurd rfl h
       marked := fun k => by cases b <;> cases k <;> decide
       entries := fun k e h => by cases b <;> cases k <;> cases h
       bindings := fun k l => by cases b <;> cases k <;> cases l <;> decide
       aborted := fun k _ => by cases b <;> cases k <;> rfl
       idle := fun k _ => by cases b <;> cases k <;> rfl
       loading := fun h => absurd rfl h
       adopting := fun _ _ h => by cases h }, by cases b <;> rfl⟩

theorem test_law_steps : (∃ t, step { part with pending := [.tubeVent .service .i0 5] } = .next t ∧ t.mem.wf = true)
    ∧ DeliveryOk (after (.tubeVent .operator .i0 5) boatOut).delivery := ⟨⟨_, rfl, by decide⟩, ⟨by decide, by decide⟩⟩

end Sys2Proof.Tests
end

/-! A queued write that finds eight entries (R34): refused QUEUE_FULL where none is of its channel, and taken where
supersede makes room. -/

namespace Sys2Proof.Machine

/-! ## A full queue without the write's channel -/

/-- R34: a queue that holds eight entries after supersede refuses the write. -/
theorem enqueue_full {s : State} {p : Place} {d : DescWords} {k v : Word}
    (h : 8 ≤ ((s.supersedeChannel p k).tube p.tube).queue.length) :
    s.enqueue p d k v = (s.supersedeChannel p k).refuseFull p k v := by
  unfold State.enqueue
  simp only
  rw [if_neg (by omega), if_neg (by omega)]

/-- R34: QUEUE_FULL sets REFUSED_ANY and changes nothing else of the tube. -/
theorem refuseFull_tube (s : State) (p : Place) (k v : Word) :
    (s.refuseFull p k v).tube p.tube
      = { s.tube p.tube with summary := { (s.tube p.tube).summary with refusedAny := true } } :=
  tube_modTube_eq s p.tube fun x => { x with summary := { x.summary with refusedAny := true } }

theorem refuseFull_others (s : State) {p : Place} {j : Tube} (k v : Word) (h : j ≠ p.tube) :
    (s.refuseFull p k v).tube j = s.tube j :=
  tube_setTube_ne s _ h

theorem Local.refuseFull (s : State) (p : Place) (k v : Word) : Local p.tube s (s.refuseFull p k v) :=
  ((Local.modSummary p.tube s _).trans (.place _ _ _)).trans (.answer _ _ _)

/-- R30, R34: what a queued write leaves that finds eight entries and none of its own channel. -/
theorem ShapedReaches.queued_full {s : State} {c : AccessClass} {p : Place} {v : Word} {d : DescWords}
    (h : ShapedReaches s c p v d) (hq : IsQueued s p.tube d v) (hl : 8 ≤ (s.tube p.tube).queue.length)
    (hn : ∀ f ∈ (s.tube p.tube).queue, f.channel ≠ p.channel) :
    ∃ t, exec (.shapedWrite c p v) s = .next t
      ∧ Still ((ticketedState s p.tube).refuseFull p (s.tube p.tube).nextTicket v) t := by
  obtain ⟨w, hw, rfl⟩ := supersedeChannel_none hn
  have ticket := ticketTaken s p.tube
  refine ⟨_, exec_queued h hq, ?_⟩
  rw [enqueue_full (by rw [hw, ticketedState_queue]; exact hl), hw]
  refine Still.finish (Local.noneDue (ticket.loc.trans (.refuseFull _ p _ _)) (fun j hj => ?_) (.inr (.inr ?_)))
  · rw [refuseFull_others _ _ _ hj, ticket.others j hj, Finished.tube_eq]
  · rw [refuseFull_tube, ticket.own, Finished.tube_eq]
    exact ⟨rfl, rfl, rfl, rfl, rfl, rfl, rfl, rfl, rfl, rfl, fun _ => rfl, rfl⟩

/-! ## A full queue with an entry of the write's channel -/

/-- R32: after the removal of the channel's entries the tube sees nothing but what an examination can do. -/
theorem supersedeChannel_tube (s : State) (p : Place) (k : Word) :
    TubeShift false True
      { s.tube p.tube with queue := (s.tube p.tube).queue.filter fun e => !(e.channel == p.channel) }
      ((s.supersedeChannel p k).tube p.tube) := by
  have removed := supersede_tube (k := p.tube) s (fun e => e.channel == p.channel) .queued k
  unfold State.supersedeChannel
  simp only
  split
  · exact removed.trans ((Shift.examine _ p.tube).tubes p.tube)
  · exact removed

/-- R32: a write whose channel has an entry finds the queue shorter. -/
theorem supersedeChannel_length_lt {s : State} {p : Place} (k : Word)
    (h : ∃ f ∈ (s.tube p.tube).queue, f.channel = p.channel) :
    ((s.supersedeChannel p k).tube p.tube).queue.length < (s.tube p.tube).queue.length := by
  obtain ⟨f, hf, hc⟩ := h
  refine Nat.lt_of_le_of_lt (supersedeChannel_tube s p k).length ?_
  exact List.length_filter_lt_length_iff_exists.mpr ⟨f, hf, by
    simp only [hc, beq_self_eq_true, Bool.not_true, Bool.false_eq_true, not_false_eq_true]⟩

theorem holdHead_lastIssued (s : State) (k : Tube) (n : Word) :
    ((s.holdHead k n).tube k).lastIssued = (s.tube k).lastIssued := by
  unfold State.holdHead
  split
  · rfl
  · split
    · rw [State.tube_place, State.setHead, tube_modTube_eq]
    · rfl

theorem holdFirst_lastIssued (s : State) (k : Tube) (e : HeldEntry) :
    ((s.holdFirst k e).tube k).lastIssued = (s.tube k).lastIssued := by
  have examined := (Shift.examineWith Shift.scan (s.modTube k fun x => { x with queue := [e] }) k).tubes k
  unfold State.holdFirst
  rw [(announce_facts _).1, holdHead_lastIssued, examined.lastIssued, tube_modTube_eq]

theorem holdBehind_lastIssued (s : State) (k : Tube) (e : HeldEntry) :
    ((s.holdBehind k e).tube k).lastIssued = (s.tube k).lastIssued := by
  unfold State.holdBehind
  simp only
  rw [State.tube_place, tube_modTube_eq]

/-- R33: a write that finds room after supersede is acknowledged, and the last issued ticket stays. -/
theorem enqueue_room {s : State} {p : Place} {d : DescWords} {k v : Word}
    (h : ((s.supersedeChannel p k).tube p.tube).queue.length < 8) :
    (s.enqueue p d k v).port = ⟨.idle, .acknowledge⟩
      ∧ ((s.enqueue p d k v).tube p.tube).lastIssued = (s.tube p.tube).lastIssued := by
  have kept := (supersedeChannel_tube s p k).lastIssued
  unfold State.enqueue
  simp only
  by_cases empty : ((s.supersedeChannel p k).tube p.tube).queue.length = 0
  · rw [if_pos empty]
    exact ⟨rfl, (holdFirst_lastIssued _ _ _).trans kept⟩
  · rw [if_neg empty, if_pos h]
    exact ⟨rfl, (holdBehind_lastIssued _ _ _).trans kept⟩

/-- R30, R32, R34: what a queued write leaves that finds eight entries and one of its own channel. -/
theorem ShapedReaches.queued_supersedes_full {s : State} {c : AccessClass} {p : Place} {v : Word} {d : DescWords}
    (h : ShapedReaches s c p v d) (hq : IsQueued s p.tube d v) (hl : (s.tube p.tube).queue.length = 8)
    (ho : ∃ f ∈ (s.tube p.tube).queue, f.channel = p.channel) :
    Completes (.shapedWrite c p v) s fun t => t.port = ⟨.idle, .acknowledge⟩
      ∧ (t.tube p.tube).lastIssued = (s.tube p.tube).nextTicket ∧ Elsewhere (some p.tube) s t := by
  have hlt := supersedeChannel_length_lt (s := ticketedState s p.tube) (s.tube p.tube).nextTicket
    (by rw [ticketedState_queue]; exact ho)
  rw [ticketedState_queue, hl] at hlt
  obtain ⟨port, issued⟩ := enqueue_room (d := d) (v := v) hlt
  have after := Finished.finish s.advance ((ticketedState s p.tube).enqueue p d (s.tube p.tube).nextTicket v)
  refine ⟨_, exec_queued h hq, after.port.trans port, ?_, Elsewhere.of_enqueue after⟩
  rw [(after.tubes p.tube).lastIssued, issued, (ticketTaken s p.tube).own]

/-- Settles O29: no entry of the channel leaves the queue at eight entries, and one of the channel leaves it below. -/
theorem fullQueueRefusesTheWrite : Obligations.FullQueueRefusesTheWrite := by
  intro s c p v d h hq x
  refine ⟨fun hl hn => ?_, h.queued_supersedes_full hq⟩
  obtain ⟨t, ht, still⟩ := h.queued_full hq hl hn
  have ticket := ticketTaken s p.tube
  have own : t.tube p.tube = { x with
      lastIssued := x.nextTicket, nextTicket := x.nextTicket + 1
      summary := { x.summary with refusedAny := true } } := by
    rw [still.tube, refuseFull_tube, ticket.own]
  have frame : Local p.tube s t := ((Local.ticketedState s p.tube).trans (.refuseFull _ p _ _)).finished still.toFinished
  refine ⟨t, ht, ⟨still.port, ?_⟩, own, frame.elsewhere⟩
  exact Reports.of_place (u := (ticketedState s p.tube).markRefused p.tube) ticket.buffer still.clock
    ⟨[], by rw [List.append_nil]; exact still.kept⟩

end Sys2Proof.Machine

/-! A trip taken while the latch is set (R152): its TRIP notice, and no tube or latch touched. -/

namespace Sys2Proof.Machine

/-- R152: what a trip taken behind the latch does before what follows every event: it leaves the waiting trips `rest`,
and its notice is placed. -/
def State.repeatTrip (s : State) (r : TripRequest) (rest : List TripRequest) : State :=
  let taken := s.modAbort fun a => { a with trips := rest }
  taken.place (tripNotice taken r 0xFFFF)

/-- R152: the latch sends the first waiting trip to its repeat and away from the aborts of a first trip. -/
theorem exec_bankTrip_latched {s : State} {r : TripRequest} {rest : List TripRequest} (waiting : s.abort.trips = r :: rest)
    (latched : s.abort.latch = true) : exec .bankTrip s = .next (s.finish (s.repeatTrip r rest)) := by
  have taken : (s.modAbort fun a => { a with trips := rest }).takeTrip r = s.repeatTrip r rest := if_pos latched
  show execBankTrip s = _
  unfold execBankTrip
  rw [waiting]
  exact congrArg (fun u => Host.Outcome.next (s.finish u)) taken

/-- Taking a waiting trip off the list concerns no tube. -/
theorem Local.modTrips (k : Tube) (s : State) (trips : List TripRequest) :
    Local k s (s.modAbort fun a => { a with trips := trips }) :=
  { Local.refl k s with }

theorem Local.repeatTrip (k : Tube) (s : State) (r : TripRequest) (rest : List TripRequest) :
    Local k s (s.repeatTrip r rest) :=
  (Local.modTrips k s rest).trans (.place _ _ _)

@[simp] theorem State.repeatTrip_abort (s : State) (r : TripRequest) (rest : List TripRequest) :
    (s.repeatTrip r rest).abort = { s.abort with trips := rest } := rfl

@[simp] theorem State.tube_repeatTrip (s : State) (r : TripRequest) (rest : List TripRequest) (k : Tube) :
    (s.repeatTrip r rest).tube k = s.tube k := rfl

/-- R40: a repeated trip changes no record an examination reads, so no head is due after it. -/
theorem noneDue_repeatTrip (s : State) (r : TripRequest) (rest : List TripRequest) : NoneDue s (s.repeatTrip r rest) :=
  (Local.repeatTrip .i0 s r rest).noneDue (fun _ _ => rfl) (.inr (.inr (.refl _)))

/-- Settles O51: behind the latch the event is the notice alone, and no examination follows it. -/
theorem repeatedTripChangesNoTube : Obligations.RepeatedTripChangesNoTube := by
  intro s q rest waiting latched ticket
  have after : Still (s.repeatTrip q rest) (s.finish (s.repeatTrip q rest)) := .finish (noneDue_repeatTrip s q rest)
  have frame : Elsewhere none s (s.repeatTrip q rest) := (Local.repeatTrip .i0 s q rest).elsewhere_none (.refl _)
  have abort : (s.finish (s.repeatTrip q rest)).abort = { s.abort with trips := rest } := after.abort
  refine ⟨_, exec_bankTrip_latched waiting latched, abort, ?trip, ?notice, after.tube, frame.trans after.elsewhere⟩
  case trip => rw [State.tripOutput, abort, latched]
  case notice =>
    exact Reports.of_place (u := s.modAbort fun a => { a with trips := rest }) rfl after.clock
      ⟨[], by rw [List.append_nil]; exact after.kept⟩

end Sys2Proof.Machine

/-! A notice placed, or lost and counted (R182), and the record that leaves the Notice Buffer (R183). -/

namespace Sys2Proof.Machine

/-- R182: a notice that finds room joins the back of the buffer, stamped; nothing else of the state changes. -/
theorem State.place_of_room {s : State} (n : Notice) (room : s.notices.buffer.length < 8) :
    s.place n = { s with notices := { s.notices with
      buffer := s.notices.buffer ++ [{ n with clock := s.clock }] } } :=
  congrArg (fun w => { s with notices := w }) (if_pos room)

/-- R182: a notice that finds eight records is lost; nothing of the state changes but its count. -/
theorem State.place_of_full {s : State} (n : Notice) (full : 8 ≤ s.notices.buffer.length) :
    s.place n = { s with notices := s.notices.lose } :=
  congrArg (fun w => { s with notices := w }) (if_neg (Nat.not_lt.mpr full))

/-- R182: the lost count rises by one, stopping at 0FFFFH. -/
theorem NoticeWriter.lose_eq (w : NoticeWriter) :
    w.lose = { w with lost := if w.lost = 0xFFFF then 0xFFFF else w.lost + 1, dueLost := true } := by
  unfold NoticeWriter.lose
  split
  next stopped => rw [stopped]
  next => rfl

@[simp] theorem NoticeWriter.lose_buffer (w : NoticeWriter) : w.lose.buffer = w.buffer := rfl

/-- R183: with a free ring record or with none, the record that leaves the buffer is the front one. -/
theorem NoticeWriter.takeRecord_buffer (w : NoticeWriter) : w.takeRecord.buffer = w.buffer.tail := by
  unfold NoticeWriter.takeRecord
  split
  next empty => rw [empty, List.tail_nil]
  next front rest filled =>
    rw [filled, List.tail_cons]
    split
    · exact NoticeWriter.lose_buffer _
    · rfl

/-- Settles O55: by the room the notice finds in the buffer. -/
theorem noticeIsPlacedOrLost : Obligations.NoticeIsPlacedOrLost := by
  intro s n
  refine ⟨State.place_of_room n, fun full => ?lost, ?words, s.notices.takeRecord_buffer⟩
  case lost => rw [State.place_of_full n full, NoticeWriter.lose_eq]
  case words => rfl

end Sys2Proof.Machine

/-! What every command keeps whatever state it meets: the waiting commands, the canonical form of the image memory, the
order of the Delivery Queue and the bounds of the queues and the Notice Buffer (R35, R168, R182, log 2). -/

namespace Sys2Proof.Machine

variable {s t u : State} {k : Tube}

/-! ## A Held Write Queue through the events of its tube -/

/-- The laws of a tube's Held Write Queue (R35) hold after an event where they held before it. -/
def Queued (k : Tube) (s t : State) : Prop := QueueOk (s.tube k).queue → QueueOk (t.tube k).queue

theorem Queued.refl (s : State) : Queued k s s := id

theorem Queued.trans (h : Queued k s t) (g : Queued k t u) : Queued k s u := fun q => g (h q)

theorem QueueOk.nil : QueueOk [] :=
  ⟨Nat.zero_le 8, List.nodup_nil, fun _ h => absurd h List.not_mem_nil⟩

theorem QueueOk.filter {q : List HeldEntry} (f : HeldEntry → Bool) (h : QueueOk q) : QueueOk (q.filter f) := by
  obtain ⟨short, channels, waiting⟩ := h
  refine ⟨Nat.le_trans (List.length_filter_le f q) short, channels.sublist (List.filter_sublist.map _), fun e he => ?_⟩
  cases q with
  | nil => cases he
  | cons head rest =>
    rw [List.filter_cons] at he
    split at he
    · exact waiting e (List.mem_filter.mp he).1
    · exact waiting e (List.mem_filter.mp (List.mem_of_mem_tail he)).1

/-- R33: an entry behind others, of a channel that none of them has. -/
theorem QueueOk.append {q : List HeldEntry} {e : HeldEntry} (h : QueueOk q) (short : q.length < 8)
    (fresh : ∀ f ∈ q, f.channel ≠ e.channel) (waiting : e.state = .waiting) : QueueOk (q ++ [e]) := by
  obtain ⟨_, channels, behind⟩ := h
  refine ⟨by rw [List.length_append]; exact short, ?_, fun f hf => ?_⟩
  · rw [List.map_append, List.nodup_append]
    refine ⟨channels, List.pairwise_singleton _ _, fun a ha b hb => ?_⟩
    obtain ⟨f, hf, rfl⟩ := List.mem_map.mp ha
    rw [List.map_singleton, List.mem_singleton] at hb
    exact hb ▸ fresh f hf
  · cases q with
    | nil => cases hf
    | cons head rest =>
      rcases List.mem_append.mp hf with hf | hf
      · exact behind f hf
      · rw [List.mem_singleton.mp hf]; exact waiting

theorem Queued.setTube {x : TubeState} (h : QueueOk (s.tube k).queue → QueueOk x.queue) : Queued k s (s.setTube k x) :=
  fun q => by rw [tube_setTube_self]; exact h q

/-- A change of the tube that leaves its queue. -/
theorem Queued.modTube (s : State) (f : TubeState → TubeState) (h : (f (s.tube k)).queue = (s.tube k).queue) :
    Queued k s (s.modTube k f) :=
  .setTube fun q => by rw [h]; exact q

theorem Queued.modRamp (s : State) (f : Ramp → Ramp) : Queued k s (s.modRamp k f) := .setTube id

theorem Queued.modGas (s : State) (f : Gas → Gas) : Queued k s (s.modGas k f) := .setTube id

theorem Queued.modBoat (s : State) (f : Boat → Boat) : Queued k s (s.modBoat k f) := .setTube id

theorem Queued.modSummary (s : State) (f : Summary → Summary) : Queued k s (s.modSummary k f) := .setTube id

/-- What leaves the tubes leaves the queue. -/
theorem Queued.same (h : t.tubes = s.tubes) : Queued k s t := fun q => by
  rw [State.tube, h]; exact q

theorem Queued.place (s : State) (n : Notice) : Queued k s (s.place n) := .same rfl

theorem Queued.deliver (s : State) (a : Addr) (v : Word) (b : Bool) : Queued k s (s.deliver a v b) := .same rfl

theorem Queued.answer (s : State) (a : Answer) : Queued k s (s.answer a) := .same rfl

theorem Queued.requestAbort (s : State) (r : AbortRequest) : Queued k s (s.requestAbort r) := .same rfl

theorem Queued.requestTrip (s : State) (r : TripRequest) : Queued k s (s.requestTrip r) := .same rfl

theorem Queued.foldl {α : Type} {f : State → α → State} (h : ∀ s a, Queued k s (f s a)) :
    ∀ (l : List α) (s : State), Queued k s (l.foldl f s)
  | [], s => .refl s
  | a :: l, s => (h s a).trans (Queued.foldl h l _)

/-- Examinations, releases, grants and scans keep the laws of every queue. -/
theorem Shift.queued (h : Shift none True s t) : Queued k s t := (h.tubes k).queueOk

theorem Queued.rescan (s : State) : Queued k s s.rescan := (Shift.rescan s).queued

theorem Queued.examine (s : State) (t : Tube) : Queued k s (s.examine t) := (Shift.examine s t).queued

theorem Queued.withdraw (s : State) (w : Claim → Bool) : Queued k s (s.withdraw State.rescan w) :=
  (Shift.withdraw Shift.rescan s w).queued

/-! ### Engines -/

theorem Queued.setFlow (s : State) (l : Line) (v : Word) (b : Bool) : Queued k s (s.setFlow k l v b) :=
  (Queued.modGas s _).trans (.deliver _ _ _ _)

theorem Queued.lowerLine (s : State) (l : Line) (v : Word) : Queued k s (s.lowerLine State.rescan k l v) := by
  unfold State.lowerLine
  simp only
  split
  · exact (Queued.setFlow s l v true).trans (.rescan _)
  · exact .setFlow s l v true

theorem Queued.startRun (s : State) (r : RunStart) : Queued k s (s.startRun State.rescan k r) :=
  (Queued.modGas s _).trans ((Shift.startRun (P := True) Shift.rescan s k r).tubes k).queueOk

theorem Queued.clearingTest (s : State) (l : Line) (v : Word) : Queued k s (s.clearingTest State.rescan k l v) := by
  unfold State.clearingTest
  split
  · exact .startRun s _
  · exact .refl s

theorem Queued.freeSlot (s : State) : Queued k s (s.freeSlot State.rescan k) := by
  unfold State.freeSlot
  split
  · exact (Queued.modRamp s _).trans (.rescan _)
  · exact .refl s

theorem Queued.setZone (s : State) (z : Zone) (v : Word) : Queued k s (s.setZone k z v) :=
  (Queued.modRamp s _).trans (.deliver _ _ _ _)

theorem Queued.boatDone (s : State) (n : Nat) : Queued k s (s.boatDone k n) := (Queued.modSummary s _).trans (.place _ _)

/-! ### Removals -/

theorem Queued.filterQueue (s : State) (f : HeldEntry → Bool) :
    Queued k s (s.modTube k fun x => { x with queue := x.queue.filter f }) :=
  .setTube fun q => q.filter f

theorem Queued.supersede (s : State) (w : HeldEntry → Bool) (y : Way) (n : Word) : Queued k s (s.supersede k w y n) :=
  fun q => (supersede_tube s w y n).queueOk (q.filter _)

theorem Queued.placeFlushed (o : FlushOrigin) : ∀ (n : Nat) (q : List HeldEntry) (s : State),
    Queued k s (placeFlushed k o n q s)
  | _, [], s => .refl s
  | n, _ :: q, s => (Queued.place s _).trans (Queued.placeFlushed o (n + 1) q _)

theorem Queued.flush (s : State) (o : FlushOrigin) : Queued k s (s.flush k o) := fun _ => by
  rw [(flush_halts s o).2]; exact .nil

/-! ### The Abort Controller -/

theorem Queued.closeReactive : ∀ (ls : List Line) (s : State), Queued k s (s.closeReactive k ls)
  | [], s => .refl s
  | l :: ls, s => by
    unfold State.closeReactive
    simp only
    refine Queued.trans ?_ (Queued.closeReactive ls _)
    split
    · exact .lowerLine _ _ _
    · exact .refl _

theorem Queued.raiseRunClaim (s : State) : Queued k s (s.raiseRunClaim k) := by
  unfold State.raiseRunClaim
  split
  · exact .refl s
  · split
    · exact .refl s
    · refine Queued.trans ?_ (.rescan _)
      exact Queued.trans (t := s.modBudget _) (.same rfl) (.modGas _ _)

theorem Queued.gasAbort (s : State) : Queued k s (s.gasAbort k) := by
  unfold State.gasAbort
  simp only
  split
  · exact (Queued.closeReactive _ s).trans (.startRun _ _)
  · exact (Queued.withdraw s _).trans (.startRun _ _)
  · exact (Queued.modGas s _).trans (.raiseRunClaim _)
  · exact .refl s
  · exact .refl s

theorem Queued.endAbort (s : State) (w : Word) : Queued k s (s.endAbort k w) := by
  unfold State.endAbort
  simp only
  exact Queued.trans (t := s.modTube k _) (.setTube id) (.place _ _)

theorem Queued.afterGasAbort (s : State) : Queued k s (s.afterGasAbort k) := by
  unfold State.afterGasAbort
  split
  · exact .endAbort s _
  · split
    · exact .setTube id
    · exact .refl s

theorem Queued.abortTube (s : State) (r : AbortRequest) : Queued r.tube s (s.abortTube r) := by
  unfold State.abortTube
  simp only
  have begun : Queued r.tube s (s.beginAbort r) := (Queued.modTube s _ rfl).trans (.place _ _)
  refine Queued.trans ?_ ((Queued.gasAbort _).trans (.afterGasAbort _))
  refine Queued.trans ?_ (.modBoat _ _)
  refine Queued.trans ?_ ((Queued.modRamp _ _).trans (.freeSlot _))
  exact (begun.trans (.flush _ _)).trans (.modTube _ _ rfl)

theorem Queued.takeAbort (s : State) (r : AbortRequest) : Queued r.tube s (s.takeAbort r) := by
  unfold State.takeAbort
  split
  · exact .refl s
  · split
    · exact .abortTube s r
    · exact .abortTube s r
    · exact .place _ _
    · exact .place _ _

/-! ### Tube Control -/

theorem Queued.refuseTube (s : State) (a : Access) (p : Place) (r : RefuseReason) :
    Queued p.tube s (s.refuseTube a p r) :=
  ((Queued.modSummary s _).trans (.place _ _)).trans (.answer _ _)

theorem Queued.closeAll : ∀ (ls : List Line) (s : State), Queued k s (s.closeAll k ls)
  | [], s => .refl s
  | l :: ls, s => by
    unfold State.closeAll
    simp only
    refine Queued.trans ?_ (Queued.closeAll ls _)
    split
    · exact .lowerLine _ _ _
    · exact .refl _

theorem Queued.tubeCommand (s : State) (a : Access) (p : Place) : Queued p.tube s (s.tubeCommand a p) := by
  have taken : ∀ f : TubeState → TubeState, (f (s.tube p.tube)).queue = (s.tube p.tube).queue →
      Queued p.tube s (s.modTube p.tube f).ack := fun f e =>
    (Queued.setTube fun q => by rw [e]; exact q).trans (.answer _ _)
  unfold State.tubeCommand
  split
  · unfold State.commandPurge
    split
    · exact (Queued.startRun s _).trans (.answer _ _)
    · exact .refuseTube s a p _
  · unfold State.commandHold
    split
    · exact taken _ rfl
    · exact .answer s _
    · exact .refuseTube s a p _
    · exact .refuseTube s a p _
  · unfold State.commandResume
    split
    · exact .answer s _
    · exact taken _ rfl
    · exact .refuseTube s a p _
    · split
      · exact .refuseTube s a p _
      · exact taken _ rfl
  · exact (Queued.requestAbort s _).trans (.answer _ _)
  · unfold State.commandVent
    split
    · exact ((Queued.closeAll _ s).trans (.modGas _ _)).trans (.answer _ _)
    · exact .refuseTube s a p _
  · unfold State.commandFlush
    split
    · exact (Queued.flush s _).trans (.answer _ _)
    · exact .refuseTube s a p _
  · exact .refuseTube s a p _

theorem readWord_queue (x : TubeState) (n : Nat) : (x.readWord n).2.queue = x.queue := by
  unfold TubeState.readWord
  split
  case h_5 => unfold TubeState.readLow; split <;> rfl
  case h_6 => unfold TubeState.readHigh; split <;> rfl
  all_goals rfl

theorem Queued.tubeRead (s : State) (p : Place) : Queued p.tube s (s.tubeRead p) :=
  (Queued.setTube fun q => by rw [readWord_queue]; exact q).trans (.answer _ _)

/-! ### Acceptance and the MANUAL path -/

theorem Queued.takeTicket (s : State) : Queued k s (s.takeTicket k) := .setTube id

theorem Queued.bypass (s : State) (p : Place) (l : Line) (n v : Word) : Queued p.tube s (s.bypass p l n v) := by
  unfold State.bypass
  simp only
  refine Queued.trans ?_ ((Queued.clearingTest _ _ _).trans (.examine _ _))
  exact (((Queued.supersede s _ _ _).trans (.lowerLine _ _ _)).trans (.place _ _)).trans (.setTube id)

theorem Queued.holdHead (s : State) (n : Word) : Queued k s (s.holdHead k n) := by
  unfold State.holdHead
  split
  · exact .refl s
  · next e q hq =>
    split
    · refine Queued.trans (.setTube (x := { s.tube k with
        queue := e.hold (s.tube k).header.holdLimit :: (s.tube k).queue.tail }) fun ok => ?_) (.place _ _)
      rw [hq] at ok ⊢
      exact QueueOk.head (e := e) rfl ok
    · exact .refl s

/-- R33: a WAITING entry alone in its queue. -/
theorem Queued.holdFirst (s : State) (e : HeldEntry) : Queued k s (s.holdFirst k e) := by
  unfold State.holdFirst
  refine Queued.trans ?_ (Shift.announce none _).queued
  refine Queued.trans ?_ (.holdHead _ _)
  refine Queued.trans (.setTube fun _ => ?_) (Shift.examineWith Shift.scan _ k).queued
  exact ⟨Nat.succ_le_succ (Nat.zero_le 7), List.pairwise_singleton _ _, fun f hf => absurd hf List.not_mem_nil⟩

theorem holdBehind_queueOk {s : State} {e : HeldEntry} (ok : QueueOk (s.tube k).queue)
    (short : (s.tube k).queue.length < 8) (fresh : ∀ f ∈ (s.tube k).queue, f.channel ≠ e.channel)
    (waiting : e.state = .waiting) : QueueOk ((s.holdBehind k e).tube k).queue := by
  unfold State.holdBehind
  simp only
  rw [State.tube_place, tube_modTube_eq]
  exact ok.append short fresh waiting

/-- R32: no entry of the channel is left. -/
theorem supersedeChannel_fresh (s : State) (p : Place) (n : Word) :
    ∀ f ∈ ((s.supersedeChannel p n).tube p.tube).queue, f.channel ≠ p.channel := by
  intro f hf
  have left := (supersedeChannel_tube s p n).suffix.subset (List.mem_map_of_mem hf)
  obtain ⟨e, he, hc⟩ := List.mem_map.mp left
  have channel : e.core.channel = f.core.channel := congrArg HeldEntry.channel hc
  rw [show f.channel = e.channel from channel.symm]
  simpa using (List.mem_filter.mp he).2

theorem Queued.supersedeChannel (s : State) (p : Place) (n : Word) : Queued p.tube s (s.supersedeChannel p n) :=
  fun q => (supersedeChannel_tube s p n).queueOk (q.filter _)

theorem Queued.enqueue (s : State) (p : Place) (d : DescWords) (n v : Word) : Queued p.tube s (s.enqueue p d n v) := by
  have fresh := supersedeChannel_fresh s p n
  unfold State.enqueue
  simp only
  refine (Queued.supersedeChannel s p n).trans ?_
  split
  · exact (Queued.holdFirst _ _).trans (.answer _ _)
  · split
    · next short => exact Queued.trans (fun q => holdBehind_queueOk q short fresh rfl) (.answer _ _)
    · exact ((Queued.modSummary _ _).trans (.place _ _)).trans (.answer _ _)

theorem Queued.accept (s : State) (a : Access) (p : Place) (d : DescWords) : Queued p.tube s (s.accept a p d) := by
  unfold State.accept
  simp only
  split
  · exact .refuseTube s a p _
  · split
    · exact .refuseTube s a p _
    · split
      · exact ((Queued.takeTicket s).trans (.bypass _ _ _ _ _)).trans (.answer _ _)
      · split
        · exact .refuseTube s a p _
        · exact (Queued.takeTicket s).trans (.enqueue _ _ _ _ _)

theorem Queued.manualLine (s : State) (a : Access) (p : Place) (d : DescWords) (l : Line) :
    Queued p.tube s (s.manualLine a p d l) := by
  unfold State.manualLine
  simp only
  split
  · exact (Queued.lowerLine s _ _).trans (.answer _ _)
  · split
    · unfold State.raiseLine
      simp only
      refine Queued.trans ?_ (.answer _ _)
      split
      · exact (Queued.setFlow s _ _ _).trans (.rescan _)
      · exact .setFlow s _ _ _
    · exact .refuseTube s a p _

theorem Queued.manual (s : State) (a : Access) (p : Place) (d : DescWords) : Queued p.tube s (s.manual a p d) := by
  unfold State.manual
  split
  · exact .refuseTube s a p _
  · split
    · exact .refuseTube s a p _
    · split
      · exact (((Queued.modRamp s _).trans (.setZone _ _ _)).trans (.modRamp _ _)).trans (.answer _ _)
      · exact .manualLine s a p d _
      · exact ((Queued.modBoat s _).trans (.deliver _ _ _ _)).trans (.answer _ _)
      · exact .answer s _

theorem Queued.passWrite (s : State) (a : Access) (x : Addr) (c : Bool) : Queued k s (s.passWrite a x c) := by
  unfold State.passWrite
  split <;> exact .same rfl

theorem Queued.passRead (s : State) (a : Access) (x : Addr) : Queued k s (s.passRead a x) := by
  unfold State.passRead
  split <;> exact .same rfl

theorem Queued.dispatchRead (s : State) (a : Access) (p : Place) (d : DescWords) :
    Queued p.tube s (s.dispatchRead a p d) := by
  unfold State.dispatchRead
  split
  · exact .passRead _ _ _
  · exact .tubeRead _ _
  · exact .passRead _ _ _

theorem Queued.dispatchWrite (s : State) (a : Access) (p : Place) (d : DescWords) :
    Queued p.tube s (s.dispatchWrite a p d) := by
  unfold State.dispatchWrite
  split
  · exact .passWrite _ _ _ _
  · exact .tubeCommand _ _ _
  · split
    · exact .manual _ _ _ _
    · exact .accept _ _ _ _

/-! ### Expiries and arrivals -/

theorem Queued.entryExpired (s : State) (e : HeldEntry) : Queued k s (s.entryExpired k e) := by
  unfold State.entryExpired
  simp only
  have removed : Queued k s (if e.state = EntryState.claiming then
      (s.modTube k fun x => { x with queue := x.queue.filter (fun f => f.ticket != e.ticket) }).withdraw State.rescan
        (Claim.ofHead k)
      else s.modTube k fun x => { x with queue := x.queue.filter (fun f => f.ticket != e.ticket) }) := by
    split
    · exact (Queued.filterQueue s _).trans (.withdraw _ _)
    · exact .filterQueue s _
  split
  · exact ((removed.trans (.place _ _)).trans (.modSummary _ _)).trans (.examine _ _)
  · exact (removed.trans (.place _ _)).trans (.modSummary _ _)

theorem Queued.gapExpired (s : State) : Queued k s (s.gapExpired k) := (Queued.modTube s _ rfl).trans (.examine _ _)

theorem Queued.moveZone (s : State) (z : Zone) : Queued k s (s.moveZone k z) := by
  unfold State.moveZone
  simp only
  split
  · exact .setZone s z _
  · exact .refl s

theorem Queued.afterMoves (s : State) : Queued k s (s.afterMoves k) := by
  unfold State.afterMoves
  simp only
  split
  · exact (Queued.modRamp s _).trans (.freeSlot _)
  · exact .modRamp s _
  · exact (Queued.modRamp s _).trans (.freeSlot _)

theorem Queued.lagHold (s : State) (z : Zone) : Queued k s (s.lagHold k z) := by
  unfold State.lagHold
  simp only
  split
  · exact (Queued.modRamp s _).trans (.place _ _)
  · exact .refl s

theorem Queued.stepExpired (s : State) : Queued k s (s.stepExpired k) := by
  unfold State.stepExpired
  simp only
  refine (Queued.modRamp s fun r => { r with stepTimer := some (s.tube k).header.stepPeriod }).trans ?_
  split
  · exact .lagHold _ _
  · exact ((Queued.foldl (fun u z => .moveZone u z) _ _).trans (.modRamp _ _)).trans (.afterMoves _)

theorem Queued.settleExpired (s : State) : Queued k s (s.settleExpired k) := by
  unfold State.settleExpired
  split
  · unfold State.settleFailed
    simp only
    split
    · exact (Queued.modRamp s _).trans (.place _ _)
    · exact .modRamp s _
  · exact ((Queued.modRamp s _).trans (.place _ _)).trans (.modSummary _ _)

theorem Queued.afterMove (s : State) : Queued k s (s.afterMove k) := by
  unfold State.afterMove
  simp only
  split
  · exact ((Queued.modBoat s _).trans (.modBoat _ _)).trans (.requestAbort _ _)
  · split
    · exact ((Queued.modBoat s _).trans (.modBoat _ _)).trans (.boatDone _ _)
    · exact (Queued.modBoat s _).trans (.modBoat _ _)

theorem Queued.motionExpired (s : State) : Queued k s (s.motionExpired k) := by
  unfold State.motionExpired
  simp only
  refine Queued.trans ?_ (.afterMove _)
  split
  · exact .modBoat s _
  · exact ((Queued.modBoat s _).trans (.modBoat _ _)).trans (.deliver _ _ _ _)

theorem Queued.ite {c : Prop} [Decidable c] (h : Queued k s t) (g : Queued k s u) : Queued k s (if c then t else u) := by
  split
  · exact h
  · exact g

theorem Queued.completeRun (s : State) (r : Run) : Queued k s (s.completeRun k r) := by
  unfold State.completeRun
  simp only
  have stopped : Queued k s (s.modGas k fun g =>
    { g with sampleTimer := none, limitTimer := none, atmosphere := .inert, run := none }) := .modGas s _
  refine .ite ?_ ?_
  · exact (((stopped.trans (.lowerLine _ _ _)).trans (.modSummary _ _)).trans (.place _ _)).trans (.endAbort _ _)
  · exact ((stopped.trans (.lowerLine _ _ _)).trans (.modSummary _ _)).trans (.place _ _)

theorem Queued.sampleExpired (s : State) : Queued k s (s.sampleExpired k) := by
  unfold State.sampleExpired
  simp only
  refine (Queued.modGas s fun g => g.addSample (s.purgeFlowUsed k) (s.tube k).header.samplePeriod).trans ?_
  split
  · exact .modGas _ _
  · split
    · exact .completeRun _ _
    · exact .refl _

theorem Queued.purgeLimitExpired (s : State) : Queued k s (s.purgeLimitExpired k) := by
  unfold State.purgeLimitExpired
  simp only
  split
  · exact .modGas s _
  · split
    · exact (Queued.modGas s _).trans (.requestAbort _ _)
    · exact (Queued.modGas s _).trans (.requestAbort _ _)
    · exact (Queued.modGas s _).trans (.requestTrip _ _)
    · exact .modGas s _

theorem Queued.lineArrives (s : State) (a : LineArrival) : Queued a.tube s (s.lineArrives a) := by
  unfold State.lineArrives
  simp only
  split
  · split
    · split
      · exact (Queued.modGas s _).trans (.requestAbort _ _)
      · exact .modGas s _
    · exact .modGas s _
  · exact .refl s

theorem Queued.abortClaimExpired (s : State) : Queued k s (s.abortClaimExpired k) := by
  unfold State.abortClaimExpired
  simp only
  split
  · exact .modTube s _ rfl
  · exact (Queued.modTube s _ rfl).trans (.requestTrip _ _)

end Sys2Proof.Machine

/-! What every command keeps (continued): `Orderly`, through accesses, the loader and the bus, and so along every step. -/

namespace Sys2Proof.Machine

variable {s t u : State} {k : Tube}

/-! ## The relation -/

/-- The waiting commands are left, and the canonical form of the image memory, the laws of the Delivery Queue and of the
Held Write Queues and the bound of the Notice Buffer are kept. -/
structure Orderly (s t : State) : Prop where
  pending : t.pending = s.pending
  mem : s.mem.wf = true → t.mem.wf = true
  delivery : DeliveryOk s.delivery → DeliveryOk t.delivery
  buffer : s.notices.buffer.length ≤ 8 → t.notices.buffer.length ≤ 8
  queues : ∀ k, Queued k s t

theorem Orderly.refl (s : State) : Orderly s s := ⟨rfl, id, id, id, fun _ => .refl s⟩

theorem Orderly.trans (h : Orderly s t) (g : Orderly t u) : Orderly s u where
  pending := g.pending.trans h.pending
  mem := fun a => g.mem (h.mem a)
  delivery := fun a => g.delivery (h.delivery a)
  buffer := fun a => g.buffer (h.buffer a)
  queues := fun k => (h.queues k).trans (g.queues k)

theorem Orderly.foldl {α : Type} {f : State → α → State} (h : ∀ s a, Orderly s (f s a)) :
    ∀ (l : List α) (s : State), Orderly s (l.foldl f s)
  | [], s => .refl s
  | a :: l, s => (h s a).trans (Orderly.foldl h l _)

theorem Orderly.ite {c : Prop} [Decidable c] (h : Orderly s t) (g : Orderly s u) : Orderly s (if c then t else u) := by
  split
  · exact h
  · exact g

/-- What follows an event. -/
theorem Finished.orderly (h : Finished s t) : Orderly s t :=
  ⟨h.pending, fun a => by rw [h.mem]; exact a, h.delivery, h.bounded, fun k => (h.tubes k).queueOk⟩

/-- An event of one tube. -/
theorem Local.orderly (h : Local k s t) (q : Queued k s t) : Orderly s t where
  pending := h.pending
  mem := fun a => by rw [h.mem]; exact a
  delivery := h.delivery
  buffer := h.bounded
  queues := fun j => if e : j = k then e ▸ q else (h.others j e).queueOk

/-- Whatever leaves these five. -/
theorem Orderly.same (hp : t.pending = s.pending) (hm : t.mem = s.mem) (hd : t.delivery = s.delivery)
    (hb : t.notices.buffer = s.notices.buffer) (ht : t.tubes = s.tubes) : Orderly s t :=
  ⟨hp, fun a => by rw [hm]; exact a, fun a => by rw [hd]; exact a, fun a => by rw [hb]; exact a, fun _ => .same ht⟩

theorem Orderly.finish (before : State) (h : Orderly s t) : Orderly s (before.finish t) :=
  h.trans (Finished.finish before t).orderly

theorem Orderly.place (s : State) (n : Notice) : Orderly s (s.place n) := (Local.place .i0 s n).orderly (.place s n)

theorem Orderly.answer (s : State) (a : Answer) : Orderly s (s.answer a) := .same rfl rfl rfl rfl rfl

theorem Orderly.setJob (s : State) (j : LoadJob) : Orderly s (s.setJob j) := .same rfl rfl rfl rfl rfl

theorem Orderly.modNotices (s : State) (f : NoticeWriter → NoticeWriter) (h : (f s.notices).buffer = s.notices.buffer) :
    Orderly s (s.modNotices f) :=
  .same rfl rfl rfl h rfl

/-! ## Time and the bus -/

theorem QueueOk.pass {x : TubeState} (n : Nat) (h : QueueOk x.queue) : QueueOk (x.pass n).queue := by
  obtain ⟨short, channels, waiting⟩ := h
  refine ⟨Nat.le_trans (Nat.le_of_eq (List.length_map _)) short, ?_, fun e he => ?_⟩
  · rw [TubeState.pass, List.map_map]; exact channels
  · rw [TubeState.pass, ← List.map_tail] at he
    obtain ⟨d, hd, rfl⟩ := List.mem_map.mp he
    exact waiting d hd

theorem Orderly.elapse (s : State) (n : Nat) : Orderly s (s.elapse n) :=
  ⟨rfl, id, id, id, fun k q => by rw [tube_elapse]; exact q.pass n⟩

theorem Orderly.writeWord (s : State) (a : Addr) (v : Word) : Orderly s (s.writeWord a v) :=
  ⟨rfl, Memory.wf_write _ _, id, id, fun _ => .same rfl⟩

theorem Orderly.completeBus (s : State) : Orderly s s.completeBus := by
  unfold State.completeBus
  split
  · exact .refl s
  · simp only
    have freed : Orderly s { s with bus := { s.bus with inFlight := none } } := .same rfl rfl rfl rfl rfl
    split
    · exact freed
    · exact freed.trans (.writeWord _ _ _)

theorem Orderly.advance (s : State) : Orderly s s.advance := (Finished.advance s).orderly

theorem Orderly.openBus (s : State) (r : Requester) : Orderly s (s.openBus r) := by
  unfold State.openBus State.dropDiscarded
  refine (Orderly.advance s).trans ?_
  split
  · exact .refl _
  · exact .ite (Orderly.finish _ (.completeBus _)) (.refl _)

theorem Orderly.takeWords {r : Requester} {ready : State → Bool} {f : State → Word → State}
    (h : ∀ s w, Orderly s (f s w)) : ∀ (n : Nat) (s : State), Orderly s (takeWords r ready f n s)
  | 0, s => .refl s
  | n + 1, s => by
    unfold Machine.takeWords
    split
    · exact .refl s
    · exact .ite ((Orderly.finish s ((Orderly.completeBus s).trans (h _ _))).trans (Orderly.takeWords h n _)) (.refl s)

theorem Orderly.expiry (before : State) (n : Nat) {f : State → State} (h : ∀ s, Orderly s (f s)) :
    Orderly s (before.finish (f (s.elapse n))) :=
  .finish _ ((Orderly.elapse s n).trans (h _))

/-! ## Accesses -/

theorem Orderly.refuseBank (s : State) (a : Access) (r : RefuseReason) : Orderly s (s.refuseBank a r) :=
  (Orderly.place s _).trans (.answer _ _)

theorem Orderly.refuseAt (s : State) (a : Access) (p : Place) (r : RefuseReason) : Orderly s (s.refuseAt a p r) :=
  (Orderly.place s _).trans (.answer _ _)

theorem Orderly.passWrite (s : State) (a : Access) (x : Addr) (c : Bool) : Orderly s (s.passWrite a x c) :=
  (Local.passWrite s a x c : Local .i0 _ _).orderly (.passWrite s a x c)

theorem Orderly.dispatchRead (s : State) (a : Access) (p : Place) (d : DescWords) : Orderly s (s.dispatchRead a p d) :=
  (Local.dispatchRead s a p d).orderly (.dispatchRead s a p d)

theorem Orderly.dispatchWrite (s : State) (a : Access) (p : Place) (d : DescWords) :
    Orderly s (s.dispatchWrite a p d) :=
  (Local.dispatchWrite s a p d).orderly (.dispatchWrite s a p d)

theorem Orderly.passThrough (s : State) (a : Access) : Orderly s (s.passThrough a) := by
  unfold State.passThrough
  split
  · exact (Local.passRead s a _ : Local .i0 _ _).orderly (.passRead s a _)
  · split
    · exact .refuseBank s a _
    · exact .passWrite s a _ _

theorem Orderly.afterLookup (s : State) (a : Access) (p : Place) (way : Ix4) : Orderly s (s.afterLookup a p way) := by
  unfold State.afterLookup
  simp only
  split
  · exact .refuseAt s a p _
  · split
    · exact .dispatchRead s a p _
    · exact .ite (.dispatchWrite s a p _) (.same rfl rfl rfl rfl rfl)

theorem Orderly.lookup (s : State) (a : Access) (p : Place) : Orderly s (s.lookup a p) := by
  have counted : Orderly s { s with replacement := s.replacement + 1 } := .same rfl rfl rfl rfl rfl
  unfold State.lookup
  simp only
  split
  · exact counted.trans (.afterLookup _ a p _)
  · exact .same rfl rfl rfl rfl rfl

theorem Orderly.channelAccess (s : State) (a : Access) (p : Place) : Orderly s (s.channelAccess a p) := by
  unfold State.channelAccess
  split
  · exact .refuseAt s a p _
  · exact .refuseAt s a p _
  · exact .ite (.lookup s a p) (.refuseAt s a p _)

theorem Orderly.flushCommand (s : State) (a : Access) : Orderly s (s.flushCommand a) :=
  .ite (.same rfl rfl rfl rfl rfl) (.ite (.same rfl rfl rfl rfl rfl) (.refuseBank s a _))

theorem withdrawRequest_notices (s : State) (r : Requester) : (s.withdrawRequest r).notices = s.notices := by
  unfold State.withdrawRequest; split <;> rfl

theorem abandonRecord_buffer (s : State) : s.abandonRecord.notices.buffer = s.notices.buffer := by
  unfold State.abandonRecord
  split
  · show (s.withdrawRequest .notice).notices.buffer = _
    rw [withdrawRequest_notices]
  · rfl

theorem Orderly.abandonReads (s : State) : Orderly s s.abandonReads := by
  obtain ⟨b, n, e⟩ := abandonReads_eq s
  have buffer : s.abandonReads.notices.buffer = s.notices.buffer := by
    unfold State.abandonReads
    rw [abandonRecord_buffer]
    show ((State.abandonAccess (s.withdrawRequest .walk) .walk).withdrawRequest .scan).notices.buffer = _
    rw [withdrawRequest_notices]
    exact congrArg NoticeWriter.buffer (withdrawRequest_notices s .walk)
  rw [e] at buffer ⊢
  exact .same rfl rfl rfl buffer rfl

theorem Orderly.reload (s : State) (straps : BitVec 4) : Orderly s (s.reload straps) := by
  have monitor : ∀ v : State, Orderly v v.reloadMonitor := fun v => by
    unfold State.reloadMonitor
    simp only
    refine .ite (Orderly.trans (t := v.modMonitor _) (.same rfl rfl rfl rfl rfl) (.place _ _)) (.same rfl rfl rfl rfl rfl)
  have begun : Orderly s (s.abandonReads.modNotices NoticeWriter.reload).reloadMonitor :=
    ((Orderly.abandonReads s).trans (.modNotices _ _ rfl)).trans (monitor _)
  exact { begun with queues := fun k q => by rw [reload_tube]; exact q }

theorem Orderly.clearTrip (s : State) : Orderly s s.clearTrip :=
  .ite (Orderly.trans (t := s.modAbort _) (.same rfl rfl rfl rfl rfl) (.place _ _)) (.refl s)

theorem Orderly.rootCommand (s : State) (a : Access) (straps : BitVec 4) : Orderly s (s.rootCommand a straps) := by
  unfold State.rootCommand
  split
  · exact .flushCommand s a
  · exact .ite ((Orderly.reload s straps).trans (.answer _ _)) (.refuseBank s a _)
  · exact .ite ((Orderly.clearTrip s).trans (.answer _ _)) (.refuseBank s a _)
  · exact .refuseBank s a _

theorem Orderly.serviceRootWrite (s : State) (a : Access) (w : Six) (straps : BitVec 4) :
    Orderly s (s.serviceRootWrite a w straps) := by
  unfold State.serviceRootWrite
  split
  · exact .rootCommand s a straps
  · exact Orderly.trans (t := s.modRoot _) (.same rfl rfl rfl rfl rfl) (.passWrite _ _ _ _)
  · exact .refuseBank s a _
  · exact .refuseBank s a _
  · exact .refuseBank s a _
  · exact .passWrite s a _ _

theorem Orderly.rootAccess (s : State) (a : Access) (w : Six) (straps : BitVec 4) :
    Orderly s (s.rootAccess a w straps) := by
  unfold State.rootAccess
  split
  · exact .same rfl rfl rfl rfl rfl
  · exact .ite (.ite (.passWrite s a _ _) (.refuseBank s a _)) (.ite (.refuseBank s a _) (.serviceRootWrite s a w straps))

theorem Orderly.classify (s : State) (a : Access) (straps : BitVec 4) : Orderly s (s.classify a straps) := by
  unfold State.classify
  split
  · exact .rootAccess s a _ straps
  · split
    · exact .channelAccess s a _
    · exact .passThrough s a

theorem Orderly.takeAccess (s : State) (a : Access) (straps : BitVec 4) : Orderly s (s.takeAccess a straps) :=
  .ite (.finish _ ((Orderly.advance s).trans (.classify _ a straps))) (.refl s)

/-! ## Walks, write-backs and passes -/

theorem Orderly.setCacheEntry (s : State) (p : Place) (way : Ix4) (e : CacheEntry) : Orderly s (s.setCacheEntry p way e) :=
  .same rfl rfl rfl rfl rfl

theorem Orderly.walkWord (s : State) (w : Word) : Orderly s (s.walkWord w) := by
  have refused : ∀ a p r c v, Orderly s (s.refuseWalk a p r c v) := fun a p r _ _ =>
    (Orderly.place s _).trans (.refuseAt _ a p r)
  unfold State.walkWord
  split
  · refine .ite (.same rfl rfl rfl rfl rfl) ?_
    refine .ite (refused _ _ _ _ _) (.ite (refused _ _ _ _ _) (.ite (refused _ _ _ _ _) ?_))
    exact .ite ((Orderly.setCacheEntry s _ _ _).trans (.afterLookup _ _ _ _)) (.same rfl rfl rfl rfl rfl)
  · exact .refl s

theorem Orderly.statusWriteBack (h : execStatusWriteBack s = .next t) : Orderly s t := by
  have opened := Orderly.openBus s .walk
  unfold execStatusWriteBack at h
  simp only at h
  generalize s.openBus .walk = s1 at opened h
  split at h
  · cases h; exact .finish _ ((opened.trans (.completeBus _)).trans (.afterLookup _ _ _ _))
  · cases h; exact .finish _ (((opened.trans (.completeBus _)).trans (.setCacheEntry _ _ _ _)).trans (.dispatchWrite _ _ _ _))
  · cases h; exact opened

theorem Orderly.consumerWritten (s : State) (v : Nat) : Orderly s (s.consumerWritten v) := by
  unfold State.consumerWritten
  simp only
  refine .ite (.ite ?_ (.same rfl rfl rfl rfl rfl)) (.same rfl rfl rfl rfl rfl)
  exact Orderly.trans (t := (s.modNotices _).modMonitor _) (.same rfl rfl rfl rfl rfl) (.place _ _)

theorem Orderly.passDone (s : State) (a : Access) (c : Bool) (w : Word) : Orderly s (s.passDone a c w) := by
  have done : Orderly s (if c = true then s.completeBus.consumerWritten a.value.toNat else s.completeBus) :=
    .ite ((Orderly.completeBus s).trans (.consumerWritten _ _)) (.completeBus s)
  unfold State.passDone
  simp only
  split
  · exact done.trans (.answer _ _)
  · exact done.trans (.answer _ _)

/-! ## The loader -/

theorem Orderly.nextLoad (s : State) (l : List Tube) : Orderly s (s.nextLoad l) := by
  obtain ⟨j, e⟩ := nextLoad_loader s l
  rw [e]; exact .setJob s j

theorem Orderly.nextAdopt (s : State) (l : List Tube) : Orderly s (s.nextAdopt l) := by
  unfold State.nextAdopt
  split <;> exact .same rfl rfl rfl rfl rfl

theorem Orderly.rootWord (s : State) (w : Word) : Orderly s (s.rootWord w) := by
  unfold State.rootWord
  split
  · refine .ite (.setJob s _) ?_
    unfold State.decideRoot
    simp only
    split
    · exact Orderly.trans (t := s.takeRoot _) (.same rfl rfl rfl rfl rfl) (.nextLoad _ _)
    · exact .same rfl rfl rfl rfl rfl
  · exact .refl s

theorem Orderly.decideTube (s : State) (k : Tube) (ws : List Word) : Orderly s (s.decideTube k ws) := by
  unfold State.decideTube
  split
  · exact (Orderly.place s _).trans (.same rfl rfl rfl rfl rfl)
  · refine ⟨rfl, id, id, id, fun j q => ?_⟩
    rw [acceptTube_tube]
    split
    · next e => rw [e] at q; exact q
    · exact q

theorem Orderly.tubeWord (s : State) (w : Word) : Orderly s (s.tubeWord w) := by
  unfold State.tubeWord
  split
  · exact .ite (.setJob s _) ((Orderly.decideTube s _ _).trans (.nextLoad _ _))
  · exact .refl s

theorem Orderly.placeScanFaults : ∀ (l : List ScanRecord) (i : Nat) (s : State), Orderly s (placeScanFaults i l s)
  | [], _, s => .refl s
  | _ :: l, i, s => (Orderly.ite (.refl s) (.place s _)).trans (Orderly.placeScanFaults l (i + 1) _)

theorem Orderly.scanWord (s : State) (w : Word) : Orderly s (s.scanWord w) := by
  unfold State.scanWord
  split
  · refine .ite (.setJob s _) (Orderly.trans ?_ (.setJob _ _))
    exact Orderly.trans (t := s.modScanner _) (.same rfl rfl rfl rfl rfl) (.placeScanFaults _ _ _)
  · exact .refl s

theorem Orderly.setFlow (s : State) (l : Line) (v : Word) (b : Bool) : Orderly s (s.setFlow k l v b) :=
  (Local.setFlow s l v b).orderly (.setFlow s l v b)

theorem Orderly.adoptReactive (value : Addr → Word) : ∀ (ls : List Line) (s : State),
    Orderly s (s.adoptReactive k value ls).1
  | [], s => .refl s
  | l :: ls, s => by
    unfold State.adoptReactive
    simp only
    split
    · exact (Orderly.setFlow s l 0 true).trans (Orderly.adoptReactive value ls _)
    · exact Orderly.adoptReactive value ls s

theorem Orderly.adoptInertLine (s : State) (l : Line) (v : Word) : Orderly s (s.adoptInertLine k l v).1 := by
  unfold State.adoptInertLine
  split
  · exact (Local.modGas k s fun g =>
      { g with lines := g.lines.set l { g.lines.get l with flow := v, devCounter := 0 } }).orderly (.modGas s _)
  · exact (Orderly.setFlow s l 0 true).trans (.same rfl rfl rfl rfl rfl)

theorem Orderly.adoptInert (value : Addr → Word) : ∀ (ls : List Line) (s : State),
    Orderly s (s.adoptInert k value ls).1
  | [], s => .refl s
  | l :: ls, s => by
    unfold State.adoptInert
    simp only
    split
    · exact (Orderly.adoptInertLine s l _).trans (Orderly.adoptInert value ls _)
    · exact Orderly.adoptInert value ls s

theorem Queued.adoptEnd (s : State) (n : Nat) : Queued k s (if n = 0 then s.adoptAborted k else s.adoptAborting k n) := by
  refine .ite (.modTube s _ rfl) ?_
  have started : Queued k s ((s.startRun State.rescan k (abortClearing (s.tube k).header)).modTube k fun x =>
      { x with mode := .aborting, abortCause := .startup,
               abortBegin := (s.startRun State.rescan k (abortClearing (s.tube k).header)).clock }) :=
    (Queued.startRun s _).trans (.modTube _ _ rfl)
  exact .ite ((started.trans (.place _ _)).trans (.modTube _ _ rfl)) (started.trans (.place _ _))

theorem Orderly.adoptTube (s : State) (k : Tube) (ws : List Word) : Orderly s (s.adoptTube k ws) := by
  rw [adoptTube_eq]
  refine Orderly.trans ?_ (.nextAdopt _ _)
  unfold State.adoptedTube
  simp only
  refine Orderly.trans ?_ (.place _ _)
  refine Orderly.trans ?_ ((adoptEnd_local _ _).orderly (.adoptEnd _ _))
  refine Orderly.trans ?_ ((Orderly.adoptReactive _ _ _).trans (.adoptInert _ _ _))
  exact (Local.modTube k s _).orderly (.modTube s _ rfl)

theorem Orderly.forwardWords : ∀ (n : Nat) (s : State), Orderly s (State.forwardWords n s)
  | 0, s => .refl s
  | n + 1, s => by
    refine Orderly.trans (t := s.forwardWord) ?_ (Orderly.forwardWords n _)
    rcases forwardWord_eq s with e | ⟨_, j, e⟩
    · rw [e]; exact .refl s
    · rw [e]; exact .setJob s j

theorem Orderly.adoptAdvance (s : State) : Orderly s s.adoptAdvance := by
  unfold State.adoptAdvance
  simp only
  have forwarded := Orderly.forwardWords 14 s
  split
  · exact .ite (forwarded.trans (.adoptTube _ _ _)) forwarded
  · exact forwarded

theorem Orderly.adoptWord (s : State) (w : Word) : Orderly s (s.adoptWord w) := by
  unfold State.adoptWord
  split
  · exact (Orderly.setJob s _).trans (.adoptAdvance _)
  · exact .refl s

/-! ## Requests, scans and notices -/

theorem Orderly.modAbort (s : State) (f : AbortControl → AbortControl) : Orderly s (s.modAbort f) :=
  .same rfl rfl rfl rfl rfl

theorem Orderly.modScanner (s : State) (f : Scanner → Scanner) : Orderly s (s.modScanner f) := .same rfl rfl rfl rfl rfl

theorem Orderly.takeTrip (s : State) (r : TripRequest) : Orderly s (s.takeTrip r) := by
  unfold State.takeTrip
  refine .ite (.place s _) ?_
  unfold State.firstTrip
  simp only
  refine ((Orderly.modAbort s _).trans (.place _ _)).trans (.foldl (fun s k => ?_) _ _)
  exact (Local.abortTube s (tripAbort r k)).orderly (.abortTube s (tripAbort r k))

theorem Orderly.requestAborts {α : Type} (f : α → AbortRequest) (l : List α) (s : State) :
    Orderly s (l.foldl (fun acc a => acc.requestAbort (f a)) s) :=
  .foldl (fun s _ => .modAbort s _) l s

theorem Orderly.serviceExpired (s : State) : Orderly s s.serviceExpired := by
  unfold State.serviceExpired
  simp only
  refine .ite (.same rfl rfl rfl rfl rfl) (.ite ?_ (.same rfl rfl rfl rfl rfl))
  refine Orderly.trans (Orderly.trans (t := ((s.modMonitor _).modMonitor _).modMonitor _) ?_ (.place _ _))
    (.requestAborts _ _ _)
  exact .same rfl rfl rfl rfl rfl

theorem Orderly.scanExpired (s : State) : Orderly s s.scanExpired := by
  unfold State.scanExpired
  simp only
  split
  · exact .same rfl rfl rfl rfl rfl
  · exact .ite (.modScanner s _) (Orderly.trans (t := (s.modScanner _).modScanner _) (.same rfl rfl rfl rfl rfl) (.place _ _))

theorem Orderly.scanAction (s : State) (i : Nat) (r : ScanRecord) (v : Word) : Orderly s (s.scanAction i r v) := by
  unfold State.scanAction
  split
  · exact .refl s
  · split
    · exact .modAbort s _
    · split
      · exact .modAbort s _
      · exact .requestAborts _ _ s

theorem Orderly.limitCheck (s : State) (i : Nat) (r : ScanRecord) (v : Word) : Orderly s (s.limitCheck i r v) :=
  .ite (.refl s) (.ite (.modScanner s _) (.ite ((Orderly.modScanner s _).trans (.scanAction _ _ _ _)) (.modScanner s _)))

theorem Orderly.scanArrived (s : State) (p : Pass) (v : Word) : Orderly s (s.scanArrived p v) := by
  unfold State.scanArrived
  split
  · exact .modScanner s _
  · next r _ =>
    have sampled : Orderly s (s.sampleTarget r.target v) := by
      unfold State.sampleTarget
      split <;> exact .same rfl rfl rfl rfl rfl
    have handed : ∀ u : State, Orderly u (u.handSample r.target v) := fun u => by
      unfold State.handSample
      split
      · exact .ite (.same rfl rfl rfl rfl rfl) (.refl u)
      · exact .refl u
    exact ((sampled.trans (handed _)).trans (.limitCheck _ _ _ _)).trans (.modScanner _ _)

theorem Orderly.wordWritten (s : State) : Orderly s (s.modNotices NoticeWriter.wordWritten) := by
  refine .same rfl rfl rfl ?_ rfl
  show s.notices.wordWritten.buffer = _
  unfold NoticeWriter.wordWritten
  split <;> rfl

theorem Orderly.takeRecord (s : State) : Orderly s (s.modNotices NoticeWriter.takeRecord) := by
  refine ⟨rfl, id, id, fun short => ?_, fun _ => .same rfl⟩
  show s.notices.takeRecord.buffer.length ≤ 8
  rw [NoticeWriter.takeRecord_buffer, List.length_tail]
  omega

theorem Orderly.noticeRecordTake (n : Nat) (h : execNoticeRecordTake n s = .next t) : Orderly s t := by
  unfold execNoticeRecordTake at h
  cases h
  have opened := Orderly.openBus s .notice
  exact (Orderly.ite (opened.trans (.finish _ (.takeRecord _))) opened).trans
    (.takeWords (fun s _ => .wordWritten s) n _)

/-! ## Commands and steps -/

theorem Orderly.reset (s : State) (straps : BitVec 4) (h : execReset straps s = .next t) : Orderly s t := by
  cases h
  refine ⟨rfl, id, fun _ => ⟨List.nodup_nil, .nil⟩, fun _ => Nat.zero_le 8, fun k _ => ?_⟩
  rw [afterReset_tube]; exact .nil

theorem Orderly.boardWrite (s : State) (a : Addr) (b : Option Word) : Orderly s (s.boardWrite a b) := by
  unfold State.boardWrite
  split
  · exact .refl s
  · exact .writeWord s a _

/-- What every command keeps. -/
theorem exec_orderly {i : Instr} (h : exec i s = .next t) : Orderly s t := by
  cases i <;> simp only [exec] at h
  case reset straps => exact .reset s straps h
  case rootRead n => cases h; exact (Orderly.openBus s _).trans (.takeWords .rootWord n _)
  case tubeLoad n => cases h; exact (Orderly.openBus s _).trans (.takeWords .tubeWord n _)
  case scanListLoad n => cases h; exact (Orderly.openBus s _).trans (.takeWords .scanWord n _)
  case adoptionStart =>
    unfold execAdoptionStart at h
    simp only at h
    split at h
    · cases h
      refine .finish _ ((Orderly.openBus s .walk).trans (Orderly.trans ?_ (.nextAdopt _ _)))
      exact .same rfl rfl rfl rfl rfl
    · cases h; exact .openBus s _
  case tubeAdopt n =>
    cases h
    exact (Orderly.finish _ ((Orderly.openBus s _).trans (.adoptAdvance _))).trans (.takeWords .adoptWord n _)
  case consumerAdvance =>
    unfold execConsumerAdvance at h; simp only at h
    split at h
    · cases h; exact .finish _ ((Orderly.openBus s _).trans (.passDone _ _ _ _))
    · cases h; exact .openBus s _
  case passWriteDeferred =>
    unfold execPassWriteDeferred at h
    split at h
    · split at h
      · cases h; exact .finish _ (.same rfl rfl rfl rfl rfl)
      · cases h; exact .refl s
    · cases h; exact .refl s
  case passAccessComplete =>
    unfold execPassAccessComplete at h; simp only at h
    split at h
    · cases h; exact .finish _ ((Orderly.openBus s _).trans (.passDone _ _ _ _))
    · cases h; exact .openBus s _
  case descWalk n => cases h; exact (Orderly.openBus s _).trans (.takeWords .walkWord n _)
  case statusWriteBack => exact .statusWriteBack h
  case entryExpiry k n =>
    unfold execEntryExpiry at h
    split at h
    · cases h; exact .refl s
    · split at h
      · cases h; exact .refl s
      · cases h
        exact .expiry (f := fun s => s.entryExpired k _) _ _ fun s => (Local.entryExpired s _).orderly (.entryExpired s _)
  case releaseGapExpiry k =>
    unfold execReleaseGapExpiry at h
    split at h
    · cases h; exact .refl s
    · cases h; exact .expiry (f := fun s => s.gapExpired k) _ _ fun s => (Local.gapExpired s).orderly (.gapExpired s)
  case stepExpiry k =>
    unfold execStepExpiry at h
    split at h
    · cases h; exact .refl s
    · cases h; exact .expiry (f := fun s => s.stepExpired k) _ _ fun s => (Local.stepExpired s).orderly (.stepExpired s)
  case settleExpiry k =>
    unfold execSettleExpiry at h
    split at h
    · cases h; exact .refl s
    · cases h
      exact .expiry (f := fun s => s.settleExpired k) _ _ fun s => (Local.settleExpired s).orderly (.settleExpired s)
  case motionExpiry k =>
    unfold execMotionExpiry at h
    split at h
    · cases h; exact .refl s
    · cases h
      exact .expiry (f := fun s => s.motionExpired k) _ _ fun s => (Local.motionExpired s).orderly (.motionExpired s)
  case sampleExpiry k =>
    unfold execSampleExpiry at h
    split at h
    · cases h; exact .refl s
    · cases h
      exact .expiry (f := fun s => s.sampleExpired k) _ _ fun s => (Local.sampleExpired s).orderly (.sampleExpired s)
  case purgeLimitExpiry k =>
    unfold execPurgeLimitExpiry at h
    split at h
    · cases h; exact .refl s
    · cases h
      exact .expiry (f := fun s => s.purgeLimitExpired k) _ _ fun s =>
        (Local.purgeLimitExpired s).orderly (.purgeLimitExpired s)
  case lineSampleArrival =>
    unfold execLineSampleArrival at h
    split at h
    · cases h; exact .refl s
    · next a rest _ =>
      cases h
      exact .finish _ (Orderly.trans (t := { s with arrivals := rest }) (.same rfl rfl rfl rfl rfl)
        ((Local.lineArrives _ a).orderly (.lineArrives _ a)))
  case scrubberExpiry =>
    unfold execScrubberExpiry at h
    split at h
    · cases h; exact .refl s
    · cases h; exact .expiry (f := State.scrubberExpired) _ _ fun s => .same rfl rfl rfl rfl rfl
  case abortRequest =>
    unfold execAbortRequest at h
    split at h
    · cases h; exact .refl s
    · next r _ _ =>
      cases h
      exact .finish _ ((Orderly.modAbort s _).trans ((Local.takeAbort _ r).orderly (.takeAbort _ r)))
  case bankTrip =>
    unfold execBankTrip at h
    split at h
    · cases h; exact .refl s
    · cases h; exact .finish _ ((Orderly.modAbort s _).trans (.takeTrip _ _))
  case abortClaimExpiry k =>
    unfold execAbortClaimExpiry at h
    split at h
    · cases h; exact .refl s
    · cases h
      exact .expiry (f := fun s => s.abortClaimExpired k) _ _ fun s =>
        (Local.abortClaimExpired s).orderly (.abortClaimExpired s)
  case scanExpiry =>
    unfold execScanExpiry at h
    split at h
    · cases h; exact .refl s
    · cases h; exact .expiry _ _ .scanExpired
  case scanArrival b =>
    unfold execScanArrival at h; simp only at h
    split at h
    · cases h
      exact .finish _ ((Orderly.openBus s .scan).trans
        ((Orderly.boardWrite _ _ _).trans ((Orderly.completeBus _).trans (.scanArrived _ _ _))))
    · cases h; exact .openBus s _
  case staleExpiry =>
    unfold execStaleExpiry at h
    split at h
    · cases h; exact .refl s
    · cases h; exact .expiry (f := State.staleExpired) _ _ fun s => (Orderly.modScanner s _).trans (.place _ _)
  case serviceExpiry =>
    unfold execServiceExpiry at h
    split at h
    · cases h; exact .refl s
    · cases h; exact .expiry _ _ .serviceExpired
  case deliverWriteComplete =>
    unfold execDeliverWriteComplete at h; simp only at h
    split at h
    · cases h; exact .finish _ ((Orderly.openBus s _).trans (.completeBus _))
    · cases h; exact .openBus s _
  case noticeRecordTake n => exact .noticeRecordTake n h
  case producerAdvance =>
    unfold execProducerAdvance at h; simp only at h
    split at h
    · cases h; exact .finish _ (((Orderly.openBus s _).trans (.completeBus _)).trans (.same rfl rfl rfl rfl rfl))
    · cases h; exact .openBus s _
  case rootWordWrite =>
    unfold execRootWordWrite at h; simp only at h
    split at h
    · cases h; exact .finish _ (((Orderly.openBus s _).trans (.completeBus _)).trans (.same rfl rfl rfl rfl rfl))
    · cases h; exact .openBus s _
  all_goals (cases h; exact .takeAccess s _ _)

/-- What every step keeps, but for the command it takes. -/
theorem step_orderly (h : step s = .next t) : Orderly { s with pending := t.pending } t := by
  unfold step at h
  split at h
  · next empty =>
    cases h
    have g := Orderly.finish s (Orderly.elapse s 1)
    rw [show { s with pending := (s.finish (s.elapse 1)).pending } = s by rw [g.pending]]
    exact g
  · next c rest _ =>
    have g := exec_orderly h
    rw [g.pending]
    exact g

/-! ## The laws along every step -/

/-- Settles O57: no step writes the image but word by word, and `Memory.wf_write`. -/
theorem memoryStaysCanonical : Obligations.MemoryStaysCanonical :=
  fun _ _ canonical taken => (step_orderly taken).mem canonical

/-- Settles O58: every write placed keeps the queue's laws, and every grant takes its front. -/
theorem deliveryQueueStaysOrdered : Obligations.DeliveryQueueStaysOrdered :=
  fun _ _ ordered taken => (step_orderly taken).delivery ordered

end Sys2Proof.Machine

/-! The laws every step keeps, from `Orderly` and `Bank`, and the state RESET leaves. -/

namespace Sys2Proof.Machine

variable {s t : State} {k : Tube}

/-! ## The reactive-gas law alone -/

theorem ReactiveLaw.fillDone (h : ReactiveLaw s) {acc : Access} {way : Ix4} {b : Bool}
    (waits : s.port.phase = .fillWriteBack acc way b) : ReactiveLaw (s.afterLookup acc (s.placeOf acc) way) :=
  h.afterLookup (h.walks (by rw [State.portOffWalk, waits])) rfl (h.writeBacks acc way (.inl ⟨b, waits⟩))

theorem ReactiveLaw.useDone (h : ReactiveLaw s) {acc : Access} {way : Ix4}
    (waits : s.port.phase = .useWriteBack acc way) :
    ReactiveLaw ((s.setCacheEntry (s.placeOf acc) way
      { s.cacheEntry (s.placeOf acc) way with wKnown := true }).dispatchWrite acc (s.placeOf acc)
        (s.cacheEntry (s.placeOf acc) way).words) := by
  obtain ⟨formed, agrees⟩ := h.cache (s.placeOf acc) way (h.writeBacks acc way (.inr waits))
  exact (h.markKnown waits).dispatchWrite (h.walks (by rw [State.portOffWalk, waits])) acc ⟨formed, agrees⟩

/-- R94: each event keeps the reactive-gas law, whatever the budget and the trip latch. -/
theorem ReactiveLaw.event (h : ReactiveLaw s) (e : Event s t) : ReactiveLaw t := by
  cases e
  case unmoved g => exact h.same g.tubes g.binding g.cache g.loader g.port
  case elapse => exact h.elapse _
  case finish => exact h.finish _
  case reset => exact (Bank.afterReset _ _ _ _).reactive
  case rootWord g => exact h.rootWord _ g
  case tubeWord g => exact h.tubeWord _ g
  case scanWord g => exact h.scanWord _ g
  case adoptionStart waits =>
    have loading : s.loader.phase ≠ .ready := h.jobs (by rw [waits]; exact LoadJob.noConfusion)
    exact (h.loadSame loading (t := { s with loader := { s.loader with closing := false } }) rfl rfl rfl rfl
      loading).nextAdopt loading _
  case adoptAdvance => exact h.adoptAdvance
  case adoptWord g => exact h.adoptWord _ g
  case walkWord => exact h.walkWord _
  case fillDone g => exact h.fillDone g
  case useDone g => exact h.useDone g
  case classify g => exact h.classify g _ _
  case entryExpired => exact h.local (.entryExpired _ _) (.entryExpired _ _)
  case gapExpired => exact h.local (.gapExpired _) (.gapExpired _)
  case stepExpired => exact h.local (.stepExpired _) (.stepExpired _)
  case settleExpired => exact h.local (.settleExpired _) (.settleExpired _)
  case motionExpired runs => exact h.local (.motionExpired _) (.motionExpired _ runs)
  case sampleExpired => exact h.local (.sampleExpired _) (.sampleExpired _)
  case purgeLimitExpired => exact h.local (.purgeLimitExpired _) (.purgeLimitExpired _)
  case lineArrives k l v => exact h.local (Local.lineArrives s ⟨k, l, v⟩) (.lineArrives _ _ _)
  case abortClaimExpired => exact h.local (.abortClaimExpired _) (.abortClaimExpired _)
  case takeAbort => exact h.takeAbort _
  case takeTrip => exact h.takeTrip _

/-- R94, R125, R126, R128, R150: the laws of the part hold along every step. -/
theorem Bank.step (h : Bank s) (taken : step s = .next t) : Bank t :=
  (step_events taken).keep (fun _ _ => Bank.event) h

/-- R150: behind the latch no tube works, and so none lets a reactive line flow. -/
theorem Bank.latched_closed (h : Bank s) (latched : s.abort.latch = true) (k : Tube) :
    (s.tube k).mode ≠ .run ∧ (s.tube k).mode ≠ .hold
      ∧ ∀ l, ((s.tube k).gas.lines.get l).reactive = true → ((s.tube k).gas.lines.get l).flow = 0 := by
  have idle := h.trip.latched latched k
  have safe := h.reactive.tubes k
  refine ⟨fun run => ?_, fun hold => ?_, fun l reactive => ?_⟩
  · rw [run] at idle; cases idle
  · rw [hold] at idle; cases idle
  · refine Classical.byContradiction fun flows => ?_
    rw [safe.working (safe.closed l reactive flows)] at idle
    cases idle

/-- Settles O56: by the shifts that follow an event, the events of a step, and the latch's law with the reactive-gas law. -/
theorem releasesKeepReactiveGasSafe : Obligations.ReleasesKeepReactiveGasSafe := by
  refine ⟨fun before after safe k => ?_, fun s t h taken => ?_, fun s t reactive trip budget taken => ?_⟩
  · exact ((Finished.finish before after).tubes k).safe (fun _ => trivial) (safe k)
  · exact (step_events taken).keep (fun _ _ => ReactiveLaw.event) h
  · have bank := Bank.step ⟨reactive, trip, budget⟩ taken
    exact ⟨bank.trip, fun latched k => bank.latched_closed latched k⟩

/-! ## The bounds -/

/-- The pigeonhole principle for lists. -/
theorem length_le_of_nodup_subset {α : Type} [DecidableEq α] {l m : List α} (distinct : l.Nodup)
    (among : ∀ x ∈ l, x ∈ m) : l.length ≤ m.length := by
  induction l generalizing m with
  | nil => exact Nat.zero_le _
  | cons x rest ih =>
    obtain ⟨fresh, distinct⟩ := List.nodup_cons.mp distinct
    have here : x ∈ m := among x List.mem_cons_self
    have bound : rest.length ≤ (m.erase x).length := ih distinct fun y mem => by
      have apart : y ≠ x := fun same => fresh (same ▸ mem)
      exact (List.mem_erase_of_ne apart).mpr (among y (List.mem_cons_of_mem x mem))
    rw [List.length_erase_of_mem here] at bound
    have filled := List.length_pos_of_mem here
    rw [List.length_cons]
    omega

/-- R128: a queue and a purge run for each of four tubes, and no two claims of one of them. -/
theorem claims_length_le {l : List Claim}
    (apart : l.Pairwise fun c d => c.tube = d.tube → c.origin.isEntry ≠ d.origin.isEntry) : l.length ≤ 8 := by
  have distinct : (l.map fun c => (c.tube, c.origin.isEntry)).Nodup := by
    rw [List.Nodup, List.pairwise_map]
    exact apart.imp fun differ same => differ (congrArg Prod.fst same) (congrArg Prod.snd same)
  have among : ∀ p ∈ l.map fun c => (c.tube, c.origin.isEntry),
      p ∈ Ix4.all.flatMap fun k => [(k, true), (k, false)] := fun p _ => by
    obtain ⟨k, b⟩ := p
    refine List.mem_flatMap.mpr ⟨k, Ix4.mem_all k, ?_⟩
    cases b
    · exact List.mem_cons_of_mem _ List.mem_cons_self
    · exact List.mem_cons_self
  have bound := length_le_of_nodup_subset distinct among
  rw [List.length_map] at bound
  exact bound

/-- Settles O59: the queues and the Notice Buffer by what every command keeps, the draw, the slots and the claims by the
Bank Budget's books. -/
theorem queuesStayBounded : Obligations.QueuesStayBounded := by
  refine ⟨fun s t queues buffer taken => ?_, fun s t reactive trip budget taken => ?_⟩
  · have orderly := step_orderly taken
    exact ⟨fun k => orderly.queues k (queues k), orderly.buffer buffer⟩
  · have law := (Bank.step ⟨reactive, trip, budget⟩ taken).budget
    exact ⟨law, law.draw, law.slots, claims_length_le law.apart⟩

/-! ## Commands, steps and RESET -/

/-- Settles O1. -/
theorem stepTakesFrontCommand : Obligations.StepTakesFrontCommand := fun _ _ _ => rfl

/-- No command faults or is refused: each branch of each answers a next state. -/
theorem exec_next (i : Instr) (s : State) : ∃ t, exec i s = .next t := by
  cases i
  case adoptionStart => unfold exec execAdoptionStart; dsimp only; split <;> exact ⟨_, rfl⟩
  case consumerAdvance => unfold exec execConsumerAdvance; dsimp only; split <;> exact ⟨_, rfl⟩
  case passWriteDeferred =>
    unfold exec execPassWriteDeferred
    dsimp only
    split
    · split <;> exact ⟨_, rfl⟩
    · exact ⟨_, rfl⟩
  case passAccessComplete => unfold exec execPassAccessComplete; dsimp only; split <;> exact ⟨_, rfl⟩
  case statusWriteBack => unfold exec execStatusWriteBack; dsimp only; split <;> exact ⟨_, rfl⟩
  case entryExpiry =>
    unfold exec execEntryExpiry
    dsimp only
    split
    · exact ⟨_, rfl⟩
    · split <;> exact ⟨_, rfl⟩
  case releaseGapExpiry => unfold exec execReleaseGapExpiry; dsimp only; split <;> exact ⟨_, rfl⟩
  case stepExpiry => unfold exec execStepExpiry; dsimp only; split <;> exact ⟨_, rfl⟩
  case settleExpiry => unfold exec execSettleExpiry; dsimp only; split <;> exact ⟨_, rfl⟩
  case motionExpiry => unfold exec execMotionExpiry; dsimp only; split <;> exact ⟨_, rfl⟩
  case sampleExpiry => unfold exec execSampleExpiry; dsimp only; split <;> exact ⟨_, rfl⟩
  case purgeLimitExpiry => unfold exec execPurgeLimitExpiry; dsimp only; split <;> exact ⟨_, rfl⟩
  case lineSampleArrival => unfold exec execLineSampleArrival; dsimp only; split <;> exact ⟨_, rfl⟩
  case scrubberExpiry => unfold exec execScrubberExpiry; dsimp only; split <;> exact ⟨_, rfl⟩
  case abortRequest => unfold exec execAbortRequest; dsimp only; split <;> exact ⟨_, rfl⟩
  case abortClaimExpiry => unfold exec execAbortClaimExpiry; dsimp only; split <;> exact ⟨_, rfl⟩
  case bankTrip => unfold exec execBankTrip; dsimp only; split <;> exact ⟨_, rfl⟩
  case scanExpiry => unfold exec execScanExpiry; dsimp only; split <;> exact ⟨_, rfl⟩
  case scanArrival => unfold exec execScanArrival; dsimp only; split <;> exact ⟨_, rfl⟩
  case staleExpiry => unfold exec execStaleExpiry; dsimp only; split <;> exact ⟨_, rfl⟩
  case serviceExpiry => unfold exec execServiceExpiry; dsimp only; split <;> exact ⟨_, rfl⟩
  case deliverWriteComplete => unfold exec execDeliverWriteComplete; dsimp only; split <;> exact ⟨_, rfl⟩
  case producerAdvance => unfold exec execProducerAdvance; dsimp only; split <;> exact ⟨_, rfl⟩
  case rootWordWrite => unfold exec execRootWordWrite; dsimp only; split <;> exact ⟨_, rfl⟩
  all_goals exact ⟨_, rfl⟩

/-- Settles O3. -/
theorem everyCommandAnswersANextState : Obligations.EveryCommandAnswersANextState := fun i s => by
  obtain ⟨t, answers⟩ := exec_next i s
  exact ⟨t, answers, (exec_orderly answers).pending⟩

/-- R40: a passing time changes no record that an examination reads. -/
theorem noneDue_elapse (s : State) (n : Nat) : dueHeads s (s.elapse n) = [] := by
  have same : ∀ k, s.headView k = (s.elapse n).headView k := fun k => by
    refine headView_congr ⟨rfl, rfl, rfl, rfl⟩ ?_
    rw [tube_elapse]
    refine ⟨rfl, rfl, rfl, rfl, rfl, rfl, rfl, rfl, rfl, rfl, fun _ => rfl, ?_⟩
    show ((s.tube k).queue.map _).head?.map HeldEntry.kind = _
    rw [List.head?_map, Option.map_map]
    rfl
  refine List.filter_eq_nil_iff.mpr fun k _ => ?_
  simp only [same k, ne_eq, not_true_eq_false, decide_false, Bool.and_false, Bool.false_eq_true, not_false_eq_true]

/-- R167, log 5: what follows a passing time is the bus's decision alone. -/
theorem finish_elapse (s : State) (n : Nat) : s.finish (s.elapse n) = (s.elapse n).advance := by
  rw [finish_of_no_due (noneDue_elapse s n)]
  exact congrArg State.advance (if_pos rfl)

/-- Settles O2: `State.elapse` timer by timer, and a step on an empty queue is `finish_elapse`. -/
theorem idleStepLetsOneMillisecondPass : Obligations.IdleStepLetsOneMillisecondPass := by
  unfold Obligations.IdleStepLetsOneMillisecondPass
  intro less passed
  have less_eq : ∀ n timer, less n timer = Timer.pass n timer := fun n timer => by cases timer <;> rfl
  have passed_eq : ∀ n x, passed n x = TubeState.pass n x := fun n x => by
    simp only [passed, less_eq, TubeState.pass]
  refine ⟨fun n s => ⟨fun k => ?_, ?_⟩, fun s empty => ?_⟩
  · rw [passed_eq, tube_elapse]
  · simp only [less_eq]; rfl
  · obtain ⟨b, d, w, decided⟩ := advance_eq (s.elapse 1)
    refine ⟨(s.elapse 1).advance, ?_, ?_, (Finished.advance _).elsewhere, ?_, rfl, ?_, ?_, ?_, ?_, fun k => ?_⟩
    · rw [← finish_elapse]
      unfold step
      rw [empty]
    · rw [decided]; rfl
    · rw [decided]
    · rw [decided, less_eq]; rfl
    · rw [decided, less_eq]; rfl
    · rw [decided, less_eq]; rfl
    · rw [decided, less_eq]; rfl
    · rw [Finished.tube_eq, tube_elapse, passed_eq]

/-- Settles O4: the values of `State.afterReset`, field by field. -/
theorem resetLeavesTheStatedValues : Obligations.ResetLeavesTheStatedValues := by
  intro straps s
  refine ⟨_, rfl, rfl, rfl, fun u hu => ?_⟩
  obtain ⟨r, m, p, n, rfl⟩ : ∃ r m p n, u = { State.afterReset r m p with freeCount := n } :=
    hu.elim (fun e => ⟨_, _, _, _, e⟩) fun e => ⟨0, [], [], 0, e⟩
  have cache : ∀ i j, ((State.afterReset r m p).cache.get i).get j = CacheEntry.empty := fun i j => by
    cases i <;> cases j <;> rfl
  simp only [afterReset_tube, cache]
  refine ⟨rfl, rfl, rfl, rfl, rfl, rfl, rfl, fun _ _ => ⟨rfl, rfl⟩, fun k => ⟨by cases k <;> rfl, Four.get_fill _ k⟩,
    fun _ => ⟨rfl, rfl, rfl, rfl, rfl, rfl, rfl, rfl, rfl, rfl, rfl, rfl⟩,
    fun _ => ⟨rfl, rfl, rfl, rfl, rfl, rfl, rfl, rfl, fun z => Five.get_fill _ z⟩,
    fun _ => ⟨rfl, rfl, rfl, rfl, rfl, fun l => Eight.get_fill _ l⟩, fun _ => rfl, ?_⟩
  refine ⟨rfl, rfl, rfl, rfl, rfl, rfl, rfl, rfl, rfl, rfl, rfl, rfl, rfl, rfl, rfl, rfl, rfl, rfl,
    fun q => Five.get_fill _ q.ix, rfl, rfl, rfl, rfl, rfl, rfl, rfl, rfl, rfl, rfl⟩

/-- Settles O60: the part after RESET, with the straps at 0 and nothing in the image. -/
theorem resetHoldsTheLaws : Obligations.ResetHoldsTheLaws := by
  have bank : Bank State.reset := Bank.afterReset 0 [] [] 0
  refine ⟨rfl, ⟨List.nodup_nil, .nil⟩, Nat.zero_le 8, fun k => ⟨?_, bank.reactive.tubes k⟩, bank.reactive, bank.trip,
    bank.budget⟩
  rw [show State.reset.tube k = TubeState.reset from afterReset_tube 0 [] [] 0 k]
  exact .nil

end Sys2Proof.Machine

/-! Accesses of the root block and passes (R2, R3, R6 to R8, R18, R153, R172, R173, R184). -/

namespace Sys2Proof.Machine

variable {s u : State} {acc : Access} {straps : BitVec 4}

/-! ## Accesses that touch no tube -/

/-- An access decided by an answer or a request alone touches no tube, and its event examines no head. -/
theorem quiet_access {port : Port} {root : RootCopy} {cache : Four (Four CacheEntry)} {n : BitVec 2}
    (idle : s.port.phase = .idle)
    (decided : s.advance.classify acc straps
      = { s.advance with port := port, root := root, cache := cache, replacement := n }) :
    (s.takeAccess acc straps).port = port ∧ (s.takeAccess acc straps).replacement = n
      ∧ (∀ k, (s.takeAccess acc straps).tube k = s.tube k)
      ∧ Elsewhere none { s with root := root, cache := cache } (s.takeAccess acc straps) := by
  have noneDue : NoneDue s.advance { s.advance with port := port, root := root, cache := cache, replacement := n } :=
    fun k => .inr (.inr rfl)
  have after := Still.ofAccess idle decided noneDue
  have before := Still.advance s
  have event : Elsewhere none { s with root := root, cache := cache }
      { s.advance with port := port, root := root, cache := cache, replacement := n } :=
    { before.elsewhere with root := rfl, cache := rfl }
  exact ⟨after.port, after.replacement, fun k => (after.tube k).trans (before.tube k), event.trans after.elsewhere⟩

/-- An access that changes the port alone. -/
theorem ported_access {port : Port} (idle : s.port.phase = .idle)
    (decided : s.advance.classify acc straps = { s.advance with port := port }) :
    (s.takeAccess acc straps).port = port ∧ Elsewhere none s (s.takeAccess acc straps) := by
  obtain ⟨answered, -, -, kept⟩ := quiet_access (root := s.advance.root) (cache := s.advance.cache) idle decided
  rw [(Finished.advance s).root, (Finished.advance s).cache] at kept
  exact ⟨answered, kept⟩

/-- R170: a read that may be forwarded answers or asks for the bus. -/
theorem passRead_eq {a : Addr} (queue : u.delivery = s.advance.delivery) (port : u.port = s.port) :
    u.passRead acc a = { u with port := s.readPort acc a } := by
  have same : u.forwarded a = s.advance.forwarded a := by unfold State.forwarded; rw [queue]
  unfold State.passRead State.readPort
  rw [same, port]
  cases s.advance.forwarded a <;> rfl

/-- R172, R173: a write that is passed to memory asks for the bus, or waits. -/
theorem passWrite_eq {a : Addr} {consumer : Bool} (queue : u.delivery = s.advance.delivery) (port : u.port = s.port)
    (loader : u.loader = s.loader) :
    u.passWrite acc a consumer = { u with port := ⟨s.passPhase acc a consumer, s.port.answer⟩ } := by
  have same : u.forwarded a = s.advance.forwarded a := by unfold State.forwarded; rw [queue]
  unfold State.passWrite State.passPhase
  rw [same, port, loader]
  split <;> rfl

theorem advance_passRead (a : Addr) :
    s.advance.passRead acc a = { s.advance with port := s.readPort acc a } :=
  passRead_eq rfl (Finished.advance s).port

theorem advance_passWrite (a : Addr) (consumer : Bool) :
    s.advance.passWrite acc a consumer = { s.advance with port := ⟨s.passPhase acc a consumer, s.port.answer⟩ } :=
  passWrite_eq rfl (Finished.advance s).port (Finished.advance s).loader

/-! ## The root block -/

/-- R2: a write to a root word is decided as one. -/
theorem classify_rootWrite (c : AccessClass) (word : Six) (v : Word) :
    s.advance.classify (rootWriteAccess s c word v) straps
      = if word = 5 then s.advance.consumerWrite (rootWriteAccess s c word v)
        else if c = .operator then s.advance.refuseBank (rootWriteAccess s c word v) .privilege
        else s.advance.serviceRootWrite (rootWriteAccess s c word v) word straps := by
  have root : rootWordAt s.advance.root.address (rootWriteAccess s c word v).addr = some word := by
    rw [(Finished.advance s).root]; exact rootWordAt_root _ _
  unfold State.classify
  rw [root]
  rfl

/-- R3: a SERVICE write to the control word is decided by its value. -/
theorem classify_rootCommand (v : Word) :
    s.advance.classify (rootWriteAccess s .service 1 v) straps
      = s.advance.rootCommand (rootWriteAccess s .service 1 v) straps := by
  rw [classify_rootWrite, if_neg (by decide), if_neg (by decide)]
  rfl

/-- R3: a SERVICE write to the control word that names no command. -/
theorem rootCommand_unknown {v : Word} (h1 : v ≠ 1) (h2 : v ≠ 2) (h3 : v ≠ 3) :
    s.advance.rootCommand (rootWriteAccess s .service 1 v) straps
      = s.advance.refuseBank (rootWriteAccess s .service 1 v) .badCommand := by
  have ne : ∀ w : Word, v ≠ w → v.toNat ≠ w.toNat := fun w hw e => hw (BitVec.eq_of_toNat_eq e)
  unfold State.rootCommand
  split
  · next e => exact absurd e (ne 1 h1)
  · next e => exact absurd e (ne 2 h2)
  · next e => exact absurd e (ne 3 h3)
  · rfl

/-- FLUSH_DESC is decided by its value. -/
theorem classify_flush :
    s.advance.classify (rootWriteAccess s .service 1 1) straps
      = s.advance.flushCommand (rootWriteAccess s .service 1 1) :=
  classify_rootCommand 1

/-- An accepted FLUSH_DESC changes the port and the cache alone. -/
theorem flushed_access (idle : s.port.phase = .idle) {cache : Four (Four CacheEntry)}
    (run : s.advance.flushCommand (rootWriteAccess s .service 1 1)
      = { s.advance with port := ⟨.idle, .acknowledge⟩, cache := cache }) :
    (s.takeAccess (rootWriteAccess s .service 1 1) straps).port = ⟨.idle, .acknowledge⟩
      ∧ (s.takeAccess (rootWriteAccess s .service 1 1) straps).replacement = s.replacement
      ∧ (s.takeAccess (rootWriteAccess s .service 1 1) straps).cache = cache
      ∧ Elsewhere none { s with cache := (s.takeAccess (rootWriteAccess s .service 1 1) straps).cache }
          (s.takeAccess (rootWriteAccess s .service 1 1) straps) := by
  obtain ⟨port, count, -, kept⟩ := quiet_access (root := s.advance.root) idle (classify_flush.trans run)
  rw [(Finished.advance s).root] at kept
  have same : (s.takeAccess (rootWriteAccess s .service 1 1) straps).cache = cache := kept.cache
  exact ⟨port, count.trans (Finished.advance s).replacement, same, same ▸ kept⟩

/-- Settles O11: FLUSH_DESC is decided by the argument copy, and the cache is all it changes. -/
theorem flushDescInvalidatesTheNamedEntries : Obligations.FlushDescInvalidatesTheNamedEntries := by
  intro s idle
  refine ⟨_, rfl, ?_⟩
  have arg : s.advance.root.argument = s.root.argument := by rw [(Finished.advance s).root]
  rcases Nat.lt_or_ge s.root.argument.toNat 256 with low | high
  · obtain ⟨port, count, cache, kept⟩ := flushed_access (straps := s.straps) idle (by
      unfold State.flushCommand; rw [arg]; exact if_pos low)
    refine ⟨count, kept, fun _ => ⟨port, fun set way => ?_⟩, fun e => ?_, fun h => absurd low (by omega)⟩
    · rw [cache, (Finished.advance s).cache, invalidateChannel, Four.get_set]
      by_cases e : set = cacheSet (sixOf s.root.argument.toNat)
      · rw [if_pos e, Four.get_map, e]
        simp only [true_and]
        rfl
      · rw [if_neg e, if_neg fun h => e h.1]
    · rw [e] at low; exact absurd low (by decide)
  · by_cases all : s.root.argument = 0xFFFF
    · obtain ⟨port, count, cache, kept⟩ := flushed_access (straps := s.straps) idle (by
        unfold State.flushCommand; rw [arg, all]; rfl)
      refine ⟨count, kept, fun h => absurd h (by omega), fun _ => ⟨port, fun set way => ?_⟩, fun _ h => absurd all h⟩
      rw [cache, (Finished.advance s).cache, Four.get_map, Four.get_map]
      rfl
    · have refuses : s.advance.flushCommand (rootWriteAccess s .service 1 1)
          = s.advance.refuseBank (rootWriteAccess s .service 1 1) .badCommand := by
        unfold State.flushCommand
        rw [arg]
        simp only [Nat.not_lt.mpr high, if_false]
        exact if_neg fun e => all (BitVec.eq_of_toNat_eq e)
      obtain ⟨refused, kept, -, count, -⟩ := refused_access (straps := s.straps) idle (classify_flush.trans refuses)
      refine ⟨count, ?_, fun h => absurd h (by omega), fun h => absurd h all, fun _ _ => ⟨refused, kept.cache⟩⟩
      have same : (s.takeAccess (rootWriteAccess s .service 1 1) s.straps).cache = s.cache := kept.cache
      rw [same]
      exact kept

/-- R153: TRIP_CLEAR is taken while no present tube is ABORTING. -/
theorem tripClearable_iff : s.tripClearable = true ↔ ∀ k, s.present k = true → (s.tube k).mode ≠ .aborting := by
  simp only [State.tripClearable, State.presentTubes, List.all_eq_true, List.mem_filter, Ix4.mem_all, true_and, bne_iff_ne]

/-- The trip latch cleared, with its cause. -/
def State.unlatched (s : State) : State := { s with abort := { s.abort with latch := false, tripCause := .none } }

/-- R153: the notice of a cleared latch. -/
def State.clearedNotice (s : State) : Notice :=
  notice .tripCleared none none s.abort.tripCause.code 0 0 (s.secondsSince s.abort.tripTime)

/-- R150, R153: clearing a set latch changes the Abort Controller and places a notice. -/
theorem clearTrip_set (latched : s.abort.latch = true) : s.clearTrip = s.unlatched.place s.clearedNotice := if_pos latched

theorem clearedNotice_advance : s.advance.clearedNotice = s.clearedNotice := by
  unfold State.clearedNotice State.secondsSince State.since
  rw [(Finished.advance s).abort, (Finished.advance s).clock]

/-- Settles O12: TRIP_CLEAR is refused, clears the latch, or finds it clear. -/
theorem tripClearClearsTheLatch : Obligations.TripClearClearsTheLatch := by
  intro s idle
  refine ⟨_, rfl, ?_⟩
  have before := Still.advance s
  have decided : s.advance.classify (rootWriteAccess s .service 1 3) s.straps
      = s.advance.tripCommand (rootWriteAccess s .service 1 3) := classify_rootCommand 3
  have clearable : s.advance.tripClearable = true ↔ ∀ k, s.present k = true → (s.tube k).mode ≠ .aborting := by
    rw [tripClearable_iff]
    simp only [State.present, before.root, before.tube]
  by_cases free : ∀ k, s.present k = true → (s.tube k).mode ≠ .aborting
  · have taken : s.advance.classify (rootWriteAccess s .service 1 3) s.straps = s.advance.clearTrip.ack := by
      rw [decided]; exact if_pos (clearable.mpr free)
    by_cases latched : s.abort.latch = true
    · have set : s.advance.abort.latch = true := by rw [before.abort]; exact latched
      rw [clearTrip_set set] at taken
      rw [clearedNotice_advance] at taken
      have placed : Local .i0 s.advance.unlatched (s.advance.unlatched.place s.clearedNotice).ack :=
        (Local.place _ _ _).trans (.answer _ _ _)
      have acts : SameActs s.advance s.advance.unlatched := ⟨rfl, rfl, rfl, rfl⟩
      have after := Still.ofAccess idle taken fun k =>
        .inr (.inr (headView_congr (acts.trans placed.acts) (.refl _)))
      have abort : (s.takeAccess (rootWriteAccess s .service 1 3) s.straps).abort
          = { s.abort with latch := false, tripCause := .none } := by rw [after.abort, ← before.abort]; rfl
      have kept : Elsewhere none { s with abort := (s.takeAccess (rootWriteAccess s .service 1 3) s.straps).abort }
          s.advance.unlatched :=
        { before.elsewhere with latch := by rw [abort, State.unlatched, before.abort]; exact ⟨rfl, rfl, rfl⟩ }
      refine ⟨kept.trans ((placed.elsewhere_none (.refl _)).trans after.elsewhere), fun k => ?_,
        fun _ => ⟨after.port, ?_, fun _ => ⟨abort, ?_, ?_⟩, fun clear => ?_⟩, fun ⟨k, here, aborts⟩ => ?_⟩
      · rw [after.tube]; exact congrArg TubeState.mode (before.tube k)
      · rw [State.tripOutput, abort]
      · unfold State.takeAccess
        rw [if_pos idle, taken]
        exact RootWordDue.of_latch rfl (by rw [set]; exact Bool.noConfusion)
      · exact Reports.of_place (u := s.advance.unlatched) before.kept after.clock
          ⟨[], by rw [List.append_nil]; exact after.kept⟩
      · rw [clear] at latched; cases latched
      · exact absurd aborts (free k here)
    · have clear : s.advance.clearTrip.ack = { s.advance with port := ⟨.idle, .acknowledge⟩ } := by
        rw [State.clearTrip, before.abort, if_neg latched]; rfl
      rw [clear] at taken
      have after := Still.ofAccess idle taken fun k => .inr (.inr rfl)
      have abort := after.abort.trans before.abort
      refine ⟨?_, fun k => ?_, fun _ => ⟨after.port, ?_, fun h => absurd h latched,
        fun _ => ⟨abort, after.kept.trans before.kept⟩⟩, fun ⟨k, here, aborts⟩ => absurd aborts (free k here)⟩
      · rw [abort]; exact (ported_access idle taken).2
      · exact congrArg TubeState.mode ((after.tube k).trans (before.tube k))
      · rw [State.tripOutput, abort]; exact Bool.eq_false_iff.mpr latched
  · have refuses : s.advance.classify (rootWriteAccess s .service 1 3) s.straps
        = s.advance.refuseBank (rootWriteAccess s .service 1 3) .state := by
      rw [decided]; exact if_neg fun e => free (clearable.mp e)
    obtain ⟨refused, kept, abort, -, tube⟩ := refused_access idle refuses
    refine ⟨?_, fun k => congrArg TubeState.mode (tube k), fun h => absurd h free, fun _ => ⟨refused, abort⟩⟩
    rw [abort]; exact kept

/-- Settles O13: by `classify_rootWrite`, word by word. -/
theorem rootWritesFollowTheClassAndTheWord : Obligations.RootWritesFollowTheClassAndTheWord := by
  refine ⟨fun s i word v idle other row => ?_, fun s v idle => ?_, fun s v idle h1 h2 h3 => ?_,
    fun s word v idle which => ?_, fun s word v idle which => ?_⟩
  · have refused : ∀ straps, Refuses s (s.takeAccess (rootWriteAccess s .operator word v) straps)
          (refusedNotice none none (rootWriteAccess s .operator word v) .privilege)
        ∧ Elsewhere none s (s.takeAccess (rootWriteAccess s .operator word v) straps) := fun straps => by
      obtain ⟨refuses, kept, -⟩ := refused_access (straps := straps) idle
        ((classify_rootWrite .operator word v).trans ((if_neg other).trans (if_pos rfl)))
      exact ⟨refuses, kept⟩
    rcases row with rfl | ⟨rfl, rfl⟩ | ⟨rfl, rfl⟩ | ⟨rfl, rfl, rfl⟩ | ⟨⟨straps, rfl⟩, rfl, rfl⟩ | ⟨rfl, rfl, rfl⟩
    all_goals exact ⟨_, rfl, refused _⟩
  · refine ⟨_, rfl, ?_⟩
    have passes : s.advance.classify (rootWriteAccess s .service 2 v) s.straps
        = { s.advance with port := ⟨s.passPhase (rootWriteAccess s .service 2 v) (s.root.address + 2) false, s.port.answer⟩
                           root := { s.root with argument := v } } := by
      have copied : s.advance.modRoot (fun r => { r with argument := v })
          = { s.advance with root := { s.root with argument := v } } := by
        rw [State.modRoot, (Finished.advance s).root]
      have writes : s.advance.classify (rootWriteAccess s .service 2 v) s.straps
          = (s.advance.modRoot fun r => { r with argument := v }).passWrite (rootWriteAccess s .service 2 v)
              (s.root.address + 2) false := classify_rootWrite _ _ _
      rw [writes, copied]
      exact passWrite_eq rfl (Finished.advance s).port (Finished.advance s).loader
    obtain ⟨port, -, -, kept⟩ := quiet_access (cache := s.advance.cache) idle passes
    rw [(Finished.advance s).cache] at kept
    exact ⟨port, kept⟩
  · obtain ⟨refuses, kept, -⟩ := refused_access (straps := s.straps) idle
      ((classify_rootCommand v).trans (rootCommand_unknown h1 h2 h3))
    exact ⟨_, rfl, refuses, kept⟩
  · have protects : s.advance.classify (rootWriteAccess s .service word v) s.straps
        = s.advance.refuseBank (rootWriteAccess s .service word v) .isProtected := by
      rcases which with rfl | rfl | rfl <;> exact classify_rootWrite _ _ _
    obtain ⟨refuses, kept, -⟩ := refused_access idle protects
    exact ⟨_, rfl, refuses, kept⟩
  · have passes : s.advance.classify (rootWriteAccess s .service word v) s.straps = s.advance.passWrite
        (rootWriteAccess s .service word v) (s.root.address + word.setWidth 20) false := by
      have off : ∀ w : Six, w.toNat = 1 ∨ w.toNat = 2 ∨ w.toNat = 3 ∨ w.toNat = 4 ∨ w.toNat = 5 ∨ w.toNat = 6 →
          word ≠ w := fun w hw e => by
        subst e
        rcases which with rfl | high
        · revert hw; decide
        · omega
      rw [classify_rootWrite, if_neg (off 5 (by decide)), if_neg (by decide)]
      unfold State.serviceRootWrite
      split
      · next e => exact absurd (BitVec.eq_of_toNat_eq (y := 1) e) (off 1 (by decide))
      · next e => exact absurd (BitVec.eq_of_toNat_eq (y := 2) e) (off 2 (by decide))
      · next e => exact absurd (BitVec.eq_of_toNat_eq (y := 3) e) (off 3 (by decide))
      · next e => exact absurd (BitVec.eq_of_toNat_eq (y := 4) e) (off 4 (by decide))
      · next e => exact absurd (BitVec.eq_of_toNat_eq (y := 6) e) (off 6 (by decide))
      · rfl
    exact ⟨_, rfl, ported_access idle (passes.trans (advance_passWrite _ _))⟩

/-- R184: what the consumer copy may advance to. -/
theorem takesConsumer_advance (v : Nat) : s.advance.notices.takesConsumer v = true ↔
    v < 16 * 2 ^ s.notices.sizeCode
      ∧ ringDistance (16 * 2 ^ s.notices.sizeCode) v s.notices.consumer
        ≤ ringDistance (16 * 2 ^ s.notices.sizeCode) s.notices.producer s.notices.consumer := by
  have same : s.advance.notices.takesConsumer v = s.notices.takesConsumer v := by
    rw [← (Finished.advance s).writer]; rfl
  rw [same, NoticeWriter.takesConsumer, Bool.and_eq_true, decide_eq_true_eq, decide_eq_true_eq]
  rfl

/-- Settles O14: the write is passed to memory where `takesConsumer` holds, and else refused. -/
theorem consumerIndexWriteIsDecided : Obligations.ConsumerIndexWriteIsDecided := by
  intro s c v idle
  refine ⟨_, rfl, ?_⟩
  have decided : s.advance.classify (rootWriteAccess s c 5 v) s.straps
      = s.advance.consumerWrite (rootWriteAccess s c 5 v) := classify_rootWrite _ _ _
  by_cases takes : s.advance.notices.takesConsumer v.toNat = true
  · obtain ⟨port, kept⟩ := ported_access idle
      (decided.trans ((if_pos takes).trans (advance_passWrite (s.root.address + 5) true)))
    obtain ⟨small, between⟩ := (takesConsumer_advance _).mp takes
    exact ⟨kept, fun _ _ => port, fun h => by omega⟩
  · obtain ⟨refused, kept, -⟩ := refused_access idle (decided.trans (if_neg takes))
    exact ⟨kept, fun small between => absurd ((takesConsumer_advance _).mpr ⟨small, between⟩) takes, fun _ => refused⟩

/-! ## Passes -/

/-- R6: a guard window of nonzero size covers its units. -/
theorem guard_covers_iff (g : Guard) (a : Addr) : g.covers a = true ↔
    g.size ≠ 0 ∧ g.base.toNat * 16 ≤ a.toNat ∧ a.toNat ≤ g.base.toNat * 16 + g.size.toNat * 16 - 1 := by
  simp only [Guard.covers, Bool.and_eq_true, bne_iff_ne, decide_eq_true_eq, and_assoc]
  refine and_congr_right fun nonzero => and_congr_right fun _ => ?_
  have : g.size.toNat ≠ 0 := fun e => nonzero (BitVec.eq_of_toNat_eq e)
  omega

theorem Five.mem_toList {α : Type} {v : Five α} {x : α} : x ∈ v.toList ↔ ∃ i, v.get i = x := by
  have listed : v.toList = Ix5.all.map v.get := rfl
  simp only [listed, List.mem_map, Ix5.mem_all, true_and]

/-- R8: the addresses a tube's plan reads are those of its bound zones, lines and boat. -/
theorem mem_plan {b : TubeBinding} {a : Addr} : a ∈ b.plan ↔
    (∃ z, (b.zones.get z).bound = true ∧ (b.zones.get z).addr = a)
      ∨ (∃ l, (b.lines.get l).bound = true ∧ (b.lines.get l).addr = a) ∨ b.boat.bound = true ∧ b.boat.addr = a := by
  have boat : a ∈ (if b.boat.bound then [b.boat.addr] else []) ↔ b.boat.bound = true ∧ b.boat.addr = a := by
    split
    · next bound => simp only [List.mem_singleton, bound, true_and, eq_comm]
    · next unbound => simp only [List.not_mem_nil, unbound, Bool.false_eq_true, false_and]
  simp only [TubeBinding.plan, List.mem_append, List.mem_map, List.mem_filter, boat, or_assoc, Five.mem_toList,
    Eight.mem_toList]
  refine or_congr ⟨?_, ?_⟩ (or_congr ⟨?_, ?_⟩ Iff.rfl)
  · rintro ⟨_, ⟨⟨z, rfl⟩, bound⟩, at_⟩; exact ⟨z, bound, at_⟩
  · rintro ⟨z, bound, at_⟩; exact ⟨_, ⟨⟨z, rfl⟩, bound⟩, at_⟩
  · rintro ⟨_, ⟨⟨l, rfl⟩, bound⟩, at_⟩; exact ⟨l, bound, at_⟩
  · rintro ⟨l, bound, at_⟩; exact ⟨_, ⟨⟨l, rfl⟩, bound⟩, at_⟩

/-- R8: an address is bound when it is in the plan of a present tube. -/
theorem isBound_iff {a : Addr} :
    s.isBound a = true ↔ ∃ k, (s.root.tubes.get k).present = true ∧ a ∈ (s.binding.get k).plan := by
  simp only [State.isBound, State.presentTubes, List.any_eq_true, List.mem_filter, Ix4.mem_all, true_and,
    List.contains_iff_mem, State.present]

/-- What steps 1 to 3 of R6 and R8 say of a write, the bus's decision does not change. -/
theorem writeRefusal_advance (c : AccessClass) (a : Addr) : s.advance.writeRefusal c a = s.writeRefusal c a := by
  obtain ⟨b, d, n, decided⟩ := advance_eq s
  rw [decided]; rfl

/-- R6: a NO_WRITE guard window that covers the address refuses every write. -/
theorem writeRefusal_noWrite {c : AccessClass} {a : Addr}
    (h : ∃ g, (g = s.root.guard0 ∨ g = s.root.guard1) ∧ g.covers a = true ∧ g.noWrite = true) :
    s.writeRefusal c a = some .isProtected := by
  have covered : ((s.root.guard0.covers a && s.root.guard0.noWrite)
      || (s.root.guard1.covers a && s.root.guard1.noWrite)) = true := by
    obtain ⟨g, rfl | rfl, covers, flag⟩ := h
    · rw [covers, flag]; rfl
    · rw [covers, flag]; exact Bool.or_true _
  rw [State.writeRefusal, State.guardRefusal, if_pos covered]

/-- R6: past NO_WRITE, a SERVICE_WRITE guard window that covers the address refuses an OPERATOR write. -/
theorem guardRefusal_eq {c : AccessClass} {a : Addr}
    (h : ¬ ∃ g, (g = s.root.guard0 ∨ g = s.root.guard1) ∧ g.covers a = true ∧ g.noWrite = true) :
    ((∃ g, (g = s.root.guard0 ∨ g = s.root.guard1) ∧ g.covers a = true ∧ g.serviceWrite = true) → c = .operator →
        s.guardRefusal c a = some .privilege)
      ∧ (¬ ((∃ g, (g = s.root.guard0 ∨ g = s.root.guard1) ∧ g.covers a = true ∧ g.serviceWrite = true) ∧ c = .operator) →
        s.guardRefusal c a = none) := by
  have clear : ¬ ((s.root.guard0.covers a && s.root.guard0.noWrite)
      || (s.root.guard1.covers a && s.root.guard1.noWrite)) = true := fun covered => h (by
    simp only [Bool.or_eq_true, Bool.and_eq_true] at covered
    exact covered.elim (fun e => ⟨_, .inl rfl, e⟩) (fun e => ⟨_, .inr rfl, e⟩))
  have service : (decide (c = .operator) && ((s.root.guard0.covers a && s.root.guard0.serviceWrite)
      || (s.root.guard1.covers a && s.root.guard1.serviceWrite))) = true
      ↔ (∃ g, (g = s.root.guard0 ∨ g = s.root.guard1) ∧ g.covers a = true ∧ g.serviceWrite = true) ∧ c = .operator := by
    simp only [Bool.or_eq_true, Bool.and_eq_true, decide_eq_true_eq, or_and_right, exists_or, exists_eq_left]
    rw [← or_and_right]
    exact and_comm
  rw [State.guardRefusal, if_neg clear]
  exact ⟨fun window operator => if_pos (service.mpr ⟨window, operator⟩), fun open_ => if_neg fun e => open_ (service.mp e)⟩

/-- R8: past the guard windows, a write to a bound address is refused in READY. -/
theorem writeRefusal_of_open {c : AccessClass} {a : Addr} (h : s.guardRefusal c a = none) :
    s.writeRefusal c a = if s.loader.phase = .ready ∧ s.isBound a = true then some .bound else none := by
  rw [State.writeRefusal, h, State.boundRefusal]

/-- R1: an access outside the root block and the furnace window passes through. -/
theorem classify_pass (presents : Presents s acc) (off : windowPlace s.root.windowBase acc.addr = none) :
    s.advance.classify acc straps = s.advance.passThrough acc := by
  unfold State.classify
  rw [(Finished.advance s).root, presents.2]
  dsimp only
  rw [off]

/-- R7: a passed read. -/
theorem pass_read {c : AccessClass} {a : Addr} (presents : Presents s ⟨a, .read, c, 0⟩)
    (off : windowPlace s.root.windowBase a = none) :
    (s.takeAccess ⟨a, .read, c, 0⟩ straps).port = s.readPort ⟨a, .read, c, 0⟩ a
      ∧ Elsewhere none s (s.takeAccess ⟨a, .read, c, 0⟩ straps) :=
  ported_access presents.1 ((classify_pass presents off).trans (advance_passRead a))

/-- R6, R7: a passed write that is refused. -/
theorem pass_write_refused {c : AccessClass} {a : Addr} {v : Word} {r : RefuseReason}
    (presents : Presents s ⟨a, .write, c, v⟩) (off : windowPlace s.root.windowBase a = none)
    (refuses : s.writeRefusal c a = some r) :
    Refuses s (s.takeAccess ⟨a, .write, c, v⟩ straps) (refusedNotice none none ⟨a, .write, c, v⟩ r)
      ∧ Elsewhere none s (s.takeAccess ⟨a, .write, c, v⟩ straps) := by
  have refused : s.advance.passThrough ⟨a, .write, c, v⟩ = s.advance.refuseBank ⟨a, .write, c, v⟩ r := by
    unfold State.passThrough; dsimp only; rw [writeRefusal_advance, refuses]
  obtain ⟨answers, kept, -⟩ := refused_access presents.1 ((classify_pass (straps := straps) presents off).trans refused)
  exact ⟨answers, kept⟩

/-- R6, R7: a passed write that nothing refuses. -/
theorem pass_write_taken {c : AccessClass} {a : Addr} {v : Word}
    (presents : Presents s ⟨a, .write, c, v⟩) (off : windowPlace s.root.windowBase a = none)
    (taken : s.writeRefusal c a = none) :
    (s.takeAccess ⟨a, .write, c, v⟩ straps).port = ⟨s.passPhase ⟨a, .write, c, v⟩ a false, s.port.answer⟩
      ∧ Elsewhere none s (s.takeAccess ⟨a, .write, c, v⟩ straps) := by
  have passes : s.advance.passThrough ⟨a, .write, c, v⟩ = s.advance.passWrite ⟨a, .write, c, v⟩ a false := by
    unfold State.passThrough; dsimp only; rw [writeRefusal_advance, taken]
  exact ported_access presents.1 ((classify_pass presents off).trans (passes.trans (advance_passWrite a false)))

/-- Settles O16: the windows and the bound addresses, and then each pass by what `writeRefusal` says of it. -/
theorem passesFollowTheWindowsAndTheBounds : Obligations.PassesFollowTheWindowsAndTheBounds := by
  refine ⟨guard_covers_iff, fun s a => ?_, fun s c a presents off => ⟨_, rfl, pass_read presents off⟩,
    fun s c a v presents off clear0 clear1 => ⟨_, rfl, ?_⟩, fun s c a presents off => ⟨_, rfl, pass_read presents off⟩,
    fun s c a v presents off => ?_⟩
  · simp only [isBound_iff, mem_plan]
  · have open_ : s.guardRefusal c a = none := by
      simp only [State.guardRefusal, clear0, clear1, Bool.false_and, Bool.or_self, Bool.and_false, Bool.false_eq_true,
        if_false]
    have refusal := writeRefusal_of_open open_
    by_cases bound : s.loader.phase = .ready ∧ s.isBound a = true
    · obtain ⟨refuses, kept⟩ := pass_write_refused presents off (refusal.trans (if_pos bound))
      exact ⟨kept, fun _ => refuses, fun h => h.elim (absurd bound.1) fun h => by rw [h] at bound; cases bound.2⟩
    · obtain ⟨port, kept⟩ := pass_write_taken presents off (refusal.trans (if_neg bound))
      exact ⟨kept, fun h => absurd h bound, fun _ => port⟩
  · intro noWrite service bound
    refine ⟨_, rfl, ?_⟩
    by_cases barred : noWrite
    · obtain ⟨refuses, kept⟩ := pass_write_refused presents off (writeRefusal_noWrite barred)
      exact ⟨kept, fun _ => refuses, fun h => absurd barred h, fun h => absurd barred h, fun h => absurd barred h⟩
    · obtain ⟨private_, open_⟩ := guardRefusal_eq (c := c) barred
      by_cases held : service ∧ c = .operator
      · obtain ⟨refuses, kept⟩ := pass_write_refused presents off
          (show s.writeRefusal c a = some .privilege by rw [State.writeRefusal, private_ held.1 held.2])
        exact ⟨kept, fun h => absurd h barred, fun _ _ _ => refuses, fun _ h => absurd held h, fun _ h => absurd held h⟩
      · have refusal := writeRefusal_of_open (open_ held)
        by_cases bars : bound
        · obtain ⟨refuses, kept⟩ := pass_write_refused presents off (refusal.trans (if_pos bars))
          exact ⟨kept, fun h => absurd h barred, fun _ w o => absurd ⟨w, o⟩ held, fun _ _ _ => refuses,
            fun _ _ h => absurd bars h⟩
        · obtain ⟨port, kept⟩ := pass_write_taken presents off (refusal.trans (if_neg bars))
          exact ⟨kept, fun h => absurd h barred, fun _ w o => absurd ⟨w, o⟩ held, fun _ _ h => absurd h bars,
            fun _ _ _ => port⟩

end Sys2Proof.Machine

/-! PASS accesses that complete, and a consumer-index write among them (R172, R173, R184, R185). -/

namespace Sys2Proof.Machine

variable {s u : State} {acc : Access}

/-- R173: no delivery for an address is pending or in flight. -/
theorem deliverySettled_iff {a : Addr} : s.deliverySettled a = true ↔
    (∀ d ∈ s.delivery, d.addr ≠ a)
      ∧ ∀ b, s.bus.inFlight = some b → b.requester = .deliver → b.addr ≠ a := by
  have pending : (s.forwarded a).isNone = true ↔ ∀ d ∈ s.delivery, d.addr ≠ a := by
    simp only [State.forwarded, pendingFor, Option.isNone_map, Option.isNone_iff_eq_none, List.find?_eq_none, beq_iff_eq]
  rw [State.deliverySettled, Bool.and_eq_true, pending]
  refine and_congr_right fun _ => ?_
  cases s.bus.inFlight with
  | none => simp
  | some b => simp only [Bool.not_eq_true', Bool.and_eq_false_imp, decide_eq_true_eq, beq_eq_false_iff_ne, ne_eq,
      Option.some.injEq, forall_eq']

/-- A command that answers the port and frees the bus leaves everything else. -/
theorem Elsewhere.portBus (s : State) (port : Port) (bus : Bus) (phase : NoticePhase) :
    Elsewhere none s { s with port := port, bus := bus, notices := { s.notices with phase := phase } } where
  pending := rfl
  mem := rfl
  straps := rfl
  clock := rfl
  root := rfl
  cache := rfl
  binding := rfl
  scanner := rfl
  measured := rfl
  arrivals := rfl
  monitor := rfl
  loader := rfl
  latch := ⟨rfl, rfl, rfl⟩
  pools := rfl
  ring := ⟨rfl, rfl⟩
  others := fun _ _ => .refl _

/-- An access of PASS in flight completes in the state `opened` gives. -/
theorem passAccess_exec {a : BusAccess} {b : Addr} {consumer : Bool} (flight : InFlight s .pass a)
    (waits : s.port.phase = .pass acc b consumer) : ∃ p,
    exec .passAccessComplete s = .next ((s.modNotices fun n => { n with phase := p }).finish
      ((s.modNotices fun n => { n with phase := p }).passDone acc consumer (s.readWord a.addr)))
    ∧ (consumer = true → exec .consumerAdvance s = exec .passAccessComplete s) := by
  obtain ⟨p, opens, -, owns⟩ := opened flight
  rw [opens] at owns
  have phase : (s.modNotices fun n => { n with phase := p }).port.phase = .pass acc b consumer := waits
  refine ⟨p, ?_, ?_⟩
  · unfold exec execPassAccessComplete
    simp only [opens, owns, phase]
    rfl
  · rintro rfl
    unfold exec execPassAccessComplete execConsumerAdvance
    simp only [opens, owns, phase]

/-- Settles O17. -/
theorem passAccessesComplete : Obligations.PassAccessesComplete := by
  refine ⟨fun s acc a consumer waits => ?_, fun s a acc b flight waits => ?_⟩
  · have run : exec .passWriteDeferred s
        = if s.deliverySettled a then .next (s.finish { s with port := { s.port with phase := .pass acc a consumer } })
          else .next s := by
      unfold exec execPassWriteDeferred; simp only [waits]
    by_cases settled : s.deliverySettled a = true
    · rw [if_pos settled] at run
      have after : Still { s with port := { s.port with phase := .pass acc a consumer } } _ :=
        Still.finish (before := s) fun _ => .inr (.inr rfl)
      refine ⟨_, run, fun _ _ => ⟨after.port, ?_⟩, fun ⟨d, here, at_⟩ => absurd at_ ((deliverySettled_iff.mp settled).1 d here)⟩
      exact (Elsewhere.portBus s _ s.bus s.notices.phase).trans after.elsewhere
    · rw [if_neg settled] at run
      exact ⟨s, run, fun none_ off => absurd (deliverySettled_iff.mpr ⟨none_, off⟩) settled, fun _ => rfl⟩
  · obtain ⟨p, run, -⟩ := passAccess_exec flight waits
    refine ⟨fun read none_ => ⟨_, run, ?_⟩, fun write some_ wf => ⟨_, run, ?_⟩⟩
    · have done : (s.modNotices fun n => { n with phase := p }).passDone acc false (s.readWord a.addr)
          = { s with port := ⟨.idle, .data (s.readWord a.addr)⟩, bus := { s.bus with inFlight := none }
                     notices := { s.notices with phase := p } } := by
        unfold State.passDone
        simp only [read, completeBus_read (s := s.modNotices _) flight.1 none_]
        rfl
      have after : Still _ _ := Still.finish (before := s.modNotices fun n => { n with phase := p })
        (after := (s.modNotices fun n => { n with phase := p }).passDone acc false (s.readWord a.addr))
        (by rw [done]; exact fun _ => .inr (.inr rfl))
      refine ⟨after.port.trans (by rw [done]), ?_⟩
      exact Elsewhere.trans (by rw [done]; exact .portBus s _ _ p) after.elsewhere
    · have done : (s.modNotices fun n => { n with phase := p }).passDone acc false (s.readWord a.addr)
          = { s.writeWord a.addr acc.value with
                port := ⟨.idle, .acknowledge⟩, bus := { s.bus with inFlight := none }
                notices := { s.notices with phase := p } } := by
        unfold State.passDone
        simp only [write, completeBus_write (s := s.modNotices _) flight.1 some_]
        rfl
      have after : Still _ _ := Still.finish (before := s.modNotices fun n => { n with phase := p })
        (after := (s.modNotices fun n => { n with phase := p }).passDone acc false (s.readWord a.addr))
        (by rw [done]; exact fun _ => .inr (.inr rfl))
      have mem := after.mem.trans (show _ = (s.writeWord a.addr acc.value).mem by rw [done])
      refine ⟨after.port.trans (by rw [done]), fun x => ?_, ?_⟩
      · rw [← State.readWord_writeWord _ _ _ wf, State.readWord, mem]; rfl
      · rw [mem]
        exact Elsewhere.trans (by rw [done]; exact .portBus (s.writeWord a.addr acc.value) _ _ p) after.elsewhere

/-! ## The consumer index (R184, R185) -/

/-- R184: the consumer copy takes the value, and nothing else where it is the one it held. -/
theorem consumerWritten_same {v : Nat} (same : v = s.notices.consumer) :
    s.consumerWritten v = s.modNotices fun n => { n with consumer := v } := by
  simp only [State.consumerWritten, same, bne_self_eq_false, Bool.false_eq_true, if_false]

/-- R185: a changed copy returns the Service Monitor to NORMAL. -/
theorem consumerWritten_normal {v : Nat} (changed : v ≠ s.notices.consumer) (normal : s.monitor.lapsed = false) :
    s.consumerWritten v = (s.modNotices fun n => { n with consumer := v }).modMonitor fun m =>
      { m with count := 0, lapsed := false } := by
  simp only [State.consumerWritten, bne_iff_ne.mpr changed, normal, Bool.false_eq_true, if_true, if_false]

/-- R185: a changed copy in LAPSED also places SERVICE_BACK. -/
theorem consumerWritten_lapsed {v : Nat} (changed : v ≠ s.notices.consumer) (lapsed : s.monitor.lapsed = true) :
    s.consumerWritten v = ((s.modNotices fun n => { n with consumer := v }).modMonitor fun m =>
      { m with count := 0, lapsed := false }).place (serviceNotice .serviceBack { s.notices with consumer := v }) := by
  simp only [State.consumerWritten, bne_iff_ne.mpr changed, lapsed, if_true]
  rfl

/-- What a written consumer index can change: the copy, the monitor and the buffer. -/
theorem consumerWritten_eq (s : State) (v : Nat) : ∃ n m, s.consumerWritten v = { s with notices := n, monitor := m }
    ∧ n.consumer = v ∧ n.producer = s.notices.producer
    ∧ (v ≠ s.notices.consumer → m = { s.monitor with count := 0, lapsed := false })
    ∧ (v = s.notices.consumer → m = s.monitor)
    ∧ (v ≠ s.notices.consumer → s.monitor.lapsed = true → ∃ u : State, u.notices.buffer = s.notices.buffer
        ∧ u.clock = s.clock ∧ n = (u.place (serviceNotice .serviceBack { s.notices with consumer := v })).notices) := by
  by_cases same : v = s.notices.consumer
  · exact ⟨_, _, consumerWritten_same same, rfl, rfl, fun h => absurd same h, fun _ => rfl, fun h => absurd same h⟩
  · cases lapsed : s.monitor.lapsed with
    | false =>
      exact ⟨_, _, consumerWritten_normal same lapsed, rfl, rfl, fun _ => rfl, fun h => absurd h same, fun _ => nofun⟩
    | true =>
      have ring := ring_of_writer (Shift.place (P := True) none
        ((s.modNotices fun n => { n with consumer := v }).modMonitor fun m => { m with count := 0, lapsed := false })
        (serviceNotice .serviceBack { s.notices with consumer := v })).notices.writer
      exact ⟨_, _, consumerWritten_lapsed same lapsed, ring.2, ring.1, fun _ => rfl, fun h => absurd h same,
        fun _ _ => ⟨(s.modNotices fun n => { n with consumer := v }).modMonitor fun m =>
          { m with count := 0, lapsed := false }, rfl, rfl, rfl⟩⟩

/-- Settles O15: the completed write's event is `consumerWritten_eq`, whichever row completes it. -/
theorem consumerAdvanceFollowsTheWrite : Obligations.ConsumerAdvanceFollowsTheWrite := by
  intro s i a acc b row flight waits write value wf
  obtain ⟨p, passed, advanced⟩ := passAccess_exec flight waits
  have run : exec i s = exec .passAccessComplete s := by
    rcases row with rfl | rfl
    · exact advanced rfl
    · rfl
  rw [passed] at run
  let s1 := s.modNotices fun n => { n with phase := p }
  obtain ⟨n, m, written, consumer, producer, normal, unchanged, back⟩ := consumerWritten_eq s1.completeBus acc.value.toNat
  have done : s1.passDone acc true (s.readWord a.addr)
      = { s.writeWord a.addr acc.value with
            port := ⟨.idle, .acknowledge⟩, bus := { s.bus with inFlight := none }, notices := n, monitor := m } := by
    have acknowledged : s1.passDone acc true (s.readWord a.addr) = (s1.completeBus.consumerWritten acc.value.toNat).ack := by
      unfold State.passDone; simp only [write, if_true]
    rw [acknowledged, written, completeBus_write (s := s1) flight.1 value]
    rfl
  rw [completeBus_write (s := s1) flight.1 value] at producer normal unchanged back
  rw [done] at run
  have after := Finished.finish s1 { s.writeWord a.addr acc.value with
            port := ⟨.idle, .acknowledge⟩, bus := { s.bus with inFlight := none }, notices := n, monitor := m }
  have ring := ring_of_writer after.writer
  have monitor : _ = m := after.monitor
  refine ⟨_, run, after.port, ring.2.trans consumer, ring.1.trans producer, ?_, fun x => ?_, fun changed => ?_,
    fun same => after.monitor.trans (unchanged same), ?_⟩
  · rw [State.noticeOutput, ring.1, ring.2, bne_iff_ne]
    exact consumer ▸ producer ▸ Iff.rfl
  · rw [← State.readWord_writeWord _ _ _ wf, State.readWord, after.mem]; rfl
  · refine ⟨after.monitor.trans (normal changed), fun lapsed => ?_⟩
    obtain ⟨u, buffer, clock, placed⟩ := back changed lapsed
    obtain ⟨l, more⟩ := after.buffer
    exact Reports.of_place buffer (after.clock.trans clock.symm) ⟨l, more.trans (congrArg (fun w : NoticeWriter => w.buffer ++ l) placed)⟩
  · have kept := after.elsewhere
    exact { kept with monitor := rfl, ring := ⟨rfl, rfl⟩, mem := rfl }

end Sys2Proof.Machine

/-! The Channel Map (R9 to R23, R189, R192): what a descriptor's words say, and the accesses that are refused in order,
miss the cache, or read a channel. -/

namespace Sys2Proof.Machine

variable {s u : State} {acc : Access} {straps : BitVec 4} {p : Place} {d : DescWords}

/-! ## Descriptors -/

/-- A number of three bits, by cases. -/
theorem lt_eight_cases {n : Nat} (h : n < 8) :
    n = 0 ∨ n = 1 ∨ n = 2 ∨ n = 3 ∨ n = 4 ∨ n = 5 ∨ n = 6 ∨ n = 7 := by omega

theorem DescWords.kind_eq (d : DescWords) : d.kind = match d.w0.toNat % 8 with
    | 0 => some .invalid | 1 => some .plain | 2 => some .zone | 3 => some .line | 4 => some .boat | 5 => some .tube
    | _ => none := by
  unfold DescWords.kind bitsOf
  rw [Nat.shiftRight_zero] <;> rfl

theorem DescWords.index_eq (d : DescWords) : d.index = d.w0.toNat / 256 % 16 := by
  unfold DescWords.index bitsOf
  rw [Nat.shiftRight_eq_div_pow] <;> rfl

theorem DescWords.addr_eq (d : DescWords) : d.addr = BitVec.ofNat 20 (d.w2.toNat % 16 * 0x10000 + d.w1.toNat) := by
  unfold DescWords.addr bitsOf
  rw [Nat.shiftRight_zero] <;> rfl

theorem DescWords.weight_eq (d : DescWords) : d.weight = d.w4.toNat % 256 := by
  unfold DescWords.weight bitsOf
  rw [Nat.shiftRight_zero] <;> rfl

theorem DescWords.devCount_eq (d : DescWords) : d.devCount = d.w4.toNat / 256 := by
  have := d.w4.isLt
  unfold DescWords.devCount bitsOf
  rw [Nat.shiftRight_eq_div_pow]
  omega

theorem DescWords.readable_eq (d : DescWords) : d.readable = match d.w0.toNat % 8 with
    | 1 => d.w3.toNat | 2 => 1 | 3 => 1 | 4 => 1 | 5 => 8 | _ => 0 := by
  unfold DescWords.readable
  rw [d.kind_eq]
  have : d.w0.toNat % 8 < 8 := Nat.mod_lt _ (by decide)
  generalize d.w0.toNat % 8 = code at this
  rcases lt_eight_cases this with rfl | rfl | rfl | rfl | rfl | rfl | rfl | rfl <;> rfl

theorem DescWords.writable_eq (d : DescWords) : d.writable = match d.w0.toNat % 8 with
    | 1 => d.w3.toNat | 2 => 1 | 3 => 1 | 4 => 1 | 5 => 1 | _ => 0 := by
  unfold DescWords.writable
  rw [d.kind_eq]
  have : d.w0.toNat % 8 < 8 := Nat.mod_lt _ (by decide)
  generalize d.w0.toNat % 8 = code at this
  rcases lt_eight_cases this with rfl | rfl | rfl | rfl | rfl | rfl | rfl | rfl <;> rfl

theorem Ix5.ofNat?_eq {n : Nat} {z : Ix5} : Ix5.ofNat? n = some z ↔ n = z.toNat := by
  constructor
  · intro h
    unfold Ix5.ofNat? at h
    split at h <;> cases h <;> rfl
  · rintro rfl
    cases z <;> rfl

theorem Ix8.ofNat?_eq {n : Nat} {l : Ix8} : Ix8.ofNat? n = some l ↔ n = l.toNat := by
  constructor
  · intro h
    unfold Ix8.ofNat? at h
    split at h <;> cases h <;> rfl
  · rintro rfl
    cases l <;> rfl

/-- The kinds by their codes. -/
theorem DescWords.kind_iff (d : DescWords) :
    (d.kind = some .invalid ↔ d.w0.toNat % 8 = 0) ∧ (d.kind = some .plain ↔ d.w0.toNat % 8 = 1)
      ∧ (d.kind = some .zone ↔ d.w0.toNat % 8 = 2) ∧ (d.kind = some .line ↔ d.w0.toNat % 8 = 3)
      ∧ (d.kind = some .boat ↔ d.w0.toNat % 8 = 4) ∧ (d.kind = some .tube ↔ d.w0.toNat % 8 = 5)
      ∧ (d.kind = none ↔ 5 < d.w0.toNat % 8) := by
  rw [d.kind_eq]
  have : d.w0.toNat % 8 < 8 := Nat.mod_lt _ (by decide)
  generalize d.w0.toNat % 8 = code at this
  rcases lt_eight_cases this with rfl | rfl | rfl | rfl | rfl | rfl | rfl | rfl <;> decide

theorem DescWords.mark_zone {z : Zone} : d.mark = .zone z ↔ d.kind = some .zone ∧ d.index = z.toNat := by
  unfold DescWords.mark
  split
  · next kind =>
    simp only [kind, true_and, ← Ix5.ofNat?_eq]
    split
    · next found => rw [found]; simp only [Mark.zone.injEq, Option.some.injEq]
    · next found => rw [found]; simp only [reduceCtorEq]
  · next kind => split <;> simp only [kind, reduceCtorEq, Option.some.injEq, false_and]
  · next kind => simp only [kind, reduceCtorEq, Option.some.injEq, false_and]
  · next other _ _ => exact ⟨nofun, fun h => absurd h.1 other⟩

theorem DescWords.mark_line {l : Line} : d.mark = .line l ↔ d.kind = some .line ∧ d.index = l.toNat := by
  unfold DescWords.mark
  split
  · next kind => split <;> simp only [kind, reduceCtorEq, Option.some.injEq, false_and]
  · next kind =>
    simp only [kind, true_and, ← Ix8.ofNat?_eq]
    split
    · next found => rw [found]; simp only [Mark.line.injEq, Option.some.injEq]
    · next found => rw [found]; simp only [reduceCtorEq]
  · next kind => simp only [kind, reduceCtorEq, Option.some.injEq, false_and]
  · next _ other _ => exact ⟨nofun, fun h => absurd h.1 other⟩

theorem DescWords.mark_boat : d.mark = .boat ↔ d.kind = some .boat := by
  unfold DescWords.mark
  split
  · next kind => split <;> simp only [kind, reduceCtorEq, Option.some.injEq]
  · next kind => split <;> simp only [kind, reduceCtorEq, Option.some.injEq]
  · next kind => simp only [kind]
  · next _ _ other => exact ⟨nofun, fun h => absurd h other⟩

/-! ## Steps 4 to 6 of R22 -/

/-- Steps 4 to 6 read the root copy, the bindings and the load phase. -/
theorem stepRefusal_met : s.met.stepRefusal acc p d = s.stepRefusal acc p d := by
  obtain ⟨b, q, n, met⟩ := met_eq s
  rw [met]; rfl

theorem writeProtected_iff : s.writeProtected p d = true ↔ d.protect = true ∨ (s.root.tubes.get p.tube).protect = true :=
  Bool.or_eq_true _ _ ▸ Iff.rfl

/-- R9: step 4 refuses a word past the channel's count. -/
theorem channelRefusal_eq (acc : Access) (p : Place) (d : DescWords) : channelRefusal acc p d =
    if p.word.toNat < (if acc.direction = .read then d.readable else d.writable) then none else some .noChannel := by
  obtain ⟨_, dir, _, _⟩ := acc
  cases dir <;> rfl

/-- R11: whom step 5 refuses. -/
theorem classRefusal_eq (s : State) (acc : Access) (p : Place) (d : DescWords) : s.classRefusal acc p d =
    if acc.class_ = .operator ∧ (d.service = true ∨ (s.root.tubes.get p.tube).service = true)
      ∧ (acc.direction = .write ∨ d.kind = some .plain)
      ∧ ¬ (d.kind = some .tube ∧ acc.direction = .write ∧ p.word = 0 ∧ acc.value = 4)
    then some .privilege else none := by
  unfold State.classRefusal State.serviceProtected abortException
  refine ite_congr (propext ?_) (fun _ => rfl) fun _ => rfl
  simp only [Bool.and_eq_true, Bool.or_eq_true, Bool.not_eq_true', decide_eq_true_eq, ← Bool.not_eq_true, beq_iff_eq,
    and_assoc]

/-- Settles O19: the words by the equations above, the steps in the order `stepRefusal` takes them. -/
theorem stepsFourToSixInOrder : Obligations.StepsFourToSixInOrder := by
  refine ⟨fun d => ?_, fun s acc p d => ?_⟩
  · intro code index
    refine ⟨d.kind_eq, d.readable_eq, d.writable_eq, rfl, rfl, rfl, d.addr_eq, fun z => ?_, fun l => ?_, ?_⟩
    · rw [d.mark_zone, d.kind_iff.2.2.1, d.index_eq]
    · rw [d.mark_line, d.kind_iff.2.2.2.1, d.index_eq]
    · rw [d.mark_boat, d.kind_iff.2.2.2.2.1]
  · intro count private_ guarded
    have four : channelRefusal acc p d = if p.word.toNat < count then none else some .noChannel :=
      channelRefusal_eq acc p d
    have five : s.classRefusal acc p d = if private_ then some .privilege else none := classRefusal_eq s acc p d
    have past : ∀ {r}, p.word.toNat < count → ¬ private_ →
        (match acc.direction with | .read => none | .write => s.protectRefusal acc p d) = r →
        s.stepRefusal acc p d = r := fun within open_ rest => by
      rw [State.stepRefusal, four, if_pos within, five, if_neg open_]
      exact rest
    have written : ∀ {r}, p.word.toNat < count → ¬ private_ → acc.direction = .write → s.protectRefusal acc p d = r →
        s.stepRefusal acc p d = r := fun within open_ write rest => past within open_ (by rw [write]; exact rest)
    have writable : ¬ guarded → acc.direction = .write → ¬ s.writeProtected p d = true := fun free write e =>
      free ⟨write, writeProtected_iff.mp e⟩
    refine ⟨fun beyond => ?_, fun within held => ?_, fun within open_ ⟨write, flags⟩ => ?_, fun within open_ read => ?_,
      fun within open_ free write other => ?_, fun within open_ free write plain => ⟨fun root => ?_, fun off => ?_⟩⟩
    · rw [State.stepRefusal, four, if_neg (Nat.not_lt.mpr beyond)]
    · rw [State.stepRefusal, four, if_pos within, five, if_pos held]
    · exact written within open_ write (if_pos (writeProtected_iff.mpr flags))
    · exact past within open_ (by rw [read])
    · exact written within open_ write ((if_neg (writable free write)).trans (if_neg other))
    · refine written within open_ write ((if_neg (writable free write)).trans ((if_pos plain).trans (if_pos ?_)))
      exact Option.isSome_iff_ne_none.mpr root
    · refine written within open_ write ((if_neg (writable free write)).trans ((if_pos plain).trans (if_neg ?_)))
      exact fun e => Option.isSome_iff_ne_none.mp e off

/-! ## Accesses of the furnace window -/

/-- Every row that presents a furnace-window access presents the one `channelCommand` names. -/
theorem channelCommand_exec {i : Instr} {c : AccessClass} {dir : Direction} {v : Word}
    (row : channelCommand i = some (c, dir, p, v)) (s : State) :
    exec i s = .next (s.takeAccess (placeAccess s c dir p v) s.straps) := by
  cases i <;> cases row <;> rfl

/-- R22: an access of the furnace window is decided by the load phase first. -/
theorem classify_place {c : AccessClass} {dir : Direction} {v : Word} (presents : Presents s (placeAccess s c dir p v)) :
    s.advance.classify (placeAccess s c dir p v) straps = s.advance.channelAccess (placeAccess s c dir p v) p := by
  unfold State.classify
  rw [(Finished.advance s).root, presents.2]
  dsimp only
  rw [show windowPlace s.root.windowBase (placeAccess s c dir p v).addr = some p from windowPlace_placeAddress _ _]

/-- R16: the lookup of an access in READY to a present tube. -/
theorem classify_lookup {c : AccessClass} {dir : Direction} {v : Word} (presents : Presents s (placeAccess s c dir p v))
    (ready : s.loader.phase = .ready) (here : s.present p.tube = true) :
    s.advance.classify (placeAccess s c dir p v) straps = s.advance.lookup (placeAccess s c dir p v) p := by
  have present : s.advance.present p.tube = true := by rw [State.present, (Finished.advance s).root]; exact here
  rw [classify_place presents]
  unfold State.channelAccess
  rw [(Finished.advance s).loader, ready]
  exact if_pos present

theorem cacheHit_advance : s.advance.cacheHit p = s.cacheHit p := by
  unfold State.cacheHit State.cacheEntry
  rw [(Finished.advance s).cache]

theorem cacheEntry_met {way : Ix4} : s.met.cacheEntry p way = s.cacheEntry p way := by
  obtain ⟨b, q, n, met⟩ := met_eq s
  rw [met]; rfl

/-- R24: an access that ends in a refusal, with the replacement counter advanced or not. -/
theorem refused_access_at {n : Notice} {m : BitVec 2} (idle : s.port.phase = .idle)
    (decided : s.advance.classify acc straps
      = ({ s.advance with replacement := m }.place n).answer .errorAcknowledge) :
    Refuses s (s.takeAccess acc straps) n ∧ Elsewhere none s (s.takeAccess acc straps) := by
  have before := Still.advance s
  have event : Local .i0 s.advance (({ s.advance with replacement := m }.place n).answer .errorAcknowledge) :=
    (Local.replacement _ _ _).trans ((Local.place _ _ _).trans (.answer _ _ _))
  have after := Still.ofAccess idle decided (event.noneDue (fun _ _ => rfl) (.inr (.inr (.refl _))))
  refine ⟨⟨after.port, Reports.of_place (u := { s.advance with replacement := m }) before.kept after.clock
    ⟨[], by rw [List.append_nil]; exact after.kept⟩⟩, ?_⟩
  exact (before.elsewhere.trans (event.elsewhere_none (.refl _))).trans after.elsewhere

/-- Settles O18: by the load phase, by the present flag, or by the steps after a lookup that hits. -/
theorem channelAccessIsRefusedInOrder : Obligations.ChannelAccessIsRefusedInOrder := by
  intro s i c dir p v row acc presents r why
  refine ⟨_, channelCommand_exec row s, ?_⟩
  have phase : s.advance.loader.phase = s.loader.phase := by rw [(Finished.advance s).loader]
  rcases why with ⟨notReady, rfl⟩ | ⟨loading, rfl⟩ | ⟨ready, absent, rfl⟩ | ⟨ready, here, way, hit, refuses⟩
  · refine refused_access_at (m := s.advance.replacement) presents.1 ((classify_place presents).trans ?_)
    unfold State.channelAccess
    rw [phase, notReady]; rfl
  · refine refused_access_at (m := s.advance.replacement) presents.1 ((classify_place presents).trans ?_)
    unfold State.channelAccess
    rw [phase, loading]; rfl
  · have gone : ¬ s.advance.present p.tube = true := by
      rw [State.present, (Finished.advance s).root]; exact Bool.eq_false_iff.mp absent
    refine refused_access_at (m := s.advance.replacement) presents.1 ((classify_place presents).trans ?_)
    unfold State.channelAccess
    rw [phase, ready]; exact if_neg gone
  · refine refused_access_at (m := s.advance.replacement + 1) presents.1
      ((classify_lookup presents ready here).trans ?_)
    have refused : s.met.stepRefusal acc p (s.met.cacheEntry p way).words = some r := by
      rw [stepRefusal_met, cacheEntry_met]; exact refuses
    unfold State.lookup
    rw [cacheHit_advance, hit]
    show s.met.afterLookup acc p way = _
    unfold State.afterLookup
    simp only [refused]
    rfl

/-- Settles O20. -/
theorem missStartsAWalk : Obligations.MissStartsAWalk := by
  intro s i c dir p v row presents ready here miss
  have walks : s.advance.classify (placeAccess s c dir p v) s.straps
      = { s.advance with
            port := ⟨.walk (placeAccess s c dir p v) [] (Ix4.ofMod s.replacement.toNat), s.port.answer⟩
            replacement := s.replacement + 1 } := by
    rw [classify_lookup presents ready here, State.lookup, cacheHit_advance, miss, (Finished.advance s).replacement,
      (Finished.advance s).port]
  obtain ⟨port, count, -, kept⟩ := quiet_access (root := s.advance.root) (cache := s.advance.cache) presents.1 walks
  rw [(Finished.advance s).root, (Finished.advance s).cache] at kept
  exact ⟨_, channelCommand_exec row s, port, count, kept⟩

/-! ## Reads -/

/-- R22, R23: a read that no step refuses is dispatched by kind. -/
theorem classify_read {c : AccessClass} (reaches : Dispatches s (placeAccess s c .read p 0) p d) (straps : BitVec 4) :
    s.advance.classify (placeAccess s c .read p 0) straps = s.met.dispatchRead (placeAccess s c .read p 0) p d :=
  classify_of_dispatches reaches.advance straps

/-- R10, R170: a read passed to memory after a lookup. -/
theorem passed_read {c : AccessClass} {a : Addr} (reaches : Dispatches s (placeAccess s c .read p 0) p d)
    (passes : s.met.dispatchRead (placeAccess s c .read p 0) p d = s.met.passRead (placeAccess s c .read p 0) a) :
    (s.takeAccess (placeAccess s c .read p 0) s.straps).port = s.readPort (placeAccess s c .read p 0) a
      ∧ (s.takeAccess (placeAccess s c .read p 0) s.straps).replacement = s.replacement + 1
      ∧ Elsewhere none s (s.takeAccess (placeAccess s c .read p 0) s.straps) := by
  have read := (classify_read reaches s.straps).trans (passes.trans (passRead_eq rfl (Finished.advance s).port))
  obtain ⟨port, count, -, kept⟩ := quiet_access (root := s.advance.root) (cache := s.advance.cache) reaches.idle read
  rw [(Finished.advance s).root, (Finished.advance s).cache] at kept
  rw [State.met, (Finished.advance s).replacement] at count
  exact ⟨port, count, kept⟩

/-- R10, R172: a write through a PLAIN channel asks for the bus. -/
theorem passed_write {c : AccessClass} {v : Word} (reaches : Dispatches s (placeAccess s c .write p v) p d)
    (plain : d.kind = some .plain) :
    (s.takeAccess (placeAccess s c .write p v) s.straps).port
        = ⟨.pass (placeAccess s c .write p v) (d.addr + p.word.setWidth 20) false, s.port.answer⟩
      ∧ (s.takeAccess (placeAccess s c .write p v) s.straps).replacement = s.replacement + 1
      ∧ Elsewhere none s (s.takeAccess (placeAccess s c .write p v) s.straps) := by
  have decided : s.advance.classify (placeAccess s c .write p v) s.straps
      = s.met.dispatchWrite (placeAccess s c .write p v) p d := classify_of_dispatches reaches.advance s.straps
  have passes : s.met.dispatchWrite (placeAccess s c .write p v) p d
      = s.met.passWrite (placeAccess s c .write p v) (d.addr + p.word.setWidth 20) false := by
    unfold State.dispatchWrite; rw [plain]; rfl
  obtain ⟨port, count, -, kept⟩ := quiet_access (root := s.advance.root) (cache := s.advance.cache) reaches.idle
    (decided.trans (passes.trans (passWrite_eq rfl (Finished.advance s).port (Finished.advance s).loader)))
  rw [(Finished.advance s).root, (Finished.advance s).cache] at kept
  rw [State.met, (Finished.advance s).replacement] at count
  refine ⟨port.trans ?_, count, kept⟩
  rw [State.passPhase, if_neg fun h => h.1 reaches.ready]

/-- Settles O23. -/
theorem plainChannelTranslates : Obligations.PlainChannelTranslates := by
  refine ⟨fun s c p d plain reaches => ⟨_, rfl, passed_read reaches ?_⟩,
    fun s c p v d plain reaches => ⟨_, rfl, passed_write reaches plain⟩⟩
  unfold State.dispatchRead
  rw [plain]; rfl

theorem word0_eq (x : TubeState) : x.word0 = tubeWordOf x 0 := by
  unfold TubeState.word0 tubeWordOf
  rw [Nat.mul_comm _ 16]
  rfl

theorem word1_eq (x : TubeState) : x.word1 = tubeWordOf x 1 := by
  unfold TubeState.word1 tubeWordOf
  rw [Nat.mul_comm _ 16, Nat.mul_comm _ 256, Nat.mul_comm _ 1024, Nat.mul_comm _ 4096]
  rfl

theorem word2_eq (x : TubeState) : x.word2 = tubeWordOf x 2 := by
  unfold TubeState.word2 tubeWordOf
  rw [Nat.mul_comm _ 256]
  cases x.queue with
  | nil => rfl
  | cons e rest =>
    have code : e.state.code = match some e.state with | none => 0 | some .waiting => 1 | some .claiming => 2 := by
      cases e.state <;> rfl
    exact congrArg (fun n => wordOf ((e :: rest).length + 256 * n)) code

theorem readLow_fst (x : TubeState) : x.readLow.1 = tubeWordOf x 4 := by
  unfold TubeState.readLow tubeWordOf
  dsimp only
  split <;> rfl

theorem readHigh_fst (x : TubeState) : x.readHigh.1 = tubeWordOf x 5 := by
  unfold TubeState.readHigh tubeWordOf
  dsimp only
  split <;> rfl

/-- R192: the words of a TUBE channel are those `tubeWordOf` spells. -/
theorem readWord_fst (x : TubeState) : ∀ n, (x.readWord n).1 = tubeWordOf x n
  | 0 => word0_eq x
  | 1 => word1_eq x
  | 2 => word2_eq x
  | 3 => rfl
  | 4 => readLow_fst x
  | 5 => readHigh_fst x
  | 6 => rfl
  | _ + 7 => rfl

/-- R64: the reads of words 0, 1, 2, 6 and 7 leave the tube. -/
theorem readWord_snd {x : TubeState} {n : Nat} (h3 : n ≠ 3) (h4 : n ≠ 4) (h5 : n ≠ 5) : (x.readWord n).2 = x := by
  unfold TubeState.readWord
  split <;> first | rfl | contradiction

theorem tubeRead_eq (s : State) (p : Place) : s.tubeRead p =
    { s with tubes := s.tubes.set p.tube ((s.tube p.tube).readWord p.word.toNat).2
             port := ⟨.idle, .data (tubeWordOf (s.tube p.tube) p.word.toNat)⟩ } := by
  rw [← readWord_fst]; rfl

theorem tubes_set_self (s : State) (t : Tube) : s.tubes.set t (s.tube t) = s.tubes :=
  Four.ext_get fun i => by
    rw [Four.get_set]
    split
    · next same => rw [same]; rfl
    · rfl

/-- R64: a read of a TUBE word that leaves the tube. -/
theorem tube_read {c : AccessClass} (reaches : Dispatches s (placeAccess s c .read p 0) p d) (tube : d.kind = some .tube)
    (h3 : p.word.toNat ≠ 3) (h4 : p.word.toNat ≠ 4) (h5 : p.word.toNat ≠ 5) :
    (s.takeAccess (placeAccess s c .read p 0) s.straps).port
        = ⟨.idle, .data (tubeWordOf (s.tube p.tube) p.word.toNat)⟩
      ∧ (s.takeAccess (placeAccess s c .read p 0) s.straps).replacement = s.replacement + 1
      ∧ Elsewhere none s (s.takeAccess (placeAccess s c .read p 0) s.straps) := by
  have answers : s.met.dispatchRead (placeAccess s c .read p 0) p d
      = { s.met with port := ⟨.idle, .data (tubeWordOf (s.tube p.tube) p.word.toNat)⟩ } := by
    have same : s.met.tube p.tube = s.tube p.tube := Finished.tube_eq p.tube
    unfold State.dispatchRead
    rw [tube]
    dsimp only
    rw [tubeRead_eq, readWord_snd h3 h4 h5, tubes_set_self, same]
  have read := (classify_read reaches s.straps).trans answers
  obtain ⟨port, count, -, kept⟩ := quiet_access (root := s.advance.root) (cache := s.advance.cache) reaches.idle read
  rw [(Finished.advance s).root, (Finished.advance s).cache] at kept
  rw [State.met, (Finished.advance s).replacement] at count
  exact ⟨port, count, kept⟩

/-- A read changes the port and the tube it reads alone. -/
theorem passRead_replacement (u : State) (acc : Access) (a : Addr) : (u.passRead acc a).replacement = u.replacement := by
  unfold State.passRead; split <;> rfl

theorem dispatchRead_replacement (u : State) (acc : Access) (p : Place) (d : DescWords) :
    (u.dispatchRead acc p d).replacement = u.replacement := by
  unfold State.dispatchRead
  split
  · exact passRead_replacement _ _ _
  · rfl
  · exact passRead_replacement _ _ _

/-- Settles O24: a ZONE, LINE or BOAT channel passes its read to its address, a TUBE channel answers its word. -/
theorem channelReadByKind : Obligations.ChannelReadByKind := by
  intro s c p d reaches x
  refine ⟨_, rfl, ?_⟩
  have actuator : d.kind = some .zone ∨ d.kind = some .line ∨ d.kind = some .boat →
      s.met.dispatchRead (placeAccess s c .read p 0) p d = s.met.passRead (placeAccess s c .read p 0) d.addr := by
    unfold State.dispatchRead
    rintro (kind | kind | kind) <;> rw [kind]
  have word : ∀ w : Six, w ≠ 3 → w ≠ 4 → w ≠ 5 → d.kind = some .tube → p.word = w → _ :=
    fun w h3 h4 h5 tube at_ => tube_read reaches tube
      (fun e => h3 (at_ ▸ BitVec.eq_of_toNat_eq e)) (fun e => h4 (at_ ▸ BitVec.eq_of_toNat_eq e))
      (fun e => h5 (at_ ▸ BitVec.eq_of_toNat_eq e))
  refine ⟨?_, fun kind => ?_, fun tube at_ => ?_, fun tube at_ => ?_, fun tube at_ => ?_, fun tube at_ => ?_,
    fun tube at_ => ?_, fun tube which => ?_⟩
  · rw [takeAccess_of_dispatches reaches]
    refine (Finished.finish _ _).replacement.trans ((dispatchRead_replacement _ _ _ _).trans ?_)
    rw [State.met, (Finished.advance s).replacement]
  · obtain ⟨port, -, kept⟩ := passed_read reaches (actuator kind); exact ⟨port, kept⟩
  · exact (word 0 (by decide) (by decide) (by decide) tube at_).1.trans (by rw [at_]; rfl)
  · exact (word 1 (by decide) (by decide) (by decide) tube at_).1.trans (by rw [at_]; rfl)
  · exact (word 2 (by decide) (by decide) (by decide) tube at_).1.trans (by rw [at_]; rfl)
  · exact (word 6 (by decide) (by decide) (by decide) tube at_).1.trans (by rw [at_]; rfl)
  · exact (word 7 (by decide) (by decide) (by decide) tube at_).1.trans (by rw [at_]; rfl)
  · rcases which with at_ | at_ | at_ | at_ | at_
    · exact (word 0 (by decide) (by decide) (by decide) tube at_).2.2
    · exact (word 1 (by decide) (by decide) (by decide) tube at_).2.2
    · exact (word 2 (by decide) (by decide) (by decide) tube at_).2.2
    · exact (word 6 (by decide) (by decide) (by decide) tube at_).2.2
    · exact (word 7 (by decide) (by decide) (by decide) tube at_).2.2

end Sys2Proof.Machine

/-! Walks and status write-backs (R12, R14, R16, R17, R19): how a descriptor is decided, and what the held access does
next. -/

namespace Sys2Proof.Machine

variable {s u : State} {acc : Access} {straps : BitVec 4} {p : Place} {d : DescWords}

/-! ## The tests of a descriptor -/

/-- R12: the form of a descriptor, by its kind code. -/
theorem wellFormed_iff (d : DescWords) :
    let kind := d.w0.toNat % 8
    let index := d.w0.toNat / 256 % 16
    let manual := d.w0.getLsbD 5 = true
    let reactive := d.w0.getLsbD 6 = true
    let purge := d.w0.getLsbD 7 = true
    d.wellFormed = true ↔
      kind ≤ 5
      ∧ (kind = 1 → 1 ≤ d.w3.toNat ∧ d.w3.toNat ≤ 64)
      ∧ (kind = 2 → index ≤ 4 ∧ 1 ≤ d.w5.toNat ∧ d.w5.toNat ≤ 500 ∧ d.w4.toNat ≤ d.w3.toNat)
      ∧ (kind = 3 → index ≤ 7 ∧ 1 ≤ d.w4.toNat % 256 ∧ d.w4.toNat % 256 ≤ 8 ∧ 1 ≤ d.w4.toNat / 256
          ∧ d.w4.toNat / 256 ≤ 15)
      ∧ (reactive ∨ purge → kind = 3) ∧ (manual → kind ≠ 1 ∧ kind ≠ 5 ∧ kind ≠ 0)
      ∧ ¬ (manual ∧ reactive) ∧ ¬ (purge ∧ reactive) := by
  dsimp only
  unfold DescWords.wellFormed DescWords.manual DescWords.reactive DescWords.purge
  rw [d.kind_eq, d.index_eq, d.weight_eq, d.devCount_eq]
  generalize d.w0.getLsbD 5 = manual
  generalize d.w0.getLsbD 6 = reactive
  generalize d.w0.getLsbD 7 = purge
  have bounded : d.w0.toNat % 8 < 8 := Nat.mod_lt _ (by decide)
  generalize d.w0.toNat % 8 = kind at bounded
  rcases lt_eight_cases bounded with rfl | rfl | rfl | rfl | rfl | rfl | rfl | rfl
  all_goals cases manual <;> cases reactive <;> cases purge <;> simp [and_assoc]

theorem isBoundKind_iff (d : DescWords) : d.isBoundKind = true ↔ 2 ≤ d.w0.toNat % 8 ∧ d.w0.toNat % 8 ≤ 4 := by
  unfold DescWords.isBoundKind
  rw [d.kind_eq]
  have bounded : d.w0.toNat % 8 < 8 := Nat.mod_lt _ (by decide)
  generalize d.w0.toNat % 8 = kind at bounded
  rcases lt_eight_cases bounded with rfl | rfl | rfl | rfl | rfl | rfl | rfl | rfl <;> decide

/-- R14: what the binding comparison finds different, by the channel's mark. -/
theorem mismatch_iff (b : TubeBinding) (c : Six) (d : DescWords) :
    let kind := d.w0.toNat % 8
    let index := d.w0.toNat / 256 % 16
    let addr : Addr := BitVec.ofNat 20 (d.w2.toNat % 16 * 0x10000 + d.w1.toNat)
    let mark := b.marks.getD c.toNat .none
    (mark = .none → (b.mismatch c d = true ↔ 2 ≤ kind ∧ kind ≤ 4))
    ∧ (∀ z, mark = .zone z →
        (b.mismatch c d = true ↔ ¬ (kind = 2 ∧ index = z.toNat ∧ addr = (b.zones.get z).addr)))
    ∧ (∀ l, mark = .line l →
        (b.mismatch c d = true ↔ ¬ (kind = 3 ∧ index = l.toNat ∧ addr = (b.lines.get l).addr
          ∧ d.w0.getLsbD 6 = (b.lines.get l).reactive ∧ d.w0.getLsbD 7 = (b.lines.get l).purge)))
    ∧ (mark = .boat → (b.mismatch c d = true ↔ ¬ (kind = 4 ∧ addr = b.boat.addr))) := by
  dsimp only
  rw [← d.addr_eq, ← d.index_eq]
  have mark_eq : b.markOf c = b.marks.getD c.toNat .none := rfl
  refine ⟨fun mark => ?_, fun z mark => ?_, fun l mark => ?_, fun mark => ?_⟩
  · rw [← isBoundKind_iff, TubeBinding.mismatch, mark_eq, mark]
  · rw [TubeBinding.mismatch, mark_eq, mark, ← d.kind_iff.2.2.1]
    simp only [Bool.not_eq_true', ← Bool.not_eq_true, Bool.and_eq_true, decide_eq_true_eq, beq_iff_eq, d.mark_zone, and_assoc]
  · rw [TubeBinding.mismatch, mark_eq, mark, ← d.kind_iff.2.2.2.1]
    simp only [Bool.not_eq_true', ← Bool.not_eq_true, Bool.and_eq_true, decide_eq_true_eq, beq_iff_eq, d.mark_line,
      and_assoc]
    rfl
  · rw [TubeBinding.mismatch, mark_eq, mark, ← d.kind_iff.2.2.2.2.1]
    simp only [Bool.not_eq_true', ← Bool.not_eq_true, Bool.and_eq_true, decide_eq_true_eq, beq_iff_eq, d.mark_boat]

/-! ## Where a held access goes on -/

/-- Steps 4 to 6 read the root copy, the load phase and the bindings. -/
theorem stepRefusal_congr (root : u.root = s.root) (loader : u.loader = s.loader) (binding : u.binding = s.binding) :
    u.stepRefusal acc p d = s.stepRefusal acc p d := by
  cases u
  cases s
  cases root
  cases loader
  cases binding
  rfl

/-- A dispatched write of a channel that is not PLAIN is answered. -/
theorem tubeCommand_idle (s : State) (acc : Access) (p : Place) : (s.tubeCommand acc p).port.phase = .idle := by
  unfold State.tubeCommand
  split
  · unfold State.commandPurge; split <;> rfl
  · unfold State.commandHold; split <;> rfl
  · unfold State.commandResume
    split
    · rfl
    · rfl
    · rfl
    · split <;> rfl
  · rfl
  · unfold State.commandVent; split <;> rfl
  · unfold State.commandFlush; split <;> rfl
  · rfl

theorem accept_idle (s : State) (acc : Access) (p : Place) (d : DescWords) : (s.accept acc p d).port.phase = .idle := by
  unfold State.accept
  dsimp only
  split
  · rfl
  split
  · rfl
  split
  · rfl
  split
  · rfl
  unfold State.enqueue
  dsimp only
  split
  · rfl
  split <;> rfl

theorem manual_idle (s : State) (acc : Access) (p : Place) (d : DescWords) : (s.manual acc p d).port.phase = .idle := by
  unfold State.manual
  split
  · rfl
  split
  · rfl
  split
  · rfl
  · unfold State.manualLine
    dsimp only
    split
    · rfl
    split <;> rfl
  · rfl
  · rfl

theorem passWrite_offWalk (s : State) (acc : Access) (a : Addr) (consumer : Bool) :
    (s.passWrite acc a consumer).onWalk = false := by
  unfold State.passWrite; split <;> rfl

theorem passRead_offWalk (s : State) (acc : Access) (a : Addr) : (s.passRead acc a).onWalk = false := by
  unfold State.passRead; split <;> rfl

theorem onWalk_of_idle (idle : s.port.phase = .idle) : s.onWalk = false := by
  unfold State.onWalk; rw [idle]

theorem dispatchWrite_offWalk (s : State) (acc : Access) (p : Place) (d : DescWords) :
    (s.dispatchWrite acc p d).onWalk = false := by
  unfold State.dispatchWrite
  split
  · exact passWrite_offWalk _ _ _ _
  · exact onWalk_of_idle (tubeCommand_idle _ _ _)
  · split
    · exact onWalk_of_idle (manual_idle _ _ _ _)
    · exact onWalk_of_idle (accept_idle _ _ _ _)

theorem dispatchRead_offWalk (s : State) (acc : Access) (p : Place) (d : DescWords) :
    (s.dispatchRead acc p d).onWalk = false := by
  unfold State.dispatchRead
  split
  · exact passRead_offWalk _ _ _
  · rfl
  · exact passRead_offWalk _ _ _

theorem afterLookup_offWalk (s : State) (acc : Access) (p : Place) (way : Ix4) :
    (s.afterLookup acc p way).onWalk = false := by
  unfold State.afterLookup
  dsimp only
  split
  · rfl
  split
  · exact dispatchRead_offWalk _ _ _ _
  · split
    · exact dispatchWrite_offWalk _ _ _ _
    · rfl

/-- R17: the decided walk is over. -/
theorem decideWalk_offWalk (s : State) (acc : Access) (ws : List Word) (victim : Ix4) :
    (s.decideWalk acc ws victim).onWalk = false := by
  unfold State.decideWalk
  dsimp only
  split
  · rfl
  split
  · rfl
  split
  · rfl
  unfold State.fillWalk
  dsimp only
  split
  · exact afterLookup_offWalk _ _ _ _
  · rfl

theorem Local.afterLookup (s : State) (acc : Access) (p : Place) (way : Ix4) :
    Local p.tube s (s.afterLookup acc p way) := by
  unfold State.afterLookup
  dsimp only
  split
  · exact (Local.place _ _ _).trans (.answer _ _ _)
  split
  · exact .dispatchRead _ _ _ _
  · split
    · exact .dispatchWrite _ _ _ _
    · exact .setPort _ _ _

/-! ## The eighth word -/

/-- The state a WALK read that completes leaves: the bus free, and the Notice Writer turned to a due word. -/
def State.freed (s : State) : State := { s.takeDue with bus := { s.bus with inFlight := none } }

theorem freed_eq (s : State) : s.freed =
    { s with bus := { s.bus with inFlight := none }
             notices := { s.notices with phase := s.takeDue.notices.phase } } := by
  rw [State.freed, takeDue_eq]; rfl

theorem completeBus_freed {r : Requester} {a : BusAccess} (flight : InFlight s r a) (read : a.write = none) :
    s.takeDue.completeBus = s.freed := by
  rw [completeBus_read (by rw [takeDue_bus]; exact flight.1) read, takeDue_bus]; rfl

/-- R17: with the eighth word the walk is decided, and the command is that event. -/
theorem walk_exec {a : BusAccess} {words : List Word} {victim : Ix4} {n : Nat} (some_ : 1 ≤ n)
    (flight : InFlight s .walk a) (read : a.write = none) (waits : s.port.phase = .walk acc words victim)
    (seven : words.length = 7) :
    exec (.descWalk n) s
      = .next (s.takeDue.finish (s.freed.decideWalk acc (s.readWord a.addr :: words).reverse victim)) := by
  have port : s.takeDue.port = s.port := (Finished.takeDue s).port
  have word : s.takeDue.readWord a.addr = s.readWord a.addr := by rw [State.readWord, (Finished.takeDue s).mem]; rfl
  have decided : s.freed.walkWord (s.readWord a.addr)
      = s.freed.decideWalk acc (s.readWord a.addr :: words).reverse victim := by
    unfold State.walkWord
    rw [show s.freed.port = s.port from port, waits]
    dsimp only
    rw [seven]; rfl
  have ready : s.takeDue.onWalk = true := by unfold State.onWalk; rw [port, waits]
  show Host.Outcome.next (takeWords _ _ _ n (s.openBus .walk)) = _
  have event : State.walkWord s.takeDue.completeBus (s.takeDue.readWord a.addr)
      = s.freed.decideWalk acc (s.readWord a.addr :: words).reverse victim := by
    rw [completeBus_freed flight read, word, decided]
  rw [openBus_of_inFlight flight, takeWords_last some_ (inFlightOf_of_inFlight flight) ready, event]
  rw [event, State.onWalk, (Finished.finish _ _).port]
  exact decideWalk_offWalk _ _ _ _

theorem Elsewhere.weaken {k : Option Tube} (h : Elsewhere none s u) : Elsewhere k s u :=
  { h with others := fun j _ => h.others j nofun }

theorem Elsewhere.freed (s : State) : Elsewhere none s s.freed := by
  rw [freed_eq]; exact .portBus s s.port _ _

theorem SameActs.freed (s : State) : SameActs s.takeDue s.freed := ⟨rfl, rfl, rfl, rfl⟩

/-- R24: two notices and the error acknowledge, after an event that touches no tube. -/
theorem twoNotices_leave {before f : State} (acts : SameActs before f) (tubes : ∀ k, f.tube k = before.tube k)
    (kept : Elsewhere none s f) (buffer : f.notices.buffer = s.notices.buffer) (n m : Notice) :
    let t := before.finish (((f.place n).place m).answer .errorAcknowledge)
    t.port = ⟨.idle, .errorAcknowledge⟩ ∧ Elsewhere none s t ∧ Reports s t n
      ∧ (s.notices.buffer.length < 7 → { m with clock := t.clock } ∈ t.notices.buffer) := by
  intro t
  have event : Local .i0 f (((f.place n).place m).answer .errorAcknowledge) :=
    (Local.place _ _ _).trans ((Local.place _ _ _).trans (.answer _ _ _))
  have after : Still _ t := Still.finish (before := before) fun k =>
    .inr (.inr (headView_congr (acts.trans event.acts) (by rw [← tubes k]; exact .refl _)))
  refine ⟨after.port, kept.trans ((event.elsewhere_none (.refl _)).trans after.elsewhere), ?_, fun room => ?_⟩
  · obtain ⟨l, more⟩ := (Local.place .i0 (f.place n) m).buffer
    exact Reports.of_place buffer after.clock ⟨l, after.kept.trans more⟩
  · have first := State.place_of_room (s := f) n (by rw [buffer]; omega)
    have second := State.place_of_room (s := f.place n) m (by
      rw [first]
      simp only [List.length_append, buffer, List.length_singleton]
      omega)
    have placed : t.notices.buffer = ((f.place n).place m).notices.buffer := after.kept
    rw [placed, second, show t.clock = f.clock from after.clock]
    exact List.mem_append_right _ (List.mem_singleton.mpr rfl)

/-- R17, R24: what a walk that fails a test leaves. -/
theorem refuseWalk_leaves (s : State) (acc : Access) (p : Place) (r : RefuseReason) (code : FaultCode) (w0 : Word) :
    let t := s.takeDue.finish (s.freed.refuseWalk acc p r code w0)
    t.port = ⟨.idle, .errorAcknowledge⟩ ∧ Elsewhere none s t
      ∧ Reports s t (notice .descFault (some p.tube) (some p.channel) code.code 0 w0 0)
      ∧ (s.notices.buffer.length < 7 →
          { refusedNotice (some p.tube) (some p.channel) acc r with clock := t.clock } ∈ t.notices.buffer) :=
  twoNotices_leave (SameActs.freed s) (fun _ => rfl) (Elsewhere.freed s) (by rw [freed_eq]) _ _

/-! ## A filled entry -/

/-- The state a walk that passes leaves: the cache entry filled. -/
def State.filled (s : State) (p : Place) (way : Ix4) (e : CacheEntry) : State := s.freed.setCacheEntry p way e

theorem Elsewhere.filled (s : State) (p : Place) (way : Ix4) (e : CacheEntry) :
    Elsewhere none { s with cache := (s.filled p way e).cache } (s.filled p way e) := by
  have kept := Elsewhere.freed s
  exact { kept with cache := rfl }

theorem SameActs.filled (s : State) (p : Place) (way : Ix4) (e : CacheEntry) :
    SameActs s.takeDue (s.filled p way e) := ⟨rfl, rfl, rfl, rfl⟩

theorem filled_tube (s : State) (p : Place) (way : Ix4) (e : CacheEntry) (k : Tube) :
    (s.filled p way e).tube k = s.tube k := by
  rw [State.filled, freed_eq]; rfl

theorem filled_takeDue_tube (s : State) (k : Tube) : s.takeDue.tube k = s.tube k := by rw [takeDue_eq]; rfl

theorem filled_port (s : State) (p : Place) (way : Ix4) (e : CacheEntry) : (s.filled p way e).port = s.port := by
  rw [State.filled, freed_eq]; rfl

theorem filled_buffer (s : State) (p : Place) (way : Ix4) (e : CacheEntry) :
    (s.filled p way e).notices.buffer = s.notices.buffer := by
  rw [State.filled, freed_eq]; rfl

theorem filled_loader (s : State) (p : Place) (way : Ix4) (e : CacheEntry) : (s.filled p way e).loader = s.loader := by
  rw [State.filled, freed_eq]; rfl

theorem filled_stepRefusal {way : Ix4} {e : CacheEntry} : (s.filled p way e).stepRefusal acc p d = s.stepRefusal acc p d := by
  apply stepRefusal_congr
  all_goals rw [State.filled, freed_eq]; rfl

theorem filled_delivery {a : BusAccess} {way : Ix4} {e : CacheEntry} (busy : s.bus.inFlight = some a) :
    (s.filled p way e).delivery = s.advance.delivery := by
  rw [advance_of_busy busy]; rfl

theorem filled_entry (s : State) (p : Place) (way : Ix4) (e : CacheEntry) :
    (s.filled p way e).cacheEntry p way = e := by
  rw [State.filled, setCacheEntry_get, if_pos ⟨rfl, rfl⟩]

/-- What follows an event of the tube after a fill. -/
theorem filled_kept {way : Ix4} {e : CacheEntry} {w t : State} (event : Local p.tube (s.filled p way e) w)
    (after : Finished w t) :
    t.cacheEntry p way = e
      ∧ (∀ q v, (cacheSet q.channel, v) ≠ (cacheSet p.channel, way) → t.cacheEntry q v = s.cacheEntry q v)
      ∧ Elsewhere (some p.tube) { s with cache := t.cache } t := by
  have cache : t.cache = (s.filled p way e).cache := after.cache.trans event.cache
  have same : ∀ q v, t.cacheEntry q v = (s.filled p way e).cacheEntry q v := fun q v => by
    rw [State.cacheEntry, State.cacheEntry, cache]
  refine ⟨(same _ _).trans (filled_entry _ _ _ _), fun q v other => ?_, ?_⟩
  · rw [same, State.filled, setCacheEntry_get, if_neg fun h => other (by rw [h.1, h.2]), freed_eq]
    rfl
  · rw [cache]
    exact ((Elsewhere.filled s p way e).weaken.trans event.elsewhere).trans after.elsewhere.weaken

/-- R64, R66: what a read of a TUBE word leaves of the tube. -/
theorem readWord_leaves (x : TubeState) : ∀ n, (x.readWord n).2 = match n with
    | 3 => { x with summary := ⟨false, false, false, false, false, false, false⟩ }
    | 4 => if x.latchHeld = true then x else { x with latchHeld := true, latchValue := x.gas.accumulator }
    | 5 => { x with latchHeld := false }
    | _ => x
  | 0 => rfl
  | 1 => rfl
  | 2 => rfl
  | 3 => rfl
  | 4 => by
    show x.readLow.2 = if x.latchHeld = true then x else _
    unfold TubeState.readLow; split <;> rfl
  | 5 => by
    show x.readHigh.2 = { x with latchHeld := false }
    unfold TubeState.readHigh
    split
    · rfl
    · next clear => rw [← Bool.eq_false_iff.mpr clear]
  | 6 => rfl
  | _ + 7 => rfl

/-- R40: such a read changes no record an examination reads. -/
theorem readWord_view (x : TubeState) (n : Nat) : SameView x (x.readWord n).2 := by
  rw [readWord_leaves]
  split
  · exact ⟨rfl, rfl, rfl, rfl, rfl, rfl, rfl, rfl, rfl, rfl, fun _ => rfl, rfl⟩
  · split <;> exact ⟨rfl, rfl, rfl, rfl, rfl, rfl, rfl, rfl, rfl, rfl, fun _ => rfl, rfl⟩
  · exact ⟨rfl, rfl, rfl, rfl, rfl, rfl, rfl, rfl, rfl, rfl, fun _ => rfl, rfl⟩
  · exact .refl x

theorem noneDue_tubeRead {f : State} (acts : SameActs u f) (tubes : ∀ k, f.tube k = u.tube k) (p : Place) :
    NoneDue u (f.tubeRead p) := fun k => by
  refine .inr (.inr (headView_congr (acts.trans (Local.tubeRead f p).acts) ?_))
  rw [← tubes k]
  by_cases same : k = p.tube
  · subst same
    rw [show (f.tubeRead p).tube p.tube = ((f.tube p.tube).readWord p.word.toNat).2 from tube_setTube_self _ _ _]
    exact readWord_view _ _
  · rw [show (f.tubeRead p).tube k = f.tube k from tube_setTube_ne _ _ same]
    exact .refl _

/-- What a walk's held read finds, where steps 4 to 6 refuse nothing. -/
theorem filled_read {a : BusAccess} {way : Ix4} {e : CacheEntry} (busy : s.bus.inFlight = some a) :
    let t := s.takeDue.finish ((s.filled p way e).dispatchRead acc p d)
    (d.kind = some .plain → t.port = s.readPort acc (d.addr + p.word.setWidth 20))
      ∧ (d.kind = some .zone ∨ d.kind = some .line ∨ d.kind = some .boat → t.port = s.readPort acc d.addr)
      ∧ (d.kind = some .tube →
          t.port = ⟨.idle, .data (tubeWordOf (s.tube p.tube) p.word.toNat)⟩
          ∧ t.tube p.tube = ((s.tube p.tube).readWord p.word.toNat).2)
      ∧ (d.kind ≠ some .tube → t.tube p.tube = s.tube p.tube) := by
  intro t
  have passed : ∀ x, (s.filled p way e).dispatchRead acc p d = (s.filled p way e).passRead acc x →
      t.port = s.readPort acc x ∧ t.tube p.tube = s.tube p.tube := fun x read => by
    have ported := read.trans (passRead_eq (filled_delivery busy) (filled_port s p way e))
    have after : Still ((s.filled p way e).dispatchRead acc p d) t := Still.finish (by
      rw [ported]
      exact fun k => .inr (.inr rfl))
    refine ⟨after.port.trans (by rw [ported]), (after.tube _).trans ?_⟩
    rw [ported]
    exact filled_tube s p way e p.tube
  have tube : d.kind = some .tube → _ := fun kind => by
    have read : (s.filled p way e).dispatchRead acc p d = (s.filled p way e).tubeRead p := by
      unfold State.dispatchRead; rw [kind]
    have after : Still ((s.filled p way e).dispatchRead acc p d) t := Still.finish (by
      rw [read]
      exact noneDue_tubeRead (.filled s p way e) (fun k => by rw [filled_tube, filled_takeDue_tube]) p)
    rw [read] at after
    have port := after.port
    rw [tubeRead_eq, filled_tube] at port
    exact And.intro port ((after.tube _).trans ((tube_setTube_self _ _ _).trans (by rw [filled_tube])))
  have plain : d.kind = some .plain → (s.filled p way e).dispatchRead acc p d
      = (s.filled p way e).passRead acc (d.addr + p.word.setWidth 20) := fun kind => by
    unfold State.dispatchRead; rw [kind]; rfl
  have other : d.kind ≠ some .plain → d.kind ≠ some .tube → (s.filled p way e).dispatchRead acc p d
      = (s.filled p way e).passRead acc d.addr := fun notPlain notTube => by
    unfold State.dispatchRead
    split
    · next kind => exact absurd kind notPlain
    · next kind => exact absurd kind notTube
    · rfl
  refine ⟨fun kind => (passed _ (plain kind)).1, fun kind => ?_, tube, fun notTube => ?_⟩
  · have notPlain : d.kind ≠ some .plain := by rcases kind with kind | kind | kind <;> rw [kind] <;> nofun
    have notTube : d.kind ≠ some .tube := by rcases kind with kind | kind | kind <;> rw [kind] <;> nofun
    exact (passed _ (other notPlain notTube)).1
  · by_cases kind : d.kind = some .plain
    · exact (passed _ (plain kind)).2
    · exact (passed _ (other kind notTube)).2

/-- R24: a held access that steps 4 to 6 refuse after a fill. -/
theorem filled_refused {way : Ix4} {e : CacheEntry} (r : RefuseReason) :
    Refuses s (s.takeDue.finish ((s.filled p way e).refuseAt acc p r))
      (refusedNotice (some p.tube) (some p.channel) acc r) := by
  have event : Local .i0 (s.filled p way e) ((s.filled p way e).refuseAt acc p r) :=
    (Local.place _ _ _).trans (.answer _ _ _)
  have after : Still ((s.filled p way e).refuseAt acc p r) _ := Still.finish (before := s.takeDue) fun k =>
    .inr (.inr (headView_congr ((SameActs.filled s p way e).trans event.acts) (.refl _)))
  exact ⟨after.port, Reports.of_place (filled_buffer s p way e) after.clock ⟨[], by rw [List.append_nil]; exact after.kept⟩⟩

/-- R22: after a lookup that gave the entry just filled, the held access goes on by steps 4 to 8. -/
theorem filled_afterLookup {way : Ix4} {w6 : Word} :
    (s.filled p way (filledEntry p d w6)).afterLookup acc p way =
      match s.stepRefusal acc p d with
      | some r => (s.filled p way (filledEntry p d w6)).refuseAt acc p r
      | none =>
        match acc.direction with
        | .read => (s.filled p way (filledEntry p d w6)).dispatchRead acc p d
        | .write =>
          if w6.getLsbD 1 then (s.filled p way (filledEntry p d w6)).dispatchWrite acc p d
          else { s.filled p way (filledEntry p d w6) with port := ⟨.useWriteBack acc way, s.port.answer⟩ } := by
  rw [← filled_port s p way (filledEntry p d w6), ← filled_stepRefusal (way := way) (e := filledEntry p d w6)]
  unfold State.afterLookup
  rw [filled_entry]
  rfl

/-- R17: what a walk that passes every test leaves. -/
theorem filled_leaves {a : BusAccess} {way : Ix4} {w6 : Word} (busy : s.bus.inFlight = some a) :
    let t := s.takeDue.finish
      (if w6.getLsbD 0 then (s.filled p way (filledEntry p d w6)).afterLookup acc p way
       else { s.filled p way (filledEntry p d w6) with
                port := ⟨.fillWriteBack acc way (w6.getLsbD 1), s.port.answer⟩ })
    t.cacheEntry p way = ⟨true, p.tube, cacheTag p.channel, d, w6.getLsbD 1⟩
      ∧ (∀ q v, (cacheSet q.channel, v) ≠ (cacheSet p.channel, way) → t.cacheEntry q v = s.cacheEntry q v)
      ∧ Elsewhere (some p.tube) { s with cache := t.cache } t
      ∧ (w6.getLsbD 0 = false → t.port = ⟨.fillWriteBack acc way (w6.getLsbD 1), s.port.answer⟩)
      ∧ (w6.getLsbD 0 = true → ∀ r, s.stepRefusal acc p d = some r →
          Refuses s t (refusedNotice (some p.tube) (some p.channel) acc r))
      ∧ (w6.getLsbD 0 = true → s.stepRefusal acc p d = none → acc.direction = .write → w6.getLsbD 1 = false →
          t.port = ⟨.useWriteBack acc way, s.port.answer⟩)
      ∧ (w6.getLsbD 0 = true → s.stepRefusal acc p d = none → acc.direction = .read →
          (d.kind = some .plain → t.port = s.readPort acc (d.addr + p.word.setWidth 20))
          ∧ (d.kind = some .zone ∨ d.kind = some .line ∨ d.kind = some .boat → t.port = s.readPort acc d.addr)
          ∧ (d.kind = some .tube →
              t.port = ⟨.idle, .data (tubeWordOf (s.tube p.tube) p.word.toNat)⟩
              ∧ t.tube p.tube = (
                let x := s.tube p.tube
                match p.word.toNat with
                | 3 => { x with summary := ⟨false, false, false, false, false, false, false⟩ }
                | 4 => if x.latchHeld = true then x
                  else { x with latchHeld := true, latchValue := x.gas.accumulator }
                | 5 => { x with latchHeld := false }
                | _ => x))
          ∧ (d.kind ≠ some .tube → t.tube p.tube = s.tube p.tube))
      ∧ (w6.getLsbD 0 = true → s.stepRefusal acc p d = none → acc.direction = .write → w6.getLsbD 1 = true →
          t = s.takeDue.finish (State.dispatchWrite
            { s.takeDue with bus := { s.bus with inFlight := none }, cache := t.cache } acc p d)
          ∧ (d.kind = some .plain → t.port = ⟨s.passPhase acc (d.addr + p.word.setWidth 20) false, s.port.answer⟩)) := by
  intro t
  have local_ : Local p.tube (s.filled p way (filledEntry p d w6))
      (if w6.getLsbD 0 then (s.filled p way (filledEntry p d w6)).afterLookup acc p way
       else { s.filled p way (filledEntry p d w6) with
                port := ⟨.fillWriteBack acc way (w6.getLsbD 1), s.port.answer⟩ }) := by
    split
    · exact .afterLookup _ _ _ _
    · exact .setPort _ _ _
  have after : Finished _ t := Finished.finish s.takeDue _
  obtain ⟨entry, others, kept⟩ := filled_kept local_ after
  have cache := after.cache.trans local_.cache
  refine ⟨entry, others, kept, fun clear => ?_, fun used r refuses => ?_, fun used taken write unknown => ?_,
    fun used taken read => ?_, fun used taken write known => ?_⟩
  · exact after.port.trans (by rw [clear]; rfl)
  · simp only [t, used, if_true, filled_afterLookup, refuses]
    exact filled_refused r
  · refine after.port.trans ?_
    simp only [used, if_true, filled_afterLookup, taken, write, unknown, Bool.false_eq_true, if_false]
  · simp only [t, used, if_true, filled_afterLookup, taken, read]
    obtain ⟨plain, actuator, tube, notTube⟩ := filled_read (s := s) (acc := acc) (p := p) (d := d) (way := way)
      (e := filledEntry p d w6) busy
    refine ⟨plain, actuator, fun kind => ⟨(tube kind).1, (tube kind).2.trans ?_⟩, notTube⟩
    rw [readWord_leaves]
  · have dispatched : t = s.takeDue.finish ((s.filled p way (filledEntry p d w6)).dispatchWrite acc p d) := by
      simp only [t, used, if_true, filled_afterLookup, taken, write, known]
    refine ⟨?_, fun plain => ?_⟩
    · rw [cache]
      exact dispatched
    · have passes : (s.filled p way (filledEntry p d w6)).dispatchWrite acc p d
          = (s.filled p way (filledEntry p d w6)).passWrite acc (d.addr + p.word.setWidth 20) false := by
        unfold State.dispatchWrite; rw [plain]; rfl
      rw [dispatched, (Finished.finish _ _).port, passes,
        passWrite_eq (filled_delivery busy) (filled_port s p way _) (filled_loader s p way _)]

/-- Settles O21: the tests by the lemmas above, the eighth word by `walk_exec`, and what follows it by where the held
access goes on. -/
theorem walkIsDecided : Obligations.WalkIsDecided := by
  refine ⟨wellFormed_iff, mismatch_iff, ?_, ?_⟩
  · intro s i c p v d row acc reaches
    rw [channelCommand_exec row, takeAccess_of_dispatches reaches, State.met, (Finished.advance s).replacement]
    rfl
  · intro s a acc words victim n some_ flight read waits seven ws d p w6 refused
    refine ⟨_, walk_exec some_ flight read waits seven, ?_⟩
    have place : s.freed.placeOf acc = p := by rw [freed_eq]; rfl
    have binding : s.freed.binding = s.binding := by rw [freed_eq]
    have decided : s.freed.decideWalk acc ws victim =
        if checkWord d.toList ≠ ws.getD 7 0 then s.freed.refuseWalk acc p .descCheck .check d.w0
        else if !d.wellFormed then s.freed.refuseWalk acc p .descCheck .form d.w0
        else if (s.binding.get p.tube).mismatch p.channel d then s.freed.refuseWalk acc p .descMismatch .binding d.w0
        else s.freed.fillWalk acc p d w6 victim := by
      rw [← binding, ← place]; rfl
    by_cases check : checkWord d.toList = ws.getD 7 0
    · rw [if_neg (Classical.not_not.mpr check)] at decided
      cases form : d.wellFormed with
      | false =>
        rw [form] at decided
        rw [decided]
        exact ⟨fun h => absurd check h, fun _ _ => refuseWalk_leaves s acc p _ _ _, fun _ h => Bool.noConfusion h,
          fun _ h => Bool.noConfusion h⟩
      | true =>
        rw [form] at decided
        cases differs : (s.binding.get p.tube).mismatch p.channel d with
        | true =>
          rw [differs] at decided
          rw [decided]
          exact ⟨fun h => absurd check h, fun _ h => Bool.noConfusion h, fun _ _ _ => refuseWalk_leaves s acc p _ _ _,
            fun _ _ h => Bool.noConfusion h⟩
        | false =>
          rw [differs] at decided
          rw [decided]
          refine ⟨fun h => absurd check h, fun _ h => Bool.noConfusion h, fun _ _ h => Bool.noConfusion h,
            fun _ _ _ => ?_⟩
          have fills : s.freed.fillWalk acc p d w6 victim =
              if w6.getLsbD 0 then
                (s.filled p (s.fillWay p victim) (filledEntry p d w6)).afterLookup acc p (s.fillWay p victim)
              else { s.filled p (s.fillWay p victim) (filledEntry p d w6) with
                      port := ⟨.fillWriteBack acc (s.fillWay p victim) (w6.getLsbD 1), s.port.answer⟩ } := by
            rw [← filled_port s p (s.fillWay p victim) (filledEntry p d w6)]
            have way : s.freed.fillWay p victim = s.fillWay p victim := by rw [freed_eq]; rfl
            rw [State.fillWalk, way]
            rfl
          simp only [Bool.false_eq_true, if_false, Bool.not_true, fills]
          exact filled_leaves flight.1
    · rw [if_pos check] at decided
      rw [decided]
      exact ⟨fun _ => refuseWalk_leaves s acc p _ _ _, fun h => absurd h check, fun h => absurd h check,
        fun h => absurd h check⟩

/-! ## Status write-backs (R19) -/

theorem descriptorWord_six (s : State) (acc : Access) : s.descriptorWord acc 6 = BitVec.ofNat 20
    ((s.root.tubes.get (s.placeOf acc).tube).pointer.toNat * 16 + 32 + (s.placeOf acc).channel.toNat * 8 + 6) := by
  rw [BitVec.ofNat_add _ 6]; rfl

/-- The state a WALK write that completes leaves. -/
def State.wrote (s : State) (a : Addr) (v : Word) : State := s.freed.writeWord a v

theorem wrote_eq (s : State) (a : Addr) (v : Word) : s.wrote a v =
    { s.writeWord a v with
        bus := { s.bus with inFlight := none }
        notices := { s.notices with phase := s.takeDue.notices.phase } } := by
  rw [State.wrote, freed_eq]; rfl

theorem completeBus_wrote {r : Requester} {a : BusAccess} {v : Word} (flight : InFlight s r a) (write : a.write = some v) :
    s.takeDue.completeBus = s.wrote a.addr v := by
  rw [completeBus_write (by rw [takeDue_bus]; exact flight.1) write, takeDue_bus]; rfl

/-- What follows an event of the tube after a write-back: the word is in the image. -/
theorem wrote_kept {a : Addr} {v : Word} {f w t : State} (wf : s.mem.wf = true)
    (marked : Elsewhere none { s with mem := (s.writeWord a v).mem, cache := f.cache } f)
    (event : Local p.tube f w) (after : Finished w t) :
    (∀ x, t.readWord x = if x = a then v else s.readWord x)
      ∧ Elsewhere (some p.tube) { s with mem := t.mem, cache := t.cache } t := by
  have mem : t.mem = (s.writeWord a v).mem := after.mem.trans (event.mem.trans marked.mem)
  have cache : t.cache = f.cache := after.cache.trans event.cache
  refine ⟨fun x => ?_, ?_⟩
  · rw [← State.readWord_writeWord _ _ _ wf, State.readWord, mem]; rfl
  · rw [mem, cache]
    exact (marked.weaken.trans event.elsewhere).trans after.elsewhere.weaken

/-- R19: the completed write-back of a fill. -/
theorem fillWriteBack_leaves {a : BusAccess} {way : Ix4} {v : Word} {wBit : Bool} (flight : InFlight s .walk a)
    (write : a.write = some v) (wf : s.mem.wf = true) (waits : s.port.phase = .fillWriteBack acc way wBit) :
    Completes .statusWriteBack s fun t =>
      (∀ x, t.readWord x = if x = a.addr then v else s.readWord x)
        ∧ Elsewhere (some (s.placeOf acc).tube) { s with mem := t.mem } t
        ∧ (∀ r, s.stepRefusal acc (s.placeOf acc) (s.cacheEntry (s.placeOf acc) way).words = some r →
            Refuses s t (refusedNotice (some (s.placeOf acc).tube) (some (s.placeOf acc).channel) acc r))
        ∧ (s.stepRefusal acc (s.placeOf acc) (s.cacheEntry (s.placeOf acc) way).words = none → acc.direction = .write →
            (s.cacheEntry (s.placeOf acc) way).wKnown = false → t.port = ⟨.useWriteBack acc way, s.port.answer⟩) := by
  have port : s.takeDue.port.phase = .fillWriteBack acc way wBit := by rw [(Finished.takeDue s).port]; exact waits
  have place : s.takeDue.placeOf acc = s.placeOf acc := by rw [takeDue_eq]; rfl
  have run : exec .statusWriteBack s
      = .next (s.takeDue.finish ((s.wrote a.addr v).afterLookup acc (s.placeOf acc) way)) := by
    unfold exec execStatusWriteBack
    simp only [openBus_of_inFlight flight, inFlightOf_of_inFlight flight, port, place, completeBus_wrote flight write]
  refine ⟨_, run, ?_⟩
  have marked : Elsewhere none { s with mem := (s.writeWord a.addr v).mem, cache := (s.wrote a.addr v).cache }
      (s.wrote a.addr v) := by
    rw [wrote_eq]; exact .portBus (s.writeWord a.addr v) s.port _ _
  have after : Finished _ (s.takeDue.finish ((s.wrote a.addr v).afterLookup acc (s.placeOf acc) way)) := .finish _ _
  obtain ⟨words, kept⟩ := wrote_kept wf marked (.afterLookup _ _ _ _) after
  have cache : (s.takeDue.finish ((s.wrote a.addr v).afterLookup acc (s.placeOf acc) way)).cache = s.cache :=
    after.cache.trans ((Local.afterLookup _ _ _ _).cache.trans (by rw [wrote_eq]; rfl))
  rw [cache] at kept
  have steps : (s.wrote a.addr v).stepRefusal acc (s.placeOf acc)
        ((s.wrote a.addr v).cacheEntry (s.placeOf acc) way).words
      = s.stepRefusal acc (s.placeOf acc) (s.cacheEntry (s.placeOf acc) way).words := by
    rw [wrote_eq]; exact stepRefusal_congr rfl rfl rfl
  refine ⟨words, kept, fun r refuses => ?_, fun taken writes unknown => ?_⟩
  · have refused : (s.wrote a.addr v).afterLookup acc (s.placeOf acc) way
        = (s.wrote a.addr v).refuseAt acc (s.placeOf acc) r := by
      unfold State.afterLookup
      simp only [steps, refuses]
    have event : Local .i0 (s.wrote a.addr v) ((s.wrote a.addr v).refuseAt acc (s.placeOf acc) r) :=
      (Local.place _ _ _).trans (.answer _ _ _)
    have acts : SameActs s.takeDue (s.wrote a.addr v) := ⟨rfl, rfl, rfl, rfl⟩
    have still : Still ((s.wrote a.addr v).refuseAt acc (s.placeOf acc) r) _ := Still.finish (before := s.takeDue)
      fun k => .inr (.inr (headView_congr (acts.trans event.acts) (.refl _)))
    rw [refused]
    exact ⟨still.port, Reports.of_place (u := s.wrote a.addr v) (by rw [wrote_eq]) still.clock
      ⟨[], by rw [List.append_nil]; exact still.kept⟩⟩
  · have entry : ((s.wrote a.addr v).cacheEntry (s.placeOf acc) way).wKnown = false := by
      rw [wrote_eq]; exact unknown
    rw [after.port]
    unfold State.afterLookup
    simp only [steps, taken, writes, entry, Bool.false_eq_true, if_false]
    rw [wrote_eq]
    rfl

/-- R19: the completed write-back of a first write. -/
theorem useWriteBack_leaves {a : BusAccess} {way : Ix4} {v : Word} (flight : InFlight s .walk a)
    (write : a.write = some v) (wf : s.mem.wf = true) (waits : s.port.phase = .useWriteBack acc way) :
    Completes .statusWriteBack s fun t =>
      (∀ x, t.readWord x = if x = a.addr then v else s.readWord x)
        ∧ Elsewhere (some (s.placeOf acc).tube) { s with mem := t.mem, cache := t.cache } t
        ∧ t.cacheEntry (s.placeOf acc) way = { s.cacheEntry (s.placeOf acc) way with wKnown := true }
        ∧ ((s.cacheEntry (s.placeOf acc) way).words.kind = some .plain → s.loader.phase = .ready →
            t.port = ⟨.pass acc ((s.cacheEntry (s.placeOf acc) way).words.addr + (s.placeOf acc).word.setWidth 20) false,
              s.port.answer⟩) := by
  have port : s.takeDue.port.phase = .useWriteBack acc way := by rw [(Finished.takeDue s).port]; exact waits
  have place : s.takeDue.placeOf acc = s.placeOf acc := by rw [takeDue_eq]; rfl
  have entry : s.takeDue.cacheEntry (s.placeOf acc) way = s.cacheEntry (s.placeOf acc) way := by rw [takeDue_eq]; rfl
  let f := (s.wrote a.addr v).setCacheEntry (s.placeOf acc) way { s.cacheEntry (s.placeOf acc) way with wKnown := true }
  have run : exec .statusWriteBack s
      = .next (s.takeDue.finish (f.dispatchWrite acc (s.placeOf acc) (s.cacheEntry (s.placeOf acc) way).words)) := by
    unfold exec execStatusWriteBack
    simp only [openBus_of_inFlight flight, inFlightOf_of_inFlight flight, port, place, entry,
      completeBus_wrote flight write]
    rfl
  refine ⟨_, run, ?_⟩
  have marked : Elsewhere none { s with mem := (s.writeWord a.addr v).mem, cache := f.cache } f := by
    have base : Elsewhere none { s with mem := (s.writeWord a.addr v).mem } (s.wrote a.addr v) := by
      rw [wrote_eq]; exact .portBus (s.writeWord a.addr v) s.port _ _
    exact { base with cache := rfl }
  have event : Local (s.placeOf acc).tube f _ := .dispatchWrite f acc (s.placeOf acc) (s.cacheEntry (s.placeOf acc) way).words
  have after : Finished _ (s.takeDue.finish _) := .finish s.takeDue
    (f.dispatchWrite acc (s.placeOf acc) (s.cacheEntry (s.placeOf acc) way).words)
  obtain ⟨words, kept⟩ := wrote_kept wf marked event after
  refine ⟨words, kept, ?_, fun plain ready => ?_⟩
  · rw [State.cacheEntry, after.cache.trans event.cache]
    exact (setCacheEntry_get _ _ _ _ _ _).trans (if_pos ⟨rfl, rfl⟩)
  · have passes : f.dispatchWrite acc (s.placeOf acc) (s.cacheEntry (s.placeOf acc) way).words
        = f.passWrite acc ((s.cacheEntry (s.placeOf acc) way).words.addr + (s.placeOf acc).word.setWidth 20) false := by
      unfold State.dispatchWrite; rw [plain]; rfl
    have loader : f.loader = s.loader := by
      show (s.wrote a.addr v).loader = s.loader
      rw [wrote_eq]; rfl
    have held : f.port = s.port := (Finished.takeDue s).port
    rw [after.port, passes, State.passWrite, if_neg fun h => h.1 (by rw [loader]; exact ready), held]

/-- Settles O22. -/
theorem statusWriteBackCompletes : Obligations.StatusWriteBackCompletes := by
  refine ⟨fun s acc way => ⟨fun wBit waits => ?_, fun waits => ?_⟩, fun s a acc way v flight write wf =>
    ⟨fun wBit waits => fillWriteBack_leaves flight write wf waits, fun waits => useWriteBack_leaves flight write wf waits⟩⟩
  · rw [← descriptorWord_six, State.request, State.walkAccess, waits]
    cases wBit <;> rfl
  · rw [← descriptorWord_six, State.request, State.walkAccess, waits]
    rfl

end Sys2Proof.Machine

/-! The Notice Writer's records and the Image Bus (R166 to R170, R176, R183). -/

namespace Sys2Proof.Machine

variable {s u : State}

/-! ## Events that change nothing an examination reads -/

/-- R40, R167: after an event that changes no head's view and no status word, the bus decides and nothing else follows. -/
theorem finish_quiet {before after : State} (views : ∀ k, before.headView k = after.headView k)
    (status : before.statusWord = after.statusWord) : before.finish after = after.advance := by
  have none_ : dueHeads before after = [] := List.filter_eq_nil_iff.mpr fun k _ => by
    simp only [views k, ne_eq, not_true_eq_false, decide_false, Bool.and_false, Bool.false_eq_true, not_false_eq_true]
  rw [finish_of_no_due none_]
  exact congrArg State.advance (if_pos status)

/-- A BUSY bus and a Notice Writer at work leave the state. -/
theorem advance_of_taken {a : BusAccess} (busy : s.bus.inFlight = some a) (works : s.notices.phase ≠ .idle) :
    s.advance = s :=
  (advance_of_busy busy).trans (takeDue_of_phase works)

/-! ## Records of the ring (R183) -/

theorem takeRecord_lost {n : NoticeWriter} {r : Notice} {rest : List Notice} (front : n.buffer = r :: rest)
    (full : n.freeRecords = 0) : n.takeRecord = { n with buffer := rest }.lose := by
  unfold NoticeWriter.takeRecord
  rw [front]
  exact if_pos full

theorem takeRecord_taken {n : NoticeWriter} {r : Notice} {rest : List Notice} (front : n.buffer = r :: rest)
    (room : n.freeRecords ≠ 0) : n.takeRecord =
      { n with buffer := rest, phase := .record (n.recordAddress n.producer) r.words } := by
  unfold NoticeWriter.takeRecord
  rw [front]
  exact if_neg room

theorem lose_lost (n : NoticeWriter) : n.lose.lost = if n.lost = 0xFFFF then 0xFFFF else n.lost + 1 := by
  rw [NoticeWriter.lose_eq]

/-- With the bus at another requester the record is taken in one event, and no word of it is written yet. -/
theorem recordTake_exec {a : BusAccess} {r : Notice} {rest : List Notice} (n : Nat) (busy : s.bus.inFlight = some a)
    (other : a.requester ≠ .notice) (idle : s.notices.phase = .idle) (none_ : s.notices.nextDue = none)
    (inUse : s.notices.ringInUse = true) (front : s.notices.buffer = r :: rest) :
    exec (.noticeRecordTake n) s = .next (s.finish (s.modNotices NoticeWriter.takeRecord)) := by
  have still : s.takeDue = s := by unfold State.takeDue; rw [idle, none_]
  have opens : s.openBus .notice = s := by
    rw [State.openBus, advance_of_busy busy, still]
    simp only [State.dropDiscarded, busy, other, false_and, if_false]
  have takes : s.notices.canTake = true := by
    simp only [NoticeWriter.canTake, idle, inUse, front, List.isEmpty_cons, decide_true, Bool.true_and, Bool.not_false]
  have away : (s.finish (s.modNotices NoticeWriter.takeRecord)).inFlightOf .notice = none := by
    have bus : (s.finish (s.modNotices NoticeWriter.takeRecord)).bus = s.bus := (Finished.finish _ _).busy a busy
    simp only [State.inFlightOf, bus, busy, other, false_and, if_false]
  have rests : ∀ m, takeWords .notice (fun x => x.notices.inRecord) (fun x _ => x.modNotices NoticeWriter.wordWritten) m
      (s.finish (s.modNotices NoticeWriter.takeRecord)) = s.finish (s.modNotices NoticeWriter.takeRecord) := fun m => by
    cases m with
    | zero => rfl
    | succ m => rw [takeWords, away]
  unfold exec execNoticeRecordTake
  simp only [opens, takes, if_true, rests]

/-- R183: the words of a record after the one written. -/
theorem wordWritten_eq {n : NoticeWriter} {address : Addr} {w : Word} {ws : List Word}
    (phase : n.phase = .record address (w :: ws)) :
    n.wordWritten = { n with phase := if ws = [] then .producerIndex else .record (address + 1) ws } := by
  unfold NoticeWriter.wordWritten
  rw [phase]
  cases ws with
  | nil => rfl
  | cons v rest => rfl

/-- Settles O54. -/
theorem noticeRecordIsTaken : Obligations.NoticeRecordIsTaken := by
  refine ⟨fun s address w ws phase => ?_, fun s phase => ?_, fun s n a r rest busy other idle none_ inUse front => ?_,
    fun s a w ws address flight write phase wf => ?_⟩
  · rw [State.request, State.noticeAccess, phase]
  · rw [State.request, State.noticeAccess, phase]
    rfl
  · refine ⟨_, recordTake_exec n busy other idle none_ inUse front, ?_⟩
    have free : s.notices.freeRecords = 16 * 2 ^ s.notices.sizeCode - 1
        - ringDistance (16 * 2 ^ s.notices.sizeCode) s.notices.producer s.notices.consumer := rfl
    have size : 0 < 2 ^ s.notices.sizeCode := Nat.pos_of_ne_zero (by simp)
    have below : ringDistance (16 * 2 ^ s.notices.sizeCode) s.notices.producer s.notices.consumer
        < 16 * 2 ^ s.notices.sizeCode := Nat.mod_lt _ (by omega)
    have bus : (s.finish (s.modNotices NoticeWriter.takeRecord)).bus = s.bus := (Finished.finish _ _).busy a busy
    by_cases full : s.notices.freeRecords = 0
    · have lost : s.modNotices NoticeWriter.takeRecord = s.modNotices fun n => { n with buffer := rest }.lose := by
        rw [State.modNotices, takeRecord_lost front full]; rfl
      have after : Still (s.modNotices fun n => { n with buffer := rest }.lose) _ :=
        Still.finish (before := s) fun _ => .inr (.inr rfl)
      have kept : Elsewhere none s (s.modNotices fun n => { n with buffer := rest }.lose) :=
        { Elsewhere.portBus s s.port s.bus s.notices.phase with ring := ⟨rfl, rfl⟩ }
      rw [lost] at bus ⊢
      exact ⟨kept.trans after.elsewhere, bus, fun _ => ⟨after.kept, after.lost.trans (lose_lost _)⟩, fun room => absurd full (by omega)⟩
    · have taken : s.modNotices NoticeWriter.takeRecord = { s with notices := { s.notices with
          buffer := rest, phase := .record (s.notices.recordAddress s.notices.producer) r.words } } := by
        rw [State.modNotices, takeRecord_taken front full]
      have after : s.finish { s with notices := { s.notices with
            buffer := rest, phase := .record (s.notices.recordAddress s.notices.producer) r.words } }
          = { s with notices := { s.notices with
              buffer := rest, phase := .record (s.notices.recordAddress s.notices.producer) r.words } } := by
        refine Eq.trans (finish_quiet ?_ ?_) ?_
        · exact fun _ => rfl
        · rfl
        exact advance_of_taken busy nofun
      rw [taken, after] at bus ⊢
      exact ⟨{ Elsewhere.portBus s s.port s.bus s.notices.phase with ring := ⟨rfl, rfl⟩ }, bus,
        fun e => absurd full (by omega), fun _ => rfl⟩
  · have writing : s.notices.phase ≠ .idle := by rw [phase]; nofun
    have due : s.takeDue = s := takeDue_of_phase writing
    have opens : s.openBus .notice = s := (openBus_of_inFlight flight).trans due
    have owns : s.inFlightOf .notice = some a := due ▸ inFlightOf_of_inFlight flight
    have no : s.notices.canTake = false := by
      simp only [NoticeWriter.canTake, phase, reduceCtorEq, decide_false, Bool.false_and]
    have inRecord : s.notices.inRecord = true := by unfold NoticeWriter.inRecord; rw [phase]
    have event : s.completeBus.modNotices NoticeWriter.wordWritten
        = { s.writeWord a.addr w with
              bus := { s.bus with inFlight := none }
              notices := { s.notices with phase := if ws = [] then .producerIndex else .record (address + 1) ws } } := by
      rw [completeBus_write flight.1 write, State.modNotices, wordWritten_eq (n := s.notices) phase]
      rfl
    have run : exec (.noticeRecordTake 1) s = .next (s.finish (s.completeBus.modNotices NoticeWriter.wordWritten)) := by
      unfold exec execNoticeRecordTake
      simp only [opens, no, Bool.false_eq_true, if_false]
      rw [takeWords_one owns inRecord]
      rfl
    rw [event] at run
    have after := Finished.finish s { s.writeWord a.addr w with
              bus := { s.bus with inFlight := none }
              notices := { s.notices with phase := if ws = [] then .producerIndex else .record (address + 1) ws } }
    refine ⟨_, run, fun x => ?_, after.phase (by dsimp only; split <;> nofun), ?_⟩
    · rw [← State.readWord_writeWord _ _ _ wf, State.readWord, after.mem]; rfl
    · rw [after.mem]
      exact (Elsewhere.portBus (s.writeWord a.addr w) s.port _ _).trans after.elsewhere

/-! ## The decision and its grant (R167, R173) -/

/-- Of the requesters in order `before ++ r :: after`, the one chosen: the first due, or with none due the first. -/
theorem chosen_eq {before after : List Requester} {r : Requester} (order : Requester.all = before ++ r :: after)
    (may : r ∈ s.eligible)
    (first : (4 ≤ s.bus.age r ∧ ∀ q ∈ before, q ∈ s.eligible → ¬ 4 ≤ s.bus.age q)
      ∨ ((∀ q ∈ s.eligible, ¬ 4 ≤ s.bus.age q) ∧ ∀ q ∈ before, q ∉ s.eligible)) : s.chosen = some r := by
  let ok : Requester → Bool := fun q => (s.request q).isSome && !(decide (q = .deliver) && s.deliverHeld)
  have ok_iff : ∀ q, ok q = true ↔ q ∈ s.eligible := fun q => by
    simp only [ok, State.eligible, State.waiting, List.mem_filter, Requester.mem_all, true_and, Bool.and_eq_true]
  have split_ : s.eligible = before.filter ok ++ r :: after.filter ok := by
    have whole : s.eligible = Requester.all.filter ok := by
      rw [State.eligible, State.waiting, List.filter_filter]
      exact List.filter_congr fun q _ => Bool.and_comm _ _
    rw [whole, order, List.filter_append, List.filter_cons_of_pos ((ok_iff r).mpr may)]
  rcases first with ⟨due, sooner⟩ | ⟨none_, sooner⟩
  · have found : s.eligible.find? (fun q => decide (4 ≤ s.bus.age q)) = some r := by
      rw [split_]
      refine find?_first (decide_eq_true due) fun q hq => decide_eq_false ?_
      have := List.mem_filter.mp hq
      exact sooner q this.1 ((ok_iff q).mp this.2)
    rw [State.chosen, found]
  · have found : s.eligible.find? (fun q => decide (4 ≤ s.bus.age q)) = none :=
      List.find?_eq_none.mpr fun q hq => by simp only [decide_eq_true_eq]; exact none_ q hq
    have empty : before.filter ok = [] := List.filter_eq_nil_iff.mpr fun q hq h => sooner q hq ((ok_iff q).mp h)
    rw [State.chosen, found, split_, empty]
    rfl

/-- R169, R176: what a grant takes from its owner. -/
theorem onGrant_eq (s : State) (r : Requester) : s.onGrant r = { s with
    delivery := if r = .deliver then s.delivery.tail else s.delivery
    notices := if r = .notice then { s.notices with
        dueStatus := s.notices.dueStatus && decide (s.notices.phase ≠ .rootWord .status)
        dueLost := s.notices.dueLost && decide (s.notices.phase ≠ .rootWord .lost)
        dueConsumer := s.notices.dueConsumer && decide (s.notices.phase ≠ .rootWord .consumer)
        dueProducer := s.notices.dueProducer && decide (s.notices.phase ≠ .rootWord .producer) }
      else s.notices } := by
  cases r with
  | notice =>
    unfold State.onGrant
    dsimp only
    split
    · next phase => simp [State.modNotices, phase]
    · next phase => simp [State.modNotices, phase]
    · next phase => simp [State.modNotices, phase]
    · next phase => simp [State.modNotices, phase]
    · next status lost consumer producer =>
      have off : ∀ item, ¬ s.notices.phase = .rootWord item
        | .status => status
        | .lost => lost
        | .consumer => consumer
        | .producer => producer
      simp [off]
  | _ => rfl

/-- R167: what the decision leaves, in the terms of `mem_eligible`. -/
theorem arbitrate_leaves {before after : List Requester} {r : Requester} (order : Requester.all = before ++ r :: after)
    (idle : s.bus.inFlight = none) (may : r ∈ s.eligible)
    (first : (4 ≤ s.bus.age r ∧ ∀ q ∈ before, q ∈ s.eligible → ¬ 4 ≤ s.bus.age q)
      ∨ ((∀ q ∈ s.eligible, ¬ 4 ≤ s.bus.age q) ∧ ∀ q ∈ before, q ∉ s.eligible)) :
    s.arbitrate.bus.inFlight = s.request r ∧ s.arbitrate.bus.age r = 0
      ∧ (∀ q, q ≠ r → s.arbitrate.bus.age q
          = if (s.request q).isSome = true then min 4 (s.bus.age q + 1) else s.bus.age q)
      ∧ s.arbitrate = { s.onGrant r with bus := s.arbitrate.bus } := by
  obtain ⟨a, asks⟩ := Option.isSome_iff_exists.mp (mem_eligible.mp may).1
  rw [arbitrate_grants idle (chosen_eq order may first) asks]
  refine ⟨asks.symm, agesAfter_granted _ _ _, fun q other => ?_, rfl⟩
  refine (agesAfter_other _ _ other).trans ?_
  simp only [mem_waiting]
  rfl

theorem arbitrate_phase (s : State) : s.arbitrate.notices.phase = s.notices.phase := by
  have granted : ∀ r, (s.onGrant r).notices.phase = s.notices.phase := fun r => by
    rw [onGrant_eq]
    dsimp only
    split <;> rfl
  unfold State.arbitrate
  split
  · rfl
  split
  · rfl
  split
  · rfl
  · exact granted _

/-! ## What each requester asks for -/

/-- R178 to R180: off a walk the WALK requester is the loader's. -/
theorem request_walk_offWalk (off : s.portOffWalk = true) :
    s.request .walk = s.loaderAddress.map fun a => ⟨.walk, a, none, false⟩ := by
  rw [State.request, State.walkAccess]
  unfold State.portOffWalk at off
  split
  · next phase => rw [phase] at off; cases off
  · next phase => rw [phase] at off; cases off
  · next phase => rw [phase] at off; cases off
  · rfl

/-- R5, R17: the words of a walk are those of the held access's descriptor. -/
theorem request_walk_word {acc : Access} {words : List Word} {victim : Ix4} {p : Place}
    (phase : s.port.phase = .walk acc words victim)
    (at_ : acc.addr.toNat = s.root.windowBase.toNat * 0x4000 + p.tube.toNat * 0x1000 + p.channel.toNat * 0x40
      + p.word.toNat) :
    s.request .walk = some ⟨.walk, BitVec.ofNat 20 ((s.root.tubes.get p.tube).pointer.toNat * 16 + 32
      + p.channel.toNat * 8 + words.length), none, false⟩ := by
  have addr : acc.addr = placeAddress s.root.windowBase p :=
    BitVec.eq_of_toNat_eq (at_.trans (placeAddress_toNat _ _).symm)
  have place : s.placeOf acc = p := by rw [State.placeOf, addr, windowPlace_placeAddress]
  rw [State.request, State.walkAccess, phase]
  dsimp only
  rw [State.descriptorWord, place, BitVec.ofNat_add]
  rfl

/-- A table's addresses, in the order of its words. -/
theorem unitAddress_add (pointer : Word) (n : Nat) :
    unitAddress pointer + BitVec.ofNat 20 n = BitVec.ofNat 20 (pointer.toNat * 16 + n) := by
  rw [BitVec.ofNat_add]; rfl

/-- The addresses of the bound ones, in their order. -/
theorem bound_addresses {α β : Type} (get : α → β) (bound : β → Bool) (addr : β → Addr) (l : List α) :
    (((l.map get).filter bound).map addr)
      = l.filterMap fun i => if bound (get i) = true then some (addr (get i)) else none := by
  induction l with
  | nil => rfl
  | cons i l ih =>
    cases h : bound (get i) with
    | true => simp only [List.map_cons, List.filter_cons, List.filterMap_cons, h, if_true, ih]
    | false => simp only [List.map_cons, List.filter_cons, List.filterMap_cons, h, if_false, Bool.false_eq_true, ih]

/-- R180: a tube's adoption reads: its zones, its lines, its boat. -/
theorem plan_eq (b : TubeBinding) : b.plan =
    (([.i0, .i1, .i2, .i3, .i4] : List Zone).filterMap fun z =>
        if (b.zones.get z).bound = true then some (b.zones.get z).addr else none)
      ++ (([.i0, .i1, .i2, .i3, .i4, .i5, .i6, .i7] : List Line).filterMap fun l =>
        if (b.lines.get l).bound = true then some (b.lines.get l).addr else none)
      ++ if b.boat.bound = true then [b.boat.addr] else [] := by
  have zones := bound_addresses b.zones.get (·.bound) (·.addr) ([.i0, .i1, .i2, .i3, .i4] : List Zone)
  have lines := bound_addresses b.lines.get (·.bound) (·.addr)
    ([.i0, .i1, .i2, .i3, .i4, .i5, .i6, .i7] : List Line)
  rw [← zones, ← lines]
  rfl

/-- R170: the next adoption read is forwarded where a delivery is pending for its address. -/
theorem request_adopt {k : Tube} {words : List Word} (off : s.portOffWalk = true) (job : s.loader.job = .adopt k words) :
    ((s.binding.get k).plan.length ≤ words.length → s.request .walk = none)
      ∧ ∀ a, (s.binding.get k).plan[words.length]? = some a →
        ((∀ d ∈ s.delivery, d.addr ≠ a) → s.request .walk = some ⟨.walk, a, none, false⟩)
        ∧ ((∃ d ∈ s.delivery, d.addr = a) → s.request .walk = none) := by
  have asks := request_walk_offWalk off
  rw [State.loaderAddress, job] at asks
  dsimp only at asks
  have pending : ∀ a, (s.forwarded a).isSome = true ↔ ∃ d ∈ s.delivery, d.addr = a := fun a => by
    simp only [State.forwarded, pendingFor, Option.isSome_map, List.find?_isSome, beq_iff_eq]
  refine ⟨fun done => ?_, fun a next => ⟨fun clear => ?_, fun waits => ?_⟩⟩
  · rw [asks, List.getElem?_eq_none done]; rfl
  · rw [asks, next]
    dsimp only
    rw [if_neg fun h => (pending a).mp h |>.elim fun d hd => clear d hd.1 hd.2]
    rfl
  · rw [asks, next]
    dsimp only
    rw [if_pos ((pending a).mpr waits)]
    rfl

/-! ## Writes that complete -/

/-- R169, R176: what the completed write of a word of the part leaves, whatever it does to the Notice Writer. -/
theorem written_leaves {before : State} {a : Addr} {v : Word} {n : NoticeWriter} (wf : s.mem.wf = true) :
    let t := before.finish { s.writeWord a v with bus := { s.bus with inFlight := none }, notices := n }
    (∀ b, t.readWord b = if b = a then v else s.readWord b) ∧ t.port = s.port
      ∧ (t.notices.producer = n.producer ∧ t.notices.consumer = n.consumer)
      ∧ Elsewhere none { s with mem := t.mem, notices := n } t := by
  intro t
  have after : Finished { s.writeWord a v with bus := { s.bus with inFlight := none }, notices := n } t := .finish _ _
  refine ⟨fun b => ?_, after.port, ring_of_writer after.writer, ?_⟩
  · rw [← State.readWord_writeWord _ _ _ wf, State.readWord, after.mem]; rfl
  · rw [after.mem]
    exact (Elsewhere.portBus { s.writeWord a v with notices := n } s.port { s.bus with inFlight := none } n.phase).trans
      after.elsewhere

theorem takeDue_completeBus {a : BusAccess} {v : Word} (busy : s.bus.inFlight = some a) (write : a.write = some v) :
    s.takeDue.completeBus.takeDue
      = ({ s with bus := { s.bus with inFlight := none }, mem := s.mem.write a.addr.toNat v } : State).takeDue := by
  by_cases works : s.notices.phase = .idle
  · cases due : s.notices.nextDue with
    | none =>
      have still : s.takeDue = s := by unfold State.takeDue; rw [works, due]
      rw [still, completeBus_write busy write]
    | some item =>
      have turned : s.takeDue = s.modNotices fun n => { n with phase := .rootWord item } := by
        unfold State.takeDue; rw [works, due]
      have turned' : ({ s with bus := { s.bus with inFlight := none }, mem := s.mem.write a.addr.toNat v } : State).takeDue
          = { s with
                bus := { s.bus with inFlight := none }, mem := s.mem.write a.addr.toNat v
                notices := { s.notices with phase := .rootWord item } } := by
        unfold State.takeDue
        dsimp only
        rw [works, due]
        rfl
      rw [turned', turned, completeBus_write (s := s.modNotices _) busy write]
      exact takeDue_of_phase nofun
  · rw [takeDue_of_phase works, completeBus_write busy write]

/-- R169: the completed write of a delivery. -/
theorem deliverWrite_exec {a : BusAccess} (flight : InFlight s .deliver a) :
    exec .deliverWriteComplete s = .next (s.takeDue.finish s.takeDue.completeBus) := by
  unfold exec execDeliverWriteComplete
  simp only [openBus_of_inFlight flight, inFlightOf_of_inFlight flight]

/-- Settles O53: the decision by `arbitrate_leaves`, the requests one by one, and the writes by `written_leaves`. -/
theorem imageWritesComplete : Obligations.ImageWritesComplete := by
  refine ⟨?decision, ?delivered, ?front, ?due, ?requests, ?loader, ?deliver, ?word, ?producer⟩
  case decision =>
    intro s waits held may due u
    have may_iff : ∀ r, may r ↔ r ∈ s.eligible := fun r => by rw [mem_eligible, deliverHeld_iff]
    refine ⟨arbitrate_busy, fun nobody => arbitrate_none ?_, fun before r after order idle mayR first => ?_⟩
    · have empty : s.eligible = [] := List.eq_nil_iff_forall_not_mem.mpr fun r hr => nobody r ((may_iff r).mpr hr)
      rw [State.chosen, empty]
      rfl
    · have first' : (4 ≤ s.bus.age r ∧ ∀ q ∈ before, q ∈ s.eligible → ¬ 4 ≤ s.bus.age q)
          ∨ ((∀ q ∈ s.eligible, ¬ 4 ≤ s.bus.age q) ∧ ∀ q ∈ before, q ∉ s.eligible) := by
        simpa only [may_iff] using first
      obtain ⟨granted, zero, others, whole⟩ := arbitrate_leaves order idle ((may_iff r).mp mayR) first'
      refine ⟨granted, zero, fun q other asks => ?_, fun q other quiet => ?_, ?_⟩
      · exact (others q other).trans (if_pos asks)
      · exact (others q other).trans (if_neg quiet)
      · rw [onGrant_eq] at whole
        exact whole
  case delivered =>
    intro s a v flight write
    refine ⟨_, deliverWrite_exec flight, ?_⟩
    have views : ∀ k, s.takeDue.headView k = s.takeDue.completeBus.headView k := fun k => by
      rw [completeBus_write (by rw [takeDue_bus]; exact flight.1) write]; rfl
    have status : s.takeDue.statusWord = s.takeDue.completeBus.statusWord := by
      rw [completeBus_write (by rw [takeDue_bus]; exact flight.1) write]; rfl
    rw [finish_quiet views status, State.advance, takeDue_completeBus flight.1 write]
  case front =>
    intro s d rest queue
    rw [State.request, queue]
    rfl
  case due =>
    intro s item phase
    rw [State.request, State.noticeAccess, phase]
    cases item <;> rfl
  case requests =>
    intro s
    refine ⟨fun empty => ?_, fun idle => ?_, fun acc a consumer phase => ?_, fun other => ?_,
      fun acc words victim p phase at_ => request_walk_word phase at_, fun pass here record at_ => ?_, fun off => ?_⟩
    · rw [State.request, empty]; rfl
    · rw [State.request, State.noticeAccess, idle]
    · rw [State.request, State.passAccess, phase]
    · rw [State.request, State.passAccess]
      split
      · next phase => exact absurd phase (other _ _ _)
      · rfl
    · rw [State.request, State.scanAccess, here]
      dsimp only
      rw [at_]
      rfl
    · rw [State.request, State.scanAccess, off]
  case loader =>
    intro s off reads
    have asks := request_walk_offWalk off
    refine ⟨fun rests => ?_, fun words job more => ?_, fun k words job more => ?_, fun words job more => ?_, ?_⟩
    · rcases rests with job | job <;> rw [asks, State.loaderAddress, job] <;> rfl
    · show s.request .walk = _
      rw [asks, State.loaderAddress, job]
      dsimp only
      rw [if_pos more]
      rfl
    · show s.request .walk = _
      rw [asks, State.loaderAddress, job]
      dsimp only
      rw [if_pos more, unitAddress_add]
      rfl
    · show s.request .walk = _
      rw [asks, State.loaderAddress, job]
      dsimp only
      rw [if_pos more, unitAddress_add]
      rfl
    · intro k words job b zones lines plan
      have words_ := request_adopt off job
      rw [plan_eq] at words_
      exact ⟨plan_eq b, words_⟩
  case deliver =>
    intro s a v flight write wf
    refine ⟨_, deliverWrite_exec flight, ?_⟩
    rw [completeBus_wrote flight write, wrote_eq]
    obtain ⟨words, port, -, kept⟩ := written_leaves (before := s.takeDue) (a := a.addr) (v := v)
      (n := { s.notices with phase := s.takeDue.notices.phase }) wf
    exact ⟨words, port, (Elsewhere.portBus _ s.port s.bus _).trans kept⟩
  case word =>
    intro s a v item flight write wf phase
    have due : s.takeDue = s := takeDue_of_phase (by rw [phase]; nofun)
    have run : exec .rootWordWrite s = .next (s.finish { s.writeWord a.addr v with
        bus := { s.bus with inFlight := none }, notices := { s.notices with phase := .idle } }) := by
      have opens : s.openBus .notice = s := (openBus_of_inFlight flight).trans due
      have owns : s.inFlightOf .notice = some a := due ▸ inFlightOf_of_inFlight flight
      unfold exec execRootWordWrite
      simp only [opens, owns, phase, completeBus_write flight.1 write]
      rfl
    obtain ⟨words, port, -, kept⟩ := written_leaves (before := s) (a := a.addr) (v := v)
      (n := { s.notices with phase := .idle }) wf
    refine ⟨_, run, words, port, fun none_ => ?_, ?_⟩
    · refine Eq.trans (congrArg (fun u : State => u.notices.phase) (finish_quiet ?_ ?_)) ?_
      · exact fun _ => rfl
      · rfl
      dsimp only
      rw [State.advance, arbitrate_phase]
      unfold State.takeDue
      dsimp only
      rw [show ({ s.notices with phase := .idle } : NoticeWriter).nextDue = none from none_]
    · exact Elsewhere.trans (.portBus { s with mem := _ } s.port s.bus .idle) kept
  case producer =>
    intro s a v flight write wf phase
    have due : s.takeDue = s := takeDue_of_phase (by rw [phase]; nofun)
    have run : exec .producerAdvance s = .next (s.finish { s.writeWord a.addr v with
        bus := { s.bus with inFlight := none }
        notices := { s.notices with producer := s.notices.nextProducer, phase := .idle } }) := by
      have opens : s.openBus .notice = s := (openBus_of_inFlight flight).trans due
      have owns : s.inFlightOf .notice = some a := due ▸ inFlightOf_of_inFlight flight
      unfold exec execProducerAdvance
      simp only [opens, owns, phase, completeBus_write flight.1 write]
      rfl
    obtain ⟨words, port, ring, kept⟩ := written_leaves (before := s) (a := a.addr) (v := v)
      (n := { s.notices with producer := s.notices.nextProducer, phase := .idle }) wf
    refine ⟨_, run, words, port, ring.1, ?_, { kept with ring := ⟨rfl, rfl⟩ }⟩
    rw [State.noticeOutput, bne_iff_ne, ring.2]

end Sys2Proof.Machine

/-! Timers that hand over or count (R101, R106, R146, R157, R158, R163, R185): the time a timer has left passes, and then
its event. -/

namespace Sys2Proof.Machine

variable {s u w : State} {k : Tube}

/-! ## What an expiry leaves -/

/-- R40: a passing time changes no record that an examination reads. -/
theorem headView_elapse (s : State) (n : Nat) (k : Tube) : s.headView k = (s.elapse n).headView k := by
  refine headView_congr ⟨rfl, rfl, rfl, rfl⟩ ?_
  rw [tube_elapse]
  refine ⟨rfl, rfl, rfl, rfl, rfl, rfl, rfl, rfl, rfl, rfl, fun _ => rfl, ?_⟩
  show ((s.tube k).queue.map _).head?.map HeldEntry.kind = _
  rw [List.head?_map, Option.map_map]
  rfl

theorem NoneDue.elapsed {n : Nat} (h : NoneDue (s.elapse n) w) : NoneDue s w := fun k =>
  (h k).imp_right (Or.imp_right (headView_elapse s n k).trans)

/-- An expiry whose event is local to tube `k`. -/
theorem expired_kept {r : Nat} (event : Local k (s.elapse r) w) :
    (s.finish w).clock = s.clock + BitVec.ofNat 32 r ∧ Elsewhere (some k) (s.elapse r) (s.finish w) := by
  have after := Finished.finish s w
  exact ⟨after.clock.trans event.clock, event.elsewhere.trans after.elsewhere.weaken⟩

/-- An expiry that changes no record an examination reads. -/
theorem expired_still {r : Nat} (event : Local k (s.elapse r) w) (others : ∀ j, j ≠ k → w.tube j = (s.elapse r).tube j)
    (view : SameView ((s.elapse r).tube k) (w.tube k)) : Still w (s.finish w) :=
  Still.finish (NoneDue.elapsed (event.noneDue others (.inr (.inr view))))

/-! ## The purge limit and the abort claim limit -/

/-- R101: the purge limit runs out under a run. -/
theorem purgeLimitExpired_eq {run : Run} (runs : (s.tube k).gas.run = some run) :
    s.purgeLimitExpired k = match (s.tube k).mode with
      | .run => (s.modGas k fun g => { g with limitTimer := none }).requestAbort
          ⟨k, .purgeTimeout, none, litresWord (s.tube k).gas.accumulator.toNat, wordOf run.purpose.code⟩
      | .hold => (s.modGas k fun g => { g with limitTimer := none }).requestAbort
          ⟨k, .purgeTimeout, none, litresWord (s.tube k).gas.accumulator.toNat, wordOf run.purpose.code⟩
      | .aborting => (s.modGas k fun g => { g with limitTimer := none }).requestTrip
          ⟨.purgeTimeout, some k, 0, litresWord (s.tube k).gas.accumulator.toNat⟩
      | .aborted => s.modGas k fun g => { g with limitTimer := none } := by
  unfold State.purgeLimitExpired
  simp only [runs] <;> rfl

theorem purgeLimitExpired_tubes {run : Run} (runs : (s.tube k).gas.run = some run) :
    (s.purgeLimitExpired k).tubes = (s.modGas k fun g => { g with limitTimer := none }).tubes := by
  rw [purgeLimitExpired_eq runs]; split <;> rfl

theorem abortClaimExpired_tubes (s : State) (k : Tube) :
    (s.abortClaimExpired k).tubes = (s.modTube k fun x => { x with abortTimer := none }).tubes := by
  unfold State.abortClaimExpired
  dsimp only
  split <;> rfl

/-- Settles O44. -/
theorem limitTimersHandOver : Obligations.LimitTimersHandOver := by
  refine ⟨fun s k r run timer runs => ?_, fun s k r timer => ?_⟩
  · intro x litres
    have exec_ : exec (.purgeLimitExpiry k) s = .next (s.finish ((s.elapse r).purgeLimitExpired k)) := by
      unfold exec execPurgeLimitExpiry; simp only [timer]
    have runs' : ((s.elapse r).tube k).gas.run = some run := by rw [tube_elapse]; exact runs
    have event := Local.purgeLimitExpired (k := k) (s.elapse r)
    have tube : ((s.elapse r).purgeLimitExpired k).tube k = { x with gas := { x.gas with limitTimer := none } } := by
      rw [State.tube, purgeLimitExpired_tubes runs']; exact tube_setTube_self _ _ _
    have others : ∀ j, j ≠ k → ((s.elapse r).purgeLimitExpired k).tube j = (s.elapse r).tube j := fun j other => by
      rw [State.tube, purgeLimitExpired_tubes runs']; exact tube_setTube_ne _ _ other
    have after := expired_still event others (by
      rw [tube]; exact ⟨rfl, rfl, rfl, rfl, rfl, rfl, rfl, rfl, rfl, rfl, fun _ => rfl, rfl⟩)
    obtain ⟨clock, kept⟩ := expired_kept event
    have decided := purgeLimitExpired_eq runs'
    refine ⟨_, exec_, clock, kept, (after.tube k).trans tube, fun working => ?_, fun aborting => ?_, fun aborted => ?_⟩
    · rw [after.abort, decided]
      cases mode : ((s.elapse r).tube k).mode with
      | run => rfl
      | hold => rfl
      | aborting => rw [show x.mode = .aborting from mode] at working; cases working
      | aborted => rw [show x.mode = .aborted from mode] at working; cases working
    · rw [after.abort, decided, show ((s.elapse r).tube k).mode = .aborting from aborting]; rfl
    · rw [after.abort, decided, show ((s.elapse r).tube k).mode = .aborted from aborted]; rfl
  · have exec_ : exec (.abortClaimExpiry k) s = .next (s.finish ((s.elapse r).abortClaimExpired k)) := by
      unfold exec execAbortClaimExpiry; simp only [timer]
    have event := Local.abortClaimExpired (k := k) (s.elapse r)
    have tube : ((s.elapse r).abortClaimExpired k).tube k = { (s.elapse r).tube k with abortTimer := none } := by
      rw [State.tube, abortClaimExpired_tubes]; exact tube_setTube_self _ _ _
    have others : ∀ j, j ≠ k → ((s.elapse r).abortClaimExpired k).tube j = (s.elapse r).tube j := fun j other => by
      rw [State.tube, abortClaimExpired_tubes]; exact tube_setTube_ne _ _ other
    have after := expired_still event others (by
      rw [tube]; exact ⟨rfl, rfl, rfl, rfl, rfl, rfl, rfl, rfl, rfl, rfl, fun _ => rfl, rfl⟩)
    obtain ⟨clock, kept⟩ := expired_kept event
    have claim : (s.elapse r).runClaim k = s.runClaim k := rfl
    refine ⟨_, exec_, clock, kept, (after.tube k).trans tube, fun c waits => ?_, fun none_ => ?_⟩
    · rw [after.abort, State.abortClaimExpired, claim, waits]; rfl
    · rw [after.abort, State.abortClaimExpired, claim, none_]; rfl

/-! ## The scan timers -/

/-- R158: the first active record at or after an index. -/
theorem nextActive_some {list : List ScanRecord} {start i : Nat} {rec : ScanRecord} (from_ : start ≤ i)
    (at_ : list[i]? = some rec) (active : rec.active = true)
    (sooner : ∀ j old, start ≤ j → j < i → list[j]? = some old → old.active = false) : nextActive list start = some i := by
  have within : i < list.length := (List.getElem?_eq_some_iff.mp at_).1
  unfold nextActive
  rw [List.find?_range_eq_some]
  refine ⟨?_, List.mem_range.mpr within, fun j before => ?_⟩
  · rw [at_]
    simp only [from_, active, decide_true, Bool.and_self]
  · by_cases reach : start ≤ j
    · have inside : j < list.length := by omega
      have old := sooner j list[j] reach before (List.getElem?_eq_getElem inside)
      simp only [reach, decide_true, Bool.true_and, List.getElem?_eq_getElem inside, old, Bool.not_false]
    · simp only [reach, decide_false, Bool.false_and, Bool.not_false]

/-- R158: no active record at or after an index. -/
theorem nextActive_none {list : List ScanRecord} {start : Nat}
    (idle : ∀ i rec, start ≤ i → list[i]? = some rec → rec.active = false) : nextActive list start = none := by
  unfold nextActive
  rw [List.find?_eq_none]
  intro i _
  cases at_ : list[i]? with
  | none => simp only [Bool.and_false, Bool.false_eq_true, not_false_eq_true]
  | some rec =>
    by_cases reach : start ≤ i
    · simp only [idle i rec reach at_, Bool.and_false, Bool.false_eq_true, not_false_eq_true]
    · simp only [reach, decide_false, Bool.false_and, Bool.false_eq_true, not_false_eq_true]

/-- R157: a scan expiry with no pass under way. -/
theorem scanExpired_idle (idle : s.scanner.pass = none) : s.scanExpired = s.modScanner fun c =>
    { c with timer := some s.scanner.period, overrun := false }.startPass s.clock := by
  unfold State.scanExpired
  rw [idle]
  rfl

/-- R157: a scan expiry that finds its pass under way again. -/
theorem scanExpired_again {p : Pass} (under : s.scanner.pass = some p) (again : s.scanner.overrun = true) :
    s.scanExpired = s.modScanner fun c => { c with timer := some s.scanner.period } := by
  unfold State.scanExpired
  rw [under]
  exact if_pos again

/-- R157: the first overrun of a pass places its notice. -/
theorem scanExpired_overrun {p : Pass} (under : s.scanner.pass = some p) (first : s.scanner.overrun = false) :
    s.scanExpired = (s.modScanner fun c => { c with timer := some s.scanner.period, overrun := true }).place
      (overrunNotice s p) := by
  unfold State.scanExpired
  rw [under]
  exact if_neg (by rw [first]; exact Bool.noConfusion)

theorem startPass_timer (c : Scanner) (clock : Long) : (c.startPass clock).timer = c.timer := by
  unfold Scanner.startPass; split <;> rfl

theorem startPass_some {c : Scanner} {clock : Long} {i : Nat} (first : nextActive c.list 0 = some i) :
    c.startPass clock = { c with pass := some ⟨i, 0, clock⟩ } := by
  unfold Scanner.startPass; rw [first]

theorem startPass_none {c : Scanner} {clock : Long} (none_ : nextActive c.list 0 = none) :
    c.startPass clock = c.passCompleted := by
  unfold Scanner.startPass; rw [none_]

theorem Elsewhere.refl (s : State) : Elsewhere none s s := (Finished.refl s).elsewhere

theorem Elsewhere.place (s : State) (n : Notice) : Elsewhere none s (s.place n) :=
  (Local.place .i0 s n).elsewhere_none (.refl _)

/-- What a scan expiry leaves outside the scanner. -/
theorem scanExpired_leaves (s : State) : s.scanExpired.clock = s.clock ∧ s.scanExpired.scanner.timer = some s.scanner.period
    ∧ Elsewhere none { s with scanner := s.scanExpired.scanner } s.scanExpired := by
  cases under : s.scanner.pass with
  | none =>
    rw [scanExpired_idle under]
    exact ⟨rfl, startPass_timer _ _, .refl _⟩
  | some p =>
    cases again : s.scanner.overrun with
    | true =>
      rw [scanExpired_again under again]
      exact ⟨rfl, rfl, .refl _⟩
    | false =>
      rw [scanExpired_overrun under again]
      exact ⟨rfl, rfl, .place _ _⟩

/-- Settles O46. -/
theorem scanTimersExpire : Obligations.ScanTimersExpire := by
  refine ⟨fun s r timer => ?_, fun s r timer => ?_⟩
  · intro u
    have run : exec .scanExpiry s = .next (s.finish u.scanExpired) := by
      unfold exec execScanExpiry; simp only [timer]; rfl
    have after := Finished.finish s u.scanExpired
    obtain ⟨clock, timer_, kept⟩ := scanExpired_leaves u
    refine ⟨_, run, after.clock.trans clock, ?_, ?_, fun i rec idle at_ active sooner => ?_, fun idle none_ => ?_,
      fun p under first => ⟨?_, ?_⟩, fun p under again => ⟨?_, ?_⟩⟩
    · rw [after.scanner]; exact timer_
    · rw [after.scanner]; exact kept.trans after.elsewhere
    · rw [after.scanner, scanExpired_idle (s := u) idle]
      exact startPass_some (nextActive_some (Nat.zero_le i) at_ active fun j old _ before => sooner j old before)
    · have completes : u.scanExpired.scanner
          = ({ u.scanner with timer := some s.scanner.period, overrun := false } : Scanner).passCompleted := by
        rw [scanExpired_idle (s := u) idle]
        exact startPass_none (nextActive_none fun i rec _ at_ => none_ rec (List.mem_of_getElem? at_))
      rw [after.scanner, completes]
      exact ⟨rfl, rfl, rfl, rfl⟩
    · rw [after.scanner, scanExpired_overrun (s := u) under first]; rfl
    · rw [scanExpired_overrun (s := u) under first] at after ⊢
      exact Reports.of_place rfl after.clock after.buffer
    · rw [after.scanner, scanExpired_again (s := u) under again]; rfl
    · rw [scanExpired_again (s := u) under again]
      have still : Still (u.modScanner fun c => { c with timer := some u.scanner.period }) (s.finish _) :=
        Still.finish (NoneDue.elapsed (n := r) fun _ => .inr (.inr rfl))
      exact still.kept
  · have run : exec .staleExpiry s = .next (s.finish (s.elapse r).staleExpired) := by
      unfold exec execStaleExpiry; simp only [timer]
    have after := Finished.finish s (s.elapse r).staleExpired
    refine ⟨_, run, after.clock, after.scanner, ?_, ?_⟩
    · exact Reports.of_place
        (u := (s.elapse r).modScanner fun c => { c with stale := true, staleTimer := none }) rfl after.clock after.buffer
    · rw [after.scanner]
      exact (Elsewhere.place ((s.elapse r).modScanner fun c => { c with stale := true, staleTimer := none }) _).trans
        after.elsewhere

/-! ## The Service Monitor -/

/-- R140: requests handed over one after another wait in that order. -/
theorem requests_foldl {α : Type} (f : α → AbortRequest) (l : List α) (s : State) :
    l.foldl (fun acc a => acc.requestAbort (f a)) s
      = { s with abort := { s.abort with requests := s.abort.requests ++ l.map f } } := by
  induction l generalizing s with
  | nil => simp only [List.foldl_nil, List.map_nil, List.append_nil]
  | cons a l ih =>
    rw [List.foldl_cons, ih]
    simp only [State.requestAbort, State.modAbort, List.map_cons, List.append_assoc, List.singleton_append]

/-- R185: a service expiry in LAPSED. -/
theorem serviceExpired_lapsed (lapsed : s.monitor.lapsed = true) : s.serviceExpired =
    s.modMonitor fun m => { m with timer := some m.period, recorded := s.notices.consumer } :=
  if_pos lapsed

/-- R185: a service expiry that counts. -/
theorem serviceExpired_counts (normal : s.monitor.lapsed = false) (below : s.lapseCount ≠ s.monitor.limit) :
    s.serviceExpired = s.modMonitor fun m =>
      { m with timer := some m.period, recorded := s.notices.consumer, count := s.lapseCount } :=
  (if_neg (by rw [normal]; exact Bool.noConfusion)).trans (if_neg below)

theorem place_ring (s : State) (n : Notice) : (s.place n).notices.consumer = s.notices.consumer
    ∧ (s.place n).notices.unconsumed = s.notices.unconsumed := by
  have same := (Shift.place (P := True) none s n).notices.writer
  rw [← same]
  exact ⟨rfl, rfl⟩

/-- The Service Monitor as the lapse leaves it. -/
def State.lapsing (s : State) : State := s.modMonitor fun m =>
  { m with timer := some m.period, recorded := s.notices.consumer, count := s.lapseCount, lapsed := true }

/-- R185: the requests of a lapse. -/
def State.lapseRequests (s : State) : List AbortRequest :=
  (Ix4.all.filter fun k => (s.tube k).gas.atmosphere == .process).map fun k =>
    ⟨k, .serviceLost, none, wordOf s.notices.consumer, wordOf s.notices.unconsumed⟩

theorem serviceAborts_eq (s : State) :
    s.serviceAborts = s.modAbort fun a => { a with requests := a.requests ++ s.lapseRequests } :=
  requests_foldl _ _ _

/-- R185: the service expiry at the limit. -/
theorem serviceExpired_lapses (normal : s.monitor.lapsed = false) (full : s.lapseCount = s.monitor.limit) :
    s.serviceExpired = (s.lapsing.place (serviceNotice .serviceLost s.notices)).modAbort fun a =>
      { a with requests := a.requests ++ s.lapseRequests } := by
  have aborts : s.serviceExpired = (s.lapsing.place (serviceNotice .serviceLost s.notices)).serviceAborts :=
    (if_neg (by rw [normal]; exact Bool.noConfusion)).trans (if_pos full)
  have ring : (s.lapsing.place (serviceNotice .serviceLost s.notices)).lapseRequests = s.lapseRequests := by
    obtain ⟨consumer, unconsumed⟩ := place_ring s.lapsing (serviceNotice .serviceLost s.notices)
    unfold State.lapseRequests
    rw [consumer, unconsumed]
    rfl
  rw [aborts, serviceAborts_eq, ring]

/-- Settles O47. -/
theorem serviceExpiryCountsTheLapse : Obligations.ServiceExpiryCountsTheLapse := by
  intro s r timer u count next unconsumed
  have run : exec .serviceExpiry s = .next (s.finish u.serviceExpired) := by
    unfold exec execServiceExpiry; simp only [timer]; rfl
  refine ⟨_, run, ?_⟩
  have after := Finished.finish s u.serviceExpired
  cases lapsed : s.monitor.lapsed with
  | true =>
    have expired := serviceExpired_lapsed (s := u) lapsed
    rw [expired] at after ⊢
    refine ⟨after.clock, ?_, fun _ => ⟨after.monitor.trans ?_, after.abort⟩, nofun, nofun⟩
    · rw [after.monitor]; exact after.elsewhere
    · rfl
  | false =>
    by_cases full : count = s.monitor.limit
    · have expired := serviceExpired_lapses (s := u) lapsed full
      rw [expired] at after ⊢
      refine ⟨after.clock, ?_, nofun, fun _ h => absurd full h, fun _ _ => ⟨after.monitor.trans ?_, ?_, ?_⟩⟩
      · rw [after.monitor]
        refine Elsewhere.trans ?_ after.elsewhere
        exact { Elsewhere.place u.lapsing (serviceNotice .serviceLost u.notices) with latch := ⟨rfl, rfl, rfl⟩ }
      · rfl
      · exact Reports.of_place (u := u.lapsing) rfl after.clock after.buffer
      · have atmospheres : ∀ k, (u.tube k).gas.atmosphere = (s.tube k).gas.atmosphere := fun k => by
          rw [show u.tube k = _ from tube_elapse s r k]; rfl
        rw [after.abort]
        show s.abort.requests ++ u.lapseRequests = _
        unfold State.lapseRequests
        simp only [atmospheres]
        rfl
    · have expired := serviceExpired_counts (s := u) lapsed full
      rw [expired] at after ⊢
      refine ⟨after.clock, ?_, nofun, fun _ _ => ⟨after.monitor.trans ?_, after.abort⟩, fun _ h => absurd h full⟩
      · rw [after.monitor]; exact after.elsewhere
      · exact congrArg (fun b => ({ next with count := count, lapsed := b } : Monitor)) lapsed

end Sys2Proof.Machine

/-! Judgements of measured values: an arrival of a line's sample (R106) and the settle expiry (R83, R84). -/

namespace Sys2Proof.Machine

variable {s u w : State} {k : Tube}

/-! ## An arrival of a measured flow (R106) -/

/-- The deviation counter of an arrival's line set. -/
def State.deviated (s : State) (a : LineArrival) (n : Nat) : State := s.modGas a.tube fun g =>
  { g with lines := g.lines.set a.line { g.lines.get a.line with devCounter := n } }

/-- R106: the abort request of a line that has deviated as often as its deviation count. -/
def deviationRequest (a : LineArrival) (flow : Word) : AbortRequest :=
  ⟨a.tube, .flowDeviation, none, deviationDetail a.line a.value, flow⟩

section
variable {a : LineArrival}

theorem lineArrives_unwatched (unwatched : ¬ ((s.lineRec a.tube a.line).reactive = true ∧ (s.lineRec a.tube a.line).flow ≠ 0)) :
    s.lineArrives a = s :=
  if_neg (by simpa only [Bool.and_eq_true, bne_iff_ne] using unwatched)

theorem lineArrives_watched (watched : (s.lineRec a.tube a.line).reactive = true ∧ (s.lineRec a.tube a.line).flow ≠ 0) :
    s.lineArrives a =
      if (s.lineRec a.tube a.line).devLimit < distance a.value.toNat (s.lineRec a.tube a.line).flow.toNat then
        if (s.lineRec a.tube a.line).devCounter + 1 = (s.lineRec a.tube a.line).devCount then
          (s.deviated a (min 15 ((s.lineRec a.tube a.line).devCounter + 1))).requestAbort
            (deviationRequest a (s.lineRec a.tube a.line).flow)
        else s.deviated a (min 15 ((s.lineRec a.tube a.line).devCounter + 1))
      else s.deviated a 0 :=
  if_pos (by simpa only [Bool.and_eq_true, bne_iff_ne] using watched)

theorem lineArrives_tubes (s : State) (a : LineArrival) :
    (s.lineArrives a).tubes = s.tubes ∨ ∃ n, (s.lineArrives a).tubes = (s.deviated a n).tubes := by
  by_cases watched : (s.lineRec a.tube a.line).reactive = true ∧ (s.lineRec a.tube a.line).flow ≠ 0
  · rw [lineArrives_watched watched]
    right
    split
    · split <;> exact ⟨_, rfl⟩
    · exact ⟨_, rfl⟩
  · exact .inl (by rw [lineArrives_unwatched watched])

/-- R40: a deviation counter is no record an examination reads. -/
theorem deviated_view (s : State) (a : LineArrival) (n : Nat) :
    SameView (s.tube a.tube) ((s.deviated a n).tube a.tube) := by
  have own : (s.deviated a n).tube a.tube = { s.tube a.tube with gas := { (s.tube a.tube).gas with
      lines := (s.tube a.tube).gas.lines.set a.line
        { (s.tube a.tube).gas.lines.get a.line with devCounter := n } } } := tube_setTube_self _ _ _
  rw [own]
  refine ⟨rfl, rfl, rfl, rfl, rfl, rfl, rfl, rfl, rfl, rfl, fun m => ?_, rfl⟩
  rw [Eight.get_set]
  split
  · next same => rw [same]
  · rfl

/-- No examination follows a judged sample. -/
theorem lineArrives_still (same : ∀ k, s.headView k = u.headView k) :
    Still (u.lineArrives a) (s.finish (u.lineArrives a)) := by
  have quiet : NoneDue u (u.lineArrives a) := by
    refine (Local.lineArrives u a).noneDue (fun j other => ?_) (.inr (.inr ?_))
    · unfold State.tube
      rcases lineArrives_tubes u a with same | ⟨n, same⟩
      · rw [same]
      · rw [same]; exact tube_setTube_ne _ _ other
    · unfold State.tube
      rcases lineArrives_tubes u a with same | ⟨n, same⟩
      · rw [same]; exact .refl _
      · rw [same]; exact deviated_view u a n
  exact Still.finish fun k => (quiet k).imp_right (Or.imp_right (same k).trans)

end

/-- Settles O48. -/
theorem lineSampleIsJudged : Obligations.LineSampleIsJudged := by
  intro s a rest waiting x l watched deviates counted
  let u : State := { s with arrivals := rest }
  have run : exec .lineSampleArrival s = .next (s.finish (u.lineArrives a)) := by
    unfold exec execLineSampleArrival; simp only [waiting]; rfl
  have after := lineArrives_still (s := s) (u := u) (a := a) fun _ => rfl
  have deviated : ∀ n, (u.deviated a n).tube a.tube = counted n := fun n => tube_setTube_self _ _ _
  refine ⟨_, run, after.arrivals.trans (Local.lineArrives _ a).arrivals,
    ((Local.lineArrives _ a).finished after.toFinished).elsewhere, fun unwatched => ?_, fun watched within => ?_,
    fun watched outside below => ?_, fun watched outside reached => ?_⟩
  · rw [after.tube, after.abort, lineArrives_unwatched (s := u) unwatched]
    exact ⟨rfl, rfl⟩
  · rw [after.tube, after.abort, (lineArrives_watched (s := u) watched).trans (if_neg within)]
    exact ⟨deviated _, rfl⟩
  · rw [after.tube, after.abort, ((lineArrives_watched (s := u) watched).trans (if_pos outside)).trans (if_neg below)]
    exact ⟨deviated _, rfl⟩
  · rw [after.tube, after.abort, ((lineArrives_watched (s := u) watched).trans (if_pos outside)).trans (if_pos reached)]
    exact ⟨deviated _, rfl⟩

/-! ## The settle expiry (R83, R84) -/

/-- The first zone, in zone order, that a test names. -/
theorem Ix5.find?_all {p : Zone → Bool} {z : Zone} (named : p z = true)
    (first : ∀ y : Zone, y.toNat < z.toNat → p y = false) : Ix5.all.find? p = some z := by
  cases z with
  | i0 => simp only [Ix5.all, List.find?, named]
  | i1 => simp only [Ix5.all, List.find?, named, first .i0 (by decide)]
  | i2 => simp only [Ix5.all, List.find?, named, first .i0 (by decide), first .i1 (by decide)]
  | i3 =>
    simp only [Ix5.all, List.find?, named, first .i0 (by decide), first .i1 (by decide), first .i2 (by decide)]
  | i4 =>
    simp only [Ix5.all, List.find?, named, first .i0 (by decide), first .i1 (by decide), first .i2 (by decide),
      first .i3 (by decide)]

/-- No zone is named. -/
theorem Ix5.find?_all_none {p : Zone → Bool} (none_ : ∀ z, p z = false) : Ix5.all.find? p = none :=
  List.find?_eq_none.mpr fun z _ => by rw [none_ z]; exact Bool.false_ne_true

theorem zoneUnsettled_iff {z : Zone} : s.zoneUnsettled k z = true ↔
    ((s.tube k).ramp.zones.get z).bound = true ∧ (s.zoneSample k z).sampled = true
      ∧ (s.tube k).header.settleWindow
        < distance (s.zoneSample k z).value.toNat ((s.tube k).ramp.zones.get z).target.toNat := by
  simp only [State.zoneUnsettled, Bool.and_eq_true, decide_eq_true_eq, and_assoc]

/-- R83: the tube after a passed check. -/
def TubeState.settled (x : TubeState) : TubeState :=
  { x with
    ramp := { x.ramp with thermal := .stable, cause := .none, direction := .none, settleTimer := none }
    summary := { x.summary with rampDone := true } }

theorem settlePassed_tube (s : State) (k : Tube) : (s.settlePassed k).tube k = (s.tube k).settled := by
  unfold State.settlePassed
  dsimp only
  rw [show ∀ v f, State.modSummary v k f = v.modTube k fun x => { x with summary := f x.summary } from fun _ _ => rfl,
    tube_modTube_eq]
  rw [show ∀ v n, (State.place v n).tube k = v.tube k from fun _ _ => rfl,
    show ∀ v f, State.modRamp v k f = v.modTube k fun x => { x with ramp := f x.ramp } from fun _ _ => rfl,
    tube_modTube_eq]
  rfl

theorem settlePassed_others (s : State) {j : Tube} (other : j ≠ k) : (s.settlePassed k).tube j = s.tube j := by
  unfold State.settlePassed
  dsimp only
  exact (tube_setTube_ne _ _ other).trans (tube_setTube_ne _ _ other)

/-- R84: the tube after a failed check. -/
def TubeState.unsettled (x : TubeState) : TubeState :=
  { x with ramp := { x.ramp with retry := min 255 (x.ramp.retry + 1), settleTimer := some x.header.settlePeriod } }

theorem settleFailed_tubes (s : State) (k : Tube) (z : Zone) :
    (s.settleFailed k z).tubes = (s.modTube k TubeState.unsettled).tubes := by
  unfold State.settleFailed
  dsimp only
  split <;> rfl

/-- R84: the check that brings the retry count to its limit places SETTLE_SLOW. -/
theorem settleFailed_slow {z : Zone} (limited : (s.tube k).header.settleRetryLimit ≠ 0)
    (count : (s.tube k).ramp.retry + 1 = (s.tube k).header.settleRetryLimit) (below : (s.tube k).ramp.retry < 255) :
    s.settleFailed k z = (s.modTube k TubeState.unsettled).place
      (notice .settleSlow (some k) none z.toNat (s.tube k).ramp.lastTicket ((s.tube k).ramp.zones.get z).target
        (s.zoneSample k z).value) := by
  unfold State.settleFailed
  exact if_pos ⟨limited, by omega, by omega⟩

/-- Settles O41. -/
theorem settleExpiryJudgesTheWindow : Obligations.SettleExpiryJudgesTheWindow := by
  intro s k r timer u x outside
  have run : exec (.settleExpiry k) s = .next (s.finish (u.settleExpired k)) := by
    unfold exec execSettleExpiry; simp only [timer]; rfl
  have event : Local k u (u.settleExpired k) := Local.settleExpired u
  have after := Finished.finish s (u.settleExpired k)
  obtain ⟨clock, kept⟩ := expired_kept event
  have unsettled : ∀ z, u.zoneUnsettled k z = true ↔ outside z := fun z => zoneUnsettled_iff
  by_cases inside : ∀ z, ¬ outside z
  · have passed : u.settleExpired k = u.settlePassed k := by
      unfold State.settleExpired
      rw [Ix5.find?_all_none fun z => Bool.eq_false_iff.mpr fun c => inside z ((unsettled z).mp c)]
    rw [passed] at run after clock kept event
    have own : (u.settlePassed k).tube k = x.settled := settlePassed_tube u k
    have moved := after.tubes k
    rw [own] at moved
    refine ⟨_, run, clock, kept, moved.mode, moved.zoneDelivered, fun _ => ⟨?_, ?_, fun quiet => ?_⟩,
      fun z out => absurd out (inside z)⟩
    · rw [moved.summary]; rfl
    · exact Reports.of_place (u := u.modRamp k fun q =>
        { q with thermal := .stable, cause := .none, direction := .none, settleTimer := none }) rfl after.clock after.buffer
    · have still : Still (u.settlePassed k) (s.finish (u.settlePassed k)) :=
        Still.finish (NoneDue.elapsed (event.noneDue (fun j => settlePassed_others u) (by
          rw [own]; exact quiet.elim (fun idle => .inr (.inl idle)) .inl)))
      rw [still.tube, own]
      rfl
  · have tube : ∀ z, (u.settleFailed k z).tube k = x.unsettled := fun z => by
      rw [State.tube, settleFailed_tubes]; exact tube_setTube_self _ _ _
    obtain ⟨z, found⟩ : ∃ z, Ix5.all.find? (u.zoneUnsettled k) = some z := by
      refine Option.isSome_iff_exists.mp (List.find?_isSome.mpr ?_)
      obtain ⟨z, out⟩ := Classical.not_forall_not.mp inside
      exact ⟨z, Ix5.mem_all z, (unsettled z).mpr out⟩
    have failed : u.settleExpired k = u.settleFailed k z := by unfold State.settleExpired; rw [found]
    rw [failed] at run after clock kept event
    have still : Still (u.settleFailed k z) (s.finish (u.settleFailed k z)) :=
      expired_still event (fun j other => by
        rw [State.tube, settleFailed_tubes]; exact tube_setTube_ne _ _ other) (by
        rw [tube]; exact ⟨rfl, rfl, rfl, rfl, rfl, rfl, rfl, rfl, rfl, rfl, fun _ => rfl, rfl⟩)
    have own := (still.tube k).trans (tube z)
    refine ⟨_, run, clock, kept, ?_, ?_, fun inside' => absurd inside' inside, fun y outY firstY => ⟨own, ?_⟩⟩
    · rw [own]; rfl
    · rw [own]; exact fun _ => rfl
    · intro limited count below
      obtain rfl : z = y := Option.some.inj (found.symm.trans (Ix5.find?_all ((unsettled y).mpr outY) fun m before =>
        Bool.eq_false_iff.mpr fun c => firstY m before ((unsettled m).mp c)))
      rw [settleFailed_slow limited count below] at after ⊢
      exact Reports.of_place (u := u.modTube k TubeState.unsettled) rfl after.clock after.buffer

end Sys2Proof.Machine

/-! Writes and reads that Tube Control, acceptance and the MANUAL path decide without the engines: refusals (R26 to R29,
R56, R68), HOLD, RESUME, ABORT and FLUSH (R58 to R61, R63), and the reads with an effect (R65, R66). -/

namespace Sys2Proof.Machine

variable {s u w : State} {k : Tube} {c : AccessClass} {p : Place} {d : DescWords} {v : Word} {acc : Access}

/-! ## What a dispatched access leaves -/

theorem met_tube (s : State) (j : Tube) : s.met.tube j = s.tube j := Finished.tube_eq j

theorem met_abort (s : State) : s.met.abort = s.abort := (Finished.advance s).abort

theorem met_budget (s : State) : s.met.budget = s.budget := (Still.advance s).claims

theorem met_binding (s : State) : s.met.binding = s.binding := (Finished.advance s).binding

theorem met_monitor (s : State) : s.met.monitor = s.monitor := (Finished.advance s).monitor

theorem met_clock (s : State) : s.met.clock = s.clock := (Finished.advance s).clock

theorem met_buffer (s : State) : s.met.notices.buffer = s.notices.buffer := (Still.advance s).kept

theorem met_underway (ok : DeliveryOk s.delivery) (b : Addr) : s.met.underway b = s.underway b := underway_advance ok b

theorem met_delivery (ok : DeliveryOk s.delivery) : DeliveryOk s.met.delivery := (Finished.advance s).delivery ok

/-- The event of a dispatched access, seen from the state the bus's decision leaves. -/
theorem Local.of_met (event : Local k s.met w) : Local k s.advance w := (Local.replacement k s.advance _).trans event

/-- What a dispatched access of tube `k` leaves outside it. -/
theorem dispatched_kept (event : Local k s.met w) : Elsewhere (some k) s (s.advance.finish w) :=
  (((Local.met k s).trans event).finished (Finished.finish _ _)).elsewhere

/-- A dispatched access of tube `k` after which no head is due. -/
theorem dispatched_still (event : Local k s.met w) (others : ∀ j, j ≠ k → w.tube j = s.met.tube j)
    (own : (w.tube k).queue = [] ∨ (w.tube k).mode ≠ .run ∨ SameView (s.tube k) (w.tube k)) :
    Still w (s.advance.finish w) :=
  Still.finish (event.of_met.noneDue others (by rw [Finished.tube_eq]; exact own))

/-- A dispatched access that leaves every tube. -/
theorem dispatched_idle (event : Local k s.met w) (same : ∀ j, w.tube j = s.met.tube j) :
    Still w (s.advance.finish w) ∧ (s.advance.finish w).tube k = s.tube k ∧ Elsewhere none s (s.advance.finish w) := by
  have after := dispatched_still event (fun j _ => same j) (.inr (.inr (by rw [same, met_tube]; exact .refl _)))
  have kept : Elsewhere none s w :=
    ((Local.met k s).trans event).elsewhere_none (by rw [same, met_tube]; exact .refl _)
  exact ⟨after, (after.tube k).trans ((same k).trans (met_tube s k)), kept.trans after.elsewhere⟩

/-! ## Refusals (R24, R26, R56, R68) -/

theorem refuseTube_tube (s : State) (acc : Access) (p : Place) (r : RefuseReason) :
    (s.refuseTube acc p r).tube p.tube
      = { s.tube p.tube with summary := { (s.tube p.tube).summary with refusedAny := true } } :=
  tube_modTube_eq s p.tube fun x => { x with summary := { x.summary with refusedAny := true } }

theorem refuseTube_others (s : State) (acc : Access) (p : Place) (r : RefuseReason) {j : Tube} (other : j ≠ p.tube) :
    (s.refuseTube acc p r).tube j = s.tube j := tube_setTube_ne _ _ other

/-- The answer, notice and summary of a refused write. -/
theorem refused_tube (s : State) (acc : Access) (p : Place) (r : RefuseReason) :
    RefusesTube s (s.advance.finish (s.met.refuseTube acc p r)) acc p r
      ∧ Elsewhere (some p.tube) s (s.advance.finish (s.met.refuseTube acc p r)) := by
  have event : Local p.tube s.met (s.met.refuseTube acc p r) := .refuseTube _ acc p r
  have own := refuseTube_tube s.met acc p r
  rw [met_tube] at own
  have after := dispatched_still event (fun j => refuseTube_others s.met acc p r)
    (.inr (.inr (by rw [own]; exact ⟨rfl, rfl, rfl, rfl, rfl, rfl, rfl, rfl, rfl, rfl, fun _ => rfl, rfl⟩)))
  refine ⟨⟨⟨after.port, ?_⟩, (after.tube p.tube).trans own⟩, dispatched_kept event⟩
  exact Reports.of_place (u := s.met.markRefused p.tube) (met_buffer s) after.clock after.buffer

/-- R26: a shaped write that reaches acceptance. -/
theorem shaped_exec (reaches : ShapedReaches s c p v d) : exec (.shapedWrite c p v) s
    = .next (s.advance.finish (s.met.accept (placeAccess s c .write p v) p d)) := by
  obtain ⟨kind, shaped, dispatches⟩ := reaches
  show Host.Outcome.next (s.takeAccess _ _) = _
  rw [takeAccess_of_dispatches dispatches]
  show Host.Outcome.next (s.advance.finish (s.met.dispatchWrite _ p d)) = _
  unfold State.dispatchWrite
  rcases kind with kind | kind | kind <;> rw [kind] <;> simp only [shaped, Bool.false_eq_true, if_false]

theorem inLimits_iff : inLimits d v = true ↔ InRange d v := by
  refine ⟨fun inside => ?_, inRange_inLimits⟩
  unfold inLimits at inside
  cases mark : d.mark with
  | zone z =>
    simp only [mark, Bool.and_eq_true, decide_eq_true_eq] at inside
    exact ⟨inside.2, fun y at_ => inside.1⟩
  | line l => exact ⟨by simpa only [mark, decide_eq_true_eq] using inside, fun z at_ => by rw [mark] at at_; cases at_⟩
  | boat => exact ⟨by simpa only [mark, decide_eq_true_eq] using inside, fun z at_ => by rw [mark] at at_; cases at_⟩
  | none => exact ⟨by simpa only [mark, decide_eq_true_eq] using inside, fun z at_ => by rw [mark] at at_; cases at_⟩

theorem owned_iff : s.owned k d = true ↔ OwnedLine s k d := by
  unfold State.owned OwnedLine
  cases named : d.line? with
  | none =>
    refine ⟨nofun, fun ⟨mark, _⟩ => ?_⟩
    rw [line?_eq.mpr mark] at named
    cases named
  | some l =>
    simp only [Bool.and_eq_true, Bool.or_eq_true, decide_eq_true_eq, beq_iff_eq]
    constructor
    · rintro ⟨⟨rfl, purge⟩, gas⟩
      exact ⟨line?_eq.mp named, purge, gas⟩
    · rintro ⟨mark, purge, gas⟩
      obtain rfl : l = (s.tube k).header.purgeLine := by
        rw [line?_eq.mpr mark] at named; exact (Option.some.inj named).symm
      exact ⟨⟨rfl, purge⟩, gas⟩

theorem bypassLine_none (queued : ∀ l, ¬ IsBypass s k d v l) : bypassLine (s.tube k) d v = none := by
  unfold bypassLine
  cases named : d.line? with
  | none => rfl
  | some l => exact if_neg fun below => queued l ⟨line?_eq.mp named, below⟩

theorem bypassLine_some {l : Line} (bypass : IsBypass s k d v l) : bypassLine (s.tube k) d v = some l := by
  unfold bypassLine
  rw [line?_eq.mpr bypass.1]
  exact if_pos bypass.2

/-- `OwnedLine` reads the tube and the Binding Table. -/
theorem ownedLine_met : OwnedLine s.met k d ↔ OwnedLine s k d := by
  unfold OwnedLine; rw [met_tube, met_binding]

theorem isBypass_met {l : Line} : IsBypass s.met k d v l ↔ IsBypass s k d v l := by
  unfold IsBypass; rw [met_tube]

/-- Settles O25: acceptance's tests in their order. -/
theorem shapedWriteIsRefusedInOrder : Obligations.ShapedWriteIsRefusedInOrder := by
  intro s c p v d reaches acc queued r cases_
  have decided : s.met.accept acc p d = s.met.refuseTube acc p r := by
    have free : ¬ OwnedLine s p.tube d → s.met.owned p.tube d = false := fun h =>
      Bool.eq_false_iff.mpr fun c => h (ownedLine_met.mp (owned_iff.mp c))
    have inside : InRange d v → inLimits d acc.value = true := inLimits_iff.mpr
    have passes : queued → bypassLine (s.met.tube p.tube) d acc.value = none := fun h =>
      bypassLine_none fun l b => h l (isBypass_met.mp b)
    unfold State.accept
    rcases cases_ with ⟨owned, rfl⟩ | ⟨owned, range, rfl⟩ | ⟨owned, range, offLine, idle, rfl⟩
      | ⟨owned, range, offLine, works, ⟨l, mark⟩, reactive, lapsed, rfl⟩
    · rw [owned_iff.mpr (ownedLine_met.mpr owned)]; rfl
    · have outside : inLimits d acc.value = false := Bool.eq_false_iff.mpr fun c => range (inLimits_iff.mp c)
      simp only [free owned, outside, Bool.false_eq_true, if_false, Bool.not_false, if_true]
    · have aborted : s.met.queuedRefusal p.tube d = some .aborted := by
        unfold State.queuedRefusal; rw [met_tube, idle]; rfl
      simp only [free owned, inside range, passes offLine, aborted, Bool.false_eq_true, if_false, Bool.not_true]
    · have inhibited : s.met.queuedRefusal p.tube d = some .inhibited := by
        unfold State.queuedRefusal
        rw [met_tube, works, line?_eq.mpr mark, reactive, met_monitor, lapsed]; rfl
      simp only [free owned, inside range, passes offLine, inhibited, Bool.false_eq_true, if_false, Bool.not_true]
  refine ⟨_, shaped_exec reaches, ?_⟩
  rw [decided]
  exact refused_tube s acc p r

/-! ## The MANUAL path (R68) -/

/-- R68: a write through a MANUAL descriptor that reaches the MANUAL path. -/
theorem manual_exec (kind : d.kind = some .zone ∨ d.kind = some .line ∨ d.kind = some .boat) (manual : d.manual = true)
    (dispatches : Dispatches s (placeAccess s c .write p v) p d) : exec (.manualWrite c p v) s
      = .next (s.advance.finish (s.met.manual (placeAccess s c .write p v) p d)) := by
  show Host.Outcome.next (s.takeAccess _ _) = _
  rw [takeAccess_of_dispatches dispatches]
  show Host.Outcome.next (s.advance.finish (s.met.dispatchWrite _ p d)) = _
  unfold State.dispatchWrite
  rcases kind with kind | kind | kind <;> rw [kind] <;> simp only [manual, if_true]

/-- R70: an increase that adds draw does not fit beside a waiting exhaust claim or beyond the free units. -/
theorem manualFits_false {added : Nat} (adds : 0 < added)
    (full : (∃ c ∈ s.budget.claims, c.pool = .exhaust) ∨ s.freeUnits < added) : s.manualFits added = false := by
  have nonzero : (added == 0) = false := beq_false_of_ne (by omega)
  unfold State.manualFits
  rw [nonzero, Bool.false_or]
  rcases full with ⟨claim, waits, exhaust⟩ | short
  · have some_ : s.noExhaustClaim = false := by
      unfold State.noExhaustClaim
      exact List.all_eq_false.mpr ⟨claim, waits, by rw [exhaust]; decide⟩
    rw [some_, Bool.false_and]
  · rw [decide_eq_false (by omega), Bool.and_false]

theorem met_freeUnits (s : State) : s.met.freeUnits = s.freeUnits := by
  obtain ⟨_, _, _, same⟩ := met_eq s
  rw [same]; rfl

/-- Settles O31: the MANUAL path's tests in their order. -/
theorem manualWriteIsRefusedInOrder : Obligations.ManualWriteIsRefusedInOrder := by
  intro s c p v d manual kind acc dispatches r cases_
  have decided : s.met.manual acc p d = s.met.refuseTube acc p r := by
    unfold State.manual
    rcases cases_ with ⟨denied, rfl⟩ | ⟨service, aborted, range, rfl⟩
      | ⟨service, aborted, range, rfl, l, mark, above, adds, full⟩
    · exact if_pos (by rw [met_tube]; exact denied)
    · have allowed : ¬ (acc.class_ = .operator ∨ (s.met.tube p.tube).mode ≠ .aborted) := by
        rw [met_tube, show acc.class_ = .service from service, aborted]; decide
      have outside : inLimits d acc.value = false := Bool.eq_false_iff.mpr fun c => range (inLimits_iff.mp c)
      rw [if_neg allowed, outside]; rfl
    · have allowed : ¬ (acc.class_ = .operator ∨ (s.met.tube p.tube).mode ≠ .aborted) := by
        rw [met_tube, show acc.class_ = .service from service, aborted]; decide
      have inside : inLimits d acc.value = true := inLimits_iff.mpr range
      have line : s.met.lineRec p.tube l = (s.tube p.tube).gas.lines.get l := by rw [State.lineRec, met_tube]
      rw [if_neg allowed, inside, mark]
      show s.met.manualLine acc p d l = _
      unfold State.manualLine
      rw [line]
      have short := manualFits_false (s := s.met) adds (by rw [met_budget, met_freeUnits]; exact full)
      exact (if_neg (Nat.not_le.mpr above)).trans (if_neg (Bool.eq_false_iff.mp short))
  refine ⟨_, manual_exec kind manual dispatches, ?_⟩
  rw [decided]
  exact refused_tube s acc p r

/-! ## Tube commands (R56, R58 to R61, R63) -/

/-- The access of a tube command. -/
abbrev commandAccess (s : State) (c : AccessClass) (k : Tube) (ch : Six) (v : Word) : Access :=
  placeAccess s c .write ⟨k, ch, 0⟩ v

section
variable {ch : Six}

/-- R56: a command that reaches Tube Control. -/
theorem command_taken (reaches : CommandReaches s c k ch v) : s.takeAccess (commandAccess s c k ch v) s.straps
    = s.advance.finish (s.met.tubeCommand (commandAccess s c k ch v) ⟨k, ch, 0⟩) := by
  obtain ⟨d, kind, dispatches⟩ := reaches
  rw [takeAccess_of_dispatches dispatches]
  show s.advance.finish (s.met.dispatchWrite _ _ d) = _
  unfold State.dispatchWrite
  rw [kind]

end

/-- Settles O36. -/
theorem abortCommandHandsOverARequest : Obligations.AbortCommandHandsOverARequest := by
  intro s c k ch reaches
  refine ⟨_, congrArg Host.Outcome.next (command_taken reaches), ?_⟩
  have event : Local k s.met (s.met.commandAbort (commandAccess s c k ch 4) ⟨k, ch, 0⟩) :=
    (Local.requestAbort k s.met _).trans (.ack _)
  obtain ⟨after, own, kept⟩ := dispatched_idle event fun _ => rfl
  exact ⟨after.port, after.abort.trans (congrArg (fun a : AbortControl => { a with
    requests := a.requests ++ [(⟨k, .command, some ch, ch.setWidth 16, wordOf (AccessClass.code c)⟩ : AbortRequest)] })
    (met_abort s)), own, kept⟩

/-- Settles O34, by the tube's mode. -/
theorem holdStopsRampAndBoat : Obligations.HoldStopsRampAndBoat := by
  intro s c k ch reaches x
  refine ⟨_, congrArg Host.Outcome.next (command_taken reaches), ?_⟩
  have decided : s.met.tubeCommand (commandAccess s c k ch 2) ⟨k, ch, 0⟩
      = s.met.commandHold (commandAccess s c k ch 2) ⟨k, ch, 0⟩ := rfl
  rw [decided]
  have mode_ : (s.met.tube k).mode = x.mode := by rw [met_tube]
  unfold State.commandHold
  cases mode : x.mode with
  | run =>
    rw [mode] at mode_
    simp only [mode_]
    have event : Local k s.met (s.met.modTube k TubeState.pause).ack := (Local.modTube k s.met _).trans (.ack _)
    have own : (s.met.modTube k TubeState.pause).ack.tube k = x.pause := by
      refine (tube_modTube_eq s.met k TubeState.pause).trans ?_
      rw [met_tube]
    have after := dispatched_still event (fun j other => tube_setTube_ne _ _ other) (by
      rw [own]; exact .inr (.inl nofun))
    exact ⟨dispatched_kept event, fun _ => ⟨after.port, (after.tube k).trans own⟩, nofun, nofun⟩
  | hold =>
    rw [mode] at mode_
    simp only [mode_]
    obtain ⟨after, own, kept⟩ := dispatched_idle (k := k) (Local.ack s.met) fun _ => rfl
    exact ⟨dispatched_kept (Local.ack _), nofun, fun _ => ⟨after.port, own⟩, nofun⟩
  | aborting =>
    rw [mode] at mode_
    simp only [mode_]
    obtain ⟨refused, kept⟩ := refused_tube s (commandAccess s c k ch 2) ⟨k, ch, 0⟩ .state
    exact ⟨kept, nofun, nofun, fun _ => refused⟩
  | aborted =>
    rw [mode] at mode_
    simp only [mode_]
    obtain ⟨refused, kept⟩ := refused_tube s (commandAccess s c k ch 2) ⟨k, ch, 0⟩ .state
    exact ⟨kept, nofun, nofun, fun _ => refused⟩

/-- R40: a RESUME in RUN of a tube with no held write, or in another mode, is followed by no examination. -/
theorem resumed_still {f : TubeState → TubeState} (queue : (f (s.tube k)).queue = (s.tube k).queue)
    (empty : (s.tube k).queue = []) :
    Still (s.met.modTube k f).ack (s.advance.finish (s.met.modTube k f).ack)
      ∧ (s.advance.finish (s.met.modTube k f).ack).tube k = f (s.tube k) := by
  have event : Local k s.met (s.met.modTube k f).ack := (Local.modTube k s.met _).trans (.ack _)
  have own : (s.met.modTube k f).ack.tube k = f (s.tube k) :=
    (tube_modTube_eq s.met k f).trans (congrArg f (met_tube s k))
  have after := dispatched_still event (fun j other => tube_setTube_ne _ _ other)
    (.inl (by rw [own, queue, empty]))
  exact ⟨after, (after.tube k).trans own⟩

/-- What a RESUME that releases the head keeps. -/
theorem resumed_kept {f : TubeState → TubeState} :
    (s.advance.finish (s.met.modTube k f).ack).port = ⟨.idle, .acknowledge⟩
      ∧ TubeShift false True (f (s.tube k)) ((s.advance.finish (s.met.modTube k f).ack).tube k)
      ∧ Elsewhere (some k) s (s.advance.finish (s.met.modTube k f).ack) := by
  have event : Local k s.met (s.met.modTube k f).ack := (Local.modTube k s.met _).trans (.ack _)
  have own : (s.met.modTube k f).ack.tube k = f (s.tube k) :=
    (tube_modTube_eq s.met k f).trans (congrArg f (met_tube s k))
  have after := Finished.finish s.advance (s.met.modTube k f).ack
  exact ⟨after.port, own ▸ after.tubes k, dispatched_kept event⟩

/-- Settles O35, by the tube's mode. -/
theorem resumeRestartsTheTube : Obligations.ResumeRestartsTheTube := by
  intro s c k ch reaches x acc
  refine ⟨_, congrArg Host.Outcome.next (command_taken reaches), ?_⟩
  have decided : s.met.tubeCommand acc ⟨k, ch, 0⟩ = s.met.commandResume acc ⟨k, ch, 0⟩ := rfl
  rw [decided]
  have mode_ : (s.met.tube k).mode = x.mode := by rw [met_tube]
  unfold State.commandResume
  cases mode : x.mode with
  | run =>
    rw [mode] at mode_
    simp only [mode_]
    obtain ⟨after, own, kept⟩ := dispatched_idle (k := k) (Local.ack s.met) fun _ => rfl
    exact ⟨dispatched_kept (Local.ack _), fun _ => ⟨after.port, own⟩, nofun, nofun, nofun, nofun, nofun, nofun⟩
  | hold =>
    rw [mode] at mode_
    simp only [mode_]
    obtain ⟨port, shift, kept⟩ := resumed_kept (s := s) (k := k) (f := TubeState.unpause)
    refine ⟨kept, nofun, fun _ => ⟨port, shift.mode⟩, fun _ empty => ?_, nofun, nofun, nofun, nofun⟩
    exact (resumed_still rfl empty).2
  | aborting =>
    rw [mode] at mode_
    simp only [mode_]
    obtain ⟨refused, kept⟩ := refused_tube s acc ⟨k, ch, 0⟩ .state
    exact ⟨kept, nofun, nofun, nofun, fun _ => refused, nofun, nofun, nofun⟩
  | aborted =>
    rw [mode] at mode_
    simp only [mode_]
    cases latch : s.abort.latch with
    | true =>
      rw [if_pos ((congrArg AbortControl.latch (met_abort s)).trans latch)]
      obtain ⟨refused, kept⟩ := refused_tube s acc ⟨k, ch, 0⟩ .tripped
      exact ⟨kept, nofun, nofun, nofun, nofun, fun _ _ => refused, fun _ => nofun, fun _ => nofun⟩
    | false =>
      rw [if_neg (Bool.eq_false_iff.mp ((congrArg AbortControl.latch (met_abort s)).trans latch))]
      obtain ⟨port, shift, kept⟩ := resumed_kept (s := s) (k := k) (f := TubeState.recover)
      refine ⟨kept, nofun, nofun, nofun, nofun, fun _ => nofun, fun _ _ => ⟨port, shift.mode, shift.abortCause⟩,
        fun _ _ empty => ?_⟩
      have own : (s.advance.finish (s.met.modTube k TubeState.recover).ack).tube k = x.recover := (resumed_still rfl empty).2
      rw [own]
      refine ⟨fun held cause => ?_, fun free => ?_, fun stalled => ?_, fun rests => ?_⟩
      · have ramp : x.recover.ramp = Ramp.settle { x.ramp with
            zones := x.ramp.zones.map fun z => { z with target := z.delivered } } x.header.settlePeriod :=
          if_pos ⟨held, cause⟩
        rw [ramp]
        exact ⟨rfl, rfl, rfl, fun z => Five.get_map _ _ _⟩
      · exact if_neg fun both => by rw [both.1] at free; rcases free with free | free <;> cases free
      · have boat : x.recover.boat = { x.boat.rest x.header.inThreshold with stall := 0 } := if_pos stalled
        rw [boat]
        exact ⟨rfl, rfl⟩
      · exact if_neg fun stalled => by rw [stalled] at rests; cases rests

/-! ## Reads with an effect (R65, R66) -/

/-- R64: a read of TUBE word `n` that leaves the tube's records of R40. -/
theorem tubeRead_taken {ch n : Six} (reaches : TubeReadReaches s c k ch n) :
    s.takeAccess (placeAccess s c .read ⟨k, ch, n⟩ 0) s.straps = s.advance.finish (s.met.tubeRead ⟨k, ch, n⟩) := by
  obtain ⟨d, kind, dispatches⟩ := reaches
  rw [takeAccess_of_dispatches dispatches]
  show s.advance.finish (s.met.dispatchRead _ _ d) = _
  unfold State.dispatchRead
  rw [kind]

/-- The answer, the tube and the rest after a read of a TUBE word. -/
theorem tubeRead_leaves {ch n : Six} (reaches : TubeReadReaches s c k ch n) :
    (s.takeAccess (placeAccess s c .read ⟨k, ch, n⟩ 0) s.straps).port
        = ⟨.idle, .data ((s.tube k).readWord n.toNat).1⟩
      ∧ (s.takeAccess (placeAccess s c .read ⟨k, ch, n⟩ 0) s.straps).tube k = ((s.tube k).readWord n.toNat).2
      ∧ Elsewhere (some k) s (s.takeAccess (placeAccess s c .read ⟨k, ch, n⟩ 0) s.straps) := by
  rw [tubeRead_taken reaches]
  have still : Still (s.met.tubeRead ⟨k, ch, n⟩) (s.advance.finish (s.met.tubeRead ⟨k, ch, n⟩)) :=
    Still.finish (noneDue_tubeRead (Local.replacement k s.advance _).acts (fun _ => rfl) _)
  have own : (s.met.tubeRead ⟨k, ch, n⟩).tube k = ((s.met.tube k).readWord n.toNat).2 := tube_setTube_self _ _ _
  have port : (s.met.tubeRead ⟨k, ch, n⟩).port = ⟨.idle, .data ((s.met.tube k).readWord n.toNat).1⟩ := rfl
  rw [met_tube] at own port
  exact ⟨still.port.trans port, (still.tube k).trans own, dispatched_kept (Local.tubeRead _ ⟨k, ch, n⟩)⟩

/-- Settles O39. -/
theorem summaryAndLatchReads : Obligations.SummaryAndLatchReads := by
  refine ⟨fun s c k ch reaches => ⟨_, rfl, tubeRead_leaves reaches⟩, fun s c k ch reaches => ?_,
    fun s c k ch reaches => ?_⟩
  · intro x
    refine ⟨_, rfl, ?_⟩
    obtain ⟨port, own, kept⟩ := tubeRead_leaves reaches
    rw [show (s.tube k).readWord _ = x.readLow from rfl] at port own
    refine ⟨kept, fun free => ?_, fun held => ?_⟩
    · have low : x.readLow = (Long.low x.gas.accumulator, { x with latchHeld := true, latchValue := x.gas.accumulator }) :=
        if_neg (Bool.eq_false_iff.mp free)
      rw [low] at port own
      exact ⟨port, own⟩
    · have low : x.readLow = (Long.low x.latchValue, x) := if_pos held
      rw [low] at port own
      exact ⟨port, own⟩
  · intro x
    refine ⟨_, rfl, ?_⟩
    obtain ⟨port, own, kept⟩ := tubeRead_leaves reaches
    rw [show (s.tube k).readWord _ = x.readHigh from rfl] at port own
    refine ⟨kept, fun free => ?_, fun held => ?_⟩
    · have high : x.readHigh = (Long.high x.gas.accumulator, x) := if_neg (Bool.eq_false_iff.mp free)
      rw [high] at port own
      exact ⟨port, own⟩
    · have high : x.readHigh = (Long.high x.latchValue, { x with latchHeld := false }) := if_pos held
      rw [high] at port own
      exact ⟨port, own⟩

end Sys2Proof.Machine

/-! Flushes (R46, R63): what a flush leaves of its tube and of the others, and FLUSH. -/

namespace Sys2Proof.Machine

variable {s u w : State} {k : Tube} {c : AccessClass} {o : FlushOrigin}

/-- R46: the notice of an entry flushed from position `n`. -/
def flushedNotice (k : Tube) (o : FlushOrigin) (n : Nat) (e : HeldEntry) : Notice :=
  notice .flushed (some k) (some e.channel) o.code e.ticket e.value (wordOf n)

theorem placeFlushed_tubes (k : Tube) (o : FlushOrigin) : ∀ (n : Nat) (q : List HeldEntry) (s : State),
    (placeFlushed k o n q s).tubes = s.tubes
  | _, [], _ => rfl
  | n, _ :: q, s => placeFlushed_tubes k o (n + 1) q (s.place _)

theorem placeFlushed_port (k : Tube) (o : FlushOrigin) : ∀ (n : Nat) (q : List HeldEntry) (s : State),
    (placeFlushed k o n q s).port = s.port
  | _, [], _ => rfl
  | n, _ :: q, s => placeFlushed_port k o (n + 1) q (s.place _)

/-- R46: each notice for which the buffer has room stands there, stamped. -/
theorem placeFlushed_mem {e : HeldEntry} : ∀ {q : List HeldEntry} {i n : Nat} {s : State}, q[n]? = some e →
    s.notices.buffer.length + n < 8 →
    { flushedNotice k o (i + n) e with clock := s.clock } ∈ (placeFlushed k o i q s).notices.buffer
  | [], _, _, _, at_, _ => nomatch at_
  | f :: q, i, 0, s, at_, room => by
    obtain rfl : f = e := Option.some.inj at_
    obtain ⟨l, later⟩ := (Local.placeFlushed (k := k) o (i + 1) q (s.place (flushedNotice k o i f))).buffer
    show _ ∈ (placeFlushed k o (i + 1) q (s.place (flushedNotice k o i f))).notices.buffer
    rw [later, buffer_place room]
    exact List.mem_append_left _ (List.mem_append_right _ (List.mem_singleton.mpr rfl))
  | f :: q, i, n + 1, s, at_, room => by
    have longer : (s.place (flushedNotice k o i f)).notices.buffer.length = s.notices.buffer.length + 1 := by
      rw [buffer_place (by omega), List.length_append, List.length_singleton]
    have placed := placeFlushed_mem (i := i + 1) (s := s.place (flushedNotice k o i f)) (n := n)
      (show q[n]? = some e from at_) (by omega)
    rw [show i + (n + 1) = i + 1 + n by omega]
    exact placed

/-- R46: the withdrawal of a CLAIMING head, before the entries are removed. -/
def State.unclaimed (s : State) (k : Tube) : State :=
  match (s.tube k).queue with
  | [] => s
  | e :: _ => if e.state = EntryState.claiming then s.withdraw State.rescan (Claim.ofHead k) else s

theorem flush_eq (s : State) (k : Tube) (o : FlushOrigin) : s.flush k o
    = placeFlushed k o 0 ((s.unclaimed k).tube k).queue ((s.unclaimed k).modTube k fun x => { x with queue := [] }) := rfl

theorem unclaimed_shift (s : State) (k : Tube) : Shift none True s (s.unclaimed k) := by
  unfold State.unclaimed
  split
  · exact .refl _ _
  · split
    · exact .withdraw .rescan _ _
    · exact .refl _ _

/-- R46: a queue with no CLAIMING head is flushed with no withdrawal. -/
theorem unclaimed_waiting (waiting : ∀ e ∈ (s.tube k).queue, e.state = .waiting) : s.unclaimed k = s := by
  unfold State.unclaimed
  split
  · rfl
  · next e rest queue => exact if_neg (by rw [waiting e (by rw [queue]; exact .head _)]; decide)

/-- R133: without a waiting claim nothing is withdrawn. -/
theorem withdraw_none (which : Claim → Bool) (f : State → State) (none_ : s.budget.claims = []) : s.withdraw f which = s :=
  if_neg (by rw [none_]; exact Bool.noConfusion)

theorem unclaimed_none (none_ : s.budget.claims = []) : s.unclaimed k = s := by
  unfold State.unclaimed
  split
  · rfl
  · split
    · exact withdraw_none _ _ none_
    · rfl

/-- R46: the tube after a flush. -/
theorem flush_tube (s : State) (k : Tube) (o : FlushOrigin) :
    (s.flush k o).tube k = { (s.unclaimed k).tube k with queue := [] } := by
  rw [flush_eq, State.tube, placeFlushed_tubes]
  exact tube_modTube_eq (s.unclaimed k) k fun x => { x with queue := [] }

theorem flush_others (s : State) (o : FlushOrigin) {j : Tube} (other : j ≠ k) :
    (s.flush k o).tube j = (s.unclaimed k).tube j := by
  rw [flush_eq, State.tube, placeFlushed_tubes]
  exact tube_setTube_ne _ _ other

/-- Settles O38. -/
theorem flushAndUnknownCommands : Obligations.FlushAndUnknownCommands := by
  refine ⟨fun s c k ch reaches => ?_, fun s c k ch v unknown reaches => ?_⟩
  · intro x
    refine ⟨_, congrArg Host.Outcome.next (command_taken reaches), ?_⟩
    have decided : s.met.tubeCommand (commandAccess s c k ch 6) ⟨k, ch, 0⟩
        = s.met.commandFlush (commandAccess s c k ch 6) ⟨k, ch, 0⟩ := rfl
    rw [decided]
    unfold State.commandFlush
    rw [met_tube]
    cases works : x.mode.working with
    | false =>
      rw [if_neg Bool.false_ne_true]
      obtain ⟨refused, kept⟩ := refused_tube s (commandAccess s c k ch 6) ⟨k, ch, 0⟩ .state
      exact ⟨kept, nofun, nofun, fun _ => refused⟩
    | true =>
      rw [if_pos rfl]
      have event : Local k s.met (s.met.flush k .command).ack := (Local.flush s.met .command).trans (.ack _)
      have after := Finished.finish s.advance (s.met.flush k .command).ack
      have own : (s.met.flush k .command).ack.tube k = { (s.met.unclaimed k).tube k with queue := [] } :=
        flush_tube s.met k .command
      have shift := after.tubes k
      rw [own] at shift
      refine ⟨dispatched_kept event, fun _ => ⟨after.port, shift.emptyQueue rfl, ?_⟩, fun _ waiting => ?_, nofun⟩
      · exact shift.mode.trans (((unclaimed_shift s.met k).tubes k).mode.trans (congrArg TubeState.mode (met_tube s k)))
      · have same : s.met.unclaimed k = s.met := unclaimed_waiting (by rw [met_tube]; exact waiting)
        rw [same, met_tube] at own
        have still := dispatched_still event (fun j other => (flush_others s.met .command other).trans (by rw [same]))
          (.inl (by rw [own]))
        refine ⟨(still.tube k).trans own, fun n e at_ room => ?_⟩
        have placed := placeFlushed_mem (k := k) (o := .command) (i := 0)
          (s := s.met.modTube k fun x => { x with queue := [] }) at_ (by
            show s.met.notices.buffer.length + n < 8
            rw [met_buffer]; exact room)
        rw [Nat.zero_add, show State.clock (s.met.modTube k _) = _ from met_clock s] at placed
        rw [still.clock, still.kept, show State.clock _ = _ from event.clock, met_clock]
        rw [show State.notices (s.met.flush k .command).ack = (s.met.flush k .command).notices from rfl, flush_eq, same,
          met_tube]
        exact placed
  · refine ⟨_, congrArg Host.Outcome.next (command_taken reaches), ?_⟩
    have decided : s.met.tubeCommand (commandAccess s c k ch v) ⟨k, ch, 0⟩
        = s.met.refuseTube (commandAccess s c k ch v) ⟨k, ch, 0⟩ .badCommand := by
      have outside : v.toNat = 0 ∨ 6 < v.toNat := unknown.imp_left fun h => by rw [h]; rfl
      unfold State.tubeCommand
      split
      case h_7 => rfl
      all_goals next at_ => exact absurd (show v.toNat = _ from at_) (by omega)
    rw [decided]
    exact refused_tube s (commandAccess s c k ch v) ⟨k, ch, 0⟩ .badCommand

end Sys2Proof.Machine

/-! The Gas Engine's moves of a line and its purge runs (R91, R94, R98, R99): what they leave of their tube, of what is
under way and of the Claim List, where no claim waits and where the tube has no head and no run. -/

namespace Sys2Proof.Machine

variable {s u w : State} {k : Tube} {l : Line} {v : Word} {r : RunStart}

/-! ## A tube's records set -/

theorem modGas_tube (s : State) (k : Tube) (f : Gas → Gas) :
    (s.modGas k f).tube k = { s.tube k with gas := f (s.tube k).gas } := tube_setTube_self _ _ _

theorem modRamp_tube (s : State) (k : Tube) (f : Ramp → Ramp) :
    (s.modRamp k f).tube k = { s.tube k with ramp := f (s.tube k).ramp } := tube_setTube_self _ _ _

theorem modBoat_tube (s : State) (k : Tube) (f : Boat → Boat) :
    (s.modBoat k f).tube k = { s.tube k with boat := f (s.tube k).boat } := tube_setTube_self _ _ _

theorem modSummary_tube (s : State) (k : Tube) (f : Summary → Summary) :
    (s.modSummary k f).tube k = { s.tube k with summary := f (s.tube k).summary } := tube_setTube_self _ _ _

/-! ## Scans -/

/-- R131: with no waiting claim a scan does nothing. -/
theorem rescan_none (none_ : s.budget.claims = []) : s.rescan = s :=
  rescan_no_fit (fun p c front => by have waits := mem_front front; rw [none_] at waits; cases waits)
    (by rw [none_]; nofun)

/-- A tube with no head and no run is left as it is by every release and grant. -/
theorem TubeShift.eq_of_idle {P : Prop} {x y : TubeState} (h : TubeShift false P x y) (queue : x.queue = [])
    (run : x.gas.run = none) : y = x := by
  have stopped := h.untouched rfl queue
  obtain ⟨gas, timer⟩ := (h.gasIdle rfl (.inr queue)).noRun run
  have empty : y.queue = x.queue := (h.emptyQueue queue).trans queue.symm
  obtain ⟨-, ramp, boat, gap, released, summary⟩ := stopped
  have mode := h.mode
  have next := h.nextTicket
  have issued := h.lastIssued
  have held := h.latchHeld
  have value := h.latchValue
  have cause := h.abortCause
  have begin_ := h.abortBegin
  have header := h.header
  cases x
  cases y
  simp only at *
  subst gas timer empty ramp boat gap released summary mode next issued held value cause begin_ header
  rfl

theorem announce_bus (s : State) : s.announce.delivery = s.delivery ∧ s.announce.bus = s.bus := by
  have placed : ∀ (l : List Claim) (v : State), (l.foldl (fun acc c => acc.place (claimWaitNotice acc c)) v).delivery = v.delivery
      ∧ (l.foldl (fun acc c => acc.place (claimWaitNotice acc c)) v).bus = v.bus := by
    intro l
    induction l with
    | nil => exact fun v => ⟨rfl, rfl⟩
    | cons c l ih => exact fun v => ih (v.place (claimWaitNotice v c))
  exact placed _ _

/-! ## A line's flow (R91, R94) -/

/-- The tube with a line's delivered flow set. -/
def TubeState.withFlow (x : TubeState) (l : Line) (v : Word) : TubeState :=
  { x with gas := { x.gas with lines := x.gas.lines.set l { x.gas.lines.get l with flow := v, devCounter := 0 } } }

theorem withFlow_get (x : TubeState) (l : Line) (v : Word) (m : Line) : (x.withFlow l v).gas.lines.get m
    = if m = l then { x.gas.lines.get l with flow := v, devCounter := 0 } else x.gas.lines.get m := Eight.get_set _ _ _ _

theorem setFlow_tube (s : State) (k : Tube) (l : Line) (v : Word) (b : Bool) :
    (s.setFlow k l v b).tube k = (s.tube k).withFlow l v := tube_setTube_self _ _ _

theorem setFlow_others (s : State) (l : Line) (v : Word) (b : Bool) {j : Tube} (other : j ≠ k) :
    (s.setFlow k l v b).tube j = s.tube j := tube_setTube_ne _ _ other

theorem setFlow_underway (s : State) (k : Tube) (l : Line) (v : Word) (u : Bool) (b : Addr) :
    (s.setFlow k l v u).underway b = if b = s.lineAddr k l then some v else s.underway b :=
  underway_deliver (s.modGas k _) (s.lineAddr k l) b v u

theorem lowerLine_none (none_ : s.budget.claims = []) :
    s.lowerLine State.rescan k l v = s.setFlow k l v true := by
  unfold State.lowerLine
  dsimp only
  split
  · exact rescan_none none_
  · rfl

/-- R94: a lowered flow of a tube with no head and no run, whatever the scan grants to others. -/
theorem lowerLine_idle (queue : (s.tube k).queue = []) (run : (s.tube k).gas.run = none) :
    (s.lowerLine State.rescan k l v).tube k = (s.tube k).withFlow l v := by
  have set_ := setFlow_tube s k l v true
  unfold State.lowerLine
  dsimp only
  split
  · have idle := ((Shift.rescan (s.setFlow k l v true)).tubes k).eq_of_idle (by rw [set_]; exact queue)
      (by rw [set_]; exact run)
    exact idle.trans set_
  · exact set_

/-! ## Purge runs (R98, R99) -/

/-- The draw a run's flow needs beyond the purge line's. -/
def RunStart.need (r : RunStart) (x : TubeState) : Nat :=
  drawOf r.flow.toNat (x.gas.lines.get x.header.purgeLine).weight - (x.gas.lines.get x.header.purgeLine).draw

/-- The tube with its run begun. -/
def TubeState.begun (x : TubeState) (r : RunStart) : TubeState :=
  { x with gas := x.gas.beginRun r x.header.purgeLimit }

/-- The tube with its purge line at the run flow. -/
def TubeState.carrying (x : TubeState) (v : Word) : TubeState :=
  { x with gas := (x.withFlow x.header.purgeLine v).gas.flowing x.header.samplePeriod }

/-- What R98 sets and no release or grant changes. -/
structure Begun (r : RunStart) (limit : Nat) (y : TubeState) : Prop where
  atmosphere : y.gas.atmosphere = r.purpose.atmosphere
  accumulator : y.gas.accumulator = 0
  limit : y.gas.limitTimer = some (limit * 1000)
  run : y.gas.run.map Run.core = some ⟨r.purpose, r.flow, r.priority, r.litres * 1000, .claiming, 0, 0⟩

theorem begun_of (x : TubeState) (r : RunStart) : Begun r x.header.purgeLimit (x.begun r) := ⟨rfl, rfl, rfl, rfl⟩

theorem Begun.withFlow {limit : Nat} {y : TubeState} (h : Begun r limit y) (l : Line) (v : Word) :
    Begun r limit (y.withFlow l v) := ⟨h.1, h.2, h.3, h.4⟩

theorem Begun.flowing {limit : Nat} {y : TubeState} (h : Begun r limit y) (period : Nat) :
    Begun r limit { y with gas := y.gas.flowing period } :=
  ⟨h.1, h.2, h.3, by
    rw [← h.4]
    show (y.gas.run.map _).map Run.core = _
    rw [Option.map_map]; rfl⟩

theorem Begun.shift {limit : Nat} {P : Prop} {b : Bool} {y z : TubeState} (h : Begun r limit y) (g : TubeShift b P y z) :
    Begun r limit z := by
  have settled := g.settled (by rw [h.atmosphere]; cases r.purpose <;> rfl)
  exact ⟨settled.atmosphere.trans h.1, settled.accumulator.trans h.2, settled.limit.trans h.3, settled.run.trans h.4⟩

/-- The run record of a begun run, but for its phase. -/
theorem Begun.record {limit : Nat} {y : TubeState} (h : Begun r limit y) :
    ∃ phase, y.gas.run = some ⟨r.purpose, r.flow, r.priority, r.litres * 1000, phase, 0, 0⟩ := by
  obtain ⟨run, runs, core⟩ := Option.map_eq_some_iff.mp h.run
  refine ⟨run.phase, runs.trans (congrArg some ?_)⟩
  cases run
  simp only [Run.core, Run.mk.injEq, true_and] at core ⊢
  exact core

/-- R98: the state with the run begun, before its purge line is set or its claim joins. -/
def State.begun (s : State) (k : Tube) (r : RunStart) : State :=
  s.modGas k fun g => g.beginRun r (s.tube k).header.purgeLimit

theorem begun_tube (s : State) (k : Tube) (r : RunStart) : (s.begun k r).tube k = (s.tube k).begun r :=
  tube_setTube_self _ _ _

theorem begun_others (s : State) (r : RunStart) {j : Tube} (other : j ≠ k) : (s.begun k r).tube j = s.tube j :=
  tube_setTube_ne _ _ other

/-- R98: the run that sets its purge line at once. -/
def State.flowsAtOnce (s : State) (k : Tube) (r : RunStart) : State :=
  let h := (s.tube k).header
  let line := s.lineRec k h.purgeLine
  let set_ := (s.begun k r).setFlow k h.purgeLine r.flow (decide (r.flow.toNat ≤ line.flow.toNat))
  (if drawOf r.flow.toNat line.weight < line.draw then set_.rescan else set_).modGas k fun g => g.flowing h.samplePeriod

/-- R98: the run whose claim joins. -/
def State.joining (s : State) (k : Tube) (r : RunStart) : State :=
  (s.begun k r).joinClaim k .exhaust (r.need (s.tube k)) r.priority r.origin

theorem startRun_eq (s : State) (k : Tube) (r : RunStart) : s.startRun State.rescan k r =
    if drawOf r.flow.toNat (s.lineRec k (s.tube k).header.purgeLine).weight
        ≤ (s.lineRec k (s.tube k).header.purgeLine).draw then s.flowsAtOnce k r
    else (s.joining k r).rescan := rfl

/-- R98: what a run's start leaves of its tube, whatever the scan grants. -/
theorem startRun_begins (s : State) (k : Tube) (r : RunStart) :
    ((s.startRun State.rescan k r).tube k).mode = (s.tube k).mode
      ∧ ((s.startRun State.rescan k r).tube k).header = (s.tube k).header
      ∧ Begun r (s.tube k).header.purgeLimit ((s.startRun State.rescan k r).tube k) := by
  have begun := begun_of (s.tube k) r
  have begunTube := begun_tube s k r
  rw [startRun_eq]
  split
  · have set_ : ∀ b, ((s.begun k r).setFlow k (s.tube k).header.purgeLine r.flow b).tube k
        = ((s.tube k).begun r).withFlow (s.tube k).header.purgeLine r.flow := fun b => by
      rw [setFlow_tube, begunTube]
    have last : ∀ u : State, TubeShift false True (((s.tube k).begun r).withFlow (s.tube k).header.purgeLine r.flow) (u.tube k) →
        ((u.modGas k fun g => g.flowing (s.tube k).header.samplePeriod).tube k).mode = (s.tube k).mode
          ∧ ((u.modGas k fun g => g.flowing (s.tube k).header.samplePeriod).tube k).header = (s.tube k).header
          ∧ Begun r (s.tube k).header.purgeLimit ((u.modGas k fun g => g.flowing (s.tube k).header.samplePeriod).tube k) :=
      fun u shift => by
        rw [modGas_tube]
        exact ⟨shift.mode, shift.header, ((begun.withFlow _ _).shift shift).flowing _⟩
    unfold State.flowsAtOnce
    dsimp only
    split
    · refine last _ ?_
      rw [← set_ (decide (r.flow.toNat ≤ (s.lineRec k (s.tube k).header.purgeLine).flow.toNat))]
      exact (Shift.rescan _).tubes k
    · refine last _ ?_
      rw [set_]
      exact .refl _ _
  · have shift := (Shift.rescan (s.joining k r)).tubes k
    rw [show (s.joining k r).tube k = _ from begunTube] at shift
    exact ⟨shift.mode, shift.header, begun.shift shift⟩

/-- R99: the tube whose run's claim is granted. -/
theorem runGrant_tube {run : Run} (runs : (s.tube k).gas.run = some run) :
    (s.runGrant k).tube k = { (s.tube k).carrying run.flow with abortTimer := none } := by
  unfold State.runGrant
  rw [runs]
  dsimp only
  rw [tube_modTube_eq, modGas_tube, setFlow_tube]
  rfl

theorem runGrant_others (s : State) {j : Tube} (other : j ≠ k) : (s.runGrant k).tube j = s.tube j := by
  unfold State.runGrant
  split
  · rfl
  · exact (tube_setTube_ne _ _ other).trans ((tube_setTube_ne _ _ other).trans (setFlow_others _ _ _ _ other))

theorem runGrant_underway {run : Run} (runs : (s.tube k).gas.run = some run) (b : Addr) : (s.runGrant k).underway b
    = if b = s.lineAddr k (s.tube k).header.purgeLine then some run.flow else s.underway b := by
  unfold State.runGrant
  rw [runs]
  exact setFlow_underway _ _ _ _ _ _

theorem runGrant_notices (s : State) : (s.runGrant k).notices = s.notices := by
  unfold State.runGrant; split <;> rfl

/-- The only claim of a run that joins an empty list. -/
def RunStart.claim (r : RunStart) (s : State) (k : Tube) (fresh : Bool) : Claim :=
  ⟨k, .exhaust, r.need (s.tube k), r.priority, s.budget.joinCounter, r.origin, fresh⟩

theorem joining_claims (none_ : s.budget.claims = []) : (s.joining k r).budget.claims = [r.claim s k true] := by
  show s.budget.claims ++ _ = _
  rw [none_]; rfl

theorem joining_freeUnits (s : State) (k : Tube) (r : RunStart) : (s.joining k r).freeUnits = s.freeUnits := by
  refine freeUnits_same rfl rfl fun j => ?_
  by_cases same : j = k
  · subst same
    rw [show (s.joining j r).tube j = (s.tube j).begun r from begun_tube s j r]
    rfl
  · exact congrArg (fun x : TubeState => x.gas.lines) (begun_others s r same)

/-- What is left where a run's flow stands at once: the tube, the others, the list, the notices and what is under way. -/
structure RunFlows (r : RunStart) (k : Tube) (s t : State) : Prop where
  tube : ∃ timer, t.tube k = { ((s.tube k).begun r).carrying r.flow with abortTimer := timer }
  others : ∀ j, j ≠ k → t.tube j = s.tube j
  claims : t.budget.claims = []
  notices : t.notices = s.notices
  underway : ∀ b, t.underway b = if b = s.lineAddr k (s.tube k).header.purgeLine then some r.flow else s.underway b

/-- R98, R99: with no other claim a run whose flow fits carries it at once. -/
theorem startRun_flows (none_ : s.budget.claims = []) (own : r.origin.isEntry = false)
    (fits : r.need (s.tube k) ≤ s.freeUnits) : RunFlows r k s (s.startRun State.rescan k r) := by
  have begunTube := begun_tube s k r
  rw [startRun_eq]
  split
  · have atOnce : s.flowsAtOnce k r = ((s.begun k r).setFlow k (s.tube k).header.purgeLine r.flow
        (decide (r.flow.toNat ≤ (s.lineRec k (s.tube k).header.purgeLine).flow.toNat))).modGas k
          fun g => g.flowing (s.tube k).header.samplePeriod := by
      unfold State.flowsAtOnce
      dsimp only
      split
      · exact congrArg (fun u : State => u.modGas k fun g => g.flowing (s.tube k).header.samplePeriod) (rescan_none none_)
      · rfl
    rw [atOnce]
    refine ⟨⟨(s.tube k).abortTimer, ?_⟩, fun j other => ?_, none_, rfl, fun b => setFlow_underway _ _ _ _ _ _⟩
    · rw [modGas_tube, setFlow_tube, begunTube]
      rfl
    · exact (tube_setTube_ne _ _ other).trans ((setFlow_others _ _ _ _ other).trans (begun_others _ _ other))
  · have granted : (s.joining k r).grant (r.claim s k true)
        = ((s.joining k r).modBudget fun b => { b with claims := b.claims.erase (r.claim s k true) }).runGrant k := by
      unfold State.grant
      exact if_neg (by rw [show (r.claim s k true).origin = r.origin from rfl, own]; exact Bool.noConfusion)
    have left_ : ((s.joining k r).grant (r.claim s k true)).budget.claims = [] := by
      rw [granted, runGrant_budget]
      show (s.joining k r).budget.claims.erase _ = []
      rw [joining_claims none_, List.erase_cons_head]
    have scanned : (s.joining k r).rescan = (s.joining k r).grant (r.claim s k true) :=
      rescan_one (joining_claims none_) (by
        show r.need (s.tube k) ≤ (s.joining k r).freeUnits
        rw [joining_freeUnits]; exact fits) left_
    have lone : ((s.joining k r).modBudget fun b => { b with claims := b.claims.erase (r.claim s k true) }).tube k
        = (s.tube k).begun r := begunTube
    have runs := congrArg (fun x : TubeState => x.gas.run) lone
    have header := congrArg (fun x : TubeState => x.header) lone
    rw [scanned]
    refine ⟨⟨none, ?_⟩, fun j other => ?_, left_, ?_, fun b => ?_⟩
    · rw [granted, runGrant_tube runs]
      exact congrArg (fun x : TubeState => { x.carrying r.flow with abortTimer := none }) lone
    · rw [granted, runGrant_others _ other]
      exact begun_others _ _ other
    · rw [granted, runGrant_notices]; rfl
    · rw [granted, runGrant_underway runs]
      exact congrArg (fun h : Header => if b = s.lineAddr k h.purgeLine then some r.flow else s.underway b) header

/-- What is left where a run's claim has to wait. -/
structure RunWaiting (r : RunStart) (k : Tube) (s t : State) : Prop where
  tube : t.tube k = (s.tube k).begun r
  others : ∀ j, j ≠ k → t.tube j = s.tube j
  claims : t.budget.claims = [r.claim s k false]
  underway : ∀ b, t.underway b = s.underway b

/-- R98, R135: with no other claim, a run whose flow does not fit waits. -/
theorem startRun_waits (none_ : s.budget.claims = []) (short : s.freeUnits < r.need (s.tube k)) :
    RunWaiting r k s (s.startRun State.rescan k r) := by
  have joins : s.startRun State.rescan k r = (s.joining k r).rescan := by
    rw [startRun_eq]
    exact if_neg fun below => by
      have none_ : r.need (s.tube k) = 0 := Nat.sub_eq_zero_of_le below
      omega
  have scanned : (s.joining k r).rescan = (s.joining k r).announce := by
    unfold State.rescan
    rw [scan_no_fit]
    intro p c front
    rw [front_one (joining_claims none_)] at front
    split at front
    · next pool =>
      cases front
      rw [show p = .exhaust from pool.symm]
      show (s.joining k r).freeUnits < r.need (s.tube k)
      rw [joining_freeUnits]; exact short
    · cases front
  obtain ⟨tubes, -, -, claims, -⟩ := announce_facts (s.joining k r)
  obtain ⟨delivery, bus⟩ := announce_bus (s.joining k r)
  rw [joins, scanned]
  refine ⟨(tubes k).trans (begun_tube s k r), fun j other => (tubes j).trans (begun_others s r other), ?_, fun b => ?_⟩
  · rw [claims, joining_claims none_]; rfl
  · unfold State.underway
    rw [delivery, bus]; rfl

end Sys2Proof.Machine

/-! PURGE and VENT (R57, R62, R95, R98), and the closing of several lines that VENT and an abort share (R95, R105). -/

namespace Sys2Proof.Machine

variable {s u w : State} {k : Tube} {l : Line} {v : Word} {c : AccessClass} {ch : Six} {q : LineRec → Bool}

/-! ## PURGE (R57) -/

theorem purgeAllowed_iff (x : TubeState) : purgeAllowed x = true
    ↔ x.mode.working = true ∧ (x.gas.atmosphere = .air ∨ x.gas.atmosphere = .inert) := by
  simp only [purgeAllowed, Bool.and_eq_true, Bool.or_eq_true, beq_iff_eq]

/-- Settles O33: PURGE is `startRun` with the commanded run. -/
theorem purgeStartsARun : Obligations.PurgeStartsARun := by
  intro s c k ch reaches x line allowed
  refine ⟨_, congrArg Host.Outcome.next (command_taken reaches), ?_⟩
  have decided : s.met.tubeCommand (commandAccess s c k ch 1) ⟨k, ch, 0⟩
      = s.met.commandPurge (commandAccess s c k ch 1) ⟨k, ch, 0⟩ := rfl
  have allows : purgeAllowed (s.met.tube k) = true ↔ allowed := by rw [met_tube]; exact purgeAllowed_iff x
  rw [decided]
  unfold State.commandPurge
  by_cases may : allowed
  · rw [if_pos (allows.mpr may)]
    let r := commandedPurge x.header
    have starts : s.met.takePurge k = s.met.startRun State.rescan k r := by
      unfold State.takePurge; rw [met_tube]
    have event : Local k s.met (s.met.startRun State.rescan k r).ack := (Local.startRun s.met r).trans (.ack _)
    have begins := startRun_begins s.met k r
    rw [met_tube] at begins
    obtain ⟨mode, -, begun⟩ := begins
    show Elsewhere _ _ (s.advance.finish (s.met.takePurge k).ack) ∧ _
    rw [starts]
    have after := Finished.finish s.advance (s.met.startRun State.rescan k r).ack
    have shift := after.tubes k
    have final := begun.shift shift
    have freeUnits := met_freeUnits s
    have idle : x.queue = [] → ∀ {y : TubeState}, (s.met.startRun State.rescan k r).tube k = y → y.queue = x.queue →
        (∀ j, j ≠ k → (s.met.startRun State.rescan k r).tube j = s.met.tube j) →
        Still (s.met.startRun State.rescan k r).ack (s.advance.finish (s.met.startRun State.rescan k r).ack) :=
      fun empty y own queue others => dispatched_still event others (.inl (by
        rw [show (s.met.startRun State.rescan k r).ack.tube k = y from own, queue, empty]))
    refine ⟨dispatched_kept event, fun _ => ⟨after.port, shift.mode.trans mode, final.atmosphere, final.accumulator,
      final.limit, final.record, fun empty none_ fits => ?_, fun empty none_ short => ?_⟩, fun not_ => absurd may not_⟩
    · have flows : RunFlows r k s.met (s.met.startRun State.rescan k r) :=
        startRun_flows ((congrArg Budget.claims (met_budget s)).trans none_) rfl (by
          rw [met_tube, freeUnits]; exact fits)
      obtain ⟨timer, own⟩ := flows.tube
      rw [met_tube] at own
      have still := idle empty own rfl flows.others
      have tube := (still.tube k).trans own
      rw [tube]
      refine ⟨rfl, rfl, ?_, fun ok => ?_⟩
      · exact congrArg LineRec.flow ((withFlow_get (x.begun r) _ _ _).trans (if_pos rfl))
      · have address : s.met.lineAddr k (s.met.tube k).header.purgeLine = s.lineAddr k x.header.purgeLine := by
          rw [met_tube, State.lineAddr, met_binding]; rfl
        have under : ∀ b, (s.advance.finish (s.met.startRun State.rescan k r).ack).underway b
            = if b = s.lineAddr k x.header.purgeLine then some x.header.purgeFlow else s.underway b := fun b => by
          refine (still.underway (event.delivery (met_delivery ok)) b).trans ((flows.underway b).trans ?_)
          rw [address, met_underway ok]
          rfl
        exact ⟨(under _).trans (if_pos rfl), fun b other => (under b).trans (if_neg other)⟩
    · have waits : RunWaiting r k s.met (s.met.startRun State.rescan k r) :=
        startRun_waits ((congrArg Budget.claims (met_budget s)).trans none_) (by rw [met_tube, freeUnits]; exact short)
      have own := waits.tube
      rw [met_tube] at own
      have still := idle empty own rfl waits.others
      have tube := (still.tube k).trans own
      rw [tube]
      refine ⟨rfl, rfl, ?_, fun ok b => ?_⟩
      · rw [still.claims]
        refine Eq.trans waits.claims ?_
        unfold RunStart.claim
        rw [met_tube, met_budget]
        rfl
      · exact (still.underway (event.delivery (met_delivery ok)) b).trans ((waits.underway b).trans (met_underway ok b))
  · rw [if_neg (fun h => may (allows.mp h))]
    obtain ⟨refused, kept⟩ := refused_tube s (commandAccess s c k ch 1) ⟨k, ch, 0⟩ .state
    exact ⟨kept, fun h => absurd h may, fun _ => refused⟩

/-! ## Closing several lines (R95, R105) -/

/-- The open lines among `ls` that `q` names are closed, one after another. -/
def State.closeThose (s : State) (k : Tube) (q : LineRec → Bool) : List Line → State
  | [] => s
  | l :: ls => (if q (s.lineRec k l) && (s.lineRec k l).flow != 0 then s.lowerLine State.rescan k l 0 else s).closeThose k q ls

theorem closeAll_eq (k : Tube) : ∀ (ls : List Line) (s : State), s.closeAll k ls = s.closeThose k LineRec.bound ls
  | [], _ => rfl
  | _ :: ls, _ => closeAll_eq k ls _

theorem closeReactive_eq (k : Tube) :
    ∀ (ls : List Line) (s : State), s.closeReactive k ls = s.closeThose k LineRec.reactive ls
  | [], _ => rfl
  | _ :: ls, _ => closeReactive_eq k ls _

/-- What no scan of a lowered line changes: there is no waiting claim, or the tube has no head and no run. -/
def State.Undisturbed (s : State) (k : Tube) : Prop :=
  s.budget.claims = [] ∨ (s.tube k).queue = [] ∧ (s.tube k).gas.run = none

theorem lowerLine_tube (calm : s.Undisturbed k) (l : Line) (v : Word) :
    (s.lowerLine State.rescan k l v).tube k = (s.tube k).withFlow l v := by
  rcases calm with none_ | ⟨queue, run⟩
  · rw [lowerLine_none none_, setFlow_tube]
  · exact lowerLine_idle queue run

theorem lowerLine_undisturbed (calm : s.Undisturbed k) (l : Line) (v : Word) :
    (s.lowerLine State.rescan k l v).Undisturbed k := by
  rcases calm with none_ | ⟨queue, run⟩
  · exact .inl (by rw [lowerLine_none none_]; exact none_)
  · refine .inr ?_
    rw [lowerLine_idle queue run]
    exact ⟨queue, run⟩

theorem Eight.ext_get {α : Type} {a b : Eight α} (h : ∀ i, a.get i = b.get i) : a = b := by
  obtain ⟨a0, a1, a2, a3, a4, a5, a6, a7⟩ := a
  obtain ⟨b0, b1, b2, b3, b4, b5, b6, b7⟩ := b
  have e0 : a0 = b0 := h .i0
  have e1 : a1 = b1 := h .i1
  have e2 : a2 = b2 := h .i2
  have e3 : a3 = b3 := h .i3
  have e4 : a4 = b4 := h .i4
  have e5 : a5 = b5 := h .i5
  have e6 : a6 = b6 := h .i6
  have e7 : a7 = b7 := h .i7
  rw [e0, e1, e2, e3, e4, e5, e6, e7]

/-- Two gas records with the same lines and the same rest. -/
theorem Gas.eq_of_lines {g h : Gas} (lines : g.lines = h.lines) (rest : { g with lines := h.lines } = h) : g = h := by
  rw [← lines] at rest
  exact rest

/-- A line closed. -/
def LineRec.shut (r : LineRec) : LineRec := { r with flow := 0, devCounter := 0 }

/-- The lines among `ls` that `q` names, closed. -/
def Gas.shut (g : Gas) (q : LineRec → Bool) (ls : List Line) : Gas :=
  { g with lines := Eight.ofFn fun l =>
      if l ∈ ls ∧ (q (g.lines.get l) && (g.lines.get l).flow != 0) = true then (g.lines.get l).shut else g.lines.get l }

theorem shut_get (g : Gas) (q : LineRec → Bool) (ls : List Line) (l : Line) : (g.shut q ls).lines.get l
    = if l ∈ ls ∧ (q (g.lines.get l) && (g.lines.get l).flow != 0) = true then (g.lines.get l).shut else g.lines.get l :=
  Eight.get_ofFn _ _

/-- Closing a line leaves it closed, whatever follows. -/
theorem shut_cons (g : Gas) (q : LineRec → Bool) (l : Line) (ls : List Line) :
    g.shut q (l :: ls) = (if q (g.lines.get l) && (g.lines.get l).flow != 0 then
      { g with lines := g.lines.set l (g.lines.get l).shut } else g).shut q ls := by
  refine Gas.eq_of_lines ?_ (by split <;> rfl)
  · refine Eight.ext_get fun m => ?_
    rw [shut_get, shut_get]
    by_cases open_ : (q (g.lines.get l) && (g.lines.get l).flow != 0) = true
    · rw [if_pos open_]
      show _ = if m ∈ ls ∧ (q ((g.lines.set l (g.lines.get l).shut).get m)
        && ((g.lines.set l (g.lines.get l).shut).get m).flow != 0) = true then
          ((g.lines.set l (g.lines.get l).shut).get m).shut else (g.lines.set l (g.lines.get l).shut).get m
      rw [Eight.get_set]
      by_cases same : m = l
      · subst same
        rw [if_pos rfl, if_pos ⟨.head _, open_⟩, if_neg]
        rintro ⟨-, still⟩
        simp [LineRec.shut] at still
      · rw [if_neg same]
        simp only [List.mem_cons, same, false_or]
    · rw [if_neg open_]
      by_cases same : m = l
      · subst same
        rw [if_neg (fun h => open_ h.2), if_neg (fun h => open_ h.2)]
      · simp only [List.mem_cons, same, false_or]

theorem shut_nil (g : Gas) (q : LineRec → Bool) : g.shut q [] = g := by
  refine Gas.eq_of_lines (Eight.ext_get fun m => ?_) rfl
  rw [shut_get, if_neg (fun h => List.not_mem_nil h.1)]

/-- R95, R105: the tube after several closes. -/
theorem closeThose_tube : ∀ (ls : List Line) {s : State}, s.Undisturbed k →
    (s.closeThose k q ls).tube k = { s.tube k with gas := (s.tube k).gas.shut q ls }
  | [], s, _ => by rw [shut_nil]; rfl
  | l :: ls, s, calm => by
    rw [shut_cons]
    unfold State.closeThose
    by_cases open_ : (q (s.lineRec k l) && (s.lineRec k l).flow != 0) = true
    · have open' : (q ((s.tube k).gas.lines.get l) && ((s.tube k).gas.lines.get l).flow != 0) = true := open_
      rw [if_pos open_, if_pos open', closeThose_tube ls (lowerLine_undisturbed calm l 0), lowerLine_tube calm]
      rfl
    · have open' : ¬ (q ((s.tube k).gas.lines.get l) && ((s.tube k).gas.lines.get l).flow != 0) = true := open_
      rw [if_neg open_, if_neg open', closeThose_tube ls calm]

theorem Local.closeThose : ∀ (ls : List Line) (s : State), Local k s (s.closeThose k q ls)
  | [], s => .refl k s
  | l :: ls, s => by
    unfold State.closeThose
    refine Local.trans ?_ (Local.closeThose ls _)
    split
    · exact .lowerLine _ _ _
    · exact .refl _ _

theorem closeThose_mode : ∀ (ls : List Line) (s : State), ((s.closeThose k q ls).tube k).mode = (s.tube k).mode
  | [], _ => rfl
  | l :: ls, s => by
    unfold State.closeThose
    refine (closeThose_mode ls _).trans ?_
    split
    · have set_ : ((s.setFlow k l 0 true).tube k).mode = (s.tube k).mode := by rw [setFlow_tube]; rfl
      unfold State.lowerLine
      dsimp only
      split
      · exact ((Shift.rescan (s.setFlow k l 0 true)).tubes k).mode.trans set_
      · exact set_
    · rfl

/-- What several closes leave beyond their tube, with no waiting claim. -/
structure ClosesQuietly (k : Tube) (s t : State) : Prop where
  others : ∀ j, j ≠ k → t.tube j = s.tube j
  budget : t.budget = s.budget
  notices : t.notices = s.notices
  binding : t.binding = s.binding

theorem closeThose_quiet : ∀ (ls : List Line) {s : State}, s.budget.claims = [] → ClosesQuietly k s (s.closeThose k q ls)
  | [], s, _ => ⟨fun _ _ => rfl, rfl, rfl, rfl⟩
  | l :: ls, s, none_ => by
    unfold State.closeThose
    split
    · rw [lowerLine_none none_]
      obtain ⟨others, budget, notices, binding⟩ := closeThose_quiet ls (s := s.setFlow k l 0 true) none_
      exact ⟨fun j other => (others j other).trans (setFlow_others _ _ _ _ other), budget, notices, binding⟩
    · exact closeThose_quiet ls none_

/-- R95: the line is open and named. -/
def State.closes (s : State) (k : Tube) (q : LineRec → Bool) (l : Line) : Prop :=
  q ((s.tube k).gas.lines.get l) = true ∧ ((s.tube k).gas.lines.get l).flow ≠ 0

theorem closes_iff : (q (s.lineRec k l) && (s.lineRec k l).flow != 0) = true ↔ s.closes k q l := by
  simp only [State.closes, State.lineRec, Bool.and_eq_true, bne_iff_ne]

theorem closes_setFlow {m : Line} (h : (s.setFlow k l 0 true).closes k q m) : s.closes k q m := by
  unfold State.closes at *
  rw [setFlow_tube] at h
  obtain ⟨named, flow⟩ := h
  rw [TubeState.withFlow] at named flow
  dsimp only at named flow
  rw [Eight.get_set] at named flow
  by_cases same : m = l
  · rw [if_pos same] at flow; exact absurd rfl flow
  · rw [if_neg same] at named flow; exact ⟨named, flow⟩

theorem closes_setFlow_other {m : Line} (other : m ≠ l) (h : s.closes k q m) : (s.setFlow k l 0 true).closes k q m := by
  unfold State.closes at *
  rw [setFlow_tube, TubeState.withFlow]
  dsimp only
  rw [Eight.get_set, if_neg other]
  exact h

/-- R95, R105: with no waiting claim each closed line's 0 is under way, and nothing else is changed. -/
theorem closeThose_underway : ∀ (ls : List Line) {s : State}, s.budget.claims = [] →
    (∀ l ∈ ls, s.closes k q l → (s.closeThose k q ls).underway (s.lineAddr k l) = some 0)
      ∧ ∀ b, (∀ l ∈ ls, s.closes k q l → b ≠ s.lineAddr k l) → (s.closeThose k q ls).underway b = s.underway b
  | [], _, _ => ⟨nofun, fun _ _ => rfl⟩
  | l :: ls, s, none_ => by
    unfold State.closeThose
    by_cases open_ : s.closes k q l
    · rw [if_pos (closes_iff.mpr open_), lowerLine_none none_]
      obtain ⟨zero, same⟩ := closeThose_underway ls (s := s.setFlow k l 0 true) none_
      have address : ∀ m, (s.setFlow k l 0 true).lineAddr k m = s.lineAddr k m := fun _ => rfl
      have closed : ∀ b, b = s.lineAddr k l → ((s.setFlow k l 0 true).closeThose k q ls).underway b = some 0 := fun b at_ => by
        by_cases again : ∃ m ∈ ls, (s.setFlow k l 0 true).closes k q m ∧ b = s.lineAddr k m
        · obtain ⟨m, listed, named, there⟩ := again
          rw [there]; exact zero m listed named
        · rw [same b (fun m listed named there => again ⟨m, listed, named, there⟩), setFlow_underway, if_pos at_]
      refine ⟨fun m listed named => ?_, fun b off => ?_⟩
      · by_cases there : m = l
        · exact closed _ (by rw [there])
        · rcases List.mem_cons.mp listed with head | tail
          · exact absurd head there
          · exact zero m tail (closes_setFlow_other there named)
      · rw [same b (fun m listed named => off m (.tail _ listed) (closes_setFlow named)), setFlow_underway,
          if_neg (off l (.head _) open_)]
    · rw [if_neg (fun h => open_ (closes_iff.mp h))]
      obtain ⟨zero, same⟩ := closeThose_underway ls none_
      refine ⟨fun m listed named => ?_, fun b off => same b fun m listed => off m (.tail _ listed)⟩
      rcases List.mem_cons.mp listed with head | tail
      · exact absurd (head ▸ named) open_
      · exact zero m tail named

/-! ## VENT (R62, R95) -/

theorem ventAllowed_iff (x : TubeState) : ventAllowed x = true
    ↔ x.mode.working = true ∧ x.gas.atmosphere = .inert ∧ x.boat.state = .outPos := by
  simp only [ventAllowed, Bool.and_eq_true, beq_iff_eq, and_assoc]

/-- R95: the gas a VENT leaves. -/
theorem shut_vented (g : Gas) : (g.shut LineRec.bound Ix8.all).vented = { g with
    atmosphere := .air
    lines := g.lines.map fun l => { l with flow := if l.bound then 0 else l.flow, devCounter := 0 } } := by
  have lines : (g.shut LineRec.bound Ix8.all).lines.map (fun l => { l with devCounter := 0 })
      = g.lines.map fun l => { l with flow := if l.bound then 0 else l.flow, devCounter := 0 } := by
    refine Eight.ext_get fun l => ?_
    rw [Eight.get_map, Eight.get_map, shut_get]
    by_cases open_ : ((g.lines.get l).bound && (g.lines.get l).flow != 0) = true
    · rw [if_pos ⟨Ix8.mem_all l, open_⟩, if_pos (Bool.and_eq_true _ _ |>.mp open_).1]
      rfl
    · rw [if_neg (fun h => open_ h.2)]
      cases bound : (g.lines.get l).bound with
      | false => rfl
      | true =>
        have closed : (g.lines.get l).flow = 0 := by simpa [bound] using open_
        rw [if_pos rfl, closed]
  unfold Gas.vented
  rw [lines]
  rfl

/-- Settles O37: VENT is `closeThose` with the bound lines. -/
theorem ventClosesEveryLine : Obligations.VentClosesEveryLine := by
  intro s c k ch reaches x allowed
  refine ⟨_, congrArg Host.Outcome.next (command_taken reaches), ?_⟩
  have decided : s.met.tubeCommand (commandAccess s c k ch 5) ⟨k, ch, 0⟩
      = s.met.commandVent (commandAccess s c k ch 5) ⟨k, ch, 0⟩ := rfl
  have allows : ventAllowed (s.met.tube k) = true ↔ allowed := by rw [met_tube]; exact ventAllowed_iff x
  rw [decided]
  unfold State.commandVent
  by_cases may : allowed
  · rw [if_pos (allows.mpr may)]
    let f := s.met.closeThose k LineRec.bound Ix8.all
    have vents : s.met.takeVent k = f.modGas k Gas.vented := by unfold State.takeVent; rw [closeAll_eq]
    have closing : Local k s.met f := Local.closeThose _ _
    have event : Local k s.met (f.modGas k Gas.vented).ack := (closing.trans (.modGas _ _ _)).trans (.ack _)
    show Elsewhere _ _ (s.advance.finish (s.met.takeVent k).ack) ∧ _
    rw [vents]
    have after := Finished.finish s.advance (f.modGas k Gas.vented).ack
    have own : (f.modGas k Gas.vented).ack.tube k = { f.tube k with gas := (f.tube k).gas.vented } := modGas_tube _ _ _
    have shift := after.tubes k
    rw [own] at shift
    have idle : x.queue = [] → x.gas.run = none →
        (s.advance.finish (f.modGas k Gas.vented).ack).tube k = { x with gas := (x.gas.shut LineRec.bound Ix8.all).vented } :=
      fun queue run => by
        have shut : f.tube k = _ := closeThose_tube (q := LineRec.bound) Ix8.all (s := s.met)
          (.inr (by rw [met_tube]; exact ⟨queue, run⟩))
        rw [met_tube] at shut
        rw [shut] at shift
        exact shift.eq_of_idle queue run
    refine ⟨dispatched_kept event, fun _ => ⟨after.port, shift.mode.trans ?_⟩, fun _ queue run => ?_,
      fun _ queue run none_ ok => ?_, fun not_ => absurd may not_⟩
    · exact (closeThose_mode (q := LineRec.bound) Ix8.all s.met).trans (congrArg TubeState.mode (met_tube s k))
    · rw [idle queue run]
      exact ⟨shut_vented _, rfl, rfl⟩
    · intro closed
      have none_' : s.met.budget.claims = [] := (congrArg Budget.claims (met_budget s)).trans none_
      have quiet := closeThose_quiet (k := k) (q := LineRec.bound) Ix8.all none_'
      have shut : f.tube k = _ := closeThose_tube (q := LineRec.bound) Ix8.all (s := s.met) (.inl none_')
      rw [met_tube] at shut
      have still := dispatched_still event (fun j other => (tube_setTube_ne _ _ other).trans (quiet.others j other))
        (.inl (by rw [own, shut]; exact queue))
      have under : ∀ b, (s.advance.finish (f.modGas k Gas.vented).ack).underway b = f.underway b :=
        still.underway (event.delivery (met_delivery ok))
      obtain ⟨zero, same⟩ := closeThose_underway (k := k) (q := LineRec.bound) Ix8.all none_'
      have names : ∀ l, s.met.closes k LineRec.bound l ↔ closed l := fun l => by
        unfold State.closes; rw [met_tube]
      have address : ∀ l, s.met.lineAddr k l = s.lineAddr k l := fun l => by rw [State.lineAddr, met_binding]; rfl
      refine ⟨fun l open_ => ?_, fun b off => ?_⟩
      · rw [under, ← address]
        exact zero l (Ix8.mem_all l) ((names l).mpr open_)
      · rw [under, ← met_underway ok]
        exact same b fun l _ open_ => by rw [address]; exact off l ((names l).mp open_)
  · rw [if_neg (fun h => may (allows.mp h))]
    obtain ⟨refused, kept⟩ := refused_tube s (commandAccess s c k ch 5) ⟨k, ch, 0⟩ .state
    exact ⟨kept, fun h => absurd h may, fun h => absurd h may, fun h => absurd h may, fun _ => refused⟩

end Sys2Proof.Machine

/-! The MANUAL path (R69 to R71). -/

namespace Sys2Proof.Machine

variable {s u w : State} {k : Tube} {l : Line} {z : Zone} {v : Word}

theorem ack_tube (w : State) (k : Tube) : w.ack.tube k = w.tube k := rfl

/-! ## What a MANUAL write sets -/

theorem setZone_tube (s : State) (k : Tube) (z : Zone) (v : Word) : (s.setZone k z v).tube k = { s.tube k with
    ramp := { (s.tube k).ramp with
      zones := (s.tube k).ramp.zones.set z { (s.tube k).ramp.zones.get z with delivered := v } } } :=
  tube_setTube_self _ _ _

theorem setZone_others (s : State) (z : Zone) (v : Word) {j : Tube} (other : j ≠ k) :
    (s.setZone k z v).tube j = s.tube j := tube_setTube_ne _ _ other

theorem setZone_underway (s : State) (k : Tube) (z : Zone) (v : Word) (b : Addr) :
    (s.setZone k z v).underway b = if b = s.zoneAddr k z then some v else s.underway b :=
  underway_deliver (s.modRamp k _) (s.zoneAddr k z) b v false

/-- R69: the zones a MANUAL zone write leaves. -/
def manualZones (zones : Five ZoneRec) (z : Zone) (v : Word) : Five ZoneRec :=
  let aimed := zones.set z { zones.get z with target := v }
  aimed.set z { aimed.get z with delivered := v }

theorem manualZones_get (zones : Five ZoneRec) (z : Zone) (v : Word) :
    (manualZones zones z v).get z = { zones.get z with target := v, delivered := v } := by
  unfold manualZones
  rw [Five.get_set, if_pos rfl, Five.get_set, if_pos rfl]

theorem manualZone_tube (s : State) (k : Tube) (z : Zone) (v : Word) : (s.manualZone k z v).tube k = { s.tube k with
    ramp := Ramp.afterManual { (s.tube k).ramp with zones := manualZones (s.tube k).ramp.zones z v }
      (s.tube k).header.settlePeriod } := by
  unfold State.manualZone
  dsimp only
  rw [modRamp_tube, setZone_tube, modRamp_tube]
  rfl

theorem manualZone_others (s : State) (z : Zone) (v : Word) {j : Tube} (other : j ≠ k) :
    (s.manualZone k z v).tube j = s.tube j :=
  (tube_setTube_ne _ _ other).trans ((setZone_others _ _ _ other).trans (tube_setTube_ne _ _ other))

theorem manualZone_underway (s : State) (k : Tube) (z : Zone) (v : Word) (b : Addr) :
    (s.manualZone k z v).underway b = if b = s.zoneAddr k z then some v else s.underway b :=
  setZone_underway (s.modRamp k _) k z v b

theorem afterManual_zones (r : Ramp) (n : Nat) : (r.afterManual n).zones = r.zones := by
  unfold Ramp.afterManual; split <;> rfl

theorem afterManual_thermal (r : Ramp) (n : Nat) : (r.afterManual n).thermal
    = if r.thermal = .stable then .settling else r.thermal := by
  unfold Ramp.afterManual
  split <;> next thermal => rw [thermal]; rfl

theorem afterManual_settling {r : Ramp} {n : Nat} (rests : r.thermal = .settling ∨ r.thermal = .stable) :
    (r.afterManual n).settleTimer = some n ∧ (r.afterManual n).retry = 0 := by
  unfold Ramp.afterManual
  rcases rests with thermal | thermal <;> rw [thermal] <;> exact ⟨rfl, rfl⟩

/-- R71: the boat a MANUAL boat write leaves. -/
def manualBoatOf (b : Boat) (inThreshold : Nat) (v : Word) : Boat :=
  { b with
    target := v, delivered := v, state := positionState inThreshold v, direction := .none
    motionTimer := none, stall := 0 }

theorem manualBoat_tube (s : State) (k : Tube) (v : Word) : (s.manualBoat k v).tube k
    = { s.tube k with boat := manualBoatOf (s.tube k).boat (s.tube k).header.inThreshold v } := tube_setTube_self _ _ _

theorem manualBoat_others (s : State) (v : Word) {j : Tube} (other : j ≠ k) :
    (s.manualBoat k v).tube j = s.tube j := tube_setTube_ne _ _ other

theorem manualBoat_underway (s : State) (k : Tube) (v : Word) (b : Addr) :
    (s.manualBoat k v).underway b = if b = (s.binding.get k).boat.addr then some v else s.underway b :=
  underway_deliver (s.modBoat k _) _ b v false

/-- R70: with no waiting claim a MANUAL line write that is not refused sets the line's flow. -/
theorem manualLine_none {acc : Access} {p : Place} {d : DescWords} (none_ : s.budget.claims = []) :
    s.manualLine acc p d l = s.refuseTube acc p .budget
      ∨ ∃ flow urgent, s.manualLine acc p d l = (s.setFlow p.tube l flow urgent).ack := by
  unfold State.manualLine
  dsimp only
  split
  · exact .inr ⟨_, _, by rw [lowerLine_none none_]⟩
  · split
    · refine .inr ?_
      unfold State.raiseLine
      dsimp only
      split
      · exact ⟨_, _, congrArg State.ack (rescan_none none_)⟩
      · exact ⟨_, _, rfl⟩
    · exact .inl rfl

/-- R70, R92: one whose draw fits sets the value written. -/
theorem manualLine_fits {acc : Access} {p : Place} {d : DescWords} (none_ : s.budget.claims = [])
    (weight : d.weight = ((s.tube p.tube).gas.lines.get l).weight)
    (fits : acc.value.toNat ≤ ((s.tube p.tube).gas.lines.get l).flow.toNat
      ∨ addedDraw acc.value.toNat ((s.tube p.tube).gas.lines.get l).flow.toNat d.weight ≤ s.freeUnits) :
    ∃ urgent, s.manualLine acc p d l = (s.setFlow p.tube l acc.value urgent).ack := by
  unfold State.manualLine
  dsimp only
  split
  · exact ⟨_, by rw [lowerLine_none none_]⟩
  · next above =>
    have room : s.manualFits (addedDraw acc.value.toNat (s.lineRec p.tube l).flow.toNat d.weight) = true := by
      have free : s.noExhaustClaim = true := by unfold State.noExhaustClaim; rw [none_]; rfl
      unfold State.manualFits
      rw [free, Bool.true_and]
      exact Bool.or_eq_true_iff.mpr (.inr (decide_eq_true (fits.resolve_left above)))
    have settled : settledFlow acc.value (s.lineRec p.tube l).flow
        (addedDraw acc.value.toNat (s.lineRec p.tube l).flow.toNat d.weight) (s.lineRec p.tube l).weight = acc.value :=
      if_pos (Nat.le_of_eq (by rw [show (s.lineRec p.tube l).weight = d.weight from weight.symm]))
    rw [if_pos room]
    unfold State.raiseLine
    dsimp only
    rw [settled]
    split
    · exact ⟨_, congrArg State.ack (rescan_none none_)⟩
    · exact ⟨_, rfl⟩

/-- What a dispatched access leaves of a tube that stays ABORTED. -/
structure Applied (s : State) (k : Tube) (w t : State) : Prop where
  kept : Elsewhere (some k) s t
  tube : t.tube k = w.tube k
  port : t.port = w.port
  underway : DeliveryOk s.delivery → ∀ b, t.underway b = w.underway b

theorem applied_of (event : Local k s.met w) (others : ∀ j, j ≠ k → w.tube j = s.met.tube j)
    (mode : (w.tube k).mode = .aborted) : Applied s k w (s.advance.finish w) := by
  have still := dispatched_still event others (.inr (.inl (by rw [mode]; exact Mode.noConfusion)))
  exact ⟨dispatched_kept event, still.tube k, still.port, fun ok => still.underway (event.delivery (met_delivery ok))⟩

/-- R68: a write in service to an ABORTED tube, its value in range, is applied by what its descriptor names. -/
theorem manual_taken {p : Place} {d : DescWords} (aborted : (s.tube p.tube).mode = .aborted) (range : InRange d v) :
    s.met.manual (placeAccess s .service .write p v) p d = match d.mark with
      | .zone z => (s.met.manualZone p.tube z v).ack
      | .line l => s.met.manualLine (placeAccess s .service .write p v) p d l
      | .boat => (s.met.manualBoat p.tube v).ack
      | .none => s.met.ack := by
  have allowed : ¬ ((placeAccess s .service .write p v).class_ = .operator ∨ (s.met.tube p.tube).mode ≠ .aborted) := by
    rw [met_tube, aborted]
    rintro (operator | mode)
    · cases operator
    · exact mode rfl
  have inside : inLimits d (placeAccess s .service .write p v).value = true := inLimits_iff.mpr range
  unfold State.manual
  rw [if_neg allowed, inside]
  cases d.mark <;> rfl

/-- Settles O32, by what the descriptor names. -/
theorem manualWriteIsApplied : Obligations.ManualWriteIsApplied := by
  intro s p v d manual kind dispatches aborted range ok none_ x
  refine ⟨_, manual_exec kind manual dispatches, ?_⟩
  have none_' : s.met.budget.claims = [] := (congrArg Budget.claims (met_budget s)).trans none_
  have taken := manual_taken (s := s) (p := p) (d := d) aborted range
  have event : Local p.tube s.met (s.met.manual (placeAccess s .service .write p v) p d) := .manual _ _ p d
  have same : s.met.tube p.tube = x := met_tube s p.tube
  rw [taken] at event ⊢
  cases mark : d.mark with
  | zone z =>
    simp only [mark] at event ⊢
    have own := manualZone_tube s.met p.tube z v
    rw [same] at own
    obtain ⟨kept, tube, port, under⟩ := applied_of event (fun j => manualZone_others s.met z v)
      ((congrArg TubeState.mode own).trans aborted)
    rw [tube, ack_tube, own, port]
    refine ⟨rfl, rfl, rfl, kept, fun y at_ => ?_, nofun, nofun⟩
    cases at_
    have address : s.met.zoneAddr p.tube z = s.zoneAddr p.tube z := by rw [State.zoneAddr, met_binding]; rfl
    have moved : ∀ b, _ = if b = s.zoneAddr p.tube z then some v else s.underway b := fun b => by
      refine (under ok b).trans ((manualZone_underway s.met p.tube z v b).trans ?_)
      rw [address, met_underway ok]
    refine ⟨rfl, ?_, afterManual_thermal _ _, fun rests => (afterManual_settling (r := { x.ramp with zones := manualZones x.ramp.zones z v }) rests).1,
      fun settling => (afterManual_settling (r := { x.ramp with zones := manualZones x.ramp.zones z v }) (.inl settling)).2,
      rfl, rfl, (moved _).trans (if_pos rfl),
      fun b other => (moved b).trans (if_neg other)⟩
    rw [show Ramp.zones _ = manualZones x.ramp.zones z v from afterManual_zones _ _]
    exact manualZones_get _ _ _
  | line l =>
    simp only [mark] at event ⊢
    by_cases fits : d.weight = (x.gas.lines.get l).weight ∧ (v.toNat ≤ (x.gas.lines.get l).flow.toNat
        ∨ addedDraw v.toNat (x.gas.lines.get l).flow.toNat d.weight ≤ s.freeUnits)
    · obtain ⟨urgent, set_⟩ : ∃ urgent, _ = (s.met.setFlow p.tube l v urgent).ack :=
        manualLine_fits (acc := placeAccess s .service .write p v) (l := l) none_'
        (by rw [same]; exact fits.1) (by rw [same, met_freeUnits]; exact fits.2)
      rw [set_] at event ⊢
      have own := setFlow_tube s.met p.tube l v urgent
      rw [same] at own
      obtain ⟨kept, tube, port, under⟩ := applied_of event (fun j => setFlow_others s.met l v urgent)
        ((congrArg TubeState.mode own).trans aborted)
      rw [tube, ack_tube, own, port]
      refine ⟨rfl, rfl, rfl, kept, nofun, nofun, fun m at_ _ _ _ => ?_⟩
      cases at_
      have address : s.met.lineAddr p.tube l = s.lineAddr p.tube l := by rw [State.lineAddr, met_binding]; rfl
      have moved : ∀ b, _ = if b = s.lineAddr p.tube l then some v else s.underway b := fun b => by
        refine (under ok b).trans ((setFlow_underway s.met p.tube l v urgent b).trans ?_)
        rw [address, met_underway ok]
      exact ⟨rfl, rfl, rfl, rfl, (moved _).trans (if_pos rfl), fun b other => (moved b).trans (if_neg other)⟩
    · have given : ∀ m, Mark.line l = .line m → d.weight = (x.gas.lines.get m).weight →
          (v.toNat ≤ (x.gas.lines.get m).flow.toNat
            ∨ addedDraw v.toNat (x.gas.lines.get m).flow.toNat d.weight ≤ s.freeUnits) → False := by
        rintro m ⟨⟩ weight room
        exact fits ⟨weight, room⟩
      rcases manualLine_none (acc := placeAccess s .service .write p v) (d := d) (p := p) (l := l) none_' with
        refused | ⟨flow, urgent, set_⟩
      · rw [refused] at event ⊢
        have own := refuseTube_tube s.met (placeAccess s .service .write p v) p .budget
        rw [same] at own
        obtain ⟨kept, tube, port, under⟩ := applied_of event (fun j => refuseTube_others s.met _ p _)
          ((congrArg TubeState.mode own).trans aborted)
        rw [tube, own]
        exact ⟨rfl, rfl, rfl, kept, nofun, nofun, fun m at_ _ weight room => (given m at_ weight room).elim⟩
      · rw [set_] at event ⊢
        have own := setFlow_tube s.met p.tube l flow urgent
        rw [same] at own
        obtain ⟨kept, tube, port, under⟩ := applied_of event (fun j => setFlow_others s.met l flow urgent)
          ((congrArg TubeState.mode own).trans aborted)
        rw [tube, ack_tube, own]
        exact ⟨rfl, rfl, rfl, kept, nofun, nofun, fun m at_ _ weight room => (given m at_ weight room).elim⟩
  | boat =>
    simp only [mark] at event ⊢
    have own := manualBoat_tube s.met p.tube v
    rw [same] at own
    obtain ⟨kept, tube, port, under⟩ := applied_of event (fun j => manualBoat_others s.met v)
      ((congrArg TubeState.mode own).trans aborted)
    rw [tube, ack_tube, own, port]
    refine ⟨rfl, rfl, rfl, kept, nofun, fun _ => ?_, nofun⟩
    have moved : ∀ b, _ = if b = (s.binding.get p.tube).boat.addr then some v else s.underway b := fun b => by
      refine (under ok b).trans ((manualBoat_underway s.met p.tube v b).trans ?_)
      rw [met_binding, met_underway ok]
    exact ⟨rfl, rfl, rfl, rfl, (moved _).trans (if_pos rfl), fun b other => (moved b).trans (if_neg other)⟩
  | none =>
    simp only [mark] at event ⊢
    obtain ⟨kept, tube, port, under⟩ := applied_of event (fun _ _ => rfl)
      ((congrArg TubeState.mode same).trans aborted)
    rw [tube, ack_tube, same]
    exact ⟨rfl, rfl, rfl, kept, nofun, nofun, nofun⟩

end Sys2Proof.Machine

/-! The bypass path (R30, R31, R94). -/

namespace Sys2Proof.Machine

variable {s u w : State} {k : Tube} {l : Line} {v : Word} {p : Place}

/-! ## What the parts of a bypass keep -/

/-- The tickets of tube `k`, the absence of held entries of line `l`, and an empty queue with its last release. -/
structure Passes (l : Line) (k : Tube) (s t : State) : Prop where
  nextTicket : (t.tube k).nextTicket = (s.tube k).nextTicket
  lastIssued : (t.tube k).lastIssued = (s.tube k).lastIssued
  offLine : (∀ e ∈ (s.tube k).queue, HeldEntry.forLine l e = false) → ∀ e ∈ (t.tube k).queue, HeldEntry.forLine l e = false
  empty : (s.tube k).queue = [] → (t.tube k).queue = [] ∧ (t.tube k).lastReleased = (s.tube k).lastReleased

theorem Passes.refl (s : State) : Passes l k s s := ⟨rfl, rfl, id, fun h => ⟨h, rfl⟩⟩

theorem Passes.trans (h : Passes l k s u) (g : Passes l k u w) : Passes l k s w where
  nextTicket := g.nextTicket.trans h.nextTicket
  lastIssued := g.lastIssued.trans h.lastIssued
  offLine := fun off => g.offLine (h.offLine off)
  empty := fun none_ => by
    obtain ⟨a, b⟩ := h.empty none_
    obtain ⟨c, d⟩ := g.empty a
    exact ⟨c, d.trans b⟩

theorem TubeShift.passes {P : Prop} (h : TubeShift false P (s.tube k) (u.tube k)) : Passes l k s u :=
  ⟨h.nextTicket, h.lastIssued, h.noLine, fun none_ => ⟨h.emptyQueue none_, (h.untouched rfl none_).released⟩⟩

theorem Shift.passes (h : Shift none True s u) : Passes l k s u := (h.tubes k).passes

theorem Passes.setTube {x : TubeState} (next : x.nextTicket = (s.tube k).nextTicket)
    (issued : x.lastIssued = (s.tube k).lastIssued) (queue : x.queue = (s.tube k).queue)
    (released : x.lastReleased = (s.tube k).lastReleased) : Passes l k s (s.setTube k x) := by
  refine ⟨?_, ?_, ?_, ?_⟩ <;> rw [tube_setTube_self]
  · exact next
  · exact issued
  · rw [queue]; exact id
  · rw [queue]; exact fun none_ => ⟨none_, released⟩

theorem Passes.congr (h : Passes l k s u) (same : w.tube k = u.tube k) : Passes l k s w := by
  obtain ⟨next, issued, off, empty⟩ := h
  exact ⟨by rw [same]; exact next, by rw [same]; exact issued, by rw [same]; exact off, by rw [same]; exact empty⟩

theorem Passes.setFlow (s : State) (m : Line) (v : Word) (b : Bool) : Passes l k s (s.setFlow k m v b) :=
  (Passes.setTube (s := s) (x := (s.tube k).withFlow m v) rfl rfl rfl rfl).congr rfl

theorem Passes.lowerLine (s : State) (m : Line) (v : Word) : Passes l k s (s.lowerLine State.rescan k m v) := by
  unfold State.lowerLine
  dsimp only
  split
  · exact (Passes.setFlow s m v true).trans (Shift.rescan _).passes
  · exact .setFlow s m v true

theorem Passes.startRun (s : State) (r : RunStart) : Passes l k s (s.startRun State.rescan k r) := by
  have begun : Passes l k s (s.begun k r) := .setTube rfl rfl rfl rfl
  rw [startRun_eq]
  split
  · unfold State.flowsAtOnce
    dsimp only
    refine Passes.trans ?_ (Passes.setTube rfl rfl rfl rfl)
    split
    · exact (begun.trans (.setFlow _ _ _ _)).trans (Shift.rescan _).passes
    · exact begun.trans (.setFlow _ _ _ _)
  · exact Passes.trans (u := s.joining k r) (begun.congr rfl) (Shift.rescan _).passes

theorem Passes.clearingTest (s : State) (m : Line) (v : Word) : Passes l k s (s.clearingTest State.rescan k m v) := by
  unfold State.clearingTest
  split
  · exact .startRun s _
  · exact .refl s

theorem foldl_place_tubes {α : Type} (f : α → Notice) : ∀ (es : List α) (s : State),
    (es.foldl (fun acc e => acc.place (f e)) s).tubes = s.tubes
  | [], _ => rfl
  | _ :: es, s => foldl_place_tubes f es (s.place _)

/-- R31: what a supersede removes. -/
theorem supersede_passes (s : State) (k : Tube) (l : Line) (n : Word) :
    ((s.supersede k (HeldEntry.forLine l) .bypass n).tube k).nextTicket = (s.tube k).nextTicket
      ∧ ((s.supersede k (HeldEntry.forLine l) .bypass n).tube k).lastIssued = (s.tube k).lastIssued
      ∧ ∀ e ∈ ((s.supersede k (HeldEntry.forLine l) .bypass n).tube k).queue, HeldEntry.forLine l e = false := by
  let f := ((s.tube k).queue.filter (HeldEntry.forLine l)).foldl (fun acc e => acc.place (supersededNotice k e .bypass n))
    (s.modTube k fun x => { x with queue := x.queue.filter fun e => !HeldEntry.forLine l e })
  have own : f.tube k = { s.tube k with queue := (s.tube k).queue.filter fun e => !HeldEntry.forLine l e } := by
    unfold State.tube
    rw [foldl_place_tubes]
    exact tube_modTube_eq s k fun x => { x with queue := x.queue.filter fun e => !HeldEntry.forLine l e }
  have off : ∀ e ∈ (f.tube k).queue, HeldEntry.forLine l e = false := by
    rw [own]
    intro e held
    simpa using (List.mem_filter.mp held).2
  have passes : Passes l k f (s.supersede k (HeldEntry.forLine l) .bypass n) := by
    unfold State.supersede
    dsimp only
    split
    · exact (Shift.withdraw Shift.rescan _ _).passes
    · exact .refl _
  exact ⟨passes.nextTicket.trans (by rw [own]), passes.lastIssued.trans (by rw [own]), passes.offLine off⟩

/-- R31: an empty queue has nothing to supersede. -/
theorem supersede_empty (which : HeldEntry → Bool) (way : Way) (n : Word) (empty : (s.tube k).queue = []) :
    s.supersede k which way n = s := by
  have same : { s.tube k with queue := (s.tube k).queue.filter fun e => !which e } = s.tube k := by
    rw [empty, List.filter_nil, ← empty]
  rw [supersede_none (by rw [empty]; nofun)]
  refine (congrArg (s.setTube k) same).trans ?_
  exact congrArg (fun tubes => { s with tubes := tubes }) (tubes_set_self s k)

/-! ## A bypass -/

/-- R31: the release of a bypass write, with its notice, before the clearing test and the examination. -/
def State.bypassed (s : State) (p : Place) (l : Line) (n v : Word) : State :=
  (((s.supersede p.tube (HeldEntry.forLine l) .bypass n).lowerLine State.rescan p.tube l v).place
    (releasedNotice p.tube p.channel .bypass n v s.clock)).modTube p.tube fun x => { x with lastReleased := n }

theorem bypass_eq (s : State) (p : Place) (l : Line) (n v : Word) :
    s.bypass p l n v = ((s.bypassed p l n v).clearingTest State.rescan p.tube l v).examine p.tube := rfl

/-- R31, R94: a bypass of an empty queue, with no waiting claim. -/
theorem bypassed_none {n : Word} (empty : (s.tube p.tube).queue = []) (none_ : s.budget.claims = []) : s.bypassed p l n v
    = ((s.setFlow p.tube l v true).place (releasedNotice p.tube p.channel .bypass n v s.clock)).modTube p.tube
      fun x => { x with lastReleased := n } := by
  unfold State.bypassed
  rw [supersede_empty _ _ _ empty, lowerLine_none none_]

theorem bypassed_underway {n : Word} (empty : (s.tube p.tube).queue = []) (none_ : s.budget.claims = []) (a : Addr) :
    (s.bypassed p l n v).underway a = if a = s.lineAddr p.tube l then some v else s.underway a := by
  rw [bypassed_none empty none_]
  exact setFlow_underway s p.tube l v true a

theorem bypassed_others {n : Word} (empty : (s.tube p.tube).queue = []) (none_ : s.budget.claims = []) {j : Tube}
    (other : j ≠ p.tube) : (s.bypassed p l n v).tube j = s.tube j := by
  rw [bypassed_none empty none_]
  exact (tube_setTube_ne _ _ other).trans (setFlow_others s l v true other)

/-- R26, R30: a bypass write in range is given its ticket and released. -/
theorem accept_bypass {acc : Access} {d : DescWords} (owned : ¬ OwnedLine s p.tube d) (range : InRange d acc.value)
    (bypass : IsBypass s p.tube d acc.value l) :
    s.accept acc p d = ((s.takeTicket p.tube).bypass p l (s.tube p.tube).nextTicket acc.value).ack := by
  have free : s.owned p.tube d = false := Bool.eq_false_iff.mpr fun c => owned (owned_iff.mp c)
  unfold State.accept
  simp only [free, inLimits_iff.mpr range, bypassLine_some bypass, Bool.false_eq_true, if_false, Bool.not_true]

/-- The clearing test after a flow was set (R94, R103). -/
theorem clearingTest_iff (x : TubeState) (l : Line) (v : Word) :
    (((x.withFlow l v).gas.lines.get l).reactive && v == 0 && (x.withFlow l v).gas.atmosphere == .process
        && (x.withFlow l v).gas.reactiveClosed) = true
      ↔ (x.gas.lines.get l).reactive = true ∧ v = 0 ∧ x.gas.atmosphere = .process
        ∧ ∀ m, m ≠ l → (x.gas.lines.get m).reactive = true → (x.gas.lines.get m).flow = 0 := by
  have closed : v = 0 → ((x.withFlow l v).gas.reactiveClosed = true
      ↔ ∀ m, m ≠ l → (x.gas.lines.get m).reactive = true → (x.gas.lines.get m).flow = 0) := by
    rintro rfl
    unfold Gas.reactiveClosed
    rw [List.all_eq_true]
    constructor
    · intro all m other reactive
      have shut := all _ (Eight.mem_toList.mpr ⟨m, rfl⟩)
      rw [withFlow_get, if_neg other, reactive] at shut
      simpa using shut
    · rintro rest r listed
      obtain ⟨m, rfl⟩ := Eight.mem_toList.mp listed
      rw [withFlow_get]
      by_cases same : m = l
      · rw [if_pos same]
        simp
      · rw [if_neg same]
        cases reactive : (x.gas.lines.get m).reactive with
        | false => rfl
        | true => simp [rest m same reactive]
  rw [withFlow_get, if_pos rfl]
  simp only [Bool.and_eq_true, beq_iff_eq, and_assoc]
  refine and_congr_right fun _ => and_congr_right fun zero => and_congr_right fun _ => closed zero

/-- Settles O26. -/
theorem bypassWriteIsDeliveredAtOnce : Obligations.BypassWriteIsDeliveredAtOnce := by
  intro s c p v d l reaches owned range bypass ok x closes
  refine ⟨_, shaped_exec reaches, ?_⟩
  let f := s.met.takeTicket p.tube
  have decided : s.met.accept (placeAccess s c .write p v) p d = (f.bypass p l x.nextTicket v).ack := by
    rw [accept_bypass (fun h => owned (ownedLine_met.mp h)) range (isBypass_met.mpr bypass), met_tube]
    rfl
  have ticketed : f.tube p.tube = { x with lastIssued := x.nextTicket, nextTicket := x.nextTicket + 1 } := by
    show (State.modTube _ _ _).tube _ = _
    rw [tube_modTube_eq, met_tube]
  have event : Local p.tube s.met (f.bypass p l x.nextTicket v).ack :=
    ((Local.takeTicket s.met).trans (.bypass f p l _ v)).trans (.ack _)
  rw [decided]
  have after := Finished.finish s.advance (f.bypass p l x.nextTicket v).ack
  obtain ⟨next, issued, off⟩ := supersede_passes f p.tube l x.nextTicket
  rw [ticketed] at next issued
  let g := f.supersede p.tube (HeldEntry.forLine l) .bypass x.nextTicket
  let b := f.bypassed p l x.nextTicket v
  have lowered : Passes l p.tube g (g.lowerLine State.rescan p.tube l v) := .lowerLine g l v
  have released : b.tube p.tube
      = { (g.lowerLine State.rescan p.tube l v).tube p.tube with lastReleased := x.nextTicket } := tube_modTube_eq _ _ _
  have rest : Passes l p.tube b (s.advance.finish (f.bypass p l x.nextTicket v).ack) :=
    (((Passes.clearingTest b l v).trans (Shift.examine _ p.tube).passes).congr (w := (f.bypass p l x.nextTicket v).ack) rfl).trans
      (after.tubes p.tube).passes
  refine ⟨after.port, ?_, ?_, dispatched_kept event, ?_, fun queue => ?_, fun queue none_ => ?_, fun queue run closing => ?_,
    fun queue run none_ open_ => ?_⟩
  · rw [rest.nextTicket, released]
    exact lowered.nextTicket.trans next
  · rw [rest.lastIssued, released]
    exact lowered.lastIssued.trans issued
  · exact rest.offLine (by rw [released]; exact lowered.offLine off)
  · have empty : (g.tube p.tube).queue = [] := by
      rw [show g = f from supersede_empty _ _ _ (by rw [ticketed]; exact queue), ticketed]; exact queue
    rw [(rest.empty (by rw [released]; exact (lowered.empty empty).1)).2, released]
  · have alone : g = f := supersede_empty _ _ _ (by rw [ticketed]; exact queue)
    have none_' : f.budget.claims = [] := (congrArg Budget.claims (met_budget s)).trans none_
    have stamped : releasedNotice p.tube p.channel .bypass x.nextTicket v f.clock
        = releasedNotice p.tube p.channel .bypass x.nextTicket v s.clock :=
      congrArg (releasedNotice p.tube p.channel .bypass x.nextTicket v) (met_clock s)
    have last : Local p.tube ((g.lowerLine State.rescan p.tube l v).place
        (releasedNotice p.tube p.channel .bypass x.nextTicket v f.clock)) (s.advance.finish (f.bypass p l x.nextTicket v).ack) :=
      ((((Local.modTube p.tube _ _).trans (.clearingTest _ l v)).trans (.examine _ _ _)).trans (.ack _)).trans
        (after.toLocal p.tube)
    rw [stamped] at last
    refine Reports.of_place (u := g.lowerLine State.rescan p.tube l v) ?_ last.clock last.buffer
    rw [alone, lowerLine_none none_']
    exact met_buffer s
  · have alone : g = f := supersede_empty _ _ _ (by rw [ticketed]; exact queue)
    have flow := lowerLine_idle (s := f) (k := p.tube) (l := l) (v := v) (by rw [ticketed]; exact queue)
      (by rw [ticketed]; exact run)
    rw [alone, flow, ticketed] at released
    have test : b.clearingTest State.rescan p.tube l v = b.startRun State.rescan p.tube (closeClearing (b.tube p.tube).header) := by
      unfold State.clearingTest State.lineRec
      rw [released]
      exact if_pos ((clearingTest_iff x l v).mpr closing)
    have begun := (startRun_begins b p.tube (closeClearing (b.tube p.tube).header)).2.2
    rw [← test] at begun
    have examined := begun.shift ((Shift.examine (b.clearingTest State.rescan p.tube l v) p.tube).tubes p.tube)
    exact (examined.shift (after.tubes p.tube)).atmosphere
  · have alone : g = f := supersede_empty _ _ _ (by rw [ticketed]; exact queue)
    have none_' : f.budget.claims = [] := (congrArg Budget.claims (met_budget s)).trans none_
    have flow : g.lowerLine State.rescan p.tube l v = f.setFlow p.tube l v true := by rw [alone, lowerLine_none none_']
    have test : b.clearingTest State.rescan p.tube l v = b := by
      rw [flow, setFlow_tube, ticketed] at released
      unfold State.clearingTest State.lineRec
      rw [released]
      exact if_neg fun c => open_ ((clearingTest_iff x l v).mp c)
    rw [flow, setFlow_tube, ticketed] at released
    have whole : f.bypass p l x.nextTicket v = b := by
      rw [bypass_eq, test]
      exact examine_empty _ (by rw [released]; exact queue)
    rw [whole] at event ⊢
    have empty : (f.tube p.tube).queue = [] := by rw [ticketed]; exact queue
    have still := dispatched_still event
      (fun j other => (bypassed_others empty none_' other).trans (tube_setTube_ne _ _ other)) (.inl (by
        rw [ack_tube, released]; exact queue))
    have address : f.lineAddr p.tube l = s.lineAddr p.tube l := by
      show s.met.lineAddr p.tube l = _
      rw [State.lineAddr, met_binding]; rfl
    have moved : ∀ a, (s.advance.finish b.ack).underway a = if a = s.lineAddr p.tube l then some v else s.underway a := fun a => by
      refine (still.underway (event.delivery (met_delivery ok)) a).trans ((bypassed_underway empty none_' a).trans ?_)
      rw [address, show f.underway a = _ from met_underway ok a]
    rw [still.tube, ack_tube, released]
    exact ⟨rfl, (moved _).trans (if_pos rfl), fun a other => (moved a).trans (if_neg other)⟩

end Sys2Proof.Machine

/-! Aborts (R87, R105, R121, R140 to R148): what the sequence leaves of its tube, step by step, and the first request. -/

namespace Sys2Proof.Machine

variable {s u w : State} {k : Tube} {l : Line} {v : Word} {q : AbortRequest}

/-! ## What a tube that does not work keeps -/

/-- What the Gas Engine's part of an abort and every release and grant leave of a tube that does not work. -/
structure Rests (y z : TubeState) : Prop where
  idle : z.mode.working = false
  cause : z.abortCause = y.abortCause
  begin_ : z.abortBegin = y.abortBegin
  gap : z.gapTimer = y.gapTimer
  ramp : z.ramp = y.ramp
  boat : z.boat = y.boat
  header : z.header = y.header
  released : z.lastReleased = y.lastReleased
  queue : y.queue = [] → z.queue = []

/-- The same, with the Abort Controller's own records. -/
structure Aborts (k : Tube) (s t : State) : Prop where
  abort : t.abort = s.abort
  tube : Rests (s.tube k) (t.tube k)

theorem notRun_of_idle {x : TubeState} (idle : x.mode.working = false) : x.mode ≠ .run := fun h => by
  rw [h] at idle; cases idle

theorem Rests.refl {x : TubeState} (idle : x.mode.working = false) : Rests x x :=
  ⟨idle, rfl, rfl, rfl, rfl, rfl, rfl, rfl, id⟩

theorem Rests.trans {x y z : TubeState} (h : Rests x y) (g : Rests y z) : Rests x z :=
  ⟨g.idle, g.cause.trans h.cause, g.begin_.trans h.begin_, g.gap.trans h.gap, g.ramp.trans h.ramp, g.boat.trans h.boat,
    g.header.trans h.header, g.released.trans h.released, fun empty => g.queue (h.queue empty)⟩

theorem TubeShift.rests {P : Prop} {x y : TubeState} (h : TubeShift false P x y) (idle : x.mode.working = false) :
    Rests x y := by
  have stopped := h.stopped (notRun_of_idle idle)
  exact ⟨by rw [h.mode]; exact idle, h.abortCause, h.abortBegin, stopped.gap, stopped.ramp, stopped.boat, h.header,
    stopped.released, h.emptyQueue⟩

theorem Aborts.refl (idle : (s.tube k).mode.working = false) : Aborts k s s := ⟨rfl, .refl idle⟩

theorem Aborts.trans (h : Aborts k s u) (g : Aborts k u w) : Aborts k s w := ⟨g.abort.trans h.abort, h.tube.trans g.tube⟩

theorem Shift.aborts (h : Shift none True s u) (idle : (s.tube k).mode.working = false) : Aborts k s u :=
  ⟨h.abort, (h.tubes k).rests idle⟩

theorem Aborts.setTube {x : TubeState} (h : Rests (s.tube k) x) : Aborts k s (s.setTube k x) :=
  ⟨rfl, by rw [tube_setTube_self]; exact h⟩

theorem Aborts.modGas (idle : (s.tube k).mode.working = false) (f : Gas → Gas) : Aborts k s (s.modGas k f) :=
  .setTube ⟨idle, rfl, rfl, rfl, rfl, rfl, rfl, rfl, id⟩

theorem Aborts.setFlow (idle : (s.tube k).mode.working = false) (l : Line) (v : Word) (b : Bool) :
    Aborts k s (s.setFlow k l v b) :=
  ⟨rfl, by rw [setFlow_tube]; exact ⟨idle, rfl, rfl, rfl, rfl, rfl, rfl, rfl, id⟩⟩

theorem Aborts.lowerLine (idle : (s.tube k).mode.working = false) (l : Line) (v : Word) :
    Aborts k s (s.lowerLine State.rescan k l v) := by
  have set_ := Aborts.setFlow idle l v true
  unfold State.lowerLine
  dsimp only
  split
  · exact set_.trans ((Shift.rescan _).aborts set_.tube.idle)
  · exact set_

theorem Aborts.startRun (idle : (s.tube k).mode.working = false) (r : RunStart) :
    Aborts k s (s.startRun State.rescan k r) := by
  have begun : Aborts k s (s.begun k r) := .modGas idle _
  rw [startRun_eq]
  split
  · have set_ := begun.trans (.setFlow begun.tube.idle (s.tube k).header.purgeLine r.flow
      (decide (r.flow.toNat ≤ (s.lineRec k (s.tube k).header.purgeLine).flow.toNat)))
    unfold State.flowsAtOnce
    dsimp only
    split
    · have scanned := set_.trans ((Shift.rescan _).aborts set_.tube.idle)
      exact scanned.trans (.modGas scanned.tube.idle _)
    · exact set_.trans (.modGas set_.tube.idle _)
  · have joins : Aborts k s (s.joining k r) := ⟨begun.abort, begun.tube⟩
    exact joins.trans ((Shift.rescan _).aborts joins.tube.idle)

theorem Aborts.closeThose {p : LineRec → Bool} : ∀ (ls : List Line) {s : State}, (s.tube k).mode.working = false →
    Aborts k s (s.closeThose k p ls)
  | [], _, idle => .refl idle
  | l :: ls, s, idle => by
    unfold State.closeThose
    split
    · have lowered := Aborts.lowerLine (k := k) idle l 0
      exact lowered.trans (Aborts.closeThose ls lowered.tube.idle)
    · exact Aborts.closeThose ls idle

theorem Aborts.raiseRunClaim (idle : (s.tube k).mode.working = false) : Aborts k s (s.raiseRunClaim k) := by
  unfold State.raiseRunClaim
  split
  · exact .refl idle
  · split
    · exact .refl idle
    · have raised : Aborts k s ((s.modBudget fun b => { b with
          claims := b.claims.map (fun d => if d.ofRun k then { d with priority := .abort } else d) }).modGas k
          fun g => { g with run := g.run.map (fun r => { r with priority := .abort }) }) :=
        ⟨rfl, (Aborts.modGas (s := s.modBudget _) idle _).tube⟩
      exact raised.trans ((Shift.rescan _).aborts raised.tube.idle)

/-- R105: PROCESS. -/
theorem gasAbort_process (gas : (s.tube k).gas.atmosphere = .process) : s.gasAbort k
    = (s.closeThose k LineRec.reactive Ix8.all).startRun State.rescan k (abortClearing (s.tube k).header) := by
  unfold State.gasAbort
  rw [gas, closeReactive_eq]

/-- R105: CLEARING. -/
theorem gasAbort_clearing (gas : (s.tube k).gas.atmosphere = .clearing) : s.gasAbort k
    = (s.withdraw State.rescan (Claim.ofRun k)).startRun State.rescan k (abortClearing (s.tube k).header) := by
  unfold State.gasAbort
  rw [gas]

/-- R105: PURGING. -/
theorem gasAbort_purging (gas : (s.tube k).gas.atmosphere = .purging) : s.gasAbort k
    = (s.modGas k fun g => { g with limitTimer := restartLimit g.limitTimer (s.tube k).header.purgeLimit }).raiseRunClaim k := by
  unfold State.gasAbort
  rw [gas]

/-- R105: AIR and INERT. -/
theorem gasAbort_rest (gas : (s.tube k).gas.atmosphere = .air ∨ (s.tube k).gas.atmosphere = .inert) : s.gasAbort k = s := by
  unfold State.gasAbort
  rcases gas with gas | gas <;> rw [gas]

theorem Aborts.gasAbort (idle : (s.tube k).mode.working = false) : Aborts k s (s.gasAbort k) := by
  cases gas : (s.tube k).gas.atmosphere with
  | process =>
    rw [gasAbort_process gas]
    have closed := Aborts.closeThose (k := k) (p := LineRec.reactive) Ix8.all idle
    exact closed.trans (.startRun closed.tube.idle _)
  | clearing =>
    rw [gasAbort_clearing gas]
    have withdrawn : Aborts k s (s.withdraw State.rescan (Claim.ofRun k)) := (Shift.withdraw Shift.rescan _ _).aborts idle
    exact withdrawn.trans (.startRun withdrawn.tube.idle _)
  | purging =>
    rw [gasAbort_purging gas]
    have restarted := Aborts.modGas (k := k) idle fun g =>
      { g with limitTimer := restartLimit g.limitTimer (s.tube k).header.purgeLimit }
    exact restarted.trans (.raiseRunClaim restarted.tube.idle)
  | air =>
    rw [gasAbort_rest (.inl gas)]
    exact .refl idle
  | inert =>
    rw [gasAbort_rest (.inr gas)]
    exact .refl idle

/-- R145: the tube an abort's end leaves. -/
def TubeState.ended (x : TubeState) : TubeState :=
  { x with abortTimer := none, mode := .aborted, summary := { x.summary with abortEnd := true } }

theorem endAbort_tube (s : State) (k : Tube) (litres : Word) : (s.endAbort k litres).tube k = (s.tube k).ended :=
  tube_setTube_self _ _ _

theorem endAbort_others (s : State) (litres : Word) {j : Tube} (other : j ≠ k) :
    (s.endAbort k litres).tube j = s.tube j := tube_setTube_ne _ _ other

theorem startClaimTimer_tube (s : State) (k : Tube) : (s.startClaimTimer k).tube k
    = { s.tube k with abortTimer := startUnlessZero (s.abort.claimLimit * 100) } := tube_setTube_self _ _ _

/-- R142, step 6. -/
theorem afterGasAbort_cases (s : State) (k : Tube) :
    (s.tube k).gas.run = none ∧ s.afterGasAbort k = s.endAbort k 0
      ∨ (s.tube k).gas.run ≠ none ∧ (s.afterGasAbort k = s.startClaimTimer k ∨ s.afterGasAbort k = s) := by
  unfold State.afterGasAbort
  cases run : (s.tube k).gas.run with
  | none => exact .inl ⟨rfl, rfl⟩
  | some r =>
    refine .inr ⟨Option.some_ne_none r, ?_⟩
    dsimp only
    split
    · exact .inl rfl
    · exact .inr rfl

theorem Aborts.afterGasAbort (idle : (s.tube k).mode.working = false) : Aborts k s (s.afterGasAbort k) := by
  rcases afterGasAbort_cases s k with ⟨-, ends⟩ | ⟨-, starts | stays⟩
  · rw [ends]
    exact ⟨rfl, by rw [endAbort_tube]; exact ⟨rfl, rfl, rfl, rfl, rfl, rfl, rfl, rfl, id⟩⟩
  · rw [starts]
    exact ⟨rfl, by rw [startClaimTimer_tube]; exact ⟨idle, rfl, rfl, rfl, rfl, rfl, rfl, rfl, id⟩⟩
  · rw [stays]
    exact .refl idle

/-! ## The freeze (R87, R121, R142) -/

/-- R87: the frozen ramp. -/
def Ramp.frozen (r : Ramp) : Ramp :=
  { r with
    thermal := .held, cause := .abort, stepTimer := none, settleTimer := none, slotHeld := false
    direction := if r.thermal = .ramping ∨ r.thermal = .held then r.direction else .none }

/-- R142, steps 1 to 4: the sequence before the Gas Engine's part. -/
def State.frozen (s : State) (q : AbortRequest) : State :=
  let s2 := ((s.beginAbort q).flush q.tube .abort).modTube q.tube fun x => { x with gapTimer := none }
  let s3 := s2.freezeRamp q.tube
  s3.modBoat q.tube fun b => b.freeze (s3.tube q.tube).header.inThreshold

theorem abortTube_eq (s : State) (q : AbortRequest) :
    s.abortTube q = ((s.frozen q).gasAbort q.tube).afterGasAbort q.tube := rfl

/-- The tube at the first step of its abort. -/
def TubeState.beginning (x : TubeState) (q : AbortRequest) (clock : Long) : TubeState :=
  { x with abortCause := q.cause, abortBegin := clock, mode := .aborting }

theorem beginAbort_tube (s : State) (q : AbortRequest) :
    (s.beginAbort q).tube q.tube = (s.tube q.tube).beginning q s.clock := tube_setTube_self _ _ _

theorem beginAbort_others (s : State) (q : AbortRequest) {j : Tube} (other : j ≠ q.tube) :
    (s.beginAbort q).tube j = s.tube j := tube_setTube_ne _ _ other

/-- What the freeze leaves of a tube. -/
structure Froze (q : AbortRequest) (clock : Long) (x y : TubeState) : Prop where
  mode : y.mode = .aborting
  cause : y.abortCause = q.cause
  begin_ : y.abortBegin = clock
  queue : y.queue = []
  gap : y.gapTimer = none
  ramp : y.ramp = x.ramp.frozen
  boat : y.boat = x.boat.freeze x.header.inThreshold
  header : y.header = x.header
  released : y.lastReleased = x.lastReleased
  summary : y.summary = x.summary
  gas : GasIdle x y

theorem freezeRamp_shift (s : State) (k : Tube) : TubeShift false True
    { s.tube k with ramp := (s.tube k).ramp.frozen } ((s.freezeRamp k).tube k) := by
  let slow (r : Ramp) : Ramp := { r with
    thermal := .held, cause := .abort, direction := if r.thermal = .ramping ∨ r.thermal = .held then r.direction else .none
    stepTimer := none, settleTimer := none }
  have own : (s.modRamp k slow).tube k = { s.tube k with ramp := slow (s.tube k).ramp } := modRamp_tube s k slow
  show TubeShift false True _ (((s.modRamp k slow).freeSlot State.rescan k).tube k)
  unfold State.freeSlot
  rw [own]
  cases held : (s.tube k).ramp.slotHeld with
  | true =>
    have freed : ((s.modRamp k slow).modRamp k fun r => { r with slotHeld := false }).tube k
        = { s.tube k with ramp := (s.tube k).ramp.frozen } := by rw [modRamp_tube, own]; rfl
    have scanned := (Shift.rescan ((s.modRamp k slow).modRamp k fun r => { r with slotHeld := false })).tubes k
    rw [freed] at scanned
    rw [if_pos rfl]
    exact scanned
  | false =>
    have same : (s.tube k).ramp.frozen = slow (s.tube k).ramp := by
      unfold Ramp.frozen
      rw [← held]
    rw [if_neg Bool.false_ne_true, own, same]
    exact .refl _ _

theorem frozen_tube (s : State) (q : AbortRequest) : Froze q s.clock (s.tube q.tube) ((s.frozen q).tube q.tube) := by
  have first := (unclaimed_shift (s.beginAbort q) q.tube).tubes q.tube
  rw [beginAbort_tube] at first
  have aborting : ((s.tube q.tube).beginning q s.clock).mode ≠ .run := Mode.noConfusion
  have stopped := first.stopped aborting
  have flushed : (((s.beginAbort q).flush q.tube .abort).modTube q.tube fun x => { x with gapTimer := none }).tube q.tube
      = { ((s.beginAbort q).unclaimed q.tube).tube q.tube with queue := [], gapTimer := none } := by
    rw [tube_modTube_eq, flush_tube]
  have second := freezeRamp_shift (((s.beginAbort q).flush q.tube .abort).modTube q.tube fun x => { x with gapTimer := none }) q.tube
  have boat := modBoat_tube ((((s.beginAbort q).flush q.tube .abort).modTube q.tube fun x =>
    { x with gapTimer := none }).freezeRamp q.tube) q.tube fun b => b.freeze
      (((((s.beginAbort q).flush q.tube .abort).modTube q.tube fun x =>
        { x with gapTimer := none }).freezeRamp q.tube).tube q.tube).header.inThreshold
  rw [show (s.frozen q).tube q.tube = _ from boat]
  rw [flushed] at second
  have stopped' := second.stopped (by rw [show TubeState.mode _ = _ from first.mode]; exact aborting)
  have gas := (first.gasIdle rfl (.inl aborting))
  have gas' := second.gasIdle rfl (.inr rfl)
  refine ⟨second.mode.trans first.mode, second.abortCause.trans first.abortCause, second.abortBegin.trans first.abortBegin,
    second.emptyQueue rfl, stopped'.gap, stopped'.ramp.trans (congrArg Ramp.frozen stopped.ramp), ?_,
    second.header.trans first.header, stopped'.released.trans stopped.released, stopped'.summary.trans stopped.summary, ?_⟩
  · have header := second.header.trans first.header
    rw [header, stopped'.boat]
    exact congrArg (fun b : Boat => b.freeze (s.tube q.tube).header.inThreshold) stopped.boat
  · exact GasIdle.trans first.header ⟨gas.1, gas.2, gas.3, gas.4, gas.5, gas.6⟩ ⟨gas'.1, gas'.2, gas'.3, gas'.4, gas'.5, gas'.6⟩

end Sys2Proof.Machine

/-! The abort sequence put together, and the first abort request (R140, R142, R148). -/

namespace Sys2Proof.Machine

variable {s u w : State} {k : Tube} {l : Line} {v : Word} {q : AbortRequest} {r : RunStart}

/-! ## The Gas Engine's part, by what it finds -/

theorem startRun_ran (s : State) (k : Tube) (r : RunStart) : ((s.startRun State.rescan k r).tube k).gas.run ≠ none := by
  obtain ⟨phase, run⟩ := (startRun_begins s k r).2.2.record
  rw [run]
  exact Option.some_ne_none _

/-- R105: PROCESS and CLEARING begin a clearing. -/
theorem gasAbort_clears (gas : (s.tube k).gas.atmosphere = .process ∨ (s.tube k).gas.atmosphere = .clearing)
    (idle : (s.tube k).mode.working = false) : ((s.gasAbort k).tube k).mode = (s.tube k).mode
      ∧ Begun (abortClearing (s.tube k).header) (s.tube k).header.purgeLimit ((s.gasAbort k).tube k) := by
  have starts : ∀ c : State, (c.tube k).mode = (s.tube k).mode → (c.tube k).header = (s.tube k).header →
      s.gasAbort k = c.startRun State.rescan k (abortClearing (s.tube k).header) →
      ((s.gasAbort k).tube k).mode = (s.tube k).mode
        ∧ Begun (abortClearing (s.tube k).header) (s.tube k).header.purgeLimit ((s.gasAbort k).tube k) :=
    fun c mode header same => by
      obtain ⟨mode', -, begun⟩ := startRun_begins c k (abortClearing (s.tube k).header)
      rw [same]
      rw [header] at begun
      exact ⟨mode'.trans mode, begun⟩
  rcases gas with gas | gas
  · exact starts _ (closeThose_mode _ _) (Aborts.closeThose _ idle).tube.header (gasAbort_process gas)
  · have shift := (Shift.withdraw (P := True) (o := none) Shift.rescan s (Claim.ofRun k)).tubes k
    exact starts _ shift.mode shift.header (gasAbort_clearing gas)

/-- What an abort keeps of a run under way. -/
def Run.course (r : Run) : Purpose × Nat × Nat × Nat := (r.purpose, r.target, r.remainder, r.samples)

theorem course_of_core {a b : Option Run} (h : b.map Run.core = a.map Run.core) : b.map Run.course = a.map Run.course := by
  cases a <;> cases b
  · rfl
  · cases h
  · cases h
  · next x y =>
    have core : y.core = x.core := Option.some.inj h
    have same : y.core.course = x.core.course := by rw [core]
    exact congrArg some same

/-- What an abort keeps of a purge. -/
structure PurgeKept (x y : TubeState) : Prop where
  mode : y.mode = x.mode
  atmosphere : y.gas.atmosphere = .purging
  accumulator : y.gas.accumulator = x.gas.accumulator
  course : y.gas.run.map Run.course = x.gas.run.map Run.course

theorem TubeShift.purgeKept {P : Prop} {b : Bool} {x y : TubeState} (h : TubeShift b P x y)
    (gas : x.gas.atmosphere = .purging) : PurgeKept x y := by
  have settled := h.settled (by rw [gas]; rfl)
  exact ⟨h.mode, settled.atmosphere.trans gas, settled.accumulator, course_of_core settled.run⟩

theorem PurgeKept.trans {x y z : TubeState} (h : PurgeKept x y) (g : PurgeKept y z) : PurgeKept x z :=
  ⟨g.mode.trans h.mode, g.atmosphere, g.accumulator.trans h.accumulator, g.course.trans h.course⟩

/-- R134: a raised claim sets the run's priority alone. -/
theorem raiseRunClaim_purge (gas : (s.tube k).gas.atmosphere = .purging) :
    PurgeKept (s.tube k) ((s.raiseRunClaim k).tube k) := by
  unfold State.raiseRunClaim
  split
  · exact ⟨rfl, gas, rfl, rfl⟩
  · split
    · exact ⟨rfl, gas, rfl, rfl⟩
    · let raised := (s.modBudget fun b => { b with
          claims := b.claims.map (fun d => if d.ofRun k then { d with priority := .abort } else d) }).modGas k
          fun g => { g with run := g.run.map (fun r => { r with priority := .abort }) }
      have tube : raised.tube k = { s.tube k with gas := { (s.tube k).gas with
          run := (s.tube k).gas.run.map (fun r => { r with priority := .abort }) } } := modGas_tube _ _ _
      have kept : PurgeKept (s.tube k) (raised.tube k) := by
        rw [tube]
        refine ⟨rfl, gas, rfl, ?_⟩
        show ((s.tube k).gas.run.map _).map _ = _
        rw [Option.map_map]
        rfl
      exact kept.trans (((Shift.rescan raised).tubes k).purgeKept kept.atmosphere)

/-- R105: PURGING goes on. -/
theorem gasAbort_purges (gas : (s.tube k).gas.atmosphere = .purging) : PurgeKept (s.tube k) ((s.gasAbort k).tube k) := by
  rw [gasAbort_purging gas]
  have own := modGas_tube s k fun g => { g with limitTimer := restartLimit g.limitTimer (s.tube k).header.purgeLimit }
  have kept : PurgeKept (s.tube k) ((s.modGas k fun g =>
      { g with limitTimer := restartLimit g.limitTimer (s.tube k).header.purgeLimit }).tube k) := by
    rw [own]; exact ⟨rfl, gas, rfl, rfl⟩
  exact kept.trans (raiseRunClaim_purge kept.atmosphere)

/-- R142, step 6, of a tube whose run stands. -/
theorem afterGasAbort_running (run : (s.tube k).gas.run ≠ none) :
    ∃ timer, (s.afterGasAbort k).tube k = { s.tube k with abortTimer := timer } := by
  rcases afterGasAbort_cases s k with ⟨none_, -⟩ | ⟨-, starts | stays⟩
  · exact absurd none_ run
  · exact ⟨_, by rw [starts]; exact startClaimTimer_tube s k⟩
  · exact ⟨(s.tube k).abortTimer, by rw [stays]⟩

/-! ## The lines an abort closes -/

theorem lowerLine_lines (idle : (s.tube k).mode.working = false) (l : Line) (v : Word) {m : Line}
    (other : m ≠ (s.tube k).header.purgeLine) :
    ((s.lowerLine State.rescan k l v).tube k).gas.lines.get m = ((s.tube k).withFlow l v).gas.lines.get m := by
  have set_ := setFlow_tube s k l v true
  unfold State.lowerLine
  dsimp only
  split
  · have shift := (Shift.rescan (s.setFlow k l v true)).tubes k
    rw [set_] at shift
    exact (shift.gasIdle rfl (.inl (notRun_of_idle idle))).lines m other
  · rw [set_]

theorem closeThose_lines {p : LineRec → Bool} {m : Line} : ∀ (ls : List Line) {s : State},
    (s.tube k).mode.working = false → m ≠ (s.tube k).header.purgeLine →
    ((s.closeThose k p ls).tube k).gas.lines.get m = ((s.tube k).gas.shut p ls).lines.get m
  | [], s, _, _ => by rw [shut_nil]; rfl
  | l :: ls, s, idle, other => by
    rw [shut_cons]
    unfold State.closeThose
    by_cases open_ : (p (s.lineRec k l) && (s.lineRec k l).flow != 0) = true
    · have open' : (p ((s.tube k).gas.lines.get l) && ((s.tube k).gas.lines.get l).flow != 0) = true := open_
      have lowered := Aborts.lowerLine (k := k) idle l 0
      rw [if_pos open_, if_pos open', closeThose_lines ls lowered.tube.idle (by rw [lowered.tube.header]; exact other),
        shut_get, shut_get, lowerLine_lines idle l 0 other]
      rfl
    · have open' : ¬ (p ((s.tube k).gas.lines.get l) && ((s.tube k).gas.lines.get l).flow != 0) = true := open_
      rw [if_neg open_, if_neg open', closeThose_lines ls idle other]

theorem startRun_lines (idle : (s.tube k).mode.working = false) (r : RunStart) {m : Line}
    (other : m ≠ (s.tube k).header.purgeLine) :
    ((s.startRun State.rescan k r).tube k).gas.lines.get m = (s.tube k).gas.lines.get m := by
  have begun := begun_tube s k r
  have scanned : ∀ {c : State} {y : TubeState}, c.tube k = y → y.mode.working = false →
      y.header = (s.tube k).header → y.gas.lines.get m = (s.tube k).gas.lines.get m →
      (c.rescan.tube k).gas.lines.get m = (s.tube k).gas.lines.get m := fun own idle' header lines => by
    subst own
    exact (((Shift.rescan _).tubes k).gasIdle rfl (.inl (notRun_of_idle idle')) |>.lines m (by rw [header]; exact other)).trans
      lines
  rw [startRun_eq]
  split
  · have set_ : ((s.begun k r).setFlow k (s.tube k).header.purgeLine r.flow
        (decide (r.flow.toNat ≤ (s.lineRec k (s.tube k).header.purgeLine).flow.toNat))).tube k
        = ((s.tube k).begun r).withFlow (s.tube k).header.purgeLine r.flow := by rw [setFlow_tube, begun]
    have lines : (((s.tube k).begun r).withFlow (s.tube k).header.purgeLine r.flow).gas.lines.get m
        = (s.tube k).gas.lines.get m := (withFlow_get _ _ _ _).trans (if_neg other)
    unfold State.flowsAtOnce
    dsimp only
    rw [modGas_tube]
    show (State.tube (ite _ _ _) k).gas.lines.get m = _
    split
    · exact scanned set_ idle rfl lines
    · rw [set_]; exact lines
  · exact scanned (c := s.joining k r) begun idle rfl rfl

/-- R105: every reactive line but the purge line is closed. -/
theorem gasAbort_closes (gas : (s.tube k).gas.atmosphere = .process) (idle : (s.tube k).mode.working = false)
    (other : l ≠ (s.tube k).header.purgeLine) (reactive : ((s.tube k).gas.lines.get l).reactive = true) :
    (((s.gasAbort k).tube k).gas.lines.get l).flow = 0 := by
  have closed := Aborts.closeThose (k := k) (p := LineRec.reactive) Ix8.all idle
  rw [gasAbort_process gas, startRun_lines closed.tube.idle _ (by rw [closed.tube.header]; exact other),
    closeThose_lines Ix8.all idle other, shut_get]
  split
  · rfl
  · next open_ =>
    have shut : ¬ ((s.tube k).gas.lines.get l).flow ≠ 0 := fun h => open_ ⟨Ix8.mem_all l, by
      rw [reactive, Bool.true_and]; exact bne_iff_ne.mpr h⟩
    exact Classical.not_not.mp shut

/-! ## What is under way -/

/-- What the sequence leaves beyond its tube, with no waiting claim. -/
structure Silent (k : Tube) (s t : State) : Prop where
  others : ∀ j, j ≠ k → t.tube j = s.tube j
  claims : t.budget = s.budget
  binding : t.binding = s.binding
  delivery : t.delivery = s.delivery
  bus : t.bus = s.bus

theorem Silent.refl (s : State) : Silent k s s := ⟨fun _ _ => rfl, rfl, rfl, rfl, rfl⟩

theorem Silent.trans (h : Silent k s u) (g : Silent k u w) : Silent k s w :=
  ⟨fun j other => (g.others j other).trans (h.others j other), g.claims.trans h.claims, g.binding.trans h.binding,
    g.delivery.trans h.delivery, g.bus.trans h.bus⟩

theorem Silent.underway (h : Silent k s u) (b : Addr) : u.underway b = s.underway b := by
  unfold State.underway; rw [h.delivery, h.bus]

theorem Silent.modTube (s : State) (f : TubeState → TubeState) : Silent k s (s.modTube k f) :=
  ⟨fun _ other => tube_setTube_ne _ _ other, rfl, rfl, rfl, rfl⟩

theorem Silent.modBoat (s : State) (f : Boat → Boat) : Silent k s (s.modBoat k f) := .modTube s _

theorem Silent.modRamp (s : State) (f : Ramp → Ramp) : Silent k s (s.modRamp k f) := .modTube s _

theorem Silent.place (s : State) (n : Notice) : Silent k s (s.place n) := ⟨fun _ _ => rfl, rfl, rfl, rfl, rfl⟩

theorem Silent.placeFlushed (o : FlushOrigin) : ∀ (n : Nat) (es : List HeldEntry) (s : State),
    Silent k s (placeFlushed k o n es s)
  | _, [], s => .refl s
  | n, _ :: es, s => (Silent.place s _).trans (Silent.placeFlushed o (n + 1) es _)

/-- R142: with no waiting claim the freeze disturbs nothing else. -/
theorem frozen_silent (none_ : s.budget.claims = []) : Silent q.tube s (s.frozen q) := by
  have flushed : Silent q.tube s ((s.beginAbort q).flush q.tube .abort) := by
    rw [flush_eq, unclaimed_none (s := s.beginAbort q) none_]
    exact (((Silent.modTube s _).trans (.place _ _)).trans (.modTube _ _)).trans (.placeFlushed _ _ _ _)
  let c := ((s.beginAbort q).flush q.tube .abort).modTube q.tube fun x => { x with gapTimer := none }
  have slowed : Silent q.tube s c := flushed.trans (.modTube _ _)
  have freed : Silent q.tube c (c.freezeRamp q.tube) := by
    unfold State.freezeRamp State.freeSlot
    split
    · rw [rescan_none (by show c.budget.claims = []; rw [slowed.claims]; exact none_)]
      exact (Silent.modRamp c _).trans (.modRamp _ _)
    · exact .modRamp c _
  have last : Silent q.tube (c.freezeRamp q.tube) (s.frozen q) :=
    ⟨fun _ other => tube_setTube_ne _ _ other, rfl, rfl, rfl, rfl⟩
  exact (slowed.trans freed).trans last

/-- R142: with no waiting claim the gas is as it was. -/
theorem frozen_gas (none_ : s.budget.claims = []) : ((s.frozen q).tube q.tube).gas = (s.tube q.tube).gas := by
  have flushed : (((s.beginAbort q).flush q.tube .abort).tube q.tube).gas = (s.tube q.tube).gas := by
    rw [flush_tube, unclaimed_none (s := s.beginAbort q) none_, beginAbort_tube]
    rfl
  let c := ((s.beginAbort q).flush q.tube .abort).modTube q.tube fun x => { x with gapTimer := none }
  have slowed : (c.tube q.tube).gas = (s.tube q.tube).gas := by
    show ((State.modTube _ _ _).tube _).gas = _
    rw [tube_modTube_eq]; exact flushed
  have budget : c.budget = s.budget := by
    show ((s.beginAbort q).flush q.tube .abort).budget = _
    rw [flush_eq, unclaimed_none (s := s.beginAbort q) none_]
    exact ((Silent.placeFlushed (k := q.tube) _ _ _ _).claims)
  have freed : ((c.freezeRamp q.tube).tube q.tube).gas = (s.tube q.tube).gas := by
    unfold State.freezeRamp State.freeSlot
    split
    · rw [rescan_none (by show c.budget.claims = []; rw [budget]; exact none_), modRamp_tube, modRamp_tube]
      exact slowed
    · rw [modRamp_tube]; exact slowed
  show ((State.modBoat _ _ _).tube _).gas = _
  rw [modBoat_tube]
  exact freed

/-- What a clearing's start leaves under way, by the phase of its run. -/
structure Carries (k : Tube) (v : Word) (s t : State) : Prop where
  others : ∀ j, j ≠ k → t.tube j = s.tube j
  flowing : ∀ run, (t.tube k).gas.run = some run → run.phase = .flowing →
    t.underway (s.lineAddr k (s.tube k).header.purgeLine) = some v
  claiming : ∀ run, (t.tube k).gas.run = some run → run.phase = .claiming → ∀ b, t.underway b = s.underway b
  elsewhere : ∀ b, b ≠ s.lineAddr k (s.tube k).header.purgeLine → t.underway b = s.underway b

theorem startRun_carries (none_ : s.budget.claims = []) (own : r.origin.isEntry = false) :
    Carries k r.flow s (s.startRun State.rescan k r) := by
  by_cases fits : r.need (s.tube k) ≤ s.freeUnits
  · obtain ⟨⟨timer, tube⟩, others, -, -, underway⟩ := startRun_flows none_ own fits
    refine ⟨others, fun run _ _ => (underway _).trans (if_pos rfl), fun run runs claims => ?_,
      fun b other => (underway b).trans (if_neg other)⟩
    rw [tube] at runs
    obtain rfl := Option.some.inj runs
    cases claims
  · obtain ⟨tube, others, -, underway⟩ := startRun_waits none_ (Nat.lt_of_not_le fits)
    refine ⟨others, fun run runs flows => ?_, fun _ _ _ => underway, fun b _ => underway b⟩
    rw [tube] at runs
    obtain rfl := Option.some.inj runs
    cases flows

/-- R105: with no waiting claim, what the Gas Engine's part of an abort leaves under way. -/
structure AbortUnderway (k : Tube) (s t : State) : Prop where
  others : ∀ j, j ≠ k → t.tube j = s.tube j
  closed : (s.tube k).gas.atmosphere = .process → ∀ l, s.closes k LineRec.reactive l →
    s.lineAddr k l ≠ s.lineAddr k (s.tube k).header.purgeLine → t.underway (s.lineAddr k l) = some 0
  flowing : (s.tube k).gas.atmosphere = .process ∨ (s.tube k).gas.atmosphere = .clearing →
    ∀ run, (t.tube k).gas.run = some run → run.phase = .flowing →
      t.underway (s.lineAddr k (s.tube k).header.purgeLine) = some (s.tube k).header.abortPurgeFlow
  claiming : (s.tube k).gas.atmosphere = .process ∨ (s.tube k).gas.atmosphere = .clearing →
    ∀ run, (t.tube k).gas.run = some run → run.phase = .claiming →
      ∀ b, (∀ l, (s.tube k).gas.atmosphere = .process → s.closes k LineRec.reactive l → b ≠ s.lineAddr k l) →
        t.underway b = s.underway b
  elsewhere : ∀ b, b ≠ s.lineAddr k (s.tube k).header.purgeLine →
    (∀ l, (s.tube k).gas.atmosphere = .process → s.closes k LineRec.reactive l → b ≠ s.lineAddr k l) →
    t.underway b = s.underway b
  rest : ¬ ((s.tube k).gas.atmosphere = .process ∨ (s.tube k).gas.atmosphere = .clearing) →
    ∀ b, t.underway b = s.underway b

theorem raiseRunClaim_none (none_ : s.budget.claims = []) : s.raiseRunClaim k = s := by
  have unclaimed : s.runClaim k = none := by unfold State.runClaim; rw [none_]; rfl
  unfold State.raiseRunClaim
  rw [unclaimed]

theorem gasAbort_underway (none_ : s.budget.claims = []) : AbortUnderway k s (s.gasAbort k) := by
  cases gas : (s.tube k).gas.atmosphere with
  | process =>
    rw [gasAbort_process gas]
    let c := s.closeThose k LineRec.reactive Ix8.all
    have quiet : ClosesQuietly k s c := closeThose_quiet Ix8.all none_
    have shut : c.tube k = _ := closeThose_tube (q := LineRec.reactive) Ix8.all (.inl none_)
    obtain ⟨zero, same⟩ := closeThose_underway (k := k) (q := LineRec.reactive) Ix8.all none_
    have header : (c.tube k).header = (s.tube k).header := by rw [shut]
    have address : ∀ l, c.lineAddr k l = s.lineAddr k l := fun l => by rw [State.lineAddr, quiet.binding]; rfl
    have run := startRun_carries (k := k) (s := c) (r := abortClearing (s.tube k).header) (by rw [quiet.budget]; exact none_) rfl
    have purge : c.lineAddr k (c.tube k).header.purgeLine = s.lineAddr k (s.tube k).header.purgeLine := by
      rw [address, header]
    have flowing := run.flowing
    rw [purge] at flowing
    refine ⟨fun j other => (run.others j other).trans (quiet.others j other), fun _ l open_ apart => ?_,
      fun _ => flowing, fun _ r runs claims b off => ?_, fun b other off => ?_, fun h => absurd (.inl gas) h⟩
    · rw [run.elsewhere _ (by rw [purge]; exact apart)]
      exact zero l (Ix8.mem_all l) open_
    · rw [run.claiming r runs claims b]
      exact same b fun l _ open_ => off l gas open_
    · rw [run.elsewhere b (by rw [purge]; exact other)]
      exact same b fun l _ open_ => off l gas open_
  | clearing =>
    rw [gasAbort_clearing gas, withdraw_none _ _ none_]
    have run := startRun_carries (k := k) (r := abortClearing (s.tube k).header) none_ rfl
    exact ⟨run.others, fun h => absurd (gas.symm.trans h) nofun, fun _ => run.flowing,
      fun _ r runs claims b _ => run.claiming r runs claims b, fun b other _ => run.elsewhere b other,
      fun h => absurd (.inr gas) h⟩
  | purging =>
    have stays : s.gasAbort k = s.modGas k fun g =>
        { g with limitTimer := restartLimit g.limitTimer (s.tube k).header.purgeLimit } :=
      (gasAbort_purging gas).trans (raiseRunClaim_none none_)
    have same : ∀ b, (s.gasAbort k).underway b = s.underway b := fun b => by rw [stays]; rfl
    refine ⟨fun j other => by rw [stays]; exact tube_setTube_ne _ _ other, fun h => absurd (gas.symm.trans h) nofun, ?_, ?_,
      fun b _ _ => same b, fun _ => same⟩
    · rintro (h | h) <;> exact absurd (gas.symm.trans h) nofun
    · rintro (h | h) <;> exact absurd (gas.symm.trans h) nofun
  | air =>
    rw [gasAbort_rest (.inl gas)]
    refine ⟨fun _ _ => rfl, fun h => absurd (gas.symm.trans h) nofun, ?_, ?_, fun _ _ _ => rfl, fun _ _ => rfl⟩
    · rintro (h | h) <;> exact absurd (gas.symm.trans h) nofun
    · rintro (h | h) <;> exact absurd (gas.symm.trans h) nofun
  | inert =>
    rw [gasAbort_rest (.inr gas)]
    refine ⟨fun _ _ => rfl, fun h => absurd (gas.symm.trans h) nofun, ?_, ?_, fun _ _ _ => rfl, fun _ _ => rfl⟩
    · rintro (h | h) <;> exact absurd (gas.symm.trans h) nofun
    · rintro (h | h) <;> exact absurd (gas.symm.trans h) nofun

end Sys2Proof.Machine

/-! An abort request taken (R140, R142, R145, R148): the sequence of a working tube, step by step, and the request. -/

namespace Sys2Proof.Machine

variable {s u w : State} {k : Tube} {l : Line} {q : AbortRequest}

/-! ## The request -/

theorem takeAbort_absent (h : s.present q.tube = false) : s.takeAbort q = s := by
  unfold State.takeAbort
  rw [h]
  exact if_pos rfl

theorem takeAbort_working (present : s.present q.tube = true) (works : (s.tube q.tube).mode.working = true) :
    s.takeAbort q = s.abortTube q := by
  unfold State.takeAbort
  rw [present, if_neg (by decide)]
  cases mode : (s.tube q.tube).mode with
  | run => rfl
  | hold => rfl
  | aborting => rw [mode] at works; cases works
  | aborted => rw [mode] at works; cases works

theorem takeAbort_again (present : s.present q.tube = true) (idle : (s.tube q.tube).mode.working = false) :
    s.takeAbort q = s.abortAgain q := by
  unfold State.takeAbort
  rw [present, if_neg (by decide)]
  cases mode : (s.tube q.tube).mode with
  | run => rw [mode] at idle; cases idle
  | hold => rw [mode] at idle; cases idle
  | aborting => rfl
  | aborted => rfl

/-! ## The sequence of a working tube -/

theorem frozen_abort (s : State) (q : AbortRequest) : (s.frozen q).abort = s.abort := by
  have flushed : ((s.beginAbort q).flush q.tube .abort).abort = s.abort := by
    rw [flush_eq]
    have placed : ∀ (n : Nat) (es : List HeldEntry) (c : State), (placeFlushed q.tube .abort n es c).abort = c.abort :=
      fun n es c => by
        induction es generalizing n c with
        | nil => rfl
        | cons e es ih => exact (ih (n + 1) _).trans rfl
    rw [placed]
    exact (unclaimed_shift (s.beginAbort q) q.tube).abort
  show (State.freezeRamp _ _).abort = _
  unfold State.freezeRamp State.freeSlot
  split
  · exact (Shift.rescan _).abort.trans flushed
  · exact flushed

/-- R142, step 5: the sequence up to the Gas Engine's part. -/
def State.gassed (s : State) (q : AbortRequest) : State := (s.frozen q).gasAbort q.tube

theorem frozen_idle (s : State) (q : AbortRequest) : ((s.frozen q).tube q.tube).mode.working = false := by
  rw [(frozen_tube s q).mode]; rfl

theorem gassed_aborts (s : State) (q : AbortRequest) : Aborts q.tube (s.frozen q) (s.gassed q) :=
  .gasAbort (frozen_idle s q)

theorem abortTube_aborts (s : State) (q : AbortRequest) : Aborts q.tube (s.frozen q) (s.abortTube q) :=
  (gassed_aborts s q).trans (.afterGasAbort (gassed_aborts s q).tube.idle)

theorem abortTube_abort (s : State) (q : AbortRequest) : (s.abortTube q).abort = s.abort :=
  (abortTube_aborts s q).abort.trans (frozen_abort s q)

/-- R142: the abort begins with its notice. -/
theorem abortTube_reports (s : State) (q : AbortRequest) : ∃ u : State, u.notices.buffer = s.notices.buffer ∧ u.clock = s.clock
    ∧ Local q.tube (u.place (abortNotice .abortBegin q.tube q.channel q.cause (s.tube q.tube).lastReleased q.detail1 q.detail2))
        (s.abortTube q) := by
  refine ⟨s.modTube q.tube fun x => { x with abortCause := q.cause, abortBegin := s.clock, mode := .aborting }, rfl, rfl, ?_⟩
  have frozen : Local q.tube (s.beginAbort q) (s.frozen q) := by
    unfold State.frozen
    exact (((Local.flush (s.beginAbort q) .abort).trans (.modTube _ _ fun x => { x with gapTimer := none })).trans
      (.freezeRamp _)).trans (.modBoat _ _ _)
  exact (frozen.trans (.gasAbort _)).trans (.afterGasAbort _)

/-- R145: a tube at rest with no run ends its abort at once. -/
theorem abortTube_ends (run : (s.tube q.tube).gas.run = none)
    (rest : (s.tube q.tube).gas.atmosphere = .air ∨ (s.tube q.tube).gas.atmosphere = .inert) :
    ((s.abortTube q).tube q.tube).mode = .aborted ∧ ((s.abortTube q).tube q.tube).summary.abortEnd = true
      ∧ ((s.abortTube q).tube q.tube).gas = (s.tube q.tube).gas := by
  have gas : ((s.frozen q).tube q.tube).gas = (s.tube q.tube).gas := ((frozen_tube s q).gas.noRun run).1
  have stays : s.gassed q = s.frozen q := gasAbort_rest (by rw [gas]; exact rest)
  have none_ : ((s.gassed q).tube q.tube).gas.run = none := by rw [stays, gas]; exact run
  have ends : s.abortTube q = (s.gassed q).endAbort q.tube 0 := by
    rcases afterGasAbort_cases (s.gassed q) q.tube with ⟨-, ends⟩ | ⟨runs, -⟩
    · exact ends
    · exact absurd none_ runs
  rw [ends, endAbort_tube, stays]
  exact ⟨rfl, rfl, gas⟩

/-- R105: a tube with a reactive atmosphere, or clearing, is left with its abort clearing. -/
theorem abortTube_clears
    (gas : (s.tube q.tube).gas.atmosphere = .process ∨ (s.tube q.tube).gas.atmosphere = .clearing) :
    ((s.abortTube q).tube q.tube).mode = .aborting
      ∧ Begun (abortClearing (s.tube q.tube).header) (s.tube q.tube).header.purgeLimit ((s.abortTube q).tube q.tube) := by
  have froze := frozen_tube s q
  obtain ⟨mode, begun⟩ := gasAbort_clears (s := s.frozen q) (by rw [froze.gas.atmosphere]; exact gas) (frozen_idle s q)
  rw [froze.header] at begun
  obtain ⟨phase, record⟩ := begun.record
  obtain ⟨timer, own⟩ := afterGasAbort_running (s := s.gassed q) (k := q.tube) (by
    rw [show ((s.gassed q).tube q.tube).gas.run = _ from record]; exact Option.some_ne_none _)
  rw [show (s.abortTube q).tube q.tube = _ from own]
  exact ⟨mode.trans froze.mode, begun.1, begun.2, begun.3, begun.4⟩

/-- R105: a purge goes on. -/
theorem abortTube_purges {run : Run} (gas : (s.tube q.tube).gas.atmosphere = .purging)
    (runs : (s.tube q.tube).gas.run = some run) :
    ((s.abortTube q).tube q.tube).mode = .aborting
      ∧ ((s.abortTube q).tube q.tube).gas.atmosphere = .purging
      ∧ ((s.abortTube q).tube q.tube).gas.accumulator = (s.tube q.tube).gas.accumulator
      ∧ ((s.abortTube q).tube q.tube).gas.run.map Run.course = some run.course := by
  have froze := frozen_tube s q
  have kept := gasAbort_purges (s := s.frozen q) (k := q.tube) (by rw [froze.gas.atmosphere]; exact gas)
  have course : ((s.gassed q).tube q.tube).gas.run.map Run.course = some run.course := by
    refine (kept.course.trans (course_of_core froze.gas.run)).trans ?_
    rw [runs]; rfl
  obtain ⟨timer, own⟩ := afterGasAbort_running (s := s.gassed q) (k := q.tube) fun none_ => by
    rw [none_] at course; cases course
  rw [show (s.abortTube q).tube q.tube = _ from own]
  exact ⟨kept.mode.trans froze.mode, kept.atmosphere, kept.accumulator.trans froze.gas.accumulator, course⟩

/-- R105: an abort in PROCESS closes the reactive lines. -/
theorem abortTube_closes (gas : (s.tube q.tube).gas.atmosphere = .process) (other : l ≠ (s.tube q.tube).header.purgeLine)
    (reactive : ((s.tube q.tube).gas.lines.get l).reactive = true) :
    (((s.abortTube q).tube q.tube).gas.lines.get l).flow = 0 := by
  have froze := frozen_tube s q
  have closed := gasAbort_closes (s := s.frozen q) (k := q.tube) (l := l) (by rw [froze.gas.atmosphere]; exact gas)
    (frozen_idle s q) (by rw [froze.header]; exact other) (by rw [froze.gas.lines l other]; exact reactive)
  have begun := (gasAbort_clears (s := s.frozen q) (.inl (by rw [froze.gas.atmosphere]; exact gas)) (frozen_idle s q)).2
  obtain ⟨phase, record⟩ := begun.record
  obtain ⟨timer, own⟩ := afterGasAbort_running (s := s.gassed q) (k := q.tube) (by
    rw [show ((s.gassed q).tube q.tube).gas.run = _ from record]; exact Option.some_ne_none _)
  rw [show (s.abortTube q).tube q.tube = _ from own]
  exact closed

theorem Silent.afterGasAbort (s : State) : Silent k s (s.afterGasAbort k) := by
  rcases afterGasAbort_cases s k with ⟨-, ends⟩ | ⟨-, starts | stays⟩
  · rw [ends]; exact (Silent.modTube s _).trans (.place _ _)
  · rw [starts]; exact .modTube s _
  · rw [stays]; exact .refl s

theorem afterGasAbort_gas (s : State) (k : Tube) : ((s.afterGasAbort k).tube k).gas = (s.tube k).gas := by
  rcases afterGasAbort_cases s k with ⟨-, ends⟩ | ⟨-, starts | stays⟩
  · rw [ends, endAbort_tube]; rfl
  · rw [starts, startClaimTimer_tube]
  · rw [stays]

/-- R105: with no waiting claim, what an abort leaves under way. -/
theorem abortTube_underway (none_ : s.budget.claims = []) : AbortUnderway q.tube s (s.abortTube q) := by
  have silent := frozen_silent (q := q) none_
  have froze := frozen_tube s q
  have gas := frozen_gas (q := q) none_
  have part := gasAbort_underway (s := s.frozen q) (k := q.tube) (by rw [silent.claims]; exact none_)
  have last : Silent q.tube (s.gassed q) (s.abortTube q) := .afterGasAbort _
  have run : ((s.abortTube q).tube q.tube).gas = (((s.frozen q).gasAbort q.tube).tube q.tube).gas := afterGasAbort_gas _ _
  have address : ∀ l, (s.frozen q).lineAddr q.tube l = s.lineAddr q.tube l := fun l => by
    rw [State.lineAddr, silent.binding]; rfl
  have closes : ∀ l, (s.frozen q).closes q.tube LineRec.reactive l ↔ s.closes q.tube LineRec.reactive l := fun l => by
    rw [State.closes, gas]; rfl
  have underway : ∀ b, (s.abortTube q).underway b = ((s.frozen q).gasAbort q.tube).underway b := last.underway
  obtain ⟨others, closed, flowing, claiming, elsewhere, rest⟩ := part
  simp only [address, closes, gas, froze.header, silent.underway] at closed flowing claiming elsewhere rest
  refine ⟨fun j other => ?_, ?_, ?_, ?_, ?_, ?_⟩
  · exact ((last.others j other).trans (others j other)).trans (silent.others j other)
  · simpa only [underway] using closed
  · simpa only [underway, run] using flowing
  · simpa only [underway, run] using claiming
  · simpa only [underway] using elsewhere
  · simpa only [underway] using rest

/-- Settles O49. -/
theorem abortRequestIsTaken : Obligations.AbortRequestIsTaken := by
  intro s q rest waits
  let u := s.modAbort fun a => { a with requests := rest }
  intro x working
  have exec_ : exec .abortRequest s = .next (s.finish (u.takeAbort q)) := by
    unfold exec execAbortRequest; rw [waits]
  have taken : Elsewhere (some q.tube) s u :=
    { (Elsewhere.refl s).weaken (k := some q.tube) with latch := ⟨rfl, rfl, rfl⟩ }
  have event : Local q.tube u (u.takeAbort q) := .takeAbort u q
  have after := Finished.finish s (u.takeAbort q)
  have kept : Elsewhere (some q.tube) s (s.finish (u.takeAbort q)) :=
    (taken.trans event.elsewhere).trans after.elsewhere.weaken
  refine ⟨_, exec_, ?_⟩
  cases present : s.present q.tube with
  | false =>
    have absent : u.takeAbort q = u := takeAbort_absent present
    have off : ¬ working := fun h => Bool.false_ne_true (present.symm.trans h.1)
    rw [absent] at after kept ⊢
    have still : Still u (s.finish u) := Still.finish fun _ => .inr (.inr rfl)
    exact ⟨after.abort, kept, fun _ => ⟨still.tube q.tube, still.kept⟩, nofun, fun h => absurd h off,
      fun h => absurd h off, fun h => absurd h off, fun h => absurd h off, fun _ h => absurd h off, fun h => absurd h off⟩
  | true =>
    cases works : x.mode.working with
    | false =>
      have again : u.takeAbort q = u.abortAgain q := takeAbort_again present works
      have off : ¬ working := fun h => Bool.false_ne_true (works.symm.trans h.2)
      rw [again] at after kept event ⊢
      have quiet : NoneDue u (u.abortAgain q) := event.noneDue (fun _ _ => rfl) (.inr (.inr (.refl _)))
      have still : Still (u.abortAgain q) (s.finish (u.abortAgain q)) := Still.finish quiet
      exact ⟨after.abort, kept, nofun, fun _ _ => ⟨still.tube q.tube, Reports.of_place (u := u) rfl after.clock after.buffer⟩,
        fun h => absurd h off, fun h => absurd h off, fun h => absurd h off, fun h => absurd h off,
        fun _ h => absurd h off, fun h => absurd h off⟩
    | true =>
      have aborts : u.takeAbort q = u.abortTube q := takeAbort_working present works
      rw [aborts] at after kept event ⊢
      have froze := frozen_tube u q
      have part := abortTube_aborts u q
      have shift := after.tubes q.tube
      have rests := part.tube.trans (shift.rests part.tube.idle)
      refine ⟨after.abort.trans (abortTube_abort u q), kept, nofun, nofun, fun _ => ?_, fun _ run gas => ?_, fun _ gas => ?_,
        fun _ gas l other reactive => ?_, fun run _ gas runs => ?_, fun _ none_ ordered => ?_⟩
      · refine ⟨rests.cause.trans froze.cause, rests.begin_.trans froze.begin_, rests.queue froze.queue,
          rests.gap.trans froze.gap, ?_, rests.ramp.trans froze.ramp, ?_⟩
        · obtain ⟨first, buffer, clock, event'⟩ := abortTube_reports u q
          have placed := event'.finished after
          exact Reports.of_place (u := first) buffer placed.clock placed.buffer
        · have boat : ((s.finish (u.abortTube q)).tube q.tube).boat = x.boat.freeze x.header.inThreshold :=
            rests.boat.trans froze.boat
          rw [boat]
          unfold Boat.freeze Boat.rest
          cases x.boat.state <;> simp
      · obtain ⟨mode, ended, same⟩ := abortTube_ends (s := u) run gas
        have stopped := shift.stopped (by rw [mode]; nofun)
        refine ⟨shift.mode.trans mode, by rw [stopped.summary]; exact ended, ?_⟩
        rw [(shift.gasIdle rfl (.inl (by rw [mode]; nofun))).atmosphere, same]
        rfl
      · obtain ⟨mode, begun⟩ := abortTube_clears (s := u) gas
        have begun' := begun.shift shift
        exact ⟨shift.mode.trans mode, begun'.atmosphere, begun'.accumulator, begun'.record, begun'.limit⟩
      · have closed := abortTube_closes (s := u) gas other reactive
        have header : ((u.abortTube q).tube q.tube).header = x.header := part.tube.header.trans froze.header
        rw [(shift.gasIdle rfl (.inl (notRun_of_idle part.tube.idle))).lines l (by rw [header]; exact other)]
        exact closed
      · obtain ⟨mode, atmosphere, accumulator, course⟩ := abortTube_purges (s := u) gas runs
        have purge := shift.purgeKept atmosphere
        obtain ⟨now, runs', same⟩ := Option.map_eq_some_iff.mp (purge.course.trans course)
        simp only [Run.course, Prod.mk.injEq] at same
        exact ⟨purge.mode.trans mode, purge.atmosphere, purge.accumulator.trans accumulator, now, runs', same⟩
      · intro purgeAddr closed clears
        have part' := abortTube_underway (s := u) (q := q) none_
        have still : Still (u.abortTube q) (s.finish (u.abortTube q)) :=
          Still.finish (event.noneDue part'.others (.inl (part.tube.queue froze.queue)))
        have underway : ∀ b, (s.finish (u.abortTube q)).underway b = (u.abortTube q).underway b :=
          still.underway (event.delivery ordered)
        have gas : ((s.finish (u.abortTube q)).tube q.tube).gas = ((u.abortTube q).tube q.tube).gas := by
          rw [still.tube]
        rw [gas]
        simp only [underway]
        refine ⟨fun l shut apart => part'.closed shut.1 l shut.2 apart, fun run clears => part'.flowing clears run,
          fun run clears runs claims apart => ?_, fun b clears off apart => ?_, part'.rest⟩
        · exact part'.claiming clears run runs claims purgeAddr fun l process shut => (apart l ⟨process, shut⟩).symm
        · exact part'.elsewhere b off fun l process shut => apart l ⟨process, shut⟩

end Sys2Proof.Machine

/-! The first trip (R150, R151): the sequence of every working tube, one after another. -/

namespace Sys2Proof.Machine

variable {s u w : State} {k : Tube} {q : TripRequest}

/-! ## A tube aborted by a trip -/

/-- What a first trip leaves of a tube it aborts. -/
structure TripAborted (clock : Long) (y : TubeState) : Prop where
  idle : y.mode.working = false
  cause : y.abortCause = .bankTrip
  begin_ : y.abortBegin = clock
  queue : y.queue = []
  thermal : y.ramp.thermal = .held
  held : y.ramp.cause = .abort

theorem TripAborted.shift {P : Prop} {clock : Long} {x y : TubeState} (h : TripAborted clock x)
    (g : TubeShift false P x y) : TripAborted clock y := by
  have rests := g.rests h.idle
  exact ⟨rests.idle, rests.cause.trans h.cause, rests.begin_.trans h.begin_, rests.queue h.queue,
    (congrArg Ramp.thermal rests.ramp).trans h.thermal, (congrArg Ramp.cause rests.ramp).trans h.held⟩

theorem abortTube_tripAborted (s : State) (q : TripRequest) (k : Tube) :
    TripAborted s.clock ((s.abortTube (tripAbort q k)).tube k) := by
  have froze := frozen_tube s (tripAbort q k)
  have rests := (abortTube_aborts s (tripAbort q k)).tube
  have ramp := rests.ramp.trans froze.ramp
  exact ⟨rests.idle, rests.cause.trans froze.cause, rests.begin_.trans froze.begin_, rests.queue froze.queue,
    congrArg Ramp.thermal ramp, congrArg Ramp.cause ramp⟩

theorem Mode.aborts_of_idle {m : Mode} (idle : m.working = false) : m = .aborting ∨ m = .aborted := by
  cases m with
  | run => cases idle
  | hold => cases idle
  | aborting => exact .inl rfl
  | aborted => exact .inr rfl

/-! ## The bank -/

/-- The sequences of the tubes `ks`, one after another. -/
def State.abortThose (s : State) (q : TripRequest) (ks : List Tube) : State :=
  ks.foldl (fun acc k => acc.abortTube (tripAbort q k)) s

/-- What aborting the tubes `ks` leaves. -/
structure AbortsThose (ks : List Tube) (s t : State) : Prop where
  abort : t.abort = s.abort
  mem : t.mem = s.mem
  root : t.root = s.root
  loader : t.loader = s.loader
  clock : t.clock = s.clock
  buffer : ∃ l, t.notices.buffer = s.notices.buffer ++ l
  aborted : ∀ k ∈ ks, TripAborted s.clock (t.tube k)
  others : ∀ k, k ∉ ks → TubeShift false True (s.tube k) (t.tube k)

theorem AbortsThose.step (s : State) (q : TripRequest) (k : Tube) : AbortsThose [k] s (s.abortTube (tripAbort q k)) := by
  have event : Local k s (s.abortTube (tripAbort q k)) := .abortTube s (tripAbort q k)
  refine ⟨abortTube_abort s _, event.mem, event.root, event.loader, event.clock, event.buffer, fun j mem => ?_,
    fun j off => event.others j fun same => off (by rw [same]; exact List.mem_singleton_self k)⟩
  obtain rfl := List.mem_singleton.mp mem
  exact abortTube_tripAborted s q j

theorem AbortsThose.trans {js ks : List Tube} (h : AbortsThose js s u) (g : AbortsThose ks u w) :
    AbortsThose (js ++ ks) s w := by
  obtain ⟨first, before⟩ := h.buffer
  obtain ⟨next, behind⟩ := g.buffer
  refine ⟨g.abort.trans h.abort, g.mem.trans h.mem, g.root.trans h.root, g.loader.trans h.loader, g.clock.trans h.clock,
    ⟨first ++ next, by rw [behind, before, List.append_assoc]⟩, fun k mem => ?_, fun k off => ?_⟩
  · by_cases again : k ∈ ks
    · rw [← h.clock]; exact g.aborted k again
    · exact (h.aborted k ((List.mem_append.mp mem).resolve_right again)).shift (g.others k again)
  · rw [List.mem_append, not_or] at off
    exact (h.others k off.1).trans (g.others k off.2)

theorem abortThose_aborts (q : TripRequest) : ∀ (ks : List Tube) (s : State), AbortsThose ks s (s.abortThose q ks)
  | [], s => ⟨rfl, rfl, rfl, rfl, rfl, ⟨[], by rw [List.append_nil]; rfl⟩, nofun, fun _ _ => .refl _ _⟩
  | k :: ks, s => (AbortsThose.step s q k).trans (abortThose_aborts q ks _)

theorem mem_workingTubes : k ∈ workingTubes s ↔ s.present k = true ∧ (s.tube k).mode.working = true := by
  unfold workingTubes State.presentTubes
  rw [List.mem_filter, List.mem_filter]
  have works : ((s.tube k).mode == .run || (s.tube k).mode == .hold) = (s.tube k).mode.working := by
    cases (s.tube k).mode <;> rfl
  rw [works]
  exact ⟨fun ⟨⟨_, present⟩, works⟩ => ⟨present, works⟩, fun ⟨present, works⟩ => ⟨⟨Ix4.mem_all k, present⟩, works⟩⟩

theorem workingTubes_eq (s : State) :
    workingTubes s = [Ix4.i0, .i1, .i2, .i3].filter fun k => s.present k && (s.tube k).mode.working := by
  unfold workingTubes State.presentTubes
  rw [List.filter_filter]
  refine List.filter_congr fun k _ => ?_
  rw [Bool.and_comm]
  cases (s.tube k).mode <;> rfl

theorem takeTrip_first (clear : s.abort.latch = false) : s.takeTrip q = s.firstTrip q := by
  unfold State.takeTrip
  rw [clear]
  exact if_neg Bool.false_ne_true

/-- Settles O50. -/
theorem firstTripAbortsTheBank : Obligations.FirstTripAbortsTheBank := by
  intro s q rest waits clear ticket working
  let latched := (s.modAbort fun a => { a with trips := rest }).modAbort fun a =>
    { a with latch := true, tripCause := q.cause, tripTime := s.clock }
  let told := latched.place (tripNotice (s.modAbort fun a => { a with trips := rest }) q (wordOf (workingTubes latched).length))
  let tripped := told.abortThose q (workingTubes latched)
  have exec_ : exec .bankTrip s = .next (s.finish tripped) := by
    unfold exec execBankTrip
    rw [waits]
    exact congrArg (fun w => Host.Outcome.next (s.finish w)) (takeTrip_first (s := s.modAbort _) clear)
  have all : AbortsThose (workingTubes latched) told tripped := abortThose_aborts q _ told
  have after := Finished.finish s tripped
  have same : workingTubes latched = workingTubes s := rfl
  refine ⟨_, exec_, after.abort.trans all.abort, ?_, after.mem.trans all.mem, after.root.trans all.root, ?_, ?_,
    fun k works => ?_, fun k rests => ?_⟩
  · unfold State.tripOutput
    rw [after.abort, all.abort]
    rfl
  · exact RootWordDue.of_latch all.loader (by rw [clear, all.abort]; exact Bool.false_ne_true)
  · have reports : Reports s (s.finish tripped)
        (tripNotice (s.modAbort fun a => { a with trips := rest }) q (wordOf (workingTubes latched).length)) := by
      refine Reports.of_place (u := latched) rfl (after.clock.trans all.clock) ?_
      obtain ⟨first, before⟩ := all.buffer
      obtain ⟨next, behind⟩ := after.buffer
      exact ⟨first ++ next, by rw [behind, before, List.append_assoc]⟩
    rw [same, workingTubes_eq] at reports
    exact reports
  · have aborted := (all.aborted k (by rw [same]; exact mem_workingTubes.mpr works)).shift (after.tubes k)
    exact ⟨Mode.aborts_of_idle aborted.idle, aborted.cause, aborted.begin_, aborted.queue, aborted.thermal, aborted.held⟩
  · exact ((all.others k (by rw [same]; exact fun mem => rests (mem_workingTubes.mp mem))).trans (after.tubes k)).kept

end Sys2Proof.Machine

/-! Scan arrivals (R156, R159 to R162). -/

namespace Sys2Proof.Machine

variable {s : State} {p : Pass} {r : ScanRecord} {v : Word}

/-! ## The limit check -/

/-- R161: the record acts on the value. -/
def ScanRecord.acts (r : ScanRecord) (v : Word) : Prop :=
  (r.enable = true ∧ (r.high.toNat < v.toNat ∨ v.toNat < r.low.toNat)) ∧ r.counter + 1 = r.tripCount

/-- R160: the record's counter after the value. -/
def ScanRecord.counted (r : ScanRecord) (v : Word) : Nat :=
  if r.enable = false then r.counter
  else if ¬ (r.enable = true ∧ (r.high.toNat < v.toNat ∨ v.toNat < r.low.toNat)) ∨ r.counter + 1 = r.tripCount then 0
  else min 15 (r.counter + 1)

theorem outOfLimits_iff : r.outOfLimits v = true ↔ r.high.toNat < v.toNat ∨ v.toNat < r.low.toNat := by
  simp only [ScanRecord.outOfLimits, Bool.or_eq_true, decide_eq_true_eq]

theorem setCounter_self {i : Nat} (at_ : s.scanner.list[i]? = some r) : s.setCounter i r r.counter = s := by
  have same : s.scanner.list.set i r = s.scanner.list := by
    obtain ⟨within, at'⟩ := List.getElem?_eq_some_iff.mp at_
    rw [← at']
    exact List.set_getElem_self within
  show ({ s with scanner := { s.scanner with list := s.scanner.list.set i r } } : State) = s
  rw [same]

/-- R160. -/
theorem limitCheck_eq {i : Nat} (at_ : s.scanner.list[i]? = some r) :
    (r.acts v → s.limitCheck i r v = (s.setCounter i r (r.counted v)).scanAction i r v)
      ∧ (¬ r.acts v → s.limitCheck i r v = s.setCounter i r (r.counted v)) := by
  unfold State.limitCheck ScanRecord.acts ScanRecord.counted
  cases enable : r.enable with
  | false =>
    refine ⟨fun acts => absurd acts.1.1 Bool.false_ne_true, fun _ => ?_⟩
    rw [if_pos rfl]
    exact (if_pos rfl).trans (setCounter_self at_).symm
  | true =>
    rw [if_neg (show ¬ true = false by nofun)]
    by_cases out : r.high.toNat < v.toNat ∨ v.toNat < r.low.toNat
    · rw [outOfLimits_iff.mpr out]
      by_cases full : r.counter + 1 = r.tripCount
      · exact ⟨fun _ => by simp [full], fun quiet => absurd ⟨⟨rfl, out⟩, full⟩ quiet⟩
      · exact ⟨fun acts => absurd acts.2 full, fun _ => by simp [full, out]⟩
    · have inside : r.outOfLimits v = false := by rw [← Bool.not_eq_true, outOfLimits_iff]; exact out
      rw [inside]
      exact ⟨fun acts => absurd acts.1.2 out, fun _ => by simp [out]⟩

/-! ## The action (R161) -/

/-- The Abort Controller after a record's action. -/
def State.scanActs (s : State) (i : Nat) (r : ScanRecord) (v : Word) : AbortControl :=
  match r.target with
  | none => s.abort
  | some target =>
    if r.bankTrip = true then { s.abort with trips := s.abort.trips ++ [⟨.scanLimit, target.tube, wordOf i, v⟩] }
    else { s.abort with requests := s.abort.requests
      ++ (match target.tube with | some k => [k] | none => [Ix4.i0, .i1, .i2, .i3]).map fun k =>
        ⟨k, .scanLimit, none, wordOf i, v⟩ }

theorem scanAction_eq (s : State) (i : Nat) (r : ScanRecord) (v : Word) :
    s.scanAction i r v = { s with abort := s.scanActs i r v } := by
  unfold State.scanAction State.scanActs
  cases r.target with
  | none => rfl
  | some target =>
    dsimp only
    by_cases trips : r.bankTrip = true
    · rw [if_pos trips, if_pos trips]; rfl
    · rw [if_neg trips, if_neg trips]
      cases target.tube with
      | some k => rfl
      | none => exact requests_foldl _ _ _

/-! ## The arrival (R159) -/

/-- R159: the samples handed on. -/
def State.handed (s : State) (target : Option ScanTarget) (v : Word) : List LineArrival :=
  match target with
  | some (.line k l) => if s.present k = true then [⟨k, l, v⟩] else []
  | _ => []

theorem handed_line {target : Option ScanTarget} {k : Tube} {l : Line} (line : target = some (.line k l))
    (present : s.present k = true) : s.handed target v = [⟨k, l, v⟩] := by
  rw [line]
  exact if_pos present

theorem handed_off {target : Option ScanTarget} (off : ∀ k l, target = some (.line k l) → s.present k = false) :
    s.handed target v = [] := by
  unfold State.handed
  split
  · next k l => exact if_neg (by rw [off k l rfl]; exact Bool.false_ne_true)
  · rfl

theorem handSample_eq (s : State) (target : Option ScanTarget) (v : Word) :
    s.handSample target v = { s with arrivals := s.arrivals ++ s.handed target v } := by
  unfold State.handSample
  split
  · next k l =>
    by_cases present : s.present k = true
    · rw [if_pos present, handed_line rfl present]
    · rw [if_neg present, handed_off, List.append_nil]
      intro j m same
      cases same
      exact Bool.not_eq_true _ ▸ present
  · next off =>
    rw [handed_off (fun k l same => absurd same (off k l)), List.append_nil]

/-- R159: the Measured Table after the value. -/
def Measured.taken (m : Measured) (target : Option ScanTarget) (v : Word) : Measured :=
  match target with
  | some target => m.sample target v
  | none => m

theorem sampleTarget_eq (s : State) (target : Option ScanTarget) (v : Word) :
    s.sampleTarget target v = { s with measured := s.measured.taken target v } := by
  cases target <;> rfl

theorem scanArrived_eq (at_ : s.scanner.list[p.index]? = some r) :
    ∃ ctl : AbortControl, s.scanArrived p v = { s with
        measured := s.measured.taken r.target v
        arrivals := s.arrivals ++ s.handed r.target v
        scanner := ({ s.scanner with
          list := s.scanner.list.set p.index { r with counter := r.counted v } } : Scanner).nextRecord p
        abort := ctl }
      ∧ (¬ r.acts v → ctl = s.abort) ∧ (r.acts v → ctl = s.scanActs p.index r v) := by
  obtain ⟨acting, resting⟩ := limitCheck_eq (s := (s.sampleTarget r.target v).handSample r.target v) (v := v)
    (i := p.index) (r := r) (by rw [sampleTarget_eq, handSample_eq]; exact at_)
  unfold State.scanArrived
  simp only [at_]
  by_cases acts : r.acts v
  · rw [acting acts, scanAction_eq, sampleTarget_eq, handSample_eq]
    exact ⟨_, rfl, fun quiet => absurd acts quiet, fun _ => rfl⟩
  · rw [resting acts, sampleTarget_eq, handSample_eq]
    exact ⟨_, rfl, fun _ => rfl, fun h => absurd h acts⟩

theorem nextRecord_some {c : Scanner} {i : Nat} (next : nextActive c.list (p.index + 1) = some i) :
    c.nextRecord p = { c with pass := some { p with index := i, done := p.done + 1 } } := by
  unfold Scanner.nextRecord; rw [next]

theorem nextRecord_none {c : Scanner} (none_ : nextActive c.list (p.index + 1) = none) :
    c.nextRecord p = c.passCompleted := by
  unfold Scanner.nextRecord; rw [none_]

/-! ## The read -/

/-- The state a scan read leaves, its board's word written. -/
def State.scanRead (s : State) (a : BusAccess) (board : Option Word) : State :=
  (s.takeDue.boardWrite a.addr board).completeBus

theorem scanRead_eq {a : BusAccess} {board : Option Word} (flight : InFlight s .scan a) (read : a.write = none) :
    s.scanRead a board = { s.takeDue with
      mem := (s.boardWrite a.addr board).mem, bus := { s.bus with inFlight := none } } := by
  have same : (s.takeDue.boardWrite a.addr board).mem = (s.boardWrite a.addr board).mem := by
    rw [takeDue_eq]; cases board <;> rfl
  have bus : (s.takeDue.boardWrite a.addr board).bus = s.bus := by
    rw [takeDue_eq]; cases board <;> rfl
  unfold State.scanRead
  rw [completeBus_read (by rw [bus]; exact flight.1) read, bus, ← same]
  cases board <;> rfl

/-- Settles O52. -/
theorem scanArrivalIsTaken : Obligations.ScanArrivalIsTaken := by
  intro s a board p r flight read under at_ wf v out acts counter list
  have found : (s.takeDue.boardWrite a.addr board).readWord a.addr = v := by
    have same : (s.takeDue.boardWrite a.addr board).readWord a.addr = (s.boardWrite a.addr board).readWord a.addr := by
      rw [takeDue_eq]; cases board <;> rfl
    rw [same]
    cases board with
    | none => rfl
    | some w => exact (State.readWord_writeWord _ _ _ wf).trans (if_pos rfl)
  have exec_ : exec (.scanArrival board) s = .next (s.takeDue.finish ((s.scanRead a board).scanArrived p v)) := by
    unfold exec execScanArrival
    have pass : s.takeDue.scanner.pass = some p := by rw [takeDue_eq]; exact under
    simp only [openBus_of_inFlight flight, inFlightOf_of_inFlight flight, pass, found]
    rfl
  have event : Finished s s.takeDue := .takeDue s
  have reads := scanRead_eq (board := board) flight read
  obtain ⟨ctl, arrives, quiet, acting⟩ := scanArrived_eq (s := s.scanRead a board) (p := p) (r := r) (v := v)
    (by rw [reads]; exact (congrArg (fun c : Scanner => c.list[p.index]?) event.scanner).trans at_)
  have abort : (s.scanRead a board).abort = s.abort := by rw [reads]; exact event.abort
  have scanner : (s.scanRead a board).scanner = s.scanner := by rw [reads]; exact event.scanner
  have arrivals : (s.scanRead a board).arrivals = s.arrivals := by rw [reads]; exact event.arrivals
  have measured : (s.scanRead a board).measured = s.measured := by rw [reads]; exact event.measured
  have root : (s.scanRead a board).root = s.root := by rw [reads]; exact event.root
  have port : (s.scanRead a board).port = s.port := by rw [reads]; exact event.port
  have mem : (s.scanRead a board).mem = (s.boardWrite a.addr board).mem := by rw [reads]
  have tubes : ∀ k, (s.scanRead a board).tube k = s.tube k := fun k => by rw [reads, takeDue_eq]; rfl
  have handed : (s.scanRead a board).handed r.target v = s.handed r.target v := by
    unfold State.handed State.present; rw [root]
  have actions : (s.scanRead a board).scanActs p.index r v = s.scanActs p.index r v := by
    unfold State.scanActs; rw [abort]
  have after := Finished.finish s.takeDue ((s.scanRead a board).scanArrived p v)
  have kept : ∀ i, p.index < i → (s.scanner.list.set p.index { r with counter := r.counted v })[i]? = s.scanner.list[i]? :=
    fun i later => List.getElem?_set_ne (Nat.ne_of_lt later)
  rw [arrives] at after exec_
  refine ⟨_, exec_, fun b => ?_, after.port.trans port, after.root.trans root, fun k => ?_, ?_, fun k l line present => ?_,
    fun off => ?_, fun i next later at' active sooner => ?_, fun none_ => ?_, fun still => ?_, fun target act at' trips => ?_,
    fun target act at' trips => ?_⟩
  · have word : State.readWord _ b = (s.boardWrite a.addr board).readWord b :=
      congrArg (·.read b.toNat) (after.mem.trans mem)
    rw [word]
    cases board with
    | none => rfl
    | some w => exact State.readWord_writeWord _ _ _ wf
  · rw [← tubes k]
    exact (after.tubes k).kept
  · rw [after.measured, measured]; rfl
  · rw [after.arrivals, arrivals, handed, handed_line line present]
  · rw [after.arrivals, arrivals, handed, handed_off off, List.append_nil]
  · rw [after.scanner, scanner]
    refine nextRecord_some (nextActive_some later (kept i later ▸ at') active fun j mid from_ before there => ?_)
    exact sooner j mid from_ before (kept j from_ ▸ there)
  · rw [after.scanner, scanner]
    exact nextRecord_none (nextActive_none fun i next from_ there => none_ i next from_ (kept i from_ ▸ there))
  · rw [after.abort]; exact (quiet still).trans abort
  · rw [after.abort]
    refine (acting act).trans (actions.trans ?_)
    unfold State.scanActs
    rw [at']
    exact if_pos trips
  · rw [after.abort]
    refine (acting act).trans (actions.trans ?_)
    unfold State.scanActs
    rw [at']
    exact if_neg (by rw [trips]; exact Bool.false_ne_true)

end Sys2Proof.Machine

/-! Releases (R38, R41 to R43, R45): what a released head leaves of its queue and of the notices, and the queue's
timers. -/

namespace Sys2Proof.Machine

variable {s u w : State} {k : Tube} {e f : HeldEntry} {rest : List HeldEntry} {rescan : State → State}

/-! ## What a release and what follows it keep -/

/-- The clock, the notices placed, the entries in their order, and an empty queue with its last release. -/
structure Goes (k : Tube) (s t : State) : Prop where
  clock : t.clock = s.clock
  buffer : ∃ l, t.notices.buffer = s.notices.buffer ++ l
  suffix : (t.tube k).queue.map HeldEntry.core <:+ (s.tube k).queue.map HeldEntry.core
  empty : (s.tube k).queue = [] → (t.tube k).lastReleased = (s.tube k).lastReleased

theorem Goes.refl (s : State) : Goes k s s := ⟨rfl, ⟨[], (List.append_nil _).symm⟩, List.suffix_refl _, fun _ => rfl⟩

theorem Goes.emptyQueue (h : Goes k s u) (none_ : (s.tube k).queue = []) : (u.tube k).queue = [] := by
  have suffix := h.suffix
  rw [none_, List.map_nil, List.suffix_nil, List.map_eq_nil_iff] at suffix
  exact suffix

theorem Goes.trans (h : Goes k s u) (g : Goes k u w) : Goes k s w := by
  obtain ⟨first, before⟩ := h.buffer
  obtain ⟨next, behind⟩ := g.buffer
  exact ⟨g.clock.trans h.clock, ⟨first ++ next, by rw [behind, before, List.append_assoc]⟩, g.suffix.trans h.suffix,
    fun none_ => (g.empty (h.emptyQueue none_)).trans (h.empty none_)⟩

theorem Shift.goes (h : Shift none True s u) : Goes k s u :=
  ⟨h.clock, h.notices.buffer, (h.tubes k).suffix, fun none_ => ((h.tubes k).untouched rfl none_).released⟩

theorem Finished.goes (h : Finished s u) : Goes k s u :=
  ⟨h.clock, h.buffer, (h.tubes k).suffix, fun none_ => ((h.tubes k).untouched rfl none_).released⟩

theorem Goes.setTube {x : TubeState} (queue : x.queue = (s.tube k).queue)
    (released : x.lastReleased = (s.tube k).lastReleased) : Goes k s (s.setTube k x) := by
  refine ⟨rfl, ⟨[], (List.append_nil _).symm⟩, ?_, ?_⟩ <;> rw [tube_setTube_self]
  · exact queue ▸ List.suffix_refl _
  · exact fun _ => released

theorem Goes.modRamp (s : State) (f : Ramp → Ramp) : Goes k s (s.modRamp k f) := .setTube rfl rfl

theorem Goes.modGas (s : State) (f : Gas → Gas) : Goes k s (s.modGas k f) := .setTube rfl rfl

theorem Goes.modBoat (s : State) (f : Boat → Boat) : Goes k s (s.modBoat k f) := .setTube rfl rfl

theorem Goes.modSummary (s : State) (f : Summary → Summary) : Goes k s (s.modSummary k f) := .setTube rfl rfl

theorem Goes.place (s : State) (n : Notice) : Goes k s (s.place n) := (Shift.place none s n).goes

theorem Goes.deliver (s : State) (a : Addr) (v : Word) (b : Bool) : Goes k s (s.deliver a v b) :=
  (Shift.deliver none s a v b).goes

theorem Goes.setFlow (s : State) (l : Line) (v : Word) (b : Bool) : Goes k s (s.setFlow k l v b) :=
  (Goes.modGas s _).trans (.deliver _ _ _ _)

/-! ## A release (R42) -/

section
variable (scans : ∀ s, Shift none True s (rescan s))
include scans

theorem Goes.freeSlot (s : State) : Goes k s (s.freeSlot rescan k) := by
  unfold State.freeSlot
  split
  · exact (Goes.modRamp s _).trans (scans _).goes
  · exact .refl s

theorem Goes.startRun (s : State) (r : RunStart) : Goes k s (s.startRun rescan k r) := by
  have joined : ∀ (c : State) (n : Nat) (p : Priority) (o : Origin), Goes k c (c.joinClaim k .exhaust n p o) :=
    fun c n p o => (Shift.joinClaim none c k .exhaust n p o).goes
  unfold State.startRun
  dsimp only
  split
  · refine Goes.trans ?_ (.modGas _ _)
    split
    · exact ((Goes.modGas s _).trans (.setFlow _ _ _ _)).trans (scans _).goes
    · exact (Goes.modGas s _).trans (.setFlow _ _ _ _)
  · exact ((Goes.modGas s _).trans (joined _ _ _ _)).trans (scans _).goes

theorem Goes.applyZone (s : State) (z : Zone) (n : Nat) (v c : Word) : Goes k s (s.applyZone rescan k z n v c) := by
  unfold State.applyZone
  dsimp only
  split
  · exact (Goes.modRamp s _).trans (.modRamp _ _)
  · split
    · exact (Goes.modRamp s _).trans (.modRamp _ _)
    · exact ((Goes.modRamp s _).trans (.modRamp _ _)).trans (.freeSlot scans _)
    · exact ((Goes.modRamp s _).trans (.modRamp _ _)).trans (.freeSlot scans _)

theorem Goes.lowerLine (s : State) (l : Line) (v : Word) : Goes k s (s.lowerLine rescan k l v) := by
  unfold State.lowerLine
  dsimp only
  split
  · exact (Goes.setFlow s l v true).trans (scans _).goes
  · exact .setFlow s l v true

theorem Goes.applyLine (s : State) (l : Line) (v : Word) (n : Nat) : Goes k s (s.applyLine rescan k l v n) := by
  unfold State.applyLine
  dsimp only
  split
  · split
    · exact ((Goes.modGas s _).trans (.deliver _ _ _ _)).trans (scans _).goes
    · exact (Goes.modGas s _).trans (.deliver _ _ _ _)
  · refine (Goes.lowerLine scans s l v).trans ?_
    unfold State.clearingTest
    split
    · exact .startRun scans _ _
    · exact .refl _

theorem Goes.applyEntry (s : State) (e : HeldEntry) (n : Nat) : Goes k s (s.applyEntry rescan k e n) := by
  have done : ∀ (c : State) (m : Nat), Goes k c (c.boatDone k m) := fun c m => (Goes.modSummary c _).trans (.place _ _)
  unfold State.applyEntry
  split
  · exact .applyZone scans s _ _ _ _
  · exact .applyLine scans s _ _ _
  · unfold State.applyBoat
    dsimp only
    split
    · split
      · exact ((Goes.modBoat s _).trans (.modBoat _ _)).trans (done _ _)
      · exact ((Goes.modBoat s _).trans (.modBoat _ _)).trans (done _ _)
    · exact (Goes.modBoat s _).trans (.modBoat _ _)

/-- R42, steps 1 to 3: the head has left, its notice is placed, its ticket recorded. -/
def State.unheaded (s : State) (k : Tube) (e : HeldEntry) : State :=
  ((s.modTube k fun x => { x with queue := x.queue.tail }).place
    (releasedNotice k e.channel (if e.held = true then .queued else .immediate) e.ticket e.value e.acceptedAt)).modTube k
      fun x => { x with lastReleased := e.ticket }

omit scans in
theorem unheaded_tube (s : State) (k : Tube) (e : HeldEntry) : (s.unheaded k e).tube k
    = { s.tube k with queue := (s.tube k).queue.tail, lastReleased := e.ticket } := by
  unfold State.unheaded
  rw [tube_modTube_eq, State.tube_place, tube_modTube_eq]

omit scans in
theorem unheaded_others (s : State) (e : HeldEntry) {j : Tube} (other : j ≠ k) : (s.unheaded k e).tube j = s.tube j :=
  (tube_setTube_ne _ _ other).trans (tube_setTube_ne _ _ other)

theorem releaseHead_goes (s : State) (e : HeldEntry) (n : Nat) : Goes k (s.unheaded k e) (s.releaseHead rescan k e n) := by
  have applied : Goes k (s.unheaded k e) ((s.unheaded k e).applyEntry rescan k e n) := .applyEntry scans _ _ _
  unfold State.releaseHead
  dsimp only
  split
  · exact applied.trans (.setTube rfl rfl)
  · exact applied

end

/-! ## Examinations that release (R38, R41, R131) -/

/-- R38: a WAITING head whose tests hold and that needs no claim is released. -/
theorem examine_releases (scans : ∀ s, Shift none True s (rescan s)) (queue : (s.tube k).queue = e :: rest)
    (passes : s.firstFailure k e = none) (waiting : e.state = .waiting) (none_ : neededClaim (s.tube k) e = none) :
    Shift none True (s.releaseHead rescan k e 0) (s.examineWith rescan k) := by
  have first : s.examineWith rescan k
      = State.examineLoop rescan k (2 * (s.tube k).queue.length + 1) (s.releaseHead rescan k e 0) := by
    show State.examineLoop _ _ (2 * (s.tube k).queue.length + 1 + 1) s = _
    conv => lhs; unfold State.examineLoop
    simp only [queue, passes, waiting, none_]
  rw [first]
  exact Shift.examineLoop scans k _ _

/-- R131: a scan grants the only claim on the list first, where it fits. -/
theorem scan_first {c : Claim} (only : s.budget.claims = [c]) (fits : c.amount ≤ s.freeOf c.pool) :
    Shift none True (s.grant c) s.scan := by
  have loop : ∀ n, Shift none True (s.grant c) (State.scanLoop (n + 2) .exhaust false s) := fun n => by
    unfold State.scanLoop
    rw [front_one only]
    cases pool : c.pool with
    | exhaust =>
      rw [pool] at fits
      simp only [if_true, if_pos fits]
      exact Shift.scanLoop _ _ _ _
    | heat =>
      rw [pool] at fits
      simp only [reduceCtorEq, if_false, Bool.false_eq_true, Pool.other]
      unfold State.scanLoop
      rw [front_one only]
      simp only [pool, if_true, if_pos fits]
      exact Shift.scanLoop _ _ _ _
  obtain ⟨n, fuel⟩ : ∃ n, scanFuel s = n + 2 := ⟨scanFuel s - 2, by unfold scanFuel; omega⟩
  unfold State.scan
  rw [fuel]
  exact loop n

theorem rescan_first {c : Claim} (only : s.budget.claims = [c]) (fits : c.amount ≤ s.freeOf c.pool) :
    Shift none True (s.grant c) s.rescan := (scan_first only fits).trans (Shift.announce none _)

/-- A head with its claim. -/
def HeldEntry.claiming (e : HeldEntry) (pool : Pool) (amount : Nat) : HeldEntry :=
  { e with state := .claiming, claim := some (pool, amount) }

/-- The state at the grant of the head's claim, the only one. -/
def State.granting (s : State) (k : Tube) (e : HeldEntry) : State :=
  (s.setHead k e).modBudget fun b => { b with claims := [], joinCounter := b.joinCounter + 1 }

theorem granting_tube (s : State) (k : Tube) (e : HeldEntry) :
    (s.granting k e).tube k = { s.tube k with queue := e :: (s.tube k).queue.tail } := setHead_tube s k e

theorem granting_others (s : State) (e : HeldEntry) {j : Tube} (other : j ≠ k) : (s.granting k e).tube j = s.tube j :=
  tube_setTube_ne _ _ other

theorem granting_acts (s : State) (k : Tube) (e : HeldEntry) : SameActs s (s.granting k e) := ⟨rfl, rfl, rfl, rfl⟩

/-- The free units and slots are decided by the pools, the tubes present, the flows and the slots held. -/
theorem freeOf_same (budget : u.budget.capacity = s.budget.capacity) (slots : u.budget.slots = s.budget.slots)
    (root : u.root = s.root) (lines : ∀ j, (u.tube j).gas.lines = (s.tube j).gas.lines)
    (held : ∀ j, (u.tube j).ramp.slotHeld = (s.tube j).ramp.slotHeld) (pool : Pool) : u.freeOf pool = s.freeOf pool := by
  cases pool with
  | exhaust => exact freeUnits_same budget root lines
  | heat =>
    show u.freeSlots = s.freeSlots
    unfold State.freeSlots State.slotHolders
    simp only [slots, held]

theorem neededClaim_congr {x y : TubeState} (ramp : y.ramp = x.ramp) (gas : y.gas = x.gas) (kind : f.kind = e.kind)
    (value : f.value = e.value) : neededClaim y f = neededClaim x e := by
  unfold neededClaim
  rw [ramp, gas, kind, value]

/-- R41: a WAITING head whose tests hold joins the empty list with its claim, and is released at once where it fits. -/
theorem examine_grants {pool : Pool} {amount : Nat}
    (grants : ∀ {s : State} {c : Claim}, s.budget.claims = [c] → c.amount ≤ s.freeOf c.pool →
      Shift none True (s.grant c) (rescan s))
    (queue : (s.tube k).queue = e :: rest) (passes : s.firstFailure k e = none) (waiting : e.state = .waiting)
    (needs : neededClaim (s.tube k) e = some (pool, amount)) (none_ : s.budget.claims = [])
    (fits : amount ≤ s.freeOf pool) :
    Shift none True ((s.granting k (e.claiming pool amount)).releaseHead absorbed k (e.claiming pool amount)
      (if pool = .exhaust then amount else 0)) (s.examineWith rescan k) := by
  let c : Claim := ⟨k, pool, amount, .process, s.budget.joinCounter, .entry e.ticket e.channel, true⟩
  let joined := (s.setHead k (e.claiming pool amount)).joinClaim k pool amount .process (.entry e.ticket e.channel)
  have first : s.examineWith rescan k = rescan joined := by
    show State.examineLoop _ _ (2 * (s.tube k).queue.length + 1 + 1) s = _
    conv => lhs; unfold State.examineLoop
    simp only [queue, passes, waiting, needs]
    rfl
  have only : joined.budget.claims = [c] := by
    show s.budget.claims ++ _ = _
    rw [none_]; rfl
  have free : joined.freeOf pool = s.freeOf pool := by
    have same : ∀ j, (joined.tube j).gas = (s.tube j).gas ∧ (joined.tube j).ramp = (s.tube j).ramp := fun j => by
      by_cases own : j = k
      · subst own
        have tube : joined.tube j = { s.tube j with queue := e.claiming pool amount :: (s.tube j).queue.tail } :=
          granting_tube s j _
        rw [tube]
        exact ⟨rfl, rfl⟩
      · rw [show joined.tube j = s.tube j from tube_setTube_ne _ _ own]
        exact ⟨rfl, rfl⟩
    exact freeOf_same (s := s) (u := joined) rfl rfl rfl (fun j => by rw [(same j).1]) (fun j => by rw [(same j).2]) pool
  have granted : joined.grant c = (s.granting k (e.claiming pool amount)).headGrant k pool amount := by
    have erased : (joined.modBudget fun b => { b with claims := b.claims.erase c }) = s.granting k (e.claiming pool amount) := by
      have none_ : joined.budget.claims.erase c = [] := by rw [only, List.erase_cons_head]
      exact congrArg (fun cs => joined.modBudget fun b => { b with claims := cs }) none_
    unfold State.grant
    rw [erased]
    rfl
  have own := granting_tube s k (e.claiming pool amount)
  have released : joined.grant c = ((s.granting k (e.claiming pool amount)).releaseHead absorbed k (e.claiming pool amount)
      (if pool = .exhaust then amount else 0)).examineWith absorbed k := by
    have passes' : (s.granting k (e.claiming pool amount)).firstFailure k (e.claiming pool amount) = none := by
      exact (firstFailure_entry e (granting_acts s k _) ⟨_, _, _, _, _, own⟩ _ rfl rfl).trans passes
    have needs' : neededClaim ((s.granting k (e.claiming pool amount)).tube k) (e.claiming pool amount)
        = some (pool, amount) := by
      rw [own, ← needs]
      exact neededClaim_congr rfl rfl rfl rfl
    rw [granted]
    unfold State.headGrant
    rw [own] at needs' ⊢
    simp only [HeldEntry.claiming] at passes' needs' ⊢
    simp only [reduceCtorEq, if_false, passes', needs', if_true]
  have examined : Shift none True ((s.granting k (e.claiming pool amount)).releaseHead absorbed k (e.claiming pool amount)
      (if pool = .exhaust then amount else 0)) (joined.grant c) := by
    rw [released]
    exact Shift.examineWith Shift.absorbed _ k
  rw [first]
  exact examined.trans (grants only (free ▸ fits))

end Sys2Proof.Machine

/-! The queue's timers (R43, R45). -/

namespace Sys2Proof.Machine

variable {s u w : State} {k : Tube} {e : HeldEntry} {rest : List HeldEntry}

/-! ## Tickets -/

theorem tickets_of_core {a b : List HeldEntry} (h : a.map HeldEntry.core = b.map HeldEntry.core) :
    a.map (·.ticket) = b.map (·.ticket) := by
  have each := congrArg (List.map (·.ticket)) h
  rw [List.map_map, List.map_map] at each
  exact each

theorem tickets_suffix {a b : List HeldEntry} (h : a.map HeldEntry.core <:+ b.map HeldEntry.core) :
    a.map (·.ticket) <:+ b.map (·.ticket) := by
  have each := h.map (·.ticket)
  rw [List.map_map, List.map_map] at each
  exact each

theorem tickets_pass (r : Nat) (q : List HeldEntry) :
    (q.map fun e => { e with timer := Timer.pass r e.timer }).map (·.ticket) = q.map (·.ticket) := by
  rw [List.map_map]
  rfl

theorem entriesAhead_pass (r : Nat) (q : List HeldEntry) (n : Word) :
    entriesAhead (q.map fun e => { e with timer := Timer.pass r e.timer }) n = entriesAhead q n := by
  unfold entriesAhead
  rw [List.takeWhile_map, List.length_map]
  rfl

theorem tickets_filter (q : List HeldEntry) (n : Word) :
    (q.filter fun f => f.ticket != n).map (·.ticket) = (q.map (·.ticket)).filter fun m => m != n := by
  rw [List.filter_map]
  rfl

/-! ## The expiry of an entry (R45) -/

/-- The expired entry has left. -/
def State.dropped (s : State) (k : Tube) (e : HeldEntry) : State :=
  s.modTube k fun x => { x with queue := x.queue.filter fun f => f.ticket != e.ticket }

theorem dropped_tube (s : State) (k : Tube) (e : HeldEntry) : (s.dropped k e).tube k
    = { s.tube k with queue := (s.tube k).queue.filter fun f => f.ticket != e.ticket } := tube_modTube_eq _ _ _

/-- Its claim, where it has one, is withdrawn. -/
def State.unclaimedEntry (s : State) (k : Tube) (e : HeldEntry) : State :=
  if e.state = .claiming then (s.dropped k e).withdraw State.rescan (Claim.ofHead k) else s.dropped k e

/-- Its notice is placed. -/
def State.expiring (s : State) (k : Tube) (e : HeldEntry) : State :=
  ((s.unclaimedEntry k e).place (expiredNotice k e (entriesAhead (s.tube k).queue e.ticket))).modSummary k fun f =>
    { f with expiredAny := true }

theorem entryExpired_shift (s : State) (k : Tube) (e : HeldEntry) :
    Shift none True (s.expiring k e) (s.entryExpired k e) := by
  unfold State.entryExpired
  dsimp only
  split
  · exact Shift.examine (s.expiring k e) k
  · exact .refl none (s.expiring k e)

theorem unclaimedEntry_shift (s : State) (k : Tube) (e : HeldEntry) :
    Shift none True (s.dropped k e) (s.unclaimedEntry k e) := by
  unfold State.unclaimedEntry
  split
  · exact Shift.withdraw Shift.rescan _ _
  · exact .refl none _

theorem expiring_tube (s : State) (k : Tube) (e : HeldEntry) : (s.expiring k e).tube k
    = { (s.unclaimedEntry k e).tube k with
        summary := { ((s.unclaimedEntry k e).tube k).summary with expiredAny := true } } := by
  unfold State.expiring
  exact modSummary_tube _ _ _

/-- R45: the tube an expired entry leaves, what follows the event with it. -/
theorem entryExpired_tube {t : State} (after : Finished (s.entryExpired k e) t) :
    (t.tube k).mode = (s.tube k).mode ∧ (t.tube k).summary.expiredAny = true
      ∧ (∀ f ∈ (t.tube k).queue, f.ticket ≠ e.ticket)
      ∧ ((s.tube k).mode ≠ .run →
        (t.tube k).queue.map (·.ticket) = ((s.tube k).queue.map (·.ticket)).filter (fun n => n != e.ticket)
          ∧ (t.tube k).lastReleased = (s.tube k).lastReleased) := by
  have first := (unclaimedEntry_shift s k e).tubes k
  have own := dropped_tube s k e
  have second := ((entryExpired_shift s k e).tubes k).trans (after.tubes k)
  rw [own] at first
  rw [expiring_tube] at second
  have suffix : (t.tube k).queue.map HeldEntry.core
      <:+ ((s.tube k).queue.filter fun f => f.ticket != e.ticket).map HeldEntry.core := second.suffix.trans first.suffix
  refine ⟨second.mode.trans first.mode, by rw [second.summary], fun f held => ?_, fun stopped => ?_⟩
  · obtain ⟨g, mem, same⟩ := List.mem_map.mp ((tickets_suffix suffix).subset (List.mem_map_of_mem held))
    have other := (List.mem_filter.mp mem).2
    rw [← same]
    exact bne_iff_ne.mp other
  · have before := first.stopped stopped
    have behind := second.stopped (by rw [show TubeState.mode _ = _ from first.mode]; exact stopped)
    exact ⟨by rw [← tickets_filter, tickets_of_core (behind.queue.trans before.queue)],
      behind.released.trans before.released⟩

/-- R45: where the withdrawal grants nothing the expiry's notice is the first. -/
theorem entryExpired_reports (alone : e.state = .claiming → ∀ c ∈ s.budget.claims, Claim.ofHead k c = false →
      c.fresh = false ∧ s.freeOf c.pool < c.amount) :
    ∃ f : State, f.notices.buffer = s.notices.buffer ∧ f.clock = s.clock
      ∧ Local k (f.place (expiredNotice k e (entriesAhead (s.tube k).queue e.ticket))) (s.entryExpired k e) := by
  have placed : Local k ((s.unclaimedEntry k e).place (expiredNotice k e (entriesAhead (s.tube k).queue e.ticket)))
      (s.entryExpired k e) := Local.trans (.modSummary k _ _) ((entryExpired_shift s k e).toLocal k)
  refine ⟨s.unclaimedEntry k e, ?_, (unclaimedEntry_shift s k e).clock, placed⟩
  unfold State.unclaimedEntry
  split
  · next claiming =>
    unfold State.withdraw
    split
    · let kept := (s.dropped k e).modBudget fun b => { b with claims := b.claims.filter fun c => !Claim.ofHead k c }
      have same : ∀ j, (kept.tube j).gas = (s.tube j).gas ∧ (kept.tube j).ramp = (s.tube j).ramp := fun j => by
        by_cases own : j = k
        · subst own; rw [show kept.tube j = _ from dropped_tube s j e]; exact ⟨rfl, rfl⟩
        · rw [show kept.tube j = s.tube j from tube_setTube_ne _ _ own]; exact ⟨rfl, rfl⟩
      have free : ∀ pool, kept.freeOf pool = s.freeOf pool := freeOf_same rfl rfl rfl
        (fun j => by rw [(same j).1]) (fun j => by rw [(same j).2])
      have each : ∀ c ∈ kept.budget.claims, c.fresh = false ∧ s.freeOf c.pool < c.amount := fun c mem => by
        obtain ⟨mem', off⟩ := List.mem_filter.mp mem
        exact alone claiming c mem' (by simpa using off)
      have still : kept.rescan = kept := rescan_no_fit (fun p c front => by
        have pool : c.pool = p := beq_iff_eq.mp (List.find?_some (p := fun c : Claim => c.pool == p) front)
        rw [free, ← pool]
        exact (each c (mem_front front)).2) fun c mem => (each c mem).1
      rw [show State.rescan _ = kept from still]
      rfl
    · rfl
  · rfl

/-! ## The release gap (R43) -/

/-- R43: the gap timer is stopped. -/
def State.ungapped (s : State) (k : Tube) : State := s.modTube k fun x => { x with gapTimer := none }

theorem ungapped_tube (s : State) (k : Tube) : (s.ungapped k).tube k = { s.tube k with gapTimer := none } :=
  tube_modTube_eq _ _ _

theorem ungapped_others (s : State) {j : Tube} (other : j ≠ k) : (s.ungapped k).tube j = s.tube j :=
  tube_setTube_ne _ _ other

theorem ungapped_view (s : State) (r : Nat) (k j : Tube) : s.headView j = ((s.elapse r).ungapped k).headView j := by
  refine (headView_elapse s r j).trans (headView_congr ⟨rfl, rfl, rfl, rfl⟩ ?_)
  by_cases own : j = k
  · subst own
    rw [ungapped_tube]
    exact ⟨rfl, rfl, rfl, rfl, rfl, rfl, rfl, rfl, rfl, rfl, fun _ => rfl, rfl⟩
  · rw [ungapped_others _ own]
    exact .refl _

/-- R43: an examination that leaves the head is all that follows. -/
theorem gapExpired_still {r : Nat} (stays : HeadStays ((s.elapse r).ungapped k) k) :
    Still ((s.elapse r).ungapped k) (s.finish ((s.elapse r).gapExpired k)) := by
  have same : (s.elapse r).gapExpired k = (s.elapse r).ungapped k := stays.examine
  rw [same]
  exact Still.finish_of_stays fun j => .inr (ungapped_view s r k j)

/-- R43: what the gap's expiry leaves of a tube whose head stays. -/
theorem gapExpired_kept {r : Nat} {t : State} (still : Still ((s.elapse r).ungapped k) t) :
    (t.tube k).gapTimer = none ∧ (t.tube k).queue.map (·.ticket) = (s.tube k).queue.map (·.ticket)
      ∧ (t.tube k).lastReleased = (s.tube k).lastReleased := by
  rw [still.tube, ungapped_tube, tube_elapse]
  exact ⟨rfl, tickets_pass r _, rfl⟩

theorem ungapped_queue (r : Nat) (queue : (s.tube k).queue = e :: rest) : (((s.elapse r).ungapped k).tube k).queue
    = { e with timer := Timer.pass r e.timer } :: rest.map fun e => { e with timer := Timer.pass r e.timer } := by
  rw [ungapped_tube, tube_elapse]
  show (s.tube k).queue.map _ = _
  rw [queue]
  rfl

/-- R42, R43: a head that the gap's expiry releases. -/
theorem gapExpired_releases {r : Nat} (queue : (s.tube k).queue = e :: rest) (waiting : e.state = .waiting)
    (passes : ((s.elapse r).ungapped k).firstFailure k e = none)
    (room : neededClaim (s.tube k) e = none ∨ s.budget.claims = [] ∧ ∃ pool amount,
      neededClaim (s.tube k) e = some (pool, amount) ∧ amount ≤ s.freeOf pool) :
    ∃ (c : State) (f : HeldEntry), c.notices.buffer = s.notices.buffer
      ∧ (c.tube k).queue.tail.map (·.ticket) = rest.map (·.ticket)
      ∧ f.ticket = e.ticket
      ∧ releasedNotice k f.channel (if f.held = true then .queued else .immediate) f.ticket f.value f.acceptedAt
        = releasedNotice k e.channel (if e.held = true then .queued else .immediate) e.ticket e.value e.acceptedAt
      ∧ Goes k (c.unheaded k f) ((s.elapse r).gapExpired k) := by
  let c := (s.elapse r).ungapped k
  let f : HeldEntry := { e with timer := Timer.pass r e.timer }
  have own : c.tube k = { (s.tube k).pass r with gapTimer := none } := by
    show ((s.elapse r).ungapped k).tube k = _
    rw [ungapped_tube, tube_elapse]
  have queue' := ungapped_queue r queue
  have passes' : c.firstFailure k f = none :=
    (firstFailure_entry e (s := c) (w := c) ⟨rfl, rfl, rfl, rfl⟩ ⟨_, _, _, _, _, rfl⟩ f rfl rfl).trans passes
  have needs : neededClaim (c.tube k) f = neededClaim (s.tube k) e := by
    rw [own]
    unfold neededClaim
    rfl
  rcases room with none_ | ⟨none_, pool, amount, some_, fits⟩
  · refine ⟨c, f, rfl, ?_, rfl, rfl, ?_⟩
    · rw [queue']; exact tickets_pass r rest
    · exact (releaseHead_goes Shift.rescan c f 0).trans
        (examine_releases Shift.rescan queue' passes' waiting (needs.trans none_)).goes
  · have free : c.freeOf pool = s.freeOf pool := by
      have same : ∀ j, (c.tube j).gas.lines = (s.tube j).gas.lines
          ∧ (c.tube j).ramp.slotHeld = (s.tube j).ramp.slotHeld := fun j => by
        by_cases at_ : j = k
        · subst at_; rw [own]; exact ⟨rfl, rfl⟩
        · rw [show c.tube j = _ from ungapped_others _ at_, tube_elapse]; exact ⟨rfl, rfl⟩
      exact freeOf_same (s := s) (u := c) rfl rfl rfl (fun j => (same j).1) (fun j => (same j).2) pool
    refine ⟨c.granting k (f.claiming pool amount), f.claiming pool amount, rfl, ?_, rfl, rfl, ?_⟩
    · rw [granting_tube]
      show (c.tube k).queue.tail.map _ = _
      rw [queue']; exact tickets_pass r rest
    · exact (releaseHead_goes Shift.absorbed _ _ _).trans
        (examine_grants rescan_first queue' passes' waiting (needs.trans some_) none_ (free ▸ fits)).goes

/-- Settles O30. -/
theorem queueTimersExpire : Obligations.QueueTimersExpire := by
  refine ⟨fun s k ticket e r held timer => ?_, fun s k r timer => ?_⟩
  · intro ahead
    have exec_ : exec (.entryExpiry k ticket) s = .next (s.finish ((s.elapse r).entryExpired k e)) := by
      unfold exec execEntryExpiry
      simp only [held, timer]
    have named : e.ticket = ticket := beq_iff_eq.mp (List.find?_some (p := fun f : HeldEntry => f.ticket == ticket) held)
    have event := Local.entryExpired (k := k) (s.elapse r) e
    have after := Finished.finish s ((s.elapse r).entryExpired k e)
    obtain ⟨clock, kept⟩ := expired_kept event
    obtain ⟨mode, expired, gone, stopped⟩ := entryExpired_tube after
    have stands : entriesAhead ((s.elapse r).tube k).queue e.ticket = ahead := by
      rw [tube_elapse, named]
      exact entriesAhead_pass r _ ticket
    have reports : (e.state = .claiming → ∀ c ∈ s.budget.claims, Claim.ofHead k c = false →
        c.fresh = false ∧ s.freeOf c.pool < c.amount) → Reports s (s.finish ((s.elapse r).entryExpired k e))
          (expiredNotice k e ahead) := fun alone => by
      have free : ∀ pool, (s.elapse r).freeOf pool = s.freeOf pool := freeOf_same rfl rfl rfl
        (fun j => by rw [tube_elapse]; rfl) fun j => by rw [tube_elapse]; rfl
      obtain ⟨f, buffer, clock, event⟩ := entryExpired_reports (s := s.elapse r) (k := k) (e := e) fun claiming c mem off => by
        rw [free]; exact alone claiming c mem off
      have placed := event.finished after
      rw [stands] at placed
      exact Reports.of_place (u := f) buffer placed.clock placed.buffer
    refine ⟨_, exec_, clock, by rw [← named]; exact gone, expired, mode.trans (by rw [tube_elapse]; rfl), fun waits => ?_,
      fun claims alone => ?_, fun rests => ?_, kept⟩
    · have placed := reports fun claims => by rw [waits] at claims; cases claims
      unfold expiredNotice at placed
      rw [waits] at placed
      exact placed
    · have placed := reports fun _ c mem off => alone c mem fun ⟨tube, n, ch, origin⟩ => by
        rw [Claim.ofHead, tube, origin] at off
        simp [Origin.isEntry] at off
      unfold expiredNotice at placed
      rw [claims] at placed
      exact placed
    · rw [tube_elapse, named] at stopped
      obtain ⟨tickets, released⟩ := stopped rests
      refine ⟨tickets.trans ?_, released⟩
      exact congrArg (List.filter fun n => n != ticket) (tickets_pass r _)
  · have exec_ : exec (.releaseGapExpiry k) s = .next (s.finish ((s.elapse r).gapExpired k)) := by
      unfold exec execReleaseGapExpiry
      simp only [timer]
    have event := Local.gapExpired (k := k) (s.elapse r)
    have after := Finished.finish s ((s.elapse r).gapExpired k)
    obtain ⟨clock, kept⟩ := expired_kept event
    have shift := ((Shift.examine ((s.elapse r).ungapped k) k).tubes k).trans (after.tubes k)
    have mode : ((s.finish ((s.elapse r).gapExpired k)).tube k).mode = (s.tube k).mode := by
      rw [shift.mode, ungapped_tube, tube_elapse]; rfl
    refine ⟨_, exec_, clock, mode, fun idle => ?_, fun e rest runs queue waiting => ?_, fun e rest reason runs queue waiting fails => ?_,
      kept⟩
    · refine gapExpired_kept (gapExpired_still ?_)
      rcases idle with rests | empty
      · intro f l _
        refine .inl ⟨.mode, ?_⟩
        unfold State.firstFailure
        rw [ungapped_tube, tube_elapse]
        exact if_pos rests
      · refine .of_empty ?_
        rw [ungapped_tube, tube_elapse]
        show (s.tube k).queue.map _ = []
        rw [empty]; rfl
    · intro u v passes room
      obtain ⟨c, f, buffer, tail, ticket, same, goes⟩ := gapExpired_releases (r := r) queue waiting passes room
      have placed := goes.trans after.goes
      refine ⟨?_, ?_, fun last => ?_⟩
      · have report : Reports s _ (releasedNotice k f.channel (if f.held = true then .queued else .immediate) f.ticket f.value
            f.acceptedAt) := Reports.of_place (u := c) buffer placed.clock placed.buffer
        rw [same] at report
        cases held : e.held <;> rw [held] at report <;> exact report
      · rw [← tail]
        have suffix := placed.suffix
        rw [unheaded_tube] at suffix
        exact tickets_suffix suffix
      · have empty : ((c.unheaded k f).tube k).queue = [] := by
          rw [unheaded_tube]
          rw [last] at tail
          exact List.map_eq_nil_iff.mp tail
        refine ⟨placed.emptyQueue empty, (placed.empty empty).trans ?_⟩
        rw [unheaded_tube]
        exact ticket
    · refine gapExpired_kept (gapExpired_still (.of_failure (ungapped_queue r queue) (r := reason) ?_))
      exact (firstFailure_entry e (s := (s.elapse r).ungapped k) ⟨rfl, rfl, rfl, rfl⟩ ⟨_, _, _, _, _, rfl⟩ _ rfl rfl).trans fails

end Sys2Proof.Machine

/-! RELOAD (R3, R165, R177): taken where nothing works and nothing flows, and else refused. -/

namespace Sys2Proof.Machine

variable {s u : State} {k : Tube}

/-! ## What a RELOAD abandons on the Image Bus -/

/-- R165, R177: an access of `r` in flight is to be discarded. -/
def BusAccess.abandon (r : Requester) (a : BusAccess) : BusAccess :=
  if a.requester = r then { a with discard := true } else a

theorem abandon_own {r : Requester} {a : BusAccess} (own : a.requester = r) : a.abandon r = { a with discard := true } :=
  if_pos own

theorem abandon_other {r : Requester} {a : BusAccess} (other : a.requester ≠ r) : a.abandon r = a := if_neg other

/-- What the access asks for stays. -/
def BusAccess.ask (a : BusAccess) : Requester × Addr × Option Word := (a.requester, a.addr, a.write)

theorem abandon_ask (r : Requester) (a : BusAccess) : (a.abandon r).ask = a.ask := by
  unfold BusAccess.abandon
  split <;> rfl

theorem withdrawRequest_inFlight (s : State) (r : Requester) : (s.withdrawRequest r).bus.inFlight = s.bus.inFlight := by
  unfold State.withdrawRequest
  split <;> rfl

theorem abandoned_inFlight (s : State) (r : Requester) :
    ((s.withdrawRequest r).abandonAccess r).bus.inFlight = s.bus.inFlight.map (BusAccess.abandon r) :=
  congrArg (Option.map (BusAccess.abandon r)) (withdrawRequest_inFlight s r)

/-- The reads of the loader and of the scanner are abandoned. -/
def BusAccess.abandonReads (a : BusAccess) : BusAccess := (a.abandon .walk).abandon .scan

theorem abandonReads_ask (a : BusAccess) : a.abandonReads.ask = a.ask := (abandon_ask _ _).trans (abandon_ask _ _)

theorem abandonReads_read {a : BusAccess} (own : a.requester = .walk ∨ a.requester = .scan) :
    a.abandonReads = { a with discard := true } := by
  unfold BusAccess.abandonReads
  rcases own with walk | scan
  · rw [abandon_own walk, abandon_other (by rw [show BusAccess.requester _ = .walk from walk]; nofun)]
  · rw [abandon_other (r := .walk) (by rw [scan]; nofun), abandon_own scan]

/-- What RELOAD leaves of an access in flight. -/
theorem abandonReads_inFlight (s : State) : ∃ f : BusAccess → BusAccess, s.abandonReads.bus.inFlight = s.bus.inFlight.map f
    ∧ (∀ a, a.requester = .walk ∨ a.requester = .scan → f a = { a with discard := true }) ∧ ∀ a, (f a).ask = a.ask := by
  let reads := (((s.withdrawRequest .walk).abandonAccess .walk).withdrawRequest .scan).abandonAccess .scan
  have first : reads.bus.inFlight = s.bus.inFlight.map BusAccess.abandonReads := by
    rw [abandoned_inFlight _ .scan, abandoned_inFlight s .walk, Option.map_map]
    rfl
  show ∃ f, reads.abandonRecord.bus.inFlight = _ ∧ _
  unfold State.abandonRecord
  split
  · refine ⟨fun a => a.abandonReads.abandon .notice, ?_, fun a own => ?_, fun a =>
      (abandon_ask _ _).trans (abandonReads_ask a)⟩
    · show ((reads.withdrawRequest .notice).abandonAccess .notice).bus.inFlight = _
      rw [abandoned_inFlight, first, Option.map_map]
      rfl
    · dsimp only
      rw [abandonReads_read own, abandon_other]
      rcases own with own | own <;> rw [show BusAccess.requester _ = _ from own] <;> nofun
  · exact ⟨BusAccess.abandonReads, first, fun a own => abandonReads_read own, abandonReads_ask⟩

/-! ## A taken RELOAD -/

/-- R177: the part after a taken RELOAD, but for its notices. -/
theorem reload_leaves (s : State) (straps : BitVec 4) : s.reload straps = { s with
    straps := straps
    root := s.root.reload straps
    cache := s.cache.map (Four.map CacheEntry.invalidate)
    replacement := 0
    binding := Four.fill TubeBinding.empty
    tubes := s.tubes.map TubeState.reload
    scanner := s.scanner.reload
    measured := Measured.empty
    monitor := { s.monitor with timer := none, lapsed := false, count := 0, recorded := 0 }
    loader := { s.loader with phase := .notReady, job := .root [], closing := false }
    bus := s.abandonReads.bus
    notices := (s.reload straps).notices } := by
  obtain ⟨b, n, same⟩ := abandonReads_eq s
  unfold State.reload
  rw [same]
  unfold State.reloadMonitor
  dsimp only
  split <;> rfl

theorem reload_notices (s : State) (straps : BitVec 4) :
    NoticeShift s.abandonReads.notices.reload (s.reload straps).notices := by
  show NoticeShift _ (s.abandonReads.modNotices NoticeWriter.reload).reloadMonitor.notices
  unfold State.reloadMonitor
  dsimp only
  split
  · exact (Shift.place (P := True) none ((s.abandonReads.modNotices NoticeWriter.reload).modMonitor _) _).notices
  · exact .refl _

/-- R168: deliveries stay under way. -/
theorem reload_underway (s : State) (straps : BitVec 4) (b : Addr) : (s.reload straps).underway b = s.underway b := by
  obtain ⟨f, flight, -, asks⟩ := abandonReads_inFlight s
  have bus : (s.reload straps).bus.inFlight = s.bus.inFlight.map f := by rw [reload_leaves]; exact flight
  have delivery : (s.reload straps).delivery = s.delivery := by rw [reload_leaves]
  unfold State.underway
  rw [bus, delivery]
  cases busy : s.bus.inFlight with
  | none => rfl
  | some a =>
    have same := asks a
    simp only [BusAccess.ask, Prod.mk.injEq] at same
    obtain ⟨requester, addr, write⟩ := same
    simp only [Option.map_some, requester, addr, write]

theorem reloadable_iff : s.reloadable = true ↔
    (∀ k, (s.tube k).mode = .aborted ∧ ∀ l, ((s.tube k).gas.lines.get l).flow = 0) ∧ s.budget.claims = [] := by
  simp only [State.reloadable, Bool.and_eq_true, List.all_eq_true, Ix4.mem_all, true_implies, decide_eq_true_eq,
    Eight.mem_toList, beq_iff_eq, List.isEmpty_iff, forall_exists_index, forall_apply_eq_imp_iff]

/-- Settles O10. -/
theorem reloadIsTakenOrRefused : Obligations.ReloadIsTakenOrRefused := by
  intro s straps idle
  refine ⟨_, rfl, ?_⟩
  have before := Still.advance s
  have decided : s.advance.classify (rootWriteAccess s .service 1 2) straps
      = s.advance.reloadCommand (rootWriteAccess s .service 1 2) straps := classify_rootCommand 2
  have free : s.advance.reloadable = true ↔
      (∀ k, (s.tube k).mode = .aborted ∧ ∀ l, ((s.tube k).gas.lines.get l).flow = 0) ∧ s.budget.claims = [] := by
    rw [reloadable_iff]
    simp only [before.tube, before.claims]
  refine ⟨fun rests none_ => ?_, fun works => ?_⟩
  · have taken : s.advance.classify (rootWriteAccess s .service 1 2) straps = (s.advance.reload straps).ack :=
      decided.trans (if_pos (free.mpr ⟨rests, none_⟩))
    let u := s.advance
    have tubes : ∀ k, (u.reload straps).tube k = (s.tube k).reload := fun k => by rw [reload_tube, before.tube]
    have due : NoneDue u (u.reload straps).ack := fun k => .inr (.inl (by
      show ((u.reload straps).tube k).mode ≠ .run
      rw [tubes]
      show (s.tube k).mode ≠ .run
      rw [(rests k).1]; nofun))
    have after := Still.ofAccess idle taken due
    have leaves := congrArg State.ack (reload_leaves u straps)
    have notices := reload_notices u straps
    have root := after.root.trans ((congrArg State.root leaves).trans (congrArg (RootCopy.reload · straps) before.root))
    have cache : (s.takeAccess (rootWriteAccess s .service 1 2) straps).cache
        = u.cache.map (Four.map CacheEntry.invalidate) := after.cache.trans (congrArg State.cache leaves)
    have measured : (s.takeAccess (rootWriteAccess s .service 1 2) straps).measured = Measured.empty :=
      after.measured.trans (congrArg State.measured leaves)
    have loader := after.loader.trans (congrArg State.loader leaves)
    obtain ⟨producer, consumer⟩ := ring_of_writer after.writer
    have producer0 := producer.trans
      (show (u.reload straps).ack.notices.producer = 0 from congrArg NoticeWriter.producer notices.same)
    have consumer0 := consumer.trans
      (show (u.reload straps).ack.notices.consumer = 0 from congrArg NoticeWriter.consumer notices.same)
    have suspended := (congrArg NoticeWriter.suspended after.writer).trans
      (show (u.reload straps).ack.notices.suspended = true from congrArg NoticeWriter.suspended notices.same)
    have budget := after.claims.trans ((congrArg State.budget leaves).trans before.claims)
    have due : ∀ i, RootWordDue (u.reload straps).notices i →
        RootWordDue (s.takeAccess (rootWriteAccess s .service 1 2) straps).notices i := fun i due => by
      unfold State.takeAccess
      rw [if_pos idle, taken]
      exact RootWordDue.finish (s := (u.reload straps).ack) due
    refine ⟨after.port, after.mem.trans ((congrArg State.mem leaves).trans before.mem),
      after.clock.trans ((congrArg State.clock leaves).trans before.clock), after.straps.trans (congrArg State.straps leaves),
      ?_, fun k => ?_, after.replacement.trans (congrArg State.replacement leaves), fun set way => ?_, fun k => ?_, ?_, ?_,
      producer0, consumer0, ?_, ?_, due _ (notices.rootWordDue (.inr rfl)), due _ (notices.rootWordDue (.inr rfl)),
      due _ (notices.rootWordDue (.inr rfl)), ?_, ?_, fun k => ⟨fun z => ?_, fun l => ?_, ?_⟩, fun n => ?_, measured, ?_, ?_,
      fun k => ?_, fun ordered b => ?_, fun a busy reader => ?_⟩
    · rw [root]; rfl
    · unfold State.present
      rw [root, RootCopy.reload, Four.get_map]
      exact ⟨rfl, rfl⟩
    · rw [cache, Four.get_map, Four.get_map]
      exact ⟨rfl, rfl⟩
    · rw [after.binding.trans (congrArg State.binding leaves)]
      exact Four.get_fill _ k
    · rw [loader]; rfl
    · rw [loader]; rfl
    · unfold NoticeWriter.ringInUse
      rw [suspended]
      exact Bool.and_false _
    · unfold State.noticeOutput
      rw [producer0, consumer0]
      rfl
    · exact after.monitor.trans ((congrArg State.monitor leaves).trans (congrArg (fun m : Monitor =>
        { m with timer := none, lapsed := false, count := 0, recorded := 0 }) before.monitor))
    · exact after.scanner.trans ((congrArg State.scanner leaves).trans (congrArg Scanner.reload before.scanner))
    · rw [measured, Measured.empty, Four.get_fill, Five.get_fill]
    · rw [measured, Measured.empty, Four.get_fill, Eight.get_fill]
    · rw [measured, Measured.empty, Four.get_fill]
    · rw [measured, Measured.empty, Four.get_fill]
    · exact after.abort.trans ((congrArg State.abort leaves).trans before.abort)
    · rw [budget]
    · rw [after.tube, show State.tube (u.reload straps).ack k = _ from tubes k]
      exact ⟨(rests k).1, rfl, rfl, rfl, rfl, rfl, rfl, rfl, rfl, rfl, rfl⟩
    · have still : DeliveryOk (u.reload straps).ack.delivery := by
        rw [leaves]
        exact before.delivery ordered
      rw [after.underway still]
      exact (reload_underway u straps b).trans (before.underway ordered b)
    · obtain ⟨f, flight, reads, -⟩ := abandonReads_inFlight u
      have kept : u.bus.inFlight = some a := (congrArg Bus.inFlight (before.busy a busy)).trans busy
      have flight' : (u.reload straps).ack.bus.inFlight = some { a with discard := true } := by
        rw [leaves]
        refine flight.trans ?_
        rw [kept, ← reads a reader]
        rfl
      rw [after.busy _ flight']
      exact flight'
  · have refuses : s.advance.classify (rootWriteAccess s .service 1 2) straps
        = s.advance.refuseBank (rootWriteAccess s .service 1 2) .state := decided.trans (if_neg fun e => works (free.mp e))
    obtain ⟨refused, kept, -⟩ := refused_access idle refuses
    exact ⟨refused, kept⟩

end Sys2Proof.Machine

/-! The Start-up Loader's words (R155, R176, R179 to R181): a last word's event, adoption's start, the Scan List. -/

namespace Sys2Proof.Machine

variable {s u w : State} {k : Tube} {a : BusAccess} {n : Nat}

/-! ## A transaction's last word -/

/-- With the last word of a read of the loader in flight, the command is that word's event. -/
theorem load_exec {ready : State → Bool} {onWord : State → Word → State} (some_ : 1 ≤ n) (flight : InFlight s .walk a)
    (read : a.write = none) (on : ready s.takeDue = true)
    (off : ready (s.takeDue.finish (onWord s.freed (s.readWord a.addr))) = false) :
    takeWords .walk ready onWord n (s.openBus .walk) = s.takeDue.finish (onWord s.freed (s.readWord a.addr)) := by
  have word : s.takeDue.readWord a.addr = s.readWord a.addr := by
    rw [State.readWord, (Finished.takeDue s).mem]; rfl
  have event : onWord s.takeDue.completeBus (s.takeDue.readWord a.addr) = onWord s.freed (s.readWord a.addr) := by
    rw [completeBus_freed flight read, word]
  rw [openBus_of_inFlight flight, takeWords_last some_ (inFlightOf_of_inFlight flight) on (by rw [event]; exact off), event]

/-- The loader's words arrive off the port's walks. -/
theorem takeDue_offWalk (s : State) : s.takeDue.portOffWalk = s.portOffWalk := by
  unfold State.portOffWalk
  rw [(Finished.takeDue s).port]

theorem freed_tube (s : State) (k : Tube) : s.freed.tube k = s.tube k := by rw [freed_eq]; rfl

/-! ## Adoption starts (R180, R181) -/

/-- With no abandoned access in flight the bus opens with its decision. -/
theorem openBus_of_none_discarded {r : Requester} (kept : ∀ b, s.bus.inFlight = some b → b.discard = false) :
    s.openBus r = s.advance := by
  have after := Finished.advance s
  unfold State.openBus State.dropDiscarded
  cases busy : s.advance.bus.inFlight with
  | none => rfl
  | some b =>
    have waited : b.discard = false := by
      cases before : s.bus.inFlight with
      | none => exact after.fresh before b busy
      | some c =>
        rw [after.busy c before, before] at busy
        exact Option.some.inj busy ▸ kept c before
    simp only [waited, Bool.false_eq_true, and_false, if_false]

/-- R169: the bus's decision takes no more than the front entry of the Delivery Queue. -/
theorem advance_delivery (s : State) : ∀ d ∈ s.advance.delivery, d ∈ s.delivery := by
  have due : s.takeDue.delivery = s.delivery := by rw [takeDue_eq]; rfl
  have granted : ∀ (c : State) (r : Requester), ∀ d ∈ (c.onGrant r).delivery, d ∈ c.delivery := fun c r d mem => by
    rw [onGrant_eq] at mem
    dsimp only at mem
    split at mem
    · exact List.mem_of_mem_tail mem
    · exact mem
  intro d mem
  rw [← due]
  show d ∈ s.takeDue.delivery
  have mem' : d ∈ s.takeDue.arbitrate.delivery := mem
  unfold State.arbitrate at mem'
  split at mem'
  · exact mem'
  · split at mem'
    · exact mem'
    · split at mem'
      · exact mem'
      · exact granted _ _ d mem'

/-- R188: the status word tells READY. -/
theorem statusWord_ready {p : LoadPhase} {r : NotReadyReason} {l : Bool} {c : TripCause} (off : p ≠ .ready) :
    Machine.statusWord p r l c ≠ Machine.statusWord .ready r l c := by
  cases p with
  | ready => exact absurd rfl off
  | notReady => cases r <;> cases l <;> cases c <;> decide
  | loading => cases r <;> cases l <;> cases c <;> decide

/-- R176: READY makes the status word due. -/
theorem RootWordDue.of_ready {u w : State} (abort : w.abort = u.abort) (reason : w.loader.reason = u.loader.reason)
    (ready : w.loader.phase = .ready) (off : u.loader.phase ≠ .ready) : RootWordDue (u.finish w).notices .status := by
  refine RootWordDue.of_statusWord ?_
  unfold State.statusWord
  rw [abort, reason, ready]
  exact statusWord_ready off

/-- The first tube with a property in tube order. -/
theorem find?_tubes_first {p : Tube → Bool} (own : p k = true) (sooner : ∀ j : Tube, j.toNat < k.toNat → p j = false) :
    Ix4.all.find? p = some k := by
  have before : ∀ j : Tube, j.toNat < k.toNat → ¬ p j = true := fun j lt => by rw [sooner j lt]; exact Bool.false_ne_true
  unfold Ix4.all
  cases k
  · exact List.find?_cons_of_pos own
  · rw [List.find?_cons_of_neg (before .i0 (by decide))]; exact List.find?_cons_of_pos own
  · rw [List.find?_cons_of_neg (before .i0 (by decide)), List.find?_cons_of_neg (before .i1 (by decide))]
    exact List.find?_cons_of_pos own
  · rw [List.find?_cons_of_neg (before .i0 (by decide)), List.find?_cons_of_neg (before .i1 (by decide)),
      List.find?_cons_of_neg (before .i2 (by decide))]
    exact List.find?_cons_of_pos own

theorem find?_tubes_none {p : Tube → Bool} (none_ : ∀ j, p j = false) : Ix4.all.find? p = none :=
  List.find?_eq_none.mpr fun j _ => by rw [none_ j]; exact Bool.false_ne_true

theorem nextAdopt_some {l : List Tube} (first : l.find? s.present = some k) : s.nextAdopt l = s.setJob (.adopt k []) := by
  unfold State.nextAdopt; rw [first]

theorem nextAdopt_none {l : List Tube} (none_ : l.find? s.present = none) : s.nextAdopt l = s.becomeReady := by
  unfold State.nextAdopt; rw [none_]

/-- R180: what the step to the next tube leaves alone. -/
theorem Elsewhere.nextAdopt (s : State) (l : List Tube) :
    Elsewhere none { s with loader := (s.nextAdopt l).loader, scanner := (s.nextAdopt l).scanner,
                            monitor := (s.nextAdopt l).monitor } (s.nextAdopt l) := by
  unfold State.nextAdopt
  split <;> exact .refl _

/-- Settles O8. -/
theorem adoptionStartsOnceDeliveriesAreBound : Obligations.AdoptionStartsOnceDeliveriesAreBound := by
  intro s waits kept
  let u := s.advance
  let c : State := { u with loader := { u.loader with closing := false } }
  have before := Finished.advance s
  have present : ∀ k, u.present k = s.present k := fun k => by unfold State.present; rw [before.root]
  have bound : ∀ a, u.isBound a = s.isBound a := fun a => by
    unfold State.isBound State.presentTubes State.present; rw [before.root, before.binding]
  have exec_ : exec .adoptionStart s = .next (if u.adoptionMayStart = true then u.finish (c.nextAdopt Ix4.all) else u) := by
    unfold exec execAdoptionStart
    simp only [openBus_of_none_discarded kept]
    split <;> rfl
  refine ⟨_, exec_, ?_⟩
  have may : u.adoptionMayStart = true ↔
      (∀ k, s.present k = false) ∨ ∀ d ∈ u.delivery, s.isBound d.addr = true := by
    unfold State.adoptionMayStart
    rw [before.loader, waits]
    simp only [decide_true, Bool.true_and, Bool.or_eq_true, Bool.not_eq_true', List.any_eq_false, List.all_eq_true,
      Ix4.mem_all, true_implies, Bool.not_eq_true, present, bound]
  by_cases starts : u.adoptionMayStart = true
  · rw [if_pos starts]
    have after := Finished.finish u (c.nextAdopt Ix4.all)
    have steps := Elsewhere.nextAdopt c Ix4.all
    have kept' := steps.trans after.elsewhere
    have tubes : ∀ k, TubeKept (s.tube k) ((u.finish (c.nextAdopt Ix4.all)).tube k) := fun k =>
      (before.tubes k).kept.trans (kept'.others k nofun)
    have port : (c.nextAdopt Ix4.all).port = u.port := by unfold State.nextAdopt; split <;> rfl
    refine ⟨kept'.mem.trans before.mem, kept'.root.trans before.root, kept'.binding.trans before.binding,
      (after.port.trans port).trans before.port, tubes, fun k here sooner _ => ?_, fun k here ⟨d, mem, off⟩ => ?_,
      fun none_ => ?_⟩
    · have first : Ix4.all.find? c.present = some k := find?_tubes_first ((present k).trans here) fun j lt =>
        (present j).trans (sooner j lt)
      rw [after.loader, nextAdopt_some first]
      have phase : u.loader.phase = s.loader.phase := congrArg Loader.phase before.loader
      exact ⟨phase, rfl⟩
    · rcases may.mp starts with absent | all
      · exact absurd here (by rw [absent k]; exact Bool.false_ne_true)
      · exact absurd (all d mem) (by rw [off]; exact Bool.false_ne_true)
    · have ready : c.nextAdopt Ix4.all = c.becomeReady :=
        nextAdopt_none (find?_tubes_none fun j => (present j).trans (none_ j))
      rw [ready] at after ⊢
      have scanner : (u.finish c.becomeReady).scanner = { u.scanner with
          timer := startUnlessZero u.scanner.period, staleTimer := startUnlessZero u.scanner.staleLimit } := after.scanner
      have monitor : (u.finish c.becomeReady).monitor = { u.monitor with
          timer := if u.monitor.period ≠ 0 ∧ u.monitor.limit ≠ 0 then some u.monitor.period else none } := after.monitor
      rw [scanner, monitor, before.scanner, before.monitor]
      refine ⟨congrArg Loader.phase after.loader, congrArg Loader.job after.loader, fun off => ?_, rfl, rfl, rfl⟩
      exact RootWordDue.of_ready rfl rfl rfl (by rw [before.loader]; exact off)
  · rw [if_neg starts]
    refine ⟨before.mem, before.root, before.binding, before.port, fun k => (before.tubes k).kept, fun k here _ all => ?_,
      fun _ _ _ => before.loader, fun none_ => ?_⟩
    · exact absurd (may.mpr (.inr fun d mem => all d (advance_delivery s d mem))) starts
    · exact absurd (may.mpr (.inl none_)) starts

end Sys2Proof.Machine

/-! The Scan List's load (R155, R179, R190). -/

namespace Sys2Proof.Machine

variable {s u w : State} {a : BusAccess}

/-! ## The words of an entry -/

theorem bitsOf_eq (v : Word) (hi lo : Nat) : bitsOf v hi lo = v.toNat / 2 ^ lo % 2 ^ (hi - lo + 1) := by
  unfold bitsOf
  rw [Nat.shiftRight_eq_div_pow]

/-- The code of a target (R190). -/
def ScanTarget.code : ScanTarget → Nat
  | .zone k z => k.toNat * 16 + z.toNat
  | .boat k => k.toNat * 16 + 5
  | .bankInput k => k.toNat * 16 + 6
  | .line k l => k.toNat * 16 + 8 + l.toNat

theorem scanTargetOf_code (t : ScanTarget) : scanTargetOf t.code = some t := by
  cases t with
  | zone k z => cases k <;> cases z <;> rfl
  | line k l => cases k <;> cases l <;> rfl
  | boat k => cases k <;> rfl
  | bankInput k => cases k <;> rfl

/-- What the target code of an entry says. -/
def ScanTarget.agrees (n : Nat) : Bool :=
  match scanTargetOf n with
  | some t => t.code == n
  | none => n % 16 == 7

theorem scanTargetOf_agrees : ∀ n < 64, ScanTarget.agrees n = true := by decide

theorem scanTargetOf_some {n : Nat} {t : ScanTarget} (small : n < 64) : scanTargetOf n = some t ↔ n = t.code := by
  constructor
  · intro target
    have agrees := scanTargetOf_agrees n small
    unfold ScanTarget.agrees at agrees
    rw [target] at agrees
    exact (beq_iff_eq.mp agrees).symm
  · rintro rfl
    exact scanTargetOf_code t

theorem scanTargetOf_none {n : Nat} (small : n < 64) : scanTargetOf n = none ↔ n % 16 = 7 := by
  constructor
  · intro target
    have agrees := scanTargetOf_agrees n small
    unfold ScanTarget.agrees at agrees
    rw [target] at agrees
    exact beq_iff_eq.mp agrees
  · intro seven
    unfold scanTargetOf
    dsimp only
    rw [if_neg (by omega), if_neg (by omega), if_pos seven]

/-! ## The records of the table -/

theorem scanRecords_length (ws : List Word) : ∀ n, ws.length = n * 4 → (scanRecords ws).length = n := by
  induction ws using scanRecords.induct with
  | case1 a b c d rest ih =>
    intro n length
    obtain ⟨m, rfl⟩ : ∃ m, n = m + 1 := ⟨n - 1, by simp only [List.length_cons] at length; omega⟩
    unfold scanRecords
    rw [List.length_cons, ih m (by simp only [List.length_cons] at length; omega)]
  | case2 ws short =>
    intro n length
    have none_ : scanRecords ws = [] := by
      unfold scanRecords
      split
      · next a b c d rest => exact absurd rfl (short a b c d rest)
      · rfl
    rw [none_, List.length_nil]
    match ws, short, length with
    | [], _, length => rw [List.length_nil] at length; omega
    | [_], _, length => simp only [List.length_cons, List.length_nil] at length; omega
    | [_, _], _, length => simp only [List.length_cons, List.length_nil] at length; omega
    | [_, _, _], _, length => simp only [List.length_cons, List.length_nil] at length; omega
    | a :: b :: c :: d :: rest, short, _ => exact absurd rfl (short a b c d rest)

theorem scanRecords_get (ws : List Word) : ∀ (i : Nat) (r : ScanRecord), (scanRecords ws)[i]? = some r →
    r = ScanRecord.ofWords (ws.getD (i * 4) 0) (ws.getD (i * 4 + 1) 0) (ws.getD (i * 4 + 2) 0) (ws.getD (i * 4 + 3) 0) := by
  induction ws using scanRecords.induct with
  | case1 a b c d rest ih =>
    intro i r at_
    unfold scanRecords at at_
    cases i with
    | zero => exact (Option.some.inj at_).symm
    | succ i =>
      rw [List.getElem?_cons_succ] at at_
      have later := ih i r at_
      have shifts : ∀ j, (a :: b :: c :: d :: rest).getD ((i + 1) * 4 + j) 0 = rest.getD (i * 4 + j) 0 := fun j => by
        rw [show (i + 1) * 4 + j = i * 4 + j + 1 + 1 + 1 + 1 by omega]
        rfl
      rw [later, shifts 1, shifts 2, shifts 3]
      exact congrArg (fun x => ScanRecord.ofWords x _ _ _) (shifts 0).symm
  | case2 ws short =>
    intro i r at_
    have none_ : scanRecords ws = [] := by
      unfold scanRecords
      split
      · next a b c d rest => exact absurd rfl (short a b c d rest)
      · rfl
    rw [none_] at at_
    cases at_

/-- R155: the entry is malformed. -/
def malformedEntry (e1 e2 e3 : Word) : Prop :=
  e1.toNat / 16 % 64 % 16 = 7 ∨ e1.getLsbD 10 = true ∧ (e1.toNat / 4096 = 0 ∨ e2.toNat < e3.toNat)

/-- R155, R190: the fields of a record. -/
theorem ofWords_record (e0 e1 e2 e3 : Word) :
    let r := ScanRecord.ofWords e0 e1 e2 e3
    let code := e1.toNat / 16 % 64
    r.source = BitVec.ofNat 20 (e1.toNat % 16 * 0x10000 + e0.toNat) ∧ r.high = e2 ∧ r.low = e3
      ∧ r.enable = e1.getLsbD 10 ∧ r.bankTrip = e1.getLsbD 11 ∧ r.tripCount = e1.toNat / 4096 ∧ r.counter = 0
      ∧ (r.active = true ↔ ¬ malformedEntry e1 e2 e3)
      ∧ (∀ t, r.target = some t ↔ code = t.code) ∧ (r.target = none ↔ code % 16 = 7) := by
  intro r code
  have small : code < 64 := Nat.mod_lt _ (by decide)
  have target : r.target = scanTargetOf code := by
    show scanTargetOf (bitsOf e1 9 4) = _
    rw [bitsOf_eq] <;> rfl
  have count : r.tripCount = e1.toNat / 4096 := by
    show bitsOf e1 15 12 = _
    rw [bitsOf_eq]
    have := e1.isLt
    omega
  have none_ : r.target = none ↔ code % 16 = 7 := by rw [target]; exact scanTargetOf_none small
  refine ⟨?_, rfl, rfl, rfl, rfl, count, rfl, ?_, fun t => by rw [target]; exact scanTargetOf_some small, none_⟩
  · show BitVec.ofNat 20 (bitsOf e1 3 0 * 0x10000 + e0.toNat) = _
    rw [bitsOf_eq, Nat.pow_zero, Nat.div_one] <;> rfl
  · have active : r.active = (r.target.isSome && (!e1.getLsbD 10 || (decide (1 ≤ r.tripCount) && decide (e3.toNat ≤ e2.toNat)))) := rfl
    have some_ : r.target.isSome = true ↔ ¬ code % 16 = 7 := by
      rw [← none_, Option.isSome_iff_ne_none]
    rw [active, Bool.and_eq_true, some_, count]
    unfold malformedEntry
    rw [not_or]
    refine and_congr_right fun _ => ?_
    simp only [Bool.or_eq_true, Bool.not_eq_true', Bool.and_eq_true, decide_eq_true_eq]
    cases e1.getLsbD 10
    · simp only [true_or, Bool.false_eq_true, false_and, not_false_eq_true]
    · simp only [Bool.true_eq_false, false_or, true_and]
      omega

/-! ## The notices of the malformed entries -/

theorem placeScanFaults_leaves : ∀ (l : List ScanRecord) (i : Nat) (s : State),
    Shift none True s (placeScanFaults i l s)
  | [], _, s => .refl none s
  | r :: l, i, s => by
    unfold placeScanFaults
    split
    · exact placeScanFaults_leaves l (i + 1) s
    · exact (Shift.place none s _).trans (placeScanFaults_leaves l (i + 1) _)

theorem placeScanFaults_eq : ∀ (l : List ScanRecord) (i : Nat) (s : State),
    ∃ n, placeScanFaults i l s = { s with notices := n }
  | [], _, s => ⟨s.notices, rfl⟩
  | r :: l, i, s => by
    unfold placeScanFaults
    split
    · exact placeScanFaults_eq l (i + 1) s
    · obtain ⟨n, same⟩ := placeScanFaults_eq l (i + 1) (s.place (notice .descFault none none FaultCode.scan.code 0 (wordOf i) 0))
      exact ⟨n, same⟩

theorem placeScanFaults_none : ∀ (l : List ScanRecord) (i : Nat) (s : State), (∀ r ∈ l, r.active = true) →
    placeScanFaults i l s = s
  | [], _, _, _ => rfl
  | r :: l, i, s, active => by
    unfold placeScanFaults
    rw [if_pos (active r List.mem_cons_self)]
    exact placeScanFaults_none l (i + 1) s fun q mem => active q (List.mem_cons_of_mem _ mem)

theorem place_length (s : State) (n : Notice) : (s.place n).notices.buffer.length ≤ s.notices.buffer.length + 1 := by
  unfold State.place State.modNotices
  dsimp only
  split
  · exact Nat.le_of_eq List.length_append
  · rw [NoticeWriter.lose_eq]; exact Nat.le_succ _

/-- R155: a malformed entry's notice, where the buffer has room for it. -/
theorem placeScanFaults_mem : ∀ (l : List ScanRecord) (i j : Nat) (s : State) (r : ScanRecord), l[j]? = some r →
    r.active = false → s.notices.buffer.length + ((l.take j).filter fun r => !r.active).length < 8 →
    { notice .descFault none none FaultCode.scan.code 0 (wordOf (i + j)) 0 with clock := s.clock }
      ∈ (placeScanFaults i l s).notices.buffer
  | [], _, _, _, _, at_, _, _ => by cases at_
  | q :: l, i, 0, s, r, at_, faulty, room => by
    obtain rfl : q = r := Option.some.inj at_
    obtain ⟨more, behind⟩ := (placeScanFaults_leaves l (i + 1)
      (s.place (notice .descFault none none FaultCode.scan.code 0 (wordOf i) 0))).notices.buffer
    unfold placeScanFaults
    rw [if_neg (by rw [faulty]; exact Bool.false_ne_true), behind, State.place_of_room _ (by simpa using room)]
    exact List.mem_append_left _ (List.mem_append_right _ (List.mem_singleton_self _))
  | q :: l, i, j + 1, s, r, at_, faulty, room => by
    rw [List.getElem?_cons_succ] at at_
    rw [List.take_succ_cons, List.filter_cons] at room
    unfold placeScanFaults
    rw [show i + (j + 1) = i + 1 + j by omega]
    by_cases active : q.active = true
    · rw [active] at room
      rw [if_pos active]
      exact placeScanFaults_mem l (i + 1) j s r at_ faulty room
    · have length := place_length s (notice .descFault none none FaultCode.scan.code 0 (wordOf i) 0)
      rw [if_pos (by rw [Bool.not_eq_true] at active; rw [active]; rfl), List.length_cons] at room
      rw [if_neg active]
      exact placeScanFaults_mem l (i + 1) j _ r at_ faulty (by omega)

/-! ## The load -/

/-- R155: the state the loaded list leaves. -/
theorem loadScanList_eq (s : State) (ws : List Word) : ∃ n, s.loadScanList ws = { s with
    scanner := { s.scanner with list := scanRecords ws }, loader := { s.loader with job := .adoptWait }, notices := n } := by
  obtain ⟨n, same⟩ := placeScanFaults_eq (scanRecords ws) 0 (s.modScanner fun c => { c with list := scanRecords ws })
  refine ⟨n, ?_⟩
  unfold State.loadScanList
  dsimp only
  rw [same]
  rfl

theorem loadScanList_tube (s : State) (ws : List Word) (k : Tube) : (s.loadScanList ws).tube k = s.tube k := by
  obtain ⟨n, same⟩ := loadScanList_eq s ws
  rw [same]
  rfl

theorem loadScanList_acts (s : State) (ws : List Word) : SameActs s (s.loadScanList ws) := by
  let listed := s.modScanner fun c => { c with list := scanRecords ws }
  have first : SameActs s listed := ⟨rfl, rfl, rfl, rfl⟩
  have second : SameActs listed (placeScanFaults 0 (scanRecords ws) listed) :=
    ((placeScanFaults_leaves _ 0 listed).toLocal .i0).acts
  exact (first.trans second).trans ⟨rfl, rfl, rfl, rfl⟩

theorem loadScanList_buffer (s : State) (ws : List Word) : (s.loadScanList ws).notices.buffer
    = (placeScanFaults 0 (scanRecords ws) (s.modScanner fun c => { c with list := scanRecords ws })).notices.buffer := rfl

/-- Settles O7. -/
theorem scanListIsLoaded : Obligations.ScanListIsLoaded := by
  intro s a words n some_ flight read off job length w code enable count malformed faultsBefore
  let ws := (s.readWord a.addr :: words).reverse
  let e := s.freed.loadScanList ws
  have total : ws.length = s.loader.scanCount * 4 := by
    rw [List.length_reverse, List.length_cons]; exact length
  have event : s.freed.scanWord (s.readWord a.addr) = e := by
    have loader : s.freed.loader = s.loader := by rw [freed_eq]
    unfold State.scanWord
    rw [loader, job]
    exact if_neg (by omega)
  let listed := s.freed.modScanner fun c => { c with list := scanRecords ws }
  obtain ⟨notices, leaves⟩ := loadScanList_eq s.freed ws
  replace leaves : e = _ := leaves
  have after : Still e (s.takeDue.finish e) := Still.finish fun k => .inr (.inr (headView_congr
    ((SameActs.freed s).trans (loadScanList_acts _ ws)) (by
      rw [show e.tube k = s.takeDue.tube k from loadScanList_tube _ ws k]
      exact .refl _)))
  have fields : (s.takeDue.finish e).scanner = { s.scanner with list := scanRecords ws } :=
    (after.scanner.trans (congrArg State.scanner leaves)).trans (by rw [freed_eq])
  have loader : (s.takeDue.finish e).loader = { s.loader with job := .adoptWait } :=
    (after.loader.trans (congrArg State.loader leaves)).trans (by rw [freed_eq])
  have exec_ : exec (.scanListLoad n) s = .next (s.takeDue.finish e) := by
    refine congrArg Host.Outcome.next ((load_exec some_ flight read ?_ ?_).trans (by rw [event]))
    · unfold State.onScanJob
      rw [takeDue_offWalk, off, (Finished.takeDue s).loader, job]
      rfl
    · rw [event]
      unfold State.onScanJob
      rw [loader]
      exact Bool.and_false _
  have tubes : ∀ k, e.tube k = s.tube k := fun k => by
    rw [show e.tube k = _ from loadScanList_tube _ ws k, freed_tube]
  have active : ∀ i r, (scanRecords ws)[i]? = some r → (r.active = true ↔ ¬ malformed i) := fun i r at_ => by
    obtain rfl := scanRecords_get ws i r at_
    obtain ⟨-, -, -, -, -, -, -, active, -⟩ := ofWords_record (w i 0) (w i 1) (w i 2) (w i 3)
    exact active
  have buffer : s.freed.notices.buffer = s.notices.buffer := by rw [freed_eq]
  refine ⟨_, exec_, ?_, ?_, fun i r at_ => ?_, fun i inside faulty room => ?_, fun sound => ?_, loader, ?_, ?_, ?_, ?_, fun k => ?_⟩
  · rw [fields]
  · rw [fields]
    exact scanRecords_length ws _ total
  · rw [fields] at at_
    obtain rfl := scanRecords_get ws i r at_
    obtain ⟨source, high, low, enables, trips, counts, counter, active, some_', none_⟩ :=
      ofWords_record (w i 0) (w i 1) (w i 2) (w i 3)
    exact ⟨source, high, low, enables, trips, counts, counter, active, fun k z => some_' (.zone k z), fun k => some_' (.boat k),
      fun k => some_' (.bankInput k), fun k l => some_' (.line k l), none_⟩
  · have within : i < (scanRecords ws).length := by rw [scanRecords_length ws _ total]; exact inside
    have at_ := List.getElem?_eq_getElem within
    have faulty' : (scanRecords ws)[i].active = false :=
      Bool.not_eq_true _ ▸ fun h => (active i _ at_).mp h faulty
    have placed := placeScanFaults_mem (scanRecords ws) 0 i listed _ at_ faulty' (by
        show s.freed.notices.buffer.length + _ < 8
        rw [buffer]
        have same : faultsBefore (s.takeDue.finish e) i = ((scanRecords ws).take i |>.filter fun r => !r.active).length := by
          show ((((s.takeDue.finish e).scanner).list.take i).filter fun r => !r.active).length = _
          rw [fields]
        rw [← same]
        exact room)
    rw [Nat.zero_add] at placed
    have clock : e.clock = s.freed.clock := by rw [leaves]
    rw [after.kept, after.clock, clock]
    exact placed
  · have silent : placeScanFaults 0 (scanRecords ws) listed = listed := placeScanFaults_none _ 0 _ fun r mem => by
      obtain ⟨i, within, rfl⟩ := List.getElem_of_mem mem
      refine (active i _ (List.getElem?_eq_getElem within)).mpr (sound i ?_)
      rw [← scanRecords_length ws _ total]
      exact within
    rw [after.kept]
    show (placeScanFaults 0 (scanRecords ws) listed).notices.buffer = _
    rw [silent]
    exact buffer
  · rw [after.mem, leaves, freed_eq]
  · rw [after.root, leaves, freed_eq]
  · rw [after.binding, leaves, freed_eq]
  · rw [after.port, leaves, freed_eq]
  · rw [after.tube, tubes]
    exact .refl _

end Sys2Proof.Machine

/-! The root read (R175, R178). -/

namespace Sys2Proof.Machine

variable {s u w : State} {a : BusAccess} {ws : List Word} {k : Tube}

/-! ## The seven tests -/

/-- R175: the tests in their order. -/
def rootReason (root : Addr) (ws : List Word) : NotReadyReason :=
  let w (i : Nat) : Word := ws.getD i 0
  if w 0 ≠ 0xD440 then .signature
  else if (w 7).toNat % 64 = root.toNat / 0x10000 * 4 then .overlap
  else if 6 < (w 24).toNat % 8 then .ringSize
  else if (w 20).toNat % 64 = 0 ∨ 32 < (w 20).toNat % 64 then .scanCount
  else if (w 28).toNat % 8 = 0 ∨ 4 < (w 28).toNat % 8 then .heatSlots
  else if (w 27).toNat % 4096 = 0 then .capacity
  else if (w 29).toNat ≤ (w 30).toNat then .marks
  else .none

theorem bitsOf_low (v : Word) (hi : Nat) : bitsOf v hi 0 = v.toNat % 2 ^ (hi + 1) := by
  rw [bitsOf_eq, Nat.pow_zero, Nat.div_one]
  rfl

theorem validate_eq (root : Addr) (ws : List Word) : (RootFields.ofWords ws).validate root = rootReason root ws := by
  have window : (RootFields.ofWords ws).windowBase.toNat = (ws.getD 7 0).toNat % 64 := by
    show (BitVec.ofNat 6 (bitsOf (ws.getD 7 0) 5 0)).toNat = _
    rw [bitsOf_low, BitVec.toNat_ofNat]
    omega
  have capacity : (RootFields.ofWords ws).capacity = (ws.getD 27 0).toNat % 4096 := bitsOf_low _ _
  have small : ¬ 4095 < (ws.getD 27 0).toNat % 4096 := by omega
  have size : (RootFields.ofWords ws).sizeCode = (ws.getD 24 0).toNat % 8 := bitsOf_low _ _
  have count : (RootFields.ofWords ws).scanCount = (ws.getD 20 0).toNat % 64 := bitsOf_low _ _
  have slots : (RootFields.ofWords ws).slots = (ws.getD 28 0).toNat % 8 := bitsOf_low _ _
  unfold RootFields.validate rootReason
  rw [window, capacity, size, count, slots]
  simp only [small, or_false]
  rfl

/-! ## The fields -/

theorem ofWords_tubes (ws : List Word) (k : Tube) : (RootFields.ofWords ws).tubes.get k
    = ⟨ws.getD (8 + k.toNat) 0, false, (ws.getD 12 0).getLsbD (2 * k.toNat), (ws.getD 12 0).getLsbD (2 * k.toNat + 1)⟩ := by
  cases k <;> rfl

theorem ofWords_window (ws : List Word) : (RootFields.ofWords ws).windowBase = (ws.getD 7 0).setWidth 6 := by
  refine BitVec.eq_of_toNat_eq ?_
  show (BitVec.ofNat 6 (bitsOf (ws.getD 7 0) 5 0)).toNat = _
  rw [bitsOf_low, BitVec.toNat_ofNat, BitVec.toNat_setWidth, Nat.mod_mod]

/-! ## What a root that passes leaves -/

/-- R179: the first tube with a pointer is loaded next, else the scan list. -/
theorem nextLoad_first (own : (s.root.tubes.get k).pointer ≠ 0)
    (sooner : ∀ j : Tube, j.toNat < k.toNat → (s.root.tubes.get j).pointer = 0) :
    s.nextLoad Ix4.all = s.setJob (.tube k []) := by
  unfold State.nextLoad
  rw [find?_tubes_first (p := fun t => (s.root.tubes.get t).pointer != 0) (bne_iff_ne.mpr own) fun j lt =>
    bne_eq_false_iff_eq.mpr (sooner j lt)]

theorem nextLoad_none (none_ : ∀ j, (s.root.tubes.get j).pointer = 0) : s.nextLoad Ix4.all = s.setJob (.scanList []) := by
  unfold State.nextLoad
  rw [find?_tubes_none fun j => bne_eq_false_iff_eq.mpr (none_ j)]

/-- The loader has turned from the root. -/
theorem nextLoad_job_off (s : State) (l : List Tube) : ∃ j, s.nextLoad l = s.setJob j ∧ ∀ ws, j ≠ .root ws := by
  unfold State.nextLoad
  split
  · exact ⟨_, rfl, nofun⟩
  · exact ⟨_, rfl, nofun⟩

/-- R188: the status word tells LOADING from NOT_READY. -/
theorem statusWord_loading (r : NotReadyReason) (l : Bool) (c : TripCause) :
    Machine.statusWord .notReady r l c ≠ Machine.statusWord .loading .none l c := by
  cases r <;> cases l <;> cases c <;> decide

theorem decideRoot_passes (passes : rootReason s.root.address ws = .none) :
    s.decideRoot ws = (s.takeRoot (RootFields.ofWords ws)).nextLoad Ix4.all := by
  unfold State.decideRoot
  dsimp only
  rw [validate_eq, passes]

theorem decideRoot_fails (fails : rootReason s.root.address ws ≠ .none) :
    s.decideRoot ws = s.rejectRoot (rootReason s.root.address ws) := by
  unfold State.decideRoot
  dsimp only
  rw [validate_eq]
  cases reason : rootReason s.root.address ws with
  | none => exact absurd reason fails
  | _ => rfl

theorem decideRoot_job (s : State) (ws : List Word) : ∀ l, (s.decideRoot ws).loader.job ≠ .root l := by
  by_cases passes : rootReason s.root.address ws = .none
  · obtain ⟨j, turns, off⟩ := nextLoad_job_off (s.takeRoot (RootFields.ofWords ws)) Ix4.all
    rw [decideRoot_passes passes, turns]
    exact off
  · rw [decideRoot_fails passes]
    exact nofun

/-- Settles O5. -/
theorem rootReadIsDecided : Obligations.RootReadIsDecided := by
  intro s a words n some_ flight read off job length w reason
  let ws := (s.readWord a.addr :: words).reverse
  let e := s.freed.decideRoot ws
  let f := RootFields.ofWords ws
  have address : s.freed.root.address = s.root.address := by rw [freed_eq]
  have decided : rootReason s.freed.root.address ws = reason := by rw [address]; rfl
  have event : s.freed.rootWord (s.readWord a.addr) = e := by
    have loader : s.freed.loader = s.loader := by rw [freed_eq]
    unfold State.rootWord
    rw [loader, job]
    exact if_neg (by omega)
  have after := Finished.finish s.takeDue e
  have exec_ : exec (.rootRead n) s = .next (s.takeDue.finish e) := by
    refine congrArg Host.Outcome.next ((load_exec some_ flight read ?_ ?_).trans (by rw [event]))
    · unfold State.onRootJob
      rw [takeDue_offWalk, off, (Finished.takeDue s).loader, job]
      rfl
    · have turned := decideRoot_job s.freed ws
      rw [event]
      unfold State.onRootJob
      rw [after.loader]
      cases e_job : e.loader.job with
      | root l => exact absurd e_job (turned l)
      | _ => exact Bool.and_false _
  obtain ⟨t, done⟩ : ∃ t, t = s.takeDue.finish e := ⟨_, rfl⟩
  rw [← done] at exec_ after
  refine ⟨t, exec_, ?_⟩
  have ring := after.writer
  have pools := after.budget
  by_cases passes : reason = .none
  · obtain ⟨j, turns, -⟩ := nextLoad_job_off (s.freed.takeRoot f) Ix4.all
    have taken : e = (s.freed.takeRoot f).setJob j := (decideRoot_passes (decided.trans passes)).trans turns
    rw [freed_eq] at taken
    clear_value e
    subst taken
    have root := after.root
    have loader := after.loader
    have scanner := after.scanner
    have monitor := after.monitor
    have pointers : ∀ k : Tube, ((s.freed.takeRoot f).root.tubes.get k).pointer = w (8 + k.toNat) := fun k =>
      congrArg RootTube.pointer (ofWords_tubes ws k)
    have turned : ∀ j', (s.freed.takeRoot f).nextLoad Ix4.all = (s.freed.takeRoot f).setJob j' → t.loader.job = j' :=
      fun j' same => by
        rw [loader]
        exact congrArg (fun c : State => c.loader.job) (turns.symm.trans same)
    have indexes : s.notices.ringUsed = false →
        RootWordDue t.notices .producer ∧ RootWordDue t.notices .consumer ∧ RootWordDue t.notices .lost := fun first => by
      have due : ∀ b, (b || !s.notices.ringUsed) = true := fun b => by rw [first]; exact Bool.or_true b
      rw [done]
      exact ⟨RootWordDue.finish (.inr (due _)), RootWordDue.finish (.inr (due _)), RootWordDue.finish (.inr (due _))⟩
    have status : s.loader.phase = .notReady → RootWordDue t.notices .status := fun resting => by
      rw [done]
      refine RootWordDue.of_statusWord ?_
      unfold State.statusWord
      rw [(Finished.takeDue s).loader, (Finished.takeDue s).abort, resting]
      exact statusWord_loading _ _ _
    have low : ∀ i hi, bitsOf (w i) hi 0 = (w i).toNat % 2 ^ (hi + 1) := fun i hi => bitsOf_low _ hi
    have inUse : t.notices.ringInUse = true := by
      have used := congrArg NoticeWriter.ringUsed ring
      have suspended := congrArg NoticeWriter.suspended ring
      unfold NoticeWriter.ringInUse
      exact (congr (congrArg (fun a b : Bool => a && !b) used) suspended).trans rfl
    refine ⟨after.mem, after.binding, (congrArg AbortControl.latch after.abort).trans rfl, after.port, fun k =>
      (after.tubes k).kept, fun _ => ⟨congrArg Loader.phase loader, congrArg Loader.reason loader, status,
        (congrArg RootCopy.address root).trans rfl, (congrArg RootCopy.argument root).trans rfl,
        (congrArg RootCopy.windowBase root).trans (ofWords_window ws), fun k =>
          (congrArg (fun r : RootCopy => r.tubes.get k) root).trans (ofWords_tubes ws k),
        congrArg RootCopy.guard0 root, congrArg RootCopy.guard1 root, congrArg Loader.scanPointer loader,
        (congrArg Loader.scanCount loader).trans (low 20 5), congrArg Scanner.period scanner,
        congrArg Scanner.staleLimit scanner, congrArg NoticeWriter.ringBase ring,
        (congrArg NoticeWriter.sizeCode ring).trans (low 24 2), congrArg NoticeWriter.reserve ring,
        congrArg NoticeWriter.ringEnable ring, congrArg NoticeWriter.staleEnable ring, congrArg Budget.enable pools,
        (congrArg Budget.capacity pools).trans (low 27 11), (congrArg Budget.slots pools).trans (low 28 2),
        congrArg Budget.upper pools, congrArg Budget.lower pools, congrArg Budget.drain pools,
        congrArg Budget.timer pools, congrArg Monitor.period monitor, (congrArg Monitor.limit monitor).trans (low 33 7),
        congrArg AbortControl.claimLimit after.abort, inUse, indexes,
        fun k own sooner => turned _ (nextLoad_first ?_ fun j lt => ?_), fun none_ => turned _ (nextLoad_none fun j => ?_)⟩,
      fun fails => absurd passes fails⟩
    · rw [pointers]; exact own
    · rw [pointers]; exact sooner j lt
    · rw [pointers]; exact none_ j
  · have rejects : e = s.freed.rejectRoot reason := (decideRoot_fails (by rw [decided]; exact passes)).trans (by rw [decided])
    rw [freed_eq] at rejects
    clear_value e
    subst rejects
    have due : RootWordDue t.notices .status := by rw [done]; exact RootWordDue.finish (.inr rfl)
    refine ⟨after.mem, after.binding, (congrArg AbortControl.latch after.abort).trans rfl, after.port, fun k =>
      (after.tubes k).kept, fun h => absurd h passes, fun _ => ⟨after.loader, due, after.root, after.scanner, after.monitor,
        after.abort, pools, (congrArg NoticeWriter.ringBase ring).trans rfl, (congrArg NoticeWriter.sizeCode ring).trans rfl,
        (congrArg NoticeWriter.reserve ring).trans rfl, (congrArg NoticeWriter.ringEnable ring).trans rfl,
        (congrArg NoticeWriter.staleEnable ring).trans rfl, (congrArg NoticeWriter.suspended ring).trans rfl⟩⟩

end Sys2Proof.Machine

/-! The Claim List at work (R41, R99, R130 to R132): the front claim, what a scan grants, and what a grant leaves. -/

namespace Sys2Proof.Machine

variable {s u w : State} {k : Tube} {e f : HeldEntry} {rest : List HeldEntry} {rescan : State → State} {b : Budget}
  {c : Claim} {p pool : Pool} {n amount : Nat}

/-! ## The front claim (R130) -/

theorem front_none (off : ∀ x ∈ b.claims, x.pool ≠ p) : b.front p = none :=
  Option.eq_none_iff_forall_ne_some.mpr fun _ front => off _ (mem_front front) (front_pool front)

/-- The first claim of a pool within one priority. -/
def Budget.frontOf (b : Budget) (p : Pool) (r : Priority) : Option Claim :=
  b.claims.find? fun x => x.priority == r && x.pool == p

theorem front_eq (b : Budget) (p : Pool) :
    b.front p = ((b.frontOf p .abort).or (b.frontOf p .purge)).or (b.frontOf p .process) := by
  unfold Budget.front Budget.ordered Budget.frontOf
  rw [List.find?_append, List.find?_append, List.find?_filter, List.find?_filter, List.find?_filter]
  simp only [← Bool.and_eq_true, Bool.decide_eq_true]

/-- A claim stands first in its pool: all of that pool before it are lower in priority, and none behind it is higher. -/
structure Foremost (c : Claim) (before after : List Claim) : Prop where
  ahead : ∀ x ∈ before, x.pool = c.pool → x.priority.code < c.priority.code
  behind : ∀ x ∈ after, x.pool = c.pool → x.priority.code ≤ c.priority.code

section
variable {before after : List Claim} (first : Foremost c before after) (list : b.claims = before ++ c :: after)
include first list

theorem Foremost.frontOf_higher {r : Priority} (higher : c.priority.code < r.code) : b.frontOf c.pool r = none := by
  refine List.find?_eq_none.mpr fun x listed named => ?_
  rw [Bool.and_eq_true, beq_iff_eq, beq_iff_eq] at named
  obtain ⟨level, pool⟩ := named
  have below : x.priority.code ≤ c.priority.code := by
    rw [list] at listed
    rcases List.mem_append.mp listed with before_ | later
    · exact Nat.le_of_lt (first.ahead x before_ pool)
    · rcases List.mem_cons.mp later with self | after_
      · exact Nat.le_of_eq (congrArg (fun d : Claim => d.priority.code) self)
      · exact first.behind x after_ pool
  rw [level] at below
  omega

theorem Foremost.frontOf_own : b.frontOf c.pool c.priority = some c := by
  unfold Budget.frontOf
  rw [list, List.find?_append, List.find?_eq_none.mpr, Option.none_or]
  · exact List.find?_cons_of_pos (by rw [beq_self_eq_true, beq_self_eq_true]; rfl)
  · intro x listed named
    rw [Bool.and_eq_true, beq_iff_eq, beq_iff_eq] at named
    have lower := first.ahead x listed named.2
    rw [named.1] at lower
    exact Nat.lt_irrefl _ lower

/-- R130: the highest in priority, the earliest to join among those. -/
theorem Foremost.front : b.front c.pool = some c := by
  have own := first.frontOf_own list
  have higher := fun r => first.frontOf_higher list (r := r)
  rw [front_eq]
  cases level : c.priority <;> rw [level] at own higher
  · rw [higher .abort (by decide), higher .purge (by decide), own]; rfl
  · rw [higher .abort (by decide), own]; rfl
  · rw [own]; rfl

end

/-! ## Scans (R131, R132) -/

/-- The claims that are granted one after another: each the front of its pool where it stands, each with its units free. -/
def Served (s : State) (granted : List Claim) : Prop := ∀ before c after, granted = before ++ c :: after →
  (before.foldl State.grant s).budget.front c.pool = some c ∧ c.amount ≤ (before.foldl State.grant s).freeOf c.pool

theorem Served.nil (s : State) : Served s [] := fun before c after list => by
  cases before <;> cases list

theorem Served.cons {granted : List Claim} (front : s.budget.front c.pool = some c) (fits : c.amount ≤ s.freeOf c.pool)
    (served : Served (s.grant c) granted) : Served s (c :: granted) := fun before d after list => by
  cases before with
  | nil =>
    cases list
    exact ⟨front, fits⟩
  | cons x before =>
    cases list
    exact served before d after rfl

theorem scanLoop_serves : ∀ (n : Nat) (p : Pool) (tried : Bool) (s : State),
    ∃ granted, State.scanLoop n p tried s = granted.foldl State.grant s ∧ Served s granted
  | 0, _, _, s => ⟨[], rfl, .nil s⟩
  | n + 1, p, tried, s => by
    unfold State.scanLoop
    split
    · next c front =>
      split
      · next fits =>
        obtain ⟨granted, loop, served⟩ := scanLoop_serves n p false (s.grant c)
        have pool := front_pool front
        exact ⟨c :: granted, loop, .cons (by rw [pool]; exact front) (by rw [pool]; exact fits) served⟩
      · split
        · exact ⟨[], rfl, .nil s⟩
        · exact scanLoop_serves n p.other true s
    · split
      · exact ⟨[], rfl, .nil s⟩
      · exact scanLoop_serves n p.other true s

/-- The front claim of a pool fits. -/
def State.serves (s : State) (p : Pool) (c : Claim) : Prop := s.budget.front p = some c ∧ c.amount ≤ s.freeOf p

theorem scanLoop_grants (serves : s.serves p c) (tried : Bool) :
    State.scanLoop (n + 1) p tried s = State.scanLoop n p false (s.grant c) := by
  conv => lhs; unfold State.scanLoop
  rw [serves.1]
  exact if_pos serves.2

theorem scanLoop_passes (none_ : ∀ c, ¬ s.serves p c) (tried : Bool) :
    State.scanLoop (n + 1) p tried s = if tried then s else State.scanLoop n p.other true s := by
  conv => lhs; unfold State.scanLoop
  split
  · next c front => exact if_neg fun fits => none_ c ⟨front, fits⟩
  · rfl

/-- R131: the exhaust pool is served first, and a scan that grants nothing finds no front claim that fits. -/
theorem scan_serves (s : State) : ∃ granted, s.scan = granted.foldl State.grant s ∧ Served s granted
    ∧ (∀ c rest d, granted = c :: rest → c.pool = .heat → ¬ s.serves .exhaust d)
    ∧ (granted = [] → ∀ p c, ¬ s.serves p c) := by
  obtain ⟨n, fuel⟩ : ∃ n, scanFuel s = n + 2 := ⟨scanFuel s - 2, by unfold scanFuel; omega⟩
  have first : ∀ {p c m}, s.serves p c → s.scan = State.scanLoop m p false (s.grant c) →
      (∀ d, c.pool = .heat → ¬ s.serves .exhaust d) → ∃ granted, s.scan = granted.foldl State.grant s ∧ Served s granted
        ∧ (∀ c rest d, granted = c :: rest → c.pool = .heat → ¬ s.serves .exhaust d)
        ∧ (granted = [] → ∀ p c, ¬ s.serves p c) := by
    intro p c m serves loop order
    obtain ⟨front, fits⟩ := serves
    have pool := front_pool front
    obtain ⟨granted, same, served⟩ : ∃ granted, s.scan = granted.foldl State.grant (s.grant c) ∧ Served (s.grant c) granted := by
      rw [loop]; exact scanLoop_serves _ _ _ _
    refine ⟨c :: granted, same, .cons (by rw [pool]; exact front) (by rw [pool]; exact fits) served, ?_, nofun⟩
    rintro _ _ d ⟨⟩ heat
    exact order d heat
  by_cases exhaust : ∃ c, s.serves .exhaust c
  · obtain ⟨c, serves⟩ := exhaust
    have loop : s.scan = State.scanLoop (n + 1) .exhaust false (s.grant c) := by
      unfold State.scan
      rw [fuel]
      exact scanLoop_grants serves false
    refine first serves loop fun d heat => ?_
    rw [front_pool serves.1] at heat
    cases heat
  · have none_ : ∀ c, ¬ s.serves .exhaust c := fun c serves => exhaust ⟨c, serves⟩
    have next : s.scan = State.scanLoop (n + 1) .heat true s := by
      unfold State.scan
      rw [fuel]
      exact (scanLoop_passes none_ false).trans (if_neg Bool.false_ne_true)
    by_cases heat : ∃ c, s.serves .heat c
    · obtain ⟨c, serves⟩ := heat
      have loop : s.scan = State.scanLoop n .heat false (s.grant c) := by rw [next]; exact scanLoop_grants serves true
      exact first serves loop fun d _ => none_ d
    · have none' : ∀ c, ¬ s.serves .heat c := fun c serves => heat ⟨c, serves⟩
      have stays : s.scan = s := by rw [next]; exact (scanLoop_passes none' true).trans (if_pos rfl)
      refine ⟨[], stays, .nil s, fun _ _ _ list => absurd list.symm (List.cons_ne_nil _ _), fun _ p c => ?_⟩
      cases p with
      | exhaust => exact none_ c
      | heat => exact none' c

/-! ## Examinations and grants of a head within a scan (R38, R41) -/

theorem examineLoop_empty (queue : (s.tube k).queue = []) (n : Nat) : State.examineLoop rescan k n s = s := by
  cases n with
  | zero => rfl
  | succ n => unfold State.examineLoop; rw [queue]

/-- R38: a WAITING head that needs a claim joins with it, and the list is scanned. -/
theorem examine_joins (queue : (s.tube k).queue = e :: rest) (passes : s.firstFailure k e = none)
    (waiting : e.state = .waiting) (needs : neededClaim (s.tube k) e = some (pool, amount)) : s.examineWith rescan k
      = rescan ((s.setHead k (e.claiming pool amount)).joinClaim k pool amount .process (.entry e.ticket e.channel)) := by
  show State.examineLoop _ _ (2 * (s.tube k).queue.length + 1 + 1) s = _
  conv => lhs; unfold State.examineLoop
  simp only [queue, passes, waiting, needs]
  rfl

theorem releaseHead_queue (s : State) (k : Tube) (e : HeldEntry) (n : Nat) :
    ((s.releaseHead absorbed k e n).tube k).queue = (s.tube k).queue.tail := (releaseHead_joins s k e n).2.1

/-- R38: the only entry of a queue, WAITING, its tests holding, that needs no claim. -/
theorem examine_last (scans : ∀ s, Shift none True s (rescan s)) (queue : (s.tube k).queue = [e])
    (passes : s.firstFailure k e = none) (waiting : e.state = .waiting) (none_ : neededClaim (s.tube k) e = none) :
    s.examineWith rescan k = s.releaseHead rescan k e 0 := by
  have first : s.examineWith rescan k
      = State.examineLoop rescan k (2 * (s.tube k).queue.length + 1) (s.releaseHead rescan k e 0) := by
    show State.examineLoop _ _ (2 * (s.tube k).queue.length + 1 + 1) s = _
    conv => lhs; unfold State.examineLoop
    simp only [queue, passes, waiting, none_]
  rw [first]
  exact examineLoop_empty ((releaseHead_goes scans s e 0).emptyQueue (by rw [unheaded_tube, queue]; rfl)) _

section
variable (queue : (s.tube k).queue = e :: rest) (claims : e.state = .claiming)
include queue claims

/-- R41: a granted head whose tests fail goes back to WAITING. -/
theorem headGrant_fails {r : HoldReason} (fails : s.firstFailure k e = some r) :
    s.headGrant k pool n = s.setHead k e.toWaiting := by
  unfold State.headGrant
  simp only [queue, claims, reduceCtorEq, if_false, fails]

/-- R41: so does one that needs another claim, and is examined. -/
theorem headGrant_other (passes : s.firstFailure k e = none) (other : neededClaim (s.tube k) e ≠ some (pool, n)) :
    s.headGrant k pool n = (s.setHead k e.toWaiting).examineWith absorbed k := by
  unfold State.headGrant
  simp only [queue, claims, reduceCtorEq, if_false, passes, if_neg other]

/-- R41: one that needs what was granted is released. -/
theorem headGrant_releases (passes : s.firstFailure k e = none) (needs : neededClaim (s.tube k) e = some (pool, n)) :
    s.headGrant k pool n
      = (s.releaseHead absorbed k e (if pool = .exhaust then n else 0)).examineWith absorbed k := by
  unfold State.headGrant
  simp only [queue, claims, reduceCtorEq, if_false, passes, if_pos needs]

end

/-- A granted claim has left the list (R132). -/
def State.paid (s : State) (c : Claim) : State := s.modBudget fun b => { b with claims := b.claims.erase c }

theorem grant_entry {ticket : Word} {channel : Six} (origin : c.origin = .entry ticket channel) :
    s.grant c = (s.paid c).headGrant c.tube c.pool c.amount := by
  unfold State.grant
  rw [origin]
  rfl

theorem grant_run (origin : ∀ ticket channel, c.origin ≠ .entry ticket channel) : s.grant c = (s.paid c).runGrant c.tube := by
  unfold State.grant
  rw [isEntry_false origin]
  rfl

/-! ## A head handed back -/

/-- The state with a granted head back in WAITING. -/
def State.handedBack (s : State) (k : Tube) (e : HeldEntry) : State := s.setHead k e.toWaiting

theorem handedBack_tube (queue : (s.tube k).queue = e :: rest) :
    (s.handedBack k e).tube k = { s.tube k with queue := e.toWaiting :: rest } := by
  have own : (s.handedBack k e).tube k = { s.tube k with queue := e.toWaiting :: (s.tube k).queue.tail } := setHead_tube s k _
  rw [own, queue]
  rfl

theorem handedBack_passes (queue : (s.tube k).queue = e :: rest) :
    (s.handedBack k e).firstFailure k e.toWaiting = s.firstFailure k e :=
  firstFailure_entry e (s := s) (w := s.handedBack k e) ⟨rfl, rfl, rfl, rfl⟩ ⟨_, _, _, _, _, handedBack_tube queue⟩ _ rfl rfl

theorem handedBack_needs (queue : (s.tube k).queue = e :: rest) :
    neededClaim ((s.handedBack k e).tube k) e.toWaiting = neededClaim (s.tube k) e := by
  rw [handedBack_tube queue]
  exact neededClaim_congr rfl rfl rfl rfl

/-! ## The release of the last entry within a scan (R42) -/

/-- What the release of a queue's only entry leaves. -/
structure Releases (k : Tube) (e : HeldEntry) (s t : State) : Prop where
  others : ∀ j, j ≠ k → t.tube j = s.tube j
  queue : (t.tube k).queue = []
  released : (t.tube k).lastReleased = e.ticket
  clock : t.clock = s.clock
  buffer : ∃ l, t.notices.buffer = (s.place (releasedNotice k e.channel (if e.held = true then .queued else .immediate)
    e.ticket e.value e.acceptedAt)).notices.buffer ++ l

theorem releaseHead_last (queue : (s.tube k).queue = [e]) (n : Nat) : Releases k e s (s.releaseHead absorbed k e n) := by
  have goes := releaseHead_goes Shift.absorbed s (k := k) e n
  have empty : ((s.unheaded k e).tube k).queue = [] := by rw [unheaded_tube, queue]; rfl
  refine ⟨(releaseHead_joins s k e n).1, goes.emptyQueue empty, (goes.empty empty).trans ?_, goes.clock, goes.buffer⟩
  rw [unheaded_tube]

theorem Releases.reports (h : Releases k e s u) : Reports s u
    (releasedNotice k e.channel (if e.held = true then .queued else .immediate) e.ticket e.value e.acceptedAt) :=
  Reports.of_place (u := s) rfl h.clock h.buffer

/-- What a release leaves that the release gap does not touch. -/
structure Applies (k : Tube) (s t : State) : Prop where
  gas : (t.tube k).gas = (s.tube k).gas
  ramp : (t.tube k).ramp = (s.tube k).ramp
  budget : t.budget = s.budget

theorem releaseHead_applies (s : State) (k : Tube) (e : HeldEntry) (n : Nat) :
    Applies k ((s.unheaded k e).applyEntry rescan k e n) (s.releaseHead rescan k e n) := by
  unfold State.releaseHead
  dsimp only
  split
  · refine ⟨?_, ?_, rfl⟩ <;> rw [tube_modTube_eq] <;> rfl
  · exact ⟨rfl, rfl, rfl⟩

/-- R75, R76: a released zone that ramps up takes the slot. -/
theorem applyZone_up (s : State) (z : Zone) (step : Nat) (v ticket : Word)
    (up : directionOf (withTarget (s.tube k).ramp.zones z v) = .up) :
    let y := (s.applyZone rescan k z step v ticket).tube k
    y.ramp.slotHeld = true ∧ y.ramp.direction = .up
      ∧ y.ramp.zones = (s.tube k).ramp.zones.set z { (s.tube k).ramp.zones.get z with target := v, step := step }
      ∧ (s.applyZone rescan k z step v ticket).budget = s.budget := by
  intro y
  let aimed := s.modRamp k fun r =>
    { r with zones := r.zones.set z { r.zones.get z with target := v, step := step }, lastTicket := ticket }
  have own : aimed.tube k = { s.tube k with ramp := { (s.tube k).ramp with
      zones := (s.tube k).ramp.zones.set z { (s.tube k).ramp.zones.get z with target := v, step := step }
      lastTicket := ticket } } := modRamp_tube _ _ _
  have heads : directionOf (aimed.tube k).ramp.zones = .up := by rw [own]; exact (directionOf_set _ z v step).trans up
  have same : s.applyZone rescan k z step v ticket
      = if (aimed.tube k).ramp.thermal == .settling || (aimed.tube k).ramp.thermal == .stable then
          aimed.modRamp k fun r => r.startRamp .up (s.tube k).header.stepPeriod
        else aimed.modRamp k fun r => { r with direction := .up, slotHeld := true } := by
    unfold State.applyZone
    dsimp only
    rw [show directionOf _ = ThermalDir.up from heads]
  have tube : ∀ f, (aimed.modRamp k f).tube k = { aimed.tube k with ramp := f (aimed.tube k).ramp } := modRamp_tube aimed k
  show ((s.applyZone rescan k z step v ticket).tube k).ramp.slotHeld = true
    ∧ ((s.applyZone rescan k z step v ticket).tube k).ramp.direction = .up
    ∧ ((s.applyZone rescan k z step v ticket).tube k).ramp.zones = _ ∧ _
  rw [same]
  split
  · rw [tube, own]
    exact ⟨Bool.or_true _, rfl, rfl, rfl⟩
  · rw [tube, own]
    exact ⟨rfl, rfl, rfl, rfl⟩

/-- R92, R93: a released line whose added draw was granted carries its value. -/
theorem applyLine_raises {l : Line} {v : Word} (above : ((s.tube k).gas.lines.get l).flow.toNat < v.toNat)
    (fits : addedDraw v.toNat ((s.tube k).gas.lines.get l).flow.toNat ((s.tube k).gas.lines.get l).weight = n) :
    s.applyLine rescan k l v n = (s.modGas k fun g => g.raise l v).deliver (s.lineAddr k l) v false := by
  have flow : settledFlow v (s.lineRec k l).flow n (s.lineRec k l).weight = v := if_pos (Nat.le_of_eq fits)
  unfold State.applyLine
  dsimp only
  rw [flow]
  exact (if_pos above).trans (if_neg (Nat.not_lt.mpr (Nat.le_of_eq fits.symm)))

theorem raise_eq (g : Gas) (l : Line) (v : Word) : g.raise l v = { g with
    lines := g.lines.set l { g.lines.get l with flow := v, devCounter := 0 }
    atmosphere := if (g.lines.get l).reactive = true ∧ g.atmosphere = .inert then .process else g.atmosphere } := by
  unfold Gas.raise
  simp only [Bool.and_eq_true, beq_iff_eq]

/-- R37: the claim a ZONE entry needs. -/
theorem needs_zone {x : TubeState} {z : Zone} {step : Nat} (kind : e.kind = .zone z step)
    (needs : neededClaim x e = some (pool, n)) :
    pool = .heat ∧ n = 1 ∧ x.ramp.slotHeld = false ∧ directionOf (withTarget x.ramp.zones z e.value) = .up := by
  unfold neededClaim at needs
  rw [kind] at needs
  dsimp only at needs
  split at needs
  · next up =>
    rw [Bool.and_eq_true, beq_iff_eq, Bool.not_eq_true'] at up
    cases needs
    exact ⟨rfl, rfl, up⟩
  · cases needs

/-- R37: the claim a LINE entry needs. -/
theorem needs_line {x : TubeState} {l : Line} {reactive purge : Bool} {weight : Nat}
    (kind : e.kind = .line l reactive purge weight) (needs : neededClaim x e = some (pool, n)) :
    pool = .exhaust ∧ n = addedDraw e.value.toNat (x.gas.lines.get l).flow.toNat weight
      ∧ (x.gas.lines.get l).flow.toNat < e.value.toNat := by
  unfold neededClaim at needs
  rw [kind] at needs
  dsimp only at needs
  split at needs
  · next added =>
    cases needs
    exact ⟨rfl, rfl, addedDraw_pos added⟩
  · cases needs

theorem needs_boat {x : TubeState} (kind : e.kind = .boat) : neededClaim x e = none := by
  unfold neededClaim
  rw [kind]

/-- R42: a head released with the units granted for it. -/
def grantedUnits (pool : Pool) (n : Nat) : Nat := if pool = .exhaust then n else 0

theorem unheaded_gas (s : State) (k : Tube) (e : HeldEntry) : ((s.unheaded k e).tube k).gas = (s.tube k).gas
    ∧ ((s.unheaded k e).tube k).ramp = (s.tube k).ramp := by rw [unheaded_tube]; exact ⟨rfl, rfl⟩

/-- R42, R75: a granted ZONE entry. -/
theorem release_zone {z : Zone} {step : Nat} (kind : e.kind = .zone z step)
    (needs : neededClaim (s.tube k) e = some (pool, n)) (m : Nat) :
    let u := s.releaseHead rescan k e m
    u.budget = s.budget ∧ (u.tube k).ramp.slotHeld = true ∧ (u.tube k).ramp.direction = .up
      ∧ (u.tube k).ramp.zones
        = (s.tube k).ramp.zones.set z { (s.tube k).ramp.zones.get z with target := e.value, step := step } := by
  intro u
  obtain ⟨-, -, -, up⟩ := needs_zone kind needs
  have entry : (s.unheaded k e).applyEntry rescan k e m = (s.unheaded k e).applyZone rescan k z step e.value e.ticket := by
    unfold State.applyEntry; rw [kind]
  have ramp := (unheaded_gas s k e).2
  obtain ⟨slot, direction, zones, budget⟩ := applyZone_up (k := k) (rescan := rescan) (s.unheaded k e) z step e.value e.ticket
    (by rw [ramp]; exact up)
  obtain ⟨-, same, books⟩ := releaseHead_applies (rescan := rescan) s k e m
  rw [entry] at same books
  rw [same]
  rw [ramp] at zones
  exact ⟨books.trans budget, slot, direction, zones⟩

/-- R42, R93: a granted LINE entry. -/
theorem release_line {l : Line} {reactive purge : Bool} {weight : Nat} (kind : e.kind = .line l reactive purge weight)
    (needs : neededClaim (s.tube k) e = some (pool, n)) (same : weight = ((s.tube k).gas.lines.get l).weight) :
    let u := s.releaseHead rescan k e (grantedUnits pool n)
    u.budget = s.budget ∧ (u.tube k).gas = (s.tube k).gas.raise l e.value := by
  intro u
  obtain ⟨exhaust, added, above⟩ := needs_line kind needs
  have gas := (unheaded_gas s k e).1
  have entry : (s.unheaded k e).applyEntry rescan k e (grantedUnits pool n)
      = ((s.unheaded k e).modGas k fun g => g.raise l e.value).deliver ((s.unheaded k e).lineAddr k l) e.value false := by
    rw [exhaust, show grantedUnits .exhaust n = n from rfl]
    have raises := applyLine_raises (k := k) (rescan := rescan) (s := s.unheaded k e) (l := l) (v := e.value) (n := n)
      (by rw [gas]; exact above) (by rw [gas, ← same]; exact added.symm)
    rw [← raises]
    unfold State.applyEntry
    rw [kind]
  obtain ⟨applied, -, books⟩ := releaseHead_applies (rescan := rescan) s k e (grantedUnits pool n)
  rw [entry] at applied books
  refine ⟨books, applied.trans ?_⟩
  show (((s.unheaded k e).modGas k fun g => g.raise l e.value).tube k).gas = _
  rw [modGas_tube, gas]

/-- R92, R132: within a scan a LINE entry that raises its line leaves the Claim List, whatever units it was granted. -/
theorem release_line_budget {l : Line} {reactive purge : Bool} {weight : Nat} (kind : e.kind = .line l reactive purge weight)
    (needs : neededClaim (s.tube k) e = some (pool, n)) (m : Nat) : (s.releaseHead absorbed k e m).budget = s.budget := by
  have above := (needs_line kind needs).2.2
  have gas := (unheaded_gas s k e).1
  refine (releaseHead_applies (rescan := absorbed) s k e m).budget.trans ?_
  unfold State.applyEntry
  rw [kind]
  show ((s.unheaded k e).applyLine absorbed k l e.value m).budget = s.budget
  unfold State.applyLine
  dsimp only
  rw [show (s.unheaded k e).lineRec k l = (s.tube k).gas.lines.get l from congrArg (fun g : Gas => g.lines.get l) gas,
    if_pos above]
  split <;> rfl

end Sys2Proof.Machine

/-! The Claim List is served (R41, R45, R94, R99, R130 to R135, R146), and the scrubber (R137, R138). -/

namespace Sys2Proof.Machine

variable {s u w : State} {k : Tube} {e f : HeldEntry} {rest : List HeldEntry} {b : Budget} {c : Claim} {p pool : Pool} {l : Line}
  {v : Word} {n : Nat} {q : AbortRequest}

/-! ## The scrubber (R137, R138) -/

theorem reactiveDraw_elapse (s : State) (r : Nat) : (s.elapse r).reactiveDraw = s.reactiveDraw := by
  unfold State.reactiveDraw
  rw [presentTubes_eq (u := s.elapse r) (s := s) rfl]
  congr 2
  funext j
  rw [tube_elapse]
  rfl

theorem throttleAfter_off (off : b.throttle = false) (load : Nat) : throttleAfter b load = true ↔ b.upper ≤ load := by
  unfold throttleAfter
  simp [off]

theorem throttleAfter_on (on : b.throttle = true) (load : Nat) : throttleAfter b load = false ↔ load ≤ b.lower := by
  unfold throttleAfter
  simp [on]

/-! ## A waiting claim's notice (R135) -/

/-- R131, R135: a claim that has just joined and does not fit is announced. -/
theorem announce_one {old : List Claim} (list : s.budget.claims = old ++ [c]) (fresh : c.fresh = true)
    (before : ∀ d ∈ old, d.fresh = false) :
    s.announce = (s.modBudget fun b => { b with claims := old ++ [{ c with fresh := false }] }).place
      (claimWaitNotice (s.modBudget fun b => { b with claims := old ++ [{ c with fresh := false }] }) c) := by
  have joined : s.budget.claims.filter (·.fresh) = [c] := by
    rw [list, List.filter_append, List.filter_eq_nil_iff.mpr fun d mem => by rw [before d mem]; exact Bool.false_ne_true,
      List.filter_cons_of_pos fresh]
    rfl
  have marked : s.budget.claims.map (fun c => { c with fresh := false }) = old ++ [{ c with fresh := false }] := by
    rw [list, List.map_append, map_fresh before]
    rfl
  unfold State.announce State.modBudget
  dsimp only
  rw [joined, marked]
  rfl

/-! ## Grants (R41, R99) -/

/-- R99: what the grant of a run's claim leaves. -/
theorem grant_run_state {run : Run} (origin : ∀ ticket channel, c.origin ≠ .entry ticket channel)
    (runs : (s.tube c.tube).gas.run = some run) :
    let x := s.tube c.tube
    s.grant c = { s with
      budget := { s.budget with claims := s.budget.claims.erase c }
      delivery := (s.grant c).delivery
      tubes := s.tubes.set c.tube { x with
        abortTimer := none
        gas := { x.gas with
          lines := x.gas.lines.set x.header.purgeLine { x.gas.lines.get x.header.purgeLine with flow := run.flow, devCounter := 0 }
          run := some { run with phase := .flowing }
          sampleTimer := some x.header.samplePeriod } } } := by
  intro x
  have granted := grant_run (s := s) origin
  have tubes : (s.grant c).tubes = s.tubes.set c.tube { x with
      abortTimer := none
      gas := { x.gas with
        lines := x.gas.lines.set x.header.purgeLine { x.gas.lines.get x.header.purgeLine with flow := run.flow, devCounter := 0 }
        run := some { run with phase := .flowing }
        sampleTimer := some x.header.samplePeriod } } := by
    refine Four.ext_get fun j => ?_
    rw [Four.get_set]
    show (s.grant c).tube j = _
    rw [granted]
    split
    · next own =>
      rw [own, runGrant_tube (s := s.paid c) runs]
      unfold TubeState.carrying Gas.flowing TubeState.withFlow
      dsimp only
      rw [show ((s.paid c).tube c.tube).gas.run = some run from runs]
      rfl
    · next other => exact runGrant_others _ other
  rw [← tubes]
  rw [granted]
  unfold State.runGrant
  rw [show ((s.paid c).tube c.tube).gas.run = some run from runs]
  rfl

section
variable {ticket : Word} {channel : Six} (origin : c.origin = .entry ticket channel) (queue : (s.tube c.tube).queue = [e])
  (claims : e.state = .claiming) (passes : s.firstFailure c.tube e = none)
include origin queue claims passes

/-- R41, R42: a granted head that is its queue's only entry is released. -/
theorem grant_releases (needs : neededClaim (s.tube c.tube) e = some (c.pool, c.amount)) :
    s.grant c = (s.paid c).releaseHead absorbed c.tube e (grantedUnits c.pool c.amount) := by
  have granted := grant_entry (s := s) origin
  rw [headGrant_releases (s := s.paid c) queue claims passes needs] at granted
  rw [granted]
  refine examineLoop_empty ?_ _
  rw [releaseHead_queue]
  show (s.tube c.tube).queue.tail = []
  rw [queue]
  rfl

/-- R41: one that needs no claim any more is handed back, and released by its examination. -/
theorem grant_unneeded (none_ : neededClaim (s.tube c.tube) e = none) :
    s.grant c = ((s.paid c).handedBack c.tube e).releaseHead absorbed c.tube e.toWaiting 0 := by
  have other : neededClaim ((s.paid c).tube c.tube) e ≠ some (c.pool, c.amount) := by
    rw [show neededClaim ((s.paid c).tube c.tube) e = none from none_]
    nofun
  rw [grant_entry origin, headGrant_other (s := s.paid c) queue claims passes other]
  refine examine_last Shift.absorbed (e := e.toWaiting) ?_ ((handedBack_passes (s := s.paid c) queue).trans passes) rfl
    ((handedBack_needs (s := s.paid c) queue).trans none_)
  exact congrArg TubeState.queue (handedBack_tube (s := s.paid c) queue)

theorem grant_released (needs : neededClaim (s.tube c.tube) e = some (c.pool, c.amount) ∨ neededClaim (s.tube c.tube) e = none) :
    Releases c.tube e s (s.grant c) := by
  rcases needs with needs | none_
  · rw [grant_releases origin queue claims passes needs]
    obtain ⟨others, empty, released, clock, buffer⟩ := releaseHead_last (s := s.paid c) queue (grantedUnits c.pool c.amount)
    exact ⟨others, empty, released, clock, buffer⟩
  · rw [grant_unneeded origin queue claims passes none_]
    have back := handedBack_tube (s := s.paid c) queue
    obtain ⟨others, empty, released, clock, buffer⟩ := releaseHead_last (s := (s.paid c).handedBack c.tube e) (e := e.toWaiting)
      (k := c.tube) (by rw [back]) 0
    exact ⟨fun j other => (others j other).trans (tube_setTube_ne _ _ other), empty, released, clock, buffer⟩

/-- R41, R75: a granted ZONE head. -/
theorem grant_zone {z : Zone} {step : Nat} (kind : e.kind = .zone z step)
    (needs : neededClaim (s.tube c.tube) e = some (c.pool, c.amount)) :
    c.pool = .heat ∧ ((s.grant c).tube c.tube).ramp.slotHeld = true ∧ ((s.grant c).tube c.tube).ramp.direction = .up
      ∧ ((s.grant c).tube c.tube).ramp.zones = (s.tube c.tube).ramp.zones.set z
        { (s.tube c.tube).ramp.zones.get z with target := e.value, step := step } := by
  rw [grant_releases origin queue claims passes needs]
  obtain ⟨-, slot, direction, zones⟩ := release_zone (s := s.paid c) (rescan := absorbed) kind needs
    (grantedUnits c.pool c.amount)
  exact ⟨(needs_zone kind needs).1, slot, direction, zones⟩

/-- R41, R93: a granted LINE head. -/
theorem grant_line {m : Line} {reactive purge : Bool} {weight : Nat} (kind : e.kind = .line m reactive purge weight)
    (needs : neededClaim (s.tube c.tube) e = some (c.pool, c.amount)) (same : weight = ((s.tube c.tube).gas.lines.get m).weight) :
    c.pool = .exhaust ∧ ((s.grant c).tube c.tube).gas = (s.tube c.tube).gas.raise m e.value := by
  rw [grant_releases origin queue claims passes needs]
  obtain ⟨-, gas⟩ := release_line (s := s.paid c) (rescan := absorbed) kind needs same
  exact ⟨(needs_line kind needs).1, gas⟩

end

/-! ## A claim withdrawn by an expiry (R45, R133) -/

/-- After an event that leaves each tube without a head, off RUN, or as an examination read it. -/
theorem Local.noneDue_each (event : Local k s w)
    (each : ∀ j, (w.tube j).queue = [] ∨ (w.tube j).mode ≠ .run ∨ SameView (s.tube j) (w.tube j)) : NoneDue s w :=
  fun j => (each j).imp_right (Or.imp_right (headView_congr event.acts))

/-- The expired entry, the only one of its queue, has left, and so has its claim. -/
def State.withdrawn (s : State) (k : Tube) (e : HeldEntry) (cs : List Claim) : State :=
  (s.dropped k e).modBudget fun b => { b with claims := cs }

theorem withdrawn_tube (queue : (s.tube k).queue = [f]) (same : f.ticket = e.ticket) (cs : List Claim) :
    (s.withdrawn k e cs).tube k = { s.tube k with queue := [] } := by
  have own : (s.withdrawn k e cs).tube k = _ := dropped_tube s k e
  rw [own, queue, List.filter_cons_of_neg (by rw [same]; simp)]
  rfl

theorem withdrawn_others (s : State) (e : HeldEntry) (cs : List Claim) {j : Tube} (other : j ≠ k) :
    (s.withdrawn k e cs).tube j = s.tube j := tube_setTube_ne _ _ other

theorem withdrawn_freeOf (s : State) (k : Tube) (e : HeldEntry) (cs : List Claim) (pool : Pool) :
    (s.withdrawn k e cs).freeOf pool = s.freeOf pool := by
  have same : ∀ j, ((s.withdrawn k e cs).tube j).gas = (s.tube j).gas ∧ ((s.withdrawn k e cs).tube j).ramp = (s.tube j).ramp :=
    fun j => by
      by_cases own : j = k
      · subst own
        rw [show (s.withdrawn j e cs).tube j = _ from dropped_tube s j e]
        exact ⟨rfl, rfl⟩
      · rw [withdrawn_others s e cs own]
        exact ⟨rfl, rfl⟩
  exact freeOf_same (s := s) (u := s.withdrawn k e cs) rfl rfl rfl (fun j => by rw [(same j).1])
    (fun j => by rw [(same j).2]) pool

/-- R133: the withdrawal is followed by a scan. -/
theorem unclaimedEntry_eq {cs : List Claim} (claims : e.state = .claiming) (first : Claim.ofHead k c = true)
    (list : s.budget.claims = c :: cs) (off : ∀ d ∈ cs, Claim.ofHead k d = false) :
    s.unclaimedEntry k e = (s.withdrawn k e cs).rescan := by
  have listed : (s.dropped k e).budget.claims = c :: cs := list
  have kept : (c :: cs).filter (fun d => !Claim.ofHead k d) = cs := by
    rw [List.filter_cons_of_neg (by rw [first]; decide)]
    exact List.filter_eq_self.mpr fun d mem => by rw [off d mem]; rfl
  unfold State.unclaimedEntry State.withdraw
  rw [if_pos claims, listed, List.any_cons, first, Bool.true_or, if_pos rfl]
  exact congrArg (fun ds => ((s.dropped k e).modBudget fun b => { b with claims := ds }).rescan)
    ((congrArg (List.filter fun d => !Claim.ofHead k d) listed).trans kept)

/-- R45: what the expiry of a queue's only entry leaves, where the scan behind it leaves every other tube without a head or as
it was. -/
theorem entryExpired_last {r : Nat} (queue : (s.tube k).queue = [e]) (timer : e.timer = some r)
    (empty : (((s.elapse r).unclaimedEntry k e).tube k).queue = [])
    (others : ∀ j, j ≠ k → (((s.elapse r).unclaimedEntry k e).tube j).queue = []
      ∨ ((s.elapse r).unclaimedEntry k e).tube j = (s.elapse r).tube j) :
    ∃ t, exec (.entryExpiry k e.ticket) s = .next t ∧ t.budget = ((s.elapse r).unclaimedEntry k e).budget
      ∧ ∀ j, j ≠ k → t.tube j = ((s.elapse r).unclaimedEntry k e).tube j := by
  have held : (s.tube k).entryOf e.ticket = some e := by
    unfold TubeState.entryOf
    rw [queue]
    exact List.find?_cons_of_pos (beq_self_eq_true _)
  have run : exec (.entryExpiry k e.ticket) s = .next (s.finish ((s.elapse r).entryExpired k e)) := by
    unfold exec execEntryExpiry
    simp only [held, timer]
  have own : (((s.elapse r).expiring k e).tube k).queue = [] := by
    rw [expiring_tube]
    exact empty
  have same : (s.elapse r).entryExpired k e = (s.elapse r).expiring k e := by
    unfold State.entryExpired
    dsimp only
    split
    · exact examine_empty _ own
    · rfl
  have event : Local k (s.elapse r) ((s.elapse r).expiring k e) := same ▸ Local.entryExpired (s.elapse r) e
  have away : ∀ j, j ≠ k → ((s.elapse r).expiring k e).tube j = ((s.elapse r).unclaimedEntry k e).tube j :=
    fun j other => tube_setTube_ne _ _ other
  have still : Still ((s.elapse r).expiring k e) (s.finish ((s.elapse r).expiring k e)) :=
    Still.finish (NoneDue.elapsed (event.noneDue_each fun j => by
      by_cases at_ : j = k
      · subst at_; exact .inl own
      · rw [away j at_]
        rcases others j at_ with none_ | same
        · exact .inl none_
        · rw [same]; exact .inr (.inr (.refl _))))
  rw [same] at run
  exact ⟨_, run, still.claims, fun j other => (still.tube j).trans (away j other)⟩

section
variable {r : Nat} {d : Claim} {run : Run} (queue : (s.tube k).queue = [e]) (timer : e.timer = some r)
  (claims : e.state = .claiming) (first : Claim.ofHead k c = true)
include queue

theorem elapsed_queue : ((s.elapse r).tube k).queue = [{ e with timer := Timer.pass r e.timer }] := by
  rw [tube_elapse]
  show (s.tube k).queue.map _ = _
  rw [queue]
  rfl

theorem elapsed_withdrawn (cs : List Claim) :
    ((s.elapse r).withdrawn k e cs).tube k = { (s.elapse r).tube k with queue := [] } :=
  withdrawn_tube (e := e) (elapsed_queue (r := r) queue) rfl cs

include timer claims first

/-- R133: the withdrawal of the only claim leaves none. -/
theorem expiry_empties (list : s.budget.claims = [c]) :
    Completes (.entryExpiry k e.ticket) s fun t => t.budget.claims = [] := by
  have left_ : (s.elapse r).unclaimedEntry k e = (s.elapse r).withdrawn k e [] :=
    (unclaimedEntry_eq (s := s.elapse r) claims first list nofun).trans (rescan_none rfl)
  obtain ⟨t, run, budget, -⟩ := entryExpired_last queue timer (by rw [left_, elapsed_withdrawn queue]) fun j other =>
    .inr (by rw [left_]; exact withdrawn_others _ _ _ other)
  exact ⟨t, run, (congrArg Budget.claims budget).trans (by rw [left_]; rfl)⟩

variable (list : s.budget.claims = [c, d]) (apart : d.tube ≠ k) (exhaust : d.pool = .exhaust)
  (own : ∀ n ch, d.origin ≠ .entry n ch) (runs : (s.tube d.tube).gas.run = some run)

include list own in
omit queue timer in
theorem expiry_scans : (s.elapse r).unclaimedEntry k e = ((s.elapse r).withdrawn k e [d]).rescan :=
  unclaimedEntry_eq (s := s.elapse r) claims first list fun x mem => by
    obtain rfl := List.mem_singleton.mp mem
    unfold Claim.ofHead
    rw [isEntry_false own, Bool.and_false]

omit queue timer claims first in
theorem expiry_free (s : State) (r : Nat) (k : Tube) (e : HeldEntry) (cs : List Claim) :
    ((s.elapse r).withdrawn k e cs).freeOf .exhaust = s.freeUnits := by
  rw [withdrawn_freeOf]
  exact freeOf_same (s := s) (u := s.elapse r) rfl rfl rfl (fun j => by rw [tube_elapse]; rfl)
    (fun j => by rw [tube_elapse]; rfl) .exhaust

omit queue timer claims first in
include apart in
theorem expiry_claimant : ((s.elapse r).withdrawn k e [d]).tube d.tube = (s.tube d.tube).pass r := by
  rw [withdrawn_others _ _ _ apart, tube_elapse]

include list apart exhaust own runs

/-- R131, R133: the run whose claim stands behind the withdrawn one is granted where its units are free. -/
theorem expiry_grants (empty : (s.tube d.tube).queue = []) (fits : d.amount ≤ s.freeUnits) :
    Completes (.entryExpiry k e.ticket) s fun t => t.budget.claims = []
      ∧ (t.tube d.tube).gas.run = some { run with phase := .flowing }
      ∧ ((t.tube d.tube).gas.lines.get (s.tube d.tube).header.purgeLine).flow = run.flow := by
  let c' := (s.elapse r).withdrawn k e [d]
  have granted : c'.grant d = (c'.paid d).runGrant d.tube := grant_run own
  have books : (c'.grant d).budget.claims = [] := (grant_run_claims own).trans (List.erase_cons_head _ _)
  have left_ : (s.elapse r).unclaimedEntry k e = c'.grant d :=
    (expiry_scans claims first list own).trans (rescan_one rfl (by rw [exhaust, expiry_free]; exact fits) books)
  have claimant : (c'.paid d).tube d.tube = (s.tube d.tube).pass r := expiry_claimant apart
  have tube : (c'.grant d).tube d.tube = { ((s.tube d.tube).pass r).carrying run.flow with abortTimer := none } := by
    rw [granted, runGrant_tube (run := run) (by rw [claimant]; exact runs), claimant]
  have others : ∀ j, j ≠ d.tube → (c'.grant d).tube j = c'.tube j := fun j other => by
    rw [granted]; exact runGrant_others _ other
  obtain ⟨t, run_, budget, tubes⟩ := entryExpired_last queue timer (by
      rw [left_, others k (Ne.symm apart), show c'.tube k = _ from elapsed_withdrawn queue [d]]) fun j other => by
    rw [left_]
    by_cases at_ : j = d.tube
    · subst at_
      rw [tube]
      refine .inl ?_
      show (s.tube d.tube).queue.map _ = []
      rw [empty]; rfl
    · exact .inr ((others j at_).trans (withdrawn_others _ _ _ other))
  have final := (tubes d.tube apart).trans ((congrArg (fun u : State => u.tube d.tube) left_).trans tube)
  refine ⟨t, run_, (congrArg Budget.claims budget).trans (by rw [left_, books]), ?_, ?_⟩ <;> rw [final]
  · show (s.tube d.tube).gas.run.map _ = _
    rw [runs]; rfl
  · exact congrArg LineRec.flow ((withFlow_get ((s.tube d.tube).pass r) _ _ _).trans (if_pos rfl))

/-- R131, R133: it goes on waiting where they are not. -/
theorem expiry_passes (short : s.freeUnits < d.amount) (notFresh : d.fresh = false) :
    Completes (.entryExpiry k e.ticket) s fun t => t.budget.claims = [d] ∧ (t.tube d.tube).gas.run = some run := by
  have left_ : (s.elapse r).unclaimedEntry k e = (s.elapse r).withdrawn k e [d] := by
    refine (expiry_scans claims first list own).trans (rescan_no_fit (fun p x front => ?_) fun x mem => ?_)
    · rw [front_one (c := d) rfl] at front
      split at front
      · next pool =>
        cases front
        rw [← pool, exhaust, expiry_free]
        exact short
      · cases front
    · obtain rfl := List.mem_singleton.mp mem
      exact notFresh
  obtain ⟨t, run_, budget, tubes⟩ := entryExpired_last queue timer (by rw [left_, elapsed_withdrawn queue]) fun j other =>
    .inr (by rw [left_]; exact withdrawn_others _ _ _ other)
  refine ⟨t, run_, (congrArg Budget.claims budget).trans (by rw [left_]; rfl), ?_⟩
  rw [tubes d.tube apart, left_, expiry_claimant apart]
  exact runs

end

end Sys2Proof.Machine

/-! The rest of O45: a fall of draw that serves another tube's claim (R94, R131), an abort that raises a purge's claim (R105,
R134), and the statement itself. -/

namespace Sys2Proof.Machine

variable {s u w : State} {k : Tube} {e : HeldEntry} {c : Claim} {l : Line} {v : Word} {q : AbortRequest}

/-! ## A raised claim (R105, R134, R142) -/

/-- R142: the freeze of a tube with no head and no slot disturbs nothing else, and not its gas. -/
theorem frozen_calm (queue : (s.tube q.tube).queue = []) (slot : (s.tube q.tube).ramp.slotHeld = false) :
    Silent q.tube s (s.frozen q) ∧ ((s.frozen q).tube q.tube).gas = (s.tube q.tube).gas := by
  have begun := beginAbort_tube s q
  have calm : (s.beginAbort q).unclaimed q.tube = s.beginAbort q :=
    unclaimed_waiting (by rw [begun]; show ∀ e ∈ (s.tube q.tube).queue, _; rw [queue]; nofun)
  have flushed : (s.beginAbort q).flush q.tube .abort = (s.beginAbort q).modTube q.tube fun x => { x with queue := [] } := by
    rw [flush_eq, calm, begun]
    show placeFlushed _ _ 0 (s.tube q.tube).queue _ = _
    rw [queue]
    rfl
  let c := ((s.beginAbort q).flush q.tube .abort).modTube q.tube fun x => { x with gapTimer := none }
  have own : c.tube q.tube = { (s.tube q.tube).beginning q s.clock with queue := [], gapTimer := none } := by
    show (State.modTube _ _ _).tube _ = _
    rw [tube_modTube_eq, flushed, tube_modTube_eq, begun]
  have silent : Silent q.tube s c := by
    show Silent _ _ (State.modTube _ _ _)
    rw [flushed]
    exact (((Silent.modTube s _).trans (.place _ _)).trans (.modTube _ _)).trans (.modTube _ _)
  let slow (r : Ramp) : Ramp := { r with
    thermal := .held, cause := .abort, direction := if r.thermal = .ramping ∨ r.thermal = .held then r.direction else .none
    stepTimer := none, settleTimer := none }
  have slowed : (c.modRamp q.tube slow).tube q.tube = { c.tube q.tube with ramp := slow (c.tube q.tube).ramp } :=
    modRamp_tube c q.tube slow
  have ramped : c.freezeRamp q.tube = c.modRamp q.tube slow := by
    show (c.modRamp q.tube slow).freeSlot State.rescan q.tube = _
    unfold State.freeSlot
    refine if_neg ?_
    rw [slowed, own]
    show ¬ (s.tube q.tube).ramp.slotHeld = true
    rw [slot]
    exact Bool.false_ne_true
  have last : s.frozen q = (c.modRamp q.tube slow).modBoat q.tube fun b =>
      b.freeze ((c.modRamp q.tube slow).tube q.tube).header.inThreshold := by
    rw [← ramped]
    unfold State.frozen
    rfl
  rw [last]
  refine ⟨(silent.trans (.modRamp _ _)).trans (.modBoat _ _), ?_⟩
  rw [modBoat_tube, slowed, own]
  rfl

/-- The tube with the priority of its run raised. -/
def Gas.raised (g : Gas) : Gas := { g with run := g.run.map fun r => { r with priority := .abort } }

/-- The state with the claim of a tube's run, and the run, raised (R134). -/
def State.raised (s : State) (k : Tube) (cs : List Claim) : State :=
  (s.modBudget fun b => { b with claims := cs }).modGas k Gas.raised

theorem raised_tube (s : State) (k : Tube) (cs : List Claim) :
    (s.raised k cs).tube k = { s.tube k with gas := (s.tube k).gas.raised } := modGas_tube _ _ _

section
variable {before after : List Claim} (list : s.budget.claims = before ++ c :: after) (own : Claim.ofRun k c = true)
  (others : ∀ d ∈ before ++ after, Claim.ofRun k d = false)
include list own others

theorem runClaim_of : s.runClaim k = some c := by
  unfold State.runClaim
  rw [list, List.find?_append, List.find?_eq_none.mpr fun d mem => by
    rw [others d (List.mem_append_left _ mem)]; exact Bool.false_ne_true]
  exact List.find?_cons_of_pos own

theorem raise_claims : (s.budget.claims.map fun d => if d.ofRun k then { d with priority := .abort } else d)
    = before ++ { c with priority := .abort } :: after := by
  have same : ∀ cs : List Claim, (∀ d ∈ cs, Claim.ofRun k d = false) →
      (cs.map fun d => if d.ofRun k then { d with priority := .abort } else d) = cs := fun cs off =>
    (List.map_congr_left fun d mem => by rw [off d mem]; rfl).trans (List.map_id cs)
  rw [list, List.map_append, List.map_cons, if_pos own, same before fun d mem => others d (List.mem_append_left _ mem),
    same after fun d mem => others d (List.mem_append_right _ mem)]

/-- R134: a raised claim that does not fit goes on waiting. -/
theorem raiseRunClaim_waits (level : c.priority ≠ .abort)
    (fresh : ∀ d ∈ before ++ { c with priority := .abort } :: after, d.fresh = false)
    (short : ∀ p d, Budget.front { s.budget with claims := before ++ { c with priority := .abort } :: after } p = some d →
      s.freeOf p < d.amount) : s.raiseRunClaim k = s.raised k (before ++ { c with priority := .abort } :: after) := by
  let raised := s.raised k (before ++ { c with priority := .abort } :: after)
  have same : ∀ j, (raised.tube j).gas.lines = (s.tube j).gas.lines ∧ (raised.tube j).ramp = (s.tube j).ramp := fun j => by
    by_cases at_ : j = k
    · subst at_; rw [show raised.tube j = _ from raised_tube s j _]; exact ⟨rfl, rfl⟩
    · rw [show raised.tube j = s.tube j from tube_setTube_ne _ _ at_]; exact ⟨rfl, rfl⟩
  have free : ∀ pool, raised.freeOf pool = s.freeOf pool := freeOf_same (s := s) (u := raised) rfl rfl rfl
    (fun j => (same j).1) (fun j => by rw [(same j).2])
  have scanned : raised.rescan = raised :=
    rescan_no_fit (fun p d front => (free p).symm ▸ short p d front) fresh
  unfold State.raiseRunClaim
  rw [runClaim_of list own others]
  dsimp only
  rw [if_neg level]
  refine Eq.trans ?_ scanned
  exact congrArg (fun cs => ((s.modBudget fun b => { b with claims := cs }).modGas k Gas.raised).rescan)
    (raise_claims list own others)

end

/-- R105, R134, R142, R146: an abort that finds a purge whose claim waits. -/
theorem abortTube_raises {run : Run} {before after : List Claim} (queue : (s.tube q.tube).queue = [])
    (slot : (s.tube q.tube).ramp.slotHeld = false) (gas : (s.tube q.tube).gas.atmosphere = .purging)
    (runs : (s.tube q.tube).gas.run = some run) (claims : run.phase = .claiming)
    (list : s.budget.claims = before ++ c :: after) (own : Claim.ofRun q.tube c = true)
    (others : ∀ d ∈ before ++ after, Claim.ofRun q.tube d = false) (level : c.priority ≠ .abort)
    (fresh : ∀ d ∈ before ++ { c with priority := .abort } :: after, d.fresh = false)
    (short : ∀ p d, Budget.front { s.budget with claims := before ++ { c with priority := .abort } :: after } p = some d →
      s.freeOf p < d.amount) :
    let t := s.abortTube q
    t.budget = { s.budget with claims := before ++ { c with priority := .abort } :: after }
      ∧ (∀ j, j ≠ q.tube → t.tube j = s.tube j)
      ∧ (t.tube q.tube).queue = [] ∧ (t.tube q.tube).mode = .aborting
      ∧ (t.tube q.tube).gas.run = some { run with priority := .abort }
      ∧ (t.tube q.tube).abortTimer = startUnlessZero (s.abort.claimLimit * 100) := by
  intro t
  have froze := frozen_tube s q
  obtain ⟨silent, same⟩ := frozen_calm queue slot
  let restarted := (s.frozen q).modGas q.tube fun g =>
    { g with limitTimer := restartLimit g.limitTimer ((s.frozen q).tube q.tube).header.purgeLimit }
  have own' : restarted.tube q.tube = { (s.frozen q).tube q.tube with gas := { (s.tube q.tube).gas with
      limitTimer := restartLimit (s.tube q.tube).gas.limitTimer ((s.frozen q).tube q.tube).header.purgeLimit } } := by
    show ((s.frozen q).modGas q.tube _).tube q.tube = _
    rw [modGas_tube, same]
  have away : ∀ j, j ≠ q.tube → restarted.tube j = s.tube j := fun j other =>
    (tube_setTube_ne _ _ other).trans (silent.others j other)
  have budget : restarted.budget = s.budget := silent.claims
  have slotless : (restarted.tube q.tube).ramp.slotHeld = false := by
    rw [own']
    show ((s.frozen q).tube q.tube).ramp.slotHeld = false
    rw [froze.ramp]
    rfl
  have free : ∀ pool, restarted.freeOf pool = s.freeOf pool := by
    have each : ∀ j, (restarted.tube j).gas.lines = (s.tube j).gas.lines
        ∧ (restarted.tube j).ramp.slotHeld = (s.tube j).ramp.slotHeld := fun j => by
      by_cases at_ : j = q.tube
      · subst at_; exact ⟨by rw [own'], slotless.trans slot.symm⟩
      · rw [away j at_]; exact ⟨rfl, rfl⟩
    have root : restarted.root = s.root := by
      show (s.frozen q).root = s.root
      have frozen : Local q.tube (s.beginAbort q) (s.frozen q) := by
        unfold State.frozen
        exact (((Local.flush (s.beginAbort q) .abort).trans (.modTube _ _ fun x => { x with gapTimer := none })).trans
          (.freezeRamp _)).trans (.modBoat _ _ _)
      exact frozen.root
    exact freeOf_same (by rw [budget]) (by rw [budget]) root (fun j => (each j).1) (fun j => (each j).2)
  have raises : s.gassed q = restarted.raised q.tube (before ++ { c with priority := .abort } :: after) := by
    refine (gasAbort_purging (by rw [same]; exact gas)).trans ?_
    refine raiseRunClaim_waits (s := restarted) (budget ▸ list) own others level fresh fun p d front => ?_
    rw [free]
    rw [budget] at front
    exact short p d front
  have raisedTube := raised_tube restarted q.tube (before ++ { c with priority := .abort } :: after)
  have raisedRun : ((s.gassed q).tube q.tube).gas.run = some { run with priority := .abort } := by
    rw [raises, raisedTube, own']
    show (s.tube q.tube).gas.run.map _ = _
    rw [runs]
    rfl
  have books : (s.gassed q).budget = { s.budget with claims := before ++ { c with priority := .abort } :: after } := by
    rw [raises, ← budget]
    rfl
  have waits : (s.gassed q).runClaim q.tube = some { c with priority := .abort } :=
    runClaim_of (congrArg Budget.claims books) own others
  have last : s.abortTube q = (s.gassed q).startClaimTimer q.tube := by
    show (s.gassed q).afterGasAbort q.tube = _
    unfold State.afterGasAbort
    rw [raisedRun, waits]
    exact if_pos ⟨claims, rfl⟩
  have tube := startClaimTimer_tube (s.gassed q) q.tube
  have limit : (s.gassed q).abort = s.abort := (gassed_aborts s q).abort.trans (frozen_abort s q)
  show (s.abortTube q).budget = _ ∧ (∀ j, j ≠ q.tube → (s.abortTube q).tube j = s.tube j) ∧ ((s.abortTube q).tube q.tube).queue = []
    ∧ ((s.abortTube q).tube q.tube).mode = .aborting ∧ ((s.abortTube q).tube q.tube).gas.run = _
    ∧ ((s.abortTube q).tube q.tube).abortTimer = _
  rw [last, tube, limit]
  refine ⟨books, fun j other => (tube_setTube_ne _ _ other).trans ?_, ?_, ?_, raisedRun, rfl⟩
  · rw [raises]
    exact (tube_setTube_ne _ _ other).trans (away j other)
  · rw [raises, raisedTube, own']
    exact froze.queue
  · rw [raises, raisedTube, own']
    exact froze.mode

/-! ## A fall of draw (R94, R131) -/

/-- R91, R125: the draw of the bank with one line set. -/
theorem setFlow_bankDraw (present : s.present k = true) (l : Line) (v : Word) (b : Bool) :
    (s.setFlow k l v b).bankDraw + (s.lineRec k l).draw = s.bankDraw + drawOf v.toNat (s.lineRec k l).weight := by
  have lines : (s.setFlow k l v b).bankDraw = (s.setTube k ((s.tube k).withFlow l v)).bankDraw := rfl
  have tubes := bankDraw_setTube s k ((s.tube k).withFlow l v)
  rw [if_pos present, if_pos present] at tubes
  have gas := gasDraw_set (s.tube k).gas l { (s.tube k).gas.lines.get l with flow := v, devCounter := 0 }
  have set_ : ((s.tube k).withFlow l v).gas.draw + ((s.tube k).gas.lines.get l).draw
      = (s.tube k).gas.draw + drawOf v.toNat ((s.tube k).gas.lines.get l).weight := gas
  rw [lines]
  show _ + ((s.tube k).gas.lines.get l).draw = _ + drawOf v.toNat ((s.tube k).gas.lines.get l).weight
  omega

theorem firstFailure_same (tube : u.tube k = s.tube k) (acts : SameActs s u) : u.firstFailure k e = s.firstFailure k e := by
  obtain ⟨ring, stale, scrubber, lapsed⟩ := acts
  exact firstFailure_congr (by rw [tube]) (by rw [tube]) (by rw [tube]) (by rw [tube]) ring stale scrubber lapsed

/-- What a fall of draw that serves the head of another tube leaves. -/
structure Serves (k : Tube) (l : Line) (v : Word) (c : Claim) (e : HeldEntry) (m : Line) (s t : State) : Prop where
  own : t.tube k = (s.tube k).withFlow l v
  others : ∀ j, j ≠ k → j ≠ c.tube → t.tube j = s.tube j
  claims : t.budget.claims = []
  queue : (t.tube c.tube).queue = []
  released : (t.tube c.tube).lastReleased = e.ticket
  flow : ((t.tube c.tube).gas.lines.get m).flow = e.value

/-- R94, R131: the units a lowered line frees go to the only claim, where they are enough. -/
theorem lowerLine_serves {ticket : Word} {channel : Six} {m : Line} {reactive purge : Bool} {weight : Nat}
    (present : s.present k = true) (list : s.budget.claims = [c]) (other : c.tube ≠ k)
    (origin : c.origin = .entry ticket channel) (queue : (s.tube c.tube).queue = [e]) (claims : e.state = .claiming)
    (passes : s.firstFailure c.tube e = none) (needs : neededClaim (s.tube c.tube) e = some (c.pool, c.amount))
    (kind : e.kind = .line m reactive purge weight) (same : weight = ((s.tube c.tube).gas.lines.get m).weight)
    (falls : drawOf v.toNat (s.lineRec k l).weight < (s.lineRec k l).draw)
    (fits : c.amount + s.bankDraw ≤ s.budget.capacity + ((s.lineRec k l).draw - drawOf v.toNat (s.lineRec k l).weight)) :
    Serves k l v c e m s (s.lowerLine State.rescan k l v) := by
  let u := s.setFlow k l v true
  have away : u.tube c.tube = s.tube c.tube := setFlow_others _ _ _ _ other
  have passes' : u.firstFailure c.tube e = none := (firstFailure_same away ⟨rfl, rfl, rfl, rfl⟩).trans passes
  have exhaust := (needs_line kind needs).1
  have set_ := setFlow_tube s k l v true
  have drawn : (u.lineRec k l).draw = drawOf v.toNat (s.lineRec k l).weight := by
    show ((u.tube k).gas.lines.get l).draw = _
    rw [show u.tube k = _ from set_, withFlow_get, if_pos rfl]
    rfl
  have free : c.amount ≤ u.freeOf c.pool := by
    rw [exhaust]
    show c.amount ≤ s.budget.capacity - u.bankDraw
    have total : u.bankDraw + (s.lineRec k l).draw = s.bankDraw + drawOf v.toNat (s.lineRec k l).weight :=
      setFlow_bankDraw present l v true
    omega
  have queue' : (u.tube c.tube).queue = [e] := by rw [away]; exact queue
  have needs' : neededClaim (u.tube c.tube) e = some (c.pool, c.amount) := by rw [away]; exact needs
  have granted := grant_releases origin queue' claims passes' needs'
  obtain ⟨others, empty, released, -, -⟩ := grant_released origin queue' claims passes' (.inl needs')
  obtain ⟨-, gas⟩ := grant_line origin queue' claims passes' kind needs' (by rw [away]; exact same)
  have left_ : (u.grant c).budget.claims = [] := by
    rw [granted, (release_line (s := u.paid c) (rescan := absorbed) kind needs' (by
      rw [show (u.paid c).tube c.tube = s.tube c.tube from away]; exact same)).1]
    show u.budget.claims.erase c = []
    rw [show u.budget.claims = [c] from list, List.erase_cons_head]
  have lowered : s.lowerLine State.rescan k l v = u.grant c := by
    unfold State.lowerLine
    exact (if_pos (by rw [drawn]; exact falls)).trans (rescan_one list free left_)
  rw [lowered]
  refine ⟨(others k (Ne.symm other)).trans set_, fun j off apart => (others j apart).trans (setFlow_others _ _ _ _ off), left_,
    empty, released, ?_⟩
  rw [gas, raise_eq, Eight.get_set, if_pos rfl]

/-! ## The statement -/

theorem met_bankDraw (s : State) : s.met.bankDraw = s.bankDraw := by
  obtain ⟨_, _, _, same⟩ := met_eq s
  rw [same]; rfl

/-- Settles O45, part by part. -/
theorem scrubberExpiryFollowsTheLoad : Obligations.ScrubberExpiryFollowsTheLoad := by
  refine ⟨?scrubber, ?front, ?scan, ?notice, ?run, ?head, ?falls, ?served, ?withdrawn, ?raised⟩
  case scrubber =>
    intro s r timer draw load
    let w := (s.elapse r).scrubberExpired
    have exec_ : exec .scrubberExpiry s = .next (s.finish w) := by
      unfold exec execScrubberExpiry; simp only [timer]; rfl
    have after := Finished.finish s w
    have drawn : (s.elapse r).reactiveDraw = draw := reactiveDraw_elapse s r
    have books : w.budget = { (s.elapse r).budget with
        load := load, throttle := throttleAfter (s.elapse r).budget load, timer := some 1000 } := by
      show Budget.mk _ _ _ _ _ _ _ _ _ _ _ = _
      rw [drawn]
      rfl
    have kept : { (s.finish w).budget with claims := w.budget.claims, joinCounter := w.budget.joinCounter } = w.budget :=
      after.budget
    rw [books] at kept
    have load_ : (s.finish w).budget.load = load := congrArg Budget.load kept
    have throttle : (s.finish w).budget.throttle = throttleAfter (s.elapse r).budget load := congrArg Budget.throttle kept
    have rest := after.elsewhere
    refine ⟨_, exec_, after.clock, load_, congrArg Budget.timer kept, fun off => ?_, fun on => ?_, ?_⟩
    · rw [throttle]
      exact throttleAfter_off (b := (s.elapse r).budget) off load
    · rw [throttle]
      exact throttleAfter_on (b := (s.elapse r).budget) on load
    · exact ⟨rest.pending, rest.mem, rest.straps, rest.clock, rest.root, rest.cache, rest.binding, rest.scanner,
        rest.measured, rest.arrivals, rest.monitor, rest.loader, rest.latch, rfl, rest.ring, rest.others⟩
  case front =>
    refine fun b p => ⟨front_none, ?_⟩
    rintro before c after list rfl ahead behind
    exact Foremost.front ⟨ahead, behind⟩ list
  case scan =>
    intro s
    obtain ⟨granted, same, served, order, none_⟩ := scan_serves s
    refine ⟨granted, same, served, fun c rest d list heat front => ?_, fun empty p c front => ?_, fun runs => ?_, fun apart => ?_⟩
    · exact Nat.lt_of_not_le fun fits => order c rest d list heat ⟨front, fits⟩
    · exact Nat.lt_of_not_le fun fits => none_ empty p c ⟨front, fits⟩
    · refine scan_ends fun t => ?_
      have off : headClaims t s.budget.claims = [] := List.filter_eq_nil_iff.mpr fun c listed => by
        unfold Claim.ofHead
        rw [isEntry_false (runs c listed), Bool.and_false]
        exact Bool.false_ne_true
      rw [off]
      exact Nat.zero_le _
    · exact scan_ends (headClaims_le_one apart)
  case notice =>
    intro s old c list fresh before short code noted
    let marked := s.modBudget fun b => { b with claims := old ++ [{ c with fresh := false }] }
    have announced : s.rescan = marked.place (claimWaitNotice marked c) := by
      unfold State.rescan
      rw [scan_no_fit short]
      exact announce_one list fresh before
    have same : claimWaitNotice marked c = noted := by
      have free : ∀ pool, marked.freeOf pool = s.freeOf pool := freeOf_same rfl rfl rfl (fun _ => rfl) fun _ => rfl
      show _ = notice _ _ _ (c.pool.code + c.priority.code * 2 + c.origin.code * 8) _ _ _
      unfold claimWaitNotice
      rw [free]
      cases c.origin <;> rfl
    rw [announced]
    exact ⟨rfl, Reports.of_place (u := marked) rfl rfl ⟨[], by rw [← same, List.append_nil]⟩, rfl⟩
  case run =>
    intro s c run origin runs x u
    have granted : u = (s.paid c).runGrant c.tube := grant_run origin
    refine ⟨grant_run_state origin runs, ?_, fun b other => ?_⟩
    · rw [granted]
      exact (runGrant_underway (s := s.paid c) runs _).trans (if_pos rfl)
    · rw [granted]
      exact (runGrant_underway (s := s.paid c) runs b).trans (if_neg other)
  case head =>
    intro s c ticket channel e rest origin queue claims x u left_
    have granted : u = (s.paid c).headGrant c.tube c.pool c.amount := grant_entry origin
    have back : (s.paid c).handedBack c.tube e = { s with
        budget := { s.budget with claims := left_ }
        tubes := s.tubes.set c.tube { x with queue := e.toWaiting :: rest } } := by
      show { s with budget := _, tubes := s.tubes.set c.tube { x with queue := e.toWaiting :: x.queue.tail } } = _
      rw [show x.queue = e :: rest from queue]
      rfl
    refine ⟨fun r fails => ?_, fun p a passes needs other => ?_, fun passes needs last => ?_⟩
    · rw [granted, headGrant_fails (s := s.paid c) queue claims fails]
      exact back
    · rw [granted, headGrant_other (s := s.paid c) queue claims passes (by
        rw [show neededClaim ((s.paid c).tube c.tube) e = some (p, a) from needs]
        exact fun h => other (Option.some.inj h))]
      have own := handedBack_tube (s := s.paid c) queue
      have joins := examine_joins (s := (s.paid c).handedBack c.tube e) (rescan := absorbed) (e := e.toWaiting) (rest := rest)
        (k := c.tube) (pool := p) (amount := a) (by rw [own]) ((handedBack_passes (s := s.paid c) queue).trans passes) rfl
        ((handedBack_needs (s := s.paid c) queue).trans needs)
      refine joins.trans ?_
      have tail : (((s.paid c).handedBack c.tube e).tube c.tube).queue.tail = rest := by rw [own]; rfl
      have set_ : ((s.paid c).handedBack c.tube e).tubes.set c.tube { ((s.paid c).handedBack c.tube e).tube c.tube with
          queue := e.toWaiting.claiming p a :: (((s.paid c).handedBack c.tube e).tube c.tube).queue.tail }
          = s.tubes.set c.tube { x with queue := { e with state := .claiming, claim := some (p, a) } :: rest } := by
        rw [tail, own]
        refine Four.ext_get fun j => ?_
        rw [Four.get_set, Four.get_set]
        split
        · rfl
        · next other => exact tube_setTube_ne (s.paid c) _ other
      show { s with budget := _, tubes := _ } = _
      rw [← set_]
      rfl
    · subst last
      have released := grant_released origin queue claims passes needs
      refine ⟨fun matched => ?_, released.queue, released.released, released.others, released.reports, fun z step kind matched => ?_,
        fun l reactive purge weight kind matched same => ?_⟩
      · rw [show u = _ from grant_releases origin queue claims passes matched]
        cases kind : e.kind with
        | zone z step => exact (release_zone (s := s.paid c) kind matched _).1
        | line l reactive purge weight => exact release_line_budget (s := s.paid c) kind matched _
        | boat => rw [needs_boat kind] at matched; cases matched
      · exact grant_zone origin queue claims passes kind matched
      · obtain ⟨pool, gas⟩ := grant_line origin queue claims passes kind matched same
        exact ⟨pool, gas.trans (raise_eq _ _ _)⟩
  case falls =>
    exact fun _ _ _ _ => ⟨rfl, rfl⟩
  case served =>
    intro s p v d l c ticket channel e m reactive purge weight manual kind mark dispatches aborted range below list other exhaust
      origin queue claims passes needs lined same old drop falls fits
    have below' : v.toNat ≤ (s.met.lineRec p.tube l).flow.toNat := by
      unfold State.lineRec; rw [met_tube]; exact below
    have rec_ : s.met.lineRec p.tube l = old := by unfold State.lineRec; rw [met_tube]
    have taken : s.met.manual (placeAccess s .service .write p v) p d = (s.met.lowerLine State.rescan p.tube l v).ack := by
      rw [manual_taken aborted range, mark]
      exact if_pos below'
    let w := (s.met.lowerLine State.rescan p.tube l v).ack
    have serves : Serves p.tube l v c e m s.met (s.met.lowerLine State.rescan p.tube l v) := by
      refine lowerLine_serves (ticket := ticket) (channel := channel) (weight := weight) (reactive := reactive)
        (purge := purge) (e := e) ?_ ((congrArg Budget.claims (met_budget s)).trans list) other origin
        (by rw [met_tube]; exact queue) claims ((firstFailure_same (met_tube s _) (Local.met p.tube s).acts).trans passes)
        (by rw [met_tube]; exact needs) lined (by rw [met_tube]; exact same) ?_ ?_
      · have root : s.met.root = s.root := (Local.met p.tube s).root
        unfold State.present
        rw [root]
        exact dispatches.present
      · rw [rec_]
        exact Nat.lt_of_sub_pos falls
      · rw [rec_, met_bankDraw, met_budget]
        exact fits
    have event : Local p.tube s.met w := by
      have applied : Local p.tube s.met (s.met.manual (placeAccess s .service .write p v) p d) := .manual _ _ p d
      rw [taken] at applied
      exact applied
    have still : Still w (s.advance.finish w) := Still.finish (event.of_met.noneDue_each fun j => by
      by_cases own : j = p.tube
      · subst own
        refine .inr (.inl ?_)
        rw [show w.tube p.tube = _ from serves.own, met_tube]
        show (s.tube p.tube).mode ≠ .run
        rw [aborted]
        nofun
      · by_cases served : j = c.tube
        · subst served; exact .inl serves.queue
        · rw [show w.tube j = _ from serves.others j own served, met_tube, show s.advance.tube j = s.tube j from Finished.tube_eq j]
          exact .inr (.inr (.refl _)))
    refine ⟨_, (manual_exec (.inr (.inl kind)) manual dispatches).trans (by rw [taken]), still.port, ?_, ?_, ?_, ?_, ?_, dispatched_kept event⟩
    · rw [still.tube, show w.tube p.tube = _ from serves.own, withFlow_get, if_pos rfl]
    · rw [still.claims]; exact serves.claims
    · rw [still.tube]; exact serves.queue
    · rw [still.tube]; exact serves.released
    · rw [still.tube]; exact serves.flow
  case withdrawn =>
    rintro s k ticket e r queue rfl timer claims c tube ⟨n, ch, origin⟩
    have first : Claim.ofHead k c = true := by
      unfold Claim.ofHead; rw [tube, origin]; exact Bool.and_eq_true_iff.mpr ⟨decide_eq_true rfl, rfl⟩
    refine ⟨fun list => expiry_empties queue timer claims first list, fun d run list apart exhaust own runs empty =>
      ⟨fun fits => ?_, fun short notFresh => ?_⟩⟩
    · exact expiry_grants queue timer claims first list apart exhaust own runs empty fits
    · exact expiry_passes queue timer claims first list apart exhaust own runs short notFresh
  case raised =>
    intro s q rest run before after c waits k x present working queue slot gas runs claims list tube origin level others fresh
      raised short
    let u := s.modAbort fun a => { a with requests := rest }
    have exec_ : exec .abortRequest s = .next (s.finish (u.takeAbort q)) := by
      unfold exec execAbortRequest; rw [waits]
    have aborts : u.takeAbort q = u.abortTube q := takeAbort_working present working
    have own : Claim.ofRun q.tube c = true := by
      unfold Claim.ofRun; rw [tube, isEntry_false origin]; exact Bool.and_eq_true_iff.mpr ⟨decide_eq_true rfl, rfl⟩
    have off : ∀ d ∈ before ++ after, Claim.ofRun q.tube d = false := fun d mem => by
      unfold Claim.ofRun; rw [decide_eq_false (others d mem).1]; rfl
    have stale : ∀ d ∈ before ++ { c with priority := .abort } :: after, d.fresh = false := fun d mem => by
      rcases List.mem_append.mp mem with mem | mem
      · exact (others d (List.mem_append_left _ mem)).2
      · rcases List.mem_cons.mp mem with rfl | mem
        · exact fresh
        · exact (others d (List.mem_append_right _ mem)).2
    obtain ⟨budget, same, empty, mode, record, timer⟩ := abortTube_raises (s := u) (q := q) queue slot gas runs claims list own off
      (by rw [level]; nofun) stale short
    have event : Local q.tube u (u.abortTube q) := aborts ▸ Local.takeAbort u q
    have still : Still (u.abortTube q) (s.finish (u.abortTube q)) := Still.finish (event.noneDue same (.inl empty))
    rw [aborts] at exec_
    refine ⟨_, exec_, still.claims.trans budget, ?_, ?_, ?_⟩ <;> rw [still.tube]
    · exact mode
    · exact record
    · rw [timer]
      show (if s.abort.claimLimit * 100 = 0 then none else some (s.abort.claimLimit * 100)) = _
      by_cases zero : s.abort.claimLimit = 0
      · rw [zero]
      · rw [if_neg zero, if_neg (Nat.mul_ne_zero zero (by decide))]

end Sys2Proof.Machine

/-! The records a release leaves (R42, R75 to R78, R92, R93, R113 to R115), and a write released within its acceptance
(R33). -/

namespace Sys2Proof.Machine

variable {s u w : State} {k : Tube} {e f : HeldEntry} {rest : List HeldEntry} {rescan : State → State} {l : Line} {z : Zone}
  {v ticket : Word} {n step amount : Nat} {c : Claim} {pool : Pool}

/-! ## The direction of a ramp (R74) -/

theorem Five.any_toList (zones : Five ZoneRec) (q : ZoneRec → Bool) :
    zones.toList.any q = true ↔ ∃ y, q (zones.get y) = true := by
  constructor
  · intro some_
    simp only [Five.toList, List.any_cons, List.any_nil, Bool.or_false, Bool.or_eq_true] at some_
    rcases some_ with at_ | at_ | at_ | at_ | at_
    · exact ⟨.i0, at_⟩
    · exact ⟨.i1, at_⟩
    · exact ⟨.i2, at_⟩
    · exact ⟨.i3, at_⟩
    · exact ⟨.i4, at_⟩
  · rintro ⟨y, named⟩
    simp only [Five.toList, List.any_cons, List.any_nil, Bool.or_false, Bool.or_eq_true]
    cases y
    · exact .inl named
    · exact .inr (.inl named)
    · exact .inr (.inr (.inl named))
    · exact .inr (.inr (.inr (.inl named)))
    · exact .inr (.inr (.inr (.inr named)))

/-- R74: a bound zone's target lies above its delivered value. -/
def Above (zones : Five ZoneRec) : Prop :=
  ∃ y, (zones.get y).bound = true ∧ (zones.get y).delivered.toNat < (zones.get y).target.toNat

/-- R74: a bound zone's target lies below its delivered value. -/
def Below (zones : Five ZoneRec) : Prop :=
  ∃ y, (zones.get y).bound = true ∧ (zones.get y).target.toNat < (zones.get y).delivered.toNat

theorem any_above (zones : Five ZoneRec) :
    (zones.toList.any fun z => z.bound && decide (z.delivered.toNat < z.target.toNat)) = true ↔ Above zones := by
  rw [Five.any_toList]
  simp only [Bool.and_eq_true, decide_eq_true_eq, Above]

theorem any_below (zones : Five ZoneRec) :
    (zones.toList.any fun z => z.bound && decide (z.target.toNat < z.delivered.toNat)) = true ↔ Below zones := by
  rw [Five.any_toList]
  simp only [Bool.and_eq_true, decide_eq_true_eq, Below]

theorem directionOf_up {zones : Five ZoneRec} (up : Above zones) : directionOf zones = .up := if_pos ((any_above zones).mpr up)

theorem directionOf_down {zones : Five ZoneRec} (up : ¬ Above zones) (down : Below zones) : directionOf zones = .down :=
  (if_neg fun h => up ((any_above zones).mp h)).trans (if_pos ((any_below zones).mpr down))

theorem directionOf_none {zones : Five ZoneRec} (up : ¬ Above zones) (down : ¬ Below zones) : directionOf zones = .none :=
  (if_neg fun h => up ((any_above zones).mp h)).trans (if_neg fun h => down ((any_below zones).mp h))

theorem directionOf_up_iff {zones : Five ZoneRec} : directionOf zones = .up ↔ Above zones := by
  refine ⟨fun up => ?_, directionOf_up⟩
  refine Classical.byContradiction fun off => ?_
  by_cases down : Below zones
  · rw [directionOf_down off down] at up; cases up
  · rw [directionOf_none off down] at up; cases up

/-! ## A released ZONE entry (R75 to R78) -/

/-- R75: the ramp with a zone's target and step set. -/
def Ramp.aimed (r : Ramp) (z : Zone) (step : Nat) (v ticket : Word) : Ramp :=
  { r with zones := r.zones.set z { r.zones.get z with target := v, step := step }, lastTicket := ticket }

/-- R75 to R78: what the direction found makes of it. -/
def Ramp.turned (r : Ramp) (d : ThermalDir) (h : Header) : Ramp :=
  if r.thermal = .settling ∨ r.thermal = .stable then r.startRamp d h.stepPeriod
  else match d with
    | .up => { r with direction := .up, slotHeld := true }
    | .down => { r with direction := .down, slotHeld := false }
    | .none => { r.settle h.settlePeriod with slotHeld := false }

theorem startRamp_up (r : Ramp) (period : Nat) : r.startRamp .up period = { r with
    thermal := .ramping, cause := .none, direction := .up, settleTimer := none, retry := 0, stepTimer := some period
    slotHeld := true } := by
  show Ramp.mk _ _ _ _ _ _ _ (r.slotHeld || true) _ = _
  rw [Bool.or_true]

theorem startRamp_down (r : Ramp) (period : Nat) : r.startRamp .down period = { r with
    thermal := .ramping, cause := .none, direction := .down, settleTimer := none, retry := 0, stepTimer := some period } := by
  show Ramp.mk _ _ _ _ _ _ _ (r.slotHeld || false) _ = _
  rw [Bool.or_false]

theorem turned_resting {r : Ramp} (rests : r.thermal = .settling ∨ r.thermal = .stable) (d : ThermalDir) (h : Header) :
    r.turned d h = r.startRamp d h.stepPeriod := if_pos rests

theorem not_resting {r : Ramp} (ramps : r.thermal = .ramping ∨ r.thermal = .held) :
    ¬ (r.thermal = .settling ∨ r.thermal = .stable) := by
  rintro (rests | rests) <;> rw [rests] at ramps <;> rcases ramps with h | h <;> cases h

section
variable (scans : ∀ s, Shift none True s (rescan s))
include scans

/-- R78: the slot is freed, and a scan that follows leaves the ramp of a tube with no head. -/
theorem freeSlot_ramp (queue : (s.tube k).queue = []) :
    ((s.freeSlot rescan k).tube k).ramp = { (s.tube k).ramp with slotHeld := false } := by
  unfold State.freeSlot
  split
  · let c := s.modRamp k fun r => { r with slotHeld := false }
    have own : c.tube k = { s.tube k with ramp := { (s.tube k).ramp with slotHeld := false } } := modRamp_tube _ _ _
    have kept := ((scans c).tubes k).untouched rfl (by rw [own]; exact queue)
    rw [kept.ramp, own]
  · next free =>
    have slot : (s.tube k).ramp.slotHeld = false := Bool.eq_false_iff.mpr free
    rw [← slot]

theorem applyZone_ramp (queue : (s.tube k).queue = []) : ((s.applyZone rescan k z step v ticket).tube k).ramp
    = ((s.tube k).ramp.aimed z step v ticket).turned (directionOf ((s.tube k).ramp.aimed z step v ticket).zones)
      (s.tube k).header := by
  let aim := fun r : Ramp => r.aimed z step v ticket
  let c := s.modRamp k aim
  have own : c.tube k = { s.tube k with ramp := (s.tube k).ramp.aimed z step v ticket } := modRamp_tube s k aim
  have set_ : ∀ f, (c.modRamp k f).tube k = { c.tube k with ramp := f (c.tube k).ramp } := modRamp_tube c k
  have empty : ∀ f, ((c.modRamp k f).tube k).queue = [] := fun f => by rw [set_, own]; exact queue
  have same : s.applyZone rescan k z step v ticket
      = if (c.tube k).ramp.thermal == .settling || (c.tube k).ramp.thermal == .stable then
          c.modRamp k fun r => r.startRamp (directionOf (c.tube k).ramp.zones) (s.tube k).header.stepPeriod
        else match directionOf (c.tube k).ramp.zones with
          | .up => c.modRamp k fun r => { r with direction := .up, slotHeld := true }
          | .down => (c.modRamp k fun r => { r with direction := .down }).freeSlot rescan k
          | .none => (c.modRamp k fun r => r.settle (s.tube k).header.settlePeriod).freeSlot rescan k := by
    unfold State.applyZone
    rfl
  have resting : ((c.tube k).ramp.thermal == .settling || (c.tube k).ramp.thermal == .stable) = true
      ↔ ((s.tube k).ramp.aimed z step v ticket).thermal = .settling
        ∨ ((s.tube k).ramp.aimed z step v ticket).thermal = .stable := by
    rw [own, Bool.or_eq_true, beq_iff_eq, beq_iff_eq]
  rw [same]
  unfold Ramp.turned
  by_cases rests : ((s.tube k).ramp.aimed z step v ticket).thermal = .settling
      ∨ ((s.tube k).ramp.aimed z step v ticket).thermal = .stable
  · rw [if_pos (resting.mpr rests), if_pos rests, set_, own]
  · rw [if_neg (fun h => rests (resting.mp h)), if_neg rests, own]
    dsimp only
    split
    · rw [set_, own]
    · rw [freeSlot_ramp scans (empty _), set_, own]
    · rw [freeSlot_ramp scans (empty _), set_, own]

end

/-! ## A released BOAT entry (R113 to R115) -/

theorem retarget_stalled {b : Boat} (stalled : b.state = .stalled) (v : Word) (period : Nat) :
    b.retarget v period = { b with target := v } := by
  unfold Boat.retarget
  rw [stalled]

theorem heading_of_other {b : Boat} (other : b.target ≠ b.delivered) :
    b.heading = if b.delivered.toNat < b.target.toNat then .inward else .outward := by
  unfold Boat.heading
  split
  · rfl
  · next inward => exact if_pos (Nat.lt_of_le_of_ne (Nat.le_of_not_lt inward) fun same => other (BitVec.eq_of_toNat_eq same))

theorem retarget_starts {b : Boat} (rests : b.state ≠ .moving) (notStalled : b.state ≠ .stalled) {v : Word}
    (other : v ≠ b.delivered) (period : Nat) : b.retarget v period = { b with
      target := v, state := .moving
      direction := if b.delivered.toNat < v.toNat then .inward else .outward
      motionTimer := some period, stall := 0, expiries := 0 } := by
  have heads : Boat.heading { b with target := v } = if b.delivered.toNat < v.toNat then .inward else .outward :=
    heading_of_other (b := { b with target := v }) other
  rw [← heads]
  unfold Boat.retarget
  split
  · next moving => exact absurd moving rests
  · next stalled => exact absurd stalled notStalled
  · rfl

theorem applyBoat_retargets {channel : Six} (other : v ≠ (s.tube k).boat.delivered) :
    ((s.applyBoat k v ticket channel).tube k).boat = Boat.retarget
      { (s.tube k).boat with lastTicket := ticket, lastChannel := channel } v (s.tube k).header.motionPeriod := by
  let named := fun b : Boat => { b with lastTicket := ticket, lastChannel := channel }
  have own : (s.modBoat k named).tube k = { s.tube k with boat := named (s.tube k).boat } := modBoat_tube s k named
  have same : s.applyBoat k v ticket channel
      = (s.modBoat k named).modBoat k fun b => b.retarget v (s.tube k).header.motionPeriod := by
    unfold State.applyBoat
    refine if_neg ?_
    rw [show (State.modBoat _ _ _).tube k = _ from own]
    exact other
  rw [same, modBoat_tube, own]

/-! ## A release (R42, R43) -/

/-- What a release leaves of the boat, and the release gap it starts. -/
structure Gaps (k : Tube) (x : TubeState) (e : HeldEntry) (s t : State) : Prop where
  boat : (t.tube k).boat = (s.tube k).boat
  queue : (t.tube k).queue = (s.tube k).queue
  gap : (t.tube k).gapTimer
    = if opensLine x e = true then startUnlessZero (s.tube k).header.releaseGap else (s.tube k).gapTimer

theorem releaseHead_gaps (s : State) (k : Tube) (e : HeldEntry) (n : Nat) :
    Gaps k (s.tube k) e ((s.unheaded k e).applyEntry rescan k e n) (s.releaseHead rescan k e n) := by
  unfold State.releaseHead
  dsimp only
  split
  · next opens =>
    refine ⟨?_, ?_, ?_⟩ <;> rw [tube_modTube_eq]
    · rfl
    · rfl
    · exact (if_pos opens).symm
  · next shut => exact ⟨rfl, rfl, (if_neg shut).symm⟩

/-- R42: the ticket, the clock and the place of a released entry, as its engine and its notice read them. -/
theorem unheaded_records (s : State) (k : Tube) (e : HeldEntry) : ((s.unheaded k e).tube k).boat = (s.tube k).boat
    ∧ ((s.unheaded k e).tube k).header = (s.tube k).header ∧ ((s.unheaded k e).tube k).queue = (s.tube k).queue.tail := by
  rw [unheaded_tube]
  exact ⟨rfl, rfl, rfl⟩

section
variable (scans : ∀ s, Shift none True s (rescan s)) (queue : (s.tube k).queue = [e])
include scans queue

theorem released_empty (n : Nat) : ((s.releaseHead rescan k e n).tube k).queue = []
    ∧ ((s.releaseHead rescan k e n).tube k).lastReleased = e.ticket := by
  have goes := releaseHead_goes scans s (k := k) e n
  have empty : ((s.unheaded k e).tube k).queue = [] := by rw [unheaded_tube, queue]; rfl
  refine ⟨goes.emptyQueue empty, (goes.empty empty).trans ?_⟩
  rw [unheaded_tube]

/-- R75 to R78: the ramp a released ZONE entry leaves. -/
theorem released_ramp (kind : e.kind = .zone z step) (n : Nat) : ((s.releaseHead rescan k e n).tube k).ramp
    = ((s.tube k).ramp.aimed z step e.value e.ticket).turned
      (directionOf ((s.tube k).ramp.aimed z step e.value e.ticket).zones) (s.tube k).header := by
  obtain ⟨-, header, tail⟩ := unheaded_records s k e
  have entry : (s.unheaded k e).applyEntry rescan k e n = (s.unheaded k e).applyZone rescan k z step e.value e.ticket := by
    unfold State.applyEntry; rw [kind]
  rw [(releaseHead_applies (rescan := rescan) s k e n).ramp, entry, applyZone_ramp scans (by rw [tail, queue]; rfl), header,
    (unheaded_gas s k e).2]

omit scans queue in
/-- R113 to R115: the boat a released BOAT entry leaves. -/
theorem released_boat (kind : e.kind = .boat) (other : e.value ≠ (s.tube k).boat.delivered) (n : Nat) :
    ((s.releaseHead rescan k e n).tube k).boat = Boat.retarget
      { (s.tube k).boat with lastTicket := e.ticket, lastChannel := e.channel } e.value (s.tube k).header.motionPeriod := by
  obtain ⟨boat, header, -⟩ := unheaded_records s k e
  have entry : (s.unheaded k e).applyEntry rescan k e n = (s.unheaded k e).applyBoat k e.value e.ticket e.channel := by
    unfold State.applyEntry; rw [kind]
  rw [(releaseHead_gaps (rescan := rescan) s k e n).boat, entry, applyBoat_retargets (by rw [boat]; exact other), boat, header]

omit scans queue in
/-- R43, R92, R93: the gas and the release gap that a released LINE entry leaves which opens its line. -/
theorem released_line {reactive purge : Bool} {weight : Nat} (kind : e.kind = .line l reactive purge weight)
    (shut : ((s.tube k).gas.lines.get l).flow = 0) (opens : e.value ≠ 0)
    (fits : addedDraw e.value.toNat ((s.tube k).gas.lines.get l).flow.toNat ((s.tube k).gas.lines.get l).weight = n) :
    ((s.releaseHead rescan k e n).tube k).gas = (s.tube k).gas.raise l e.value
      ∧ ((s.releaseHead rescan k e n).tube k).gapTimer = startUnlessZero (s.tube k).header.releaseGap := by
  have gas := (unheaded_gas s k e).1
  obtain ⟨-, header, -⟩ := unheaded_records s k e
  have above : ((s.tube k).gas.lines.get l).flow.toNat < e.value.toNat := by
    rw [shut]
    exact Nat.pos_of_ne_zero fun zero => opens (BitVec.eq_of_toNat_eq zero)
  have entry : (s.unheaded k e).applyEntry rescan k e n
      = ((s.unheaded k e).modGas k fun g => g.raise l e.value).deliver ((s.unheaded k e).lineAddr k l) e.value false := by
    have raises := applyLine_raises (k := k) (rescan := rescan) (s := s.unheaded k e) (l := l) (v := e.value) (n := n)
      (by rw [gas]; exact above) (by rw [gas]; exact fits)
    rw [← raises]
    unfold State.applyEntry
    rw [kind]
  have tube : (((s.unheaded k e).applyEntry rescan k e n).tube k)
      = { (s.unheaded k e).tube k with gas := ((s.unheaded k e).tube k).gas.raise l e.value } := by
    rw [entry]
    exact modGas_tube (s.unheaded k e) k fun g => g.raise l e.value
  have opened : opensLine (s.tube k) e = true := by
    unfold opensLine
    rw [kind]
    show (((s.tube k).gas.lines.get l).flow == 0 && e.value != 0) = true
    rw [shut, Bool.and_eq_true]
    exact ⟨beq_self_eq_true _, bne_iff_ne.mpr opens⟩
  constructor
  · rw [(releaseHead_applies (rescan := rescan) s k e n).gas, tube, gas]
  · rw [(releaseHead_gaps (rescan := rescan) s k e n).gap, if_pos opened, tube]
    show startUnlessZero ((s.unheaded k e).tube k).header.releaseGap = _
    rw [header]

end

end Sys2Proof.Machine

/-! A queued write that is released within its acceptance (R33, R37, R42). -/

namespace Sys2Proof.Machine

variable {s u w : State} {k : Tube} {e f : HeldEntry} {v : Word} {n amount : Nat} {c : Claim} {pool : Pool}
  {rescan : State → State} {p : Place} {d : DescWords}
  {cls : AccessClass}

/-! ## The examination of a first entry -/

theorem scan_one (only : s.budget.claims = [c]) (fits : c.amount ≤ s.freeOf c.pool) (none_ : (s.grant c).budget.claims = []) :
    s.scan = s.grant c := by
  have fuel : ∀ m, State.scanLoop (m + 2) .exhaust false s = s.grant c := fun m => by
    have serves : s.serves c.pool c := ⟨(front_one only _).trans (if_pos rfl), fits⟩
    cases pool : c.pool with
    | exhaust =>
      rw [pool] at serves
      exact (scanLoop_grants serves false).trans (scanLoop_none none_ _ _ _)
    | heat =>
      rw [pool] at serves
      have passes : ∀ d, ¬ s.serves .exhaust d := fun d exhaust => by
        have named := front_pool exhaust.1
        have listed := mem_front exhaust.1
        rw [only] at listed
        rw [List.mem_singleton.mp listed, pool] at named
        cases named
      have next : State.scanLoop (m + 2) .exhaust false s = State.scanLoop (m + 1) .heat true s :=
        (scanLoop_passes passes false).trans (if_neg Bool.false_ne_true)
      rw [next]
      exact (scanLoop_grants serves true).trans (scanLoop_none none_ _ _ _)
  obtain ⟨m, same⟩ : ∃ m, scanFuel s = m + 2 := ⟨scanFuel s - 2, by unfold scanFuel; omega⟩
  unfold State.scan
  rw [same]
  exact fuel m

/-- The state in which a write that found the queue empty is released, as the entry `f`, with `n` units granted. -/
structure Lands (k : Tube) (e f : HeldEntry) (n : Nat) (w b : State) : Prop where
  entry : ∃ state claim, f = { e with state := state, claim := claim }
  tube : b.tube k = { w.tube k with queue := [f] }
  buffer : b.notices.buffer = w.notices.buffer
  passes : b.firstFailure k f = none
  units : ∀ l reactive purge, e.kind = .line l reactive purge ((w.tube k).gas.lines.get l).weight →
    addedDraw e.value.toNat ((w.tube k).gas.lines.get l).flow.toNat ((w.tube k).gas.lines.get l).weight = n

/-- The write as head. -/
def State.headed (w : State) (k : Tube) (e : HeldEntry) : State := w.modTube k fun x => { x with queue := [e] }

theorem headed_tube (w : State) (k : Tube) (e : HeldEntry) : (w.headed k e).tube k = { w.tube k with queue := [e] } :=
  tube_modTube_eq _ _ _

theorem headed_passes (passes : w.firstFailure k e = none) : (w.headed k e).firstFailure k e = none :=
  (firstFailure_entry e (s := w) (w := w.headed k e) ⟨rfl, rfl, rfl, rfl⟩ ⟨_, _, _, _, _, headed_tube w k e⟩ e rfl rfl).trans
    passes

theorem headed_needs (w : State) (k : Tube) (e : HeldEntry) :
    neededClaim ((w.headed k e).tube k) e = neededClaim (w.tube k) e := by
  rw [headed_tube]
  exact neededClaim_congr rfl rfl rfl rfl

theorem headed_freeOf (w : State) (k : Tube) (e : HeldEntry) (pool : Pool) : (w.headed k e).freeOf pool = w.freeOf pool := by
  have same : ∀ j, ((w.headed k e).tube j).gas = (w.tube j).gas ∧ ((w.headed k e).tube j).ramp = (w.tube j).ramp := fun j => by
    by_cases own : j = k
    · subst own; rw [headed_tube]; exact ⟨rfl, rfl⟩
    · rw [show (w.headed k e).tube j = w.tube j from tube_setTube_ne _ _ own]; exact ⟨rfl, rfl⟩
  exact freeOf_same (s := w) (u := w.headed k e) rfl rfl rfl (fun j => by rw [(same j).1]) (fun j => by rw [(same j).2]) pool

/-- The state in which the head's claim has joined (R127). -/
def State.joinedHead (w : State) (k : Tube) (e : HeldEntry) (pool : Pool) (amount : Nat) : State :=
  (w.setHead k (e.claiming pool amount)).joinClaim k pool amount .process (.entry e.ticket e.channel)

theorem joinedHead_tube {rest : List HeldEntry} (queue : (w.tube k).queue = e :: rest) (pool : Pool) (amount : Nat) :
    (w.joinedHead k e pool amount).tube k = { w.tube k with queue := e.claiming pool amount :: rest } := by
  have own : (w.joinedHead k e pool amount).tube k = _ := setHead_tube w k (e.claiming pool amount)
  rw [own, queue]
  rfl

theorem joinedHead_others (w : State) (e : HeldEntry) (pool : Pool) (amount : Nat) {j : Tube} (other : j ≠ k) :
    (w.joinedHead k e pool amount).tube j = w.tube j := tube_setTube_ne _ _ other

theorem joinedHead_freeOf {rest : List HeldEntry} (queue : (w.tube k).queue = e :: rest) (pool : Pool) (amount : Nat)
    (q : Pool) : (w.joinedHead k e pool amount).freeOf q = w.freeOf q := by
  have same : ∀ j, ((w.joinedHead k e pool amount).tube j).gas = (w.tube j).gas
      ∧ ((w.joinedHead k e pool amount).tube j).ramp = (w.tube j).ramp := fun j => by
    by_cases own : j = k
    · subst own; rw [joinedHead_tube queue]; exact ⟨rfl, rfl⟩
    · rw [joinedHead_others _ _ _ _ own]; exact ⟨rfl, rfl⟩
  exact freeOf_same (s := w) (u := w.joinedHead k e pool amount) rfl rfl rfl (fun j => by rw [(same j).1])
    (fun j => by rw [(same j).2]) q

theorem joinedHead_passes {rest : List HeldEntry} (queue : (w.tube k).queue = e :: rest) (passes : w.firstFailure k e = none)
    (pool : Pool) (amount : Nat) :
    (w.joinedHead k e pool amount).firstFailure k (e.claiming pool amount) = none :=
  (firstFailure_entry e (s := w) (w := w.joinedHead k e pool amount) ⟨rfl, rfl, rfl, rfl⟩
    ⟨_, _, _, _, _, joinedHead_tube queue pool amount⟩ _ rfl rfl).trans passes

theorem joinedHead_needs {rest : List HeldEntry} (queue : (w.tube k).queue = e :: rest) (pool : Pool) (amount : Nat) :
    neededClaim ((w.joinedHead k e pool amount).tube k) (e.claiming pool amount) = neededClaim (w.tube k) e := by
  rw [joinedHead_tube queue]
  exact neededClaim_congr rfl rfl rfl rfl

theorem not_held (waits : e.held = false) (claim : ∃ state c, f = { e with state := state, claim := c }) : f.held = false := by
  obtain ⟨state, c, rfl⟩ := claim
  exact waits

/-- R33, R41: the head joins the empty list with its claim, and is granted it at once. -/
theorem headed_scan (passes : w.firstFailure k e = none) (waiting : e.state = .waiting)
    (needs : neededClaim (w.tube k) e = some (pool, amount)) (none_ : w.budget.claims = []) (fits : amount ≤ w.freeOf pool) :
    ∃ b, Lands k e (e.claiming pool amount) (grantedUnits pool amount) w b
      ∧ (w.headed k e).examineWith State.scan k
        = b.releaseHead absorbed k (e.claiming pool amount) (grantedUnits pool amount) := by
  have own := headed_tube w k e
  have queue : ((w.headed k e).tube k).queue = [e] := by rw [own]
  let joined := (w.headed k e).joinedHead k e pool amount
  let claim : Claim := ⟨k, pool, amount, .process, w.budget.joinCounter, .entry e.ticket e.channel, true⟩
  have joinedTube : joined.tube k = { w.tube k with queue := [e.claiming pool amount] } := by
    rw [show joined.tube k = _ from joinedHead_tube queue pool amount, own]
  have only : joined.budget.claims = [claim] := by
    show w.budget.claims ++ _ = _
    rw [none_]; rfl
  have free : joined.freeOf pool = w.freeOf pool := (joinedHead_freeOf queue pool amount pool).trans (headed_freeOf w k e pool)
  have passes' := joinedHead_passes queue (headed_passes passes) pool amount
  have needs' : neededClaim (joined.tube k) (e.claiming pool amount) = some (pool, amount) :=
    (joinedHead_needs queue pool amount).trans ((headed_needs w k e).trans needs)
  have granted := grant_releases (s := joined) (c := claim) rfl (by rw [joinedTube]) rfl passes' needs'
  have left_ : (joined.grant claim).budget.claims = [] := by
    have erased : (joined.paid claim).budget.claims = [] := by
      show joined.budget.claims.erase claim = []
      rw [only, List.erase_cons_head]
    rw [granted]
    cases kind : e.kind with
    | zone z step =>
      rw [(release_zone (s := joined.paid claim) (e := e.claiming pool amount) kind needs' _).1]; exact erased
    | line l reactive purge weight =>
      rw [release_line_budget (s := joined.paid claim) (e := e.claiming pool amount) kind needs' _]; exact erased
    | boat => rw [needs_boat kind] at needs; cases needs
  have examined : (w.headed k e).examineWith State.scan k = joined.scan :=
    examine_joins queue (headed_passes passes) waiting ((headed_needs w k e).trans needs)
  refine ⟨joined.paid claim, ⟨⟨_, _, rfl⟩, joinedTube, rfl, passes', fun l reactive purge kind => ?_⟩, ?_⟩
  · obtain ⟨exhaust, added, -⟩ := needs_line kind needs
    rw [exhaust]
    exact added.symm
  · rw [examined, scan_one only (by rw [show claim.pool = pool from rfl, free]; exact fits) left_]
    exact granted

/-- R33: a first entry whose tests hold and that needs no claim. -/
theorem headed_releases (passes : w.firstFailure k e = none) (waiting : e.state = .waiting)
    (none_ : neededClaim (w.tube k) e = none) :
    Lands k e e 0 w (w.headed k e)
      ∧ (w.headed k e).examineWith State.scan k = (w.headed k e).releaseHead State.scan k e 0 := by
  have own := headed_tube w k e
  have queue : ((w.headed k e).tube k).queue = [e] := by rw [own]
  refine ⟨⟨⟨e.state, e.claim, rfl⟩, own, rfl, headed_passes passes, fun l reactive purge kind => ?_⟩, ?_⟩
  · unfold neededClaim at none_
    rw [kind] at none_
    dsimp only at none_
    split at none_
    · cases none_
    · next zero => exact Nat.eq_zero_of_not_pos zero
  · exact examine_last Shift.scan queue (headed_passes passes) waiting ((headed_needs w k e).trans none_)

/-- R33, R37, R42: the first entry of a queue that is released within its acceptance. -/
theorem holdFirst_releases (passes : w.firstFailure k e = none) (waiting : e.state = .waiting)
    (room : neededClaim (w.tube k) e = none ∨ w.budget.claims = [] ∧ ∃ pool amount,
      neededClaim (w.tube k) e = some (pool, amount) ∧ amount ≤ w.freeOf pool) :
    ∃ (b : State) (f : HeldEntry) (n : Nat) (rescan : State → State), (∀ s, Shift none True s (rescan s)) ∧ Lands k e f n w b
      ∧ w.holdFirst k e = (b.releaseHead rescan k f n).announce := by
  have done : ∀ {b f n rescan}, (∀ s, Shift none True s (rescan s)) → Lands k e f n w b →
      (w.headed k e).examineWith State.scan k = b.releaseHead rescan k f n →
      w.holdFirst k e = (b.releaseHead rescan k f n).announce := fun {b f n rescan} scans lands same => by
    have empty := (released_empty (s := b) scans (by rw [lands.tube]) n).1
    show (((w.headed k e).examineWith State.scan k).holdHead k e.ticket).announce = _
    rw [same]
    unfold State.holdHead
    rw [empty]
  rcases room with none_ | ⟨none_, pool, amount, needs, fits⟩
  · obtain ⟨lands, same⟩ := headed_releases passes waiting none_
    exact ⟨_, e, 0, State.scan, Shift.scan, lands, done Shift.scan lands same⟩
  · obtain ⟨b, lands, same⟩ := headed_scan passes waiting needs none_ fits
    exact ⟨b, _, _, absorbed, Shift.absorbed, lands, done Shift.absorbed lands same⟩

/-! ## The statement -/

/-- R26, R30, R33: the acceptance of a queued write that finds an empty queue. -/
theorem queued_first_exec (reaches : ShapedReaches s cls p v d) (queued : IsQueued s p.tube d v)
    (empty : (s.tube p.tube).queue = []) : exec (.shapedWrite cls p v) s
      = .next (s.advance.finish (((ticketedState s p.tube).holdFirst p.tube
        (newEntry p d (s.tube p.tube).nextTicket v s.clock)).ack)) := by
  obtain ⟨w, supersedes, same⟩ := supersedeChannel_none (s := s) (p := p) (by rw [empty]; nofun)
  rw [same] at supersedes
  have queue := (ticketedState_queue s p.tube).trans empty
  rw [exec_queued reaches queued]
  unfold State.enqueue
  simp only [supersedes, queue, (ticketTaken s p.tube).clock]
  rfl

/-- What the release within an acceptance leaves, whatever follows: the landing state `b`, the released tube `y`. -/
structure Landed (s : State) (k : Tube) (e f : HeldEntry) (n : Nat) (rescan : State → State) (b t : State) : Prop where
  lands : Lands k e f n (ticketedState s k) b
  shift : TubeShift false True ((b.releaseHead rescan k f n).tube k) (t.tube k)
  whole : TubeShift false True (b.tube k) (t.tube k)
  empty : ((b.releaseHead rescan k f n).tube k).queue = []
  released : ((b.releaseHead rescan k f n).tube k).lastReleased = e.ticket
  scans : ∀ s, Shift none True s (rescan s)

theorem Landed.stopped {b t : State} (h : Landed s k e f n rescan b t) :
    Stopped ((b.releaseHead rescan k f n).tube k) (t.tube k) := h.shift.untouched rfl h.empty

theorem Landed.entered {b t : State} (h : Landed s k e f n rescan b t) : (b.tube k).ramp = (s.tube k).ramp
    ∧ (b.tube k).gas = (s.tube k).gas ∧ (b.tube k).boat = (s.tube k).boat ∧ (b.tube k).header = (s.tube k).header := by
  rw [h.lands.tube, (ticketTaken s k).own]
  exact ⟨rfl, rfl, rfl, rfl⟩

section
variable {b t : State} (h : Landed s k e f n rescan b t)
include h

theorem Landed.queue : (b.tube k).queue = [f] := by rw [h.lands.tube]

/-- R113 to R115: the boat. -/
theorem Landed.boat (kind : e.kind = .boat) (other : e.value ≠ (s.tube k).boat.delivered) : (t.tube k).boat = Boat.retarget
    { (s.tube k).boat with lastTicket := e.ticket, lastChannel := e.channel } e.value (s.tube k).header.motionPeriod := by
  obtain ⟨-, -, boat, header⟩ := h.entered
  obtain ⟨state, claim, rfl⟩ := h.lands.entry
  rw [h.stopped.boat, released_boat (e := { e with state := state, claim := claim }) kind (by rw [boat]; exact other) n, boat,
    header]

/-- R75 to R78: the ramp. -/
theorem Landed.ramp {z : Zone} {step : Nat} (kind : e.kind = .zone z step) : (t.tube k).ramp
    = ((s.tube k).ramp.aimed z step e.value e.ticket).turned (directionOf ((s.tube k).ramp.aimed z step e.value e.ticket).zones)
      (s.tube k).header := by
  obtain ⟨ramp, -, -, header⟩ := h.entered
  have queue := h.queue
  obtain ⟨state, claim, rfl⟩ := h.lands.entry
  rw [h.stopped.ramp, released_ramp (e := { e with state := state, claim := claim }) h.scans queue kind n, ramp, header]

/-- R43, R92, R93: the gas and the release gap of a line that opens. -/
theorem Landed.line {l : Line} {reactive purge : Bool} (kind : e.kind = .line l reactive purge ((s.tube k).gas.lines.get l).weight)
    (rests : (s.tube k).gas.run = none) (shut : ((s.tube k).gas.lines.get l).flow = 0) (opens : e.value ≠ 0) :
    (t.tube k).gas = (s.tube k).gas.raise l e.value ∧ (t.tube k).gapTimer = startUnlessZero (s.tube k).header.releaseGap := by
  obtain ⟨-, gas, -, header⟩ := h.entered
  have own : ((ticketedState s k).tube k).gas = (s.tube k).gas := by rw [(ticketTaken s k).own]
  have units := h.lands.units l reactive purge (by rw [own]; exact kind)
  rw [own] at units
  obtain ⟨state, claim, rfl⟩ := h.lands.entry
  obtain ⟨raised, gap⟩ := released_line (s := b) (rescan := rescan) (n := n) (e := { e with state := state, claim := claim })
    kind (by rw [gas]; exact shut) opens (by rw [gas]; exact units)
  refine ⟨?_, ?_⟩
  · rw [((h.shift.gasIdle rfl (.inr h.empty)).noRun (by rw [raised, gas]; exact rests)).1, raised, gas]
  · rw [h.stopped.gap, gap, header]

end

/-- R26, R30, R33, R42: such a write completes, with what is left. -/
theorem queued_lands (reaches : ShapedReaches s cls p v d) (queued : IsQueued s p.tube d v)
    (empty : (s.tube p.tube).queue = [])
    (passes : s.firstFailure p.tube (newEntry p d (s.tube p.tube).nextTicket v s.clock) = none)
    (room : neededClaim (s.tube p.tube) (newEntry p d (s.tube p.tube).nextTicket v s.clock) = none
      ∨ s.budget.claims = [] ∧ ∃ pool amount,
        neededClaim (s.tube p.tube) (newEntry p d (s.tube p.tube).nextTicket v s.clock) = some (pool, amount)
          ∧ amount ≤ s.freeOf pool) :
    ∃ t b f n rescan, exec (.shapedWrite cls p v) s = .next t ∧ t.port = ⟨.idle, .acknowledge⟩
      ∧ Elsewhere (some p.tube) s t
      ∧ Reports s t (releasedNotice p.tube p.channel .immediate (s.tube p.tube).nextTicket v s.clock)
      ∧ Landed s p.tube (newEntry p d (s.tube p.tube).nextTicket v s.clock) f n rescan b t := by
  let e := newEntry p d (s.tube p.tube).nextTicket v s.clock
  let w := ticketedState s p.tube
  have taken := ticketTaken s p.tube
  have passes' : w.firstFailure p.tube e = none :=
    (firstFailure_entry e taken.acts ⟨_, _, _, _, _, taken.own⟩ e rfl rfl).trans passes
  have needs : neededClaim (w.tube p.tube) e = neededClaim (s.tube p.tube) e := by
    rw [taken.own]; exact neededClaim_congr rfl rfl rfl rfl
  have free : ∀ pool, w.freeOf pool = s.freeOf pool := by
    have same : ∀ j, (w.tube j).gas = (s.tube j).gas ∧ (w.tube j).ramp = (s.tube j).ramp := fun j => by
      by_cases own : j = p.tube
      · subst own; rw [taken.own]; exact ⟨rfl, rfl⟩
      · rw [taken.others j own]; exact ⟨rfl, rfl⟩
    exact freeOf_same (by rw [taken.budget]) (by rw [taken.budget]) taken.root (fun j => by rw [(same j).1])
      (fun j => by rw [(same j).2])
  obtain ⟨b, f, n, rescan, scans, lands, same⟩ := holdFirst_releases (w := w) (k := p.tube) (e := e) passes' rfl
    (by rw [needs, taken.budget]; simpa only [free] using room)
  have queue : (b.tube p.tube).queue = [f] := by rw [lands.tube]
  obtain ⟨empty', released⟩ := released_empty scans queue n
  have after := Finished.finish s.advance (w.holdFirst p.tube e).ack
  have announced : Shift none True (b.releaseHead rescan p.tube f n) (w.holdFirst p.tube e) := by
    rw [same]; exact Shift.announce none _
  have shift : TubeShift false True ((b.releaseHead rescan p.tube f n).tube p.tube)
      ((s.advance.finish (w.holdFirst p.tube e).ack).tube p.tube) := (announced.tubes p.tube).trans (after.tubes p.tube)
  have first := (Shift.releaseHead scans n queue lands.passes).tubes p.tube
  have ticket : f.ticket = e.ticket := by obtain ⟨_, _, rfl⟩ := lands.entry; rfl
  have exec_ := queued_first_exec reaches queued empty
  refine ⟨_, b, f, n, rescan, exec_, after.port, ?_, ?_, lands, shift, first.trans shift, empty', released.trans ticket, scans⟩
  · have event : Local p.tube s (w.holdFirst p.tube e).ack :=
      ((Local.ticketedState s p.tube).trans (.holdFirst w e)).trans (.ack _)
    exact (event.finished after).elsewhere
  · have goes : Goes p.tube (b.unheaded p.tube f) (w.holdFirst p.tube e) :=
      (releaseHead_goes scans b f n).trans announced.goes
    obtain ⟨l, first⟩ := goes.buffer
    obtain ⟨m, later⟩ := after.buffer
    have placed : Reports s (s.advance.finish (w.holdFirst p.tube e).ack) (releasedNotice p.tube f.channel
        (if f.held = true then .queued else .immediate) f.ticket f.value f.acceptedAt) := by
      refine Reports.of_place (u := b) (lands.buffer.trans taken.buffer) (after.clock.trans goes.clock) ⟨l ++ m, ?_⟩
      rw [later, ← List.append_assoc]
      exact congrArg (· ++ m) first
    obtain ⟨_, _, rfl⟩ := lands.entry
    exact placed

/-- Settles O28, by the kind of the entry. -/
theorem queuedWriteIsReleasedAtOnce : Obligations.QueuedWriteIsReleasedAtOnce := by
  intro s cls p v d reaches queued empty x e passes room
  obtain ⟨t, b, f, n, rescan, exec_, port, kept, reports, landed⟩ := queued_lands reaches queued empty passes room
  have own := landed.lands.tube
  rw [(ticketTaken s p.tube).own] at own
  have next : (t.tube p.tube).nextTicket = x.nextTicket + 1 := landed.whole.nextTicket.trans (by rw [own])
  have issued : (t.tube p.tube).lastIssued = x.nextTicket := landed.whole.lastIssued.trans (by rw [own])
  refine ⟨t, exec_, port, next, issued, landed.stopped.released.trans landed.released, landed.shift.emptyQueue landed.empty, kept,
    reports, fun mark rests notStalled other => ?_, fun mark stalled other => ?_, fun z mark stable up => ?_, fun z mark => ?_,
    fun l mark rests shut weight => ?_⟩
  · have kind : e.kind = .boat := by show d.entryKind = _; unfold DescWords.entryKind; rw [mark]
    exact (landed.boat kind other).trans (retarget_starts
      (b := { x.boat with lastTicket := x.nextTicket, lastChannel := p.channel }) rests notStalled other _)
  · have kind : e.kind = .boat := by show d.entryKind = _; unfold DescWords.entryKind; rw [mark]
    exact (landed.boat kind other).trans (retarget_stalled
      (b := { x.boat with lastTicket := x.nextTicket, lastChannel := p.channel }) stalled _ _)
  · have kind : e.kind = .zone z d.w5.toNat := by show d.entryKind = _; unfold DescWords.entryKind; rw [mark]
    let taken : Ramp := x.ramp.aimed z d.w5.toNat v x.nextTicket
    have heads : directionOf taken.zones = .up := (directionOf_set _ z v _).trans up
    have ramp : (t.tube p.tube).ramp = taken.turned (directionOf taken.zones) x.header := landed.ramp kind
    rw [ramp, heads, turned_resting (r := taken) (.inr stable)]
    exact startRamp_up taken _
  · have kind : e.kind = .zone z d.w5.toNat := by show d.entryKind = _; unfold DescWords.entryKind; rw [mark]
    intro zones up down taken
    have ramp : (t.tube p.tube).ramp = taken.turned (directionOf zones) x.header := landed.ramp kind
    rw [ramp]
    refine ⟨fun rests => ?_, fun ramps => ?_⟩
    · rw [turned_resting (r := taken) rests]
      refine ⟨fun up => ?_, fun not_ down => ?_, fun not_ none_ => ?_⟩
      · rw [directionOf_up up]; exact startRamp_up taken _
      · rw [directionOf_down not_ down]; exact startRamp_down taken _
      · rw [directionOf_none not_ none_]; rfl
    · unfold Ramp.turned
      rw [if_neg (not_resting (r := taken) ramps)]
      refine ⟨fun up => ?_, fun not_ down => ?_, fun not_ none_ => ?_⟩
      · rw [directionOf_up up]
      · rw [directionOf_down not_ down]
      · rw [directionOf_none not_ none_]; rfl
  · have kind : e.kind = .line l d.reactive d.purge (x.gas.lines.get l).weight := by
      show d.entryKind = _
      unfold DescWords.entryKind
      rw [mark, ← weight]
    have opens : v ≠ 0 := by
      rintro rfl
      exact queued.2.2.1 l ⟨mark, Nat.zero_le _⟩
    obtain ⟨gas, gap⟩ := landed.line kind rests shut opens
    exact ⟨gas.trans (raise_eq _ _ _), gap⟩

end Sys2Proof.Machine

/-! The release tests, the claims and the entries of queued writes (R33, R35 to R38, R44, R45, R54). -/

namespace Sys2Proof.Machine

variable {s u w : State} {k : Tube} {e f : HeldEntry} {x : TubeState}

/-! ## The throttles (R44) -/

theorem ringActs_iff : s.ringActs = true ↔ s.notices.ringEnable = true
    ∧ 16 * 2 ^ s.notices.sizeCode - 1 - ringDistance (16 * 2 ^ s.notices.sizeCode) s.notices.producer s.notices.consumer
      < s.notices.reserve := by
  unfold State.ringActs NoticeWriter.ringLow
  rw [Bool.and_eq_true, decide_eq_true_eq]
  rfl

theorem staleActs_iff : s.staleActs = true ↔ s.notices.staleEnable = true ∧ s.scanner.stale = true := by
  unfold State.staleActs
  rw [Bool.and_eq_true]

theorem scrubberActs_iff : s.scrubberActs = true ↔ s.budget.enable = true ∧ s.budget.throttle = true := by
  unfold State.scrubberActs
  rw [Bool.and_eq_true]

/-! ## The gates (R54) -/

theorem gateHolds_zone {z : Zone} {step : Nat} (kind : e.kind = .zone z step) : gateHolds x e = true
    ↔ x.boat.state = .outPos ∨ x.boat.state = .partialPos ∨ x.boat.state = .inPos := by
  unfold gateHolds
  rw [kind]
  cases state : x.boat.state <;> simp [BoatState.stationary]

theorem gateHolds_line {l : Line} {reactive purge : Bool} {weight : Nat} (kind : e.kind = .line l reactive purge weight) :
    gateHolds x e = true
      ↔ (reactive = true ∧ (x.gas.atmosphere = .inert ∨ x.gas.atmosphere = .process) ∧ x.boat.state = .inPos
          ∧ x.ramp.thermal = .stable)
        ∨ (reactive = false ∧ (purge = false ∨ x.gas.atmosphere ≠ .purging ∧ x.gas.atmosphere ≠ .clearing)) := by
  unfold gateHolds
  rw [kind]
  cases reactive
  · simp only [Bool.or_eq_true, Bool.not_eq_true', Bool.and_eq_true, bne_iff_ne, Bool.false_eq_true, false_and, false_or,
      true_and, ne_eq]
  · simp only [Bool.or_eq_true, Bool.and_eq_true, beq_iff_eq, true_and, and_assoc, Bool.true_eq_false, false_and, or_false]

theorem gateHolds_boat (kind : e.kind = .boat) : gateHolds x e = true
    ↔ (x.boat.delivered.toNat < e.value.toNat ∧ (x.gas.atmosphere = .inert ∨ x.gas.atmosphere = .purging)
        ∧ x.ramp.thermal = .stable ∧ (x.ramp.zones.get .i0).delivered.toNat ≤ x.header.pushLimit)
      ∨ (e.value.toNat < x.boat.delivered.toNat
        ∧ (x.gas.atmosphere = .air ∨ x.gas.atmosphere = .inert ∨ x.gas.atmosphere = .purging) ∧ x.ramp.thermal = .stable)
      ∨ e.value = x.boat.delivered := by
  unfold gateHolds
  rw [kind]
  show boatGate x e.value = true ↔ _
  unfold boatGate
  by_cases inward : x.boat.delivered.toNat < e.value.toNat
  · have apart : e.value ≠ x.boat.delivered := fun same => Nat.lt_irrefl _ (same ▸ inward)
    rw [if_pos inward]
    simp only [Bool.and_eq_true, Bool.or_eq_true, beq_iff_eq, decide_eq_true_eq, inward, apart, true_and, and_assoc, or_false,
      Nat.not_lt.mpr (Nat.le_of_lt inward), false_and]
  · by_cases outward : e.value.toNat < x.boat.delivered.toNat
    · have apart : e.value ≠ x.boat.delivered := fun same => Nat.lt_irrefl _ (same ▸ outward)
      rw [if_neg inward, if_pos outward]
      simp only [Bool.and_eq_true, Bool.or_eq_true, beq_iff_eq, inward, outward, apart, true_and, false_and, false_or, or_false,
        or_assoc]
    · have same : e.value = x.boat.delivered :=
        BitVec.eq_of_toNat_eq (Nat.le_antisymm (Nat.le_of_not_lt inward) (Nat.le_of_not_lt outward))
      rw [if_neg inward, if_neg outward]
      simp only [same, or_true]

/-! ## The tests in their order (R36) -/

theorem firstFailure_mode (stopped : (s.tube k).mode ≠ .run) : s.firstFailure k e = some .mode := if_pos stopped

section
variable (runs : (s.tube k).mode = .run)
include runs

theorem firstFailure_gap (gap : (s.tube k).gapTimer ≠ none) : s.firstFailure k e = some .gap :=
  (if_neg (Classical.not_not.mpr runs)).trans (if_pos (Option.isSome_iff_ne_none.mpr gap))

variable (gapless : (s.tube k).gapTimer = none)
include gapless

/-- R36: the tests after the release gap. -/
theorem firstFailure_rest : s.firstFailure k e = if s.ringActs || s.staleActs then some .throttle
    else if !gateHolds (s.tube k) e then some .gate
    else if raisesReactive (s.tube k) e && (s.scrubberActs || s.monitor.lapsed) then some .inhibit
    else none := by
  refine (if_neg (Classical.not_not.mpr runs)).trans (if_neg ?_)
  rw [gapless]
  exact Bool.false_ne_true

theorem firstFailure_throttle (acts : s.ringActs = true ∨ s.staleActs = true) : s.firstFailure k e = some .throttle :=
  (firstFailure_rest runs gapless).trans (if_pos (Bool.or_eq_true_iff.mpr acts))

variable (quiet : ¬ (s.ringActs = true ∨ s.staleActs = true))
include quiet

theorem firstFailure_gate (shut : ¬ gateHolds (s.tube k) e = true) : s.firstFailure k e = some .gate := by
  refine (firstFailure_rest runs gapless).trans ((if_neg fun h => quiet (Bool.or_eq_true_iff.mp h)).trans (if_pos ?_))
  rw [Bool.not_eq_true', Bool.eq_false_iff]
  exact shut

theorem firstFailure_last (open_ : gateHolds (s.tube k) e = true) : s.firstFailure k e
    = if raisesReactive (s.tube k) e && (s.scrubberActs || s.monitor.lapsed) then some .inhibit else none := by
  refine (firstFailure_rest runs gapless).trans ((if_neg fun h => quiet (Bool.or_eq_true_iff.mp h)).trans (if_neg ?_))
  rw [open_]
  exact Bool.false_ne_true

end

/-! ## The claims (R37) -/

theorem withTarget_above {zones : Five ZoneRec} {z : Zone} {v : Word} : Above (withTarget zones z v)
    ↔ ∃ y, (zones.get y).bound = true
      ∧ (zones.get y).delivered.toNat < (if y = z then v else (zones.get y).target).toNat := by
  have each : ∀ y, (withTarget zones z v).get y = { zones.get y with target := if y = z then v else (zones.get y).target } :=
    fun y => by
      unfold withTarget
      rw [Five.get_set]
      split
      · next at_ => rw [at_]
      · rfl
  unfold Above
  simp only [each]

theorem neededClaim_up {z : Zone} {step : Nat} (kind : e.kind = .zone z step) (free : x.ramp.slotHeld = false)
    (up : Above (withTarget x.ramp.zones z e.value)) : neededClaim x e = some (.heat, 1) := by
  unfold neededClaim
  rw [kind]
  refine if_pos ?_
  rw [free, directionOf_up up]
  rfl

theorem neededClaim_rest {z : Zone} {step : Nat} (kind : e.kind = .zone z step)
    (rests : x.ramp.slotHeld = true ∨ ¬ Above (withTarget x.ramp.zones z e.value)) : neededClaim x e = none := by
  unfold neededClaim
  rw [kind]
  refine if_neg fun h => ?_
  rw [Bool.and_eq_true, Bool.not_eq_true', beq_iff_eq, directionOf_up_iff] at h
  rcases rests with held | level
  · rw [held] at h; exact Bool.noConfusion h.1
  · exact level h.2

theorem neededClaim_line {l : Line} {reactive purge : Bool} {weight : Nat} (kind : e.kind = .line l reactive purge weight) :
    neededClaim x e = if 0 < addedDraw e.value.toNat (x.gas.lines.get l).flow.toNat weight then
      some (.exhaust, addedDraw e.value.toNat (x.gas.lines.get l).flow.toNat weight) else none := by
  unfold neededClaim
  rw [kind]

/-! ## Test 5 (R36) -/


theorem raises_line {l : Line} {reactive purge : Bool} {weight : Nat} (kind : e.kind = .line l reactive purge weight) :
    raisesReactive x e = true ↔ reactive = true ∧ (x.gas.lines.get l).flow.toNat < e.value.toNat := by
  unfold raisesReactive
  rw [kind]
  show (reactive && decide _) = true ↔ _
  rw [Bool.and_eq_true, decide_eq_true_eq]

theorem raises_zone {z : Zone} {step : Nat} (kind : e.kind = .zone z step) : raisesReactive x e = false := by
  unfold raisesReactive
  rw [kind]

theorem raises_boat (kind : e.kind = .boat) : raisesReactive x e = false := by
  unfold raisesReactive
  rw [kind]

end Sys2Proof.Machine

/-! Queued writes that are held (R30, R32, R33, R35, R45). -/

namespace Sys2Proof.Machine

variable {s u w : State} {k : Tube} {e f g : HeldEntry} {v : Word} {n amount : Nat} {c : Claim} {pool : Pool}
  {p : Place} {d : DescWords} {cls : AccessClass} {pre post rest : List HeldEntry}

/-- The entry a queued write becomes. -/
abbrev State.entryOf (s : State) (p : Place) (d : DescWords) (v : Word) : HeldEntry :=
  newEntry p d (s.tube p.tube).nextTicket v s.clock

/-! ## A write that joins behind other entries (R33) -/

/-- What a write that joins behind other entries leaves. -/
structure JoinsBehind (s : State) (p : Place) (d : DescWords) (v : Word) (q : List HeldEntry) (w t : State) : Prop where
  kept : Elsewhere (some p.tube) s t
  port : t.port = ⟨.idle, .acknowledge⟩
  tube : t.tube p.tube = { w.tube p.tube with queue := q ++ [(s.entryOf p d v).hold (s.tube p.tube).header.holdLimit] }
  clock : t.clock = s.clock
  buffer : t.notices.buffer = (w.place (heldNotice p.tube (s.entryOf p d v) .behind q.length)).notices.buffer

/-- R33: the head ahead of the write is as an examination read it before. -/
theorem queued_joins (reaches : ShapedReaches s cls p v d) (queued : IsQueued s p.tube d v)
    (supersedes : (ticketedState s p.tube).supersedeChannel p (s.tube p.tube).nextTicket = w)
    (own : w.tube p.tube = { (ticketedState s p.tube).tube p.tube with queue := g :: rest })
    (others : ∀ j, j ≠ p.tube → w.tube j = s.tube j)
    (head : (s.tube p.tube).queue.head? = some g) (room : rest.length < 7) :
    ∃ t, exec (.shapedWrite cls p v) s = .next t ∧ JoinsBehind s p d v (g :: rest) w t := by
  let e' := newEntry p d (s.tube p.tube).nextTicket v (ticketedState s p.tube).clock
  have taken := ticketTaken s p.tube
  have same : e' = s.entryOf p d v := by
    show newEntry _ _ _ _ _ = newEntry _ _ _ _ _
    rw [taken.clock]
  have header : (w.tube p.tube).header = (s.tube p.tube).header := by rw [own, taken.own]
  have enqueued : (ticketedState s p.tube).enqueue p d (s.tube p.tube).nextTicket v = (w.holdBehind p.tube e').ack := by
    unfold State.enqueue
    simp only [supersedes, own]
    exact (if_neg (Nat.succ_ne_zero _)).trans (if_pos (Nat.succ_lt_succ room))
  let m := w.modTube p.tube fun x => { x with queue := x.queue ++ [e'.hold x.header.holdLimit] }
  have held : ((w.holdBehind p.tube e').ack).tube p.tube = { w.tube p.tube with
      queue := g :: rest ++ [(s.entryOf p d v).hold (s.tube p.tube).header.holdLimit] } := by
    have joined : (w.tube p.tube).queue ++ [e'.hold (w.tube p.tube).header.holdLimit]
        = g :: rest ++ [(s.entryOf p d v).hold (s.tube p.tube).header.holdLimit] := by rw [header, same, own]
    rw [← joined]
    exact tube_modTube_eq w p.tube fun x => { x with queue := x.queue ++ [e'.hold x.header.holdLimit] }
  have away : ∀ j, j ≠ p.tube → ((w.holdBehind p.tube e').ack).tube j = s.advance.tube j := fun j other => by
    rw [show s.advance.tube j = s.tube j from Finished.tube_eq j]
    exact (tube_setTube_ne w _ other).trans (others j other)
  have event : Local p.tube s.advance (w.holdBehind p.tube e').ack := by
    rw [← enqueued]
    exact taken.loc.trans (.enqueue _ _ _ _ _)
  have still : Still (w.holdBehind p.tube e').ack (s.advance.finish (w.holdBehind p.tube e').ack) :=
    Still.finish (event.noneDue away (.inr (.inr (by
      rw [held, own, taken.own, show s.advance.tube p.tube = s.tube p.tube from Finished.tube_eq _]
      refine ⟨rfl, rfl, rfl, rfl, rfl, rfl, rfl, rfl, rfl, rfl, fun _ => rfl, ?_⟩
      rw [head]
      rfl))))
  have run := exec_queued reaches queued
  rw [enqueued] at run
  have kept : Elsewhere (some p.tube) s (s.advance.finish (w.holdBehind p.tube e').ack) :=
    Elsewhere.of_enqueue (d := d) (v := v) (n := (s.tube p.tube).nextTicket) (by rw [enqueued]; exact still.toFinished)
  refine ⟨_, run, kept, still.port, (still.tube _).trans held, kept.clock, still.kept.trans ?_⟩
  have length : (w.tube p.tube).queue.length = (g :: rest).length := by rw [own]
  show (m.place (heldNotice p.tube e' .behind (w.tube p.tube).queue.length)).notices.buffer = _
  rw [length, same]
  rfl

/-- R32: the supersede of the one entry on the channel, which waits. -/
theorem supersede_waiting (queue : (s.tube p.tube).queue = pre ++ f :: post) (on : f.channel = p.channel)
    (off : ∀ g ∈ pre ++ post, g.channel ≠ p.channel) (waiting : f.state = .waiting) :
    (ticketedState s p.tube).supersede p.tube (fun e => e.channel == p.channel) .queued (s.tube p.tube).nextTicket
      = withoutHead s p f (pre ++ post) := by
  have queue' := (ticketedState_queue s p.tube).trans queue
  have before : ∀ g ∈ pre, g.channel ≠ p.channel := fun g mem => off g (List.mem_append_left _ mem)
  have behind : ∀ g ∈ post, g.channel ≠ p.channel := fun g mem => off g (List.mem_append_right _ mem)
  have removed : ((ticketedState s p.tube).tube p.tube).queue.filter (fun e => e.channel == p.channel) = [f] := by
    rw [queue', List.filter_append, filter_own_channel before, List.filter_cons_of_pos (by rw [on]; exact beq_self_eq_true _),
      filter_own_channel behind]
    rfl
  have left_ : ((ticketedState s p.tube).tube p.tube).queue.filter (fun e => !(e.channel == p.channel)) = pre ++ post := by
    rw [queue', List.filter_append, filter_other_channels before, List.filter_cons_of_neg (by rw [on]; simp),
      filter_other_channels behind]
  have same : ((ticketedState s p.tube).modTube p.tube fun x =>
      { x with queue := x.queue.filter fun e => !(e.channel == p.channel) })
      = (ticketedState s p.tube).modTube p.tube fun x => { x with queue := pre ++ post } :=
    congrArg (fun q => (ticketedState s p.tube).setTube p.tube { (ticketedState s p.tube).tube p.tube with queue := q }) left_
  unfold State.supersede
  simp only [removed, same, List.foldl_cons, List.foldl_nil, List.any_cons, List.any_nil, Bool.or_false, waiting]
  rfl

theorem supersedeChannel_behind (queue : (s.tube p.tube).queue = pre ++ f :: post) (ahead : pre ≠ [])
    (on : f.channel = p.channel) (off : ∀ g ∈ pre ++ post, g.channel ≠ p.channel) (waiting : f.state = .waiting) :
    (ticketedState s p.tube).supersedeChannel p (s.tube p.tube).nextTicket = withoutHead s p f (pre ++ post) := by
  have notHead : decide ((((ticketedState s p.tube).tube p.tube).queue.head?.map (·.channel)) = some p.channel) = false := by
    rw [ticketedState_queue, queue]
    cases pre with
    | nil => exact absurd rfl ahead
    | cons g pre => exact decide_eq_false fun h => off g (.head _) (Option.some.inj h)
  unfold State.supersedeChannel
  simp only [notHead, Bool.false_eq_true, if_false]
  exact supersede_waiting queue on off waiting

theorem withoutHead_tube (s : State) (p : Place) (f : HeldEntry) (q : List HeldEntry) :
    (withoutHead s p f q).tube p.tube = { (ticketedState s p.tube).tube p.tube with queue := q } := by
  rw [(withoutHead_facts s p f q).1, (ticketTaken s p.tube).own]

/-- R47: the notice of a superseded entry, before others that are placed. -/
theorem withoutHead_reports {t : State} {q : List HeldEntry} {l : List Notice} (clock : t.clock = s.clock)
    (buffer : t.notices.buffer = (withoutHead s p f q).notices.buffer ++ l) :
    Reports s t (supersededNotice p.tube f .queued (s.tube p.tube).nextTicket) := by
  have taken := ticketTaken s p.tube
  exact Reports.of_place (u := (ticketedState s p.tube).modTube p.tube fun x => { x with queue := q }) taken.buffer
    (clock.trans taken.clock.symm) ⟨l, buffer⟩

theorem withoutHead_buffer (q : List HeldEntry) (room : s.notices.buffer.length < 8) :
    (withoutHead s p f q).notices.buffer = s.notices.buffer
      ++ [{ supersededNotice p.tube f .queued (s.tube p.tube).nextTicket with clock := s.clock }] := by
  have taken := ticketTaken s p.tube
  have placed := buffer_place (s := (ticketedState s p.tube).modTube p.tube fun x => { x with queue := q })
    (n := supersededNotice p.tube f .queued (s.tube p.tube).nextTicket)
    (by show (ticketedState s p.tube).notices.buffer.length < 8; rw [taken.buffer]; exact room)
  rw [show (withoutHead s p f q).notices.buffer = _ from placed]
  show (ticketedState s p.tube).notices.buffer
    ++ [{ supersededNotice p.tube f .queued (s.tube p.tube).nextTicket with clock := (ticketedState s p.tube).clock }] = _
  rw [taken.buffer, taken.clock]

/-- The next notice, where the buffer has room for it. -/
theorem placed_mem {n : Notice} {t : State} {l : List Notice} (room : w.notices.buffer.length < 8) (clock : t.clock = w.clock)
    (buffer : t.notices.buffer = (w.place n).notices.buffer ++ l) : { n with clock := t.clock } ∈ t.notices.buffer := by
  rw [buffer, buffer_place room, clock]
  exact List.mem_append_left _ (List.mem_append_right _ (List.mem_singleton.mpr rfl))

theorem place_longer (s : State) (n : Notice) : (s.place n).notices.buffer.length ≤ s.notices.buffer.length + 1 := by
  unfold State.place State.modNotices
  dsimp only
  split
  · rw [List.length_append]; exact Nat.le_refl _
  · exact Nat.le_succ _

/-! ## A first entry whose claim waits (R33, R135) -/

/-- R33, R131: the head joins with its claim, and no front claim fits. -/
theorem holdFirst_waits (passes : w.firstFailure k e = none) (waiting : e.state = .waiting) (new : e.held = false)
    (needs : neededClaim (w.tube k) e = some (pool, amount)) (stale : ∀ old ∈ w.budget.claims, old.fresh = false)
    (short : ∀ q front, Budget.front { w.budget with
        claims := w.budget.claims ++ [⟨k, pool, amount, .process, w.budget.joinCounter, .entry e.ticket e.channel, true⟩]
        joinCounter := w.budget.joinCounter + 1 } q = some front → w.freeOf q < front.amount) :
    let c : Claim := ⟨k, pool, amount, .process, w.budget.joinCounter, .entry e.ticket e.channel, true⟩
    let joined := (w.headed k e).joinedHead k e pool amount
    let held := (joined.setHead k ((e.claiming pool amount).hold (w.tube k).header.holdLimit)).place (heldNotice k e .claim 0)
    let marked := held.modBudget fun b => { b with claims := w.budget.claims ++ [{ c with fresh := false }] }
    w.holdFirst k e = marked.place (claimWaitNotice marked c) := by
  intro c joined held marked
  have own := headed_tube w k e
  have queue : ((w.headed k e).tube k).queue = [e] := by rw [own]
  have free : ∀ q, joined.freeOf q = w.freeOf q := fun q =>
    (joinedHead_freeOf queue pool amount q).trans (headed_freeOf w k e q)
  have examined : (w.headed k e).examineWith State.scan k = joined := by
    refine (examine_joins queue (headed_passes passes) waiting ((headed_needs w k e).trans needs)).trans ?_
    exact scan_no_fit (s := joined) fun q front at_ => (free q).symm ▸ short q front at_
  have joinedTube : joined.tube k = { w.tube k with queue := [e.claiming pool amount] } := by
    rw [show joined.tube k = _ from joinedHead_tube queue pool amount, own]
  have reason : joined.holdReason k (e.claiming pool amount) = .claim := by
    unfold State.holdReason
    rw [show joined.firstFailure k (e.claiming pool amount) = none from
      joinedHead_passes queue (headed_passes passes) pool amount]
  have heldHead : joined.holdHead k e.ticket = held := by
    unfold State.holdHead
    rw [joinedTube]
    dsimp only
    rw [if_pos ⟨rfl, by rw [show (e.claiming pool amount).held = false from new]; rfl⟩, reason]
    rfl
  show (((w.headed k e).examineWith State.scan k).holdHead k e.ticket).announce = _
  rw [examined, heldHead]
  exact announce_one (s := held) (c := c) (old := w.budget.claims) rfl rfl stale

end Sys2Proof.Machine

/-! O27, part by part: the tests, the claims, the entries, and the writes that are held. -/

namespace Sys2Proof.Machine

variable {s u w : State} {k : Tube} {e f g : HeldEntry} {v : Word} {n amount : Nat} {c : Claim} {pool : Pool}
  {p : Place} {d : DescWords} {cls : AccessClass} {pre post rest : List HeldEntry} {r : HoldReason}

/-! ## A head superseded (R32) -/

/-- The state a superseded head alone on the channel leaves: its claim, where it had one, is withdrawn. -/
def State.replaced (s : State) (p : Place) (f : HeldEntry) : State :=
  if f.state = .claiming then (withoutHead s p f []).modBudget fun b => { b with claims := [] } else withoutHead s p f []

theorem replaced_tube (s : State) (p : Place) (f : HeldEntry) :
    (s.replaced p f).tube p.tube = { (ticketedState s p.tube).tube p.tube with queue := [] } := by
  unfold State.replaced
  split <;> exact withoutHead_tube s p f []

theorem replaced_others (s : State) (p : Place) (f : HeldEntry) {j : Tube} (other : j ≠ p.tube) :
    (s.replaced p f).tube j = s.tube j := by
  unfold State.replaced
  split <;> exact (withoutHead_facts s p f []).2.1 j other

theorem replaced_notices (s : State) (p : Place) (f : HeldEntry) : (s.replaced p f).notices = (withoutHead s p f []).notices
    ∧ (s.replaced p f).clock = s.clock := by
  obtain ⟨-, -, -, -, clock⟩ := withoutHead_facts s p f []
  unfold State.replaced
  split <;> exact ⟨rfl, clock⟩

theorem replaced_fails (fails : s.firstFailure p.tube e = some r) : (s.replaced p f).firstFailure p.tube e = some r := by
  obtain ⟨own, -, acts, -, -⟩ := withoutHead_facts s p f []
  have tube : (s.replaced p f).tube p.tube = _ := (replaced_tube s p f).trans ((withoutHead_tube s p f []).symm.trans own)
  have same : SameActs s (s.replaced p f) := by
    unfold State.replaced
    split <;> exact ⟨acts.ring, acts.stale, acts.scrubber, acts.lapsed⟩
  exact (firstFailure_entry e same ⟨_, _, _, _, _, tube⟩ e rfl rfl).trans fails

/-- R32, R133: a superseded head that was the only entry. -/
theorem supersedeChannel_only (queue : (s.tube p.tube).queue = [f]) (on : f.channel = p.channel)
    (state : f.state = .waiting ∨ f.state = .claiming ∧ ∃ old ticket channel, s.budget.claims = [old] ∧ old.tube = p.tube
      ∧ old.origin = .entry ticket channel) :
    (ticketedState s p.tube).supersedeChannel p (s.tube p.tube).nextTicket = s.replaced p f := by
  obtain ⟨-, -, -, budget, -⟩ := withoutHead_facts s p f []
  have superseded : (ticketedState s p.tube).supersede p.tube (fun e => e.channel == p.channel) .queued
      (s.tube p.tube).nextTicket = s.replaced p f := by
    rw [supersede_head queue on nofun]
    unfold State.replaced
    rcases state with waiting | ⟨claims, old, ticket, channel, only, own, origin⟩
    · rw [waiting]; rfl
    · rw [if_pos claims, if_pos claims]
      have listed : (withoutHead s p f []).budget.claims = [old] := (congrArg Budget.claims budget).trans only
      have ofHead : Claim.ofHead p.tube old = true := by
        unfold Claim.ofHead; rw [own, origin]; exact Bool.and_eq_true_iff.mpr ⟨decide_eq_true rfl, rfl⟩
      have none_ : (withoutHead s p f []).budget.claims.filter (fun c => !Claim.ofHead p.tube c) = [] := by
        rw [listed, List.filter_cons_of_neg (by rw [ofHead]; decide)]; rfl
      unfold State.withdraw
      rw [if_pos (by rw [listed, List.any_cons, ofHead, Bool.true_or])]
      refine Eq.trans ?_ (rescan_none (s := (withoutHead s p f []).modBudget fun b => { b with claims := [] }) rfl)
      exact congrArg (fun cs => ((withoutHead s p f []).modBudget fun b => { b with claims := cs }).rescan) none_
  unfold State.supersedeChannel
  simp only [head_on_channel queue on, if_true, superseded]
  exact examine_empty _ (by rw [replaced_tube])

/-- R32: a superseded WAITING head with an entry behind it: the next is examined. -/
theorem supersedeChannel_head (queue : (s.tube p.tube).queue = f :: rest) (on : f.channel = p.channel)
    (off : ∀ g ∈ rest, g.channel ≠ p.channel) (waiting : f.state = .waiting) :
    (ticketedState s p.tube).supersedeChannel p (s.tube p.tube).nextTicket = (withoutHead s p f rest).examine p.tube := by
  have superseded := supersede_waiting (pre := []) queue on off waiting
  unfold State.supersedeChannel
  simp only [head_on_channel queue on, if_true]
  exact congrArg (fun u => State.examine u p.tube) superseded

theorem withoutHead_fails {q : List HeldEntry} (fails : s.firstFailure p.tube e = some r) :
    (withoutHead s p f q).firstFailure p.tube e = some r := by
  obtain ⟨own, -, acts, -, -⟩ := withoutHead_facts s p f q
  exact (firstFailure_entry e acts ⟨_, _, _, _, _, own⟩ e rfl rfl).trans fails

theorem withoutHead_passes {q : List HeldEntry} (passes : s.firstFailure p.tube e = none) :
    (withoutHead s p f q).firstFailure p.tube e = none := by
  obtain ⟨own, -, acts, -, -⟩ := withoutHead_facts s p f q
  exact (firstFailure_entry e acts ⟨_, _, _, _, _, own⟩ e rfl rfl).trans passes

/-! ## A released BOAT entry that finds its boat there (R114) -/

/-- R114: the tube of a boat at rest that is sent where it is. -/
def TubeState.arrivedAt (x : TubeState) (ticket : Word) (channel : Six) : TubeState :=
  { x with
    boat := { x.boat with lastTicket := ticket, lastChannel := channel, expiries := 0 }
    summary := { x.summary with boatArrived := true } }

section
variable {ticket : Word} {channel : Six} {rescan : State → State}

theorem applyBoat_there (there : v = (s.tube k).boat.delivered) (rests : (s.tube k).boat.state ≠ .moving) :
    (s.applyBoat k v ticket channel).tube k = (s.tube k).arrivedAt ticket channel
      ∧ ∀ j, j ≠ k → (s.applyBoat k v ticket channel).tube j = s.tube j := by
  let named := fun b : Boat => { b with lastTicket := ticket, lastChannel := channel }
  let counted := fun b : Boat => { b with expiries := 0 }
  have own : (s.modBoat k named).tube k = { s.tube k with boat := named (s.tube k).boat } := modBoat_tube s k named
  have there' : v = ((s.modBoat k named).tube k).boat.delivered := by rw [own]; exact there
  have rests' : ¬ ((s.modBoat k named).tube k).boat.state = .moving := by rw [own]; exact rests
  have same : s.applyBoat k v ticket channel = ((s.modBoat k named).modBoat k counted).boatDone k 0 :=
    (if_pos there').trans (if_neg rests')
  rw [same]
  refine ⟨?_, fun j other => ?_⟩
  · show (((s.modBoat k named).modBoat k counted).modSummary k fun f => { f with boatArrived := true }).tube k = _
    rw [modSummary_tube, modBoat_tube, own]
    rfl
  · exact (tube_setTube_ne _ _ other).trans ((tube_setTube_ne _ _ other).trans (tube_setTube_ne _ _ other))

/-- R42, R114: such an entry starts no release gap. -/
theorem releaseHead_boat (kind : g.kind = .boat) (s : State) (k : Tube) (n : Nat) :
    s.releaseHead rescan k g n = (s.unheaded k g).applyBoat k g.value g.ticket g.channel := by
  have shut : opensLine (s.tube k) g = false := by unfold opensLine; rw [kind]
  have entry : (s.unheaded k g).applyEntry rescan k g n = (s.unheaded k g).applyBoat k g.value g.ticket g.channel := by
    unfold State.applyEntry; rw [kind]
  rw [← entry]
  unfold State.releaseHead
  rw [shut]
  rfl

/-- R38, R114: the examination of a BOAT entry alone in its queue, its boat at rest where the entry sends it. -/
theorem examine_there (queue : (s.tube k).queue = [g]) (waiting : g.state = .waiting) (passes : s.firstFailure k g = none)
    (kind : g.kind = .boat) (there : g.value = (s.tube k).boat.delivered) (rests : (s.tube k).boat.state ≠ .moving) :
    (s.examine k).tube k = { (s.tube k).arrivedAt g.ticket g.channel with queue := [], lastReleased := g.ticket }
      ∧ (∀ j, j ≠ k → (s.examine k).tube j = s.tube j) ∧ ∃ l, (s.examine k).notices.buffer = s.notices.buffer ++ l := by
  have same : s.examine k = (s.unheaded k g).applyBoat k g.value g.ticket g.channel :=
    (examine_last Shift.rescan queue passes waiting (needs_boat kind)).trans (releaseHead_boat kind s k 0)
  have entered := unheaded_tube s k g
  obtain ⟨own, others⟩ := applyBoat_there (s := s.unheaded k g) (k := k) (v := g.value) (ticket := g.ticket) (channel := g.channel)
    (by rw [entered]; exact there) (by rw [entered]; exact rests)
  refine ⟨?_, fun j other => ?_, (Local.examine k s k).buffer⟩
  · rw [same, own, entered, queue]
    rfl
  · rw [same, others j other]
    exact unheaded_others s g other

theorem arrivedAt_fails {t : State} {q : List HeldEntry} (acts : SameActs s t)
    (tube : t.tube k = { (s.tube k).arrivedAt ticket channel with queue := q, lastReleased := v }) :
    t.firstFailure k e = s.firstFailure k e := by
  obtain ⟨ring, stale, scrubber, lapsed⟩ := acts
  exact firstFailure_congr (by rw [tube]; rfl) (by rw [tube]; rfl) (by rw [tube]; rfl) (by rw [tube]; rfl) ring stale scrubber
    lapsed

end

end Sys2Proof.Machine

/-! Queued writes that are held (R30, R32, R33): the statement. -/

namespace Sys2Proof.Machine

variable {s u w : State} {k : Tube} {e f g : HeldEntry} {v : Word} {amount : Nat} {pool : Pool}
  {p : Place} {d : DescWords} {cls : AccessClass} {pre post rest : List HeldEntry} {r : HoldReason}

/-! ## The cases -/

/-- The ticket records of a tube. -/
def TubeState.tickets (x : TubeState) : Word × Word := (x.nextTicket, x.lastIssued)

theorem TubeShift.tickets {P : Prop} {b : Bool} {x y : TubeState} (h : TubeShift b P x y) : y.tickets = x.tickets := by
  unfold TubeState.tickets
  rw [h.nextTicket, h.lastIssued]

theorem holdHead_tickets (s : State) (k : Tube) (n : Word) : ((s.holdHead k n).tube k).tickets = (s.tube k).tickets := by
  unfold State.holdHead
  split
  · rfl
  · split
    · rw [State.tube_place, setHead_tube]; rfl
    · rfl

theorem enqueue_tickets (s : State) (p : Place) (d : DescWords) (n v : Word) :
    ((s.enqueue p d n v).tube p.tube).tickets = (s.tube p.tube).tickets := by
  have superseded : ((s.supersedeChannel p n).tube p.tube).tickets = (s.tube p.tube).tickets :=
    (supersedeChannel_tube s p n).tickets
  have first : ∀ (u : State) (e : HeldEntry), ((u.holdFirst p.tube e).tube p.tube).tickets = (u.tube p.tube).tickets :=
    fun u e => by
      have examined := ((Shift.examineWith Shift.scan (u.headed p.tube e) p.tube).tubes p.tube).tickets
      show ((State.announce _).tube p.tube).tickets = _
      rw [(announce_facts _).1, holdHead_tickets]
      exact examined.trans (by rw [headed_tube]; rfl)
  have behind : ∀ (u : State) (e : HeldEntry), ((u.holdBehind p.tube e).tube p.tube).tickets = (u.tube p.tube).tickets :=
    fun u e => by
      unfold State.holdBehind
      dsimp only
      rw [State.tube_place, tube_modTube_eq]
      rfl
  unfold State.enqueue
  dsimp only
  split
  · exact (first _ _).trans superseded
  · split
    · exact (behind _ _).trans superseded
    · rw [refuseFull_tube]
      exact superseded

/-- What every queued write leaves: its ticket is taken, and nothing outside its tube is touched. -/
theorem queued_always (s : State) (p : Place) (d : DescWords) (v : Word) :
    let t := s.advance.finish ((ticketedState s p.tube).enqueue p d (s.tube p.tube).nextTicket v)
    (t.tube p.tube).nextTicket = (s.tube p.tube).nextTicket + 1 ∧ (t.tube p.tube).lastIssued = (s.tube p.tube).nextTicket
      ∧ Elsewhere (some p.tube) s t := by
  intro t
  have after := Finished.finish s.advance ((ticketedState s p.tube).enqueue p d (s.tube p.tube).nextTicket v)
  have tickets : (t.tube p.tube).tickets = ((s.tube p.tube).nextTicket + 1, (s.tube p.tube).nextTicket) := by
    rw [(after.tubes p.tube).tickets, enqueue_tickets, (ticketTaken s p.tube).own]
    rfl
  exact ⟨congrArg Prod.fst tickets, congrArg Prod.snd tickets, Elsewhere.of_enqueue after⟩

/-- The claim of a head that joins behind the claims of `b`. -/
def Budget.headClaim (b : Budget) (k : Tube) (e : HeldEntry) (pool : Pool) (amount : Nat) (fresh : Bool) : Claim :=
  ⟨k, pool, amount, .process, b.joinCounter, .entry e.ticket e.channel, fresh⟩

/-- The list with that claim. -/
def Budget.withHead (b : Budget) (k : Tube) (e : HeldEntry) (pool : Pool) (amount : Nat) (fresh : Bool) : Budget :=
  { b with claims := b.claims ++ [b.headClaim k e pool amount fresh], joinCounter := b.joinCounter + 1 }

/-- The CLAIM_WAIT notice of a head's claim (R135). -/
def waitNotice (k : Tube) (e : HeldEntry) (pool : Pool) (amount free : Nat) : Notice :=
  notice .claimWait (some k) (some e.channel)
    (pool.code + Priority.process.code * 2 + (Origin.entry e.ticket e.channel).code * 8) e.ticket (wordOf amount) (wordOf free)

/-- What a first entry whose claim waits leaves. -/
structure Waits (k : Tube) (e : HeldEntry) (pool : Pool) (amount : Nat) (w t : State) : Prop where
  tube : t.tube k = { w.tube k with queue := [(e.claiming pool amount).hold (w.tube k).header.holdLimit] }
  others : ∀ j, j ≠ k → t.tube j = w.tube j
  budget : t.budget = w.budget.withHead k e pool amount false
  notices : w.notices.buffer.length < 7 → t.notices.buffer = w.notices.buffer
    ++ [{ heldNotice k e .claim 0 with clock := w.clock }, { waitNotice k e pool amount (w.freeOf pool) with clock := w.clock }]

/-- R33, R135: the HELD notice, and the CLAIM_WAIT notice behind it. -/
theorem Waits.of_joined {joined : State} (tube : joined.tube k = { w.tube k with queue := [e.claiming pool amount] })
    (others : ∀ j, j ≠ k → joined.tube j = w.tube j) (root : joined.root = w.root) (clock : joined.clock = w.clock)
    (notices : joined.notices = w.notices) (books : joined.budget = w.budget.withHead k e pool amount true)
    {marked : State} (mark : marked = ((joined.setHead k ((e.claiming pool amount).hold (w.tube k).header.holdLimit)).place
      (heldNotice k e .claim 0)).modBudget fun b => { b with
        claims := w.budget.claims ++ [w.budget.headClaim k e pool amount false] }) :
    Waits k e pool amount w (marked.place (claimWaitNotice marked (w.budget.headClaim k e pool amount true))) := by
  have own : marked.tube k = { w.tube k with queue := [(e.claiming pool amount).hold (w.tube k).header.holdLimit] } := by
    rw [mark]
    show (joined.setHead k _).tube k = _
    rw [setHead_tube, tube]
    rfl
  have away : ∀ j, j ≠ k → marked.tube j = w.tube j := fun j other => by
    rw [mark]
    exact (tube_setTube_ne joined _ other).trans (others j other)
  have budget : marked.budget = w.budget.withHead k e pool amount false := by
    rw [mark]
    show { joined.budget with claims := w.budget.claims ++ [w.budget.headClaim k e pool amount false] } = _
    rw [books]
    rfl
  have free : marked.freeOf pool = w.freeOf pool := by
    have same : ∀ j, (marked.tube j).gas = (w.tube j).gas ∧ (marked.tube j).ramp = (w.tube j).ramp := fun j => by
      by_cases at_ : j = k
      · subst at_; rw [own]; exact ⟨rfl, rfl⟩
      · rw [away j at_]; exact ⟨rfl, rfl⟩
    exact freeOf_same (by rw [budget]; rfl) (by rw [budget]; rfl) (by rw [mark]; exact root) (fun j => by rw [(same j).1])
      (fun j => by rw [(same j).2]) pool
  have noted : claimWaitNotice marked (w.budget.headClaim k e pool amount true) = waitNotice k e pool amount (w.freeOf pool) := by
    rw [← free]; rfl
  have first : w.notices.buffer.length < 8 → marked.notices.buffer = w.notices.buffer
      ++ [{ heldNotice k e .claim 0 with clock := w.clock }] := fun room => by
    have placed := buffer_place (s := joined.setHead k ((e.claiming pool amount).hold (w.tube k).header.holdLimit))
      (n := heldNotice k e .claim 0) (by show joined.notices.buffer.length < 8; rw [notices]; exact room)
    rw [mark]
    refine placed.trans ?_
    show joined.notices.buffer ++ [{ heldNotice k e .claim 0 with clock := joined.clock }] = _
    rw [notices, clock]
  refine ⟨own, away, budget, fun room => ?_⟩
  have listed := first (by omega)
  have time : marked.clock = w.clock := by rw [mark]; exact clock
  have last := buffer_place (s := marked) (n := claimWaitNotice marked (w.budget.headClaim k e pool amount true))
    (by rw [listed, List.length_append]; simp only [List.length_singleton]; omega)
  rw [last, noted, listed, time, List.append_assoc]
  rfl

/-- R33, R131, R135: a first entry whose tests hold and whose claim does not fit. -/
theorem holdFirst_claims (passes : w.firstFailure k e = none) (waiting : e.state = .waiting) (new : e.held = false)
    (needs : neededClaim (w.tube k) e = some (pool, amount)) (stale : ∀ old ∈ w.budget.claims, old.fresh = false)
    (short : ∀ q front, (w.budget.withHead k e pool amount true).front q = some front → w.freeOf q < front.amount) :
    Waits k e pool amount w (w.holdFirst k e) := by
  have headedTube := headed_tube w k e
  have queue : ((w.headed k e).tube k).queue = [e] := by rw [headedTube]
  have same := holdFirst_waits passes waiting new needs stale short
  rw [same]
  refine Waits.of_joined (w := w) (e := e) (joined := (w.headed k e).joinedHead k e pool amount) ?_ (fun j other => ?_) rfl rfl rfl rfl rfl
  · rw [joinedHead_tube queue pool amount, headedTube]
  · exact (joinedHead_others _ _ _ _ other).trans (tube_setTube_ne w _ other)

theorem ticketed_freeOf (s : State) (k : Tube) (pool : Pool) : (ticketedState s k).freeOf pool = s.freeOf pool := by
  have taken := ticketTaken s k
  have same : ∀ j, ((ticketedState s k).tube j).gas = (s.tube j).gas ∧ ((ticketedState s k).tube j).ramp = (s.tube j).ramp :=
    fun j => by
      by_cases own : j = k
      · subst own; rw [taken.own]; exact ⟨rfl, rfl⟩
      · rw [taken.others j own]; exact ⟨rfl, rfl⟩
  exact freeOf_same (by rw [taken.budget]) (by rw [taken.budget]) taken.root (fun j => by rw [(same j).1])
    (fun j => by rw [(same j).2]) pool

/-- A write that finds the queue empty and whose claim has to wait. -/
theorem queued_waits (reaches : ShapedReaches s cls p v d) (queued : IsQueued s p.tube d v)
    (empty : (s.tube p.tube).queue = []) (passes : s.firstFailure p.tube (s.entryOf p d v) = none)
    (needs : neededClaim (s.tube p.tube) (s.entryOf p d v) = some (pool, amount))
    (stale : ∀ old ∈ s.budget.claims, old.fresh = false)
    (short : ∀ q front, (s.budget.withHead p.tube (s.entryOf p d v) pool amount true).front q = some front →
      s.freeOf q < front.amount) :
    ∃ t w, exec (.shapedWrite cls p v) s = .next t ∧ t.port = ⟨.idle, .acknowledge⟩
      ∧ Waits p.tube (s.entryOf p d v) pool amount (ticketedState s p.tube) w ∧ Still w t := by
  have taken := ticketTaken s p.tube
  have waits : Waits p.tube (s.entryOf p d v) pool amount (ticketedState s p.tube)
      ((ticketedState s p.tube).holdFirst p.tube (s.entryOf p d v)) := by
    refine holdFirst_claims ?_ rfl rfl ?_ ?_ ?_
    · exact (firstFailure_entry _ taken.acts ⟨_, _, _, _, _, taken.own⟩ _ rfl rfl).trans passes
    · rw [taken.own, ← needs]; exact neededClaim_congr rfl rfl rfl rfl
    · rw [taken.budget]; exact stale
    · rw [taken.budget]; simpa only [ticketed_freeOf] using short
  obtain ⟨w, same⟩ : ∃ w, w = (ticketedState s p.tube).holdFirst p.tube (s.entryOf p d v) := ⟨_, rfl⟩
  have run := queued_first_exec reaches queued empty
  have event : Local p.tube s.advance w.ack := by
    rw [same]; exact (taken.loc.trans (.holdFirst _ _)).trans (.ack _)
  rw [← same] at waits run
  have stays : HeadStays w.ack p.tube := by
    refine .of_claiming (e := ((s.entryOf p d v).claiming pool amount).hold (s.tube p.tube).header.holdLimit) (rest := []) ?_ rfl ?_
    · rw [ack_tube, waits.tube, taken.own]
    · rw [ack_tube, waits.tube, taken.own]
      exact (neededClaim_congr rfl rfl rfl rfl).trans needs
  have still : Still w.ack (s.advance.finish w.ack) := Still.finish_of_stays (event.noneMoves (fun j other => by
    rw [ack_tube, waits.others j other, taken.others j other, show s.advance.tube j = s.tube j from Finished.tube_eq j]) stays)
  exact ⟨_, w.ack, run, still.port, ⟨waits.tube, waits.others, waits.budget, waits.notices⟩, still⟩

end Sys2Proof.Machine

/-! Queued writes that are held (R30, R32, R33, R35 to R38, R45): the statement. -/

namespace Sys2Proof.Machine

variable {s u w : State} {k : Tube} {e f g : HeldEntry} {v : Word} {amount : Nat} {pool : Pool}
  {p : Place} {d : DescWords} {cls : AccessClass} {pre post rest : List HeldEntry} {r : HoldReason}

/-- R33: a write behind entries of other channels. -/
theorem queued_appended (reaches : ShapedReaches s cls p v d) (queued : IsQueued s p.tube d v)
    (some_ : 1 ≤ (s.tube p.tube).queue.length) (room : (s.tube p.tube).queue.length < 8)
    (off : ∀ f ∈ (s.tube p.tube).queue, f.channel ≠ p.channel) :
    ∃ t, exec (.shapedWrite cls p v) s = .next t ∧ JoinsBehind s p d v (s.tube p.tube).queue (ticketedState s p.tube) t := by
  obtain ⟨w, supersedes, rfl⟩ := supersedeChannel_none off
  obtain ⟨g, rest, queue⟩ := List.exists_cons_of_length_pos some_
  have short : rest.length < 7 := by rw [queue, List.length_cons] at room; omega
  rw [queue]
  exact queued_joins reaches queued supersedes (by rw [← queue, ← ticketedState_queue s p.tube])
    (fun j other => (ticketTaken s p.tube).others j other) (by rw [queue]; rfl) short

/-- R32, R33: a write whose channel has a WAITING entry behind the head. -/
theorem queued_moved (reaches : ShapedReaches s cls p v d) (queued : IsQueued s p.tube d v)
    (queue : (s.tube p.tube).queue = pre ++ f :: post) (ahead : pre ≠ []) (room : (s.tube p.tube).queue.length ≤ 8)
    (on : f.channel = p.channel) (waiting : f.state = .waiting) (off : ∀ g ∈ pre ++ post, g.channel ≠ p.channel) :
    ∃ t, exec (.shapedWrite cls p v) s = .next t
      ∧ JoinsBehind s p d v (pre ++ post) (withoutHead s p f (pre ++ post)) t := by
  obtain ⟨g, more, rfl⟩ := List.exists_cons_of_ne_nil ahead
  have supersedes := supersedeChannel_behind queue ahead on off waiting
  rw [queue, List.length_append, List.length_cons, List.length_cons] at room
  exact queued_joins reaches queued supersedes (withoutHead_tube s p f _) (withoutHead_facts s p f _).2.1
    (by rw [queue]; rfl) (by show (more ++ post).length < 7; rw [List.length_append]; omega)

/-- R32, R33: a write whose channel has the only entry, and that fails a test. -/
theorem queued_replaces (reaches : ShapedReaches s cls p v d) (queued : IsQueued s p.tube d v)
    (queue : (s.tube p.tube).queue = [f]) (on : f.channel = p.channel)
    (fails : s.firstFailure p.tube (s.entryOf p d v) = some r)
    (state : f.state = .waiting ∨ f.state = .claiming ∧ ∃ old ticket channel, s.budget.claims = [old] ∧ old.tube = p.tube
      ∧ old.origin = .entry ticket channel) :
    ∃ t l, exec (.shapedWrite cls p v) s = .next t ∧ t.port = ⟨.idle, .acknowledge⟩
      ∧ t.tube p.tube = { (s.replaced p f).tube p.tube with
        queue := [(s.entryOf p d v).hold (s.tube p.tube).header.holdLimit] }
      ∧ t.clock = s.clock ∧ t.budget.claims = (s.replaced p f).budget.claims.map (fun c => { c with fresh := false })
      ∧ t.notices.buffer = ((s.replaced p f).place (heldNotice p.tube (s.entryOf p d v) r 0)).notices.buffer ++ l := by
  obtain ⟨t, run, -, port, tube, clock, claims, l, buffer⟩ := reaches.queued_first queued (supersedeChannel_only queue on state)
    (fun j => replaced_others s p f) (by rw [replaced_tube]) (by rw [replaced_tube, (ticketTaken s p.tube).own]) r
    (replaced_fails fails)
  exact ⟨t, l, run, port, tube, clock, claims, buffer⟩

/-- R32, R33, R38: a write whose channel has the head, WAITING, with a next entry that fails a test. -/
theorem queued_follows (reaches : ShapedReaches s cls p v d) (queued : IsQueued s p.tube d v)
    (queue : (s.tube p.tube).queue = f :: g :: post) (room : (s.tube p.tube).queue.length ≤ 8) (on : f.channel = p.channel)
    (waiting : f.state = .waiting) (off : ∀ h ∈ g :: post, h.channel ≠ p.channel)
    (fails : s.firstFailure p.tube g = some r) :
    ∃ t, exec (.shapedWrite cls p v) s = .next t ∧ JoinsBehind s p d v (g :: post) (withoutHead s p f (g :: post)) t := by
  have own := withoutHead_tube s p f (g :: post)
  have stays : HeadStays (withoutHead s p f (g :: post)) p.tube :=
    .of_failure (e := g) (rest := post) (by rw [own]) (withoutHead_fails fails)
  have supersedes : (ticketedState s p.tube).supersedeChannel p (s.tube p.tube).nextTicket = withoutHead s p f (g :: post) :=
    (supersedeChannel_head queue on off waiting).trans stays.examine
  rw [queue, List.length_cons, List.length_cons] at room
  obtain ⟨t, run, kept, port, tube, clock, buffer⟩ := reaches.queued_behind queued supersedes (withoutHead_facts s p f _).2.1 g post
    (by rw [own]) (by omega) (by rw [own, (ticketTaken s p.tube).own]) stays
  exact ⟨t, run, kept, port, tube, clock, buffer⟩

/-- R32, R33, R114: the same, where the next entry is the last and sends a boat at rest where it is. -/
theorem queued_after_arrival (reaches : ShapedReaches s cls p v d) (queued : IsQueued s p.tube d v)
    (queue : (s.tube p.tube).queue = [f, g]) (on : f.channel = p.channel) (waits : f.state = .waiting)
    (waiting : g.state = .waiting) (off : g.channel ≠ p.channel) (passes : s.firstFailure p.tube g = none)
    (kind : g.kind = .boat) (there : g.value = (s.tube p.tube).boat.delivered) (rests : (s.tube p.tube).boat.state ≠ .moving)
    (fails : s.firstFailure p.tube (s.entryOf p d v) = some r) :
    ∃ t l, exec (.shapedWrite cls p v) s = .next t ∧ t.port = ⟨.idle, .acknowledge⟩
      ∧ (t.tube p.tube).queue = [(s.entryOf p d v).hold (s.tube p.tube).header.holdLimit]
      ∧ (t.tube p.tube).lastReleased = g.ticket ∧ t.clock = s.clock
      ∧ t.notices.buffer = (withoutHead s p f [g]).notices.buffer ++ l := by
  obtain ⟨own, others, acts, -, -⟩ := withoutHead_facts s p f [g]
  obtain ⟨tube, away, m, placed⟩ := examine_there (s := withoutHead s p f [g]) (k := p.tube) (by rw [own]) waiting
    (withoutHead_passes passes) kind (by rw [own]; exact there) (by rw [own]; exact rests)
  have supersedes : (ticketedState s p.tube).supersedeChannel p (s.tube p.tube).nextTicket
      = (withoutHead s p f [g]).examine p.tube :=
    supersedeChannel_head queue on (fun h mem => by rw [List.mem_singleton.mp mem]; exact off) waits
  have fails' : ((withoutHead s p f [g]).examine p.tube).firstFailure p.tube (s.entryOf p d v) = some r :=
    (arrivedAt_fails (Local.examine p.tube _ p.tube).acts tube).trans (withoutHead_fails fails)
  obtain ⟨t, run, -, port, final, clock, -, l, buffer⟩ := reaches.queued_first queued supersedes
    (fun j other => (away j other).trans (others j other)) (by rw [tube]) (by rw [tube, own]; rfl) r fails'
  obtain ⟨n, longer⟩ := (Local.place p.tube ((withoutHead s p f [g]).examine p.tube)
    (heldNotice p.tube (s.entryOf p d v) r 0)).buffer
  refine ⟨t, m ++ n ++ l, run, port, by rw [final], by rw [final, tube], clock, ?_⟩
  rw [show t.notices.buffer = _ from buffer]
  rw [longer, placed, List.append_assoc, List.append_assoc, List.append_assoc]

/-! ## The statement -/

/-- Settles O27, part by part. -/
theorem queuedWriteIsHeld : Obligations.QueuedWriteIsHeld := by
  refine ⟨?tests, ?claims, ?entries, ?writes⟩
  case tests =>
    intro s k e x size gas ring stale scrubber gate raises
    have gate_iff : gateHolds x e = true ↔ gate := by
      show _ ↔ (match e.kind with
        | .zone _ _ => _
        | .line _ reactive purge _ => _
        | .boat => _)
      cases kind : e.kind with
      | zone z step => exact gateHolds_zone kind
      | line l reactive purge weight => exact gateHolds_line kind
      | boat => exact gateHolds_boat kind
    have raises_iff : raisesReactive x e = true ↔ raises := by
      show _ ↔ (match e.kind with
        | .line l reactive _ _ => _
        | _ => _)
      cases kind : e.kind with
      | zone z step => simp only [raises_zone kind, Bool.false_eq_true]
      | line l reactive purge weight => exact raises_line kind
      | boat => simp only [raises_boat kind, Bool.false_eq_true]
    have acts : s.ringActs = true ∨ s.staleActs = true ↔ ring ∨ stale := or_congr ringActs_iff staleActs_iff
    have inhibits : (raisesReactive x e && (s.scrubberActs || s.monitor.lapsed)) = true
        ↔ raises ∧ (scrubber ∨ s.monitor.lapsed = true) := by
      rw [Bool.and_eq_true, Bool.or_eq_true]
      exact and_congr raises_iff (or_congr scrubberActs_iff Iff.rfl)
    refine ⟨firstFailure_mode, fun runs gap => firstFailure_gap runs gap, fun runs gapless low => ?_,
      fun runs gapless quiet shut => ?_, fun runs gapless quiet open_ raising inhibit => ?_,
      fun runs gapless quiet open_ free => ?_⟩
    · exact firstFailure_throttle runs gapless (acts.mpr low)
    · exact firstFailure_gate runs gapless (fun h => quiet (acts.mp h)) fun h => shut (gate_iff.mp h)
    · exact (firstFailure_last runs gapless (fun h => quiet (acts.mp h)) (gate_iff.mpr open_)).trans
        (if_pos (inhibits.mpr ⟨raising, inhibit⟩))
    · exact (firstFailure_last runs gapless (fun h => quiet (acts.mp h)) (gate_iff.mpr open_)).trans
        (if_neg fun h => free (inhibits.mp h))
  case claims =>
    refine fun x e => ⟨fun z step kind => ?_, fun l reactive purge weight kind => neededClaim_line kind, needs_boat⟩
    exact ⟨fun free up => neededClaim_up kind free (withTarget_above.mpr up),
      fun rests => neededClaim_rest kind (rests.imp_right fun level h => level (withTarget_above.mp h))⟩
  case entries =>
    intro p d ticket v now e
    refine ⟨rfl, rfl, rfl, rfl, rfl, rfl, rfl, rfl, rfl, fun z mark => ?_, fun l mark => ?_, fun mark => ?_, fun limit => ?_⟩
    · show d.entryKind = _
      unfold DescWords.entryKind
      rw [mark]
    · show d.entryKind = _
      unfold DescWords.entryKind
      rw [mark]
      show EntryKind.line l d.reactive d.purge (bitsOf d.w4 7 0) = _
      rw [bitsOf_low]
      rfl
    · show d.entryKind = _
      unfold DescWords.entryKind
      rw [mark]
    · show HeldEntry.mk _ _ _ _ _ _ _ _ (startUnlessZero (limit * 100)) _ = _
      by_cases zero : limit = 0
      · subst zero; rfl
      · unfold startUnlessZero
        rw [if_neg zero, if_neg zero, if_neg zero, if_neg (Nat.mul_ne_zero zero (by decide))]
        rfl
  case writes =>
    intro s cls p v d reaches queued x e held
    obtain ⟨t, run, next, issued, kept⟩ : ∃ t, exec (.shapedWrite cls p v) s = .next t
        ∧ (t.tube p.tube).nextTicket = x.nextTicket + 1 ∧ (t.tube p.tube).lastIssued = x.nextTicket
        ∧ Elsewhere (some p.tube) s t := ⟨_, exec_queued reaches queued, queued_always s p d v⟩
    have same : ∀ {t'}, exec (.shapedWrite cls p v) s = .next t' → t' = t := fun run' =>
      Host.Outcome.next.inj (run'.symm.trans run)
    have ticketed := (ticketTaken s p.tube).own
    refine ⟨t, run, next, issued, kept, fun some_ room off => ?behind, fun pre f post queue ahead room on waiting off => ?moved,
      fun r empty fails => ?first, fun pool amount empty passes needs stale => ?waits,
      fun f r queue on fails state => ?replaces, fun f g post queue room on waiting waits off => ⟨fun r fails => ?follows,
      fun r last passes kind there rests fails => ?arrival⟩⟩
    case behind =>
      obtain ⟨t', run', joins⟩ := queued_appended reaches queued some_ room off
      obtain rfl := same run'
      rw [joins.tube, ticketed]
      refine ⟨joins.port, rfl, rfl, rfl, rfl, ?_⟩
      exact Reports.of_place (u := ticketedState s p.tube) (ticketTaken s p.tube).buffer
        (joins.clock.trans (ticketTaken s p.tube).clock.symm) ⟨[], by rw [List.append_nil]; exact joins.buffer⟩
    case moved =>
      obtain ⟨t', run', joins⟩ := queued_moved reaches queued queue ahead room on waiting off
      obtain rfl := same run'
      obtain ⟨l, longer⟩ := (Local.place p.tube (withoutHead s p f (pre ++ post))
        (heldNotice p.tube (s.entryOf p d v) .behind (pre ++ post).length)).buffer
      exact ⟨joins.port, by rw [joins.tube], withoutHead_reports joins.clock (joins.buffer.trans longer)⟩
    case first =>
      obtain ⟨w, supersedes, rfl⟩ := supersedeChannel_none (s := s) (p := p) (by rw [empty]; nofun)
      have taken := ticketTaken s p.tube
      obtain ⟨t', run', -, port, tube, clock, -, l, buffer⟩ := reaches.queued_first queued supersedes taken.others
        (by rw [ticketed]; exact empty) (by rw [ticketed]) r
        ((firstFailure_entry e taken.acts ⟨_, _, _, _, _, ticketed⟩ e rfl rfl).trans fails)
      obtain rfl := same run'
      rw [tube, ticketed]
      exact ⟨port, rfl, rfl, Reports.of_place (u := ticketedState s p.tube) taken.buffer (clock.trans taken.clock.symm)
        ⟨l, buffer⟩⟩
    case waits =>
      intro joined short
      obtain ⟨t', w, run', port, waits, still⟩ := queued_waits reaches queued empty passes needs stale short
      obtain rfl := same run'
      have taken := ticketTaken s p.tube
      have tube := (still.tube p.tube).trans waits.tube
      rw [ticketed] at tube
      have budget := still.claims.trans waits.budget
      rw [taken.budget] at budget
      rw [tube]
      refine ⟨port, budget, rfl, rfl, fun room => ?_⟩
      have notices := still.kept.trans (waits.notices (by rw [taken.buffer]; exact room))
      rw [taken.buffer, taken.clock, ticketed_freeOf] at notices
      exact notices
    case replaces =>
      obtain ⟨t', l, run', port, tube, clock, claims, buffer⟩ := queued_replaces reaches queued queue on fails state
      obtain rfl := same run'
      obtain ⟨notices, time⟩ := replaced_notices s p f
      obtain ⟨m, longer⟩ := (Local.place p.tube (s.replaced p f) (heldNotice p.tube (s.entryOf p d v) r 0)).buffer
      rw [tube, replaced_tube, ticketed]
      refine ⟨port, rfl, rfl, fun claiming => ?_, ?_, fun room => ?_⟩
      · rw [claims]
        unfold State.replaced
        rw [if_pos claiming]
        rfl
      · refine withoutHead_reports (q := []) (l := m ++ l) clock ?_
        rw [buffer, longer, notices, List.append_assoc]
      · refine placed_mem (w := s.replaced p f) ?_ (clock.trans time.symm) buffer
        rw [notices, withoutHead_buffer [] (by omega), List.length_append]
        simp only [List.length_singleton]
        omega
    case follows =>
      obtain ⟨t', run', joins⟩ := queued_follows reaches queued queue room on waiting off fails
      obtain rfl := same run'
      obtain ⟨l, longer⟩ := (Local.place p.tube (withoutHead s p f (g :: post))
        (heldNotice p.tube (s.entryOf p d v) .behind (g :: post).length)).buffer
      have clock := (withoutHead_facts s p f (g :: post)).2.2.2.2
      rw [joins.tube, withoutHead_tube, ticketed]
      refine ⟨joins.port, rfl, rfl, withoutHead_reports joins.clock (joins.buffer.trans longer), fun few => ?_⟩
      refine placed_mem (w := withoutHead s p f (g :: post)) (l := []) ?_ (joins.clock.trans clock.symm)
        (by rw [List.append_nil]; exact joins.buffer)
      rw [withoutHead_buffer _ (by omega), List.length_append]
      simp only [List.length_singleton]
      omega
    case arrival =>
      subst last
      obtain ⟨t', l, run', port, held_, released, clock, buffer⟩ := queued_after_arrival reaches queued queue on waiting waits
        (off g (.head _)) passes kind there rests fails
      obtain rfl := same run'
      exact ⟨port, held_, released, withoutHead_reports clock buffer⟩

end Sys2Proof.Machine

/-! The step expiry (R79 to R82). -/

namespace Sys2Proof.Machine

variable {s u w t : State} {k : Tube} {z y : Zone} {r : Nat}

/-! ## What follows an event whose tube has no working head -/

/-- A tube that is not in RUN or holds no write keeps its engines through every release and grant. -/
theorem TubeShift.quiet {P : Prop} {x y : TubeState} (h : TubeShift false P x y) (quiet : x.mode ≠ .run ∨ x.queue = []) :
    Stopped x y := quiet.elim h.stopped (h.untouched rfl)

/-- An expiry of such a tube that changes no other causes no examination. -/
theorem expired_quiet (event : Local k (s.elapse r) w) (others : ∀ j, j ≠ k → w.tube j = (s.elapse r).tube j)
    (quiet : (w.tube k).mode ≠ .run ∨ (w.tube k).queue = []) : Still w (s.finish w) :=
  Still.finish (NoneDue.elapsed (event.noneDue others (quiet.elim (fun idle => .inr (.inl idle)) .inl)))

/-- What is under way after an expiry that causes no examination. -/
theorem expired_underway (event : Local k (s.elapse r) w) (still : Still w t) (ok : DeliveryOk s.delivery) (b : Addr) :
    t.underway b = w.underway b := still.underway (event.delivery ok) b

theorem State.modTube_self (s : State) (k : Tube) : s.modTube k (fun x => x) = s :=
  congrArg (fun tubes => { s with tubes := tubes }) (tubes_set_self s k)

theorem slotless_self (free : ¬ (s.tube k).ramp.slotHeld = true) : s.modRamp k (fun r => { r with slotHeld := false }) = s := by
  refine Eq.trans ?_ (s.modTube_self k)
  refine congrArg (s.setTube k) ?_
  show { s.tube k with ramp := { (s.tube k).ramp with slotHeld := false } } = s.tube k
  rw [← Bool.eq_false_iff.mpr free]

/-- R78: freeing the slot is a scan behind the freed slot. -/
theorem freeSlot_shift (s : State) (k : Tube) :
    Shift none True (s.modRamp k fun r => { r with slotHeld := false }) (s.freeSlot State.rescan k) := by
  unfold State.freeSlot
  split
  · exact Shift.rescan _
  · next free =>
    rw [slotless_self free]
    exact .refl _ _

/-- R78: with no claim waiting the freed slot goes to nobody. -/
theorem freeSlot_eq (none_ : s.budget.claims = []) :
    s.freeSlot State.rescan k = s.modRamp k fun r => { r with slotHeld := false } := by
  unfold State.freeSlot
  split
  · exact rescan_none none_
  · next free => exact (slotless_self free).symm

/-! ## The moves (R81) -/

/-- R81: a zone that a step moves: bound, away from its target. -/
def ZoneRec.Moves (r : ZoneRec) : Prop := r.bound = true ∧ r.delivered ≠ r.target

/-- R81: the record a step leaves. -/
def ZoneRec.stepped (r : ZoneRec) : ZoneRec := if r.bound = true ∧ r.delivered ≠ r.target then { r with delivered := r.moved } else r

theorem moved_up {r : ZoneRec} (up : r.delivered.toNat ≤ r.target.toNat) :
    r.moved.toNat = r.delivered.toNat + min r.step (r.target.toNat - r.delivered.toNat) := by
  have bound := r.target.isLt
  unfold ZoneRec.moved wordOf
  split
  · rw [BitVec.toNat_ofNat]
    omega
  · rw [BitVec.toNat_ofNat]
    omega

theorem moved_down {r : ZoneRec} (down : r.target.toNat < r.delivered.toNat) :
    r.moved.toNat = r.delivered.toNat - min r.step (r.delivered.toNat - r.target.toNat) := by
  have bound := r.delivered.isLt
  unfold ZoneRec.moved wordOf
  rw [if_neg (by omega), BitVec.toNat_ofNat]
  omega

theorem moves_iff (r : ZoneRec) : (r.bound && r.delivered != r.target) = true ↔ r.Moves := by
  rw [Bool.and_eq_true, bne_iff_ne]
  rfl

theorem moveZone_moves (moves : ((s.tube k).ramp.zones.get z).Moves) :
    s.moveZone k z = s.setZone k z ((s.tube k).ramp.zones.get z).moved := if_pos ((moves_iff _).mpr moves)

theorem moveZone_rests (rests : ¬ ((s.tube k).ramp.zones.get z).Moves) : s.moveZone k z = s :=
  if_neg fun moves => rests ((moves_iff _).mp moves)

/-- What the moves of some zones leave of the state. -/
structure MovedZones (k : Tube) (l : List Zone) (s t : State) : Prop where
  tube : ∃ zones, t.tube k = { s.tube k with ramp := { (s.tube k).ramp with zones := zones } }
    ∧ (∀ z ∈ l, zones.get z = ((s.tube k).ramp.zones.get z).stepped)
    ∧ ∀ z, z ∉ l → zones.get z = (s.tube k).ramp.zones.get z
  others : ∀ j, j ≠ k → t.tube j = s.tube j
  binding : t.binding = s.binding
  claims : t.budget = s.budget
  still : ∀ b, (∀ z ∈ l, ((s.tube k).ramp.zones.get z).Moves → b ≠ s.zoneAddr k z) → t.underway b = s.underway b
  placed : ∀ z ∈ l, ((s.tube k).ramp.zones.get z).Moves →
    (∀ y ∈ l, ((s.tube k).ramp.zones.get y).Moves → y ≠ z → s.zoneAddr k y ≠ s.zoneAddr k z) →
    t.underway (s.zoneAddr k z) = some ((s.tube k).ramp.zones.get z).moved

theorem movedZones_one (s : State) (k : Tube) (z : Zone) : MovedZones k [z] s (s.moveZone k z) := by
  by_cases moves : ((s.tube k).ramp.zones.get z).Moves
  · rw [moveZone_moves moves]
    refine ⟨⟨_, setZone_tube s k z _, fun y mem => ?_, fun y off => ?_⟩, fun j => setZone_others s z _, rfl, rfl,
      fun b off => ?_, fun y mem _ _ => ?_⟩
    · rw [List.mem_singleton.mp mem, Five.get_set, if_pos rfl]
      exact (if_pos moves).symm
    · rw [Five.get_set, if_neg fun same => off (List.mem_singleton.mpr same)]
    · rw [setZone_underway, if_neg (off z (.head _) moves)]
    · rw [List.mem_singleton.mp mem, setZone_underway, if_pos rfl]
  · rw [moveZone_rests moves]
    refine ⟨⟨_, rfl, fun y mem => ?_, fun _ _ => rfl⟩, fun _ _ => rfl, rfl, rfl, fun _ _ => rfl, fun y mem moves' _ => ?_⟩
    · rw [List.mem_singleton.mp mem]
      exact (if_neg moves).symm
    · rw [List.mem_singleton.mp mem] at moves'
      exact absurd moves' moves

theorem MovedZones.cons {l : List Zone} (new : z ∉ l) (h : MovedZones k [z] s u) (g : MovedZones k l u w) :
    MovedZones k (z :: l) s w := by
  obtain ⟨first, own, set_, kept⟩ := h.tube
  obtain ⟨last, own', set', kept'⟩ := g.tube
  have header : ∀ y, y ≠ z → (u.tube k).ramp.zones.get y = (s.tube k).ramp.zones.get y := fun y other => by
    rw [own]; exact kept y fun mem => other (List.mem_singleton.mp mem)
  have address : ∀ y, u.zoneAddr k y = s.zoneAddr k y := fun y => by unfold State.zoneAddr; rw [h.binding]
  have apart : ∀ y ∈ l, y ≠ z := fun y mem same => new (same ▸ mem)
  have stays : ∀ b, (∀ y ∈ l, ((s.tube k).ramp.zones.get y).Moves → b ≠ s.zoneAddr k y) → w.underway b = u.underway b :=
    fun b off => g.still b fun y mem moves => by
      rw [header y (apart y mem)] at moves
      rw [address]
      exact off y mem moves
  refine ⟨⟨last, ?_, fun y mem => ?_, fun y off => ?_⟩, fun j other => (g.others j other).trans (h.others j other),
    g.binding.trans h.binding, g.claims.trans h.claims, fun b off => ?_, fun y mem moves alone => ?_⟩
  · rw [own', own]
  · rcases List.mem_cons.mp mem with rfl | later
    · rw [kept' y new, own]
      exact set_ y (.head _)
    · rw [set' y later, header y (apart y later)]
  · rw [kept' y fun mem => off (.tail _ mem), header y fun same => off (same ▸ .head _)]
  · exact (stays b fun y mem => off y (.tail _ mem)).trans (h.still b fun y mem => off y (by
      rw [List.mem_singleton.mp mem]; exact .head _))
  · rcases List.mem_cons.mp mem with rfl | later
    · refine (stays _ fun x mem' moves' same => alone x (.tail _ mem') moves' (apart x mem') same.symm).trans ?_
      refine h.placed y (.head _) moves fun x mem' _ other => absurd (List.mem_singleton.mp mem') other
    · have same := header y (apart y later)
      have placed := g.placed y later (by rw [same]; exact moves) fun x mem' moves' other => by
        rw [header x (apart x mem')] at moves'
        rw [address, address]
        exact alone x (.tail _ mem') moves' other
      rw [address, same] at placed
      exact placed

theorem movedZones_all : ∀ (l : List Zone) (s : State), l.Nodup →
    MovedZones k l s (l.foldl (fun acc z => acc.moveZone k z) s)
  | [], _, _ => ⟨⟨_, rfl, nofun, fun _ _ => rfl⟩, fun _ _ => rfl, rfl, rfl, fun _ _ => rfl, nofun⟩
  | z :: l, s, distinct =>
    have parts := List.nodup_cons.mp distinct
    .cons parts.1 (movedZones_one s k z) (movedZones_all l _ parts.2)

/-- R81: the zones a step leaves. -/
def steppedZones (zones : Five ZoneRec) : Five ZoneRec := Five.ofFn fun z => (zones.get z).stepped

theorem Five.ext_get {α : Type} {v x : Five α} (each : ∀ i, v.get i = x.get i) : v = x := by
  cases v
  cases x
  exact Five.mk.injEq .. ▸ ⟨each .i0, each .i1, each .i2, each .i3, each .i4⟩

/-! ## A step (R79 to R82) -/

/-- R79: the step timer starts its next period. -/
def State.restepped (s : State) (k : Tube) : State :=
  s.modRamp k fun r => { r with stepTimer := some (s.tube k).header.stepPeriod }

theorem restepped_tube (s : State) (k : Tube) : (s.restepped k).tube k
    = { s.tube k with ramp := { (s.tube k).ramp with stepTimer := some (s.tube k).header.stepPeriod } } := modRamp_tube _ _ _

theorem restepped_others (s : State) {j : Tube} (other : j ≠ k) : (s.restepped k).tube j = s.tube j :=
  tube_setTube_ne _ _ other

theorem zoneLags_iff : s.zoneLags k z = true ↔ ((s.tube k).ramp.zones.get z).bound = true
    ∧ ((s.tube k).ramp.zones.get z).delivered ≠ ((s.tube k).ramp.zones.get z).target ∧ (s.zoneSample k z).sampled = true
    ∧ (s.tube k).header.lagLimit
      < distance (s.zoneSample k z).value.toNat ((s.tube k).ramp.zones.get z).delivered.toNat := by
  simp only [State.zoneLags, Bool.and_eq_true, decide_eq_true_eq, bne_iff_ne, and_assoc]

theorem zoneLags_restepped (s : State) (k : Tube) (z : Zone) : (s.restepped k).zoneLags k z = s.zoneLags k z := by
  unfold State.zoneLags
  rw [restepped_tube]
  rfl

/-- R80: the lag check finds a zone that lags, or none does. -/
theorem laggingZone_cases (s : State) (k : Tube) :
    (∃ z, (s.restepped k).laggingZone k = some z ∧ (s.tube k).header.lagLimit ≠ 0 ∧ s.zoneLags k z = true)
    ∨ (s.restepped k).laggingZone k = none ∧ ∀ z, ¬ ((s.tube k).header.lagLimit ≠ 0 ∧ s.zoneLags k z = true) := by
  have limit : ((s.restepped k).tube k).header.lagLimit = (s.tube k).header.lagLimit := by rw [restepped_tube]
  unfold State.laggingZone
  rw [limit]
  split
  · next off => exact .inr ⟨rfl, fun _ lags => lags.1 off⟩
  · next limited =>
    cases found : Ix5.all.find? ((s.restepped k).zoneLags k) with
    | some z => exact .inl ⟨z, rfl, limited, (zoneLags_restepped s k z).symm.trans (List.find?_some found)⟩
    | none =>
      refine .inr ⟨rfl, fun z lags => List.find?_eq_none.mp found z (Ix5.mem_all z) ?_⟩
      rw [zoneLags_restepped]
      exact lags.2

/-- R80: the lowest-numbered lagging zone. -/
theorem laggingZone_some (limited : (s.tube k).header.lagLimit ≠ 0) (lags : s.zoneLags k z = true)
    (first : ∀ y, y.toNat < z.toNat → s.zoneLags k y = false) : (s.restepped k).laggingZone k = some z := by
  unfold State.laggingZone
  rw [if_neg (by rw [restepped_tube]; exact limited)]
  exact Ix5.find?_all (by rw [zoneLags_restepped]; exact lags) fun y before => by rw [zoneLags_restepped]; exact first y before

/-- R80: the tube a lag leaves. -/
def TubeState.lagged (x : TubeState) : TubeState := { x with ramp := { x.ramp with
  stepTimer := some x.header.stepPeriod
  thermal := if x.ramp.thermal = .ramping then .held else x.ramp.thermal
  cause := if x.ramp.thermal = .ramping then .lag else x.ramp.cause } }

theorem lagHold_tube (s : State) (k : Tube) (z : Zone) :
    ((s.restepped k).lagHold k z).tube k = (s.tube k).lagged := by
  unfold State.lagHold TubeState.lagged
  rw [restepped_tube]
  dsimp only
  split
  · rw [State.tube_place, modRamp_tube, restepped_tube]
  · rw [restepped_tube]

theorem lagHold_others (s : State) (z : Zone) {j : Tube} (other : j ≠ k) :
    ((s.restepped k).lagHold k z).tube j = s.tube j := by
  unfold State.lagHold
  dsimp only
  split
  · exact (tube_setTube_ne _ _ other).trans (restepped_others s other)
  · exact restepped_others s other

theorem lagHold_underway (s : State) (k : Tube) (z : Zone) (b : Addr) :
    ((s.restepped k).lagHold k z).underway b = s.underway b := by
  unfold State.lagHold
  dsimp only
  split <;> rfl

/-- R80: the entry into the hold places its notice. -/
theorem lagHold_enters (ramping : (s.tube k).ramp.thermal = .ramping) :
    ∃ v : State, v.notices.buffer = s.notices.buffer ∧ (s.restepped k).lagHold k z
      = v.place (notice .lag (some k) none z.toNat (s.tube k).ramp.lastTicket ((s.tube k).ramp.zones.get z).delivered
          (s.zoneSample k z).value) := by
  unfold State.lagHold
  rw [restepped_tube]
  exact ⟨(s.restepped k).modRamp k fun r => { r with thermal := .held, cause := .lag }, rfl, if_pos ramping⟩

/-- R81: the tube whose zones have moved. -/
def TubeState.stepped (x : TubeState) : TubeState := { x with ramp := { x.ramp with
  stepTimer := some x.header.stepPeriod, zones := steppedZones x.ramp.zones, thermal := .ramping, cause := .none } }

/-- R81, R82: what the direction worked out afresh makes of the ramp. -/
def Ramp.steered (r : Ramp) (h : Header) : Ramp :=
  match directionOf r.zones with
  | .none => { r.settle h.settlePeriod with slotHeld := false }
  | .up => { r with direction := .up }
  | .down => { r with direction := .down, slotHeld := false }

/-- R81: the zones have moved, and the tube ramps. -/
def State.stepped (s : State) (k : Tube) : State :=
  (Ix5.all.foldl (fun acc z => acc.moveZone k z) (s.restepped k)).modRamp k fun r =>
    { r with thermal := .ramping, cause := .none }

theorem movedZones_restepped (s : State) (k : Tube) :
    MovedZones k Ix5.all (s.restepped k) (Ix5.all.foldl (fun acc z => acc.moveZone k z) (s.restepped k)) :=
  movedZones_all _ _ (by decide)

theorem stepped_tube (s : State) (k : Tube) : (s.stepped k).tube k = (s.tube k).stepped := by
  obtain ⟨zones, own, set_, -⟩ := (movedZones_restepped s k).tube
  unfold State.stepped
  rw [modRamp_tube, own, restepped_tube]
  have same : zones = steppedZones (s.tube k).ramp.zones := Five.ext_get fun z => by
    rw [set_ z (Ix5.mem_all z), restepped_tube, steppedZones, Five.get_ofFn]
  rw [same]
  rfl

theorem stepped_others (s : State) {j : Tube} (other : j ≠ k) : (s.stepped k).tube j = s.tube j :=
  (tube_setTube_ne _ _ other).trans (((movedZones_restepped s k).others j other).trans (restepped_others s other))

theorem stepped_underway (s : State) (k : Tube) :
    (∀ z, ((s.tube k).ramp.zones.get z).Moves →
      (∀ y, ((s.tube k).ramp.zones.get y).Moves → y ≠ z → s.zoneAddr k y ≠ s.zoneAddr k z) →
      (s.stepped k).underway (s.zoneAddr k z) = some ((s.tube k).ramp.zones.get z).moved)
    ∧ ∀ b, (∀ z, ((s.tube k).ramp.zones.get z).Moves → b ≠ s.zoneAddr k z) → (s.stepped k).underway b = s.underway b := by
  have moved := movedZones_restepped s k
  have zones : ((s.restepped k).tube k).ramp.zones = (s.tube k).ramp.zones := by rw [restepped_tube]
  constructor
  · intro z moves alone
    have placed := moved.placed z (Ix5.mem_all z)
    rw [zones] at placed
    exact placed moves fun y _ => alone y
  · intro b off
    have still := moved.still b
    rw [zones] at still
    exact still fun z _ => off z

/-- R81, R82: the ramp steered, before a freed slot is scanned for. -/
def State.steered (s : State) (k : Tube) : State := s.modRamp k fun r => r.steered (s.tube k).header

theorem afterMoves_eq (s : State) (k : Tube) : s.afterMoves k = match directionOf (s.tube k).ramp.zones with
    | .none => (s.modRamp k fun r => r.settle (s.tube k).header.settlePeriod).freeSlot State.rescan k
    | .up => s.modRamp k fun r => { r with direction := .up }
    | .down => (s.modRamp k fun r => { r with direction := .down }).freeSlot State.rescan k := rfl

theorem setTube_setTube (s : State) (k : Tube) (x y : TubeState) : (s.setTube k x).setTube k y = s.setTube k y := by
  cases k <;> rfl

theorem modRamp_modRamp (s : State) (k : Tube) (f g : Ramp → Ramp) :
    (s.modRamp k f).modRamp k g = s.modRamp k fun r => g (f r) := by
  have again : (s.modRamp k f).modRamp k g
      = (s.modRamp k f).setTube k { s.tube k with ramp := g (f (s.tube k).ramp) } := by
    refine congrArg ((s.modRamp k f).setTube k) ?_
    show { (s.modRamp k f).tube k with ramp := g ((s.modRamp k f).tube k).ramp } = _
    rw [modRamp_tube]
  exact again.trans (setTube_setTube s k _ _)

theorem steered_eq (s : State) (k : Tube) (f : Ramp → Ramp) (same : (s.tube k).ramp.steered (s.tube k).header = f (s.tube k).ramp) :
    s.steered k = s.modRamp k f := congrArg (fun r => s.setTube k { s.tube k with ramp := r }) same

/-- R78, R81, R82: what follows the moves is a steered ramp and at most one scan behind it. -/
theorem afterMoves_shift (s : State) (k : Tube) : Shift none True (s.steered k) (s.afterMoves k) := by
  have freed : ∀ f : Ramp → Ramp, (s.tube k).ramp.steered (s.tube k).header = { f (s.tube k).ramp with slotHeld := false } →
      Shift none True (s.steered k) ((s.modRamp k f).freeSlot State.rescan k) := fun f same => by
    rw [steered_eq s k (fun r => { f r with slotHeld := false }) same, ← modRamp_modRamp s k f fun r => { r with slotHeld := false }]
    exact freeSlot_shift _ k
  rw [afterMoves_eq]
  cases heads : directionOf (s.tube k).ramp.zones with
  | none => exact freed _ (by unfold Ramp.steered; rw [heads])
  | up =>
    rw [steered_eq s k (fun r => { r with direction := .up }) (by unfold Ramp.steered; rw [heads])]
    exact .refl _ _
  | down => exact freed _ (by unfold Ramp.steered; rw [heads])

/-- R78: with no claim waiting nothing follows but the freed slot. -/
theorem afterMoves_none (none_ : s.budget.claims = []) : s.afterMoves k = s.steered k := by
  have freed : ∀ f : Ramp → Ramp, (s.tube k).ramp.steered (s.tube k).header = { f (s.tube k).ramp with slotHeld := false } →
      (s.modRamp k f).freeSlot State.rescan k = s.steered k := fun f same => by
    rw [steered_eq s k (fun r => { f r with slotHeld := false }) same, ← modRamp_modRamp s k f fun r => { r with slotHeld := false }]
    exact freeSlot_eq none_
  rw [afterMoves_eq]
  cases heads : directionOf (s.tube k).ramp.zones with
  | none => exact freed _ (by unfold Ramp.steered; rw [heads])
  | up => exact (steered_eq s k (fun r => { r with direction := .up }) (by unfold Ramp.steered; rw [heads])).symm
  | down => exact freed _ (by unfold Ramp.steered; rw [heads])

theorem steered_tube (s : State) (k : Tube) : (s.steered k).tube k
    = { s.tube k with ramp := (s.tube k).ramp.steered (s.tube k).header } := modRamp_tube _ _ _

/-- R79 to R82: the step of a tube in which no zone lags. -/
theorem stepExpired_moves (none_ : (s.restepped k).laggingZone k = none) : s.stepExpired k = (s.stepped k).afterMoves k := by
  unfold State.stepExpired
  dsimp only
  rw [show (s.modRamp k fun r => { r with stepTimer := some (s.tube k).header.stepPeriod }) = s.restepped k from rfl, none_]
  rfl

/-- R80: the step of a tube in which a zone lags. -/
theorem stepExpired_lags (some_ : (s.restepped k).laggingZone k = some z) :
    s.stepExpired k = (s.restepped k).lagHold k z := by
  unfold State.stepExpired
  dsimp only
  rw [show (s.modRamp k fun r => { r with stepTimer := some (s.tube k).header.stepPeriod }) = s.restepped k from rfl, some_]

end Sys2Proof.Machine

/-! The step expiry (R79 to R82): the statement. -/

namespace Sys2Proof.Machine

variable {s u w t : State} {k : Tube} {z y : Zone} {r : Nat}

/-- R80: a step of a tube in which zone `z` lags. -/
theorem lagHold_leaves {w : State} (held : ((s.elapse r).restepped k).lagHold k z = w) (event : Local k (s.elapse r) w) :
    let t := s.finish w
    let x := (s.elapse r).tube k
    (t.tube k).mode = x.mode ∧ (∀ y, ((t.tube k).ramp.zones.get y).delivered = (x.ramp.zones.get y).delivered)
    ∧ (x.mode ≠ .run ∨ x.queue = [] → (t.tube k).ramp = x.lagged.ramp
      ∧ (DeliveryOk s.delivery → ∀ b, t.underway b = s.underway b)) := by
  intro t x
  subst held
  have own := lagHold_tube (s.elapse r) k z
  have kept := (Finished.finish s (((s.elapse r).restepped k).lagHold k z)).tubes k
  rw [own] at kept
  refine ⟨kept.mode, kept.zoneDelivered, fun quiet => ⟨(kept.quiet quiet).ramp, fun ok b => ?_⟩⟩
  have still := expired_quiet event (fun j => lagHold_others (s.elapse r) z) (by rw [own]; exact quiet)
  exact (expired_underway event still ok b).trans (lagHold_underway (s.elapse r) k z b)

/-- R81, R82: the ramp of a tube whose zones have moved. -/
theorem stepped_steered (x : TubeState) :
    (x.stepped.ramp.steered x.header).zones = steppedZones x.ramp.zones
    ∧ (directionOf (steppedZones x.ramp.zones) = .none → x.stepped.ramp.steered x.header = { x.ramp with
        zones := steppedZones x.ramp.zones, thermal := .settling, cause := .none, direction := .none, stepTimer := none
        retry := 0, settleTimer := some x.header.settlePeriod, slotHeld := false })
    ∧ (directionOf (steppedZones x.ramp.zones) ≠ .none →
        (x.stepped.ramp.steered x.header).thermal = .ramping
        ∧ (x.stepped.ramp.steered x.header).direction = directionOf (steppedZones x.ramp.zones)
        ∧ (x.stepped.ramp.steered x.header).stepTimer = some x.header.stepPeriod
        ∧ (directionOf (steppedZones x.ramp.zones) = .down → (x.stepped.ramp.steered x.header).slotHeld = false)) := by
  have heads : directionOf x.stepped.ramp.zones = directionOf (steppedZones x.ramp.zones) := rfl
  unfold Ramp.steered
  rw [heads]
  cases directionOf (steppedZones x.ramp.zones) with
  | none => exact ⟨rfl, fun _ => rfl, fun off => absurd rfl off⟩
  | up => exact ⟨rfl, nofun, fun _ => ⟨rfl, rfl, rfl, nofun⟩⟩
  | down => exact ⟨rfl, nofun, fun _ => ⟨rfl, rfl, rfl, fun _ => rfl⟩⟩

/-- R81, R82: a step of a tube in which no zone lags. -/
theorem afterMoves_leaves {w : State} (moved : ((s.elapse r).stepped k).afterMoves k = w) (event : Local k (s.elapse r) w) :
    let t := s.finish w
    let x := (s.elapse r).tube k
    let y := x.stepped.ramp.steered x.header
    (t.tube k).mode = x.mode ∧ (∀ z, ((t.tube k).ramp.zones.get z).delivered = (y.zones.get z).delivered)
    ∧ (x.mode ≠ .run ∨ x.queue = [] → (t.tube k).ramp = y)
    ∧ (x.mode ≠ .run ∨ x.queue = [] → s.budget.claims = [] → DeliveryOk s.delivery →
        ∀ b, t.underway b = ((s.elapse r).stepped k).underway b) := by
  intro t x y
  subst moved
  have own : (((s.elapse r).stepped k).steered k).tube k = { x.stepped with ramp := y } := by
    rw [steered_tube, stepped_tube]
    rfl
  have kept := ((afterMoves_shift ((s.elapse r).stepped k) k).tubes k).trans
    ((Finished.finish s (((s.elapse r).stepped k).afterMoves k)).tubes k)
  rw [own] at kept
  refine ⟨kept.mode, kept.zoneDelivered, fun quiet => (kept.quiet quiet).ramp, fun quiet none_ ok b => ?_⟩
  have claims : ((s.elapse r).stepped k).budget.claims = [] := by
    have books := (movedZones_restepped (s.elapse r) k).claims
    exact (congrArg Budget.claims books).trans none_
  have last := afterMoves_none (k := k) claims
  rw [last] at event
  have still := expired_quiet event (fun j other => (tube_setTube_ne _ _ other).trans (stepped_others (s.elapse r) other))
    (by rw [own]; exact quiet)
  show (s.finish (((s.elapse r).stepped k).afterMoves k)).underway b = _
  rw [last]
  exact expired_underway event still ok b

/-- Settles O40. -/
theorem stepExpiryMovesTheZones : Obligations.StepExpiryMovesTheZones := by
  intro s k r timer u x lags quiet moved moves zones'
  have run : exec (.stepExpiry k) s = .next (s.finish (u.stepExpired k)) := by
    unfold exec execStepExpiry; simp only [timer]; rfl
  have event : Local k u (u.stepExpired k) := Local.stepExpired u
  have after := Finished.finish s (u.stepExpired k)
  obtain ⟨clock, kept⟩ := expired_kept event
  have lags_iff : ∀ z, x.header.lagLimit ≠ 0 ∧ u.zoneLags k z = true ↔ lags z := fun z => and_congr_right fun _ => zoneLags_iff
  rcases laggingZone_cases u k with ⟨z, found, limited, first⟩ | ⟨found, none_⟩
  · have lagging : ∃ z, lags z := ⟨z, (lags_iff z).mp ⟨limited, first⟩⟩
    have step := stepExpired_lags found
    obtain ⟨mode, zones, rests⟩ := lagHold_leaves step.symm event
    refine ⟨_, run, clock, kept, mode, fun z => moved_up, fun z => moved_down, fun _ => ⟨zones, fun rests_ => ?_,
      fun y lagsY firstY ramping => ?_⟩, fun off => absurd lagging off⟩
    · obtain ⟨ramp, still⟩ := rests rests_
      rw [ramp]
      refine ⟨rfl, rfl, fun ramping => ⟨if_pos ramping, if_pos ramping⟩, fun off => if_neg off, still⟩
    · have named := laggingZone_some limited ((lags_iff y).mpr lagsY).2 fun j before => Bool.eq_false_iff.mpr fun c =>
        firstY j before ((lags_iff j).mp ⟨limited, c⟩)
      obtain rfl : z = y := Option.some.inj (found.symm.trans named)
      obtain ⟨v, buffer, placed⟩ := lagHold_enters (s := u) (k := k) (z := z) ramping
      rw [step, placed] at after ⊢
      exact Reports.of_place (u := v) buffer after.clock after.buffer
  · have off : ¬ ∃ z, lags z := fun ⟨z, lag⟩ => none_ z ((lags_iff z).mpr lag)
    obtain ⟨mode, zones, rests, underway⟩ := afterMoves_leaves (stepExpired_moves found).symm event
    obtain ⟨stepped, ended, goes⟩ := stepped_steered x
    rw [stepped] at zones
    refine ⟨_, run, clock, kept, mode, fun z => moved_up, fun z => moved_down, fun on => absurd on off, fun _ => ⟨zones,
      fun idle => ?_, fun idle claims ok => ?_, fun idle heads => ?_, fun idle heads => ?_⟩⟩
    · rw [rests idle]; exact stepped
    · obtain ⟨placed, others⟩ := stepped_underway u k
      exact ⟨fun z moves alone => (underway idle claims ok _).trans (placed z moves alone),
        fun b apart => (underway idle claims ok b).trans (others b apart)⟩
    · rw [rests idle, ended heads]
      exact ⟨rfl, rfl, rfl, rfl, rfl, rfl⟩
    · rw [rests idle]
      exact goes heads

end Sys2Proof.Machine

/-! The motion expiry (R112, R116 to R119). -/

namespace Sys2Proof.Machine

variable {s u w t : State} {k : Tube} {r : Nat} {b : Boat} {h : Header} {m : Sample} {p : Word}

/-! ## The step and the move (R117, R118) -/

/-- R117: the first band whose bound is at or above the temperature. -/
theorem bandStepOf_first {bounds steps : Four Nat} {temperature : Nat} (i : Ix4) (reaches : temperature ≤ bounds.get i)
    (first : ∀ j : Ix4, j.toNat < i.toNat → bounds.get j < temperature) :
    bandStepOf bounds steps temperature = steps.get i := by
  have below : ∀ j : Ix4, j.toNat < i.toNat → ¬ temperature ≤ bounds.get j := fun j before => Nat.not_le.mpr (first j before)
  unfold bandStepOf
  cases i with
  | i0 => exact if_pos reaches
  | i1 => exact (if_neg (below .i0 (by decide))).trans (if_pos reaches)
  | i2 => exact (if_neg (below .i0 (by decide))).trans ((if_neg (below .i1 (by decide))).trans (if_pos reaches))
  | i3 =>
    exact (if_neg (below .i0 (by decide))).trans ((if_neg (below .i1 (by decide))).trans
      ((if_neg (below .i2 (by decide))).trans (if_pos reaches)))

/-- R117: a temperature above every band. -/
theorem bandStepOf_none {bounds steps : Four Nat} {temperature : Nat} (above : ∀ j : Ix4, bounds.get j < temperature) :
    bandStepOf bounds steps temperature = 0 := by
  have off : ∀ j : Ix4, ¬ temperature ≤ bounds.get j := fun j => Nat.not_le.mpr (above j)
  unfold bandStepOf
  exact (if_neg (off .i0)).trans ((if_neg (off .i1)).trans ((if_neg (off .i2)).trans (if_neg (off .i3))))

theorem movedPosition_inward (up : b.delivered.toNat ≤ b.target.toNat) (step : Nat) :
    (movedPosition b step).toNat = min (b.delivered.toNat + step) b.target.toNat := by
  have bound := b.target.isLt
  unfold movedPosition wordOf
  split <;> rw [BitVec.toNat_ofNat] <;> omega

theorem movedPosition_outward (down : b.target.toNat ≤ b.delivered.toNat) (step : Nat) :
    (movedPosition b step).toNat = max (b.delivered.toNat - step) b.target.toNat := by
  have bound := b.delivered.isLt
  unfold movedPosition wordOf
  rw [if_neg (by omega), BitVec.toNat_ofNat]
  omega

/-! ## The check (R119) -/

theorem distance_eq (a c : Nat) : distance a c = max a c - min a c := by
  unfold distance
  split <;> omega

theorem stallCounter_eq (h : Header) (m : Sample) (p : Word) (n : Nat) : stallCounter h m p n
    = if m.sampled = false then n else if h.stallLimit < distance m.value.toNat p.toNat then min 15 (n + 1) else 0 := by
  unfold stallCounter
  cases m.sampled <;> rfl

theorem stalls_iff {n : Nat} : stalls h m p n = true
    ↔ m.sampled = true ∧ h.stallLimit < distance m.value.toNat p.toNat ∧ h.stallCount ≤ n + 1 := by
  simp only [stalls, Bool.and_eq_true, decide_eq_true_eq, and_assoc]

/-! ## The expiry (R116) -/

/-- R116, R118: the boat at its new position. -/
def Boat.advanced (b : Boat) (p : Word) : Boat :=
  { b with expiries := min 65535 (b.expiries + 1), direction := b.heading, delivered := p }

/-- R116: the expiry is counted and the direction worked out. -/
def State.boatCounted (s : State) (k : Tube) : State :=
  s.modBoat k fun b => { b with expiries := min 65535 (b.expiries + 1), direction := b.heading }

theorem boatCounted_tube (s : State) (k : Tube) : (s.boatCounted k).tube k = { s.tube k with boat := { (s.tube k).boat with
    expiries := min 65535 ((s.tube k).boat.expiries + 1), direction := (s.tube k).boat.heading } } := modBoat_tube _ _ _

theorem boatCounted_temperature (s : State) (k : Tube) : (s.boatCounted k).loadEndTemperature k = s.loadEndTemperature k := by
  unfold State.loadEndTemperature
  rw [boatCounted_tube]
  rfl

/-- R117, R118: the position that an expiry moves the boat to. -/
def State.nextPosition (s : State) (k : Tube) : Word :=
  movedPosition (s.tube k).boat (motionStep (s.tube k).header (s.loadEndTemperature k)
    (distance (s.tube k).boat.target.toNat (s.tube k).boat.delivered.toNat))

/-- R118: the boat has moved, and a new position is placed for delivery. -/
def State.sailed (s : State) (k : Tube) (p : Word) : State :=
  if p = (s.tube k).boat.delivered then s.boatCounted k
  else ((s.boatCounted k).modBoat k fun b => { b with delivered := p }).deliver (s.binding.get k).boat.addr p false

theorem motionExpired_eq (s : State) (k : Tube) : s.motionExpired k = (s.sailed k (s.nextPosition k)).afterMove k := by
  have count : (s.modBoat k fun b => { b with expiries := min 65535 (b.expiries + 1), direction := b.heading })
      = s.boatCounted k := rfl
  have next : movedPosition ((s.boatCounted k).tube k).boat (motionStep (s.tube k).header ((s.boatCounted k).loadEndTemperature k)
      (distance ((s.boatCounted k).tube k).boat.target.toNat ((s.boatCounted k).tube k).boat.delivered.toNat))
      = s.nextPosition k := by
    rw [boatCounted_temperature, boatCounted_tube]
    rfl
  have stands : ((s.boatCounted k).tube k).boat.delivered = (s.tube k).boat.delivered := by rw [boatCounted_tube]
  unfold State.motionExpired
  dsimp only
  rw [count, next, stands]
  rfl

theorem sailed_tube (s : State) (k : Tube) (p : Word) :
    (s.sailed k p).tube k = { s.tube k with boat := (s.tube k).boat.advanced p } := by
  unfold State.sailed
  split
  · next same =>
    rw [boatCounted_tube, same]
    rfl
  · rw [show ∀ v a w n, (State.deliver v a w n).tube k = v.tube k from fun _ _ _ _ => rfl, modBoat_tube, boatCounted_tube]
    rfl

theorem sailed_others (s : State) (p : Word) {j : Tube} (other : j ≠ k) : (s.sailed k p).tube j = s.tube j := by
  unfold State.sailed
  split
  · exact tube_setTube_ne _ _ other
  · exact (tube_setTube_ne _ _ other).trans (tube_setTube_ne _ _ other)

theorem sailed_rests (same : p = (s.tube k).boat.delivered) (a : Addr) : (s.sailed k p).underway a = s.underway a := by
  unfold State.sailed
  rw [if_pos same]
  rfl

theorem sailed_moves (off : p ≠ (s.tube k).boat.delivered) :
    (s.sailed k p).underway (s.binding.get k).boat.addr = some p := by
  unfold State.sailed
  rw [if_neg off, underway_deliver, if_pos rfl]

theorem sailed_kept (s : State) (k : Tube) (p : Word) : (s.sailed k p).abort = s.abort
    ∧ (s.sailed k p).notices = s.notices ∧ (s.sailed k p).measured = s.measured := by
  unfold State.sailed
  split <;> exact ⟨rfl, rfl, rfl⟩

/-- R119: the stall counter is brought up to date. -/
def Boat.checked (b : Boat) (h : Header) (m : Sample) : Boat := { b with stall := stallCounter h m b.delivered b.stall }

def State.boatChecked (s : State) (k : Tube) : State :=
  s.modBoat k fun b => b.checked (s.tube k).header (s.boatSample k)

theorem boatChecked_tube (s : State) (k : Tube) : (s.boatChecked k).tube k
    = { s.tube k with boat := (s.tube k).boat.checked (s.tube k).header (s.boatSample k) } :=
  modBoat_tube _ _ _

theorem boatChecked_others (s : State) {j : Tube} (other : j ≠ k) : (s.boatChecked k).tube j = s.tube j :=
  tube_setTube_ne _ _ other

/-- The check stalls the boat. -/
def State.boatStalls (s : State) (k : Tube) : Prop :=
  stalls (s.tube k).header (s.boatSample k) (s.tube k).boat.delivered (s.tube k).boat.stall = true

theorem afterMove_stalls (stall : s.boatStalls k) : s.afterMove k
    = ((s.boatChecked k).modBoat k fun b => { b with state := .stalled, direction := .none, motionTimer := none }).requestAbort
        ⟨k, .boatStall, none, (s.boatSample k).value, (s.tube k).boat.delivered⟩ := if_pos stall

theorem afterMove_arrives (free : ¬ s.boatStalls k) (there : (s.tube k).boat.delivered = (s.tube k).boat.target) :
    s.afterMove k = ((s.boatChecked k).modBoat k fun b => b.rest (s.tube k).header.inThreshold).boatDone k
      (s.tube k).boat.expiries := (if_neg free).trans (if_pos there)

theorem afterMove_goes (free : ¬ s.boatStalls k) (off : (s.tube k).boat.delivered ≠ (s.tube k).boat.target) :
    s.afterMove k = (s.boatChecked k).modBoat k fun b => { b with motionTimer := some (s.tube k).header.motionPeriod } :=
  (if_neg free).trans (if_neg off)

theorem arrived_tube (s : State) (k : Tube) (n : Nat) : (s.boatDone k n).tube k
    = { s.tube k with summary := { (s.tube k).summary with boatArrived := true } } :=
  modSummary_tube s k fun f => { f with boatArrived := true }

theorem afterMove_leaves (s : State) (k : Tube) : (∀ j, j ≠ k → (s.afterMove k).tube j = s.tube j)
    ∧ (∀ a, (s.afterMove k).underway a = s.underway a) ∧ ((s.afterMove k).tube k).mode = (s.tube k).mode
    ∧ ((s.afterMove k).tube k).queue = (s.tube k).queue
    ∧ ((s.afterMove k).tube k).boat.delivered = (s.tube k).boat.delivered := by
  have checked := boatChecked_tube s k
  have away : ∀ (f : Boat → Boat) j, j ≠ k → ((s.boatChecked k).modBoat k f).tube j = s.tube j := fun f j other =>
    (tube_setTube_ne _ _ other).trans (boatChecked_others s other)
  by_cases stall : s.boatStalls k
  · rw [afterMove_stalls stall]
    refine ⟨away fun b => { b with state := .stalled, direction := .none, motionTimer := none }, fun _ => rfl, ?_⟩
    rw [show ∀ v q, (State.requestAbort v q).tube k = v.tube k from fun _ _ => rfl, modBoat_tube, checked]
    exact ⟨rfl, rfl, rfl⟩
  · by_cases there : (s.tube k).boat.delivered = (s.tube k).boat.target
    · rw [afterMove_arrives stall there]
      refine ⟨fun j other => (tube_setTube_ne _ _ other).trans (away _ j other), fun _ => rfl, ?_⟩
      rw [arrived_tube, modBoat_tube, checked]
      exact ⟨rfl, rfl, rfl⟩
    · rw [afterMove_goes stall there]
      refine ⟨away _, fun _ => rfl, ?_⟩
      rw [modBoat_tube, checked]
      exact ⟨rfl, rfl, rfl⟩

/-- R119: a check that stalls the boat. -/
theorem afterMove_stalled (stall : s.boatStalls k) :
    (s.afterMove k).abort.requests = s.abort.requests
      ++ [⟨k, .boatStall, none, (s.boatSample k).value, (s.tube k).boat.delivered⟩]
    ∧ ((s.afterMove k).tube k).boat.state = .stalled ∧ ((s.afterMove k).tube k).boat.direction = .none
    ∧ ((s.afterMove k).tube k).boat.motionTimer = none
    ∧ ((s.afterMove k).tube k).boat.target = (s.tube k).boat.target := by
  rw [afterMove_stalls stall, show ∀ v q, (State.requestAbort v q).tube k = v.tube k from fun _ _ => rfl, modBoat_tube,
    boatChecked_tube]
  exact ⟨rfl, rfl, rfl, rfl, rfl⟩

/-- R118: a move that reaches the target. -/
theorem afterMove_arrived (free : ¬ s.boatStalls k) (there : (s.tube k).boat.delivered = (s.tube k).boat.target) :
    (s.afterMove k).abort = s.abort ∧ ((s.afterMove k).tube k).summary.boatArrived = true
    ∧ (∃ v : State, v.notices.buffer = s.notices.buffer ∧ s.afterMove k = v.place (doneNotice 2 k
        (some (s.tube k).boat.lastChannel) (s.tube k).boat.lastTicket (s.tube k).boat.delivered (wordOf (s.tube k).boat.expiries)))
    ∧ ((s.afterMove k).tube k).boat.state = positionState (s.tube k).header.inThreshold (s.tube k).boat.delivered
    ∧ ((s.afterMove k).tube k).boat.direction = .none ∧ ((s.afterMove k).tube k).boat.motionTimer = none
    ∧ ((s.afterMove k).tube k).boat.target = (s.tube k).boat.delivered := by
  let rested := (s.boatChecked k).modBoat k fun b => b.rest (s.tube k).header.inThreshold
  have own : rested.tube k = { s.tube k with
      boat := ((s.tube k).boat.checked (s.tube k).header (s.boatSample k)).rest (s.tube k).header.inThreshold } :=
    (modBoat_tube (s.boatChecked k) k fun b => b.rest (s.tube k).header.inThreshold).trans (by rw [boatChecked_tube])
  have last : s.afterMove k = rested.boatDone k (s.tube k).boat.expiries := afterMove_arrives free there
  have placed : rested.boatDone k (s.tube k).boat.expiries
      = (rested.modSummary k fun f => { f with boatArrived := true }).place (doneNotice 2 k
        (some (rested.tube k).boat.lastChannel) (rested.tube k).boat.lastTicket (rested.tube k).boat.delivered
        (wordOf (s.tube k).boat.expiries)) := rfl
  rw [last, arrived_tube, placed, own]
  exact ⟨rfl, rfl, ⟨rested.modSummary k fun f => { f with boatArrived := true }, rfl, rfl⟩, rfl, rfl, rfl, rfl⟩

/-- R119: a move that leaves the boat on its way. -/
theorem afterMove_gone (free : ¬ s.boatStalls k) (off : (s.tube k).boat.delivered ≠ (s.tube k).boat.target) :
    (s.afterMove k).abort = s.abort ∧ ((s.afterMove k).tube k).boat = { (s.tube k).boat with
      stall := stallCounter (s.tube k).header (s.boatSample k) (s.tube k).boat.delivered (s.tube k).boat.stall
      motionTimer := some (s.tube k).header.motionPeriod } := by
  rw [afterMove_goes free off, modBoat_tube, boatChecked_tube]
  exact ⟨rfl, rfl⟩

end Sys2Proof.Machine

/-! The motion expiry (R112, R116 to R119): the statement. -/

namespace Sys2Proof.Machine

variable {s w t : State}

/-- A notice that an event places last. -/
theorem Finished.reports_placed {v : State} {n : Notice} (after : Finished w t) (placed : w = v.place n)
    (buffer : v.notices.buffer = s.notices.buffer) : Reports s t n := by
  subst placed
  exact Reports.of_place (u := v) buffer after.clock after.buffer

/-- Settles O42, part by part. -/
theorem motionExpiryMovesTheBoat : Obligations.MotionExpiryMovesTheBoat := by
  refine ⟨fun h temperature remaining => ⟨fun i reaches first => ?bands, fun above => ?above⟩, fun s k => rfl,
    fun b step => ⟨fun up => ⟨movedPosition_inward up step, fun off => ?inward⟩,
      fun down => ⟨movedPosition_outward down step, fun off => ?outward⟩⟩,
    fun h m position counter => ⟨distance_eq _ _, stallCounter_eq h m position counter⟩, fun _ _ => rfl, ?expiry⟩
  case bands =>
    unfold motionStep
    rw [bandStepOf_first i reaches first]
  case above =>
    unfold motionStep
    rw [bandStepOf_none above]
    split
    · exact Nat.zero_min _
    · rfl
  case inward =>
    rw [heading_of_other (Ne.symm off)]
    exact if_pos (Nat.lt_of_le_of_ne up fun same => off (BitVec.eq_of_toNat_eq same))
  case outward =>
    rw [heading_of_other (Ne.symm off)]
    exact if_neg (Nat.not_lt.mpr down)
  case expiry =>
    intro s k r timer ok u x b step p m stall quiet
    have run : exec (.motionExpiry k) s = .next (s.finish ((u.sailed k p).afterMove k)) := by
      rw [show p = u.nextPosition k from rfl, ← motionExpired_eq]
      unfold exec execMotionExpiry; simp only [timer]; rfl
    have event : Local k u ((u.sailed k p).afterMove k) := by
      rw [show p = u.nextPosition k from rfl, ← motionExpired_eq]
      exact Local.motionExpired u
    obtain ⟨clock, kept⟩ := expired_kept event
    have after := Finished.finish s ((u.sailed k p).afterMove k)
    have sailed := sailed_tube u k p
    obtain ⟨away, under, mode, queue, stands⟩ := afterMove_leaves (u.sailed k p) k
    rw [sailed] at mode queue stands
    obtain ⟨aborts, notices, measured⟩ := sailed_kept u k p
    have sample : (u.sailed k p).boatSample k = m := congrArg (fun y : Measured => (y.tubes.get k).boat) measured
    have stall_iff : (u.sailed k p).boatStalls k ↔ stall := by
      unfold State.boatStalls
      rw [sailed, sample]
      exact stalls_iff
    have moved := after.tubes k
    have idle : quiet → (((u.sailed k p).afterMove k).tube k).mode ≠ .run ∨ (((u.sailed k p).afterMove k).tube k).queue = [] :=
      fun rests => by rw [mode, queue]; exact rests
    have still : quiet → ∀ a, (s.finish ((u.sailed k p).afterMove k)).underway a = (u.sailed k p).underway a :=
      fun rests a => (expired_underway event (expired_quiet event
        (fun j other => (away j other).trans (sailed_others u p other)) (idle rests)) ok a).trans (under a)
    have boat : quiet → ((s.finish ((u.sailed k p).afterMove k)).tube k).boat = (((u.sailed k p).afterMove k).tube k).boat :=
      fun rests => (moved.quiet (idle rests)).boat
    refine ⟨_, run, clock, kept, moved.mode.trans mode, moved.boatDelivered.trans stands,
      fun rests off => (still rests _).trans (sailed_moves off), fun rests same a => (still rests a).trans (sailed_rests same a),
      fun stalled => ?stalls, fun free there => ?arrives, fun free off => ?goes⟩
    case stalls =>
      obtain ⟨requests, last⟩ := afterMove_stalled (stall_iff.mpr stalled)
      rw [sample, sailed] at requests
      rw [sailed] at last
      refine ⟨?_, fun rests => ?_⟩
      · rw [after.abort, requests, aborts]
        rfl
      · rw [boat rests]
        exact last
    case arrives =>
      have arrived := afterMove_arrived (k := k) (fun c => free (stall_iff.mp c)) (by rw [sailed]; exact there)
      rw [sailed] at arrived
      obtain ⟨requests, summary, ⟨v, buffer, placed⟩, last⟩ := arrived
      refine ⟨(after.abort.trans requests).trans aborts, moved.arrived summary, ?_, fun rests => ?_⟩
      · exact after.reports_placed placed (buffer.trans (congrArg (·.buffer) notices))
      · rw [boat rests]
        exact last
    case goes =>
      have gone := afterMove_gone (k := k) (fun c => free (stall_iff.mp c)) (by rw [sailed]; exact off)
      rw [sailed, sample] at gone
      obtain ⟨requests, last⟩ := gone
      refine ⟨(after.abort.trans requests).trans aborts, fun rests => ?_⟩
      rw [boat rests, last]
      rfl

end Sys2Proof.Machine

/-! The sample expiry (R100, R102): a run that ends may be followed, in the same event, by the start of another. -/

namespace Sys2Proof.Machine

/-- The entry that opens reactive line 0, and the close of the same line by another channel behind it. -/
def openThenClose : List HeldEntry :=
  [⟨3, 2, .line .i0 true false 1, 1000, 0, none, .waiting, none, none, true⟩,
    ⟨4, 1, .line .i0 true false 1, 0, 0, none, .waiting, none, none, true⟩]

/-- A tube in RUN whose purge ends with its next sample, the boat in position and the furnace stable, with no release gap,
and the two entries held: their gate opens as the run ends. -/
def endingTube : TubeState := { TubeState.reset with
  mode := .run
  queue := openThenClose
  ramp := { Ramp.reset with thermal := .stable }
  boat := { Boat.reset with bound := true, state := .inPos, target := 2000, delivered := 2000 }
  gas := { Gas.reset with
    atmosphere := .purging
    lines := { Eight.fill LineRec.reset with
      a0 := ⟨true, true, false, 0, 1, 30, 2, 0⟩
      a1 := ⟨true, false, true, 1000, 1, 0, 1, 0⟩ }
    accumulator := 1995
    sampleTimer := some 10
    limitTimer := some 30000
    run := some ⟨.purge, 1000, .purge, 2000, .flowing, 0, 4⟩ }
  header := { TubeState.reset.header with
    releaseGap := 0, purgeLine := .i1, purgeFlow := 1000, standbyFlow := 200, purgeVolume := 2, clearingVolume := 3
    samplePeriod := 1000, purgeLimit := 60 } }

def purgeEnding : State := { State.reset with
  tubes := { State.reset.tubes with a0 := endingTube }
  budget := { State.reset.budget with capacity := 30 } }

/-- What the sample leaves of the tube. -/
def purgeEnded : TubeState := match exec (.sampleExpiry .i0) purgeEnding with
  | .next t => t.tube .i0
  | _ => endingTube

/-- R38, R42, R93, R94, R103: the end of the purge releases both entries, and the close begins a clearing, which sets the
accumulator to 0 (R98). -/
theorem purgeEnded_clears : purgeEnded.gas.accumulator = 0 ∧ purgeEnded.gas.atmosphere = .clearing ∧ purgeEnded.queue = [] := by
  decide

/-- Refutes O43: the accumulator does not hold the run's volume after every expiry that ends a run. A tube in RUN examines
its held writes at the end of the purge; one that opens a reactive line and one that closes it are both released, and
the clearing that follows sets the accumulator back to 0. -/
theorem not_sampleExpiryCountsTheVolume : ¬ Obligations.SampleExpiryCountsTheVolume := by
  intro h
  obtain ⟨t, run, -, -, -, ended⟩ := h purgeEnding .i0 10 ⟨.purge, 1000, .purge, 2000, .flowing, 0, 4⟩ rfl rfl
  have last : purgeEnded = t.tube .i0 := by
    unfold purgeEnded
    rw [run]
  obtain ⟨total, -⟩ := ended (by decide)
  rw [← last, purgeEnded_clears.1] at total
  exact absurd total (by decide)

end Sys2Proof.Machine

/-! Adoption (R109) where the purge line is not bound: its record's address is then no line's own. -/

namespace Sys2Proof.Machine

/-- Reactive line 1 is delivered at address 0, the address that the records of unbound lines hold; the purge line, line 0,
is unbound. -/
def unboundPurge : TubeBinding :=
  { TubeBinding.empty with lines := TubeBinding.empty.lines.set .i1 ⟨true, 0, true, false⟩ }

/-- T0 has been adopted but for its last event: its only word, flow 500 of line 1, has been read, and another requester's
access holds the bus. -/
def adoptingUnbound : State := { State.reset with
  root := { State.reset.root with tubes := State.reset.root.tubes.set .i0 ⟨0x100, true, false, false⟩ }
  binding := State.reset.binding.set .i0 unboundPurge
  tubes := State.reset.tubes.set .i0
    { TubeState.reset with header := { TubeState.reset.header with purgeLine := .i0, abortPurgeFlow := 1000 } }
  budget := { State.reset.budget with capacity := 30 }
  bus := ⟨some ⟨.scan, 0x400, none, false⟩, Five.fill 0⟩
  loader := ⟨.loading, .none, .adopt .i0 [500], 0, 0, false⟩ }

/-- What the adoption leaves under way for line 1. -/
def adoptedUnderway : Option Word := match exec (.tubeAdopt 1) adoptingUnbound with
  | .next t => t.underway (adoptingUnbound.lineAddr .i0 .i1)
  | _ => none

/-- R168: the clearing's flow replaces the pending close at the same address. -/
theorem adoptedUnderway_flow : adoptedUnderway = some 1000 := by decide

/-- Refutes O9: the closed reactive line's 0 is not always left under way. Where the purge line is unbound, nothing keeps
its record's address apart from a bound line's, and the clearing places its flow over the close. -/
theorem not_tubeIsAdopted : ¬ Obligations.TubeIsAdopted := by
  intro h
  have plan : (adoptingUnbound.binding.get .i0).plan = [0] := by decide
  obtain ⟨-, forwarded⟩ := h adoptingUnbound .i0 [500] [] (fun _ => 500) (by decide) (by decide) (by decide) rfl
    (by rw [plan]; decide)
  rw [plan] at forwarded
  obtain ⟨t, run, adopted⟩ := forwarded ⟨.scan, 0x400, none, false⟩ 1 rfl nofun rfl (fun _ _ _ _ none_ => by cases none_)
    fun i x at_ => by
      cases i with
      | zero => rfl
      | succ i => cases at_
  have last : adoptedUnderway = t.underway (adoptingUnbound.lineAddr .i0 .i1) := by
    unfold adoptedUnderway
    rw [run]
  obtain ⟨closed, -⟩ := adopted.writes rfl (by constructor <;> decide)
  have zero := closed .i1 (.inl (by decide)) (.inr (by decide))
  rw [← last, adoptedUnderway_flow] at zero
  exact absurd zero (by decide)

end Sys2Proof.Machine

/-! The tests of a tube table (R73, R90, R97, R111, R179, R189): its words, its header, and the descriptors of its bound
channels. -/

namespace Sys2Proof.Machine

variable {ws : List Word} {c b i : Nat} {d : DescWords} {m : Mark}

/-! ## The header's ranges -/

/-- The first listed number whose test fails. -/
theorem find?_failed : ∀ {l : List (Nat × Bool)}, l.Pairwise (fun p q => p.1 < q.1) → (i, false) ∈ l →
    (∀ j, j < i → (j, false) ∉ l) → l.find? (fun p => !p.2) = some (i, false)
  | [], _, mem, _ => nomatch mem
  | (j, true) :: l, sorted, mem, first => by
    rw [List.find?_cons_of_neg Bool.false_ne_true]
    refine find?_failed (List.pairwise_cons.mp sorted).2 ((List.mem_cons.mp mem).resolve_left ?_) fun k before in_ =>
      first k before (.tail _ in_)
    rintro ⟨⟩
  | (j, false) :: l, sorted, mem, first => by
    rw [List.find?_cons_of_pos rfl]
    rcases List.mem_cons.mp mem with same | later
    · rw [same]
    · exact absurd (.head _) (first j ((List.pairwise_cons.mp sorted).1 _ later))

/-- R73, R97, R111: header word `i` is out of its range. -/
def OutOfRange (ws : List Word) (i : Nat) : Prop :=
  let v (i : Nat) : Nat := (ws.getD i 0).toNat
  i = 2 ∧ (v 2 < 250 ∨ 10000 < v 2) ∨ (i = 3 ∨ i = 5 ∨ i = 22 ∨ i = 23 ∨ i = 24 ∨ i = 25) ∧ 1000 < v i
    ∨ i = 4 ∧ (v 4 < 250 ∨ 60000 < v 4) ∨ (i = 8 ∨ i = 10 ∨ i = 11 ∨ i = 12 ∨ i = 14 ∨ i = 16) ∧ v i = 0
    ∨ i = 9 ∧ v 8 < v 9 ∨ i = 13 ∧ (v 13 < 250 ∨ 10000 < v 13) ∨ i = 15 ∧ (v 15 < 100 ∨ 5000 < v 15)
    ∨ i = 27 ∧ (v 27 = 0 ∨ 1000 < v 27) ∨ i = 29 ∧ v 29 % 16 = 0

/-- The numbers of the header words that have a range, and whether a word lies in it. -/
def rangedWords : List Nat := [2, 3, 4, 5, 8, 9, 10, 11, 12, 13, 14, 15, 16, 22, 23, 24, 25, 27, 29]

def wordRanged (ws : List Word) (i : Nat) : Bool :=
  let n := (ws.getD i 0).toNat
  match i with
  | 2 => decide (250 ≤ n) && decide (n ≤ 10000)
  | 4 => decide (250 ≤ n) && decide (n ≤ 60000)
  | 3 | 5 | 22 | 23 | 24 | 25 => decide (n ≤ 1000)
  | 8 | 10 => ws.getD i 0 != 0
  | 9 => decide (n ≤ (ws.getD 8 0).toNat)
  | 11 | 12 | 14 | 16 => decide (1 ≤ n)
  | 13 => decide (250 ≤ n) && decide (n ≤ 10000)
  | 15 => decide (100 ≤ n) && decide (n ≤ 5000)
  | 27 => decide (1 ≤ n) && decide (n ≤ 1000)
  | 29 => decide (1 ≤ bitsOf (ws.getD i 0) 3 0) && decide (bitsOf (ws.getD i 0) 3 0 ≤ 15)
  | _ => true

theorem ranges_eq (ws : List Word) : (Header.ofWords ws).ranges = rangedWords.map fun i => (i, wordRanged ws i) := rfl

theorem word_zero (w : Word) : w = 0#16 ↔ w.toNat = 0 :=
  ⟨fun same => by rw [same]; rfl, fun zero => BitVec.eq_of_toNat_eq zero⟩

theorem stallCount_eq (w : Word) : bitsOf w 3 0 = w.toNat % 16 := bitsOf_low w 3

theorem outOfRange_of_wrong (mem : i ∈ rangedWords) (wrong : wordRanged ws i = false) : OutOfRange ws i := by
  simp only [rangedWords, List.mem_cons, List.not_mem_nil, or_false] at mem
  unfold OutOfRange
  rcases mem with rfl | rfl | rfl | rfl | rfl | rfl | rfl | rfl | rfl | rfl | rfl | rfl | rfl | rfl | rfl | rfl | rfl | rfl | rfl
  all_goals
    simp [wordRanged, stallCount_eq, word_zero, -List.getD_eq_getElem?_getD] at wrong ⊢
    omega

theorem wrong_of_outOfRange (wrong : OutOfRange ws i) : i ∈ rangedWords ∧ wordRanged ws i = false := by
  unfold OutOfRange at wrong
  rcases wrong with ⟨rfl, h⟩ | ⟨rfl | rfl | rfl | rfl | rfl | rfl, h⟩ | ⟨rfl, h⟩ | ⟨rfl | rfl | rfl | rfl | rfl | rfl, h⟩ | ⟨rfl, h⟩
    | ⟨rfl, h⟩ | ⟨rfl, h⟩ | ⟨rfl, h⟩ | ⟨rfl, h⟩
  all_goals
    refine ⟨by decide, ?_⟩
    simp [wordRanged, stallCount_eq, word_zero, -List.getD_eq_getElem?_getD] at h ⊢
    omega

theorem wrong_iff (ws : List Word) (i : Nat) : (i, false) ∈ (Header.ofWords ws).ranges ↔ OutOfRange ws i := by
  rw [ranges_eq, List.mem_map]
  constructor
  · rintro ⟨j, mem, same⟩
    obtain ⟨rfl, wrong⟩ := Prod.mk.inj same
    exact outOfRange_of_wrong mem wrong
  · intro wrong
    obtain ⟨mem, bad⟩ := wrong_of_outOfRange wrong
    exact ⟨i, mem, by rw [bad]⟩

theorem rangedWords_sorted : rangedWords.Pairwise (· < ·) := by decide

theorem firstWrong_some (wrong : OutOfRange ws i) (first : ∀ j, j < i → ¬ OutOfRange ws j) :
    (Header.ofWords ws).firstWrong = some i := by
  have found := find?_failed (l := (Header.ofWords ws).ranges) (i := i) (by
    rw [ranges_eq, List.pairwise_map]; exact rangedWords_sorted) ((wrong_iff ws i).mpr wrong) fun j before mem =>
      first j before ((wrong_iff ws j).mp mem)
  unfold Header.firstWrong
  rw [found]
  rfl

theorem firstWrong_none (none_ : ∀ i, ¬ OutOfRange ws i) : (Header.ofWords ws).firstWrong = none := by
  have found : (Header.ofWords ws).ranges.find? (fun p => !p.2) = none := List.find?_eq_none.mpr fun p mem bad => by
    obtain ⟨i, ok⟩ := p
    cases ok
    · exact none_ i ((wrong_iff ws i).mp mem)
    · cases bad
  unfold Header.firstWrong
  rw [found]
  rfl

/-- R179: the two header tests. -/
theorem headerFault_check (fails : checkWord (ws.take 31) ≠ ws.getD 31 0) : headerFault ws = some ⟨.header, none, 31⟩ :=
  if_pos fails

theorem headerFault_range (passes : checkWord (ws.take 31) = ws.getD 31 0) (wrong : OutOfRange ws i)
    (first : ∀ j, j < i → ¬ OutOfRange ws j) : headerFault ws = some ⟨.header, none, wordOf i⟩ := by
  unfold headerFault
  rw [if_neg (not_not_intro passes), firstWrong_some wrong first]
  rfl

theorem headerFault_none (passes : checkWord (ws.take 31) = ws.getD 31 0) (ranges : ∀ i, ¬ OutOfRange ws i) :
    headerFault ws = none := by
  unfold headerFault
  rw [if_neg (not_not_intro passes), firstWrong_none ranges]
  rfl

/-! ## The descriptors -/

/-- The descriptor of channel `c`. -/
def tableDesc (ws : List Word) (c : Nat) : DescWords :=
  let w (i : Nat) : Word := ws.getD i 0
  ⟨w (32 + c * 8), w (33 + c * 8), w (34 + c * 8), w (35 + c * 8), w (36 + c * 8), w (37 + c * 8)⟩

theorem getD_drop (ws : List Word) (n j : Nat) : (ws.drop n).getD j 0 = ws.getD (n + j) 0 := by
  rw [List.getD_eq_getElem?_getD, List.getD_eq_getElem?_getD, List.getElem?_drop]

theorem tableDescriptor_eq (ws : List Word) (c : Nat) : tableDescriptor ws c = tableDesc ws c := by
  have word : ∀ j, (ws.drop (32 + c * 8)).getD j 0 = ws.getD (32 + j + c * 8) 0 := fun j => by
    rw [getD_drop, Nat.add_right_comm]
  unfold tableDescriptor DescWords.ofList
  rw [word, word, word, word, word, word]
  rfl

/-- A channel whose kind code is ZONE, LINE or BOAT. -/
def TableBound (ws : List Word) (c : Nat) : Prop :=
  c < 64 ∧ 2 ≤ (ws.getD (32 + c * 8) 0).toNat % 8 ∧ (ws.getD (32 + c * 8) 0).toNat % 8 ≤ 4

theorem boundKind_iff (inside : c < 64) : (tableDescriptor ws c).isBoundKind = true ↔ TableBound ws c := by
  rw [tableDescriptor_eq, isBoundKind_iff]
  exact ⟨fun kind => ⟨inside, kind⟩, fun bound => bound.2⟩

theorem mem_boundChannels : c ∈ boundChannels ws ↔ TableBound ws c := by
  unfold boundChannels
  rw [List.mem_filter, List.mem_range]
  exact ⟨fun ⟨inside, kind⟩ => (boundKind_iff inside).mp kind, fun bound => ⟨bound.1, (boundKind_iff bound.1).mpr bound⟩⟩

/-- The lowest-numbered bound channel with a property. -/
theorem boundChannels_first {q : Nat → Bool} (bound : TableBound ws c) (named : q c = true)
    (first : ∀ b, b < c → TableBound ws b → q b = false) : (boundChannels ws).find? q = some c := by
  unfold boundChannels
  rw [List.find?_filter, List.find?_range_eq_some]
  refine ⟨by simp only [(boundKind_iff bound.1).mpr bound, named, and_self, decide_true], List.mem_range.mpr bound.1,
    fun b before => ?_⟩
  simp only [Bool.not_eq_true', decide_eq_false_iff_not]
  rintro ⟨kind, named'⟩
  rw [first b before ((boundKind_iff (Nat.lt_trans before bound.1)).mp kind)] at named'
  cases named'

theorem boundChannels_none {q : Nat → Bool} (none_ : ∀ c, TableBound ws c → q c = false) :
    (boundChannels ws).find? q = none :=
  List.find?_eq_none.mpr fun c mem => by rw [none_ c (mem_boundChannels.mp mem)]; exact Bool.false_ne_true

/-! ## The check words and the forms -/

theorem tableCheckOk_iff : tableCheckOk ws c = true ↔ checkWord (tableDesc ws c).toList = ws.getD (39 + c * 8) 0 := by
  unfold tableCheckOk
  rw [beq_iff_eq, tableDescriptor_eq, show 32 + c * 8 + 7 = 39 + c * 8 from Nat.add_right_comm 32 (c * 8) 7]

/-- R12, R179: the form of a bound channel's descriptor, by its kind code. -/
def TableFormed (ws : List Word) (c : Nat) : Prop :=
  let v (i : Nat) : Nat := (ws.getD i 0).toNat
  let d := tableDesc ws c
  let kind := v (32 + c * 8) % 8
  (kind = 2 → d.index ≤ 4 ∧ 1 ≤ v (37 + c * 8) ∧ v (37 + c * 8) ≤ 500 ∧ v (36 + c * 8) ≤ v (35 + c * 8))
  ∧ (kind = 3 → d.index ≤ 7 ∧ 1 ≤ d.weight ∧ d.weight ≤ 8 ∧ 1 ≤ d.devCount ∧ d.devCount ≤ 15)
  ∧ (kind ≠ 3 → d.reactive = false ∧ d.purge = false)
  ∧ (d.reactive = true → d.manual = false ∧ d.purge = false)

theorem wellFormed_table (bound : TableBound ws c) : (tableDescriptor ws c).wellFormed = true ↔ TableFormed ws c := by
  obtain ⟨-, low, high⟩ := bound
  have index := DescWords.index_eq (tableDesc ws c)
  have weight := DescWords.weight_eq (tableDesc ws c)
  have devCount := DescWords.devCount_eq (tableDesc ws c)
  rw [tableDescriptor_eq]
  refine (wellFormed_iff (tableDesc ws c)).trans ?_
  unfold TableFormed
  dsimp only
  rw [index, weight, devCount]
  unfold DescWords.reactive DescWords.purge DescWords.manual
  change 2 ≤ (tableDesc ws c).w0.toNat % 8 at low
  change (tableDesc ws c).w0.toNat % 8 ≤ 4 at high
  have kind : (ws.getD (32 + c * 8) 0).toNat % 8 = (tableDesc ws c).w0.toNat % 8 := rfl
  rw [kind]
  generalize (tableDesc ws c).w0.getLsbD 5 = manual
  generalize (tableDesc ws c).w0.getLsbD 6 = reactive
  generalize (tableDesc ws c).w0.getLsbD 7 = purge
  generalize (tableDesc ws c).w0.toNat % 8 = kind at low high ⊢
  constructor
  · rintro ⟨-, -, zone, line, marks, -, alone, apart⟩
    exact ⟨zone, line,
      fun off => ⟨Bool.eq_false_iff.mpr fun on => off (marks (.inl on)), Bool.eq_false_iff.mpr fun on => off (marks (.inr on))⟩,
      fun on => ⟨Bool.eq_false_iff.mpr fun m => alone ⟨m, on⟩, Bool.eq_false_iff.mpr fun p => apart ⟨p, on⟩⟩⟩
  · rintro ⟨zone, line, marks, apart⟩
    refine ⟨by omega, fun one => by omega, zone, line, fun on => ?_, fun _ => by omega, fun ⟨m, on⟩ => ?_, fun ⟨p, on⟩ => ?_⟩
    · refine Classical.byContradiction fun off => ?_
      obtain ⟨reactiveOff, purgeOff⟩ := marks off
      rcases on with on | on
      · rw [reactiveOff] at on; cases on
      · rw [purgeOff] at on; cases on
    · rw [(apart on).1] at m; cases m
    · rw [(apart on).2] at p; cases p

/-- R179: the CHECK and FORM tests. -/
theorem descriptorFault_check (bound : TableBound ws c) (bad : ¬ checkWord (tableDesc ws c).toList = ws.getD (39 + c * 8) 0)
    (first : ∀ b, b < c → TableBound ws b → checkWord (tableDesc ws b).toList = ws.getD (39 + b * 8) 0) :
    descriptorFault ws = some (channelFault .check ws c) := by
  have named : (boundChannels ws).find? (fun c => !tableCheckOk ws c) = some c := by
    refine boundChannels_first bound ?_ fun b before inside => ?_
    · rw [Bool.eq_false_iff.mpr fun ok => bad (tableCheckOk_iff.mp ok)]; rfl
    · rw [tableCheckOk_iff.mpr (first b before inside)]; rfl
  unfold descriptorFault
  rw [named]

theorem checks_none (checks : ∀ c, TableBound ws c → checkWord (tableDesc ws c).toList = ws.getD (39 + c * 8) 0) :
    (boundChannels ws).find? (fun c => !tableCheckOk ws c) = none :=
  boundChannels_none fun c bound => by rw [tableCheckOk_iff.mpr (checks c bound)]; rfl

theorem descriptorFault_form (checks : ∀ c, TableBound ws c → checkWord (tableDesc ws c).toList = ws.getD (39 + c * 8) 0)
    (bound : TableBound ws c) (bad : ¬ TableFormed ws c) (first : ∀ b, b < c → TableBound ws b → TableFormed ws b) :
    descriptorFault ws = some (channelFault .form ws c) := by
  have named : (boundChannels ws).find? (fun c => !(tableDescriptor ws c).wellFormed) = some c := by
    refine boundChannels_first bound ?_ fun b before inside => ?_
    · rw [Bool.eq_false_iff.mpr fun ok => bad ((wellFormed_table bound).mp ok)]; rfl
    · rw [(wellFormed_table inside).mpr (first b before inside)]; rfl
  unfold descriptorFault
  rw [checks_none checks, named]
  rfl

theorem descriptorFault_none (checks : ∀ c, TableBound ws c → checkWord (tableDesc ws c).toList = ws.getD (39 + c * 8) 0)
    (forms : ∀ c, TableBound ws c → TableFormed ws c) : descriptorFault ws = none := by
  unfold descriptorFault
  rw [checks_none checks, boundChannels_none fun c bound => by rw [(wellFormed_table bound).mpr (forms c bound)]; rfl]
  rfl

end Sys2Proof.Machine

/-! The bindings and the purge line of a tube table (R13, R90, R97, R179). -/

namespace Sys2Proof.Machine

variable {s u w : State} {k : Tube} {ws : List Word} {c b : Nat} {d e : DescWords} {m : Mark} {x : Addr} {ptr : Word}
  {l : Line} {z : Zone}

/-! ## Addresses that a binding may not take (R13) -/

theorem rootWordAt_some (root x : Addr) : (rootWordAt root x).isSome = true ↔ (x - root).toNat < 64 := by
  unfold rootWordAt
  split
  · next inside => exact ⟨fun _ => inside, fun _ => rfl⟩
  · next outside => exact ⟨nofun, fun inside => absurd inside outside⟩

/-- R13: an address inside the root block, a table, the ring, or bound already. -/
def Forbidden (s : State) (ptr : Word) (x : Addr) : Prop :=
  (x - s.root.address).toNat < 64 ∨ (x - unitAddress ptr).toNat < 544
    ∨ (∃ u, s.present u = true
        ∧ ((x - unitAddress (s.root.tubes.get u).pointer).toNat < 544 ∨ x ∈ (s.binding.get u).plan))
    ∨ (x - unitAddress s.notices.ringBase).toNat < 16 * 2 ^ s.notices.sizeCode * 8

theorem mem_presentTubes {j : Tube} : j ∈ s.presentTubes ↔ s.present j = true := by
  unfold State.presentTubes
  rw [List.mem_filter]
  exact ⟨fun h => h.2, fun h => ⟨Ix4.mem_all j, h⟩⟩

theorem forbidden_iff : s.forbiddenAddress ptr x = true ↔ Forbidden s ptr x := by
  unfold State.forbiddenAddress Forbidden State.inRing NoticeWriter.ringSize inRange
  simp only [Bool.or_eq_true, rootWordAt_some, decide_eq_true_eq, List.any_eq_true, mem_presentTubes, List.contains_iff_mem,
    or_assoc]

theorem clashes_iff : d.clashes e = true ↔
    d.mark = e.mark ∧ (d.addr ≠ e.addr ∨ d.reactive ≠ e.reactive ∨ d.purge ≠ e.purge)
    ∨ d.mark ≠ e.mark ∧ d.addr = e.addr := by
  unfold DescWords.clashes
  split
  · next same => simp only [same, Bool.or_eq_true, bne_iff_ne, or_assoc, true_and, ne_eq, not_true, false_and, or_false]
  · next other => simp only [other, beq_iff_eq, false_and, ne_eq, not_false_eq_true, true_and, false_or]

/-- R13: the binding of channel `c` conflicts. -/
def TableConflicts (s : State) (ptr : Word) (ws : List Word) (c : Nat) : Prop :=
  Forbidden s ptr (tableDesc ws c).addr ∨ ∃ b, b < c ∧ TableBound ws b
    ∧ ((tableDesc ws b).mark = (tableDesc ws c).mark ∧ ((tableDesc ws b).addr ≠ (tableDesc ws c).addr
        ∨ (tableDesc ws b).reactive ≠ (tableDesc ws c).reactive ∨ (tableDesc ws b).purge ≠ (tableDesc ws c).purge)
      ∨ (tableDesc ws b).mark ≠ (tableDesc ws c).mark ∧ (tableDesc ws b).addr = (tableDesc ws c).addr)

theorem conflict_iff : (s.forbiddenAddress ptr (tableDescriptor ws c).addr
    || (boundChannels ws).any fun b => decide (b < c) && (tableDescriptor ws b).clashes (tableDescriptor ws c)) = true
    ↔ TableConflicts s ptr ws c := by
  rw [Bool.or_eq_true, List.any_eq_true, tableDescriptor_eq, forbidden_iff]
  unfold TableConflicts
  refine or_congr_right (exists_congr fun b => ?_)
  rw [mem_boundChannels, Bool.and_eq_true, decide_eq_true_eq, tableDescriptor_eq, clashes_iff]
  exact and_left_comm

theorem bindingConflict_some (bound : TableBound ws c) (bad : TableConflicts s ptr ws c)
    (first : ∀ b, b < c → TableBound ws b → ¬ TableConflicts s ptr ws b) : s.bindingConflict ptr ws = some c :=
  boundChannels_first bound (conflict_iff.mpr bad) fun b before inside =>
    Bool.eq_false_iff.mpr fun h => first b before inside (conflict_iff.mp h)

theorem bindingConflict_none (none_ : ∀ c, TableBound ws c → ¬ TableConflicts s ptr ws c) : s.bindingConflict ptr ws = none :=
  boundChannels_none fun c bound => Bool.eq_false_iff.mpr fun h => none_ c bound (conflict_iff.mp h)

/-- R13: the table covers an address bound by a present tube. -/
theorem tableCovers_iff : s.tableCovers ptr = true ↔
    ∃ u x, s.present u = true ∧ x ∈ (s.binding.get u).plan ∧ (x - unitAddress ptr).toNat < 544 := by
  unfold State.tableCovers inRange
  simp only [List.any_eq_true, mem_presentTubes, decide_eq_true_eq, exists_and_left]

/-! ## What a mark is bound by -/

/-- R13: `c` is the lowest-numbered channel bound to `m`. -/
def Lowest (ws : List Word) (m : Mark) (c : Nat) : Prop :=
  TableBound ws c ∧ (tableDesc ws c).mark = m ∧ ∀ b, b < c → TableBound ws b → (tableDesc ws b).mark ≠ m

/-- A channel that names an actuator is bound. -/
theorem bound_of_mark (inside : c < 64) (named : (tableDesc ws c).mark ≠ .none) : TableBound ws c := by
  rw [← boundKind_iff inside, tableDescriptor_eq]
  unfold DescWords.isBoundKind
  unfold DescWords.mark at named
  split at named
  · rfl
  · rfl
  · rfl
  · exact absurd rfl named

theorem find?_descriptors (ws : List Word) (m : Mark) : (tableDescriptors ws).find? (fun d => decide (d.mark = m))
    = ((List.range 64).find? fun c => decide ((tableDesc ws c).mark = m)).map (tableDesc ws) := by
  have each : tableDescriptors ws = (List.range 64).map (tableDesc ws) :=
    List.map_congr_left fun c _ => tableDescriptor_eq ws c
  rw [each, List.find?_map]
  rfl

theorem Lowest.found (named : m ≠ .none) (first : Lowest ws m c) :
    (tableDescriptors ws).find? (fun d => decide (d.mark = m)) = some (tableDesc ws c) := by
  obtain ⟨bound, mark, before⟩ := first
  have found : (List.range 64).find? (fun c => decide ((tableDesc ws c).mark = m)) = some c := by
    rw [List.find?_range_eq_some]
    refine ⟨decide_eq_true mark, List.mem_range.mpr bound.1, fun b lt => ?_⟩
    rw [Bool.not_eq_true', decide_eq_false_iff_not]
    intro same
    exact before b lt (bound_of_mark (Nat.lt_trans lt bound.1) (by rw [same]; exact named)) same
  rw [find?_descriptors, found]
  rfl

theorem found_lowest (named : m ≠ .none) (found : (tableDescriptors ws).find? (fun d => decide (d.mark = m)) = some d) :
    ∃ c, Lowest ws m c ∧ d = tableDesc ws c := by
  rw [find?_descriptors, Option.map_eq_some_iff] at found
  obtain ⟨c, at_, same⟩ := found
  rw [List.find?_range_eq_some] at at_
  obtain ⟨mark, inside, before⟩ := at_
  have mark := of_decide_eq_true mark
  refine ⟨c, ⟨bound_of_mark (List.mem_range.mp inside) (by rw [mark]; exact named), mark, fun b lt _ same' => ?_⟩, same.symm⟩
  have off := before b lt
  rw [decide_eq_true same'] at off
  cases off

theorem lowest_none (named : m ≠ .none) (none_ : ∀ c, ¬ Lowest ws m c) :
    (tableDescriptors ws).find? (fun d => decide (d.mark = m)) = none :=
  Option.eq_none_iff_forall_ne_some.mpr fun _ found =>
    have ⟨c, first, _⟩ := found_lowest named found
    none_ c first

/-- A mark that a bound channel names has a lowest channel. -/
theorem exists_lowest (named : m ≠ .none) (bound : TableBound ws b) (mark : (tableDesc ws b).mark = m) :
    ∃ c, Lowest ws m c := by
  refine Classical.byContradiction fun none_ => ?_
  have found := lowest_none named fun c first => none_ ⟨c, first⟩
  rw [find?_descriptors, Option.map_eq_none_iff, List.find?_eq_none] at found
  exact found b (List.mem_range.mpr bound.1) (decide_eq_true mark)

theorem Lowest.unique (first : Lowest ws m c) (other : Lowest ws m b) : c = b := by
  obtain ⟨bound, mark, before⟩ := first
  obtain ⟨bound', mark', before'⟩ := other
  rcases Nat.lt_trichotomy c b with lt | same | lt
  · exact absurd mark (before' c lt bound)
  · exact same
  · exact absurd mark' (before b lt bound')

theorem zone_named (z : Zone) : Mark.zone z ≠ .none := nofun

theorem line_named (l : Line) : Mark.line l ≠ .none := nofun

theorem boat_named : Mark.boat ≠ .none := nofun

end Sys2Proof.Machine

/-! What a tube table binds, its purge line, and the tube's load decided (R13, R90, R97, R179). -/

namespace Sys2Proof.Machine

variable {s u w : State} {k : Tube} {ws : List Word} {c b : Nat} {d e : DescWords} {m : Mark} {x : Addr} {ptr : Word}
  {l : Line} {z : Zone}

/-! ## The Binding Table's entries (R13) and the line records (R90) -/

/-- The bindings of a table. -/
def tableBinding (ws : List Word) : TubeBinding := TubeBinding.ofDescriptors (tableDescriptors ws)

theorem binding_zone (first : Lowest ws (.zone z) c) :
    (tableBinding ws).zones.get z = ⟨true, (tableDesc ws c).addr, (tableDesc ws c).w5.toNat⟩ := by
  unfold tableBinding TubeBinding.ofDescriptors
  rw [Five.get_ofFn, first.found (zone_named z)]

theorem binding_zone_none (none_ : ∀ c, ¬ Lowest ws (.zone z) c) : ((tableBinding ws).zones.get z).bound = false := by
  unfold tableBinding TubeBinding.ofDescriptors
  rw [Five.get_ofFn, lowest_none (zone_named z) none_]

theorem binding_line (first : Lowest ws (.line l) c) : (tableBinding ws).lines.get l
    = ⟨true, (tableDesc ws c).addr, (tableDesc ws c).reactive, (tableDesc ws c).purge⟩ := by
  unfold tableBinding TubeBinding.ofDescriptors
  rw [Eight.get_ofFn, first.found (line_named _)]

theorem binding_line_none (none_ : ∀ c, ¬ Lowest ws (.line l) c) :
    (tableBinding ws).lines.get l = ⟨false, 0, false, false⟩ := by
  unfold tableBinding TubeBinding.ofDescriptors
  rw [Eight.get_ofFn, lowest_none (line_named _) none_]

theorem binding_boat (first : Lowest ws .boat c) : (tableBinding ws).boat = ⟨true, (tableDesc ws c).addr⟩ := by
  unfold tableBinding TubeBinding.ofDescriptors
  dsimp only
  rw [first.found boat_named]

theorem binding_boat_none (none_ : ∀ c, ¬ Lowest ws .boat c) : (tableBinding ws).boat.bound = false := by
  unfold tableBinding TubeBinding.ofDescriptors
  dsimp only
  rw [lowest_none boat_named none_]

theorem binding_marks (inside : c < 64) : (tableBinding ws).marks[c]? = some (tableDesc ws c).mark := by
  show ((tableDescriptors ws).map DescWords.mark)[c]? = _
  unfold tableDescriptors
  rw [List.getElem?_map, List.getElem?_map, List.getElem?_range inside]
  exact congrArg (fun d : DescWords => some d.mark) (tableDescriptor_eq ws c)

/-- R90: a line's record at load. -/
def tableLine (ws : List Word) (l : Line) : LineRec := loadedLine (tableDescriptors ws) l

theorem tableLine_some (first : Lowest ws (.line l) c) : tableLine ws l = ⟨true, (tableDesc ws c).reactive,
    (tableDesc ws c).purge, 0, (tableDesc ws c).weight, (tableDesc ws c).w5.toNat, (tableDesc ws c).devCount, 0⟩ := by
  unfold tableLine loadedLine
  rw [first.found (line_named _)]

theorem tableLine_none (none_ : ∀ c, ¬ Lowest ws (.line l) c) : (tableLine ws l).bound = false := by
  unfold tableLine loadedLine
  rw [lowest_none (line_named _) none_]
  rfl

theorem tableLine_shut (ws : List Word) (l : Line) : (tableLine ws l).flow = 0 ∧ (tableLine ws l).devCounter = 0 := by
  unfold tableLine loadedLine
  split <;> exact ⟨rfl, rfl⟩

/-! ## The purge line (R97) -/

theorem ofWords_purgeLine (ws : List Word) : (Header.ofWords ws).purgeLine.toNat = (ws.getD 7 0).toNat % 8 := by
  have low : bitsOf (ws.getD 7 0) 2 0 = (ws.getD 7 0).toNat % 8 := bitsOf_low _ 2
  have bounded : (ws.getD 7 0).toNat % 8 < 8 := Nat.mod_lt _ (by decide)
  show Ix8.toNat (match Ix8.ofNat? (bitsOf (ws.getD 7 0) 2 0) with | some l => l | none => .i0) = _
  rw [low]
  generalize (ws.getD 7 0).toNat % 8 = n at bounded
  rcases lt_eight_cases bounded with rfl | rfl | rfl | rfl | rfl | rfl | rfl | rfl <;> rfl

theorem Ix8.toNat_inj {i j : Ix8} (same : i.toNat = j.toNat) : i = j :=
  Option.some.inj ((Ix8.ofNat?_eq.mpr rfl).symm.trans (Ix8.ofNat?_eq.mpr same))

/-- R97, R179: the purge line's class and mark, no other line so marked, and the header's flows within its range. -/
def PurgeOk (ws : List Word) : Prop :=
  let v (i : Nat) : Nat := (ws.getD i 0).toNat
  ∃ l c, Ix8.toNat l = v 7 % 8 ∧ Lowest ws (.line l) c ∧ (tableDesc ws c).reactive = false ∧ (tableDesc ws c).purge = true
    ∧ (∀ b, TableBound ws b → (tableDesc ws b).purge = true → (tableDesc ws b).mark = .line l)
    ∧ v 8 ≤ v (35 + c * 8) ∧ v 10 ≤ v (35 + c * 8) ∧ v 9 ≤ v (35 + c * 8)

/-- A bound channel marked as a purge line names a line. -/
theorem mark_of_purge (formed : TableFormed ws b) (marked : (tableDesc ws b).purge = true) :
    ∃ l, (tableDesc ws b).mark = .line l := by
  obtain ⟨-, line, plain, -⟩ := formed
  have kind : (ws.getD (32 + b * 8) 0).toNat % 8 = 3 := by
    refine Classical.byContradiction fun off => ?_
    rw [(plain off).2] at marked
    cases marked
  obtain ⟨index, -⟩ := line kind
  have named : (tableDesc ws b).kind = some .line := ((tableDesc ws b).kind_iff.2.2.2.1).mpr kind
  obtain ⟨l, at_⟩ : ∃ l : Line, (tableDesc ws b).index = l.toNat := by
    generalize (tableDesc ws b).index = n at index
    rcases lt_eight_cases (Nat.lt_succ_of_le index) with rfl | rfl | rfl | rfl | rfl | rfl | rfl | rfl
    · exact ⟨.i0, rfl⟩
    · exact ⟨.i1, rfl⟩
    · exact ⟨.i2, rfl⟩
    · exact ⟨.i3, rfl⟩
    · exact ⟨.i4, rfl⟩
    · exact ⟨.i5, rfl⟩
    · exact ⟨.i6, rfl⟩
    · exact ⟨.i7, rfl⟩
  exact ⟨l, DescWords.mark_line.mpr ⟨named, at_⟩⟩

/-- Without conflicts every channel of a line has the mark of its lowest. -/
theorem purge_of_lowest (agree : ¬ TableConflicts s ptr ws b) (first : Lowest ws m c) (mark : (tableDesc ws b).mark = m)
    (bound : TableBound ws b) : (tableDesc ws c).purge = (tableDesc ws b).purge := by
  obtain ⟨own, named, before⟩ := first
  rcases Nat.lt_trichotomy b c with lt | rfl | lt
  · exact absurd mark (before b lt bound)
  · rfl
  · refine Classical.byContradiction fun other => ?_
    exact agree (.inr ⟨c, lt, own, .inl ⟨named.trans mark.symm, .inr (.inr other)⟩⟩)

theorem purgeLineOk_iff (forms : ∀ c, TableBound ws c → TableFormed ws c) (binds : ∀ c, TableBound ws c → ¬ TableConflicts s ptr ws c) :
    purgeLineOk (Header.ofWords ws) (tableBinding ws) (tableDescriptors ws) = true ↔ PurgeOk ws := by
  have number := ofWords_purgeLine ws
  have flows : (Header.ofWords ws).purgeFlow = ws.getD 8 0 ∧ (Header.ofWords ws).abortPurgeFlow = ws.getD 10 0
    ∧ (Header.ofWords ws).standbyFlow = ws.getD 9 0 := ⟨rfl, rfl, rfl⟩
  generalize Header.ofWords ws = h at number flows
  obtain ⟨flow, abort, standby⟩ := flows
  unfold purgeLineOk
  rw [flow, abort, standby]
  dsimp only
  by_cases some_ : ∃ c, Lowest ws (.line h.purgeLine) c
  · obtain ⟨c, first⟩ := some_
    rw [binding_line first, first.found (line_named _)]
    simp only [Bool.and_eq_true, Bool.not_eq_true', decide_eq_true_eq, List.all_eq_true, Ix8.mem_all, true_implies,
      Bool.or_eq_true, true_and]
    constructor
    · rintro ⟨⟨⟨⟨⟨inert, marked⟩, only⟩, top⟩, abortTop⟩, standbyTop⟩
      refine ⟨h.purgeLine, c, number, first, inert, marked, fun b bound purge => ?_, top, abortTop, standbyTop⟩
      obtain ⟨j, mark⟩ := mark_of_purge (forms b bound) purge
      obtain ⟨a, firstJ⟩ := exists_lowest (line_named _) bound mark
      have same := purge_of_lowest (binds b bound) firstJ mark bound
      rcases only j with at_ | off
      · rw [mark, at_]
      · rw [binding_line firstJ] at off
        rw [show (tableDesc ws a).purge = false from off, purge] at same
        cases same
    · rintro ⟨j, a, at_, firstJ, inert, marked, only, top, abortTop, standbyTop⟩
      obtain rfl : j = h.purgeLine := Ix8.toNat_inj (at_.trans number.symm)
      obtain rfl := first.unique firstJ
      refine ⟨⟨⟨⟨⟨inert, marked⟩, fun n => ?_⟩, top⟩, abortTop⟩, standbyTop⟩
      by_cases own : n = h.purgeLine
      · exact .inl own
      · refine .inr ?_
        by_cases bound : ∃ b, Lowest ws (.line n) b
        · obtain ⟨b, firstN⟩ := bound
          rw [binding_line firstN]
          refine Bool.eq_false_iff.mpr fun purge => own ?_
          exact Mark.line.inj (firstN.2.1.symm.trans (only b firstN.1 purge))
        · rw [binding_line_none fun b firstN => bound ⟨b, firstN⟩]
  · have none_ : ∀ c, ¬ Lowest ws (.line h.purgeLine) c := fun c first => some_ ⟨c, first⟩
    rw [binding_line_none none_]
    refine ⟨fun ok => absurd ok (by simp only [Bool.false_and, Bool.false_eq_true, not_false_eq_true]), ?_⟩
    rintro ⟨j, a, at_, firstJ, -⟩
    obtain rfl : j = h.purgeLine := Ix8.toNat_inj (at_.trans number.symm)
    exact absurd firstJ (none_ a)

/-! ## The tests in their order (R179) -/

theorem loadFault_header {f : LoadFault} (fault : headerFault ws = some f) : s.loadFault ptr ws = some f := by
  unfold State.loadFault
  rw [fault]

theorem loadFault_descriptor {f : LoadFault} (header : headerFault ws = none) (fault : descriptorFault ws = some f) :
    s.loadFault ptr ws = some f := by
  unfold State.loadFault
  rw [header, fault]

section
variable (header : headerFault ws = none) (descriptors : descriptorFault ws = none)
include header descriptors

theorem loadFault_binding (conflict : s.bindingConflict ptr ws = some c) :
    s.loadFault ptr ws = some (channelFault .binding ws c) := by
  unfold State.loadFault State.bindingFault
  rw [header, descriptors, conflict]

theorem loadFault_covers (binds : s.bindingConflict ptr ws = none) (covers : s.tableCovers ptr = true) :
    s.loadFault ptr ws = some (channelFault .binding ws (Config.unattributedChannel s.freeCount).toNat) := by
  unfold State.loadFault State.bindingFault
  rw [header, descriptors, binds]
  simp only [covers, if_true]

theorem loadFault_purge (binds : s.bindingConflict ptr ws = none) (apart : s.tableCovers ptr = false) :
    s.loadFault ptr ws = purgeFault ws := by
  unfold State.loadFault State.bindingFault
  rw [header, descriptors, binds]
  simp only [apart, Bool.false_eq_true, if_false]

end

theorem purgeFault_some (bad : purgeLineOk (Header.ofWords ws) (tableBinding ws) (tableDescriptors ws) = false) :
    purgeFault ws = some ⟨.purge, none, wordOf ((ws.getD 7 0).toNat % 8)⟩ := by
  rw [← ofWords_purgeLine]
  exact if_neg (by rw [show TubeBinding.ofDescriptors (tableDescriptors ws) = tableBinding ws from rfl, bad]; exact Bool.false_ne_true)

theorem purgeFault_none (good : purgeLineOk (Header.ofWords ws) (tableBinding ws) (tableDescriptors ws) = true) :
    purgeFault ws = none := if_pos good

/-! ## The loader turns to the next tube -/

theorem later_eq (k : Tube) : Ix4.later k = Ix4.all.filter fun j => decide (k.toNat < j.toNat) := by
  cases k <;> rfl

/-- The first later tube with a property. -/
theorem find?_later_first {p : Tube → Bool} {k j : Tube} (later : k.toNat < j.toNat) (named : p j = true)
    (sooner : ∀ i : Tube, k.toNat < i.toNat → i.toNat < j.toNat → p i = false) : (Ix4.later k).find? p = some j := by
  rw [later_eq, List.find?_filter]
  refine find?_tubes_first ?_ fun i before => ?_
  · simp only [later, named, decide_true, and_self]
  · by_cases after : k.toNat < i.toNat
    · simp only [sooner i after before, Bool.false_eq_true, and_false, decide_false]
    · simp only [after, decide_false, Bool.false_eq_true, false_and]

theorem find?_later_none {p : Tube → Bool} {k : Tube} (none_ : ∀ i : Tube, k.toNat < i.toNat → p i = false) :
    (Ix4.later k).find? p = none := by
  rw [later_eq, List.find?_filter]
  refine find?_tubes_none fun i => ?_
  by_cases after : k.toNat < i.toNat
  · simp only [none_ i after, Bool.false_eq_true, and_false, decide_false]
  · simp only [after, decide_false, Bool.false_eq_true, false_and]

/-- The loader's next work is another tube's table or the scan list. -/
theorem nextLoad_turns (s : State) (k : Tube) : ∃ j, s.nextLoad (Ix4.later k) = s.setJob j ∧ ∀ ws, j ≠ .tube k ws := by
  unfold State.nextLoad
  split
  · next j found =>
    refine ⟨_, rfl, fun ws same => ?_⟩
    have mem := List.mem_of_find?_eq_some found
    rw [(LoadJob.tube.inj same).1, later_eq, List.mem_filter, decide_eq_true_eq] at mem
    exact Nat.lt_irrefl _ mem.2
  · exact ⟨_, rfl, nofun⟩

end Sys2Proof.Machine

/-! The tube load (R179): the statement. -/

namespace Sys2Proof.Machine

variable {s u w : State} {k : Tube} {ws : List Word} {f : LoadFault}

/-- What the decision of a table leaves in every case. -/
structure Decides (k : Tube) (s d : State) : Prop where
  mem : d.mem = s.mem
  loader : d.loader = s.loader
  port : d.port = s.port
  pointers : ∀ j, (d.root.tubes.get j).pointer = (s.root.tubes.get j).pointer
  others : ∀ j, j ≠ k → d.root.tubes.get j = s.root.tubes.get j ∧ d.binding.get j = s.binding.get j ∧ d.tube j = s.tube j

theorem Decides.freed (h : Decides k s.freed w) : Decides k s w := by
  obtain ⟨mem, loader, port, pointers, others⟩ := h
  rw [freed_eq] at mem loader port pointers
  refine ⟨mem, loader, port, pointers, fun j off => ?_⟩
  obtain ⟨root, binding, tube⟩ := others j off
  rw [freed_tube] at tube
  rw [freed_eq] at root binding
  exact ⟨root, binding, tube⟩

theorem decideTube_decides (s : State) (k : Tube) (ws : List Word) : Decides k s (s.decideTube k ws) := by
  unfold State.decideTube
  split
  · exact ⟨rfl, rfl, rfl, fun _ => rfl, fun _ _ => ⟨rfl, rfl, rfl⟩⟩
  · refine ⟨rfl, rfl, rfl, fun j => ?_, fun j off => 
      ⟨(Four.get_set _ _ _ _).trans (if_neg off), (Four.get_set _ _ _ _).trans (if_neg off), ?_⟩⟩
    · show ((s.root.tubes.set k _).get j).pointer = _
      rw [Four.get_set]
      split
      · next same => rw [same]; rfl
      · rfl
    · rw [acceptTube_tube, if_neg off]

/-- R179: with the 544th word the table is decided, and the command is that event. -/
theorem tubeLoad_exec {a : BusAccess} {words : List Word} {n : Nat} (some_ : 1 ≤ n) (flight : InFlight s .walk a)
    (read : a.write = none) (off : s.portOffWalk = true) (job : s.loader.job = .tube k words) (length : words.length = 543) :
    exec (.tubeLoad n) s = .next (s.takeDue.finish
      ((s.freed.decideTube k (s.readWord a.addr :: words).reverse).nextLoad (Ix4.later k))) := by
  have loader : s.freed.loader = s.loader := by rw [freed_eq]
  have event : s.freed.tubeWord (s.readWord a.addr)
      = (s.freed.decideTube k (s.readWord a.addr :: words).reverse).nextLoad (Ix4.later k) := by
    unfold State.tubeWord
    rw [loader, job]
    exact if_neg (by omega)
  have at_ : (s.openBus .walk).loadingTube = some k := by
    rw [openBus_of_inFlight flight]
    unfold State.loadingTube
    rw [(Finished.takeDue s).loader, job]
  obtain ⟨j, turns, elsewhere⟩ := nextLoad_turns (s.freed.decideTube k (s.readWord a.addr :: words).reverse) k
  refine congrArg Host.Outcome.next ((load_exec (ready := State.onTubeJob (s.openBus .walk).loadingTube) some_ flight read
    ?_ ?_).trans (by rw [event]))
  · unfold State.onTubeJob
    rw [takeDue_offWalk, off, (Finished.takeDue s).loader, job, at_]
    exact decide_eq_true rfl
  · rw [event, turns, at_]
    unfold State.onTubeJob
    rw [(Finished.finish s.takeDue _).loader]
    cases j with
    | tube u ws =>
      have apart : ¬ some k = some u := fun same => elsewhere ws (by rw [Option.some.inj same])
      exact (congrArg (fun b => _ && b) (decide_eq_false apart)).trans (Bool.and_false _)
    | _ => exact Bool.and_false _

/-- What the load leaves of the rest of the part, and where the loader turns. -/
theorem Decides.leaves (h : Decides k s w) :
    let t := s.takeDue.finish (w.nextLoad (Ix4.later k))
    t.mem = s.mem ∧ t.loader.phase = s.loader.phase ∧ t.port = s.port
    ∧ (∀ j, j ≠ k → t.root.tubes.get j = s.root.tubes.get j ∧ t.binding.get j = s.binding.get j
        ∧ TubeKept (s.tube j) (t.tube j))
    ∧ (∀ j : Tube, k.toNat < j.toNat → (s.root.tubes.get j).pointer ≠ 0 →
        (∀ i : Tube, k.toNat < i.toNat → i.toNat < j.toNat → (s.root.tubes.get i).pointer = 0) →
        t.loader.job = .tube j [])
    ∧ ((∀ j : Tube, k.toNat < j.toNat → (s.root.tubes.get j).pointer = 0) → t.loader.job = .scanList []) := by
  intro t
  have after := Finished.finish s.takeDue (w.nextLoad (Ix4.later k))
  obtain ⟨job, turns, -⟩ := nextLoad_turns w k
  have fields : (w.nextLoad (Ix4.later k)).mem = w.mem ∧ (w.nextLoad (Ix4.later k)).port = w.port
      ∧ (w.nextLoad (Ix4.later k)).loader.phase = w.loader.phase ∧ (w.nextLoad (Ix4.later k)).root = w.root
      ∧ (w.nextLoad (Ix4.later k)).binding = w.binding ∧ ∀ j, (w.nextLoad (Ix4.later k)).tube j = w.tube j := by
    rw [turns]; exact ⟨rfl, rfl, rfl, rfl, rfl, fun _ => rfl⟩
  obtain ⟨mem, port, phase, root, binding, tubes⟩ := fields
  refine ⟨(after.mem.trans mem).trans h.mem, ?_, (after.port.trans port).trans h.port, fun j off => ?_,
    fun j later own sooner => ?_, fun none_ => ?_⟩
  · rw [after.loader, phase, h.loader]
  · obtain ⟨rootJ, bindingJ, tubeJ⟩ := h.others j off
    rw [after.root, after.binding, root, binding]
    refine ⟨rootJ, bindingJ, ?_⟩
    rw [← tubeJ, ← tubes]
    exact (after.tubes j).kept
  · have found : w.nextLoad (Ix4.later k) = w.setJob (.tube j []) := by
      unfold State.nextLoad
      rw [find?_later_first (p := fun t => (w.root.tubes.get t).pointer != 0) later
        (bne_iff_ne.mpr (by rw [h.pointers]; exact own)) fun i low high => bne_eq_false_iff_eq.mpr (by
          rw [h.pointers]; exact sooner i low high)]
    rw [after.loader, found]
    rfl
  · have found : w.nextLoad (Ix4.later k) = w.setJob (.scanList []) := by
      unfold State.nextLoad
      rw [find?_later_none (p := fun t => (w.root.tubes.get t).pointer != 0) fun i low =>
        bne_eq_false_iff_eq.mpr (by rw [h.pointers]; exact none_ i low)]
    rw [after.loader, found]
    rfl

/-- R179: a tube that fails is left absent, with its notice. -/
theorem rejectTube_leaves {c t : State} {job : LoadJob} (after : Finished ((c.rejectTube k f).setJob job) t) :
    t.root = c.root ∧ t.binding = c.binding ∧ TubeKept (c.tube k) (t.tube k)
      ∧ Reports c t (notice .descFault (some k) f.channel f.code.code 0 f.value 0) :=
  ⟨after.root, after.binding, (after.tubes k).kept, Reports.of_place (u := c) rfl after.clock after.buffer⟩

theorem rejected_leaves (fault : s.freed.loadFault (s.freed.root.tubes.get k).pointer ws = some f) :
    let t := s.takeDue.finish ((s.freed.decideTube k ws).nextLoad (Ix4.later k))
    t.root = s.root ∧ t.binding = s.binding ∧ TubeKept (s.tube k) (t.tube k)
      ∧ Reports s t (notice .descFault (some k) f.channel f.code.code 0 f.value 0) := by
  obtain ⟨job, turns, -⟩ := nextLoad_turns (s.freed.decideTube k ws) k
  have decided : s.freed.decideTube k ws = s.freed.rejectTube k f := by unfold State.decideTube; rw [fault]
  have same : (s.freed.decideTube k ws).nextLoad (Ix4.later k) = (s.freed.rejectTube k f).setJob job :=
    turns.trans (congrArg (fun c : State => c.setJob job) decided)
  have after := Finished.finish s.takeDue ((s.freed.decideTube k ws).nextLoad (Ix4.later k))
  generalize s.takeDue.finish ((s.freed.decideTube k ws).nextLoad (Ix4.later k)) = t at after
  rw [same] at after
  have leaves := rejectTube_leaves after
  have buffer : s.freed.notices.buffer = s.notices.buffer := by rw [freed_eq]
  have reports : ∀ n, Reports s.freed t n → Reports s t n := fun n report room => by
    rw [← buffer] at room
    exact report room
  obtain ⟨root, binding, tube, report⟩ := leaves
  rw [freed_tube] at tube
  exact ⟨root.trans (by rw [freed_eq]), binding.trans (by rw [freed_eq]), tube, reports _ report⟩

/-- R13, R90, R179: a tube that passes has its bindings, header and line records taken. -/
theorem accepted_leaves (sound : s.freed.loadFault (s.freed.root.tubes.get k).pointer ws = none) :
    let t := s.takeDue.finish ((s.freed.decideTube k ws).nextLoad (Ix4.later k))
    t.root = { s.root with tubes := s.root.tubes.set k { s.root.tubes.get k with present := true } }
      ∧ t.binding = s.binding.set k (tableBinding ws)
      ∧ TubeShift false True { s.tube k with
          header := Header.ofWords ws, gas := { (s.tube k).gas with lines := Eight.ofFn (tableLine ws) } } (t.tube k) := by
  obtain ⟨job, turns, -⟩ := nextLoad_turns (s.freed.decideTube k ws) k
  have decided : s.freed.decideTube k ws = s.freed.acceptTube k ws := by unfold State.decideTube; rw [sound]
  have same : (s.freed.decideTube k ws).nextLoad (Ix4.later k) = (s.freed.acceptTube k ws).setJob job :=
    turns.trans (congrArg (fun c : State => c.setJob job) decided)
  have after := Finished.finish s.takeDue ((s.freed.decideTube k ws).nextLoad (Ix4.later k))
  generalize s.takeDue.finish ((s.freed.decideTube k ws).nextLoad (Ix4.later k)) = t at after
  rw [same] at after
  have root : s.freed.root = s.root := by rw [freed_eq]
  have binding : s.freed.binding = s.binding := by rw [freed_eq]
  refine ⟨after.root.trans ?_, after.binding.trans ?_, ?_⟩
  · exact congrArg (fun q : RootCopy => { q with tubes := q.tubes.set k { q.tubes.get k with present := true } }) root
  · exact congrArg (fun q : Four TubeBinding => q.set k (tableBinding ws)) binding
  · have tube : ((s.freed.acceptTube k ws).setJob job).tube k = _ := (acceptTube_tube s.freed k ws k).trans (if_pos rfl)
    have kept := after.tubes k
    rw [tube, freed_tube] at kept
    exact kept

/-- The fault of a channel, as its notice carries it. -/
theorem channelFault_eq (code : FaultCode) (ws : List Word) (c : Nat) :
    channelFault code ws c = ⟨code, some (BitVec.ofNat 6 c), ws.getD (32 + c * 8) 0⟩ := by
  unfold channelFault
  rw [tableDescriptor_eq]
  rfl

/-- The read that completes changes nothing that a table is tested against. -/
theorem tests_freed (s : State) (ptr : Word) (ws : List Word) :
    (∀ c, TableConflicts s.freed ptr ws c ↔ TableConflicts s ptr ws c) ∧ s.freed.tableCovers ptr = s.tableCovers ptr := by
  rw [freed_eq]
  exact ⟨fun _ => Iff.rfl, rfl⟩

/-- R189: the header's fields from its words. -/
theorem ofWords_header (ws : List Word) : Header.ofWords ws = { Header.ofWords ws with
    settleRetryLimit := (ws.getD 6 0).toNat % 256, stallCount := (ws.getD 29 0).toNat % 16 } :=
  congr (congrArg (fun limit count => { Header.ofWords ws with settleRetryLimit := limit, stallCount := count })
    (bitsOf_low (ws.getD 6 0) 7)) (bitsOf_low (ws.getD 29 0) 3)

/-- R90: the line records of a tube loaded with a table, whatever its examination releases. -/
theorem TubeShift.table_lines {x y : TubeState}
    (h : TubeShift false True { x with
      header := Header.ofWords ws, gas := { x.gas with lines := Eight.ofFn (tableLine ws) } } y) :
    (∀ l c, Lowest ws (.line l) c → { y.gas.lines.get l with flow := 0, devCounter := 0 }
        = ⟨true, (tableDesc ws c).reactive, (tableDesc ws c).purge, 0, (tableDesc ws c).weight, (tableDesc ws c).w5.toNat,
            (tableDesc ws c).devCount, 0⟩)
    ∧ (∀ l, (∀ c, ¬ Lowest ws (.line l) c) → (y.gas.lines.get l).bound = false)
    ∧ (x.mode ≠ .run ∨ x.queue = [] → x.gas.run = none →
        ∀ l, (y.gas.lines.get l).flow = 0 ∧ (y.gas.lines.get l).devCounter = 0) := by
  have plates : ∀ l, (y.gas.lines.get l).plate = (tableLine ws l).plate := fun l => by
    rw [h.plates l, Eight.get_ofFn]
  refine ⟨fun l c first => ?_, fun l none_ => ?_, fun quiet none_ l => ?_⟩
  · have plate := plates l
    rw [tableLine_some first] at plate
    exact plate
  · exact (congrArg LineRec.bound (plates l)).trans (tableLine_none none_)
  · rw [((h.gasIdle rfl quiet).noRun none_).1, Eight.get_ofFn]
    exact tableLine_shut ws l

/-- Settles O6. -/
theorem tubeLoadIsDecided : Obligations.TubeLoadIsDecided := by
  intro s a k words n some_ flight read off job length ws w v outOfRange d kind bound checked formed table forbidden conflicts
    covers lowest purgeOk header ranges checks forms binds fails
  let ptr := (s.root.tubes.get k).pointer
  have address : (s.freed.root.tubes.get k).pointer = ptr := by rw [freed_eq]
  obtain ⟨mem, phase, port, others, next, last⟩ := (decideTube_decides s.freed k ws).freed.leaves
  obtain ⟨conflictsFreed, coversFreed⟩ := tests_freed s ptr ws
  have rejected : ∀ {f : LoadFault}, s.freed.loadFault ptr ws = some f → _ := fun {f} fault =>
    rejected_leaves (s := s) (k := k) (ws := ws) (f := f) (by rw [address]; exact fault)
  have headerNone : header → ranges → headerFault ws = none := headerFault_none
  have descriptorNone : checks → forms → descriptorFault ws = none := descriptorFault_none
  have conflictNone : binds → s.freed.bindingConflict ptr ws = none := fun agree =>
    bindingConflict_none fun c inside bad => agree c inside ((conflictsFreed c).mp bad)
  have purge : forms → binds → (purgeLineOk (Header.ofWords ws) (tableBinding ws) (tableDescriptors ws) = true ↔ purgeOk) :=
    fun form agree => purgeLineOk_iff (s := s) (ptr := ptr) form agree
  refine ⟨_, tubeLoad_exec some_ flight read off job length, mem, phase, port, others, fun bad => ?_, fun i good wrong first => ?_,
    fun c good ranged inside bad first => ?_, fun c good ranged check inside bad first => ?_,
    fun c good ranged check form inside bad first => ?_, fun good ranged check form agree cover => ?_,
    fun good ranged check form agree apart bad => ?_, fun good ranged check form agree apart pure_ => ?_, next, last⟩
  · exact rejected (loadFault_header (headerFault_check bad))
  · exact rejected (loadFault_header (headerFault_range good wrong first))
  · have fault := descriptorFault_check inside bad first
    rw [channelFault_eq] at fault
    exact rejected (loadFault_descriptor (headerNone good ranged) fault)
  · have fault := descriptorFault_form check inside bad first
    rw [channelFault_eq] at fault
    exact rejected (loadFault_descriptor (headerNone good ranged) fault)
  · have fault := loadFault_binding (s := s.freed) (ptr := ptr) (headerNone good ranged) (descriptorNone check form)
      (bindingConflict_some inside ((conflictsFreed c).mpr bad) fun b before within clash =>
        first b before within ((conflictsFreed b).mp clash))
    rw [channelFault_eq] at fault
    exact rejected fault
  · have fault := loadFault_covers (s := s.freed) (ptr := ptr) (headerNone good ranged) (descriptorNone check form)
      (conflictNone agree) (by rw [coversFreed]; exact tableCovers_iff.mpr cover)
    rw [channelFault_eq] at fault
    exact ⟨_, (Config.unattributedChannel s.freed.freeCount).isLt, rejected fault⟩
  · have apart' : s.freed.tableCovers ptr = false := by
      rw [coversFreed]; exact Bool.eq_false_iff.mpr fun c => apart (tableCovers_iff.mp c)
    have fault := (loadFault_purge (s := s.freed) (ptr := ptr) (headerNone good ranged) (descriptorNone check form)
      (conflictNone agree) apart').trans (purgeFault_some (Bool.eq_false_iff.mpr fun ok => bad ((purge form agree).mp ok)))
    exact rejected fault
  · have apart' : s.freed.tableCovers ptr = false := by
      rw [coversFreed]; exact Bool.eq_false_iff.mpr fun c => apart (tableCovers_iff.mp c)
    have sound := (loadFault_purge (s := s.freed) (ptr := ptr) (headerNone good ranged) (descriptorNone check form)
      (conflictNone agree) apart').trans (purgeFault_none ((purge form agree).mpr pure_))
    obtain ⟨root, binding, tube⟩ := accepted_leaves (s := s) (k := k) (ws := ws) (by rw [address]; exact sound)
    obtain ⟨line, unbound, shut⟩ := tube.table_lines
    have own := congrArg (fun q : Four TubeBinding => q.get k) binding
    rw [Four.get_set, if_pos rfl] at own
    refine ⟨?_, ?_, fun z c first => ?_, fun z none_ => ?_, fun l c first => ?_, fun l none_ => ?_, fun c first => ?_,
      fun none_ => ?_, fun c inside => ?_, ?_, ?_, tube.mode, line, unbound, shut⟩
    · rw [root]
    · rw [root, Four.get_set, if_pos rfl]
    · rw [own]; exact binding_zone first
    · rw [own]; exact binding_zone_none none_
    · rw [own]; exact binding_line first
    · rw [own, binding_line_none none_]
    · rw [own]; exact binding_boat first
    · rw [own]; exact binding_boat_none none_
    · rw [own]; exact binding_marks inside
    · rw [tube.header]; exact ofWords_purgeLine ws
    · rw [tube.header]; exact ofWords_header ws

end Sys2Proof.Machine
